-- ==== Sys2Proof/Word.lean ====
section
/-!
DEFINITION. The word types of R3 and R68, and keyed lists in one canonical form (keys strictly rising),
which hold everything sparse in the state.
-/
namespace Sys2Proof

abbrev Byte := BitVec 8
/-- A word of R3: 32 bits. -/
abbrev Word := BitVec 32
/-- A dword of R3: 64 bits. -/
abbrev Dword := BitVec 64
/-- One bit per lane of a group: em, members, a condition mask, an acting set. -/
abbrev LaneMask := BitVec 32
/-- A code-word address (R54). -/
abbrev CodeAddr := BitVec 55

/-- A finite map keyed by numbers: pairs with strictly rising keys. -/
abbrev Map (α : Type) := List (Nat × α)

namespace Map

variable {α : Type}

/-- The value at a key. -/
def get? : Map α → Nat → Option α
  | [], _ => none
  | (j, w) :: t, k => if j = k then some w else get? t k

/-- The value at a key, or what an unlisted key reads as. -/
def getD (m : Map α) (k : Nat) (d : α) : α := (get? m k).getD d

/-- Writes a value at a key, in key order. -/
def put : Map α → Nat → α → Map α
  | [], k, v => [(k, v)]
  | (j, w) :: t, k, v =>
    if k < j then (k, v) :: (j, w) :: t
    else if k = j then (k, v) :: t
    else (j, w) :: put t k v

/-- Removes a key. -/
def del (m : Map α) (k : Nat) : Map α := m.filter (fun p => p.1 != k)

/-- Writes a value where unlisted keys read as `d`: writing `d` removes the entry. -/
def putD [DecidableEq α] (m : Map α) (d : α) (k : Nat) (v : α) : Map α :=
  if v = d then del m k else put m k v

/-- Changes the value at a key, if there is one. -/
def modify (m : Map α) (k : Nat) (f : α → α) : Map α :=
  m.map (fun p => if p.1 = k then (p.1, f p.2) else p)

/-- Every key is greater than `b` and the keys rise strictly. -/
def risingFrom : Map α → Nat → Bool
  | [], _ => true
  | (j, _) :: t, b => decide (b ≤ j) && risingFrom t (j + 1)

/-- The canonical form: strictly rising keys. -/
def rising (m : Map α) : Bool := risingFrom m 0

/-- The canonical form where unlisted keys read as `d`: rising keys and no entry equal to `d`. -/
def canon [DecidableEq α] (m : Map α) (d : α) : Bool :=
  rising m && m.all (fun p => decide (p.2 ≠ d))

end Map

end Sys2Proof
end

