-- ==== Sys2Proof/Config.lean ====
section
/-!
DEFINITION. What is fixed for the module, and the free values: constants with no body, so that nothing can be
proved of which value they give.
-/
namespace Sys2Proof.Config

/-- R12: four dies, 64 cores each, 16 bents each, 64 slices each. -/
def nDies : Nat := 4
def coresPerDie : Nat := 64
def nCores : Nat := 256
def bentsPerDie : Nat := 16

/-- R30, R14: slots of a core. -/
def slots : Nat := 64

/-- R18, R14: scratchpad bytes of a core. -/
def scratchBytes : Nat := 1048576

/-- R14: register file bytes of a core. -/
def regFileBytes : Nat := 524288

/-- What a byte that nothing has written reads as (log 3, DESIGN CHOICE: the spec gives no value after power-on). -/
def unwritten : Byte := 0

/-- A free number: an unspecified value of R10, indexed by the state's counter of free values (log 2). -/
opaque freeNat : Nat → Nat

/-- A free choice between two values the spec allows (R65, R156), indexed in the same way (log 2). -/
opaque freeBit : Nat → Bool

/-- The bytes of an image after its header (R292: their layout is internal to the device), for an image number (log 8). -/
opaque imagePayload : Nat → List Byte

/-- R389: the SHA-512 value of the key fused in die 0, and the fused rollback counter (log 5). -/
opaque fusedKeyHash : BitVec 512
opaque fusedRollback : Nat

/-- R390: what an attestation report holds, in a layout that the spec does not give: the nonce, the stages' digests and versions, the
fuses, and the serial number (log 9). -/
opaque attestBody : List Byte → List (BitVec 512 × Nat) → BitVec 512 × Nat → BitVec 64 → List Byte

/-- R390: the module's serial number, and its identity key: modulus and private exponent (log 9). -/
opaque serialNumber : BitVec 64
opaque identityKey : BitVec 4096 × Nat

end Sys2Proof.Config
end

