-- ==== Sys2Proof/Syntax.lean ====
section
/-!
DEFINITION. The instructions and the machine's steps: one constructor of `Instr` for every row of the
opcode table. The first 125 are instructions of classes 0 to 7 (R75) with the operands that R53 to R67 and
their own descriptions give; the other 102 are steps of the machine and actions of the host, each with the
unit or entry it names. Machine steps have no encoding.
-/
namespace Sys2Proof

/-- What every instruction word carries: the guard (R59), the stall count and the yield hint (R63, R43). -/
structure Hdr where
  gneg : Bool
  gidx : BitVec 3
  stall : BitVec 4
  yield : Bool
  deriving DecidableEq, Repr

/-- The special registers of R69, in index order from 0x40. -/
inductive SReg where
  | lane | grp | blk | clu | stage | core | die | time | tstamp | task | front | olane | ogrp
  deriving DecidableEq, Repr

/-- A source operand of R55. -/
inductive Src where
  | v (r : BitVec 8)
  | s (r : BitVec 6)
  | sp (r : SReg)
  | sz
  | imm
  deriving DecidableEq, Repr

/-- A destination operand of R55. -/
inductive Dst where
  | v (r : BitVec 8)
  | s (r : BitVec 6)
  | sz
  deriving DecidableEq, Repr

/-- A 64-bit operand that is a scalar register or a vector pair: branch targets of R111. -/
inductive Tgt where
  | s (r : BitVec 6)
  | v (r : BitVec 8)
  deriving DecidableEq, Repr

/-- A base operand of classes 4 and 5 (R172, R183). -/
inductive Base where
  | s (r : BitVec 6)
  | sz
  | v (r : BitVec 8)
  deriving DecidableEq, Repr

/-- Source modifiers (R60): lane selection, then absolute value, then negation. -/
structure Mods where
  mclass : BitVec 2
  mseg : BitVec 3
  mdist : BitVec 5
  neg : Bool
  abs : Bool
  deriving DecidableEq, Repr

/-- Class 1 widths of R76. -/
inductive IWidth where
  | w32 | w64 | p16 | p8
  deriving DecidableEq, Repr

/-- Class 2 formats of R76. -/
inductive FFmt where
  | f32 | f64 | f16 | bf16 | f16x2 | bf16x2
  deriving DecidableEq, Repr

/-- Operands of a one-source operation (R56: `scalar` is the side that bkind gives). -/
structure Ops1 where
  scalar : Bool
  mods : Mods
  d : Dst
  a : Src
  imm : BitVec 32
  deriving DecidableEq, Repr

/-- Operands of a two-source operation. -/
structure Ops2 where
  mods : Mods
  d : Dst
  a : Src
  b : Src
  imm : BitVec 32
  deriving DecidableEq, Repr

/-- Operands of a three-source operation. C is the immediate when `c` is `Src.imm` (ckind = 0). -/
structure Ops3 where
  mods : Mods
  d : Dst
  a : Src
  b : Src
  c : Src
  imm : BitVec 32
  deriving DecidableEq, Repr

/-- Operands of a compare (R131, R136): the mask it writes and its sources. -/
structure OpsCmp where
  mods : Mods
  m : BitVec 3
  a : Src
  b : Src
  imm : BitVec 32
  deriving DecidableEq, Repr

/-- Conditions of ICMP (R131), in code order. -/
inductive ICond where
  | eq | ne | lt | le | gt | ge
  deriving DecidableEq, Repr

/-- Conditions of FCMP (R136), in code order. -/
inductive FCond where
  | eq | ne | lt | le | gt | ge | un | ord
  deriving DecidableEq, Repr

/-- Fields of FCVT (R141). -/
structure CvtOps where
  scalar : Bool
  mods : Mods
  d : Dst
  a : Src
  xv : BitVec 4
  k : BitVec 3
  j : BitVec 3
  sat : BitVec 2
  rnd : BitVec 3
  srct : BitVec 6
  dstt : BitVec 6
  deriving DecidableEq, Repr

/-- Operand of MAND, MOR and MREST (R111): a scalar source, or a condition mask. -/
inductive MaskSrc where
  | src (a : Src) (imm : BitVec 32)
  | cm (m : BitVec 3)
  deriving DecidableEq, Repr

inductive ShflMode where
  | idx | rot | rev | xor
  deriving DecidableEq, Repr

inductive VoteMode where
  | mask | count | lead | same
  deriving DecidableEq, Repr

/-- Operations of REDUX (R148), in code order. -/
inductive ReduxOp where
  | add | min | max | minu | maxu | and | or | xor | fadd | fmin | fmax | first
  deriving DecidableEq, Repr

/-- Destination of VOTE and REDUX (R145): a vector register, or a scalar when IMM[4] is 1. -/
inductive LDst where
  | v (r : BitVec 8)
  | s (r : BitVec 6)
  deriving DecidableEq, Repr

/-- Order kinds of R170. -/
inductive Ord where
  | relaxed | acquire | release | sc
  deriving DecidableEq, Repr

/-- Widths of R173. -/
inductive MWidth where
  | n8 | i8 | n16 | i16 | w32 | w64 | w128
  deriving DecidableEq, Repr

/-- Address fields of class 4 (R170, R172). -/
structure AddrOps where
  a : Base
  b : Src
  scale : BitVec 2
  off : BitVec 22
  scope : BitVec 4
  deriving DecidableEq, Repr

/-- A load or store of class 4 (R170 to R173). `sel` is IMM[25:24]: rep for LDG, member for LDW and STW. -/
structure MemOps where
  width : MWidth
  ord : Ord
  sel : BitVec 2
  d : Src
  at_ : AddrOps
  deriving DecidableEq, Repr

/-- Spaces of class 5 (R183). -/
inductive CSpace where
  | glb | scr | win | mb
  deriving DecidableEq, Repr

/-- Operations of ATOM and RED (R184), in code order. -/
inductive AtomOp where
  | add | min | max | minu | maxu | and | or | xor | exch | fadd | fmin | fmax
  deriving DecidableEq, Repr

/-- A class 5 access to memory (R183). -/
structure AtomOps where
  wide : Bool
  ord : Ord
  scope : BitVec 4
  space : CSpace
  d : Dst
  a : Base
  b : Src
  off : BitVec 20
  deriving DecidableEq, Repr

/-- Which barrier word a barrier instruction names (R190). -/
structure BarRef where
  member : Bool
  rank : BitVec 2
  index : BitVec 4
  deriving DecidableEq, Repr

/-- One parameter word (R66, R67): a literal, or a substitution marker naming a scalar register. -/
inductive PWord where
  | lit (w : BitVec 32)
  | sub (r : BitVec 6)
  deriving DecidableEq, Repr

structure PBlock where
  p0 : PWord
  p1 : PWord
  p2 : PWord
  p3 : PWord
  deriving DecidableEq, Repr

/-- Guard slot field of R225. -/
abbrev GSlot := Option (BitVec 3)

/-- Fields of CPY, CPYG and CPYW (R232). -/
structure CopyOps where
  e : BitVec 3
  gs : GSlot
  scope : BitVec 4
  sspace : BitVec 2
  dspace : BitVec 2
  credit : Bool
  bar : BitVec 4
  seq : BitVec 6
  d : BitVec 6
  a : BitVec 6
  b : Option (BitVec 6)
  p : PBlock
  deriving DecidableEq, Repr

/-- Fields of MXLW (R243). -/
structure MxlwOps where
  gs : GSlot
  fmt : BitVec 6
  scale : BitVec 2
  xv : BitVec 4
  tr : Bool
  bay : BitVec 2
  a : BitVec 6
  deriving DecidableEq, Repr

/-- Fields of MXLOOP (R247). -/
structure MxloopOps where
  gs : GSlot
  fmt : BitVec 6
  scale : BitVec 2
  xv : BitVec 4
  mask : BitVec 4
  rb : BitVec 6
  m1 : BitVec 6
  a : BitVec 6
  b : BitVec 6
  p : PBlock
  deriving DecidableEq, Repr

/-- Epilogues of MXDRAIN (R252), in code order. -/
inductive Epi where
  | none | scale | relu | silu | cvt
  deriving DecidableEq, Repr

/-- Fields of MXDRAIN (R252). `dst` is the first register, or the scalar that holds the scratch offset. -/
structure MxdrainOps where
  gs : GSlot
  dst : Tgt
  b : Base
  dfmt : BitVec 6
  rnd : BitVec 3
  sat : BitVec 2
  epi : Epi
  bay : BitVec 2
  rb : BitVec 6
  m1 : BitVec 6
  deriving DecidableEq, Repr

/-- Fields of XFETCH, XPIN, XUNPIN and XSTAT (R271). -/
structure ExpOps where
  m : BitVec 3
  d : Dst
  a : BitVec 6
  b : Src
  imm : BitVec 20
  deriving DecidableEq, Repr

/-- Fields of COLL (R256). -/
structure CollOps where
  typ : BitVec 3
  gs : GSlot
  scope : BitVec 4
  retries : BitVec 8
  op : BitVec 2
  d : BitVec 6
  a : BitVec 6
  b : BitVec 6
  p : PBlock
  deriving DecidableEq, Repr

/-- The control registers of R72. -/
inductive Csr where
  | status | cause | epc | eval | tvec | sbchk | backoff | fflags | frm
  | xv (n : BitVec 4)
  | ensd | shoru | snapctl
  deriving DecidableEq, Repr

/-- Why a step of a collective may end without an acknowledgement (R259): its time is over, its receiver refused it, or that member is
known to have failed. -/
inductive StepEnd where
  | late | refused | gone
  deriving DecidableEq, Repr

/-- The step of a collective that a member has with another, and how it ends. -/
structure StepLoss where
  rank : Nat
  why : StepEnd
  deriving DecidableEq, Repr

/-- What a member of a collective sends (R257, R258): the header of its block, and the bytes; an acknowledgement has none. -/
structure CollBlock where
  tag : BitVec 32
  op : Nat
  typ : Nat
  bytes : List Byte
  deriving DecidableEq, Repr

/-- An entry of a queue that is acknowledged (R52), and whether its receiver is full, where that is a peer. -/
structure EntryAck where
  entry : Nat
  full : Bool
  deriving DecidableEq, Repr

/-- The die whose distributor reads a record (R50), and the launch queue (R385). -/
structure QueueRead where
  die : Nat
  queue : Nat
  deriving DecidableEq, Repr

/-- One firmware stage that the boot ROM or an upload offers (R389): its bytes and version, the modulus of the key that signed it,
and the signature. -/
structure FwStage where
  image : List (BitVec 8)
  version : Nat
  modulus : BitVec 4096
  sig : BitVec 4096
  deriving DecidableEq, Repr

/-- The table's rows. -/
inductive Instr where
  -- class 0 (R111)
  | nop (h : Hdr)
  | bra (h : Hdr) (off : BitVec 32) (join : BitVec 24)
  | brx (h : Hdr) (a : Tgt) (join : BitVec 32)
  | call (h : Hdr) (d : BitVec 8) (off : BitVec 32)
  | callx (h : Hdr) (d : BitVec 8) (a : Tgt)
  | ret (h : Hdr) (a : Tgt)
  | exit (h : Hdr)
  | trap (h : Hdr) (code : BitVec 8) (a : Src)
  | msave (h : Hdr) (d : Dst)
  | mand (h : Hdr) (x : MaskSrc)
  | mor (h : Hdr) (x : MaskSrc)
  | mrest (h : Hdr) (x : MaskSrc)
  | regroup (h : Hdr) (off : BitVec 32) (a : Src)
  | launch (h : Hdr) (a : BitVec 6)
  | launchLane (h : Hdr) (a : BitVec 8)
  -- class 1 (R124)
  | iadd (h : Hdr) (w : IWidth) (o : Ops2)
  | isub (h : Hdr) (w : IWidth) (o : Ops2)
  | imul (h : Hdr) (w : IWidth) (o : Ops2)
  | imulh (h : Hdr) (w : IWidth) (uns : Bool) (o : Ops2)
  | imad (h : Hdr) (w : IWidth) (o : Ops3)
  | imin (h : Hdr) (w : IWidth) (uns : Bool) (o : Ops2)
  | imax (h : Hdr) (w : IWidth) (uns : Bool) (o : Ops2)
  | iabs (h : Hdr) (w : IWidth) (o : Ops1)
  | and (h : Hdr) (w : IWidth) (o : Ops2)
  | or (h : Hdr) (w : IWidth) (o : Ops2)
  | xor (h : Hdr) (w : IWidth) (o : Ops2)
  | andn (h : Hdr) (w : IWidth) (o : Ops2)
  | shl (h : Hdr) (w : IWidth) (o : Ops2)
  | shr (h : Hdr) (w : IWidth) (o : Ops2)
  | sar (h : Hdr) (w : IWidth) (o : Ops2)
  | rotl (h : Hdr) (w : IWidth) (o : Ops2)
  | bfx (h : Hdr) (w : IWidth) (uns : Bool) (o : Ops2)
  | bfi (h : Hdr) (w : IWidth) (o : Ops3)
  | popc (h : Hdr) (w : IWidth) (o : Ops1)
  | clz (h : Hdr) (w : IWidth) (o : Ops1)
  | brev (h : Hdr) (w : IWidth) (o : Ops1)
  | sel (h : Hdr) (w : IWidth) (o : Ops2)
  | mov (h : Hdr) (w : IWidth) (o : Ops1)
  | lea (h : Hdr) (sh : BitVec 2) (uns : Bool) (o : Ops2)
  | icmp (h : Hdr) (w : IWidth) (uns : Bool) (c : ICond) (o : OpsCmp)
  -- class 2 (R132)
  | fadd (h : Hdr) (f : FFmt) (o : Ops2)
  | fsub (h : Hdr) (f : FFmt) (o : Ops2)
  | fmul (h : Hdr) (f : FFmt) (o : Ops2)
  | ffma (h : Hdr) (f : FFmt) (o : Ops3)
  | fmin (h : Hdr) (f : FFmt) (o : Ops2)
  | fmax (h : Hdr) (f : FFmt) (o : Ops2)
  | fcmp (h : Hdr) (f : FFmt) (c : FCond) (o : OpsCmp)
  | frcp (h : Hdr) (f : FFmt) (o : Ops1)
  | frsq (h : Hdr) (f : FFmt) (o : Ops1)
  | fsqrt (h : Hdr) (f : FFmt) (o : Ops1)
  | fex2 (h : Hdr) (f : FFmt) (o : Ops1)
  | flg2 (h : Hdr) (f : FFmt) (o : Ops1)
  | fsin (h : Hdr) (f : FFmt) (o : Ops1)
  | fcos (h : Hdr) (f : FFmt) (o : Ops1)
  | fcvt (h : Hdr) (o : CvtOps)
  | fcls (h : Hdr) (f : FFmt) (scalar : Bool) (mods : Mods) (m : BitVec 3) (a : Src) (set : BitVec 10)
  | frnd (h : Hdr) (f : FFmt) (scalar : Bool) (mods : Mods) (d : Dst) (a : Src) (rnd : BitVec 3)
  | fscl (h : Hdr) (f : FFmt) (o : Ops2)
  -- class 3 (R145)
  | shfl (h : Hdr) (mode : ShflMode) (pair : Bool) (d a : BitVec 8) (b : Src) (imm : BitVec 32)
  | vote (h : Hdr) (mode : VoteMode) (d : LDst) (a : BitVec 8)
  | redux (h : Hdr) (op : ReduxOp) (f : BitVec 3) (d : LDst) (a : BitVec 8)
  | matchLanes (h : Hdr) (pair : Bool) (d a : BitVec 8)
  | prmt (h : Hdr) (d a : BitVec 8) (b c : Src) (imm : BitVec 32)
  -- class 4 (R172)
  | ldg (h : Hdr) (o : MemOps)
  | stg (h : Hdr) (o : MemOps)
  | lds (h : Hdr) (o : MemOps)
  | sts (h : Hdr) (o : MemOps)
  | ldw (h : Hdr) (o : MemOps)
  | stw (h : Hdr) (o : MemOps)
  | ldc (h : Hdr) (o : MemOps)
  | pref (h : Hdr) (level : BitVec 2) (o : AddrOps)
  | fence (h : Hdr) (kind : Ord) (scope : BitVec 4)
  | cflush (h : Hdr) (op : BitVec 2) (o : AddrOps)
  -- class 5 (R183, R190, R364)
  | atom (h : Hdr) (op : AtomOp) (o : AtomOps)
  | acas (h : Hdr) (o : AtomOps)
  | red (h : Hdr) (op : AtomOp) (dsz : Bool) (o : AtomOps)
  | rdlk (h : Hdr) (m : BitVec 3) (o : AtomOps)
  | rdul (h : Hdr) (m : BitVec 3) (o : AtomOps)
  | wrlk (h : Hdr) (m : BitVec 3) (o : AtomOps)
  | wrul (h : Hdr) (m : BitVec 3) (o : AtomOps)
  | barw (h : Hdr) (w : BarRef) (count : BitVec 11)
  | barwWait (h : Hdr) (w : BarRef) (phase : Tgt)
  | bara (h : Hdr) (w : BarRef) (d : Dst) (count : BitVec 11)
  | barx (h : Hdr) (w : BarRef) (arrive : Option (BitVec 11)) (bytes : Src) (imm : BitVec 16)
  | lock (h : Hdr) (m : BitVec 3) (d : Dst) (a : BitVec 6) (b : Src) (imm : BitVec 20)
  | lockt (h : Hdr) (m : BitVec 3) (d : Dst) (a : BitVec 6)
  | unlock (h : Hdr) (m : BitVec 3) (d : Dst) (a : BitVec 6)
  -- class 6 (R225 to R256, R271)
  | cpy (h : Hdr) (o : CopyOps)
  | cpyg (h : Hdr) (o : CopyOps)
  | cpyw (h : Hdr) (o : CopyOps)
  | gres (h : Hdr) (slot : BitVec 3) (x : Src) (imm : BitVec 32)
  | gresFree (h : Hdr) (slot : BitVec 3)
  | sbwait (h : Hdr) (scr : Bool) (a : Base) (b : Src) (len : BitVec 24)
  | sbwaitAll (h : Hdr)
  | cdone (h : Hdr) (gs : GSlot) (scope : BitVec 4) (a : BitVec 6) (b : Base)
  | mxlw (h : Hdr) (o : MxlwOps)
  | mxswap (h : Hdr) (gs : GSlot) (mask : BitVec 4)
  | mxloop (h : Hdr) (o : MxloopOps)
  | mxdrain (h : Hdr) (o : MxdrainOps)
  | mxzero (h : Hdr) (gs : GSlot) (mask : BitVec 4) (rb m1 : BitVec 6)
  | xfetch (h : Hdr) (pin : Bool) (o : ExpOps)
  | xcnt (h : Hdr) (a : BitVec 6) (b c : Src) (immB immC : BitVec 20)
  | xpin (h : Hdr) (o : ExpOps)
  | xunpin (h : Hdr) (o : ExpOps)
  | xstat (h : Hdr) (sel : BitVec 3) (o : ExpOps)
  | coll (h : Hdr) (o : CollOps)
  -- class 7 (R285, R305, R354)
  | ensure (h : Hdr) (n1 : BitVec 3) (a : BitVec 6) (b : Base) (first test : BitVec 16)
  | elseby (h : Hdr) (off : BitVec 24)
  | elseerr (h : Hdr)
  | accept (h : Hdr)
  | reject (h : Hdr) (a : Src)
  | conv (h : Hdr) (a : BitVec 6)
  | convx (h : Hdr) (a : BitVec 6)
  | spawn (h : Hdr) (a : Src) (die : Option (BitVec 2)) (off : BitVec 28)
  | tend (h : Hdr)
  | tabort (h : Hdr)
  | csrr (h : Hdr) (d : Dst) (c : Csr)
  | csrwWr (h : Hdr) (c : Csr) (a : Src)
  | csrwSet (h : Hdr) (c : Csr) (a : Src)
  | csrwClr (h : Hdr) (c : Csr) (a : Src)
  | npe (h : Hdr)
  | pen (h : Hdr)
  | snap (h : Hdr) (d : Dst)
  | tret (h : Hdr)
  | halt (h : Hdr) (code : BitVec 8)
  -- execution (03)
  | loadCompletion (tok : Nat)
  | splitStarvationGuard (core sched : Nat)
  | formerFlush (blk : Nat)
  | formedGroupPlace (blk : Nat)
  | groupEnd (gid split : Nat)
  | blockEnd (blk : Nat)
  | dispatchDecision (at_ : List (List Nat × Nat))
  | launchPromotion (launch : Nat)
  | clusterStartRelease (blk : Nat)
  | launchQueueRead (read : QueueRead)
  | launchCompletion (launch : Nat)
  | queueEntryAck (ack : EntryAck)
  | queueNackResend (entry : Nat)
  -- ordering and memory (13, 11)
  | satisfy (acc : Nat)
  | drain (acc : Nat)
  | apply (acc : Nat)
  | cross (acc : Nat)
  | leaseExpiry (line : Nat)
  | atomicLeaseHoldEnd (line : Nat)
  | class5RequestApply (accs : List Nat)
  | probeReceive (die line : Nat)
  | probeAck (die line : Nat)
  | proxyGrantReceive (die line : Nat)
  | hostSnoop (die line : Nat) (upper : Bool)
  | linePoison (line : Nat)
  -- engines (15)
  | engineCommandAccept (core : Nat) (matrix : Bool)
  | copySegment (core cmd : Nat)
  | copyFailure (core cmd : Nat)
  | barrierCredit (core cmd piece : Nat)
  | rangeRetire (core cmd : Nat)
  | completionWordWrite (core cmd : Nat)
  | cdoneComplete (core cmd : Nat)
  | engineFailureDelivery (gid : Nat)
  | mxlwFill (core cmd : Nat)
  | mxlwFillEnd (core cmd : Nat)
  | mxswapExchange (core cmd bay : Nat)
  | kStep (core cmd : Nat)
  | checksumVerdict (core cmd : Nat) (mismatch : BitVec 4)
  | mxdrainExecute (core cmd : Nat)
  | mxzeroExecute (core cmd : Nat)
  | collAccept (cmd : Nat)
  | collStepAck (cmd rank : Nat) (block : CollBlock)
  | collContributionArrival (cmd rank : Nat) (block : CollBlock)
  | collStepTimeout (cmd : Nat) (loss : StepLoss)
  | collComplete (cmd : Nat)
  -- experts (17)
  | xcntApply (accs : List Nat)
  | fetchQueueServe (die : Nat)
  | expertFetchComplete (die idx : Nat)
  | expertFetchFail (die idx : Nat) (peerLost : Bool)
  -- faults, pre-emption and observation (19)
  | preemption (blks : List Nat)
  | imageSeal (blk : Nat)
  | npeWatchdogExpiry (gid : Nat)
  | selftestDue (bent : Nat)
  | selftestComplete (bent : Nat) (pass : Bool)
  | eventRecordWrite (die : Nat)
  | externalTrigger
  | snapshotLatch (die unit index : Nat)
  | thermalLimit (celsius : Nat)
  | powerReport (watts celsius : Nat)
  | powerOnReset (stages : List FwStage)
  | firmwareUpload (stages : List FwStage)
  -- recovery (21)
  | rollbackRestore (blk : Nat)
  | levelClockLimit (blk level : Nat)
  | acceptCommit (blk : Nat)
  | conversationJoin (blk : Nat)
  | conversationAccept (word : Nat)
  | shadowCompareTimeout (gid : Nat)
  -- tasks (23)
  | taskRecordAccept (entry : Nat)
  | taskBatchDispatch (die core : Nat)
  | taskGroupForm (core : Nat)
  | frontierRound
  | frontierReceive (die : Nat)
  -- locks (25)
  | lockRequestArrival (req : Nat)
  | lockGrant (req : Nat)
  | lockHandover (line : Nat)
  | lockTimeout (gid line : Nat)
  | lockReservationExpiry (line : Nat)
  | kneeBraceScan
  -- host (27)
  | cmdprodWrite (prod : BitVec 32)
  | bar0RegisterWrite (off : Nat) (val : Dword)
  | queue (q : Nat) (ring : Dword) (log2 : Nat) (device : Bool) (prod cons : Dword)
  | space (pasid : BitVec 20) (s1 s2 : Dword)
  | inval (pasid : BitVec 20) (va : Dword) (log2 : Nat)
  | faultq (ring : Dword) (log2 : Nat) (prod cons : Dword)
  | answer (tag : Dword) (fail : Bool)
  | biasToHost (pa : Dword)
  | biasToDevice (pa : Dword)
  | expreg (pa : Dword)
  | expwd (pa : Dword)
  | evlog (die : Nat) (ring : Dword) (log2 : Nat) (prod cons : Dword)
  | checkpt (launch : Dword) (area bytes : Dword)
  | resume (launch : Dword) (area : Dword) (cores : List (Nat × Nat))
  | sleepEnter (die : Nat)
  | sleepWake (die : Nat)
  | selftest (ms : Nat)
  | arm (mask : BitVec 7)
  | peer (number : BitVec 16) (aperture : Nat) (base size : Dword)
  | attest (nonce report : Dword)
  | hostCxlMemAccess (write : Bool) (pa : Nat) (bytes : List Byte)
  | peerAccessArrival (write : Bool) (pa : Nat) (bytes : List Byte)
  | blockResume (blk : Nat) (core slot : Nat)
  | linkLevelRetry (link : Nat)
  deriving DecidableEq, Repr

end Sys2Proof
end

