-- ==== Sys2Proof/Machine/State.lean ====
section
/-!
DEFINITION. The state of the module, as plain data: everything the spec gives the machine, the two outcomes that
stop a step, and the state after reset. Units are named by numbers: a core by die × 64 + core, a group by
core × 64 + slot, a thread by group × 32 + lane, a line by its address ÷ 128. Maps read their default at keys
they do not list.
-/
namespace Sys2Proof.Machine

/-- The causes of R279; `trap` carries the codes that TRAP raises (R119). -/
inductive Cause where
  | illegalOp | reservedEnc | stallShort | misaligned | pageFault | accessFault | operandBounds
  | barrierMismatch | remoteExited | mxCheck | shadowMismatch | eccUncorr | shoreFull | ensureLimit
  | ensureExhausted | nesting | npeOver | taskPoison | lockLimit
  | trap (code : BitVec 8)
  deriving DecidableEq, Repr

/-- Cause codes of R279. -/
def Cause.code : Cause → BitVec 8
  | .illegalOp => 0x01 | .reservedEnc => 0x02 | .stallShort => 0x03 | .misaligned => 0x04 | .pageFault => 0x05
  | .accessFault => 0x06 | .operandBounds => 0x07 | .barrierMismatch => 0x08 | .remoteExited => 0x09
  | .mxCheck => 0x0A | .shadowMismatch => 0x0B | .eccUncorr => 0x0C | .shoreFull => 0x0D | .ensureLimit => 0x0E
  | .ensureExhausted => 0x0F | .nesting => 0x10 | .npeOver => 0x11 | .taskPoison => 0x12 | .lockLimit => 0x13
  | .trap c => c

/-- An exact real value before rounding, m × 2^e, or a special value (R82 to R86). -/
inductive XVal where
  | fin (m : Int) (e : Int)
  | negZero
  | inf (neg : Bool)
  | nan
  deriving DecidableEq, Repr

/-- What a split waits for (R41, R42, R192, R229, R239, R307, R356, R366). -/
inductive Park where
  /-- BARW: the word's physical address, the phase that must change, and the scope of its acquire. -/
  | barw (word : Nat) (phase : Bool) (scope : Nat)
  /-- SBWAIT: all ranges, or an interval (scratch or global, first byte, length). -/
  | sbwait (interval : Option (Bool × Nat × Nat))
  /-- LOCK: the lock request. -/
  | lock (req : Nat)
  | gather
  /-- A part of a serialising split at its join address. -/
  | join
  /-- EXIT that would end a group whose commands have not ended. -/
  | exit
  /-- TEND and TABORT that would end such a group. -/
  | tend
  | tabort
  /-- The missing lanes of an LDG: the load they wait for. -/
  | load (tok : Nat)
  deriving DecidableEq, Repr

/-- An entry of a deferral stack (R41); `outer` lists the joins of the part that pushed it, innermost first. -/
structure Deferred where
  pc : CodeAddr
  lanes : LaneMask
  join : CodeAddr
  outer : List CodeAddr
  deriving DecidableEq, Repr

/-- A parked part of a serialising split; `ended` is the clk at which its wait ended. -/
structure Part where
  pc : CodeAddr
  em : LaneMask
  members : LaneMask
  tag : List CodeAddr
  park : Park
  ended : Option Nat
  deriving DecidableEq, Repr

/-- A split (R38). For a serialising split, pc, em, members and tag are those of its running part. -/
structure Split where
  uid : Nat
  pc : CodeAddr
  em : LaneMask
  members : LaneMask
  /-- The clk from which its next instruction may issue (R63). -/
  stallUntil : Nat
  /-- The clk in which the yield hint keeps it back (R43). -/
  yieldAt : Option Nat
  readySince : Option Nat
  park : Option Park
  tag : List CodeAddr
  stack : List Deferred
  parts : List Part
  /-- Accesses and lock requests that hold back its later accesses and commands (R207, R209, R366). -/
  hold : List Nat
  /-- Where the running part went on after a wait (R41): the clk in which that wait ended, its place among the parked parts, and
  the wait. -/
  woke : Option (Nat × Nat × Park)
  deriving DecidableEq, Repr

/-- A register that an instruction names. -/
inductive RegRef where
  | v (r : Nat)
  | s (r : Nat)
  | cm (m : Nat)
  deriving DecidableEq, Repr

/-- A fixed-latency result (R62): what stood in the destination before it, by lane (a mask's bit by lane; 0 for a scalar). -/
structure Inflight where
  ref : RegRef
  split : Nat
  pc : CodeAddr
  readyAt : Nat
  old : List (Nat × Nat)
  deriving DecidableEq, Repr

/-- Destinations of a variable-latency instruction that are not written yet (R64), in these lanes. -/
structure Pend where
  tok : Nat
  refs : List RegRef
  lanes : LaneMask
  /-- Where it overwrites too early (R65): the registers and lanes in which the earlier result may be the one that stays. -/
  kept : List (RegRef × Nat)
  deriving DecidableEq, Repr

/-- An engine failure waiting to be delivered (R230). -/
structure EngineFail where
  cmd : Nat
  cause : Cause
  eval : Dword
  deriving DecidableEq, Repr

/-- A group descheduled on a fault tag (R157). -/
structure Desched where
  tag : Nat
  split : Nat
  va : Nat
  lanes : LaneMask
  deriving DecidableEq, Repr

/-- A fault that waits for the shadow group to meet it (R284). -/
structure WaitFault where
  split : Nat
  cause : Cause
  eval : Dword
  lanes : LaneMask
  deriving DecidableEq, Repr

inductive GuardState where
  | free | pending | true | false
  deriving DecidableEq, Repr

/-- A resident group (R31, R37, R68 to R73). -/
structure Group where
  blk : Nat
  index : Nat
  /-- The clk at which it was placed or formed (R43). -/
  age : Nat
  nregs : Nat
  splits : Map Split
  /-- v registers, keyed by register × 32 + lane; default 0. -/
  v : Map Word
  /-- s0 to s63; default 0. -/
  s : Map Dword
  /-- cm0 to cm6; default 0. -/
  cm : Map LaneMask
  /-- gs0 to gs7; default free. What a GRES gives in this clk stands in `gres` until the next (R238). -/
  gs : Map GuardState
  gres : List (Nat × GuardState)
  handler : Bool
  /-- STATUS[6]: the fabric time at which the window opened (R289). -/
  npe : Option Nat
  causeEngine : Bool
  cause : BitVec 8
  epc : CodeAddr
  eval : Dword
  tvec : CodeAddr
  sbchk : Bool
  backoff : BitVec 16
  fflags : BitVec 5
  frm : BitVec 3
  /-- XV0 to XV15; default 0x8000. -/
  xv : Map (BitVec 16)
  /-- The generator state of each lane (R88). -/
  gen : Map Word
  /-- Original lane and group of each lane (%olane, %ogrp); a lane not listed is its own. -/
  origin : Map (Nat × Nat)
  /-- The thread of R31 that a lane of a formed group runs (R191); a lane not listed is its own. -/
  threads : Map Nat
  /-- The internal number of the task that each lane runs (%tstamp, %task). -/
  tasks : Map Nat
  /-- STATUS[3]: a formed task group. -/
  taskGroup : Bool
  /-- Lanes whose record an unfinished SPAWN has already sent (R52, R355). -/
  spawned : LaneMask
  savedEm : LaneMask
  /-- The splits held at a fault entry, by uid (R281). -/
  held : List Nat
  /-- PC at entry and the park state kept with it (R402); once that wait has ended, by how many code words its split then
  goes on. -/
  entry : Option (CodeAddr × Park × Option Nat)
  inflight : List Inflight
  /-- The clk by which every class 2 and class 3 instruction issued has set its flags (R143). -/
  flagsAt : Nat
  pend : List Pend
  lastSplit : Option Nat
  fails : List EngineFail
  /-- Copy commands issued after the previous CDONE (R240), and those of them that failed. -/
  copies : List Nat
  desched : Option Desched
  /-- Instructions issued, and the split index of each of the last ones (R331), newest first. -/
  issued : Nat
  issueLog : List Nat
  /-- Results that the primary has delivered for instructions the shadow has not issued yet (R332). -/
  results : List (Nat × List (RegRef × List (Nat × Nat)))
  /-- %time and %front as the primary read them, by instruction (R332). -/
  sampled : List (Nat × Nat × Dword)
  faultWait : Option WaitFault
  /-- NPE_OVER to be taken before the next instruction (R290): when the window opened. -/
  npeOver : Option Nat
  /-- Stopped at an instruction boundary for pre-emption, termination or a rollback. -/
  stopped : Bool
  deriving DecidableEq, Repr

/-- A continuation of R45; `origin` is the original lane and group. -/
structure Cont where
  pc : CodeAddr
  key : Word
  lane : Nat
  group : Nat
  thread : Nat
  v : List Word
  deriving DecidableEq, Repr

/-- The mode of a named barrier and, in mode all, the threads arrived (R191). -/
structure BarState where
  all : Bool
  arrived : List Nat
  deriving DecidableEq, Repr

/-- An action held back until accept (R327), performed in issue order. -/
inductive Action where
  | unlock (gid : Nat) (line : Nat)
  | cdone (cmd : Nat)
  /-- A copy's completion word: the command, and its scope. -/
  | word (cmd : Nat)
  /-- XCNT: the group, the header, and lane, entry's virtual address, entry and increment in lane order. -/
  | xcnt (gid : Nat) (header : Nat) (incs : List (Nat × Nat × Nat × Nat))
  /-- SPAWN: the group, target, named die, and each lane's timestamp, task and v0 to v15. -/
  | spawn (gid : Nat) (target : CodeAddr) (die : Option Nat) (lanes : List (Nat × Dword × Nat × List Word))
  deriving DecidableEq, Repr

/-- One entry of the shoring (R317): whether it lies in the spill area, and the prior bytes or words. -/
structure Shored where
  spill : Bool
  old : List Nat
  deriving DecidableEq, Repr

/-- A group's recovery record (R309). -/
structure RecoveryRecord where
  gid : Nat
  spill : Bool
  em : LaneMask
  s : Map Dword
  cm : Map LaneMask
  fflags : BitVec 5
  frm : BitVec 3
  sbchk : Bool
  backoff : BitVec 16
  tvec : CodeAddr
  xv : Map (BitVec 16)
  gen : Map Word
  deriving DecidableEq, Repr

/-- An open level (R308). -/
structure Level where
  pc : CodeAddr
  test : CodeAddr
  marker : CodeAddr
  n : Nat
  k : Nat
  limit : Nat
  clock : Nat
  conv : Option Nat
  /-- Waiting under R325 to join, or under R326 for the members' accepts. -/
  joining : Bool
  accepting : Bool
  coupled : Bool
  records : List RecoveryRecord
  /-- Registers, keyed by group × 256 + register; 32 words. -/
  regs : Map Shored
  /-- Scratch words, keyed by window address ÷ 4; one word. -/
  words : Map Shored
  /-- Bytes credited by copies since a barrier word was shored, by window address ÷ 8 (R318). -/
  credits : Map Nat
  /-- Barrier modes at shoring, by index; `none` where a barrier had none (R318). -/
  bars : Map (Option BarState)
  /-- Global lines; 128 bytes. -/
  lines : Map Shored
  /-- 144-byte reservations that accesses hold and that have not been used or returned yet (R319): how many on chip, and spilled. -/
  reserved : Nat × Nat
  actions : List Action
  actionSpill : Nat
  /-- Lines locked in the level (R328), by group and line. -/
  locks : List (Nat × Nat)
  deriving DecidableEq, Repr

/-- Which gathering instruction, with the operands of the first arrival (R307). -/
inductive GatherKind where
  | ensure (n : Nat) (limit : Nat) (conv : Option Nat) (first : Nat) (test : CodeAddr)
  | accept
  | conv (word : Nat)
  | convx (word : Nat)
  deriving DecidableEq, Repr

structure Gather where
  pc : CodeAddr
  kind : GatherKind
  deriving DecidableEq, Repr

/-- A failure under way (R314): the level that fails, its code, value and pc, and the entry levels still to do. -/
structure Failure where
  level : Nat
  engine : Bool
  code : BitVec 8
  value : Dword
  pc : CodeAddr
  /-- The clk and the index of the group that met it: the lowest index of one clk stands. -/
  clk : Nat
  group : Nat
  deriving DecidableEq, Repr

/-- Why a block stops (R288, R284). -/
inductive StopKind where
  | preempt | halt (code : BitVec 8) | selftest | checkpoint | thermal
  deriving DecidableEq, Repr

/-- A placed block (R30 to R37). -/
structure Block where
  launch : Nat
  cluster : Nat
  rank : Nat
  stage : Nat
  /-- Block index within the stage (R35). -/
  index : Nat
  core : Nat
  /-- Core and scratch base of each rank of the cluster, this block's own included. -/
  peers : List (Nat × Nat)
  firstSlot : Nat
  nGroups : Nat
  scratchBase : Nat
  scratchSize : Nat
  started : Bool
  /-- Own threads that have exited (R191). -/
  exited : List Nat
  /-- The spawn area, oldest first (R45). -/
  conts : List Cont
  /-- Formed groups that wait for a slot, oldest first (R46), each with the clk at which it was formed (R43). -/
  formed : List (Nat × List Cont)
  serving : Bool
  /-- Mode and arrivals of named barriers 0 to 15. -/
  bars : Map BarState
  /-- Open levels, the outermost first (R304). -/
  levels : List Level
  gather : Option Gather
  failing : Option Failure
  stop : Option StopKind
  sealed : Bool
  terminated : Option Cause
  deriving DecidableEq, Repr

/-- A launch (R30, R386). -/
structure Launch where
  ident : Dword
  queue : Nat
  entryIdx : Nat
  pc : CodeAddr
  arg : Dword
  cword : Dword
  seq : Dword
  spillBase : Dword
  spillPages : Nat
  /-- The placement map's bytes, read at acceptance. -/
  place : Option (List Byte)
  clusters : Nat
  threads : Nat
  regs : Nat
  scratchPages : Nat
  clusterSize : Nat
  stages : Nat
  cls : Nat
  pasid : Nat
  gang : Bool
  checked : Bool
  regroup : Bool
  /-- Next cluster index and stage to place. -/
  nextCluster : Nat
  nextStage : Nat
  /-- Dispatch decisions spent waiting (R49). -/
  waited : Nat
  blocksEnded : Nat
  fail : Option (BitVec 8)
  poisoned : Option Dword
  halted : Bool
  /-- The observed set its blocks start with (R212). -/
  obs : List Nat
  /-- Lines replicated for it, and lines held by instruction caches for LDC (R167, R177). -/
  replicas : List (Nat × Nat)
  /-- The generation of the last checkpoint sealed, whether one has been, and the generation of the last one resumed
  (R293). -/
  gen : Nat
  checkpointed : Bool
  refGen : Option Nat
  gangId : Nat
  /-- The fault tag that its completion word waits on, and whether the word cannot be written (R231). -/
  tag : Option Nat
  lost : Bool
  /-- A RESUME of its checkpoint has been refused, which its completion word is still to say (R387). -/
  refused : Bool
  /-- The moment of its acceptance (log 35). -/
  since : Nat
  deriving DecidableEq, Repr

/-- Memory access kinds (R172, R184, R187, R188, R191, R271). -/
inductive AKind where
  | load
  | store
  | atom (op : AtomOp) (ret : Bool)
  | cas
  | rdlk | rdul | wrlk | wrul
  | xfetch (pin : Bool) | xpin | xunpin | xstat (sel : Nat) | xcnt
  /-- A release that only waits, and a CFLUSH's write-back: nothing is written. -/
  | flush (op : Nat)
  /-- The release of an UNLOCK (R368), which a LOCK_HANDOVER carries out. -/
  | unlock
  deriving DecidableEq, Repr

/-- Where an access stands in the abstract machine (R196): a load pending; a write in its store buffer, in its die's
queue, waiting for a locked line in its buffer (`waiting`) or in that queue (`barred`), arrived; or, for a load, satisfied. -/
inductive Stage where
  | pending | buffered | queued | waiting | barred | arrived | satisfied
  deriving DecidableEq, Repr

/-- One access (R194). `gid` and `lanes` name its threads, `cmd` the engine command, neither for an outside agent. -/
structure Acc where
  id : Nat
  gid : Option Nat
  lanes : LaneMask
  cmd : Option Nat
  blk : Option Nat
  core : Option Nat
  die : Nat
  kind : AKind
  va : Nat
  pa : Nat
  size : Nat
  /-- Store data or operand. -/
  data : Nat
  /-- The swap value of ACAS; the header of an expert request; for a store, 1 marks an expert manager's. -/
  data2 : Nat
  /-- The lane whose value it returns; 32 for a scalar-side access. -/
  lane : Nat
  ord : Ord
  scope : Nat
  stage : Stage
  /-- Value loaded, or the old value. -/
  val : Nat
  /-- The set it carries (R203, R208), and the writes that must be performed before it drains, each with the scope (R208, R210). -/
  carry : List Nat
  need : List (Nat × Nat)
  /-- The load or result it belongs to. -/
  tok : Option Nat
  /-- The compare it waits for in a checked launch (R169). -/
  cmp : Option Nat
  /-- ENSD of its block at issue. -/
  depth : Nat
  /-- The number of its instruction in its group's issue order, and where that instruction stands (R314, R319). -/
  n : Nat
  pc : CodeAddr
  uncached : Bool
  /-- The task whose speculative access it is. -/
  task : Option Nat
  /-- The shoring that its instruction has reserved for the line it writes (R319): whether in the spill area. -/
  room : Option Bool
  /-- A rep load or an LDC: the moment (R167, R177, log 35) from which on any value of a byte may be the one it returns. -/
  since : Option Nat
  deriving DecidableEq, Repr

/-- Destinations of a variable-latency instruction: the group, the lanes, how a value is placed, and where. -/
structure Tok where
  gid : Nat
  split : Nat
  n : Nat
  lanes : LaneMask
  /-- Destination register, on the vector side or not; `none` discards (sz). -/
  dst : Option RegRef
  /-- Bytes loaded, sign-extended or not. -/
  size : Nat
  sext : Bool
  /-- Mask that receives the ok bits (R188, R271). -/
  mask : Option Nat
  /-- The instruction's PC. -/
  pc : CodeAddr
  /-- Values returned so far, by lane (32 for a scalar), and ok bits. -/
  vals : Map Nat
  oks : Map Bool
  deriving DecidableEq, Repr

/-- One compare point of a checked launch (R333): what the primary presented, and its state when it did. -/
structure Cmp where
  gid : Nat
  n : Nat
  code : Nat
  /-- (code, lane, value) in order. -/
  items : List (Nat × Nat × Nat)
  g : Group
  split : Nat
  em : LaneMask
  act : LaneMask
  since : Nat
  /-- The primary issues nothing more before it is compared: what it would do cannot be taken back. -/
  waits : Bool
  deriving DecidableEq, Repr

/-- A primary as it stood when it issued an instruction that its shadow has not issued yet (R333). -/
structure Snap where
  gid : Nat
  n : Nat
  g : Group
  deriving DecidableEq, Repr

/-- An entry of the shoring on its way to a block's spill area: its die, its address space, its first virtual address and its bytes (R319). -/
structure SpillOut where
  die : Nat
  pasid : Nat
  va : Nat
  n : Nat
  deriving DecidableEq, Repr

/-- An interval of the range scoreboard (R227). -/
structure Range where
  cmd : Nat
  blk : Nat
  /-- Read claim or destination range. -/
  claim : Bool
  scratch : Bool
  /-- A destination of CPYW: window addresses, of the member space where `scratch` too. -/
  window : Bool
  lo : Int
  hi : Int
  deriving DecidableEq, Repr

/-- The copy form (R232). -/
inductive CopyKind where
  | plain | gather | window
  deriving DecidableEq, Repr

/-- What a command does, its operands read at issue. -/
inductive CmdKind where
  | copy (k : CopyKind) (e : Nat) (sspace dspace : Nat) (src dst : Nat) (p0 p1 : Nat) (p2 p3 : Int)
      (credit : Option Nat) (word : Option (Nat × Nat × Nat))
  /-- Word address, sequence value, scope, the copies it waits for. -/
  | cdone (word seq scope : Nat) (cs : List Nat)
  | mxlw (fmt : BitVec 6) (scale : BitVec 2) (xv : BitVec 16) (tr : Bool) (bay : Nat) (a : Nat)
  | mxswap (mask : BitVec 4)
  /-- Last, the bytes of one step's activations, and of its weights in each bay, scales included, as the records stood at issue. -/
  | mxloop (fmt : BitVec 6) (scale : BitVec 2) (xv : BitVec 16) (mask : BitVec 4) (rb m : Nat) (a b : Nat)
      (n : Nat) (p1 p2 p3 : Int) (alen : Nat) (wlens : List Nat)
  | mxdrain (o : MxdrainOps) (a b : Nat) (int : Bool)
  | mxzero (mask : BitVec 4) (rb m : Nat)
  deriving DecidableEq, Repr

/-- Where a command stands. -/
inductive CmdState where
  | queued | running | ended
  deriving DecidableEq, Repr

/-- An engine command (R224 to R255). -/
structure Cmd where
  core : Nat
  gid : Nat
  blk : Nat
  lanes : LaneMask
  seq : Nat
  gs : GSlot
  kind : CmdKind
  state : CmdState
  discarded : Bool
  /-- The accesses that must leave their store buffers or be satisfied first (R215). -/
  wait : List Nat
  obs : List Nat
  depth : Nat
  /-- Elements done (copies), or the step under way (MXLOOP). -/
  pos : Nat
  /-- Its writes, in element order, each with its destination piece (R237), and the pieces credited. -/
  writes : List (Nat × Nat)
  credited : List Nat
  /-- Fault tag it waits on (R236). -/
  tag : Option Nat
  /-- The element from which on its reads of a peer's memory have been asked for (R388, R52). -/
  asked : Option Nat
  failed : Option (Cause × Dword)
  /-- The clk at which it failed (R240). -/
  failedAt : Nat
  /-- MXLOOP: the clk at which the step's rows end, whether this is a replay, the bays that hold good sums, and
  the exact sums held, by bay × 16384 + row × 256 + column; the exact products of the activation rows with the checksum columns, by
  bay × 64 + row (R251). Both start at 65536 and 256 for odd steps. -/
  rowsEnd : Nat
  prevEnd : Nat
  passed : Nat
  replay : Bool
  sums : Map XVal
  checks : Map XVal
  /-- The bays in which this step's sums were kept from its first run. -/
  kept : BitVec 4
  /-- Fill under way: the clk at which it ends. -/
  fillEnd : Option Nat
  /-- Whether its completion word is written, and whether an accept has released it (R327). -/
  wordDone : Bool
  released : Bool
  deriving DecidableEq, Repr

/-- A weight plane (R242): raw weights, then scales, as MXLW read them, and the checksum column, by element position. -/
structure Plane where
  fmt : Option (BitVec 6)
  scale : BitVec 2
  tr : Bool
  xv : BitVec 16
  bytes : List Byte
  check : List XVal
  deriving DecidableEq, Repr

/-- A matrix bay (R15, R241, R242). Its accumulators are memory at their window addresses. -/
structure Bay where
  owner : Option Nat
  /-- Launch, stage, cluster and rank of the block that owned it last and has ended (R28). -/
  former : Option (Nat × Nat × Nat × Nat)
  active : Plane
  shadow : Plane
  recActive : Option (BitVec 6 × BitVec 2)
  recShadow : Option (BitVec 6 × BitVec 2)
  /-- The accumulator type of record is i32. -/
  recInt : Bool
  fillEnd : Option Nat
  deriving DecidableEq, Repr

/-- A batch in a prefetch buffer (R341): the launch and the tasks. -/
structure Batch where
  launch : Nat
  pc : CodeAddr
  tasks : List Nat
  deriving DecidableEq, Repr

/-- Children of one LAUNCH on their way to the queues (R48): clk, split index, slot, queues and records, observed set. -/
structure Posting where
  clk : Nat
  split : Nat
  slot : Nat
  records : List (Nat × List Byte)
  obs : List Nat
  deriving DecidableEq, Repr

/-- A core (R14). -/
structure Core where
  copyQ : List Nat
  mxQ : List Nat
  /-- Collectives that wait for the die's engine (R224). -/
  collQ : List Nat
  bays : Map Bay
  /-- Lines held in L1, with the expiry of the lease (R160). -/
  l1 : Map Nat
  /-- Lines that LDC holds, with the launch (R177). -/
  ldc : Map Nat
  /-- SNAPCTL. -/
  snapExt : Bool
  snapLatched : Bool
  snapArm : Bool
  snapT : Dword
  snapI : Dword
  snapQ : Dword
  snapS : Dword
  issued : Nat
  leaseHits : Nat
  /-- The clk of each scheduler's last issue, and the split forced by R43 (group, split). -/
  lastIssue : Map Nat
  forced : Map (Nat × Nat)
  prefetch : List Batch
  /-- The last clk with a CSRW to SNAPCTL, the highest scheduler that wrote it then, and the value before that clk's writes
  (R74). -/
  snapOld : Nat × Nat × BitVec 3
  /-- Children that LAUNCH posts in this clk (R48). -/
  launchBuf : List Posting
  deriving DecidableEq, Repr

/-- MOESI states of R163. -/
inductive Moesi where
  | m | o | e | s | i
  deriving DecidableEq, Repr

/-- A slice's record of one line (R159 to R164, R167). -/
structure Line where
  leaseLen : Nat
  expiry : Nat
  /-- A lease was granted and no store has been applied since. -/
  quiet : Bool
  atomicUntil : Nat
  poison : Bool
  seq : BitVec 16
  /-- State of each other die; default I. -/
  dir : Map Moesi
  /-- Dies with a probe out. -/
  probes : List Nat
  /-- The number of the last grant to each die (log 24). -/
  granted : Map (BitVec 16)
  deriving DecidableEq, Repr

/-- A proxy slice's record of one line (R163, R164). -/
structure Proxy where
  state : Moesi
  /-- Its own lease length for the line, and whether it has granted a lease since the last store (R160). -/
  leaseLen : Nat
  quiet : Bool
  seq : BitVec 16
  expiry : Nat
  /-- Probes held for a grant that has not arrived. -/
  probes : List (BitVec 16)
  /-- A probe applied, to be acknowledged once leases have passed. -/
  owesAck : Bool
  deriving DecidableEq, Repr

/-- A message between a home and a proxy slice (R164); the state that a grant gives. -/
structure Msg where
  die : Nat
  line : Nat
  seq : BitVec 16
  probe : Bool
  state : Moesi
  deriving DecidableEq, Repr

/-- States of a host line half (R165). -/
inductive Mesi where
  | m | e | s | i
  deriving DecidableEq, Repr

/-- Peg entry states (R362). -/
inductive PegState where
  | holding | waiting | reserved (untilTick : Nat) | absent
  deriving DecidableEq, Repr

structure Peg where
  line : Nat
  gid : Nat
  /-- Die, core and slot of its group, as a group's name: those it last stood at (R362, R373). -/
  site : Nat
  /-- The lock request it answers. -/
  req : Nat
  accepted : Nat
  /-- One more than the ticks left, and 0 once the tick in which none was left has passed (R372); `none` waits without limit. -/
  left : Option Nat
  state : PegState
  deriving DecidableEq, Repr

/-- A lock request under way (R366). -/
structure LockReq where
  gid : Nat
  split : Nat
  n : Nat
  line : Nat
  timeout : Nat
  test : Bool
  dst : Option RegRef
  mask : Nat
  lanes : LaneMask
  /-- PC of the LOCK, and whether its split parked before it went on. -/
  pc : CodeAddr
  atLock : Bool
  /-- Fabric time of the first refusal (R362). -/
  refusedAt : Option Nat
  /-- A status that waits for its group to resume (R370). -/
  late : Option Nat
  deriving DecidableEq, Repr

/-- A claimed line (R321). -/
structure Claim where
  line : Nat
  blk : Nat
  level : Nat
  deriving DecidableEq, Repr

/-- A conversation's members (R324): block, accepted, restored; and, once all accept together (R326), those that have not yet done so. -/
structure Conv where
  word : Nat
  members : List Nat
  accepted : List Nat
  rolling : List Nat
  closing : Option (List Nat)
  deriving DecidableEq, Repr

/-- Life-cycle states of R353. -/
inductive TaskState where
  | transit | queued | prefetched | running | finished | marked
  deriving DecidableEq, Repr

/-- A task (R336, R344). -/
structure Task where
  ident : Dword
  ts : Dword
  pc : CodeAddr
  parent : Nat
  parentIdent : Dword
  launch : Nat
  root : Bool
  placed : Option Nat
  die : Nat
  v : List Word
  state : TaskState
  frontier : Bool
  slot : Bool
  /-- Bytes buffered, by address; sectors registered as read. -/
  buf : Map Byte
  reads : List Nat
  gid : Nat
  lane : Nat
  /-- Writes of a task in frontier mode that its commit waits for. -/
  drain : List Nat
  deriving DecidableEq, Repr

/-- What an entry of R52 carries. -/
inductive Payload where
  | task (t : Nat)
  | lock (req : Nat)
  | coll (c : Nat)
  /-- The accesses of one instruction, or of one segment of a copy, to the memory of peers (R388). -/
  | peer (accs : List Nat)
  deriving DecidableEq, Repr

/-- Receivers of R52. -/
inductive Receiver where
  | truss (die : Nat)
  | peer
  | coll (die : Nat)
  | slice (die n : Nat)
  deriving DecidableEq, Repr

inductive EntryState where
  | sent | accepted | nacked (at_ : Nat)
  deriving DecidableEq, Repr

structure QEntry where
  id : Nat
  core : Nat
  gid : Nat
  dest : Receiver
  seq : Nat
  payload : Payload
  state : EntryState
  deriving DecidableEq, Repr

/-- A collective at its member of this module (R256 to R259). -/
structure Coll where
  core : Nat
  gid : Nat
  blk : Nat
  pasid : Nat
  die : Nat
  typ : Nat
  op : Nat
  scope : Nat
  retries : Nat
  d : Nat
  a : Nat
  b : Nat
  count : Nat
  word : Nat
  seq : Nat
  timeout : Nat
  gs : GSlot
  lanes : LaneMask
  obs : List Nat
  wait : List Nat
  /-- Discarded before its engine accepted it (R226, R284). -/
  discarded : Bool
  /-- Accepted by the engine; its own part has been done, so that its steps may go on. -/
  accepted : Bool
  summed : Bool
  /-- The unspecified bytes of a failure have been written to its destination; the completion word has been written or is lost. -/
  scrambled : Bool
  done : Bool
  members : Nat
  rank : Nat
  ctag : Word
  /-- Own source as read so far, and the sums of rank 0. -/
  acc : List Byte
  /-- Members whose contribution or block has arrived; to whom a step is still unacknowledged, with tries left and
  the clk since when. -/
  got : List Nat
  out : List (Nat × Nat × Nat)
  writes : List Nat
  failed : Option (BitVec 8)
  tag : Option Nat
  deriving DecidableEq, Repr

/-- A fetch of an expert (R267, R268): header, expert number, bytes that its segments have read so far, and its writes. -/
structure Fetch where
  header : Nat
  e : Nat
  pos : Nat
  writes : List Nat
  deriving DecidableEq, Repr

/-- A registered directory, whether a program has changed what it is to keep while it is registered (R265), and the pins that have
returned RESIDENT and are not matched yet (R270): expert and group. -/
structure Dir where
  header : Nat
  broken : Bool
  held : List (Nat × Nat)
  deriving DecidableEq, Repr

/-- An event for a die's log (R298). -/
structure Event where
  time : Nat
  code : Nat
  unit : Nat
  index : Nat
  data0 : Dword
  data1 : Dword
  deriving DecidableEq, Repr

/-- A ring in memory with its producer and consumer word addresses (R300, R382, R385). -/
structure Ring where
  base : Nat
  log2 : Nat
  prod : Nat
  cons : Nat
  deriving DecidableEq, Repr

/-- A die. -/
structure Die where
  time : Nat
  awake : Bool
  /-- The G held (R347): timestamp and identifier, all ones when none. -/
  front : Dword × Dword
  round : Nat
  /-- The tick in which its Truss unit last accepted a record, and how many it accepted in it (R337). -/
  acceptTick : Nat
  acceptSeq : Nat
  /-- The same of launches that its distributor accepted (R386). -/
  launchTick : Nat
  launchSeq : Nat
  log : Option Ring
  logProd : Nat
  events : List Event
  /-- Corrected errors that its reads may have met (R159), oldest first, each with the draw that says whether one was (log 134). -/
  corrected : List (Event × Nat)
  dropped : Nat
  dirs : List Dir
  fetchQ : List Fetch
  fetching : List Fetch
  /-- Time of the last snapshot of units 1 to 5, by unit × 256 + index, and the units armed. -/
  latched : Map Nat
  armed : BitVec 7
  deriving DecidableEq, Repr

/-- A launch queue (R385). -/
structure LQueue where
  ring : Nat
  log2 : Nat
  device : Bool
  prod : Nat
  cons : Nat
  read : Nat
  /-- A QUEUE command has configured it. -/
  configured : Bool
  /-- Children posted by LAUNCH, oldest first: the record and its observed set. -/
  posted : List (List Byte × List Nat)
  deriving DecidableEq, Repr

/-- An address space (R381). -/
structure Space where
  s1 : Nat
  s2 : Nat
  deriving DecidableEq, Repr

/-- A cached translation (R156): the page, its size, its permissions and type. -/
structure Tlb where
  pasid : Nat
  va : Nat
  log2 : Nat
  pa : Nat
  r : Bool
  w : Bool
  x : Bool
  uncached : Bool
  deriving DecidableEq, Repr

/-- An INVAL that has completed (R378): its address space, its block of virtual addresses, and its moment. -/
structure Settled where
  pasid : Nat
  lo : Nat
  size : Nat
  moment : Nat
  deriving DecidableEq, Repr

/-- An unanswered fault record (R382). -/
structure FaultRec where
  tag : Nat
  pasid : Nat
  va : Nat
  ipa : Nat
  flags : Nat
  posted : Bool
  deriving DecidableEq, Repr

/-- A bent's self-test (R295). -/
structure Bent where
  withdrawn : Bool
  /-- Waiting for its blocks to stop, since this tick. -/
  testing : Option Nat
  /-- The tick from which the next test's period counts. -/
  last : Nat
  deriving DecidableEq, Repr

/-- A bias flip to host under way (R384): the page, as physical address ÷ 65536. -/
structure BiasJob where
  page : Nat
  deriving DecidableEq, Repr

/-- An image of a block (R262, R291, R292): its number, its header, and what it holds. Groups are kept by slot from the first
one on; bytes, and the sets that they carry, by offset in the block's scratchpad, and from 2^22 on in its accumulators. -/
structure Image where
  num : Nat
  launch : Nat
  gen : Nat
  header : List Byte
  blk : Nat
  /-- Part of a checkpoint (R293), not of a pre-emption only. -/
  checkpoint : Bool
  block : Block
  groups : Map Group
  bytes : Map Byte
  carry : Map (List Nat)
  bays : Map Bay
  /-- Its commands, and those of them that stand in the two queues, in order. -/
  cmds : Map Cmd
  copyQ : List Nat
  mxQ : List Nat
  ranges : List Range
  /-- Its XUNPINs that still waited for copies, with their results (R270, log 163). -/
  accs : List Acc
  toks : Map Tok
  deriving DecidableEq, Repr

/-- A management command whose completion waits for the machine. -/
inductive MgmtJob where
  /-- The launch, the area, its bytes, the generation, the images so far, and where the command stands. -/
  | checkpt (launch : Nat) (area bytes gen : Nat) (images : List Nat) (at_ : Nat)
  | bias (job : BiasJob)
  | expwd (die header : Nat)
  deriving DecidableEq, Repr

/-- The management unit (R377, R378, R391). -/
structure Mgmt where
  cmdBase : Dword
  cmdSize : BitVec 4
  cmdProd : BitVec 32
  cmdCons : BitVec 32
  /-- The job under way, its completion word and sequence value. -/
  job : Option (MgmtJob × Nat × Nat)
  powerLimit : Nat
  power : Nat
  celsius : Nat
  throttled : Bool
  placing : Bool
  peer : BitVec 16
  apertures : Map (Nat × Nat × Nat)
  selftestMs : Nat
  /-- Firmware stages verified, newest last; recovery mode. -/
  stages : List (BitVec 512 × Nat)
  recovery : Bool
  deriving DecidableEq, Repr

/-- What the completion of a launch reports (R387, R352): its identifier, the value, and the first task that retired poisoned. -/
structure Report where
  ident : Dword
  value : Nat
  poisoned : Option Dword
  deriving DecidableEq, Repr

/-- A snapshot trigger (R301): its time T, whether it is external, the dies that have not latched yet. -/
structure Trigger where
  t : Nat
  external : Bool
  deriving DecidableEq, Repr

/-- A reservation of a gang (R50): identifier, and for each cluster the cores held, the first slot, and the scratch base on each core. -/
structure Reserve where
  launch : Nat
  gangId : Nat
  held : List (List Nat × Nat × List Nat)
  deriving DecidableEq, Repr

/-- One turn of the machine (log 1): an issue opportunity of a scheduler, a step of the table, or one clk. -/
inductive Turn where
  | issue (core sched : Nat)
  | event (i : Instr)
  | tick
  deriving DecidableEq, Repr

/-- The state of the module. -/
structure State where
  agenda : List Turn
  /-- The group and the split whose instruction executes. -/
  cur : Nat × Nat
  freeCtr : Nat
  nextId : Nat
  clk : Nat
  mem : List Host.Cell
  /-- The model's own record of what writes have replaced outside windows, newest first: first address and bytes (log 35). Its
  length is the present moment. -/
  past : List (Nat × List Byte)
  dies : Map Die
  cores : Map Core
  groups : Map Group
  blocks : Map Block
  launches : Map Launch
  /-- Completions reported, newest last. -/
  reports : List Report
  /-- Priority classes 0 to 3: launches in order (R49). -/
  classes : Map (List Nat)
  reserves : List Reserve
  nextGang : Nat
  lines : Map Line
  /-- Keyed by line × 4 + die. -/
  proxies : Map Proxy
  /-- Halves of host lines as the bridges hold them (R165), keyed by ((line × 4 + die of the proxy) × 2 + half) × 4 + die of the
  link. -/
  hostHalves : Map Mesi
  msgs : List Msg
  accs : List Acc
  toks : Map Tok
  /-- Observed sets by thread (R206). -/
  obs : Map (List Nat)
  /-- Sets carried by the writes that a thread's relaxed loads have read (R210), and the writes that its release fences make its later
  writes carry and wait for, each with the fence's scope (R210), by thread. -/
  seen : Map (List Nat)
  fenced : Map (List (Nat × Nat))
  /-- Sets carried by the last write of each byte (R203). -/
  carry : Map (List Nat)
  cmps : List Cmp
  snaps : List Snap
  cmds : Map Cmd
  ranges : List Range
  colls : Map Coll
  tasks : Map Task
  /-- The last round of the frontier (R347): its number, its G, and its tasks still to commit, in task order. -/
  round : Nat
  roundG : Dword × Dword
  roundTasks : List Nat
  queue : List QEntry
  seqs : Map Nat
  pegs : List Peg
  lockReqs : Map LockReq
  broken : List Nat
  /-- Entries of the shoring still to be written to their spill areas, oldest first (R319). -/
  spills : List SpillOut
  claims : List Claim
  convs : List Conv
  spaces : Map Space
  tlb : List Tlb
  settled : List Settled
  faultq : Option Ring
  faultProd : Nat
  faults : List FaultRec
  queues : Map LQueue
  bias : Map Bool
  mgmt : Mgmt
  images : List Image
  bents : Map Bent
  triggers : List Trigger
  deriving DecidableEq, Repr

/-- Why a step stops. -/
inductive Fault where
  /-- Raised by `step` at a turn that names a core, a scheduler or a unit that R12 and R14 do not give. Safe: no
  hardware has such a unit. -/
  | noSuchUnit
  deriving DecidableEq, Repr

/-- What the model does not execute. -/
inductive Refusal where
  /-- Raised by an arm of `exec` whose instruction has no meaning yet. Safe. -/
  | notModelled (mnemonic : String)
  /-- Raised by `step` at a turn whose machine step has an operand outside its range. Safe. -/
  | illFormed
  /-- Raised by `step` at a turn that names an instruction of classes 0 to 7 as a machine step: instructions run
  only from a fetch. Safe. -/
  | notAStep
  deriving DecidableEq, Repr

/-- An empty plane (R241). -/
def Plane.empty : Plane := { fmt := none, scale := 0, tr := false, xv := 0, bytes := [], check := [] }

/-- A free bay. -/
def Bay.free : Bay :=
  { owner := none, former := none, active := Plane.empty, shadow := Plane.empty, recActive := none, recShadow := none,
    recInt := false, fillEnd := none }

/-- A core after reset. -/
def Core.reset : Core :=
  { copyQ := [], mxQ := [], collQ := [], bays := [], l1 := [], ldc := [], snapExt := false, snapLatched := false,
    snapArm := false, snapT := 0, snapI := 0, snapQ := 0, snapS := 0, issued := 0, leaseHits := 0, lastIssue := [],
    forced := [], prefetch := [], snapOld := (0, 0, 0), launchBuf := [] }

/-- A die after reset: R19, R71. -/
def Die.reset : Die :=
  { time := 0, awake := true, front := (BitVec.allOnes 64, BitVec.allOnes 64), round := 0,
    acceptTick := 0, acceptSeq := 0, launchTick := 0, launchSeq := 0, log := none, logProd := 0, events := [], corrected := [], dropped := 0, dirs := [], fetchQ := [],
    fetching := [], latched := [], armed := 0 }

/-- A line that nothing has touched: R160. -/
def Line.reset : Line :=
  { leaseLen := 64, expiry := 0, quiet := false, atomicUntil := 0, poison := false, seq := 0, dir := [], probes := [],
    granted := [] }

def Proxy.reset : Proxy := { state := .i, leaseLen := 64, quiet := false, seq := 0, expiry := 0, probes := [], owesAck := false }

def Bent.reset : Bent := { withdrawn := false, testing := none, last := 0 }

/-- The management unit after reset: R377; the other values are the model's (log 4, log 5). -/
def Mgmt.reset : Mgmt :=
  { cmdBase := 0, cmdSize := 0, cmdProd := 0, cmdCons := 0, job := none, powerLimit := 2600, power := 0, celsius := 0,
    throttled := false, placing := true, peer := 0, apertures := [], selftestMs := 0, stages := [], recovery := false }

/-- The module right after power-on reset, its firmware verified (R6, R389). Cores read `Core.reset` and lines
`Line.reset` where they are not listed. -/
def State.reset : State :=
  { agenda := [], cur := (0, 0), freeCtr := 0, nextId := 1, clk := 0, mem := [], past := [],
    dies := [(0, Die.reset), (1, Die.reset), (2, Die.reset), (3, Die.reset)],
    cores := [], groups := [], blocks := [], launches := [], reports := [], classes := [], reserves := [], nextGang := 0, lines := [],
    proxies := [], hostHalves := [], msgs := [], accs := [], toks := [], obs := [], seen := [], fenced := [], carry := [], cmps := [], snaps := [],
    cmds := [], ranges := [], colls := [], tasks := [], round := 0, roundG := (BitVec.allOnes 64, BitVec.allOnes 64), roundTasks := [],
    queue := [], seqs := [], pegs := [], lockReqs := [],
    broken := [], spills := [], claims := [], convs := [], spaces := [], tlb := [], settled := [], faultq := none, faultProd := 0, faults := [],
    queues := [], bias := [], mgmt := Mgmt.reset, images := [], bents := [], triggers := [] }

end Sys2Proof.Machine
end

