-- ==== Sys2Proof/Machine/Bits.lean ====
section
/-!
DEFINITION. Bit fields, byte order, lane sets and small list helpers that every other file uses.
-/
namespace Sys2Proof.Machine

/-- Bits [lo + len − 1 : lo] of a number. -/
def bitField (x lo len : Nat) : Nat := x / 2 ^ lo % 2 ^ len

/-- Two's complement value of the low `w` bits. -/
def toSigned (x w : Nat) : Int :=
  let y := x % 2 ^ w
  if 2 * y < 2 ^ w then y else (y : Int) - 2 ^ w

/-- The low `w` bits of an integer (Trunc of R8). -/
def truncInt (x : Int) (w : Nat) : Nat := (x % (2 ^ w : Int)).toNat

/-- The bytes of a number, lowest first (R4). -/
def leBytes : Nat → Nat → List Byte
  | 0, _ => []
  | n + 1, x => BitVec.ofNat 8 x :: leBytes n (x / 256)

/-- The number that bytes hold, lowest first (R4). -/
def ofLe : List Byte → Nat
  | [] => 0
  | b :: t => b.toNat + 256 * ofLe t

/-- The 32 lanes of a group. -/
def allLanes : List Nat := List.range 32

/-- Lanes of a set, in increasing order (R9). -/
def lanesOf (m : LaneMask) : List Nat := allLanes.filter (fun l => m.getLsbD l)

/-- A single lane. -/
def laneBit (l : Nat) : LaneMask := (1 : LaneMask) <<< l

/-- The set of the lanes of a list. -/
def ofLanes (ls : List Nat) : LaneMask := ls.foldl (fun m l => m ||| laneBit l) 0

/-- Lanes that satisfy a predicate. -/
def lanesWhere (m : LaneMask) (p : Nat → Bool) : LaneMask := ofLanes ((lanesOf m).filter p)

/-- Population count of a lane set. -/
def countLanes (m : LaneMask) : Nat := (lanesOf m).length

/-- The lowest lane of a set; 0 for the empty set. -/
def lowestLane (m : LaneMask) : Nat := ((lanesOf m).head?).getD 0

/-- Bits of `new` in the lanes of `g`, of `old` elsewhere (R44). -/
def mergeLanes (g old new : LaneMask) : LaneMask := (old &&& ~~~g) ||| (new &&& g)

/-- Sets one field in turn for every element of a list. -/
def forAll {α σ : Type} (l : List α) (s : σ) (f : α → σ → σ) : σ := l.foldl (fun t a => f a t) s

/-- The first element with the least key. -/
def leastBy {α : Type} (key : α → Nat) : List α → Option α
  | [] => none
  | a :: t =>
    match leastBy key t with
    | none => some a
    | some b => if key b < key a then some b else some a

/-- Inserts in order, before the first element that it does not follow. -/
def insertBy {α : Type} (le : α → α → Bool) (a : α) : List α → List α
  | [] => [a]
  | b :: t => if le a b then a :: b :: t else b :: insertBy le a t

/-- Sorts a list; elements equal in the order keep their places. -/
def sortBy {α : Type} (le : α → α → Bool) : List α → List α
  | [] => []
  | a :: t => insertBy le a (sortBy le t)

/-- Address arithmetic on code addresses: PC + SExt(off) modulo 2^55 (R112). -/
def pcPlus (pc : CodeAddr) (off : Int) : CodeAddr := pc + BitVec.ofInt 55 off

/-- A PC from an offset field. -/
def pcOff {n : Nat} (pc : CodeAddr) (off : BitVec n) : CodeAddr := pcPlus pc off.toInt

end Sys2Proof.Machine
end

