-- ==== Sys2Proof/Machine/Mem.lean ====
section
/-!
DEFINITION. Bytes and places: the physical map (R151), the window map (R26, R27), homes (R152, R195), and reads and
writes of bytes, registers seen through windows included.
-/
namespace Sys2Proof.Machine

/-! ### Units by number -/

def State.core (s : State) (c : Nat) : Core := s.cores.getD c Core.reset
def State.die (s : State) (d : Nat) : Die := s.dies.getD d Die.reset
def State.line (s : State) (l : Nat) : Line := s.lines.getD l Line.reset
def State.proxy (s : State) (l d : Nat) : Proxy := s.proxies.getD (l * 4 + d) Proxy.reset
def State.bent (s : State) (b : Nat) : Bent := s.bents.getD b Bent.reset

def State.setCore (s : State) (c : Nat) (f : Core → Core) : State := { s with cores := s.cores.put c (f (s.core c)) }
def State.setDie (s : State) (d : Nat) (f : Die → Die) : State := { s with dies := s.dies.put d (f (s.die d)) }
def State.setLine (s : State) (l : Nat) (f : Line → Line) : State := { s with lines := s.lines.put l (f (s.line l)) }
def State.setProxy (s : State) (l d : Nat) (f : Proxy → Proxy) : State :=
  { s with proxies := s.proxies.put (l * 4 + d) (f (s.proxy l d)) }
def State.setBent (s : State) (b : Nat) (f : Bent → Bent) : State := { s with bents := s.bents.put b (f (s.bent b)) }
def State.setGroup (s : State) (g : Nat) (f : Group → Group) : State := { s with groups := s.groups.modify g f }
def State.setBlock (s : State) (b : Nat) (f : Block → Block) : State := { s with blocks := s.blocks.modify b f }
def State.setLaunch (s : State) (l : Nat) (f : Launch → Launch) : State := { s with launches := s.launches.modify l f }
def State.setCmd (s : State) (c : Nat) (f : Cmd → Cmd) : State := { s with cmds := s.cmds.modify c f }
def State.setTask (s : State) (t : Nat) (f : Task → Task) : State := { s with tasks := s.tasks.modify t f }
def State.setMgmt (s : State) (f : Mgmt → Mgmt) : State := { s with mgmt := f s.mgmt }

/-- A bay of a core. -/
def Core.bay (c : Core) (b : Nat) : Bay := c.bays.getD b Bay.free
def State.bay (s : State) (core b : Nat) : Bay := (s.core core).bay b
def State.setBay (s : State) (core b : Nat) (f : Bay → Bay) : State :=
  s.setCore core (fun c => { c with bays := c.bays.put b (f (c.bay b)) })

/-- The next internal name (log 6). -/
def State.fresh (s : State) : Nat × State := (s.nextId, { s with nextId := s.nextId + 1 })

/-- The next free value (R10, log 2). -/
def State.free (s : State) : Nat × State := (Config.freeNat s.freeCtr, { s with freeCtr := s.freeCtr + 1 })
def State.freeBool (s : State) : Bool × State := (Config.freeBit s.freeCtr, { s with freeCtr := s.freeCtr + 1 })

def coreOfGroup (g : Nat) : Nat := g / 64
def slotOf (g : Nat) : Nat := g % 64
def dieOfCore (c : Nat) : Nat := c / 64
def dieOfGroup (g : Nat) : Nat := g / 4096
/-- Bents are numbered die × 16 + bent. -/
def bentOfCore (c : Nat) : Nat := c / 4
def groupId (core slot : Nat) : Nat := core * 64 + slot
/-- A thread: one lane of one group (R194). -/
def threadId (g lane : Nat) : Nat := g * 32 + lane
/-- R32: the scheduler that serves a slot. -/
def schedOf (g : Nat) : Nat := slotOf g % 4

/-! ### The physical map -/

/-- What an address of R151 lies in. -/
inductive Place where
  | hbm (die : Nat)
  | lpddr (die : Nat)
  | window
  | host
  | none
  deriving DecidableEq, Repr

/-- R151. -/
def placeOf (pa : Nat) : Place :=
  if pa < 0x10000000000 then
    if pa % 0x4000000000 < 128000000000 then .hbm (pa / 0x4000000000) else .none
  else if pa < 0x20000000000 then .lpddr ((pa - 0x10000000000) / 0x4000000000)
  else if 0xF00000000000 ≤ pa ∧ pa < 0x1000000000000 then .window
  else if 0x1000000000000 ≤ pa ∧ pa < 0x10000000000000 then .host
  else .none

/-- R152: the slice number of a line within its home die. -/
def sliceOf (pa : Nat) : Nat :=
  ((bitField pa 7 6 ^^^ bitField pa 13 6) ^^^ bitField pa 19 6) ^^^ bitField pa 25 6

/-- The fields of a window address (R26). -/
structure Window where
  core : Nat
  space : Nat
  off : Nat
  deriving DecidableEq, Repr

/-- R26, R27: the address names a byte of a space, every must-be-zero field zero. -/
def windowOk (pa : Nat) : Bool :=
  bitField pa 44 8 == 0xF && bitField pa 38 6 == 0 && bitField pa 30 6 == 0 && bitField pa 22 2 != 3
    && (match bitField pa 22 2 with
        | 0 => bitField pa 20 2 == 0
        | 1 => bitField pa 21 1 == 0
        | _ => bitField pa 18 4 == 0)

def windowOf (pa : Nat) : Window :=
  { core := bitField pa 36 2 * 64 + bitField pa 24 6, space := bitField pa 22 2, off := bitField pa 0 22 }

/-- R26: the window address of an offset within a space of a core. -/
def windowAddr (core space off : Nat) : Nat :=
  0xF00000000000 + (core / 64) * 2 ^ 36 + (core % 64) * 2 ^ 24 + space * 2 ^ 22 + off

/-- The window address of a scratchpad byte. -/
def scratchAddr (core off : Nat) : Nat := windowAddr core 0 off
/-- The window address of an accumulator (R27). -/
def accumAddr (core bay row col : Nat) : Nat := windowAddr core 2 (bay * 65536 + row * 1024 + col * 4)

/-- A page of device memory in host bias (R383). -/
def hostBias (s : State) (pa : Nat) : Bool := s.bias.getD (pa / 65536) false

/-- Host memory, or device memory in host bias: the host is the home. -/
def homedAtHost (s : State) (pa : Nat) : Bool :=
  match placeOf pa with
  | .host => true
  | .hbm _ | .lpddr _ => hostBias s pa
  | _ => false

/-- An aperture of R388 that holds a host-range address: it is memory of that peer. -/
def peerMemory (s : State) (pa : Nat) : Bool :=
  s.mgmt.apertures.any (fun p => decide (p.2.2.1 ≤ pa ∧ pa < p.2.2.1 + p.2.2.2))

/-- The peg of a line that a group holds under a lock that has been granted to it (R367). -/
def grantedPeg (s : State) (line : Nat) : Option Peg :=
  s.pegs.find? (fun p => p.line == line && p.state == .holding && (s.lockReqs.get? p.req).isNone)

/-- The die at which an address is homed (R152, R195), that of the holder's core once its line's lock is granted (R367, R369); none
for the host and peers. -/
def homeDie (s : State) (pa : Nat) : Option Nat :=
  match placeOf pa with
  | .hbm d | .lpddr d =>
    if hostBias s pa then Option.none
    else some (((grantedPeg s (pa / 128)).map (fun p => dieOfGroup (p.gid % 16384))).getD d)
  | .window => some (dieOfCore (windowOf pa).core)
  | _ => Option.none

/-- R195: the location is local to a die. -/
def isLocal (s : State) (die pa : Nat) : Bool := homeDie s pa == some die

/-- Device memory: HBM or LPDDR. -/
def isDevice (pa : Nat) : Bool :=
  match placeOf pa with
  | .hbm _ | .lpddr _ => true
  | _ => false

def isWindow (pa : Nat) : Bool := placeOf pa == .window

/-- A scratchpad byte. -/
def isScratch (pa : Nat) : Bool := isWindow pa && (windowOf pa).space == 0

/-! ### Bytes -/

/-- One byte of memory. -/
def State.byte (s : State) (pa : Nat) : Byte := Map.getD s.mem pa Config.unwritten

def State.setByte (s : State) (pa : Nat) (b : Byte) : State := { s with mem := Map.putD s.mem Config.unwritten pa b }

/-- A register seen through a window: group, register, lane, byte (R27). -/
def windowReg (pa : Nat) : Nat × Nat × Nat × Nat :=
  let w := windowOf pa
  (groupId w.core (bitField w.off 15 6), bitField w.off 7 8, bitField w.off 2 5, bitField w.off 0 2)

/-- One byte anywhere, registers through windows included. -/
def readByte (s : State) (pa : Nat) : Byte :=
  if isWindow pa && (windowOf pa).space == 1 then
    let (g, r, l, b) := windowReg pa
    match s.groups.get? g with
    | some gr => ((gr.v.getD (r * 32 + l) 0) >>> (8 * b)).setWidth 8
    | none => 0
  else s.byte pa

/-- Bytes from an address on. -/
def readBytes (s : State) (pa : Nat) : Nat → List Byte
  | 0 => []
  | n + 1 => readByte s pa :: readBytes s (pa + 1) n

/-- A little-endian value of `n` bytes. -/
def readNat (s : State) (pa n : Nat) : Nat := ofLe (readBytes s pa n)

/-- A group of a checked launch (R32). -/
def checkedGroup (s : State) (g : Nat) : Bool :=
  (((s.groups.get? g).bind (fun gr => s.blocks.get? gr.blk)).bind (fun b => s.launches.get? b.launch)).elim false (·.checked)

/-- Replaces one byte of a word. -/
def putByte (w : Word) (i : Nat) (b : Byte) : Word :=
  (w &&& ~~~((0xFF : Word) <<< (8 * i))) ||| (b.setWidth 32 <<< (8 * i))

/-- A change of a group that stands even where a primary goes back to an instruction that it issued before (R333). -/
def State.setGroupKept (s : State) (gid : Nat) (f : Group → Group) : State :=
  { s.setGroup gid f with snaps := s.snaps.map (fun k => if k.gid = gid then { k with g := f k.g } else k) }

/-- Writes one byte, registers through windows included, in the shadow's registers too (R332). -/
def writeByte (s : State) (pa : Nat) (b : Byte) : State :=
  if isWindow pa && (windowOf pa).space == 1 then
    let (g, r, l, i) := windowReg pa
    let put (gr : Group) : Group := { gr with v := Map.putD gr.v 0 (r * 32 + l) (putByte (gr.v.getD (r * 32 + l) 0) i b) }
    let s := s.setGroupKept g put
    if slotOf g < 32 ∧ checkedGroup s g then s.setGroup (g + 32) put else s
  else s.setByte pa b

/-- Writes bytes from an address on. -/
def writeBytes (s : State) (pa : Nat) : List Byte → State
  | [] => s
  | b :: t => writeBytes (writeByte s pa b) (pa + 1) t

/-- Writes a little-endian value of `n` bytes. -/
def writeNat (s : State) (pa n x : Nat) : State := writeBytes s pa (leBytes n x)

/-! ### Bytes that have changed -/

/-- The present moment (log 35): how many writes have changed memory outside windows. -/
def State.moment (s : State) : Nat := s.past.length

/-- What writes have replaced from a moment on, newest first. -/
def pastSince (s : State) (k : Nat) : List (Nat × List Byte) := s.past.take (s.moment - k)

/-- A byte as it stood at a moment: what the first write from then on replaced, else what it is now. -/
def byteAt (s : State) (k pa : Nat) : Byte :=
  match ((pastSince s k).filter (fun p => decide (p.1 ≤ pa ∧ pa < p.1 + p.2.length))).getLast? with
  | some p => p.2.getD (pa - p.1) 0
  | none => readByte s pa

def natAt (s : State) (k pa n : Nat) : Nat := ofLe ((List.range n).map (fun i => byteAt s k (pa + i)))

/-- A byte of a range has changed since a moment. -/
def changedSince (s : State) (k pa n : Nat) : Bool :=
  (pastSince s k).any (fun p => decide (p.1 < pa + n ∧ pa < p.1 + p.2.length))

/-- A moment from `k` to the present one, by a free value. -/
def freeMoment (s : State) (k draw : Nat) : Nat := k + Config.freeNat draw % (s.moment - k + 1)

/-- What a reader finds in `n` bytes that it reads together, where it may find what they held at any moment since `k`
(R54, R156): what they hold, if none has changed since. -/
def openNat (s : State) (k pa n draw : Nat) : Nat :=
  if changedSince s k pa n then natAt s (freeMoment s k draw) pa n else readNat s pa n

/-- The same as a step, which takes its draw. -/
def readOpen (s : State) (k pa n : Nat) : Nat × State :=
  (openNat s k pa n s.freeCtr, if changedSince s k pa n then { s with freeCtr := s.freeCtr + 1 } else s)

/-- A write that is kept in the record of what was replaced. -/
def overwrite (s : State) (pa : Nat) (bytes : List Byte) : State :=
  let old := readBytes s pa bytes.length
  let s := writeBytes s pa bytes
  if isWindow pa || old == bytes then s else { s with past := (pa, old) :: s.past }

/-- Two byte ranges overlap. -/
def overlaps (a n b m : Nat) : Bool := decide (a < b + m ∧ b < a + n)

/-- The lines that a range of bytes touches. -/
def linesOf (pa n : Nat) : List Nat := (List.range ((pa % 128 + max n 1 + 127) / 128)).map (pa / 128 + ·)

/-- The set that the bytes at an address carry (R203). -/
def carryOf (s : State) (pa n : Nat) : List Nat := ((List.range n).flatMap (fun i => s.carry.getD (pa + i) [])).eraseDups

/-- Records the set that a write carries, byte by byte. -/
def setCarry (s : State) (pa n : Nat) (c : List Nat) : State :=
  (List.range n).foldl (fun t i => { t with carry := Map.putD t.carry [] (pa + i) c }) s

/-! ### Host lines (R165, R376, R383) -/

/-- An address reached through a bridge: memory of the host, and device memory in host bias. -/
def bridged (s : State) (pa : Nat) : Bool := homedAtHost s pa && !peerMemory s pa

/-- R376: the die whose link takes requests for a line, by bit [6] of the number of the line at its host physical address;
a page in host bias goes by its own address (log 136). -/
def linkDie (line : Nat) : Nat := if line.testBit 6 then 2 else 0

def hostKey (die line half : Nat) : Nat := ((line * 4 + die) * 2 + half) * 4 + linkDie line
def hostHalf (s : State) (die line half : Nat) : Mesi := s.hostHalves.getD (hostKey die line half) .i

/-- The device state of a host line. -/
def hostLineState (lo hi : Mesi) : Moesi :=
  if lo = .i ∨ hi = .i then .i
  else if lo = .s ∨ hi = .s then .s
  else if lo = .m ∨ hi = .m then .m
  else .e

/-- A half's state at the bridge; the proxy slice's state of the line follows. -/
def setHalf (s : State) (die line half : Nat) (x : Mesi) : State :=
  let s := { s with hostHalves := s.hostHalves.put (hostKey die line half) x }
  s.setProxy line die (fun p => { p with state := hostLineState (hostHalf s die line 0) (hostHalf s die line 1) })

/-- The other dies. -/
def otherDies (die : Nat) : List Nat := [0, 1, 2, 3].filter (· != die)

/-- A read of a line in state I fetches the missing halves. A half that another die holds becomes S in both, its data written
back if it was M; else the host grants E or S. -/
def fetchHalves (s : State) (die line : Nat) : State :=
  forAll [0, 1] s (fun h s =>
    if hostHalf s die line h = .i then
      let holders := (otherDies die).filter (fun d => hostHalf s d line h != .i)
      if holders.isEmpty then
        let (b, s) := s.freeBool
        setHalf s die line h (if b then .e else .s)
      else setHalf (forAll holders s (fun d s => setHalf s d line h .s)) die line h .s
    else s)

/-- A store or atomic first has ownership of both halves; the halves it writes become M. -/
def ownHalves (s : State) (die pa size : Nat) : State :=
  forAll (linesOf pa size) s (fun l s =>
    let s := forAll (otherDies die) s (fun d s => setHalf (setHalf s d l 0 .i) d l 1 .i)
    forAll [0, 1] s (fun h s =>
      if overlaps pa size (l * 128 + 64 * h) 64 then setHalf s die l h .m
      else if hostHalf s die l h = .m then s else setHalf s die l h .e))

/-- The bridge's part in a read and in a write of some bytes by a die; an uncached access is performed at the host link and
leaves nothing held (R166). -/
def bridgeRead (s : State) (die pa size : Nat) (uncached : Bool) : State :=
  if bridged s pa && !uncached then forAll (linesOf pa size) s (fun l s => fetchHalves s die l) else s
def bridgeWrite (s : State) (die pa size : Nat) (uncached : Bool) : State :=
  if bridged s pa && !uncached then ownHalves s die pa size else s

/-! ### Observed sets -/

/-- Adds writes to a thread's observed set (R206). -/
def observe (s : State) (gid lane : Nat) (ws : List Nat) : State :=
  if ws.isEmpty then s
  else
    let old := (s.obs.getD (threadId gid lane) []).filter (fun i => s.accs.any (fun a => a.id == i))
    { s with obs := s.obs.put (threadId gid lane) ((old ++ ws).eraseDups) }

def observeLanes (s : State) (gid : Nat) (m : LaneMask) (ws : List Nat) : State :=
  (lanesOf m).foldl (fun t l => observe t gid l ws) s

/-- The union of the observed sets of some lanes. -/
def observed (s : State) (gid : Nat) (m : LaneMask) : List Nat :=
  ((lanesOf m).flatMap (fun l => s.obs.getD (threadId gid l) [])).eraseDups

end Sys2Proof.Machine
end

