-- ==== Sys2Proof/Machine/Ops.lean ====
section
/-!
DEFINITION. Operations on groups, blocks and levels that every family shares: where a group belongs, its status
and special registers, splits and their deferral stacks, event records, the shoring, taking a fault (R281 to R284,
R313, R350, R351) and returning from one (R287).
-/
namespace Sys2Proof.Machine

/-! ### Where a group belongs -/

def State.blockOf (s : State) (g : Group) : Option Block := s.blocks.get? g.blk

def State.launchOf (s : State) (b : Block) : Option Launch := s.launches.get? b.launch

def State.groupLaunch (s : State) (g : Group) : Option Launch := (s.blockOf g).bind s.launchOf

/-- The launch is checked (R32). -/
def isChecked (s : State) (g : Group) : Bool := ((s.groupLaunch g).map (·.checked)).getD false

/-- A shadow group: in a checked launch, a group in slot 32 or above (R32). -/
def isShadow (s : State) (gid : Nat) (g : Group) : Bool := isChecked s g && decide (32 ≤ slotOf gid)

/-- A primary of a checked launch. -/
def isPrimary (s : State) (gid : Nat) (g : Group) : Bool := isChecked s g && decide (slotOf gid < 32)

/-- ENSD of a group's block (R304). -/
def depthOf (s : State) (g : Group) : Nat := ((s.blockOf g).map (·.levels.length)).getD 0

/-- The groups of a block, shadows included. -/
def groupsOf (s : State) (b : Nat) : List (Nat × Group) := s.groups.filter (fun p => p.2.blk == b)

/-- Every lane of a group that has not exited (R38). -/
def splitLanes (sp : Split) : LaneMask :=
  (sp.stack.foldl (fun m d => m ||| d.lanes) sp.members) ||| (sp.parts.foldl (fun m p => m ||| p.members) 0)

def groupLanes (g : Group) : LaneMask := g.splits.foldl (fun m p => m ||| splitLanes p.2) 0

/-- The task that a lane runs, if it runs one. -/
def taskOfLane (s : State) (g : Group) (lane : Nat) : Option Task := (g.tasks.get? lane).bind s.tasks.get?

/-- The lane runs a speculative task (R339). -/
def laneSpec (s : State) (g : Group) (lane : Nat) : Bool :=
  match taskOfLane s g lane with
  | some t => !t.frontier
  | none => false

def laneFrontier (s : State) (g : Group) (lane : Nat) : Bool :=
  match taskOfLane s g lane with
  | some t => t.frontier
  | none => false

def anySpec (s : State) (g : Group) (m : LaneMask) : Bool := (lanesOf m).any (laneSpec s g)

/-- The original thread number of a lane, %ogrp × 32 + %olane (R191). -/
def originThread (g : Group) (lane : Nat) : Nat :=
  match g.origin.get? lane with
  | some (l, i) => i * 32 + l
  | none => g.index * 32 + lane

/-- The thread of R31 that a lane runs (log 21). -/
def threadNumber (g : Group) (lane : Nat) : Nat := g.threads.getD lane (g.index * 32 + lane)

/-- The blocks of a block's cluster, in its stage. -/
def clusterOf (s : State) (b : Block) : List (Nat × Block) :=
  s.blocks.filter (fun p => p.2.launch == b.launch && p.2.cluster == b.cluster && p.2.stage == b.stage)

/-- A slot of a block on its core, shadow slots of a checked launch included (R31, R32). -/
def inSlots (s : State) (b : Block) (slot : Nat) : Bool :=
  decide (b.firstSlot ≤ slot ∧ slot < b.firstSlot + b.nGroups)
    || ((s.launchOf b).elim false (·.checked) && decide (b.firstSlot + 32 ≤ slot ∧ slot < b.firstSlot + 32 + b.nGroups))

/-- The cluster member of a rank. -/
def memberOf (s : State) (b : Block) (rank : Nat) : Option (Nat × Block) :=
  (clusterOf s b).find? (fun p => p.2.rank == rank)

/-! ### Status and special registers -/

/-- STATUS (R73). -/
def statusOf (s : State) (gid : Nat) (g : Group) : Dword :=
  let bit (b : Bool) (i : Nat) : Dword := if b then (1 : Dword) <<< i else 0
  bit g.handler 7 ||| bit g.npe.isSome 6 ||| bit (isChecked s g) 5 ||| bit (isShadow s gid g) 4
    ||| bit g.taskGroup 3 ||| bit (anySpec s g (groupLanes g)) 2
    ||| bit (((s.groupLaunch g).map (·.regroup)).getD false) 1 ||| bit (decide (0 < depthOf s g)) 0

/-- The slot that %grp gives: a shadow reads its primary's (R332). -/
def visibleSlot (s : State) (gid : Nat) (g : Group) : Nat :=
  if isShadow s gid g then slotOf gid - 32 else slotOf gid

/-- The value of a special register in a lane of a group (R37, R71). -/
def specialOf (s : State) (gid : Nat) (g : Group) (r : SReg) (lane : Nat) : Dword :=
  let b := s.blockOf g
  let die := dieOfGroup gid
  match r with
  | .lane => BitVec.ofNat 64 lane
  | .grp =>
    match b with
    | some b =>
      BitVec.ofNat 64 (b.firstSlot * 65536 + visibleSlot s gid g * 256 + (visibleSlot s gid g - b.firstSlot))
    | none => 0
  | .blk => BitVec.ofNat 64 ((b.map (·.index)).getD 0)
  | .clu =>
    match b with
    | some b =>
      let pos := (b.peers.mapIdx (fun i p => (p.1 % 4) * 2 ^ (36 + 2 * i))).foldl (· + ·) 0
      let size := b.peers.length - 1
      BitVec.ofNat 64 (pos + size * 2 ^ 34 + b.rank * 2 ^ 32 + b.cluster)
    | none => 0
  | .stage =>
    match b with
    | some b => BitVec.ofNat 64 (((((s.launchOf b).map (·.stages)).getD 1) - 1) * 8 + b.stage)
    | none => 0
  | .core => BitVec.ofNat 64 (coreOfGroup gid % 64)
  | .die => BitVec.ofNat 64 die
  | .time => BitVec.ofNat 64 (s.die die).time
  | .tstamp => ((taskOfLane s g lane).map (·.ts)).getD 0
  | .task => ((taskOfLane s g lane).map (·.ident)).getD 0
  | .front => (s.die die).front.1
  | .olane => BitVec.ofNat 64 (g.origin.getD lane (lane, g.index)).1
  | .ogrp =>
    BitVec.ofNat 64 (((b.map (·.index)).getD 0) * 2 ^ 30 + (g.origin.getD lane (lane, g.index)).2)

/-! ### The executing instruction -/

/-- What an instruction finds when it issues: its group, split, PC, em, acting lanes (R59), and the group as its
sources read it (R9). -/
structure Ctx where
  gid : Nat
  si : Nat
  sp : Split
  g : Group
  blk : Block
  launch : Launch
  pc : CodeAddr
  em : LaneMask
  act : LaneMask
  deriving DecidableEq, Repr

/-- A condition mask; cm7 reads ones (R44). -/
def Group.mask (g : Group) (n : Nat) : LaneMask := if n = 7 then BitVec.allOnes 32 else g.cm.getD n 0

/-- The acting lanes of R59. -/
def guardLanes (g : Group) (h : Hdr) (em : LaneMask) : LaneMask :=
  let m := g.mask h.gidx.toNat
  em &&& (if h.gneg then ~~~m else m)

/-- The context of the split that `cur` names. -/
def ctxOf (h : Hdr) (s : State) : Option Ctx :=
  match s.groups.get? s.cur.1 with
  | none => none
  | some g =>
    match g.splits.get? s.cur.2, s.blocks.get? g.blk with
    | some sp, some b =>
      match s.launches.get? b.launch with
      | some l => some ⟨s.cur.1, s.cur.2, sp, g, b, l, sp.pc, sp.em, guardLanes g h sp.em⟩
      | none => none
    | _, _ => none

/-- How an instruction's own effect ends. -/
inductive Res where
  /-- It completed; the split goes on at the next sequential instruction. -/
  | done (s : State)
  /-- It completed and has set the program counters itself. -/
  | jump (s : State)
  /-- A precise fault of the lanes given (R8, R350). -/
  | fault (c : Cause) (eval : Dword) (lanes : LaneMask)
  /-- It waits and changes nothing. -/
  | wait
  /-- It changed state (a posted record, a fault pair) but did not issue. -/
  | held (s : State)
  deriving Repr

/-! ### Splits -/

def setSplit (s : State) (gid si : Nat) (f : Split → Split) : State :=
  s.setGroup gid (fun g => { g with splits := g.splits.modify si f })

/-- The part that runs next of those whose waits have ended (R41): in the order in which the waits ended, and of one clk in the
order in which the parts parked. -/
def nextPart (ps : List Part) : Option Part :=
  leastBy (fun p => (p.ended).getD 0) (ps.filter (fun p => p.ended.isSome))

/-- Lanes elsewhere in the split are still to reach the join at which a part is parked (R41). -/
def joinDue (sp : Split) (p : Part) : Bool :=
  let mark := p.pc :: p.tag
  let due (tag : List CodeAddr) : Bool := decide (mark.length ≤ tag.length) && tag.drop (tag.length - mark.length) == mark
  sp.stack.any (fun d => due (if d.join = 0 then d.outer else d.join :: d.outer)) || sp.parts.any (fun q => q != p && due q.tag)

/-- A part becomes the running part. -/
def Split.runPart (sp : Split) (p : Part) (park : Option Park) : Split :=
  { sp with pc := p.pc, em := p.em, members := p.members, tag := p.tag, park := park, parts := sp.parts.filter (· != p),
            stallUntil := match p.ended with | some c => max sp.stallUntil (c + 1) | none => sp.stallUntil,
            woke := p.ended.map (fun c => (c, sp.parts.findIdx (· == p), p.park)) }

/-- The parts parked at a join with `p`, `p` among them: they run on from there as one. -/
def Split.atJoin (sp : Split) (p : Part) : List Part := sp.parts.filter (fun q => q.park == .join && q.pc == p.pc && q.tag == p.tag)

/-- The parts at a join become the running part together (R41). -/
def Split.runJoined (sp : Split) (p : Part) : Split :=
  let here := sp.atJoin p
  { sp.runPart p none with em := here.foldl (fun m q => m ||| q.em) 0, members := here.foldl (fun m q => m ||| q.members) 0,
                           parts := sp.parts.filter (fun q => !here.contains q) }

/-- A split whose running part has parked or ended goes on (R41): with a part whose wait has ended, else with the top entry of
the stack, else with the innermost parts at a join that no other lane is to reach (log 130); else it is parked, the part
that parked last standing for it. `none` when no lane is left. -/
def Split.next (sp : Split) : Option Split :=
  match nextPart sp.parts with
  | some p => some (sp.runPart p none)
  | none =>
    match sp.stack with
    | d :: rest =>
      some { sp with pc := d.pc, em := d.lanes, members := d.lanes, park := none, stack := rest, woke := none,
                     tag := if d.join = 0 then d.outer else d.join :: d.outer }
    | [] =>
      match leastBy (fun p => 1000 - p.tag.length) (sp.parts.reverse.filter (fun p => p.park == .join && !joinDue sp p)) with
      | some p => some (sp.runJoined p)
      | none =>
        match sp.parts.reverse.find? (fun p => p.park != .join) with
        | some p => some (sp.runPart p (some p.park))
        | none => none

/-- The running part as a parked part. -/
def Split.partOf (sp : Split) (p : Park) (ended : Option Nat) : Part := ⟨sp.pc, sp.em, sp.members, sp.tag, p, ended⟩

/-- The running part parks (R41): another part of the split runs if there is one, else the split is parked. -/
def Split.parkAs (sp : Split) (p : Park) : Split :=
  if sp.parts.isEmpty && sp.stack.isEmpty then { sp with park := some p }
  else ({ sp with parts := sp.parts ++ [sp.partOf p none] }.next).getD sp

/-- The wait `p` of a split or of its parts ends at `clk`; lanes that wait go on at the `step`th code word. Of parts whose waits end
in one clk the one that parked first runs first (R41). -/
def Split.wake (sp : Split) (clk : Nat) (p : Park) (step : Nat) : Split :=
  let endPart (q : Part) : Part :=
    if q.park = p ∧ q.ended = none then { q with ended := some clk, pc := pcPlus q.pc step } else q
  let sp : Split := { sp with parts := sp.parts.map endPart }
  match sp.park with
  | some q =>
    if q = p ∧ sp.parts.all (·.ended.isNone) then
      { sp with park := none, pc := pcPlus sp.pc step, stallUntil := max sp.stallUntil (clk + 1), woke := some (clk, sp.parts.length, p) }
    else if sp.parts.any (·.ended.isSome) then
      -- a split parked on another wait goes on with the part that is ready
      let here := sp.partOf q none
      ({ sp with park := none, parts := sp.parts ++ [endPart here] }.next).getD sp
    else sp
  | none =>
    match sp.woke with
    | some (c, k, w) =>
      if c = clk ∧ (sp.parts.take k).any (fun q => q.ended = some clk) then
        ({ sp with parts := sp.parts.take k ++ sp.partOf w (some clk) :: sp.parts.drop k }.next).getD sp
      else sp
    | none => sp

/-- The lanes of a split, or of its parts, that are in the wait `p`. -/
def Split.waiting (sp : Split) (p : Park) : LaneMask :=
  (if sp.park = some p then sp.em else 0)
    ||| sp.parts.foldl (fun m q => if q.park = p ∧ q.ended = none then m ||| q.em else m) 0

/-- A wait that a fault entry has suspended ends (R402). -/
def endKept (p : Park) (step : Nat) : CodeAddr × Park × Option Nat → CodeAddr × Park × Option Nat
  | (pc, q, none) => if q = p then (pc, q, some step) else (pc, q, none)
  | e => e

/-- Ends a wait in every split of a group. -/
def wakeGroup (s : State) (gid : Nat) (p : Park) (step : Nat) : State :=
  s.setGroupKept gid (fun g =>
    { g with splits := g.splits.map (fun q => (q.1, q.2.wake s.clk p step)), entry := g.entry.map (endKept p step) })

/-- The wait that a group's fault entry keeps, if it has not ended. -/
def keptPark (g : Group) : Option Park :=
  match g.entry with
  | some (_, p, none) => some p
  | _ => none

/-- Lanes leave every part of a split. -/
def Split.drop (sp : Split) (lanes : LaneMask) : Split :=
  { sp with em := sp.em &&& ~~~lanes, members := sp.members &&& ~~~lanes,
            stack := (sp.stack.map (fun d => { d with lanes := d.lanes &&& ~~~lanes })).filter (fun d => d.lanes != 0),
            parts := (sp.parts.map (fun p => { p with em := p.em &&& ~~~lanes, members := p.members &&& ~~~lanes })).filter
              (fun p => p.members != 0) }

/-- Lanes leave a split (R38). A split with no lane left ends and its index becomes free; one whose running part
is empty runs its next part. -/
def leaveSplit (g : Group) (si : Nat) (lanes : LaneMask) : Group :=
  match g.splits.get? si with
  | none => g
  | some sp =>
    let sp := sp.drop lanes
    if sp.members ||| sp.em = 0 then
      match sp.next with
      | some sp' => { g with splits := g.splits.put si sp' }
      | none => { g with splits := g.splits.del si }
    else { g with splits := g.splits.put si sp }

/-- The lowest free split index (R38). -/
def freeIndex (g : Group) : Option Nat := [0, 1, 2, 3].find? (fun i => (g.splits.get? i).isNone)

/-- Divides a split into parts in order (R39, R41, R116): each part a PC and lanes; the first keeps the index and
the members outside em. -/
def divide (s : State) (gid si : Nat) (join : CodeAddr) (parts : List (CodeAddr × LaneMask)) : State :=
  match s.groups.get? gid with
  | none => s
  | some g =>
    match g.splits.get? si, parts with
    | some sp, (pc1, l1) :: rest =>
      if rest.isEmpty then setSplit s gid si (fun q => { q with pc := pc1 })
      else if sp.stack.isEmpty && sp.parts.isEmpty && decide (rest.length + g.splits.length ≤ 4) then
        let gone := rest.foldl (fun m p => m ||| p.2) (0 : LaneMask)
        let s := setSplit s gid si (fun q => { q with pc := pc1, em := l1, members := q.members &&& ~~~gone })
        rest.foldl (fun s p =>
          match (s.groups.get? gid).bind freeIndex with
          | none => s
          | some i =>
            let (u, s) := s.fresh
            let q : Split := { sp with uid := u, pc := p.1, em := p.2, members := p.2, readySince := none, park := none,
                                       tag := [], stack := [], parts := [], woke := none }
            s.setGroup gid (fun g => { g with splits := g.splits.put i q })) s
      else
        let gone := rest.foldl (fun m p => m ||| p.2) (0 : LaneMask)
        setSplit s gid si (fun q =>
          { q with pc := pc1, em := l1, members := q.members &&& ~~~gone,
                   stack := rest.map (fun p => ⟨p.1, p.2, join, q.tag⟩) ++ q.stack })
    | _, _ => s

/-! ### Event records (R297 to R299) -/

/-- Hands an event to the arbiter of a die, in the order in which events happen, whatever their units (log 160). -/
def logEvent (s : State) (die code unit index : Nat) (d0 d1 : Dword) : State :=
  s.setDie die (fun d => { d with events := d.events ++ [⟨d.time, code, unit, index, d0, d1⟩] })

/-! ### Levels and the shoring (R317 to R320) -/

/-- On-chip bytes of a level. -/
def Level.onchip (l : Level) : Nat :=
  768 * (l.records.filter (fun r => !r.spill)).length + 136 * (l.regs.filter (fun r => !r.2.spill)).length
    + 8 * (l.words.filter (fun r => !r.2.spill)).length + 144 * (l.lines.filter (fun r => !r.2.spill)).length
    + 144 * l.reserved.1 + 16 * (l.actions.length - l.actionSpill)

def Level.spilled (l : Level) : Nat :=
  768 * (l.records.filter (fun r => r.spill)).length + 136 * (l.regs.filter (fun r => r.2.spill)).length
    + 8 * (l.words.filter (fun r => r.2.spill)).length + 144 * (l.lines.filter (fun r => r.2.spill)).length
    + 144 * l.reserved.2 + 16 * l.actionSpill

def Block.onchip (b : Block) : Nat := b.levels.foldl (fun n l => n + l.onchip) 0
def Block.spilled (b : Block) : Nat := b.levels.foldl (fun n l => n + l.spilled) 0

/-- SHORU (R73). -/
def shoruOf (b : Block) : Dword := BitVec.ofNat 64 (b.spilled * 2 ^ 32 + b.onchip)

/-- Shoring bytes in use in a core (R319). -/
def coreShoring (s : State) (core : Nat) : Nat :=
  (s.blocks.filter (fun p => p.2.core == core)).foldl (fun n p => n + p.2.onchip) 0

/-- Where `n` more bytes of a block's entries go: on chip, in the spill area, or nowhere (R319). -/
def shoreRoom (s : State) (blk n : Nat) : Option Bool :=
  match s.blocks.get? blk with
  | none => none
  | some b =>
    if coreShoring s b.core + n ≤ 131072 then some false
    else if b.spilled + n ≤ ((s.launchOf b).map (·.spillPages * 4096)).getD 0 then some true
    else none

/-- Changes the level of a block at a depth (from 1). -/
def Block.setLevel (b : Block) (d : Nat) (f : Level → Level) : Block := { b with levels := b.levels.modify (d - 1) f }

/-- Changes the innermost level of a block. -/
def Block.setTop (b : Block) (f : Level → Level) : Block := b.setLevel b.levels.length f

def Block.top (b : Block) : Option Level := b.levels.getLast?

/-- All 32 lanes of a register. -/
def regWords (g : Group) (r : Nat) : List Nat := allLanes.map (fun l => (g.v.getD (r * 32 + l) 0).toNat)

/-- The block whose scratch allocation holds a window address of scratchpad. -/
def scratchOwner (s : State) (pa : Nat) : Option Nat :=
  let w := windowOf pa
  ((s.blocks.find? (fun p => p.2.core == w.core && decide (p.2.scratchBase ≤ w.off)
    && decide (w.off < p.2.scratchBase + p.2.scratchSize))).map (·.1))

/-- Two blocks are one, or members of one conversation that is active (R324, R326). -/
def sameSide (s : State) (a b : Nat) : Bool :=
  a == b || s.convs.any (fun c => c.members.contains a && c.members.contains b && bitField (readNat s c.word 8) 62 2 == 2)

/-- The level of block `o` in which a write that block `blk` issued at depth `d` is recorded (R317): a conversation
member's write to another member's scratch or registers belongs to that block's innermost level. -/
def shoreDepth (s : State) (blk d o : Nat) : Nat := if o = blk then d else ((s.blocks.get? o).map (·.levels.length)).getD 0

/-! ### Stopping, failing, ending -/

/-- Stops every group of a block at its instruction boundary. -/
def stopGroups (s : State) (blk : Nat) : State :=
  { s with groups := s.groups.map (fun p => if p.2.blk = blk then (p.1, { p.2 with stopped := true }) else p) }

/-- A failure of level `d` of a block (R313, R314): its groups stop, parked waits, gatherings and handlers are
abandoned, and the rollback is to come. A failure met while one is under way is absorbed; of failures met in one
clk, that of the lowest group stands. -/
def failLevel (s : State) (blk d : Nat) (engine : Bool) (code : BitVec 8) (value : Dword) (pc : CodeAddr)
    (group : Nat) : State :=
  match s.blocks.get? blk with
  | none => s
  | some b =>
    let f : Failure := ⟨d, engine, code, value, pc, s.clk, group⟩
    let take :=
      match b.failing with
      | none => true
      | some o => decide (o.clk = s.clk ∧ group < o.group ∧ d ≤ o.level)
    if take then
      let s := s.setBlock blk (fun b => { b with failing := some f, gather := none })
      { s with groups := s.groups.map (fun p =>
          if p.2.blk = blk then
            (p.1, { p.2 with stopped := true, handler := false, held := [], entry := none, desched := none,
                             faultWait := none })
          else p) }
    else s

/-- A copy has moved every element; any other command has none to move. -/
def copyMoved (k : Cmd) : Bool :=
  match k.kind with
  | .copy _ e _ _ _ _ p0 p1 .. => decide (p1 * (p0 / e) ≤ k.pos)
  | _ => true

/-- Terminate of R284: the block's groups stop for good, its queued commands are discarded and its running ones
stop, the failure is reported and logged. BLOCK_END completes the end. -/
def terminate (s : State) (blk : Nat) (c : Cause) (pc : CodeAddr) : State :=
  match s.blocks.get? blk with
  | none => s
  | some b =>
    if b.terminated.isSome then s
    else
      let s := s.setBlock blk (fun b => { b with terminated := some c, gather := none, failing := none })
      let s := stopGroups s blk
      let s := s.setLaunch b.launch (fun l => { l with fail := if l.fail.isNone then some c.code else l.fail })
      let s := { s with cmds := s.cmds.map (fun p =>
        if p.2.blk = blk then
          match p.2.state with
          | .queued => (p.1, { p.2 with gs := some 0, discarded := true })
          | .running =>
            match p.2.kind with
            | .copy .. => if p.2.failed.isSome || copyMoved p.2 then p else (p.1, { p.2 with failed := some (c, 0), failedAt := s.clk })
            | _ => p
          | _ => p
        else p),
                        colls := s.colls.map (fun p => if p.2.blk = blk ∧ !p.2.accepted then (p.1, { p.2 with discarded := true }) else p) }
      logEvent s (dieOfCore b.core) 0x0001 0 (b.core % 64)
        (BitVec.ofNat 64 (c.code.toNat + (b.index % 2 ^ 32) * 2 ^ 32)) (pc.setWidth 64)

/-- The splits of a group that run the handler. -/
def handlerSplits (g : Group) : Map Split := g.splits.filter (fun p => !g.held.contains p.2.uid)

/-- Once every lane of the handler's splits has exited, the held splits issue again (R281). -/
def settleHandler (g : Group) : Group :=
  if g.handler && (handlerSplits g).isEmpty then { g with handler := false, held := [], entry := none } else g

/-- The name that the locks of an ended group keep until they pass on (R371): while its slot stays empty `n` is 0, and once
another group has taken the slot (`retireSlot`) they and what the group has left on its way carry one name of their own. -/
def deadGid (g n : Nat) : Nat := g + 16384 + 32768 * n

def isDeadGid (g : Nat) : Bool := decide (16384 ≤ g % 32768)

/-- Lock requests of ended groups are dropped, but for one that holds its line and has not been answered; their places in chains go and
what they hold keeps a name of its own. -/
def retireLocks (s : State) (gone : List Nat) : State :=
  let due (id : Nat) : Bool := s.pegs.any (fun p => p.req == id && p.state == .holding)
  let reqs := s.lockReqs.filter (fun p => gone.contains p.2.gid && !due p.1)
  { s with lockReqs := (s.lockReqs.filter (fun p => !(gone.contains p.2.gid && !due p.1))).map
             (fun p => if gone.contains p.2.gid then (p.1, { p.2 with gid := deadGid p.2.gid 0 }) else p),
           queue := s.queue.filter (fun e => !reqs.any (fun r => e.payload == .lock r.1)),
           pegs := (s.pegs.filter (fun p => !(gone.contains p.gid && p.state != .holding && p.state != .absent))).map
             (fun p => if gone.contains p.gid then { p with gid := deadGid p.gid 0 } else p) }

/-- A collective that its group leaves behind before the engine has accepted it (R226, R229): a slot that is true lets it go on, any
other discards it. It keeps what the group's threads had observed. -/
def leaveColl (s : State) (g : Group) (k : Coll) : Coll :=
  let k := { k with gid := deadGid k.gid 0, obs := observed s k.gid k.lanes }
  match k.gs with
  | none => k
  | some n =>
    let st := (g.gres.reverse.find? (fun p => p.1 == n.toNat)).elim (g.gs.getD n.toNat .free) (·.2)
    if st = .true then { k with gs := none } else { k with discarded := true }

/-- A group whose last split has ended leaves its slot (R38); pending guard slots become false (R226). Its locks
pass on by LOCK_HANDOVER (R371). A primary and its shadow end together. -/
def endGroup (s : State) (gid : Nat) : State :=
  match s.groups.get? gid with
  | none => s
  | some g =>
    let top := if isShadow s gid g then gid - 32 else gid
    let drop := if isChecked s g then [top, top + 32] else [gid]
    if drop.all (fun i => (s.groups.get? i).elim true (fun g => g.splits.isEmpty)) then
      let s := retireLocks s drop
      { s with groups := s.groups.filter (fun p => !drop.contains p.1),
               cmds := s.cmds.map (fun p =>
                 if drop.contains p.2.gid ∧ p.2.state = .queued ∧ p.2.gs.isSome then (p.1, { p.2 with discarded := true }) else p),
               colls := s.colls.map (fun p =>
                 if drop.contains p.2.gid ∧ !p.2.accepted then (p.1, leaveColl s g p.2) else p) }
    else s

/-- A copy or matrix command of the group is held, queued or running (R229). -/
def commandsLeft (s : State) (gid : Nat) : Bool :=
  s.cmds.any (fun p => p.2.gid == gid && p.2.state != .ended && !p.2.discarded)

/-- A window access to the registers of a group, or of its shadow, is in flight (R28). -/
def regsTargeted (s : State) (gid : Nat) : Bool :=
  s.accs.any (fun a => a.stage != .satisfied && isWindow a.pa && (windowOf a.pa).space == 1
    && ((windowReg a.pa).1 == gid || (checkedGroup s gid && (windowReg a.pa).1 % 32 == gid % 32 && coreOfGroup (windowReg a.pa).1 == coreOfGroup gid)))

/-- Ends a group that has no split left, once its commands and the window accesses to its registers have ended (R38, R229, R28). -/
def reapGroup (s : State) (gid : Nat) : State := if commandsLeft s gid ∨ regsTargeted s gid then s else endGroup s gid

/-- Lanes leave the running part of a split (R38). -/
def lanesLeave (s : State) (gid si : Nat) (lanes : LaneMask) : State :=
  reapGroup (s.setGroup gid (fun g => settleHandler (leaveSplit g si lanes))) gid

/-- Results of a group no longer wait for lanes that they can no longer reach; one that waits for none is dropped. -/
def cutToks (s : State) (gid : Nat) (dead : Nat → LaneMask) : State :=
  let toks := s.toks.map (fun p => if p.2.gid = gid then (p.1, { p.2 with lanes := p.2.lanes &&& ~~~dead p.1 }) else p)
  let s := { s with toks := toks.filter (fun p => !(p.2.gid == gid && p.2.lanes == 0)) }
  let live (p : Pend) : Bool := (s.toks.get? p.tok).isSome || (s.lockReqs.get? p.tok).isSome
  s.setGroupKept gid (fun g => { g with pend := (g.pend.filter live).map (fun p => { p with lanes := p.lanes &&& ~~~dead p.tok }) })

/-- A result no longer waits for a lane that has ended. -/
def dropTokLane (s : State) (gid lane : Nat) : State := cutToks s gid (fun _ => laneBit lane)

/-- What a primary has presented no longer speaks of a lane that has ended before the comparison (R349, R359). -/
def cutCmps (s : State) (gid lane : Nat) (f : Group → Group) : State :=
  let cut (k : Cmp) : Cmp :=
    { k with g := f k.g, em := k.em &&& ~~~laneBit lane, act := k.act &&& ~~~laneBit lane, items := k.items.filter (fun x => x.2.1 != lane) }
  let cmps := s.cmps.map (fun k => if k.gid = gid then cut k else k)
  { s with cmps := cmps.filter (fun k => k.gid != gid || k.act != 0 || !k.items.isEmpty) }

/-- A lane of a group ends wherever it stands in its split. -/
def endLane (s : State) (gid lane : Nat) : State :=
  let leave (g : Group) : Group :=
    match (g.splits.find? (fun p => (splitLanes p.2).getLsbD lane)).map (·.1) with
    | some i => settleHandler (leaveSplit g i (laneBit lane))
    | none => g
  let one (s : State) (gid : Nat) : State := cutCmps ((dropTokLane s gid lane).setGroupKept gid leave) gid lane leave
  let s := one s gid
  reapGroup (if checkedGroup s gid then one s (gid + 32) else s) gid

/-- Descendants of a task (R349), by the parent links. -/
def descendants (s : State) : Nat → Nat → List Nat
  | 0, _ => []
  | n + 1, t =>
    let kids := (s.tasks.filter (fun p => p.2.parent == t)).map (·.1)
    kids ++ kids.flatMap (descendants s n)

/-- The lane that runs a task ends (R349): it leaves its split. -/
def endTaskLane (s : State) (t : Task) : State :=
  if t.state = .running then
    endLane (s.setGroupKept t.gid (fun g => { g with tasks := g.tasks.del t.lane })) t.gid t.lane
  else s

/-- Drops accesses of a task that have not left it: no result waits for them any more. -/
def dropAccsOf (s : State) (t : Nat) (p : Acc → Bool) : State :=
  let mine := s.accs.filter (fun a => a.task == some t && p a)
  let s := { s with accs := s.accs.filter (fun a => !(a.task == some t && p a)) }
  forAll (mine.filterMap (·.gid)).eraseDups s (fun g s =>
    cutToks s g (fun k => mine.foldl (fun m a => if a.gid = some g ∧ a.tok = some k then m ||| a.lanes else m) 0))

def dropTaskAccs (s : State) (t : Nat) : State := dropAccsOf s t (fun _ => true)

/-- Drops a task's writes (R357). -/
def dropTaskWrites (s : State) (t : Nat) : State := dropAccsOf s t (fun a => a.kind != .load)

/-- A task leaves every prefetched batch. -/
def unbatch (s : State) (t : Nat) : State :=
  let out (c : Core) : Core :=
    { c with prefetch :=
        (c.prefetch.map (fun b => { b with tasks := b.tasks.filter (· != t) })).filter (fun b => !b.tasks.isEmpty) }
  { s with cores := s.cores.map (fun p => (p.1, out p.2)) }

/-- Neither a task that is aborted or discarded nor any later one commits in the round under way (R348). -/
def cutRound (s : State) (t : Nat) : State := { s with roundTasks := s.roundTasks.takeWhile (· != t) }

/-- Discards a task (R349). -/
def discardTask (s : State) (t : Nat) : State :=
  match s.tasks.get? t with
  | none => s
  | some k =>
    let s := endTaskLane (cutRound s t) k
    let s := dropTaskAccs s t
    unbatch { s with tasks := s.tasks.del t, queue := s.queue.filter (fun e => e.payload != .task t) } t

/-- Abort of a task (R349): descendants are discarded, its buffer, registrations and marks dropped, and it is
queued again. A task in frontier mode is never aborted. -/
def abortTask (s : State) (t : Nat) : State :=
  match s.tasks.get? t with
  | none => s
  | some k =>
    if k.frontier then s
    else
      let s := forAll (descendants s s.tasks.length t) (cutRound s t) (fun d s => discardTask s d)
      let s := endTaskLane s k
      let s := dropTaskAccs s t
      let s := unbatch s t
      s.setTask t (fun k => { k with state := if k.state = TaskState.transit then TaskState.transit else TaskState.queued,
                                     slot := false, buf := [], reads := [], drain := [] })

/-- A task retires poisoned (R351, R352), with every descendant. -/
def poisonTask (s : State) (t : Nat) : State :=
  let retire (s : State) (u : Nat) : State :=
    match s.tasks.get? u with
    | none => s
    | some k =>
      let s := logEvent s k.die 0x0006 2 0xFF k.ident k.ts
      let s := s.setLaunch k.launch (fun l => { l with poisoned := if l.poisoned.isNone then some k.ident else l.poisoned })
      discardTask s u
  forAll (t :: descendants s s.tasks.length t) s (fun u s => retire s u)

/-! ### Taking a fault -/

/-- Results of a group that are still to be written, lock waits apart (R64). -/
def resultsPending (s : State) (g : Group) : Bool := g.pend.any (fun p => (s.lockReqs.get? p.tok).isNone)

/-- The split `si` of a group enters the handler (R281). A park state of that split is kept (R402). -/
def enterSplit (g : Group) (si : Nat) (engine : Bool) (c : Cause) (eval : Dword) : Group :=
  match g.splits.get? si with
  | none => g
  | some sp =>
    { g with handler := true, causeEngine := engine, cause := c.code, epc := sp.pc, eval := eval,
             savedEm := sp.em, held := (g.splits.filter (fun p => p.1 != si)).map (·.2.uid),
             entry := sp.park.map (fun p => (sp.pc, p, none)), inflight := [],
             splits := g.splits.put si { sp with pc := g.tvec, park := none } }

/-- R281: the handler is entered, or the block ends. In a checked launch both groups of the pair enter (R284). -/
def enterHandler (s : State) (gid si : Nat) (engine : Bool) (c : Cause) (eval : Dword) : State :=
  match s.groups.get? gid with
  | none => s
  | some g =>
    let pc := ((g.splits.get? si).map (·.pc)).getD 0
    if g.handler || g.tvec == 0 || (g.splits.get? si).isNone then terminate s g.blk c pc
    else
      let s := s.setGroup gid (fun g => enterSplit g si engine c eval)
      if isPrimary s gid g then s.setGroup (gid + 32) (fun g => enterSplit g si engine c eval) else s

/-- A fault attributed to speculative lanes is deferred (R350): each lane ends and its task is marked. -/
def deferFault (s : State) (gid : Nat) (g : Group) (lanes : LaneMask) : State :=
  forAll ((lanesOf lanes).filter (laneSpec s g)) s (fun l s =>
    match g.tasks.get? l with
    | none => s
    | some t =>
      match s.tasks.get? t with
      | none => s
      | some k =>
        let s := endTaskLane s { k with gid := gid, lane := l }
        s.setTask t (fun k => { k with state := .marked }))

/-- A fault that the group takes, attributed to `lanes` of the acting set: to a task (R350, R351), to the current
alternate (R283, R313), or to the handler (R281). -/
def takeFaultAt (s : State) (gid si : Nat) (engine : Bool) (c : Cause) (eval : Dword) (lanes : LaneMask) : State :=
  match s.groups.get? gid with
  | none => s
  | some g =>
    let pc := ((g.splits.get? si).map (·.pc)).getD 0
    let d := depthOf s g
    if anySpec s g lanes then deferFault s gid g lanes
    else if 0 < d ∧ c ≠ .illegalOp ∧ c ≠ .reservedEnc then
      failLevel s g.blk d engine c.code eval pc g.index
    else
      match (lanesOf lanes).find? (laneFrontier s g) with
      | some l =>
        match g.tasks.get? l with
        | some t => poisonTask s t
        | none => s
      | none => enterHandler s gid si engine c eval

/-- The primary as it stood when it issued its n-th instruction, where its shadow has not issued that yet. -/
def snapOf (s : State) (gid n : Nat) : Option Group := (s.snaps.find? (fun k => k.gid == gid && k.n == n)).map (·.g)

/-- A primary goes back to the boundary before its n-th instruction (R333): what it has issued since is gone, with the accesses
that have not left the core, and what its engines and its block have done to it stands. -/
def rewind (s : State) (gid n : Nat) : State :=
  match snapOf s gid n with
  | none => s
  | some k =>
    let s := s.setGroup gid (fun g =>
      { k with gs := g.gs, gres := g.gres, spawned := g.spawned, fails := g.fails, copies := g.copies, desched := none, npeOver := g.npeOver,
               stopped := g.stopped, faultWait := none })
    { s with accs := s.accs.filter (fun a => !(a.gid == some gid && decide (n ≤ a.n) && (a.kind == .load || a.cmp.isSome))),
             toks := s.toks.filter (fun p => !(p.2.gid == gid && decide (n ≤ p.2.n))),
             cmps := s.cmps.filter (fun c => !(c.gid == gid && decide (n ≤ c.n))),
             snaps := s.snaps.filter (fun k => !(k.gid == gid && decide (n ≤ k.n))) }

/-- A SHADOW_MISMATCH in a primary at its n-th instruction, for some lanes (R333, R334): the primary goes back to it, the shadow takes
a copy of its state, and both enter the handler; for speculative lanes it is deferred (R350, R359); else inside a level the alternate fails; what has not been compared never takes place. -/
def shadowMismatch (s : State) (gid n si : Nat) (what lane : Nat) (lanes : LaneMask) : State :=
  let s := rewind s gid n
  match s.groups.get? gid with
  | none => s
  | some g =>
    let eval := BitVec.ofNat 64 (what + lane * 256)
    let spec := anySpec s g lanes
    let dead (k : Tok) : Bool := k.gid == gid && s.cmps.any (fun c => c.gid == gid && c.n == k.n)
    let lost := (s.toks.filter (fun p => dead p.2)).map (·.1)
    let g := { g with pend := g.pend.filter (fun p => !lost.contains p.tok) }
    let s := { s.setGroup gid (fun _ => g) with toks := s.toks.filter (fun p => !lost.contains p.1) }
    let s := { s with accs := s.accs.filter (fun a => !(a.gid == some gid && a.cmp.isSome)),
                      cmps := s.cmps.filter (fun c => c.gid != gid), snaps := s.snaps.filter (fun k => k.gid != gid) }
    let s := s.setGroup gid (fun g => { g with faultWait := none })
    if depthOf s g = 0 ∨ spec then
      let s := { s with groups := s.groups.map (fun p =>
        if p.1 = gid + 32 then (p.1, { g with results := [], sampled := [] }) else p) }
      takeFaultAt s gid si false .shadowMismatch eval lanes
    else failLevel s g.blk (depthOf s g) false 0x0B eval (((g.splits.get? si).map (·.pc)).getD 0) g.index

/-- A fault of the executing instruction. In a checked launch the primary waits for its shadow to meet it, and the
shadow's meeting it, at the same instruction and with the same cause, lets both take it (R284). -/
def takeFault (s : State) (c : Ctx) (cause : Cause) (eval : Dword) (lanes : LaneMask) : State :=
  match s.groups.get? c.gid with
  | none => s
  | some g =>
    if resultsPending s g then s
    else if isPrimary s c.gid g then
      if g.faultWait.isSome then s
      else s.setGroup c.gid (fun g => { g with faultWait := some ⟨c.si, cause, eval, lanes⟩ })
    else if isShadow s c.gid g then
      match (s.groups.get? (c.gid - 32)).bind (fun p => if p.issued = g.issued then p.faultWait else none) with
      | some w =>
        let s := s.setGroup (c.gid - 32) (fun g => { g with faultWait := none })
        if w.cause = cause then takeFaultAt s (c.gid - 32) w.split false w.cause w.eval w.lanes
        else shadowMismatch s (c.gid - 32) g.issued w.split 6 (lowestLane w.lanes) w.lanes
      | none => shadowMismatch s (c.gid - 32) g.issued c.si 6 (lowestLane lanes) lanes
    else takeFaultAt s c.gid c.si false cause eval lanes

/-! ### Failures of engines (R230, R402) -/

/-- A primary's shadow has issued everything that the primary has: what happens between two instructions finds both at
one boundary (R284, R331). -/
def pairLevel (s : State) (gid : Nat) (g : Group) : Bool :=
  !isPrimary s gid g || (s.groups.get? (gid + 32)).elim true (fun h => h.issued == g.issued)

/-- The splits of a group that its handler does not hold. -/
def liveSplits (g : Group) : Map Split := g.splits.filter (fun q => !(g.handler && g.held.contains q.2.uid))

/-- Every such split is parked (R402). -/
def allParked (g : Group) : Bool := (liveSplits g).all (fun q => q.2.park.isSome)

/-- The first failure of a group whose splits are all parked is taken at once, by the lowest of them (R402). -/
def deliverFailure (s : State) (gid : Nat) : State :=
  match s.groups.get? gid with
  | none => s
  | some g =>
    let b := s.blocks.get? g.blk
    match g.fails, g.splits with
    | f :: rest, p :: _ =>
      let p := ((liveSplits g).head?).getD p
      if allParked g ∧ !resultsPending s g ∧ pairLevel s gid g ∧ !g.stopped ∧ g.desched.isNone ∧ g.faultWait.isNone
          ∧ b.elim false (fun b => b.failing.isNone && b.terminated.isNone && !b.sealed) then
        takeFaultAt (s.setGroup gid (fun g => { g with fails := rest })) gid p.1 true f.cause f.eval p.2.em
      else s
    | _, _ => s

/-- A failure waits for its group in the order in which the commands issued (R230), unless it is taken at once (R402). -/
def queueFailure (s : State) (id : Nat) (k : Cmd) (cause : Cause) (eval : Dword) : State :=
  deliverFailure (s.setGroup k.gid (fun g =>
    { g with fails := sortBy (fun a b => decide (a.cmd ≤ b.cmd)) (g.fails ++ [⟨id, cause, eval⟩]) })) k.gid

/-! ### Returning from a fault -/

/-- TRET in one group of a pair (R287, R402). -/
def returnGroup (g : Group) (si : Nat) : Group :=
  match g.splits.get? si with
  | none => g
  | some sp =>
    let (park, step) : Option Park × Nat := match g.entry with
      | some (pc, p, none) => if pc = g.epc then (some p, 0) else (none, 0)
      | some (pc, _, some n) => if pc = g.epc then (none, n) else (none, 0)
      | none => (none, 0)
    { g with handler := false, held := [], entry := none,
             splits := g.splits.put si { sp with pc := pcPlus g.epc step, em := g.savedEm &&& splitLanes sp, park := park } }

/-! ### Ending a group -/

/-- The core counts a thread's exit (R191): live threads fall. The words are updated by `barrierExit`. -/
def noteExit (s : State) (g : Group) (lane : Nat) : State :=
  s.setBlock g.blk (fun b => { b with exited := (b.exited ++ [threadNumber g lane]).eraseDups })

end Sys2Proof.Machine
end

