-- ==== Sys2Proof/Machine/Translate.lean ====
section
/-!
DEFINITION. Translation (R153 to R156, R381), fault records (R382) and fetching an instruction's code words (R54).
-/
namespace Sys2Proof.Machine

/-- What an access needs of a page (R155). -/
structure Need where
  r : Bool
  w : Bool
  x : Bool
  cached : Bool
  deriving DecidableEq, Repr

def Need.load : Need := ⟨true, false, false, false⟩
def Need.store : Need := ⟨false, true, false, false⟩
def Need.fetch : Need := ⟨false, false, true, true⟩
/-- Class 5 accesses, locks, conversation words, completion words and directories: rd, w and type 0. -/
def Need.both : Need := ⟨true, true, false, true⟩
/-- LDC: rd and type 0 (R166). -/
def Need.constant : Need := ⟨true, false, false, true⟩

/-- The outcome of a translation. A page fault names the intermediate address of a stage-2 fault, else 0. -/
inductive Tr where
  | ok (pa : Nat) (uncached : Bool)
  | page (ipa : Nat) (stage2 : Bool)
  | access
  deriving DecidableEq, Repr

/-- A leaf found by a walk: the address of its page, its size as a power of two, its permissions and type. -/
inductive Walk where
  | leaf (base log2 : Nat) (r w x uncached : Bool)
  | page (ipa : Nat) (stage2 : Bool)
  | access
  deriving DecidableEq, Repr

/-- The levels of R153: level, lowest address bit, index bits. -/
def levels : List (Nat × Nat × Nat) := [(0, 48, 9), (1, 39, 9), (2, 30, 9), (3, 21, 9), (4, 16, 5)]

/-- A page-table node may lie in device or host memory (R155). -/
def nodeOk (pa : Nat) : Bool :=
  match placeOf pa with
  | .hbm _ | .lpddr _ | .host => true
  | _ => false

/-- A walk (R155) from a node at `node`, with the entries it read; `via` takes a node address to a physical one. An entry is read
as it stood at some moment since `k`, by the draws from `draw` on (R156). -/
def walk (s : State) (k draw : Nat) (via : Nat → Nat → Tr × List Nat) (va : Nat) :
    List (Nat × Nat × Nat) → Nat → Walk × List Nat
  | [], _ => (.access, [])
  | (lvl, sh, n) :: rest, node =>
    match via lvl node with
    | (.page i st, seen) => (.page i st, seen)
    | (.access, seen) => (.access, seen)
    | (.ok pa _, seen) =>
      if !nodeOk pa then (.access, seen)
      else
        let at_ := pa + 8 * bitField va sh n
        let seen := seen ++ [at_]
        let e := openNat s k at_ 8 (draw + lvl)
        let typ := bitField e 6 2
        let addr := bitField e 8 44 * 256
        let r := bitField e 1 1 == 1
        let w := bitField e 2 1 == 1
        let x := bitField e 3 1 == 1
        if bitField e 0 1 = 0 then (.page 0 false, seen)
        else if bitField e 52 12 ≠ 0 ∨ bitField e 4 1 = 1 ∨ 2 ≤ typ ∨ (w && !r) then (.access, seen)
        else if r || w || x then
          if lvl < 2 ∨ addr % 2 ^ sh ≠ 0 then (.access, seen)
          else (.leaf addr sh r w x (typ == 1), seen)
        else if addr % (if lvl = 3 then 256 else 4096) ≠ 0 then (.access, seen)
        else
          let (k, more) := walk s k draw via va rest addr
          (k, seen ++ more)

/-- The permission check of R155. -/
def permitted (n : Need) (r w x uncached : Bool) : Bool :=
  (!n.r || r) && (!n.w || w) && (!n.x || x) && (!n.cached || !uncached)

/-- Stage 2 (R381): the leaf's address is that of the byte; a root of 0 is the identity. -/
def stage2 (s : State) (k draw root ipa : Nat) : Walk × List Nat :=
  if root = 0 then (.leaf ipa 0 true true true false, [])
  else
    match walk s k draw (fun _ a => (.ok a false, [])) ipa levels root with
    | (.page _ _, seen) => (.page ipa true, seen)
    | (.access, seen) => (.access, seen)
    | (.leaf base sh r w x u, seen) => (.leaf (base + ipa % 2 ^ sh) 0 r w x u, seen)

/-- A leaf's address where the access may use it. -/
def Walk.tr (n : Need) : Walk → Tr
  | .page i st => .page i st
  | .access => .access
  | .leaf pa _ r w x u => if permitted n r w x u then .ok pa u else .access

/-- Both stages, from the page tables (R381): the physical address of a byte, with what both stages permit. -/
def walkBoth (s : State) (k draw pasid : Nat) (n : Need) (va : Nat) : Walk × List Nat :=
  match s.spaces.get? pasid with
  | none => (.access, [])
  | some sp =>
    let via (lvl a : Nat) : Tr × List Nat :=
      let (w, seen) := stage2 s k (draw + 8 * (lvl + 1)) sp.s2 a
      (w.tr Need.load, seen)
    match walk s k draw via va levels sp.s1 with
    | (.page i st, seen) => (.page i st, seen)
    | (.access, seen) => (.access, seen)
    | (.leaf base sh r w x u, seen) =>
      if !permitted n r w x u then (.access, seen)
      else
        let (q, more) := stage2 s k (draw + 48) sp.s2 (base + va % 2 ^ sh)
        (match q with
         | .leaf pa _ r2 w2 x2 u2 =>
           if permitted n r2 w2 x2 u2 && nodeOk pa then .leaf pa 0 (r && r2) (w && w2) (x && x2) (u || u2) else .access
         | q => q, seen ++ more)

/-- A cached translation that covers an address (R156). -/
def tlbHit (s : State) (pasid va : Nat) : Option Tlb :=
  s.tlb.find? (fun t => t.pasid == pasid && t.va == va / 65536)

/-- What a cached translation gives an access. -/
def Tlb.tr (t : Tlb) (n : Need) (va : Nat) : Tr :=
  if permitted n t.r t.w t.x t.uncached then .ok (t.pa + va % 65536) t.uncached else .access

/-- The moment of the last INVAL that covered an address (R156, R378). -/
def settledAt (s : State) (pasid va : Nat) : Nat :=
  ((s.settled.filter (fun r => r.pasid == pasid && decide (r.lo ≤ va ∧ va < r.lo + r.size))).map (·.moment)).foldl max 0

/-! ### Corrected errors -/

/-- A read of the device's SRAM or DRAM may meet a single-bit error and correct it: only a record shows it (R159, R299, log 134). -/
def mayCorrect (s : State) (pa : Nat) : State :=
  let note (d unit index : Nat) : State :=
    let e : Event := ⟨(s.die d).time, 0x0002, unit, index, BitVec.ofNat 64 pa, 0⟩
    { s.setDie d (fun k => { k with corrected := k.corrected ++ [(e, s.freeCtr)] }) with freeCtr := s.freeCtr + 1 }
  match placeOf pa with
  | .hbm d | .lpddr d => note d 1 (sliceOf pa)
  | .window => note (dieOfCore (windowOf pa).core) 0 ((windowOf pa).core % 64)
  | _ => s

/-- A translation for a die (R156): a walk's, each entry old or new until it is settled, or, while a cached one differs, either.
A walk reads entries in host memory through the bridge (R155); its result is cached. Which of the translations that R156 allows is
used is a free choice (log 137). -/
def translate (s : State) (die pasid : Nat) (n : Need) (va : Nat) : Tr × State :=
  if 2 ^ 57 ≤ va then (.access, s)
  else
    let k := settledAt s pasid va
    let (w, seen) := walkBoth s k s.freeCtr pasid n va
    let fresh := w.tr n
    let s := if seen.any (fun a => changedSince s k a 8) then { s with freeCtr := s.freeCtr + 64 } else s
    let walked (s : State) : State := seen.foldl (fun s a => mayCorrect (bridgeRead s die a 8 false) a) s
    match tlbHit s pasid va, w with
    | none, .leaf pa _ r w x u => (fresh, { walked s with tlb := ⟨pasid, va / 65536, 16, pa - pa % 65536, r, w, x, u⟩ :: s.tlb })
    | none, _ => (fresh, walked s)
    | some t, _ =>
      if t.tr n va = fresh then (fresh, s)
      else
        let (b, s) := s.freeBool
        if b then (t.tr n va, s) else (fresh, walked s)

/-- Posts a fault record, or finds the unanswered one of its 64 KiB range (R382); answers the tag. -/
def postFault (s : State) (pasid va ipa flags : Nat) : Nat × State :=
  match s.faults.find? (fun f => f.pasid == pasid && f.va / 65536 == va / 65536) with
  | some f => (f.tag, s)
  | none =>
    let (t, s) := s.fresh
    (t, { s with faults := s.faults ++ [⟨t, pasid, va, ipa, flags, false⟩] })

/-- What a fetch of some code words gives: the words, or the address that faults. -/
inductive Fetched where
  | words (ws : List (BitVec 32))
  | page (va ipa : Nat) (stage2 : Bool)
  | access (va : Nat)
  | poison (pa : Nat)
  deriving DecidableEq, Repr

/-- Fetches `n` code words from a PC for a launch on a die (R54), each translated with x and type 0 (R155). A word that has changed
since the launch was accepted reads as it stood at any moment since (log 125). -/
def fetchWords (s : State) (die : Nat) (l : Launch) (pc : CodeAddr) : Nat → Fetched × State
  | 0 => (.words [], s)
  | n + 1 =>
    let va := pc.toNat * 4
    let (t, s) := translate s die l.pasid Need.fetch va
    match t with
    | .access => (.access va, s)
    | .page i st => (.page va i st, s)
    | .ok pa _ =>
      if (s.line (pa / 128)).poison then (.poison (pa - pa % 128), s)
      else
        let (w, s) := readOpen s l.since pa 4
        match fetchWords (mayCorrect (bridgeRead s die pa 4 false) pa) die l (pc + 1) n with
        | (.words ws, s) => (.words (BitVec.ofNat 32 w :: ws), s)
        | r => r

end Sys2Proof.Machine
end

