-- ==== Sys2Proof/Machine/Access.lean ====
section
/-!
DEFINITION. The abstract machine of R193 to R213: how an access enters it at Issue, what its steps need, what a load
reads and what an applied write does (leases, probes, claims, locks, sector conflicts, barrier words, shoring).
-/
namespace Sys2Proof.Machine

/-! ### Finding accesses -/

def State.acc? (s : State) (id : Nat) : Option Acc := s.accs.find? (fun a => a.id == id)

def State.setAcc (s : State) (id : Nat) (f : Acc → Acc) : State :=
  { s with accs := s.accs.map (fun a => if a.id = id then f a else a) }

def State.dropAcc (s : State) (id : Nat) : State := { s with accs := s.accs.filter (fun a => a.id != id) }

/-- Moves an access to the end of the list, where its place in coherence order or in its queue is (R197). -/
def State.moveLast (s : State) (a : Acc) : State := { s with accs := s.accs.filter (fun b => b.id != a.id) ++ [a] }

/-- Two accesses of one thread (R194). -/
def sameThread (a b : Acc) : Bool := a.gid.isSome && a.gid == b.gid && (a.lanes &&& b.lanes) != 0

def Acc.isLoad (a : Acc) : Bool := a.kind == .load

/-- An access of the store buffer: a store, class 5 access, expert request, flush or unlock (R198). -/
def Acc.isWrite (a : Acc) : Bool := a.kind != .load

/-- A class 5 access: it reads and writes (R203). -/
def Acc.isRmw (a : Acc) : Bool :=
  match a.kind with
  | .load | .store | .flush _ | .unlock => false
  | _ => true

/-- It writes bytes: a store or a class 5 access. -/
def Acc.writesBytes (a : Acc) : Bool :=
  match a.kind with
  | .load | .flush _ | .unlock => false
  | _ => true

def Acc.covers (a : Acc) (pa : Nat) : Bool := a.writesBytes && decide (a.pa ≤ pa ∧ pa < a.pa + a.size)

def Acc.hits (a b : Acc) : Bool := overlaps a.pa a.size b.pa b.size

/-- Program-earlier accesses of an access's thread, in any stage but satisfied (R194). -/
def earlier (s : State) (a : Acc) : List Acc :=
  s.accs.filter (fun b => decide (b.id < a.id) && sameThread a b && b.stage != .satisfied)

/-- An XUNPIN that waits in its store buffer for the copies that its group issued before it (R270): nothing of its group is held behind it. -/
def pinHeld (b : Acc) : Bool := b.kind == .xunpin && b.stage == .buffered

/-- A write stands in its thread's store buffer, where one that waits for a locked line stays (R369). -/
def inBuffer (a : Acc) : Bool := a.stage == .buffered || a.stage == .waiting

/-- A write stands in its die's queue towards its home, where one that waits for a locked line stays (R369). -/
def inQueue (a : Acc) : Bool := a.stage == .queued || a.stage == .barred

/-! ### Performed at a scope (R206) -/

/-- A write is performed at a scope, seen from a die. An access no longer listed is applied. -/
def performedAt (s : State) (die scope id : Nat) : Bool :=
  match s.acc? id with
  | none => true
  | some a =>
    if a.isLoad || pinHeld a then true
    else if scope ≤ 3 then a.stage != .pending && !inBuffer a
    else if scope ≤ 5 then a.die == die && inQueue a
    else false

/-- An access, a lock request or a result no longer holds back its split's later accesses (R207, R209, R366, R270). -/
def holdOver (s : State) (die id : Nat) : Bool :=
  match s.acc? id with
  | none => (s.lockReqs.get? id).isNone && (s.toks.get? id).isNone
  | some a =>
    if a.isLoad then a.stage == .satisfied
    else a.ord == .sc && !a.isRmw && performedAt s die a.scope id

/-! ### Who holds an access back -/

/-- The group that holds a line under a line lock (R361). -/
def lockHolder (s : State) (line : Nat) : Option Nat :=
  (s.pegs.find? (fun p => p.line == line && (p.state == .holding || p.state == .absent))).map (·.gid)

/-- An access is the holder's own: a group that has ended still holds for what it left on its way. -/
def byHolder (holder : Nat) (gid : Option Nat) : Bool := gid == some holder || gid.map (deadGid · 0) == some holder

/-- A claim on a line by a block outside the side of `blk` (R321, R326). -/
def claimedByOther (s : State) (blk : Option Nat) (pa size : Nat) : Bool :=
  s.claims.any (fun c => (linesOf pa size).contains c.line
    && (match blk with
        | some b => !sameSide s b c.blk
        | none => true))

/-- A window target that an outside agent waits for (R322). -/
def windowHeld (s : State) (blk : Option Nat) (pa size : Nat) : Bool :=
  isWindow pa &&
    (let outside (b : Nat) : Bool := match blk with | some x => !sameSide s x b | none => true
     let w := windowOf pa
     match w.space with
     | 0 => s.blocks.any (fun p => outside p.1 && p.2.levels.any (fun l =>
              (List.range ((size + 3) / 4 + 1)).any (fun i => decide ((pa / 4 + i) * 4 < pa + size)
                && (l.words.get? (pa / 4 + i)).isSome)))
     | 1 =>
       let (g, r, _, _) := windowReg pa
       s.blocks.any (fun p => outside p.1 && p.2.levels.any (fun l => (l.regs.get? (g * 256 + r)).isSome))
     | _ =>
       match (s.bay w.core (bitField w.off 16 2)).owner with
       | some b => outside b && ((s.blocks.get? b).map (fun b => !b.levels.isEmpty)).getD false
       | none => false)

/-- A window access to accumulators of a bay on which a matrix command runs (R29, R255). -/
def bayBusy (s : State) (pa : Nat) : Bool :=
  isWindow pa && (windowOf pa).space == 2 &&
    s.cmds.any (fun p => p.2.core == (windowOf pa).core && p.2.state == .running
      && (match p.2.kind with
          | .mxlw _ _ _ _ bay _ => bay == bitField (windowOf pa).off 16 2
          | .mxswap m | .mxloop _ _ _ m .. | .mxzero m _ _ => m.getLsbD (bitField (windowOf pa).off 16 2)
          | .mxdrain o .. => o.bay.toNat == bitField (windowOf pa).off 16 2
          | _ => false))

/-- A command that the claim's own command waits for: one of its block that issued before it (R228). -/
def beforeClaim (s : State) (r : Range) (c : Nat) : Bool :=
  decide (c < r.cmd) && (s.cmds.get? c).elim true (fun k => k.blk == r.blk)

/-- Scratch bytes under a read claim (R228). A claim does not hold the writes of commands of its block that issued before its
own: they would wait for each other (log 20). -/
def claimedScratch (s : State) (cmd : Option Nat) (pa size : Nat) : Bool :=
  isScratch pa && s.ranges.any (fun r => r.claim && r.scratch && cmd.elim true (fun c => !beforeClaim s r c) &&
    (match s.blocks.get? r.blk with
     | some b =>
       b.core == (windowOf pa).core
         && decide (r.lo + b.scratchBase < (windowOf pa).off + size ∧ ((windowOf pa).off : Int) ≤ r.hi + b.scratchBase)
     | none => false))

/-- The member address (R179) of a physical window address, as a block names it. -/
def memberAddr (b : Block) (pa : Nat) : Option Nat :=
  let w := windowOf pa
  (b.peers.mapIdx (fun k p => (k, p))).findSome? (fun x =>
    if x.2.1 ≠ w.core then none
    else
      match w.space with
      | 0 => if x.2.2 ≤ w.off ∧ w.off < x.2.2 + b.scratchSize then some (x.1 * 2 ^ 24 + (w.off - x.2.2)) else none
      | 1 =>
        let slot := bitField w.off 15 6
        if b.firstSlot ≤ slot ∧ slot < b.firstSlot + b.nGroups then some (x.1 * 2 ^ 24 + 2 ^ 22 + (w.off - b.firstSlot * 2 ^ 15))
        else none
      | n => some (x.1 * 2 ^ 24 + n * 2 ^ 22 + w.off))

/-- Where a byte stands in the space of a range (R227), if it lies there: a global virtual address, else a physical window address. -/
def placeIn (s : State) (r : Range) (glb : Bool) (x : Int) : Option Int :=
  if glb then (if r.scratch || r.window then none else some x)
  else
    match s.blocks.get? r.blk with
    | none => none
    | some b =>
      let w := windowOf x.toNat
      if r.window then (if r.scratch then (memberAddr b x.toNat).map Int.ofNat else some x)
      else if r.scratch ∧ isScratch x.toNat ∧ w.core = b.core ∧ b.scratchBase ≤ w.off ∧ w.off < b.scratchBase + b.scratchSize then
        some ((w.off : Int) - b.scratchBase)
      else none

/-- A destination range of the block overlaps an access of it (R228). -/
def rangeHit (s : State) (blk : Nat) (glb : Bool) (x : Int) (size : Nat) (before : Nat) : Bool :=
  s.ranges.any (fun r => !r.claim && r.blk == blk && decide (r.cmd < before)
    && (placeIn s r glb x).elim false (fun lo => decide (r.lo < lo + size ∧ lo ≤ r.hi)))

/-- R228 for an access of a block: the ranges of the commands that issued before it. -/
def heldByRange (s : State) (a : Acc) : Bool :=
  match a.gid, a.blk with
  | some _, some blk => rangeHit s blk (!isWindow a.pa) (if isWindow a.pa then a.pa else a.va) a.size a.id
  | _, _ => false

/-- A page whose bias is being flipped (R384). -/
def biasFrozen (s : State) (pa : Nat) : Bool :=
  match s.mgmt.job with
  | some (.bias j, _, _) => j.page == pa / 65536
  | _ => false

/-- The home is awake (R204, R296). -/
def homeAwake (s : State) (pa : Nat) : Bool :=
  match homeDie s pa with
  | some d => (s.die d).awake
  | none => true

/-- The target block of a window has not started yet (R28). -/
def windowNotStarted (s : State) (pa : Nat) : Bool :=
  isScratch pa && ((scratchOwner s pa).bind s.blocks.get?).elim false (fun b => !b.started)
  || (isWindow pa && (windowOf pa).space == 1 &&
      ((s.groups.get? (windowReg pa).1).bind (fun g => s.blocks.get? g.blk)).elim false (fun b => !b.started))

/-- An access to the memory of a peer whose entry has not reached the peer fabric (R388, R52). -/
def peerWaits (s : State) (a : Acc) : Bool :=
  peerMemory s a.pa && s.queue.any (fun e =>
    match e.payload with
    | .peer ids => ids.contains a.id
    | _ => false)

/-- An access of a speculative task (R339). -/
def ofSpecTask (s : State) (a : Acc) : Bool := (a.task.bind s.tasks.get?).elim false (fun t => !t.frontier)

/-- The block for which an access counts where lines are claimed: a speculative task's is an outside agent's (R321, R343). -/
def claimant (s : State) (a : Acc) : Option Nat := if ofSpecTask s a then none else a.blk

/-- What holds back every access of an outside agent or of a thread at the home (R29, R321, R322, R384, R204). -/
def heldAtHome (s : State) (a : Acc) : Bool :=
  claimedByOther s (claimant s a) a.pa a.size && isDevice a.pa
    || windowHeld s a.blk a.pa a.size || bayBusy s a.pa || biasFrozen s a.pa || !homeAwake s a.pa
    || windowNotStarted s a.pa || peerWaits s a

/-- An UNLOCK of the line by the same group, earlier than an access, has drained (R369). -/
def afterUnlock (s : State) (a : Acc) (line : Nat) : Bool :=
  s.accs.any (fun u => u.kind == .unlock && u.stage == .arrived && u.gid == a.gid && u.pa / 128 == line && decide (u.id < a.id))

/-- A write waits for a lock on its line that another group holds (R369). -/
def lockedAgainst (s : State) (a : Acc) : Bool :=
  isDevice a.pa && (linesOf a.pa a.size).any (fun l =>
    match lockHolder s l with
    | some g => !byHolder g a.gid || ofSpecTask s a || afterUnlock s a l
    | none => false)

/-! ### Satisfy (R199) -/

/-- A matrix command reads the bytes under its own claim as they stood before any write that the claim holds (R228, R251). -/
def behindClaim (s : State) (a w : Acc) (pa : Nat) : Bool :=
  match a.cmd with
  | none => false
  | some c =>
    decide (c < (w.cmd.getD w.id)) && isScratch pa && s.ranges.any (fun r => r.claim && r.scratch && r.cmd == c &&
      (s.blocks.get? r.blk).elim false (fun b => b.core == (windowOf pa).core
        && decide (r.lo + b.scratchBase ≤ (windowOf pa).off ∧ ((windowOf pa).off : Int) ≤ r.hi + b.scratchBase)))

/-- Two writes to one place at a slice: the same line of global memory (R161), or bytes in common. -/
def samePlace (a b : Acc) : Bool :=
  if isWindow a.pa || isWindow b.pa then a.hits b else (linesOf a.pa a.size).any (linesOf b.pa b.size).contains

/-- An access to a line by the group to which its lock has been granted (R369). -/
def ofHolder (s : State) (a : Acc) : Bool := (grantedPeg s (a.pa / 128)).elim false (fun p => byHolder p.gid a.gid)

/-- Another agent's write that no load reads yet: a claim holds it (R323), or a lock does, and the load is the holder's (R369). -/
def setAside (s : State) (a w : Acc) (pa : Nat) : Bool :=
  claimedByOther s w.blk pa 1 || (ofHolder s a && !ofHolder s w && (w.stage == .waiting || inQueue w))

/-- Where a load's byte is found (R199): an own write in the store buffer, the newest that came before it; else the newest of the
writes of its core that have arrived and of the entries of its die's queue, none that came behind an own write later than the load (log
33); else, or for a task, there is none. -/
def sourceOf (s : State) (a : Acc) (pa : Nat) : Option Acc :=
  let own := s.accs.filter (fun w => w.covers pa && sameThread a w && decide (w.id < a.id) && inBuffer w)
  match leastBy (fun w => s.nextId - w.id) own with
  | some w => some w
  | none =>
    if a.task.isSome then none
    else
      let near (w : Acc) : Bool := (w.stage == .arrived && w.core == a.core && a.core.isSome && !behindClaim s a w pa)
        || (inQueue w && w.die == a.die)
      let later (w : Acc) : Bool := sameThread a w && decide (a.id < w.id)
      ((s.accs.filter (fun w => w.covers pa && near w && !setAside s a w pa)).takeWhile (fun w => !later w)).getLast?

/-- The accesses are of one side of R321: of one block, or of members of one conversation. -/
def oneSide (s : State) (a w : Acc) : Bool :=
  match a.blk, w.blk with
  | some x, some y => sameSide s x y
  | x, y => x == y

/-- A write issued in an open level. -/
def openWrite (w : Acc) : Bool := w.writesBytes && decide (1 ≤ w.depth)

/-- A load does not read past a claim to come (R323, log 22): neither a write that another side has issued in an open level, nor one of
another side behind such a write of its own side. -/
def awaitsClaim (s : State) (a w : Acc) : Bool :=
  !oneSide s a w && (openWrite w
    || (s.accs.takeWhile (fun b => b.id != w.id)).any (fun b => b.stage == w.stage && openWrite b && oneSide s a b && samePlace b w))

/-- Every byte of a load has a value that it may read: none stands in a class 5 access that has not been applied. -/
def sourcesKnown (s : State) (a : Acc) : Bool :=
  (List.range a.size).all (fun i =>
    match sourceOf s a (a.pa + i) with
    | some w => !w.isRmw && !awaitsClaim s a w
    | none => true)

/-- The byte that a load reads. A speculative task reads its own buffer before the applied value (R344). -/
def loadByte (s : State) (a : Acc) (pa : Nat) : Byte :=
  match sourceOf s a pa with
  | some w => BitVec.ofNat 8 (w.data / 256 ^ (pa - w.pa))
  | none =>
    match (a.task.bind s.tasks.get?).bind (fun t => if t.frontier then none else t.buf.get? pa) with
    | some b => b
    | none => readByte s pa

/-- A byte of a registered directory's pool outside every interval in which a pin keeps a resident expert there, or read by a rep load
or an LDC, is unspecified (R270, log 150): an interval runs from a pin that returned RESIDENT to the XUNPIN that matches it. -/
def poolOpen (s : State) (kept : Bool) (pa : Nat) : Bool :=
  s.dies.any (fun d => d.2.dirs.any (fun k =>
    let pool := readNat s (k.header + 8) 8
    let covers (x : Nat × Nat) : Bool :=
      let n := k.header + 64 * (x.1 + 1)
      let at_ := pool + readNat s (n + 8) 8
      readNat s n 1 == 0 && decide (at_ ≤ pa ∧ pa < at_ + readNat s (n + 24) 4)
    decide (pool ≤ pa ∧ pa < pool + readNat s (k.header + 24) 8) && (kept || !k.held.any covers)))

/-- A byte whose value at its home the module does not know: of a pool outside its pins (R270), or of a peer's memory (R388, log 79). -/
def openHome (s : State) (kept : Bool) (pa : Nat) : Bool := poolOpen s kept pa || peerMemory s pa

/-- What `n` bytes hold at their home, in which unknown ones are free values. -/
def homeNat (s : State) (pa n : Nat) : Nat :=
  ofLe ((List.range n).map (fun i =>
    if openHome s false (pa + i) then BitVec.ofNat 8 (Config.freeNat (s.freeCtr + i)) else readByte s (pa + i)))

/-- The same bytes have been read: the draws are taken. -/
def afterHome (s : State) (pa n : Nat) : State :=
  if (List.range n).any (fun i => openHome s false (pa + i)) then { s with freeCtr := s.freeCtr + n } else s

/-- A rep load or an LDC reads a byte that an own write holds or that has changed since its moment as it stood at any moment since,
or as any other load would (R167, R177, log 35); of a line under a lock it reads no replica (R367, R369). -/
def openByte (s : State) (a : Acc) (pa draw : Nat) : Byte :=
  if poolOpen s a.since.isSome pa || (peerMemory s pa && (sourceOf s a pa).isNone) then BitVec.ofNat 8 (Config.freeNat draw)
  else match a.since with
  | none => loadByte s a pa
  | some k =>
    if (lockHolder s (pa / 128)).isSome || (!changedSince s k pa 1 && (sourceOf s a pa).isNone) then loadByte s a pa
    else
      let d := Config.freeNat draw % (s.moment - k + 2)
      if d = 0 then loadByte s a pa else byteAt s (k + d - 1) pa

def loadNat (s : State) (a : Acc) : Nat := ofLe ((List.range a.size).map (fun i => openByte s a (a.pa + i) (s.freeCtr + i)))

/-- A load has used free values. -/
def afterLoad (s : State) (a : Acc) : State :=
  if a.since.isSome || (List.range a.size).any (fun i => openHome s false (a.pa + i)) then { s with freeCtr := s.freeCtr + a.size } else s

/-- The writes a load reads, and the set they carry. -/
def readFrom (s : State) (a : Acc) : List Nat × List Nat :=
  let ws := (List.range a.size).map (fun i => sourceOf s a (a.pa + i))
  let ids := (ws.filterMap (fun w => w.map (·.id))).eraseDups
  let carried := (List.range a.size).flatMap (fun i =>
    match sourceOf s a (a.pa + i) with
    | some w => w.carry
    | none => s.carry.getD (a.pa + i) [])
  (ids, carried.eraseDups)

/-- The holder's accesses to its locked line are performed in program order (R369): an earlier one is still to come. -/
def holderWaits (s : State) (a : Acc) : Bool :=
  ofHolder s a && (earlier s a).any (fun b => (linesOf b.pa b.size).contains (a.pa / 128)
    && (if b.isLoad then b.stage == .pending else b.writesBytes && !lockedAgainst s b))

/-- Satisfy is enabled (R199, R228, R321, R343, R369). -/
def canSatisfy (s : State) (a : Acc) : Bool :=
  a.isLoad && a.stage == .pending
    && (earlier s a).all (fun b => !b.isLoad || b.stage != .pending
        || (!b.hits a && !(isLocal s a.die a.pa && isLocal s b.die b.pa)))
    && sourcesKnown s a && !heldAtHome s a && !holderWaits s a
    && !heldByRange s a && (earlier s a).all (fun b => !heldByRange s b)
    && (a.task.isNone || !lockedAgainst s a)

/-- Coupling of conversation members (R326): one accesses a location that the other has claimed or shored. Their levels of that
conversation are coupled. -/
def couple (s : State) (blk : Option Nat) (pa size : Nat) : State :=
  match blk with
  | none => s
  | some b =>
    let others := (s.claims.filter (fun c => (linesOf pa size).contains c.line && c.blk != b && sameSide s b c.blk)).map (·.blk)
    let shored (l : Level) : Bool :=
      if isScratch pa then (List.range ((size + 3) / 4 + 1)).any (fun i => decide ((pa / 4 + i) * 4 < pa + size) && (l.words.get? (pa / 4 + i)).isSome)
      else isWindow pa && (windowOf pa).space == 1 && (l.regs.get? ((windowReg pa).1 * 256 + (windowReg pa).2.1)).isSome
    let others := others ++ (s.blocks.filter (fun p => p.1 != b && sameSide s b p.1 && p.2.levels.any shored)).map (·.1)
    if others.isEmpty then s
    else
      let words := (s.convs.filter (fun c => c.members.contains b && others.any c.members.contains)).map (·.word)
      let mark (k : Block) : Block :=
        { k with levels := k.levels.map (fun l => if l.conv.elim false words.contains then { l with coupled := true } else l) }
      forAll (b :: others) s (fun o s => s.setBlock o mark)

/-- The lease length that a grant gives: twice the last one, where no store has come since the last grant (R160). -/
def nextLease (quiet : Bool) (len : Nat) : Nat := if quiet then min 1024 (2 * len) else len

/-- The lease length once a store or atomic has been applied (R160). -/
def storedLease (len : Nat) : Nat := max 64 (len / 2)

/-- A line enters an L1 of 2,048 lines (R14); one that must make room is any other (log 138). -/
def keepLine (full : Nat) (s : State) (m : Map Nat) (l x : Nat) : Map Nat × State :=
  if (m.get? l).isSome || decide (m.length < full) then (m.put l x, s)
  else
    let (d, s) := s.free
    (Map.put (m.eraseIdx (d % m.length)) l x, s)

/-- The latest lease has passed (R161): it serves through the tick at which it expires. -/
def leaseOver (expiry now : Nat) : Bool := expiry == 0 || decide (expiry < now)

/-- A core holds a line under a lease that still serves (R160). -/
def leased (k : Core) (line now : Nat) : Bool := (k.l1.get? line).elim false (fun e => decide (now ≤ e))

/-- A load that an L1 may serve under a lease: of global memory, through no task's buffer, by no replica or instruction cache, and
no acquire or sc at bent or wider (R160, R162, R166). -/
def usesL1 (a : Acc) : Bool :=
  a.task.isNone && !a.uncached && !isWindow a.pa && a.since.isNone && !((a.ord == .acquire || a.ord == .sc) && decide (4 ≤ a.scope))

/-- A slice grants an L1 a lease on a line (R160), where nothing forbids it: a load that finds its line under a lease counts as a
hit (R302), unless a store buffer or a queue answers it. -/
def grantLease (s : State) (a : Acc) : State :=
  match a.core with
  | none => s
  | some core =>
    let l := a.pa / 128
    let ln := s.line l
    let now := (s.die a.die).time
    -- a store that its slice holds, at the home or at the proxy of its die (R161)
    let held := s.accs.any (fun w => w.writesBytes && (w.stage == .arrived || (inQueue w && w.die == a.die)) && (linesOf w.pa w.size).contains l)
    let ok := decide (ln.atomicUntil ≤ now) && !held && !s.pegs.any (fun p => p.line == l) && !claimedByOther s a.blk a.pa a.size
      && !biasFrozen s a.pa && (isLocal s a.die a.pa || (s.proxy l a.die).state != .i || bridged s a.pa)
    if !usesL1 a then s
    else if leased (s.core core) l now then
      if (List.range a.size).all (fun i => (sourceOf s a (a.pa + i)).isNone) then
        s.setCore core (fun c => { c with leaseHits := (c.leaseHits + 1) % 2 ^ 32 })
      else s
    else if ok then
      let p := s.proxy l a.die
      let len := if isLocal s a.die a.pa then nextLease ln.quiet ln.leaseLen else nextLease p.quiet p.leaseLen
      let s := if isLocal s a.die a.pa then
          s.setLine l (fun n => { n with leaseLen := len, quiet := true, expiry := max n.expiry (now + len) })
        else s.setProxy l a.die (fun p => { p with leaseLen := len, quiet := true, expiry := max p.expiry (now + len) })
      let (l1, s) := keepLine 2048 s (s.core core).l1 l (now + len)
      s.setCore core (fun c => { c with l1 := l1 })
    else s

/-- The state that a grant gives (R163): any, where no other die holds the line, else S (log 135). -/
def grantState (alone : Bool) (draw : Nat) : Moesi :=
  if alone then
    match draw % 4 with
    | 0 => .m
    | 1 => .o
    | 2 => .e
    | _ => .s
  else .s

/-- What a state becomes when another die is granted the line too (log 135). -/
def Moesi.shared : Moesi → Moesi
  | .m => .o
  | .e => .s
  | x => x

/-- A die asks the home of a remote line of device memory for a grant (R163, R164). -/
def askGrantAt (s : State) (die pa : Nat) : State :=
  let l := pa / 128
  if isDevice pa && !isLocal s die pa && !hostBias s pa
      && (s.proxy l die).state == .i && !(s.msgs.any (fun m => m.line == l && m.die == die && !m.probe))
      && (lockHolder s l).isNone && (s.line l).probes.isEmpty && !biasFrozen s pa
      && !(s.accs.any (fun w => w.writesBytes && w.stage == .arrived && (linesOf w.pa w.size).contains l)) then
    let q := (s.line l).seq + 1
    let others := (otherDies die).filter (fun d => ((s.line l).dir.getD d .i) != .i)
    let (x, s) := s.free
    let st := grantState others.isEmpty x
    let s := forAll others s (fun d s => s.setProxy l d (fun p => { p with state := p.state.shared }))
    let s := s.setLine l (fun n => { n with seq := q, granted := n.granted.put die q,
                                            dir := (forAll others n.dir (fun d m => m.put d (m.getD d .i).shared)).put die st })
    { s with msgs := s.msgs ++ [⟨die, l, q, false, st⟩] }
  else s

/-- A read of a remote line asks for a grant. -/
def askGrant (s : State) (a : Acc) : State := if a.uncached then s else askGrantAt s a.die a.pa

/-- R162: after an acquire or sc access at bent or wider, the core's leases count as expired. -/
def dropLeases (s : State) (core : Option Nat) (ord : Ord) (scope : Nat) : State :=
  match core with
  | none => s
  | some c => if (ord = .acquire ∨ ord = .sc) ∧ 4 ≤ scope then s.setCore c (fun k => { k with l1 := [] }) else s

/-- A returned value joins its result (R64). -/
def returnValue (s : State) (a : Acc) (v : Nat) (ok : Bool) : State :=
  match a.tok with
  | none => s
  | some t =>
    { s with toks := s.toks.modify t (fun k => { k with vals := k.vals.put a.lane v, oks := k.oks.put a.lane ok }) }

/-- Sectors registered once a task also reads these bytes (R344). -/
def readsAfter (k : Task) (pa size : Nat) : List Nat :=
  k.reads ++ (((List.range size).filterMap (fun i =>
    if (k.buf.get? (pa + i)).isNone then some ((pa + i) / 32) else none)).eraseDups.filter (fun r => !k.reads.contains r))

/-- Satisfy of a load: its value joins its result. -/
def satisfyLoad (s : State) (a : Acc) : State :=
  let v := loadNat s a
  let (ids, carried) := readFrom s a
  let spec := a.task.isSome && (a.task.bind s.tasks.get?).elim false (fun t => !t.frontier)
  let s := if spec then
      match a.task with
      | some t => s.setTask t (fun k => { k with reads := readsAfter k a.pa a.size })
      | none => s
    else askGrant (grantLease s a) a
  let s := afterLoad s a
  let s := couple s a.blk a.pa a.size
  let s := match a.gid with
    | some g =>
      let s := observeLanes s g a.lanes ids
      if a.ord = .acquire ∨ a.ord = .sc then observeLanes s g a.lanes carried
      else forAll (lanesOf a.lanes) s (fun l s =>
        { s with seen := Map.putD s.seen [] (threadId g l) ((s.seen.getD (threadId g l) [] ++ carried).eraseDups) })
    | none => s
  let s := dropLeases s a.core a.ord a.scope
  (returnValue s a v true).setAcc a.id (fun b => { b with stage := .satisfied, val := v })

/-! ### Applied writes -/

/-- Who writes: the committing task (R345), by its launch and its pair, else any other agent. -/
abbrev Committer := Option (Nat × Dword × Dword)

/-- Task order (R337). -/
def taskBefore (a b : Dword × Dword) : Bool :=
  decide (a.1.toNat < b.1.toNat) || (a.1 == b.1 && decide (a.2.toNat < b.2.toNat))

/-- R345: a write applied to sectors aborts the tasks registered as their readers. -/
def sectorConflicts (s : State) (by_ : Committer) (pa size : Nat) : State :=
  let sectors := (List.range (size / 32 + 2)).map (pa / 32 + ·) |>.filter (fun q => decide (q * 32 < pa + size))
  let hit := s.tasks.filter (fun p => p.2.reads.any (fun r => sectors.contains r)
    && (match by_ with
        | some c => p.2.launch != c.1 || taskBefore c.2 (p.2.ts, p.2.ident)
        | none => true))
  forAll hit s (fun p s => abortTask s p.1)

/-- A phase bit of a barrier word (R189). -/
def phaseOf (s : State) (word : Nat) : Bool := decide (128 ≤ (readByte s (word + 7)).toNat)

/-- Splits parked in BARW on a word whose phase has changed go on (R192): they acquire the set that the word
carries (R213). -/
def wakeBarriers (s : State) (pa size : Nat) : State :=
  if !isScratch pa then s
  else
    forAll s.groups s (fun p s =>
      let end_ (k : Park) (m : LaneMask) (s : State) : State :=
        match k with
        | .barw w ph scope =>
          if overlaps w 8 pa size && phaseOf s w != ph then
            let s := dropLeases (observeLanes s p.1 m (carryOf s w 8)) (some (coreOfGroup p.1)) .acquire scope
            wakeGroup s p.1 k 3
          else s
        | _ => s
      let s := match keptPark p.2 with
        | some k => end_ k p.2.savedEm s
        | none => s
      forAll p.2.splits s (fun q s =>
        let parks := (match q.2.park with | some k => [k] | none => []) ++ q.2.parts.map (·.park)
        forAll parks.eraseDups s (fun k s => end_ k (q.2.waiting k) s)))

/-- The slices' part in an applied store or atomic (R160): the line's home, and the proxies that hold a record of it, have a store
to note; an atomic keeps leases off for 1,024 ticks. -/
def noteStore (s : State) (pa size : Nat) (atomic : Bool) : State :=
  if isWindow pa then s
  else
    forAll (linesOf pa size) s (fun l s =>
      let now := match homeDie s pa with | some d => (s.die d).time | none => (s.die 0).time
      let s := s.setLine l (fun n => { n with quiet := false, leaseLen := storedLease n.leaseLen,
                                              atomicUntil := if atomic then now + 1024 else n.atomicUntil })
      forAll [0, 1, 2, 3] s (fun d s =>
        if (s.proxies.get? (l * 4 + d)).isSome then
          s.setProxy l d (fun p => { p with quiet := false, leaseLen := storedLease p.leaseLen })
        else s))

/-- Bytes take their value in memory, with all that follows from it. -/
def putApplied (s : State) (by_ : Committer) (pa : Nat) (bytes : List Byte) (carry : List Nat) (atomic : Bool) : State :=
  let s := overwrite s pa bytes
  let s := setCarry s pa bytes.length carry
  let s := noteStore s pa bytes.length atomic
  let s := sectorConflicts s by_ pa bytes.length
  wakeBarriers s pa bytes.length

/-! ### The shoring's writes (R317 to R319) -/

/-- The first address of a block's spill area (R319). -/
def spillAt (l : Launch) (b : Block) : Nat :=
  l.spillBase.toNat + (b.stage * (l.clusters * l.clusterSize) + b.index) * (l.spillPages * 4096)

/-- An entry of `n` bytes that goes to the spill area leaves for it, behind the entries that stand there (R319). -/
def spillOut (s : State) (blk n : Nat) (spill : Bool) : State :=
  match spill, s.blocks.get? blk with
  | true, some b =>
    match s.launchOf b with
    | some l => { s with spills := s.spills ++ [⟨dieOfCore b.core, l.pasid, spillAt l b + b.spilled, n⟩] }
    | none => s
  | _, _ => s

/-- Records a register on its first write in level `d`, the depth at which the write was issued (R314, R317); `none` where
no room is left. At depth 0 nothing is recorded. -/
def shoreReg (s : State) (d gid r : Nat) : Option State :=
  match s.groups.get? gid with
  | none => some s
  | some g =>
    match if d = 0 then none else (s.blockOf g).bind (fun b => b.levels[d - 1]?) with
    | none => some s
    | some l =>
      if (l.regs.get? (gid * 256 + r)).isSome then some s
      else
        match shoreRoom s g.blk 136 with
        | none => none
        | some sp =>
          some ((spillOut s g.blk 136 sp).setBlock g.blk (fun b => b.setLevel d (fun l =>
            { l with regs := l.regs.put (gid * 256 + r) ⟨sp, regWords g r⟩ })))

/-- Records a scratch word on its first write in level `d` of its block (R317). -/
def shoreWord (s : State) (d blk word : Nat) : Option State :=
  match if d = 0 then none else (s.blocks.get? blk).bind (fun b => b.levels[d - 1]?) with
  | none => some s
  | some l =>
    if (l.words.get? word).isSome then some s
    else
      match shoreRoom s blk 8, s.blocks.get? blk with
      | some sp, some b =>
        let idx := ((windowOf (word * 4)).off - b.scratchBase) / 8
        some ((spillOut s blk 8 sp).setBlock blk (fun b => b.setLevel d (fun l =>
          { l with words := l.words.put word ⟨sp, [readNat s (word * 4) 4]⟩,
                   bars := if idx < 16 ∧ (l.bars.get? idx).isNone then l.bars.put idx (b.bars.get? idx) else l.bars })))
      | _, _ => none

/-- The access that holds the shoring reserved for the instruction's or command's writes of a line, and where that lies (R319). -/
def lineRoom (s : State) (a : Acc) (line : Nat) : Option (Nat × Bool) :=
  let same (b : Acc) : Bool := b.id == a.id || (a.gid.isSome && b.gid == a.gid && b.n == a.n) || (a.cmd.isSome && b.cmd == a.cmd)
  s.accs.findSome? (fun b => if same b && (linesOf b.pa b.size).contains line then b.room.map (fun sp => (b.id, sp)) else none)

/-- A reservation is used up, or the slice returns it (R319). -/
def Level.unreserve (l : Level) (spill : Bool) : Level :=
  { l with reserved := if spill then (l.reserved.1, l.reserved.2 - 1) else (l.reserved.1 - 1, l.reserved.2) }

/-- A write of a level marks its line entry, claiming the line (R317, R321): the slice takes the prior value in the same step. It uses
the reservation made for it, or returns that where the line holds an entry of the level (R319). -/
def shoreLine (s : State) (a : Acc) (blk line : Nat) : State :=
  match (s.blocks.get? blk).bind (fun b => b.levels[a.depth - 1]?) with
  | none => s
  | some l =>
    let room := lineRoom s a line
    let s := match room with
      | some (i, sp) => (s.setAcc i (fun b => { b with room := none })).setBlock blk (fun b => b.setLevel a.depth (·.unreserve sp))
      | none => s
    let sp := (room.map (·.2)).getD false
    let s := if (l.lines.get? line).isSome then s
      else (spillOut s blk 144 sp).setBlock blk (fun b => b.setLevel a.depth (fun l =>
        { l with lines := l.lines.put line ⟨sp, (readBytes s (line * 128) 128).map (·.toNat)⟩ }))
    if s.claims.any (fun c => c.line == line && c.blk == blk) then s
    else { s with claims := s.claims ++ [⟨line, blk, a.depth⟩] }

/-- The prior value of what a write of a block changes is recorded first (R317); `none` where no room is left. -/
def shoreBefore (s : State) (a : Acc) : Option State :=
  match a.blk with
  | none => some s
  | some blk =>
    if isScratch a.pa then
      match scratchOwner s a.pa with
      | some o =>
        if sameSide s blk o then
          (List.range ((a.size + 3) / 4)).foldl (fun t i => t.bind (fun t => shoreWord t (shoreDepth t blk a.depth o) o (a.pa / 4 + i))) (some s)
        else some s
      | none => some s
    else if isWindow a.pa then
      if (windowOf a.pa).space = 1 then
        let (g, r, _, _) := windowReg a.pa
        match s.groups.get? g with
        | some gr =>
          let d := shoreDepth s blk a.depth gr.blk
          if sameSide s blk gr.blk then
            (shoreReg s d g r).bind (fun s => if isPrimary s g gr then shoreReg s d (g + 32) r else some s)
          else some s
        | none => some s
      else some s
    else if 1 ≤ a.depth ∧ isDevice a.pa then
      some (forAll (linesOf a.pa a.size) s (fun l s => shoreLine s a blk l))
    else some s

/-- Local and remote homes: the lease clock has passed, and every other die's proxy has given the line up (R161,
R163). -/
def leasesPassed (s : State) (pa size : Nat) : Bool :=
  isWindow pa || (linesOf pa size).all (fun l =>
    match homeDie s pa with
    | some d => leaseOver (s.line l).expiry (s.die d).time && (s.line l).dir.all (fun p => p.2 == .i)
    | none => [0, 1, 2, 3].all (fun d => leaseOver (s.proxy l d).expiry (s.die d).time))

/-- Sends the probes that a store needs (R163), once. -/
def sendProbes (s : State) (pa size : Nat) : State :=
  forAll (linesOf pa size) s (fun l s =>
    let ln := s.line l
    let ds := (ln.dir.filter (fun p => p.2 != .i)).map (·.1) |>.filter (fun d => !ln.probes.contains d)
    if ds.isEmpty then s
    else
      let s := s.setLine l (fun n => { n with probes := n.probes ++ ds })
      { s with msgs := s.msgs ++ ds.map (fun d => ⟨d, l, ln.granted.getD d ln.seq, true, .i⟩) })

/-- A write stands in the way of what has its place after it. One that a claim holds does not: those of the claim's side are applied
before it (R323, log 22). -/
def inTheWay (s : State) (b : Acc) : Bool := b.writesBytes && !claimedByOther s b.blk b.pa b.size

/-- An arrived local write may be applied (R201, R161, R228, R321): every write before it in coherence order is, and every
program-earlier local one, but for an XUNPIN's request that waits (R270). -/
def canApply (s : State) (a : Acc) : Bool :=
  a.stage == .arrived
    && (s.accs.takeWhile (fun b => b.id != a.id)).all (fun b => !(b.stage == .arrived && samePlace b a && inTheWay s b))
    && s.accs.all (fun b => !(decide (b.id < a.id) && sameThread a b && b.isWrite && !pinHeld b
        && (b.stage == .arrived || inBuffer b) && isLocal s b.die b.pa))
    && leasesPassed s a.pa a.size && !heldAtHome s a && !claimedScratch s a.cmd a.pa a.size

/-- A queued entry may cross (R202). -/
def canCross (s : State) (a : Acc) : Bool :=
  a.stage == .queued
    && (s.accs.takeWhile (fun b => b.id != a.id)).all (fun b =>
        !(inQueue b && b.die == a.die && b.hits a && inTheWay s b))
    && s.accs.all (fun b => !(b.stage == .arrived && samePlace b a && inTheWay s b))
    && leasesPassed s a.pa a.size && !heldAtHome s a && !claimedScratch s a.cmd a.pa a.size && !lockedAgainst s a
    && !holderWaits s a

/-- The fault that a write without room raises (R319): at the instruction of a store or class 5 access, under R230 for an engine, where
a copy delivers it as it ends (R236). -/
def shoreFull (s : State) (a : Acc) : State :=
  match a.blk with
  | none => s
  | some blk =>
    let kind := if isScratch a.pa then 1 else 0
    let at_ := if isScratch a.pa then (windowOf a.pa).off - ((s.blocks.get? blk).map (·.scratchBase)).getD 0
               else (windowReg a.pa).2.1
    let eval := BitVec.ofNat 64 (kind * 2 ^ 62 + at_)
    let level := ((s.blocks.get? blk).map (·.levels.length)).getD 0
    match a.cmd.bind (fun c => (s.cmds.get? c).map (fun k => (c, k))) with
    | some (c, k) =>
      if k.failed.isSome then s
      else
        let s := s.setCmd c (fun k => { k with failed := some (.shoreFull, eval), failedAt := s.clk })
        if copyMoved k then queueFailure s c k .shoreFull eval else s
    | none => failLevel s blk level false Cause.shoreFull.code eval a.pc (((a.gid.bind s.groups.get?).map (·.index)).getD 0)

/-! ### Agents of a die -/

/-- An access of an agent of a core or die, for no thread. -/
def agentAcc (die : Nat) (core blk cmd : Option Nat) (kind : AKind) (va pa size data : Nat) (carry : List Nat) : Acc :=
  { id := 0, gid := none, lanes := 0, cmd := cmd, blk := blk, core := core, die := die, kind := kind, va := va, pa := pa,
    size := size, data := data, data2 := 0, lane := 32, ord := .relaxed, scope := 0,
    stage := if kind = .load then .pending else .buffered, val := 0, carry := carry, need := [], tok := none, cmp := none,
    depth := 0, n := 0, pc := 0, uncached := false, task := none, room := none, since := none }

/-- An agent may read some bytes: neither a claim nor a sleeping home nor a change of bias holds them (R321, R323, R384). -/
def agentReads (s : State) (die pa size : Nat) : Bool := !heldAtHome s (agentAcc die none none none .load pa pa size 0 [])

/-- An agent's write may take effect: besides, the leases have passed, no lock holds the line, and no write stands before it (R161,
R163, R369). -/
def agentWrites (s : State) (die pa size : Nat) : Bool :=
  let a := agentAcc die none none none .store pa pa size 0 []
  leasesPassed s pa size && !heldAtHome s a && !lockedAgainst s a
    && !s.accs.any (fun b => (b.stage == .arrived || (inQueue b && b.die == die)) && samePlace b a && inTheWay s b)

/-- An agent of a die writes some bytes, through the bridge where they are the host's (R165). -/
def agentPut (s : State) (die pa : Nat) (bytes : List Byte) : State :=
  putApplied (bridgeWrite s die pa bytes.length false) none pa bytes [] false

/-- Writes to several places that belong together, once all of them may take effect; until then the probes for them are sent. -/
def agentWrite (s : State) (die : Nat) (ws : List (Nat × List Byte)) : State × Bool :=
  if ws.all (fun w => agentWrites s die w.1 w.2.length) then (forAll ws s (fun w s => agentPut s die w.1 w.2), true)
  else (forAll ws s (fun w s => sendProbes s w.1 w.2.length), false)

/-- The 32 bytes of a fault record (R382). -/
def faultBytes (f : FaultRec) : List Byte :=
  leBytes 8 f.va ++ leBytes 8 f.ipa ++ leBytes 4 f.pasid ++ leBytes 4 f.flags ++ leBytes 8 f.tag

/-- Writes the oldest record not yet in the ring, if it has room, and advances the producer word (R382), as an agent of die 0 (log 19). -/
def flushFaults (s : State) : State :=
  match s.faultq, s.faults.find? (fun f => !f.posted) with
  | some q, some f =>
    if !agentReads s 0 q.cons 4 then s
    else
      let cons := readNat s q.cons 4
      let s := bridgeRead s 0 q.cons 4 false
      if (s.faultProd + 2 ^ 32 - cons) % 2 ^ 32 < 2 ^ q.log2 then
        let next := (s.faultProd + 1) % 2 ^ 32
        match agentWrite s 0 [(q.base + 32 * (s.faultProd % 2 ^ q.log2), faultBytes f), (q.prod, leBytes 4 next)] with
        | (s, true) => { s with faultProd := next, faults := s.faults.map (fun g => if g.tag = f.tag then { g with posted := true } else g) }
        | (s, false) => s
      else s
  | _, _ => s

/-- An entry is written to the spill area at device scope, in a form that the spec leaves open: free bytes (log 146). A line whose
address does not translate is not written. What is left of it waits where a write has to. -/
def writeSpill (s : State) (o : SpillOut) : State × Option SpillOut :=
  (linesOf o.va o.n).foldl (fun (t : State × Option SpillOut) k =>
    match t with
    | (s, some r) => (s, some r)
    | (s, none) =>
      let lo := max o.va (k * 128)
      let len := min (o.va + o.n) ((k + 1) * 128) - lo
      match translate s o.die o.pasid Need.both lo with
      | (.ok pa _, s) =>
        let bytes := (List.range len).map (fun i => BitVec.ofNat 8 (Config.freeNat (s.freeCtr + i)))
        match agentWrite { s with freeCtr := s.freeCtr + len } o.die [(pa, bytes)] with
        | (s, true) => (s, none)
        | (s, false) => (s, some { o with va := lo, n := o.va + o.n - lo })
      | (_, s) => (s, none)) (s, none)

/-- The entries that have left for the spill areas arrive there. -/
def settleSpills (s : State) : State :=
  forAll s.spills { s with spills := [] } (fun o s =>
    let (s, r) := writeSpill s o
    { s with spills := s.spills ++ r.toList })

/-- The bytes of a registered directory: its header and entries, and its pool. -/
def Dir.holds (s : State) (d : Dir) (pa : Nat) : Bool :=
  decide (d.header ≤ pa ∧ pa < d.header + 64 * (readNat s d.header 4 + 1))
    || decide (readNat s (d.header + 8) 8 ≤ pa ∧ pa < readNat s (d.header + 8) 8 + readNat s (d.header + 24) 8)

/-- The fields of a header and of an entry (R263, R264), by first byte and length. -/
def headerFields : List (Nat × Nat) := [(0, 4), (4, 4), (8, 8), (16, 8), (24, 8), (32, 8), (40, 8), (48, 8), (56, 8)]
def entryFields : List (Nat × Nat) :=
  [(0, 1), (1, 1), (2, 1), (3, 1), (4, 2), (6, 2), (8, 8), (16, 8), (24, 4), (28, 4), (32, 8), (40, 8), (48, 8), (56, 8)]

/-- The bytes of the field of a directory, or of the one byte of its pool, in which an address lies. -/
def Dir.fieldAt (s : State) (d : Dir) (pa : Nat) : List Nat :=
  if d.header ≤ pa ∧ pa < d.header + 64 * (readNat s d.header 4 + 1) then
    let at_ := (pa - d.header) % 64
    match (if pa < d.header + 64 then headerFields else entryFields).find? (fun f => decide (f.1 ≤ at_ ∧ at_ < f.1 + f.2)) with
    | some f => (List.range f.2).map (fun i => pa - at_ + f.1 + i)
    | none => [pa]
  else [pa]

/-- What a program's write leaves (R265): the fields of a registered directory, and the bytes of its pool, that it changes become
unspecified, and the manager may from then on do as it likes with that directory's experts. -/
def spoil (s : State) (pa : Nat) (bytes : List Byte) : List Byte × State :=
  let changes (d : Dir) (i : Nat) : Bool := d.holds s (pa + i) && bytes.getD i 0 != readByte s (pa + i)
  let hit (d : Dir) : Bool := (List.range bytes.length).any (changes d)
  if !(s.dies.any (fun d => d.2.dirs.any hit)) then (bytes, s)
  else
    let gone := (s.dies.flatMap (fun d => d.2.dirs.flatMap (fun k =>
      ((List.range bytes.length).filter (changes k)).flatMap (fun i => k.fieldAt s (pa + i))))).eraseDups
    let free (x : Nat) : Byte := BitVec.ofNat 8 (Config.freeNat (s.freeCtr + gone.findIdx (· == x)))
    let out := bytes.mapIdx (fun i b => if gone.contains (pa + i) then free (pa + i) else b)
    let beside := gone.filter (fun x => !decide (pa ≤ x ∧ x < pa + bytes.length))
    let t := { s with freeCtr := s.freeCtr + gone.length,
                      dies := s.dies.map (fun p =>
                        (p.1, { p.2 with dirs := p.2.dirs.map (fun k => if hit k then { k with broken := true } else k) })) }
    (out, forAll beside t (fun x t => overwrite t x [free x]))

/-- A plain store takes effect (R201, R202). An expert manager's own (R268) is marked by `data2`. -/
def applyStore (s : State) (a : Acc) : State :=
  match shoreBefore s a with
  | none => shoreFull (s.dropAcc a.id) a
  | some s =>
    let s := couple s a.blk a.pa a.size
    let (bytes, s) := if a.data2 = 0 then spoil s a.pa (leBytes a.size a.data) else (leBytes a.size a.data, s)
    let s := putApplied s none a.pa bytes a.carry false
    s.dropAcc a.id

/-! ### Drain (R200, R208, R209, R344) -/

/-- An XUNPIN's request waits until every copy command that its group issued before it has ended (R270). -/
def unpinHeld (s : State) (a : Acc) : Bool :=
  a.kind == .xunpin && s.cmds.any (fun p => some p.2.gid == a.gid && decide (p.2.seq < a.n) && p.2.state != .ended
    && (match p.2.kind with
        | .copy .. => true
        | _ => false))

/-- The head of its thread's store buffer may leave it; lanes of one instruction that write one byte leave in lane
order (R176, R185, R187). -/
def canDrain (s : State) (a : Acc) : Bool :=
  a.isWrite && inBuffer a && a.cmp.isNone
    && !unpinHeld s a
    && (earlier s a).all (fun b => (!b.isWrite || b.kind == .xunpin || !inBuffer b)
        && (!b.isLoad || b.stage != .pending || !(isLocal s b.die b.pa)))
    && (a.need.all (fun w => performedAt s a.die w.2 w.1))
    && (!(a.ord == .release || a.ord == .sc) || (earlier s a).all (fun b => !b.isLoad || b.stage != .pending))
    && !heldByRange s a && (earlier s a).all (fun b => !heldByRange s b)
    && s.accs.all (fun b => !((b.gid == a.gid && b.gid.isSome && b.n == a.n || b.cmd == a.cmd && b.cmd.isSome)
        && decide (b.id < a.id) && inBuffer b && b.hits a))

/-- A non-holder's write to a locked line waits, in its buffer or queue (R369). -/
def drainTo (s : State) (a : Acc) (st : Stage) : State := s.moveLast { a with stage := st }

/-! ### Entering the machine (R198) -/

/-- What the release fences of some lanes make their later writes carry and wait for (R210). -/
def fencedOf (s : State) (gid : Nat) (m : LaneMask) : List (Nat × Nat) :=
  ((lanesOf m).flatMap (fun l => s.fenced.getD (threadId gid l) [])).eraseDups

/-- An access at its Issue: it takes the next name, is observed by its threads (R206), and carries what a fence or a
release makes it carry (R208, R210). -/
def issueAcc (s : State) (a : Acc) : Nat × State :=
  let (id, s) := s.fresh
  let live (ids : List Nat) := ids.filter (fun i => (s.acc? i).isSome)
  match a.gid with
  | none => (id, { s with accs := s.accs ++ [{ a with id := id }] })
  | some g =>
    if a.isLoad then (id, { s with accs := s.accs ++ [{ a with id := id }] })
    else
      let fenced := (fencedOf s g a.lanes).filter (fun w => (s.acc? w.1).isSome)
      let own := if a.ord = .release ∨ a.ord = .sc then live (observed s g a.lanes) else []
      let a := { a with id := id, need := (own.map (fun i => (i, a.scope)) ++ fenced).eraseDups,
                        carry := (fenced.map (·.1) ++ own).eraseDups }
      (id, observeLanes { s with accs := s.accs ++ [a] } g a.lanes [id])

end Sys2Proof.Machine
end

