-- ==== Sys2Proof/Machine/Operands.lean ====
section
/-!
DEFINITION. Operand forms (R55 to R61, R67, R70): reading sources, immediates, modifiers and parameter words, and
writing destinations; and which registers each instruction reads and writes (R58, R63 to R65).
-/
namespace Sys2Proof.Machine

/-! ### Reading registers -/

def Group.vreg (g : Group) (r lane : Nat) : Word := g.v.getD (r * 32 + lane) 0
def Group.sreg (g : Group) (r : Nat) : Dword := g.s.getD r 0

/-- A vector register of one lane as a number, `n` registers wide, the lowest register first (R58). -/
def Group.vregs (g : Group) (r lane : Nat) : Nat → Nat
  | 0 => 0
  | n + 1 => (g.vreg r lane).toNat + 2 ^ 32 * g.vregs (r + 1) lane n

/-- A special register as an instruction reads it: the sample of the primary in a shadow group (R332). -/
def readSpecial (s : State) (c : Ctx) (r : SReg) (lane : Nat) : Dword :=
  match (if isShadow s c.gid c.g then c.g.sampled.find? (fun x => x.1 == c.g.issued) else none) with
  | some x =>
    match r with
    | .time => BitVec.ofNat 64 x.2.1
    | .front => x.2.2
    | _ => specialOf s c.gid c.g r lane
  | none => specialOf s c.gid c.g r lane

/-- The immediate of a 64-bit operand (R57). -/
def sext32 (imm : BitVec 32) : Nat := (imm.signExtend 64).toNat

/-- A source in one lane on the vector side: `n` registers wide, with the immediate's value given (R56, R70);
read from the group as it stood before the instruction (R109, R9). -/
def srcLane (s : State) (c : Ctx) (n : Nat) (immv : Nat) (a : Src) (lane : Nat) : Nat :=
  match a with
  | .v r => c.g.vregs r.toNat lane n
  | .s r => if n = 1 then (c.g.sreg r.toNat).toNat % 2 ^ 32 else (c.g.sreg r.toNat).toNat
  | .sp r => (readSpecial s c r lane).toNat % 2 ^ 32
  | .sz => 0
  | .imm => immv

/-- A source on the scalar side: 64 bits, or bits [31:0] at widths of 32 and less (R58, R70). DESIGN CHOICE (log 132): R70 gives
a per-lane special register of the lowest lane of the acting set; where an instruction acts on no lane (MAND, MOR and MREST with
em empty, R120) the model reads lane 0. -/
def srcScalar (s : State) (c : Ctx) (immv : Nat) (a : Src) : Nat :=
  match a with
  | .v r => (c.g.vreg r.toNat (lowestLane c.act)).toNat
  | .s r => (c.g.sreg r.toNat).toNat
  | .sp r => (readSpecial s c r (lowestLane c.act)).toNat
  | .sz => 0
  | .imm => immv

/-- The lane that a modifier reads for a lane (R60). -/
def selectLane (m : Mods) (lane : Nat) : Nat :=
  let size := 2 ^ m.mseg.toNat
  let base := lane - lane % size
  match m.mclass.toNat with
  | 0 => lane
  | 1 => base + (lane - base + m.mdist.toNat) % size
  | 2 => lane ^^^ m.mdist.toNat
  | _ => base + m.mdist.toNat

/-- Source A after lane selection (R60). -/
def srcModLane (s : State) (c : Ctx) (n : Nat) (immv : Nat) (m : Mods) (a : Src) (lane : Nat) : Nat :=
  match a with
  | .v _ => srcLane s c n immv a (selectLane m lane)
  | _ => srcLane s c n immv a lane

/-- A target of R111 or a base of R172: a scalar register or a vector pair. -/
def tgtLane (c : Ctx) (t : Tgt) (lane : Nat) : Nat :=
  match t with
  | .s r => (c.g.sreg r.toNat).toNat
  | .v r => c.g.vregs r.toNat lane 2

/-- A base of `n` registers in a lane; a scalar base is read in full. -/
def baseLane (c : Ctx) (n : Nat) (b : Base) (lane : Nat) : Nat :=
  match b with
  | .s r => (c.g.sreg r.toNat).toNat
  | .sz => 0
  | .v r => c.g.vregs r.toNat lane n

/-- A parameter word's value: the literal, or the 64-bit value that a marker substitutes (R67). -/
def pwordVal (c : Ctx) (p : PWord) : Nat × Bool :=
  match p with
  | .lit w => (w.toNat, false)
  | .sub r => ((c.g.sreg r.toNat).toNat, true)

/-- A parameter word as a signed number. -/
def pwordInt (c : Ctx) (p : PWord) : Int :=
  match p with
  | .lit w => w.toInt
  | .sub r => (c.g.sreg r.toNat).toInt

/-! ### Writing registers -/

/-- Writes `n` registers of one lane, the lowest first. -/
def putVregs (v : Map Word) (r lane : Nat) : Nat → Nat → Map Word
  | 0, _ => v
  | n + 1, x => putVregs (Map.putD v 0 (r * 32 + lane) (BitVec.ofNat 32 x)) (r + 1) lane n (x / 2 ^ 32)

def setVregs (s : State) (gid r lane n x : Nat) : State :=
  s.setGroup gid (fun g => { g with v := putVregs g.v r lane n x })

def setSreg (s : State) (gid r x : Nat) : State :=
  s.setGroup gid (fun g => { g with s := Map.putD g.s 0 r (BitVec.ofNat 64 x) })

/-- Writes mask bits in the lanes `m`; writes to cm7 are discarded (R44). -/
def setMask (s : State) (gid n : Nat) (m new : LaneMask) : State :=
  if n = 7 then s
  else s.setGroup gid (fun g => { g with cm := Map.putD g.cm 0 n (mergeLanes m (g.cm.getD n 0) new) })

/-- Writes a scalar destination, once (R109, R58; R55: sz discards). -/
def setDstScalar (s : State) (gid : Nat) (d : Dst) (x : Nat) : State :=
  match d with
  | .s r => setSreg s gid r.toNat x
  | _ => s

/-- Writes a vector destination of `n` registers in every acting lane, from one value a lane; the other lanes stay as they are (R109). -/
def setDstLanes (s : State) (c : Ctx) (r n : Nat) (f : Nat → Nat) : State :=
  s.setGroup c.gid (fun g => { g with v := (lanesOf c.act).foldl (fun v l => putVregs v r l n (f l)) g.v })

/-! ### Which registers an instruction reads and writes -/

def refsV (r : BitVec 8) (n : Nat) : List RegRef := (List.range n).map (fun i => .v (r.toNat + i))

def refsSrc (n : Nat) : Src → List RegRef
  | .v r => refsV r n
  | .s r => [.s r.toNat]
  | _ => []

def refsDst (n : Nat) : Dst → List RegRef
  | .v r => refsV r n
  | .s r => [.s r.toNat]
  | .sz => []

def refsTgt : Tgt → List RegRef
  | .s r => [.s r.toNat]
  | .v r => refsV r 2

def refsBase (n : Nat) : Base → List RegRef
  | .s r => [.s r.toNat]
  | .sz => []
  | .v r => refsV r n

def refsL (n : Nat) : LDst → List RegRef
  | .s r => [.s r.toNat]
  | .v r => refsV r n

def refsMask (m : BitVec 3) : List RegRef := if m = 7 then [] else [.cm m.toNat]

def refsP (p : PBlock) : List RegRef :=
  [p.p0, p.p1, p.p2, p.p3].filterMap (fun w => match w with | .sub r => some (.s r.toNat) | .lit _ => none)

def refsGuard (h : Hdr) : List RegRef := refsMask h.gidx

def refs1 (n nd : Nat) (o : Ops1) : List RegRef × List RegRef := (refsSrc n o.a, refsDst nd o.d)
def refs2 (na nb nd : Nat) (o : Ops2) : List RegRef × List RegRef := (refsSrc na o.a ++ refsSrc nb o.b, refsDst nd o.d)
def refs3 (na nb nc nd : Nat) (o : Ops3) : List RegRef × List RegRef :=
  (refsSrc na o.a ++ refsSrc nb o.b ++ refsSrc nc o.c, refsDst nd o.d)

def iwN : IWidth → Nat
  | .w64 => 2
  | _ => 1
def ffN : FFmt → Nat
  | .f64 => 2
  | _ => 1
def mwN : MWidth → Nat
  | .w64 => 2
  | .w128 => 4
  | _ => 1

def refsAddr (n : Nat) (o : AddrOps) : List RegRef := refsBase n o.a ++ refsSrc 1 o.b

def refsLoad (n : Nat) (o : MemOps) : List RegRef × List RegRef := (refsAddr n o.at_, refsSrc (mwN o.width) o.d)
def refsStore (n : Nat) (o : MemOps) : List RegRef × List RegRef :=
  (refsAddr n o.at_ ++ refsSrc (mwN o.width) o.d, [])

def refsAtom (o : AtomOps) : List RegRef × List RegRef :=
  let n := if o.wide then 2 else 1
  (refsBase (if o.space = .scr then 1 else 2) o.a ++ refsSrc n o.b, refsDst n o.d)

def refsExp (o : ExpOps) : List RegRef × List RegRef :=
  (.s o.a.toNat :: refsSrc 1 o.b, refsDst 1 o.d ++ refsMask o.m)

def cvtRegs (c : BitVec 6) : Nat := if c.toNat = 9 ∨ c.toNat = 12 then 2 else 1

/-- Registers read and registers written, besides the guard. Machine steps name none. -/
def refsOf : Instr → List RegRef × List RegRef
  | .brx _ a _ | .ret _ a => (refsTgt a, [])
  | .call _ d _ => ([], refsV d 2)
  | .callx _ d a => (refsTgt a, refsV d 2)
  | .trap _ _ a => (refsSrc 1 a, [])
  | .msave _ d => ([], refsDst 1 d)
  | .mand _ x | .mor _ x | .mrest _ x =>
    (match x with
     | .src a _ => refsSrc 1 a
     | .cm m => refsMask m, [])
  | .regroup _ _ a => (refsSrc 1 a, [])
  | .launch _ a => ([.s a.toNat], [])
  | .launchLane _ a => (refsV a 2, [])
  | .iadd _ w o | .isub _ w o | .imul _ w o | .and _ w o | .or _ w o | .xor _ w o | .andn _ w o | .sel _ w o =>
    refs2 (iwN w) (iwN w) (iwN w) o
  | .imulh _ w _ o | .imin _ w _ o | .imax _ w _ o => refs2 (iwN w) (iwN w) (iwN w) o
  | .imad _ w o => refs3 (iwN w) (iwN w) (iwN w) (iwN w) o
  | .iabs _ w o | .popc _ w o | .clz _ w o | .brev _ w o | .mov _ w o => refs1 (iwN w) (iwN w) o
  | .shl _ w o | .shr _ w o | .sar _ w o | .rotl _ w o | .bfx _ w _ o => refs2 (iwN w) 1 (iwN w) o
  | .bfi _ w o => refs3 (iwN w) 1 (iwN w) (iwN w) o
  | .lea _ _ _ o => refs2 2 1 2 o
  | .icmp _ w _ _ o => (refsSrc (iwN w) o.a ++ refsSrc (iwN w) o.b, refsMask o.m)
  | .fadd _ f o | .fsub _ f o | .fmul _ f o | .fmin _ f o | .fmax _ f o => refs2 (ffN f) (ffN f) (ffN f) o
  | .ffma _ f o => refs3 (ffN f) (ffN f) (ffN f) (ffN f) o
  | .fcmp _ f _ o => (refsSrc (ffN f) o.a ++ refsSrc (ffN f) o.b, refsMask o.m)
  | .frcp _ f o | .frsq _ f o | .fsqrt _ f o | .fex2 _ f o | .flg2 _ f o | .fsin _ f o | .fcos _ f o =>
    refs1 (ffN f) (ffN f) o
  | .fcvt _ o => (refsSrc (cvtRegs o.srct) o.a, refsDst (cvtRegs o.dstt) o.d)
  | .fcls _ f _ _ m a _ => (refsSrc (ffN f) a, refsMask m)
  | .frnd _ f _ _ d a _ => (refsSrc (ffN f) a, refsDst (ffN f) d)
  | .fscl _ f o => refs2 (ffN f) 1 (ffN f) o
  | .shfl _ _ pair d a b _ =>
    let n := if pair then 2 else 1
    (refsV a n ++ refsSrc 1 b, refsV d n)
  | .vote _ _ d a => (refsV a 1, refsL 1 d)
  | .redux _ _ f d a =>
    let n := if f = 1 then 2 else 1
    (refsV a n, refsL n d)
  | .matchLanes _ pair d a => (refsV a (if pair then 2 else 1), refsV d 1)
  | .prmt _ d a b c _ => (refsV a 1 ++ refsSrc 1 b ++ refsSrc 1 c, refsV d 1)
  | .ldg _ o | .ldw _ o | .ldc _ o => refsLoad 2 o
  | .lds _ o => refsLoad 1 o
  | .stg _ o | .stw _ o => refsStore 2 o
  | .sts _ o => refsStore 1 o
  | .pref _ _ o | .cflush _ _ o => (refsAddr 2 o, [])
  | .atom _ _ o => refsAtom o
  | .acas _ o => ((refsAtom o).1 ++ (refsAtom o).2, (refsAtom o).2)
  | .red _ _ _ o => ((refsAtom o).1, [])
  | .rdlk _ m o | .rdul _ m o | .wrlk _ m o | .wrul _ m o => ((refsAtom o).1, (refsAtom o).2 ++ refsMask m)
  | .barwWait _ _ p =>
    (match p with
     | .s r => [.s r.toNat]
     | .v r => refsV r 1, [])
  | .bara _ _ d _ => ([], refsDst 1 d)
  | .barx _ _ _ b _ => (refsSrc 1 b, [])
  | .lock _ m d a b _ => (.s a.toNat :: refsSrc 1 b, refsDst 1 d ++ refsMask m)
  | .lockt _ m d a | .unlock _ m d a => ([.s a.toNat], refsDst 1 d ++ refsMask m)
  | .cpy _ o | .cpyg _ o | .cpyw _ o =>
    (.s o.d.toNat :: .s o.a.toNat :: ((match o.b with | some b => [.s b.toNat, .s o.seq.toNat] | none => []) ++ refsP o.p), [])
  | .gres _ _ x _ => (refsSrc 1 x, [])
  | .sbwait _ _ a b _ => (refsBase 1 a ++ refsSrc 1 b, [])
  | .cdone _ _ _ a b => (.s a.toNat :: refsBase 1 b, [])
  | .mxlw _ o => ([.s o.a.toNat], [])
  | .mxloop _ o => (.s o.a.toNat :: .s o.b.toNat :: refsP o.p, [])
  | .mxdrain _ o =>
    let row := if o.epi = .silu then 4 else 8
    (match o.dst with
     | .s r => .s r.toNat :: refsBase 1 o.b
     | .v _ => refsBase 1 o.b,
     match o.dst with
     | .v r => refsV r (row * (o.m1.toNat + 1))
     | .s _ => [])
  | .xfetch _ _ o | .xpin _ o | .xunpin _ o | .xstat _ _ o => refsExp o
  | .xcnt _ a b c _ _ => (.s a.toNat :: (refsSrc 1 b ++ refsSrc 1 c), [])
  | .coll _ o => (.s o.d.toNat :: .s o.a.toNat :: .s o.b.toNat :: refsP o.p, [])
  | .ensure _ _ a b _ _ => (.s a.toNat :: refsBase 1 b, [])
  | .reject _ a | .csrwWr _ _ a | .csrwSet _ _ a | .csrwClr _ _ a => (refsSrc 1 a, [])
  | .conv _ a | .convx _ a => ([.s a.toNat], [])
  | .spawn _ a _ _ => (refsSrc 2 a ++ refsV 0 16, [])
  | .csrr _ d _ | .snap _ d => ([], refsDst 1 d)
  | _ => ([], [])

/-- Registers that an instruction's word names, at their widths, for the bound of R58: MXDRAIN's further rows are
checked by R253 when it acts, and SPAWN and REGROUP name no data register. -/
def boundRefs (i : Instr) : List RegRef :=
  match i with
  | .mxdrain _ o =>
    (match o.dst with
     | .v r => [.v r.toNat]
     | .s _ => [])
  | .spawn _ a _ _ => refsSrc 2 a
  | i => (refsOf i).1 ++ (refsOf i).2

/-- The first vector register named beyond an allocation (R58). -/
def boundFault (g : Group) (i : Instr) : Option Nat :=
  leastBy id ((boundRefs i).filterMap (fun r =>
    match r with
    | .v n => if g.nregs ≤ n then some n else none
    | _ => none))

/-- The guard of an instruction; machine steps read as unguarded. -/
def hdrOf : Instr → Hdr
  | .nop h | .bra h .. | .brx h .. | .call h .. | .callx h .. | .ret h .. | .exit h | .trap h .. | .msave h ..
  | .mand h .. | .mor h .. | .mrest h .. | .regroup h .. | .launch h .. | .launchLane h .. | .iadd h .. | .isub h ..
  | .imul h .. | .imulh h .. | .imad h .. | .imin h .. | .imax h .. | .iabs h .. | .and h .. | .or h .. | .xor h ..
  | .andn h .. | .shl h .. | .shr h .. | .sar h .. | .rotl h .. | .bfx h .. | .bfi h .. | .popc h .. | .clz h ..
  | .brev h .. | .sel h .. | .mov h .. | .lea h .. | .icmp h .. | .fadd h .. | .fsub h .. | .fmul h .. | .ffma h ..
  | .fmin h .. | .fmax h .. | .fcmp h .. | .frcp h .. | .frsq h .. | .fsqrt h .. | .fex2 h .. | .flg2 h ..
  | .fsin h .. | .fcos h .. | .fcvt h .. | .fcls h .. | .frnd h .. | .fscl h .. | .shfl h .. | .vote h ..
  | .redux h .. | .matchLanes h .. | .prmt h .. | .ldg h .. | .stg h .. | .lds h .. | .sts h .. | .ldw h ..
  | .stw h .. | .ldc h .. | .pref h .. | .fence h .. | .cflush h .. | .atom h .. | .acas h .. | .red h ..
  | .rdlk h .. | .rdul h .. | .wrlk h .. | .wrul h .. | .barw h .. | .barwWait h .. | .bara h .. | .barx h ..
  | .lock h .. | .lockt h .. | .unlock h .. | .cpy h .. | .cpyg h .. | .cpyw h .. | .gres h .. | .gresFree h ..
  | .sbwait h .. | .sbwaitAll h | .cdone h .. | .mxlw h .. | .mxswap h .. | .mxloop h .. | .mxdrain h ..
  | .mxzero h .. | .xfetch h .. | .xcnt h .. | .xpin h .. | .xunpin h .. | .xstat h .. | .coll h .. | .ensure h ..
  | .elseby h .. | .elseerr h | .accept h | .reject h .. | .conv h .. | .convx h .. | .spawn h .. | .tend h
  | .tabort h | .csrr h .. | .csrwWr h .. | .csrwSet h .. | .csrwClr h .. | .npe h | .pen h | .snap h .. | .tret h
  | .halt h .. => h
  | _ => ⟨false, 7, 0, false⟩

/-- Fixed latencies of R62; none for an instruction of variable latency. -/
def latencyOf : Instr → Option Nat
  | .msave .. => some 4
  | .iadd .. | .isub .. | .imul .. | .imulh .. | .imad .. | .imin .. | .imax .. | .iabs .. | .and .. | .or .. | .xor ..
  | .andn .. | .shl .. | .shr .. | .sar .. | .rotl .. | .bfx .. | .bfi .. | .popc .. | .clz .. | .brev .. | .sel ..
  | .mov .. | .lea .. | .icmp .. => some 4
  | .frcp .. | .frsq .. | .fsqrt .. | .fex2 .. | .flg2 .. | .fsin .. | .fcos .. => some 14
  | .fadd _ f _ | .fsub _ f _ | .fmul _ f _ | .ffma _ f _ | .fmin _ f _ | .fmax _ f _ | .fcmp _ f _ _ | .fscl _ f _ =>
    some (if f = .f64 then 8 else 6)
  | .fcls _ f .. | .frnd _ f .. => some (if f = .f64 then 8 else 6)
  | .fcvt _ o => some (if cvtRegs o.srct = 2 ∨ cvtRegs o.dstt = 2 then 8 else 6)
  | .shfl .. | .vote .. | .redux .. | .matchLanes .. | .prmt .. => some 6
  | _ => none

/-- R66: code words that an instruction occupies. -/
def lengthOf : Instr → Nat
  | .cpy .. | .cpyg .. | .cpyw .. | .mxloop .. | .coll .. => 7
  | _ => 3

end Sys2Proof.Machine
end

