-- ==== Sys2Proof/Machine/Issue.lean ====
section
/-!
DEFINITION. Issuing one instruction: what makes it wait (R41, R64, R207, R281, R331), the checks of R78 after decoding,
reads and overwrites that come too early (R65), the issue counts, and how its effect ends.
-/
namespace Sys2Proof.Machine

/-- Instructions that act whatever lanes their guard leaves (R120, R130, R182, R285, R287, R307). -/
def actsAlways : Instr → Bool
  | .msave .. | .mand .. | .mor .. | .mrest .. | .sel .. | .fence .. | .ensure .. | .elseby .. | .elseerr .. | .accept ..
  | .conv .. | .convx .. | .npe .. | .pen .. | .tret .. | .halt .. => true
  | _ => false

/-- Memory accesses and engine commands, which an acquire, an sc access or a lock holds back (R207, R209, R366). -/
def touchesMemory : Instr → Bool
  | .ldg .. | .stg .. | .lds .. | .sts .. | .ldw .. | .stw .. | .ldc .. | .pref .. | .fence .. | .cflush .. | .atom ..
  | .acas .. | .red .. | .rdlk .. | .rdul .. | .wrlk .. | .wrul .. | .barw .. | .barwWait .. | .bara .. | .barx ..
  | .lock .. | .lockt .. | .unlock .. | .cpy .. | .cpyg .. | .cpyw .. | .sbwait .. | .sbwaitAll .. | .cdone .. | .mxlw ..
  | .mxswap .. | .mxloop .. | .mxdrain .. | .mxzero .. | .xfetch .. | .xcnt .. | .xpin .. | .xunpin .. | .xstat ..
  | .coll .. | .launch .. | .launchLane .. | .spawn .. => true
  | _ => false

/-- Modifiers of an instruction, where it has them. -/
def modsOf : Instr → Option Mods
  | .iadd _ _ o | .isub _ _ o | .imul _ _ o | .and _ _ o | .or _ _ o | .xor _ _ o | .andn _ _ o | .sel _ _ o
  | .shl _ _ o | .shr _ _ o | .sar _ _ o | .rotl _ _ o => some o.mods
  | .imulh _ _ _ o | .imin _ _ _ o | .imax _ _ _ o | .bfx _ _ _ o | .lea _ _ _ o => some o.mods
  | .imad _ _ o | .bfi _ _ o | .ffma _ _ o => some o.mods
  | .iabs _ _ o | .popc _ _ o | .clz _ _ o | .brev _ _ o | .mov _ _ o => some o.mods
  | .icmp _ _ _ _ o | .fcmp _ _ _ o => some o.mods
  | .fadd _ _ o | .fsub _ _ o | .fmul _ _ o | .fmin _ _ o | .fmax _ _ o | .fscl _ _ o => some o.mods
  | .frcp _ _ o | .frsq _ _ o | .fsqrt _ _ o | .fex2 _ _ o | .flg2 _ _ o | .fsin _ _ o | .fcos _ _ o => some o.mods
  | .fcvt _ o => some o.mods
  | .fcls _ _ _ m _ _ _ => some m
  | .frnd _ _ _ m _ _ _ => some m
  | _ => none

/-- It reads lanes other than those it acts on (R60, R144). -/
def readsAcross (i : Instr) : Bool :=
  (modsOf i).elim false (fun m => m.mclass != 0)
    || (match i with
        | .shfl .. | .vote .. | .redux .. | .matchLanes .. => true
        | _ => false)

/-- It reads or writes lanes outside em: those that read across lanes, and a drain into registers (R253). -/
def reachesAll (i : Instr) : Bool :=
  readsAcross i || (match i with | .mxdrain .. => true | _ => false)

/-- Registers that REGROUP reads beside its operand: v0 to v15 of each lane (R45). -/
def contRefs (i : Instr) : List RegRef :=
  match i with
  | .regroup .. => refsV 0 16
  | _ => []

/-- Class 2 and class 3 instructions, which set flags when their results are written (R143). -/
def setsFlags : Instr → Bool
  | .msave .. | .iadd .. | .isub .. | .imul .. | .imulh .. | .imad .. | .imin .. | .imax .. | .iabs .. | .and .. | .or .. | .xor ..
  | .andn .. | .shl .. | .shr .. | .sar .. | .rotl .. | .bfx .. | .bfi .. | .popc .. | .clz .. | .brev .. | .sel ..
  | .mov .. | .lea .. | .icmp .. => false
  | i => (latencyOf i).isSome

/-- A read or write of FFLAGS waits until the flags of earlier instructions are set (R143). -/
def flagsWait (s : State) (g : Group) (i : Instr) : Bool :=
  (match i with
   | .csrr _ _ n | .csrwWr _ n _ | .csrwSet _ n _ | .csrwClr _ n _ => n == .fflags
   | _ => false) && decide (s.clk < g.flagsAt)

/-- A pending destination blocks a reader or writer of `r` with lanes `em` (R64, R42). -/
def pendBlocks (p : Pend) (r : RegRef) (em : LaneMask) (wide : Bool) : Bool :=
  p.refs.contains r &&
    (match r with
     | .v _ => wide || (p.lanes &&& em) != 0
     | _ => true)

/-- All registers an instruction reads or writes, the guard's mask included. -/
def touched (i : Instr) : List RegRef := (refsOf i).1 ++ (refsOf i).2 ++ refsGuard (hdrOf i) ++ contRefs i

/-- The interlocks of R64. -/
def interlocked (s : State) (g : Group) (sp : Split) (i : Instr) : Bool :=
  let rs := touched i
  g.pend.any (fun p => rs.any (fun r => pendBlocks p r sp.em (reachesAll i)))
    || g.inflight.any (fun f => f.split != sp.uid && decide (s.clk < f.readyAt) && rs.contains f.ref)

/-- Results of the split's own that an instruction would touch too early (R65). -/
def earlyRefs (s : State) (g : Group) (sp : Split) (i : Instr) : List Inflight :=
  g.inflight.filter (fun f => f.split == sp.uid && decide (s.clk < f.readyAt) && (touched i).contains f.ref)

/-- The split a shadow must issue from next (R331). -/
def shadowSplit (p g : Group) : Option Nat := p.issueLog[p.issued - 1 - g.issued]?

/-- The bounds of R331 between a primary and its shadow; a primary waits where what it did last awaits the comparison. -/
def pairAllows (s : State) (c : Ctx) : Bool :=
  if isPrimary s c.gid c.g then
    (match s.groups.get? (c.gid + 32) with
     | some sh => decide (c.g.issued < sh.issued + 64)
     | none => true) && !s.cmps.any (fun k => k.gid == c.gid && k.waits)
  else if isShadow s c.gid c.g then
    match s.groups.get? (c.gid - 32) with
    | some p =>
      (decide (c.g.issued < p.issued) && shadowSplit p c.g == some c.si)
        || (decide (c.g.issued = p.issued) && p.faultWait.elim false (fun w => w.split == c.si))
    | none => false
  else true

/-- The split may run at all: its block runs, its group is not stopped, descheduled or waiting with a fault, and it is
neither parked nor held by a handler. -/
def running (c : Ctx) : Bool :=
  c.blk.started && c.blk.failing.isNone && c.blk.terminated.isNone && !c.blk.sealed && !c.g.stopped
    && c.blk.levels.all (fun l => !l.joining && !l.accepting)
    && c.g.desched.isNone && c.g.faultWait.isNone && c.sp.park.isNone && !(c.g.handler && c.g.held.contains c.sp.uid)

/-- Nothing makes the instruction wait before its checks (R43: its interlocks are clear and it is not parked). -/
def canIssue (s : State) (c : Ctx) (i : Instr) : Bool :=
  running c && !interlocked s c.g c.sp i && !flagsWait s c.g i && pairAllows s c
    && (!touchesMemory i || c.sp.hold.all (holdOver s (dieOfGroup c.gid)))

/-! ### Reads and overwrites that come too early (R65) -/

/-- One lane of a register takes a value; a scalar register has lane 0 only, a mask one bit a lane. -/
def putRef (g : Group) (r : RegRef) (lane x : Nat) : Group :=
  match r with
  | .v n => { g with v := Map.putD g.v 0 (n * 32 + lane) (BitVec.ofNat 32 x) }
  | .s n => { g with s := Map.putD g.s 0 n (BitVec.ofNat 64 x) }
  | .cm n => { g with cm := Map.putD g.cm 0 n ((g.cm.getD n 0 &&& ~~~laneBit lane) ||| (if x % 2 = 1 then laneBit lane else 0)) }

/-- What stands in a register, by lane. -/
def lanesIn (g : Group) (lanes : LaneMask) (r : RegRef) : List (Nat × Nat) :=
  match r with
  | .v n => (lanesOf lanes).map (fun l => (l, (g.vreg n l).toNat))
  | .s n => [(0, (g.sreg n).toNat)]
  | .cm n => allLanes.map (fun l => (l, if (g.cm.getD n 0).getLsbD l then 1 else 0))

/-- The read view of an early read: in each lane the value before or the value after the producer's write, a free choice. -/
def earlyRead (s : State) (g : Group) : List Inflight → Group × State
  | [] => (g, s)
  | f :: t =>
    let (g, s) := f.old.foldl (fun (gs : Group × State) o =>
      let (b, s) := gs.2.freeBool
      (if b then putRef gs.1 f.ref o.1 o.2 else gs.1, s)) (g, s)
    earlyRead s g t

/-- A lane of a register waits for a result. -/
def Pend.awaits (p : Pend) (r : RegRef) (lane : Nat) : Bool :=
  p.refs.contains r && (match r with | .s _ => true | _ => p.lanes.getLsbD lane)

/-- An early overwrite leaves either of the two results, in each lane a free choice: `f.old` holds what the producer wrote. Where the
overwriting result is still to come, the choice falls when it does. -/
def earlyWrite (s : State) (gid : Nat) (defs : List RegRef) : List Inflight → State
  | [] => s
  | f :: t =>
    let s := if !defs.contains f.ref then s
      else forAll f.old s (fun o s =>
        if ((s.groups.get? gid).map (·.pend)).getD [] |>.any (·.awaits f.ref o.1) then
          s.setGroup gid (fun g => { g with pend := g.pend.map (fun p =>
            if p.awaits f.ref o.1 then { p with kept := (p.kept ++ [(f.ref, o.1)]).eraseDups } else p) })
        else
          let (b, s) := s.freeBool
          if b then s.setGroup gid (fun g => putRef g f.ref o.1 o.2) else s)
    earlyWrite s gid defs t

/-- The lanes of a vector destination that an instruction writes: those of em for SEL (R130), else those of G. -/
def resultLanes (c : Ctx) (i : Instr) : LaneMask :=
  match i with
  | .sel .. => c.em
  | _ => c.act

/-- It writes nothing in this context: it does not act, or it is a SEL of an empty em. -/
def writesNone (c : Ctx) (i : Instr) : Bool :=
  match i with
  | .sel .. => c.em == 0
  | i => c.act == 0 && !actsAlways i

/-- What is left of a result in flight where newer ones take its lanes. -/
def Inflight.under (f : Inflight) (new : List Inflight) : Inflight :=
  { f with old := f.old.filter (fun o => !new.any (fun n => n.ref == f.ref && n.old.any (fun x => x.1 == o.1))) }

/-- Records fixed-latency results in flight and drops those that have arrived (R62). -/
def noteInflight (s : State) (c : Ctx) (i : Instr) : State :=
  s.setGroup c.gid (fun g =>
    let live := g.inflight.filter (fun f => decide (s.clk < f.readyAt))
    let late := if writesNone c i then none else latencyOf i
    let new := match late with
      | some n =>
        (refsOf i).2.map (fun r => { ref := r, split := c.sp.uid, pc := c.pc, readyAt := s.clk + n, old := lanesIn c.g (resultLanes c i) r })
      | none => []
    { g with inflight := new ++ (live.map (·.under new)).filter (fun f => !f.old.isEmpty),
             flagsAt := if setsFlags i then max g.flagsAt (s.clk + late.getD 0) else g.flagsAt })

/-! ### Page faults of a group (R157, R158, R382) -/

/-- Some lane meets PAGE_FAULT: a speculative lane's is deferred, else a record is posted and the group is descheduled
at the instruction. `flags` are those of byte 20 of the record. -/
def pageFault (s : State) (c : Ctx) (va ipa flags : Nat) (lanes : LaneMask) : State :=
  if anySpec s c.g lanes then takeFault s c .pageFault (BitVec.ofNat 64 va) lanes
  else
    let (t, s) := postFault s c.launch.pasid va ipa flags
    flushFaults (s.setGroup c.gid (fun g => { g with desched := some ⟨t, c.si, va, lanes⟩ }))

/-! ### Issue -/

/-- Counts an issue (R302, R331) and sets the split's stall and yield (R63, R43). -/
def countIssue (s : State) (c : Ctx) (h : Hdr) : State :=
  let keep (q : Split) : Split :=
    if q.uid = c.sp.uid then
      { q with stallUntil := s.clk + max h.stall.toNat 1, yieldAt := if h.yield then some (s.clk + 1) else none, readySince := none }
    else if q.stallUntil < s.clk + max h.stall.toNat 1 ∧ !(c.g.splits.any (fun p => p.2.uid == q.uid)) then
      { q with stallUntil := s.clk + max h.stall.toNat 1 }
    else q
  let s := s.setCore (coreOfGroup c.gid) (fun k => { k with issued := k.issued + 1 })
  s.setGroup c.gid (fun g => { g with issued := g.issued + 1, issueLog := (c.si :: g.issueLog).take 64, lastSplit := some c.si,
                                      splits := g.splits.map (fun p => (p.1, keep p.2)) })

/-- Moves the issuing split on by `n` code words. -/
def advance (s : State) (c : Ctx) (n : Nat) : State :=
  s.setGroup c.gid (fun g => { g with splits := g.splits.map (fun p =>
    if p.2.uid = c.sp.uid then (p.1, { p.2 with pc := p.2.pc + BitVec.ofNat 55 n }) else p) })

/-- A primary's state at an issue is kept until its shadow has issued the same instruction (R333). -/
def keepSnap (s : State) (c : Ctx) : State :=
  if isPrimary s c.gid c.g then { s with snaps := s.snaps ++ [⟨c.gid, c.g.issued, c.g⟩] }
  else if isShadow s c.gid c.g then { s with snaps := s.snaps.filter (fun k => !(k.gid + 32 == c.gid && decide (k.n ≤ c.g.issued))) }
  else s

/-- Everything that follows an instruction that completes. -/
def finishIssue (s : State) (c : Ctx) (i : Instr) (early : List Inflight) : State :=
  keepSnap (countIssue (noteInflight (earlyWrite s c.gid (refsOf i).2 early) c i) c (hdrOf i)) c

/-- Registers that are shored as an instruction issues: those that it writes then. Results that return are shored as they are written
(R319). -/
def shoredAtIssue (c : Ctx) (i : Instr) : List RegRef :=
  match i with
  | .mxdrain .. | .ldg .. | .lds .. | .ldw .. | .ldc .. | .atom .. | .acas .. | .rdlk .. | .rdul .. | .wrlk .. | .wrul .. => []
  | .sel .. => if c.em = 0 then [] else (refsOf i).2
  | i => (refsOf i).2

/-- Registers are shored before they are written (R317); the first without room, if any. -/
def shoreDests (s : State) (d gid : Nat) : List RegRef → State × Option Nat
  | [] => (s, none)
  | .v r :: t =>
    match shoreReg s d gid r with
    | some s => shoreDests s d gid t
    | none => (s, some r)
  | _ :: t => shoreDests s d gid t

/-- The fault that the primary waits with, which its shadow meets in turn (R284). -/
def primaryFault (s : State) (c : Ctx) : Option WaitFault :=
  if isShadow s c.gid c.g then
    match s.groups.get? (c.gid - 32) with
    | some p => if p.issued = c.g.issued then p.faultWait else none
    | none => none
  else none

/-- An instruction completes; in a shadow whose primary met a fault there, that is a SHADOW_MISMATCH (R284). -/
def complete (s0 : State) (c : Ctx) (s : State) : State :=
  match primaryFault s0 c with
  | some w => shadowMismatch s0 (c.gid - 32) c.g.issued w.split 6 (lowestLane w.lanes) w.lanes
  | none => s

/-- The result of an instruction's own effect becomes a state. -/
def settle (s0 : State) (c : Ctx) (i : Instr) (early : List Inflight) : Res → State
  | .done s => complete s0 c (finishIssue (advance s c (lengthOf i)) c i early)
  | .jump s => complete s0 c (finishIssue s c i early)
  | .fault k e l => takeFault s0 c k e l
  | .wait => s0
  | .held s => s

/-- Samples %time and %front for the shadow (R332). -/
def sampleSpecials (s : State) (c : Ctx) : State :=
  if isPrimary s c.gid c.g then
    let d := s.die (dieOfGroup c.gid)
    s.setGroup (c.gid + 32) (fun g => { g with sampled := (g.sampled.filter (fun x => decide (x.1 < c.g.issued ∧ c.g.issued < x.1 + 65))) ++ [(c.g.issued, d.time, d.front.1)] })
  else s

/-- An engine failure (R230, R402) or an NPE_OVER (R290) that the group takes before its next instruction. -/
def beforeNext (s : State) (c : Ctx) : Option State :=
  match c.g.npeOver with
  | some t =>
    if resultsPending s c.g || !pairLevel s c.gid c.g then some s
    else
      let s := s.setGroup c.gid (fun g => { g with npeOver := none })
      let s := if isPrimary s c.gid c.g then s.setGroup (c.gid + 32) (fun g => { g with npe := none }) else s
      some (takeFaultAt s c.gid c.si false .npeOver (BitVec.ofNat 64 t) c.em)
  | none =>
    match c.g.fails with
    | f :: rest =>
      if resultsPending s c.g || !pairLevel s c.gid c.g then some s
      else some (takeFaultAt (s.setGroup c.gid (fun g => { g with fails := rest })) c.gid c.si true f.cause f.eval c.em)
    | [] => none

/-- One instruction of the split that `cur` names: it waits, takes a fault, or completes (R78). Of several results that it would touch
too early, STALL_SHORT names the producer that issued last (log 124). `always` marks the
instructions that act whatever lanes the guard leaves (R120, R182, R285). -/
def runInstr (i : Instr) (always : Bool) (body : Ctx → State → Res) (s : State) : State :=
  match ctxOf (hdrOf i) s with
  | none => s
  | some c =>
    if !running c then s
    else
      match beforeNext s c with
      | some s' => s'
      | none =>
        if !canIssue s c i then s
        else
          match boundFault c.g i with
          | some r => takeFault s c .operandBounds (BitVec.ofNat 64 r) c.act
          | none =>
            let early := earlyRefs s c.g c.sp i
            match (if c.g.sbchk then early.head? else none) with
            | some f => takeFault s c .stallShort (f.pc.setWidth 64) c.act
            | none =>
              let s := sampleSpecials s c
              let kept := early.map (fun f => { f with old := lanesIn c.g (ofLanes (f.old.map (·.1))) f.ref })
              let (view, s) := earlyRead s c.g early
              let c := { c with act := guardLanes view (hdrOf i) c.em }
              if c.act = 0 ∧ !always then settle s c i kept (.done s)
              else
                match shoreDests s c.blk.levels.length c.gid (shoredAtIssue c i) with
                | (_, some r) => takeFault s c .shoreFull (BitVec.ofNat 64 r) c.act
                | (s, none) => settle s c i kept (body { c with g := view } s)

end Sys2Proof.Machine
end

