-- ==== Sys2Proof/Machine/Numbers.lean ====
section
/-!
DEFINITION. Number formats and exact arithmetic (R82 to R100): values are exact dyadic numbers until one rounding
(R107). Functions whose values are not dyadic give their leading binary digits, cut off, with a last digit 1 that
stands for what was cut.
-/
namespace Sys2Proof.Machine

/-! ### Flags (R85) -/

abbrev Flags := BitVec 5
def flagNV : Flags := 16
def flagDZ : Flags := 8
def flagOF : Flags := 4
def flagUF : Flags := 2
def flagNX : Flags := 1

def flagIf (b : Bool) (f : Flags) : Flags := if b then f else 0

/-! ### Rounding modes (R86, R87) -/

/-- A rounding mode in force; RSR carries its draw. -/
inductive Rm where
  | rne | rtz | rdn | rup
  | rsr (u : Nat)
  deriving DecidableEq, Repr

/-- Floor of the magnitude m × 2^e in units of 2^q, the remainder's numerator and its denominator's exponent. -/
def cutAt (m : Nat) (e q : Int) : Nat × Nat × Nat :=
  if q ≤ e then (m * 2 ^ (e - q).toNat, 0, 0)
  else
    let sh := (q - e).toNat
    (m / 2 ^ sh, m % 2 ^ sh, sh)

/-- A magnitude rounded to units of 2^q under a mode (R86, R87). A P3109 format with p = 1 has no trailing field; a tie into it
goes away from zero here, as the count of units, 1, is odd; the tie at half the format's smallest positive value goes to zero, as the
count of units, 0, is even (DESIGN CHOICE for both, log 128). -/
def roundMag (neg : Bool) (m : Nat) (e q : Int) (rm : Rm) : Nat × Bool :=
  let (n, r, sh) := cutAt m e q
  if r = 0 then (n, true)
  else
    let up := match rm with
      | .rne => decide (2 ^ sh < 2 * r) || (decide (2 * r = 2 ^ sh) && n % 2 == 1)
      | .rtz => false
      | .rdn => neg
      | .rup => !neg
      | .rsr u => decide (2 ^ 32 ≤ r * 2 ^ 32 / 2 ^ sh + u)
    (if up then n + 1 else n, false)

/-! ### IEEE binary formats (R83) -/

/-- Exponent and trailing bits. -/
structure Fmt where
  w : Nat
  t : Nat
  deriving DecidableEq, Repr

def fp64 : Fmt := ⟨11, 52⟩
def fp32 : Fmt := ⟨8, 23⟩
def fp16 : Fmt := ⟨5, 10⟩
def bf16 : Fmt := ⟨8, 7⟩

def Fmt.bits (f : Fmt) : Nat := 1 + f.w + f.t
def Fmt.bias (f : Fmt) : Int := 2 ^ (f.w - 1) - 1
def Fmt.emin (f : Fmt) : Int := 1 - f.bias
def Fmt.emax (f : Fmt) : Int := f.bias
def Fmt.signBit (f : Fmt) : Nat := 2 ^ (f.w + f.t)
def Fmt.infBits (f : Fmt) : Nat := (2 ^ f.w - 1) * 2 ^ f.t
/-- The canonical NaN. -/
def Fmt.nanBits (f : Fmt) : Nat := f.infBits + 2 ^ (f.t - 1)

def Fmt.neg (f : Fmt) (x : Nat) : Bool := x / f.signBit % 2 == 1
def Fmt.exp (f : Fmt) (x : Nat) : Nat := x / 2 ^ f.t % 2 ^ f.w
def Fmt.trail (f : Fmt) (x : Nat) : Nat := x % 2 ^ f.t
def Fmt.isNan (f : Fmt) (x : Nat) : Bool := f.exp x == 2 ^ f.w - 1 && f.trail x != 0
def Fmt.isSnan (f : Fmt) (x : Nat) : Bool := f.isNan x && decide (f.trail x < 2 ^ (f.t - 1))

/-- A signed magnitude; a zero of either sign keeps it. -/
def mkFin (neg : Bool) (m : Nat) (e : Int) : XVal :=
  if m = 0 then (if neg then .negZero else .fin 0 0)
  else .fin (if neg then -(m : Int) else m) e

/-- The exact value of a code (R83). -/
def Fmt.value (f : Fmt) (x : Nat) : XVal :=
  let e := f.exp x
  let t := f.trail x
  if e = 2 ^ f.w - 1 then (if t = 0 then .inf (f.neg x) else .nan)
  else if e = 0 then mkFin (f.neg x) t (f.emin - f.t)
  else mkFin (f.neg x) (2 ^ f.t + t) ((e : Int) - f.bias - f.t)

/-- The code of n × 2^q, a value of the format's grid. -/
def Fmt.encode (f : Fmt) (neg : Bool) (n : Nat) (q : Int) : Nat :=
  let s := if neg then f.signBit else 0
  if n < 2 ^ f.t then s + n
  else
    let (n, q) := if n = 2 ^ (f.t + 1) then (n / 2, q + 1) else (n, q)
    s + (q + f.t + f.bias).toNat * 2 ^ f.t + (n - 2 ^ f.t)

/-- The exponent of the leading digit of m × 2^e. -/
def leadExp (m : Nat) (e : Int) : Int := (Nat.log2 m : Int) + e

/-- Rounds a finite non-zero value: the units 2^q of the grid below and above the smallest normal, the units count,
whether it is exact; then the same with an unbounded exponent (R85, R87). -/
def roundGrid (t : Nat) (emin : Int) (neg : Bool) (m : Nat) (e : Int) (rm : Rm) : Nat × Int × Bool × Nat × Int :=
  let lead := leadExp m e
  let q := max (lead - t) (emin - t)
  let (n, exact) := roundMag neg m e q rm
  let qu := lead - t
  (n, q, exact, (roundMag neg m e qu rm).1, qu)

/-- n × 2^q is at least 2^k. -/
def atLeast (n : Nat) (q k : Int) : Bool := n != 0 && decide (k ≤ leadExp n q)

/-- RoundTo of R8 into an IEEE format, with the flags of R85. -/
def roundTo (f : Fmt) (x : XVal) (rm : Rm) : Nat × Flags :=
  match x with
  | .nan => (f.nanBits, 0)
  | .inf n => (f.infBits + (if n then f.signBit else 0), 0)
  | .negZero => (f.signBit, 0)
  | .fin m e =>
    if m = 0 then (0, 0)
    else
      let neg := decide (m < 0)
      let s := if neg then f.signBit else 0
      let (n, q, exact, nu, qu) := roundGrid f.t f.emin neg m.natAbs e rm
      if atLeast nu qu (f.emax + 1) then
        let toInf := match rm with
          | .rne | .rsr _ => true
          | .rtz => false
          | .rdn => neg
          | .rup => !neg
        (s + (if toInf then f.infBits else f.infBits - 1), flagOF ||| flagNX)
      else
        let tiny := !atLeast nu qu f.emin
        (f.encode neg n q, flagIf (!exact) flagNX ||| flagIf (tiny && !exact) flagUF)

/-! ### Exact arithmetic -/

def XVal.isNan : XVal → Bool
  | .nan => true
  | _ => false

def XVal.isInf : XVal → Bool
  | .inf _ => true
  | _ => false

def XVal.isZero : XVal → Bool
  | .fin m _ => m == 0
  | .negZero => true
  | _ => false

def XVal.isNeg : XVal → Bool
  | .fin m _ => decide (m < 0)
  | .negZero => true
  | .inf n => n
  | .nan => false

def XVal.negate : XVal → XVal
  | .fin m e => if m = 0 then .negZero else .fin (-m) e
  | .negZero => .fin 0 0
  | .inf n => .inf (!n)
  | .nan => .nan

/-- The sum of two dyadics. -/
def addFin (m1 : Int) (e1 : Int) (m2 : Int) (e2 : Int) : Int × Int :=
  let e := min e1 e2
  (m1 * 2 ^ (e1 - e).toNat + m2 * 2 ^ (e2 - e).toNat, e)

/-- An exact sum with the zero signs of R84, and whether it is invalid (∞ − ∞). -/
def addX (rm : Rm) (a b : XVal) : XVal × Bool :=
  let zero : XVal := if rm = .rdn then .negZero else .fin 0 0
  match a, b with
  | .nan, _ => (.nan, false)
  | _, .nan => (.nan, false)
  | .inf n, .inf k => if n = k then (.inf n, false) else (.nan, true)
  | .inf n, _ => (.inf n, false)
  | _, .inf n => (.inf n, false)
  | .negZero, .negZero => (.negZero, false)
  | .negZero, .fin m e => if m = 0 then (zero, false) else (.fin m e, false)
  | .fin m e, .negZero => if m = 0 then (zero, false) else (.fin m e, false)
  | .fin m1 e1, .fin m2 e2 =>
    if m1 = 0 ∧ m2 = 0 then (.fin 0 0, false)
    else
      let (m, e) := addFin m1 e1 m2 e2
      if m = 0 then (zero, false) else (.fin m e, false)

/-- An exact product, and whether it is invalid (0 × ∞). -/
def mulX (a b : XVal) : XVal × Bool :=
  if a.isNan || b.isNan then (.nan, false)
  else if (a.isInf && b.isZero) || (a.isZero && b.isInf) then (.nan, true)
  else
    let neg := a.isNeg != b.isNeg
    match a, b with
    | .fin m1 e1, .fin m2 e2 => (mkFin neg (m1.natAbs * m2.natAbs) (e1 + e2), false)
    | .inf _, _ | _, .inf _ => (.inf neg, false)
    | _, _ => (mkFin neg 0 0, false)

/-- a < b for values that are not NaNs; zeros of both signs are equal. -/
def ltX (a b : XVal) : Bool :=
  let v (x : XVal) : Int × Int := match x with | .fin m e => (m, e) | _ => (0, 0)
  match a, b with
  | .nan, _ | _, .nan => false
  | .inf n, .inf k => n && !k
  | .inf n, _ => n
  | _, .inf n => !n
  | x, y => decide ((addFin (v x).1 (v x).2 (-(v y).1) (v y).2).1 < 0)

def eqX (a b : XVal) : Bool := !a.isNan && !b.isNan && !ltX a b && !ltX b a

/-- −0 below +0 (R135). -/
def ltZ (a b : XVal) : Bool := ltX a b || (eqX a b && a.isNeg && !b.isNeg)

/-- A number read as an integer. -/
def ofInt (x : Int) : XVal := .fin x 0

/-! ### Functions that are not dyadic: leading digits and one digit for the rest -/

/-- A positive value whose floor at 2^e is `n`, exact or with a digit for the rest. -/
def cutVal (neg : Bool) (n : Nat) (e : Int) (exact : Bool) : XVal :=
  if exact then mkFin neg n e else mkFin neg (2 * n + 1) (e - 1)

/-- Integer square root, by digits. -/
def isqrt (n : Nat) : Nat :=
  (List.range (Nat.log2 n / 2 + 1)).foldr (fun i r =>
    let r' := r + 2 ^ i
    if r' * r' ≤ n then r' else r) 0

/-- Fixed-point π at 2^p, within 2^10 units: Machin's formula. -/
def arctanInv (p k : Nat) : Int :=
  let one : Int := 2 ^ p
  ((List.range (p / 2 + 2)).foldl (fun (a : Int × Int) i =>
    let term := a.2 / (2 * i + 1 : Nat)
    (if i % 2 = 0 then a.1 + term else a.1 - term, a.2 / ((k * k : Nat) : Int))) (0, one / (k : Int))).1

def piFix (p : Nat) : Int := (4 * (4 * arctanInv (p + 16) 5 - arctanInv (p + 16) 239)) / 2 ^ 16

/-- Fixed-point ln 2 at 2^p, within 2^10 units. -/
def ln2Fix (p : Nat) : Int :=
  ((List.range (p + 32)).foldl (fun (a : Int × Int) i => (a.1 + a.2 / ((i + 1 : Nat) : Int), a.2 / 2)) (0, (2 : Int) ^ (p + 15))).1 / 2 ^ 16

/-- Fixed-point e^x for 0 ≤ x < 1 at 2^p. -/
def expFix (p : Nat) (x : Int) : Int :=
  ((List.range (p / 3 + 8)).foldl (fun (a : Int × Int) i => (a.1 + a.2, a.2 * x / 2 ^ p / ((i + 1 : Nat) : Int))) (0, (2 : Int) ^ p)).1

/-- Fixed-point sine or cosine of |x| < 1 at 2^p. -/
def sinFix (p : Nat) (x : Int) : Int :=
  ((List.range (p / 4 + 8)).foldl (fun (a : Int × Int) i =>
    (a.1 + a.2, -(a.2 * x / 2 ^ p * x / 2 ^ p) / (((2 * i + 2) * (2 * i + 3) : Nat) : Int))) (0, x)).1

def cosFix (p : Nat) (x : Int) : Int :=
  ((List.range (p / 4 + 8)).foldl (fun (a : Int × Int) i =>
    (a.1 + a.2, -(a.2 * x / 2 ^ p * x / 2 ^ p) / (((2 * i + 1) * (2 * i + 2) : Nat) : Int))) (0, (2 : Int) ^ p)).1

/-- Fixed-point natural logarithm of y at 2^p, 1 ≤ y < 2: 2 artanh((y − 1) ÷ (y + 1)). -/
def lnFix (p : Nat) (y : Int) : Int :=
  let one : Int := 2 ^ p
  let z := (y - one) * one / (y + one)
  2 * ((List.range (p / 3 + 8)).foldl (fun (a : Int × Int) i =>
    (a.1 + a.2 / ((2 * i + 1 : Nat) : Int), a.2 * z / one * z / one)) (0, z)).1

/-- Leading digits of a positive fixed-point value at 2^p that is right to within 2^20 units: its floor at 2^(p − 40),
unless the error hides that digit, in which case a finer value is asked for. -/
def settleFix (f : Nat → Int) (p : Nat) : Nat → Nat × Int
  | 0 => (((f p) / 2 ^ 40).toNat, 40 - (p : Int))
  | n + 1 =>
    let v := f p
    if (v - 2 ^ 20) / 2 ^ 40 = (v + 2 ^ 20) / 2 ^ 40 then ((v / 2 ^ 40).toNat, 40 - (p : Int))
    else settleFix f (2 * p) n

/-- A fixed-point reading of m × 2^e at 2^p, rounded down. -/
def toFix (p : Nat) (m : Int) (e : Int) : Int :=
  if 0 ≤ e + p then m * 2 ^ (e + p).toNat else m / 2 ^ (-(e + p)).toNat

/-- 1 ÷ x for a finite non-zero x. -/
def rcpX (m : Int) (e : Int) : XVal :=
  let d := m.natAbs
  let k : Nat := Nat.log2 d + 160
  cutVal (decide (m < 0)) (2 ^ k / d) (-(e + k)) (2 ^ k % d == 0)

/-- √x for a finite positive x. -/
def sqrtX (m : Nat) (e : Int) : XVal :=
  let sh : Nat := if e % 2 = 0 then 320 else 321
  let n := m * 2 ^ sh
  let r := isqrt n
  cutVal false r ((e - sh) / 2) (r * r == n)

/-- 1 ÷ √x for a finite positive x. -/
def rsqX (m : Nat) (e : Int) : XVal :=
  let (m, e) := if e % 2 = 0 then (m, e) else (2 * m, e - 1)
  let k := Nat.log2 m + 320
  let k := if k % 2 = 0 then k else k + 1
  let r := isqrt (2 ^ k / m)
  cutVal false r (-(e + k) / 2) (r * r * m == 2 ^ k)

/-- 2^x for a finite x. -/
def exp2X (m : Int) (e : Int) : XVal :=
  if m = 0 then .fin 1 0
  else if 0 ≤ e ∧ leadExp m.natAbs e < 13 then .fin 1 (m * 2 ^ e.toNat)
  else if 13 ≤ leadExp m.natAbs e then (if m < 0 then .fin 1 (-100000) else .fin 1 100000)
  else if leadExp m.natAbs e < -400 then
    (if m < 0 then cutVal false (2 ^ 300 - 1) (-300) false else cutVal false (2 ^ 300) (-300) false)
  else
    let d := 2 ^ (-e).toNat
    let n := m / d
    let r := m % d
    if r = 0 then .fin 1 n
    else
      let f (p : Nat) : Int := expFix p (toFix p r e * ln2Fix p / 2 ^ p)
      let (v, q) := settleFix f 480 3
      cutVal false v (q + n) false

/-- log2 x for a finite positive x. -/
def log2X (m : Nat) (e : Int) : XVal :=
  let l := Nat.log2 m
  let k : Int := l + e
  if m = 2 ^ l then (if k = 0 then .fin 0 0 else .fin k 0)
  else
    let f (p : Nat) : Int :=
      let y := toFix p m (-(l : Int))
      (k * 2 ^ p + lnFix p y * 2 ^ p / ln2Fix p).natAbs
    let (v, q) := settleFix f 480 3
    cutVal (decide (k < 0)) v q false

/-- sin x or cos x for a finite non-zero x. -/
def trigX (cosine : Bool) (m : Int) (e : Int) : XVal :=
  let lead := leadExp m.natAbs e
  if lead < -400 then
    if cosine then cutVal false (2 ^ 300 - 1) (-300) false
    else cutVal (decide (m < 0)) (m.natAbs * 2 ^ 300 - 1) (e - 300) false
  else
    let sv (p : Nat) : Int :=
      let p2 := p + (max lead 0).toNat + 8
      let x := toFix p2 m e
      let half := piFix p2 / 2
      let q := (x + half / 2) / half
      let r := (x - q * half) / 2 ^ (p2 - p)
      let quad := (q + (if cosine then 1 else 0)) % 4
      match quad.toNat with
      | 0 => sinFix p r
      | 1 => cosFix p r
      | 2 => -(sinFix p r)
      | _ => -(cosFix p r)
    let p0 := 480 + (-lead).toNat
    let neg := decide (sv p0 < 0)
    let (v, q) := settleFix (fun p => (sv p).natAbs) p0 3
    cutVal neg v q false

/-- g ÷ (1 + e^−g) × h for finite g and h, neither zero (R254). -/
def siluX (gm : Int) (ge : Int) (hm : Int) (he : Int) : XVal :=
  let neg := decide (gm < 0) != decide (hm < 0)
  let mag := gm.natAbs * hm.natAbs
  let e := ge + he
  let lead := leadExp gm.natAbs ge
  if lead < -200 then cutVal neg (mag * 2 ^ 200) (e - 201) false
  else if 9 ≤ lead then
    if 0 < gm then cutVal neg (mag * 2 ^ 200 - 1) (e - 200) false
    else cutVal neg 1 (-3000) false
  else
    let a : Int := gm.natAbs
    let f (p : Nat) : Int :=
      let x := toFix p a ge
      let l2 := ln2Fix p
      let n := x / l2
      let r := x - n * l2
      let en := 2 ^ (2 * p) / expFix p r / 2 ^ n.toNat
      let one : Int := 2 ^ p
      let s := if 0 < gm then one * one / (one + en) else en * one / (one + en)
      s
    let (v, q) := settleFix f 1600 1
    cutVal neg (v * mag) (q + e) false

/-! ### The narrow family (R91 to R99) -/

/-- Precision, signedness and infinities of a P3109 code (R91). -/
def p3109P (c : Nat) : Nat := c % 8
def p3109Uns (c : Nat) : Bool := c / 16 % 2 == 1
def p3109Inf (c : Nat) : Bool := c / 8 % 2 == 1
def p3109T (c : Nat) : Nat := p3109P c - 1
def p3109W (c : Nat) : Nat := if p3109Uns c then 9 - p3109P c else 8 - p3109P c
def p3109Bias (c : Nat) : Int := 2 ^ (p3109W c - 1)

/-- The magnitude that an unsigned code field holds (R92, R93). -/
def p3109Mag (c x : Nat) : Nat × Int :=
  let t := p3109T c
  let e := x / 2 ^ t
  let tr := x % 2 ^ t
  if e = 0 then (tr, 1 - p3109Bias c - t) else (2 ^ t + tr, (e : Int) - p3109Bias c - t)

/-- The value of an 8-bit code (R92, R93). -/
def p3109Value (c x : Nat) : XVal :=
  if p3109Uns c then
    if x = 0xFF then .nan
    else if p3109Inf c ∧ x = 0xFE then .inf false
    else mkFin false (p3109Mag c x).1 (p3109Mag c x).2
  else
    if x = 0x80 then .nan
    else if p3109Inf c ∧ x % 128 = 0x7F then .inf (decide (128 ≤ x))
    else if x % 128 = 0 then .fin 0 0
    else mkFin (decide (128 ≤ x)) (p3109Mag c (x % 128)).1 (p3109Mag c (x % 128)).2

/-- The code of the largest finite magnitude (R94). -/
def p3109MaxCode (c : Nat) : Nat :=
  if p3109Uns c then (if p3109Inf c then 0xFD else 0xFE) else (if p3109Inf c then 0x7E else 0x7F)

def p3109Nan (c : Nat) : Nat := if p3109Uns c then 0xFF else 0x80
def p3109InfCode (c : Nat) (neg : Bool) : Nat := if p3109Uns c then 0xFE else if neg then 0xFF else 0x7F
def p3109Signed (c code : Nat) (neg : Bool) : Nat := if !p3109Uns c && neg then code + 0x80 else code

/-- SatTo (R99): saturation codes 0 SATFIN, 1 SATINF, 2 OVFNAN. -/
def satTo (c : Nat) (x : XVal) (sat : Nat) (rm : Rm) (snan : Bool) : Nat × Flags :=
  match x with
  | .nan => (p3109Nan c, flagIf snan flagNV)
  | .negZero => (0, 0)
  | .inf neg =>
    if p3109Uns c ∧ neg then (if sat = 2 then p3109Nan c else 0, flagNV)
    else if sat = 0 then (p3109Signed c (p3109MaxCode c) neg, 0)
    else if p3109Inf c then (p3109InfCode c neg, 0)
    else if sat = 1 then (p3109Signed c (p3109MaxCode c) neg, 0)
    else (p3109Nan c, 0)
  | .fin m e =>
    if m = 0 then (0, 0)
    else
      let neg := decide (m < 0)
      let t := p3109T c
      let emin := 1 - p3109Bias c
      let (n, q, exact, nu, qu) := roundGrid t emin neg m.natAbs e rm
      let small := flagIf (!exact) flagNX ||| flagIf (!exact && !atLeast nu qu emin) flagUF
      if n = 0 then (0, flagNX ||| flagUF)
      else if p3109Uns c ∧ neg then (if sat = 2 then p3109Nan c else 0, flagNV)
      else
        let big := p3109Mag c (p3109MaxCode c)
        if ltX (.fin big.1 big.2) (.fin n q) then
          let fl := flagOF ||| flagNX
          if sat = 2 then (p3109Nan c, fl)
          else if sat = 1 ∧ p3109Inf c then (p3109InfCode c neg, fl)
          else (p3109Signed c (p3109MaxCode c) neg, fl)
        else
          let (n, q) := if n = 2 ^ (t + 1) then (n / 2, q + 1) else (n, q)
          let code := if n < 2 ^ t then n else (q + t + p3109Bias c).toNat * 2 ^ t + (n - 2 ^ t)
          (p3109Signed c code neg, small)

/-- FP4 codes (R95); 0b1000 is the FP16 extra value. -/
def fp4Value (x xv : Nat) : XVal :=
  if x = 8 then fp16.value xv
  else
    let e := x / 2 % 4
    let t := x % 2
    if e = 0 then mkFin (decide (8 ≤ x)) t (-1) else mkFin (decide (8 ≤ x)) (2 + t) ((e : Int) - 2)

/-- Conversion into FP4 (R97). -/
def toFp4 (x : XVal) (rm : Rm) : Nat × Flags :=
  match x with
  | .nan => (0, flagNV)
  | .negZero => (0, 0)
  | .inf neg => (if neg then 15 else 7, flagOF)
  | .fin m e =>
    if m = 0 then (0, 0)
    else
      let neg := decide (m < 0)
      let (n, q, exact, nu, qu) := roundGrid 1 0 neg m.natAbs e rm
      let s := if neg then 8 else 0
      if n = 0 then (0, flagNX ||| flagUF)
      else if ltX (.fin 6 0) (.fin n q) then (s + 7, flagOF ||| flagNX)
      else
        let (n, q) := if n = 4 then (2, q + 1) else (n, q)
        let code := if n < 2 then n else (q + 2).toNat * 2 + (n - 2)
        (s + code, flagIf (!exact) flagNX ||| flagIf (!exact && !atLeast nu qu 0) flagUF)

/-- Rounds to an integer under a mode. -/
def toInteger (x : XVal) (rm : Rm) : Option (Int × Bool) :=
  match x with
  | .fin m e =>
    let (n, exact) := roundMag (decide (m < 0)) m.natAbs e 0 rm
    some (if m < 0 then -(n : Int) else n, exact)
  | .negZero => some (0, true)
  | _ => none

/-- Conversion to an integer between two bounds (R100). -/
def toBounded (lo hi : Int) (x : XVal) (rm : Rm) : Int × Flags :=
  match x with
  | .nan => (0, flagNV)
  | .inf neg => (if neg then lo else hi, flagNV)
  | _ =>
    match toInteger x rm with
    | some (n, exact) =>
      if n < lo then (lo, flagNV) else if hi < n then (hi, flagNV) else (n, flagIf (!exact) flagNX)
    | none => (0, flagNV)

/-- The value of an element of the formats of R91 (matrix and conversions): code, bits, extra value. -/
def elementValue (fmt x xv : Nat) : XVal :=
  match fmt with
  | 0 => ofInt (toSigned x 8)
  | 1 => ofInt (x % 256)
  | 2 => fp4Value (x % 16) xv
  | 3 => fp16.value (x % 65536)
  | 4 => bf16.value (x % 65536)
  | f => p3109Value f (x % 256)

/-- A block scale (R101). -/
def scaleValue (e : Nat) : XVal := if e = 255 then .nan else .fin 1 ((e : Int) - 127)

/-! ### The stochastic generator (R88, R89) -/

/-- Draw: the next state of a lane's generator. -/
def drawNext (g : Word) : Word :=
  let h := g >>> 1
  if g.getLsbD 0 then h ^^^ 0x80200003 else h

/-- Seed(k, n). -/
def seed (k n : Nat) : Word :=
  let x := (k * 0x9E3779B9 + (n + 1) * 0x85EBCA6B) % 2 ^ 32
  let x := x ^^^ (x / 65536)
  BitVec.ofNat 32 (if x = 0 then 1 else x)

end Sys2Proof.Machine
end

