-- ==== Sys2Proof/Machine/Flags.lean ====
section
/-!
DEFINITION. Rounding in force (R86, R133), draws of the stochastic generators (R87, R88), the FFLAGS of R85, and the
element-wise shape of floating instructions (R82, R107).
-/
namespace Sys2Proof.Machine

/-- The rounding code in force: 7 takes FRM (R86). -/
def modeOf (g : Group) (code : Nat) : Nat := if code = 7 then g.frm.toNat else code

/-- A mode with the draw it uses, if it is RSR. -/
def rmOf (mode u : Nat) : Rm :=
  match mode with
  | 0 => .rne
  | 1 => .rtz
  | 2 => .rdn
  | 3 => .rup
  | _ => .rsr u

/-- The generator of a lane (R88). -/
def Group.generator (g : Group) (lane : Nat) : Word := g.gen.getD lane 1

/-- Adds flags to FFLAGS (R85). -/
def orFlags (s : State) (gid : Nat) (f : Flags) : State := s.setGroup gid (fun g => { g with fflags := g.fflags ||| f })

def setGenerator (s : State) (gid lane : Nat) (w : Word) : State := s.setGroup gid (fun g => { g with gen := g.gen.put lane w })

/-- The format and the number of elements of a class 2 operation (R76). -/
def fmtOf : FFmt → Fmt × Nat
  | .f32 => (fp32, 1)
  | .f64 => (fp64, 1)
  | .f16 => (fp16, 1)
  | .bf16 => (bf16, 1)
  | .f16x2 => (fp16, 2)
  | .bf16x2 => (bf16, 2)

/-- Element e of a value of n-bit elements (R82). -/
def elemAt (bits x e : Nat) : Nat := x / 2 ^ (bits * e) % 2 ^ bits

/-- An element-wise result: each element rounds with its own draw, in increasing order (R87). `draws` says whether the
operation rounds. -/
def elements (draws : Bool) (mode bits : Nat) (op : Nat → Rm → Nat × Flags) : Nat → Nat → Word → Nat × Flags × Word
  | 0, _, g => (0, 0, g)
  | k + 1, e, g =>
    let g' := if draws ∧ mode = 4 then drawNext g else g
    let (x, f) := op e (rmOf mode g'.toNat)
    let (xs, fs, g'') := elements draws mode bits op k (e + 1) g'
    (x + 2 ^ bits * xs, f ||| fs, g'')

/-- The immediate of a floating operand (R57). -/
def fImm (f : FFmt) (imm : BitVec 32) : Nat :=
  match f with
  | .f64 => imm.toNat * 2 ^ 32
  | _ => imm.toNat

/-- Registers of a format on the vector side. -/
def fRegs (f : FFmt) : Nat := if f = .f64 then 2 else 1

/-- Abs clears and Neg inverts the sign of each element (R60). -/
def fMods (f : FFmt) (m : Mods) (x : Nat) : Nat :=
  let (fm, k) := fmtOf f
  (List.range k).foldl (fun y e =>
    let v := elemAt fm.bits x e
    let v := if m.abs then v % fm.signBit else v
    let v := if m.neg then (v + fm.signBit) % (2 * fm.signBit) else v
    y + v * 2 ^ (fm.bits * e)) 0

/-- The result of a floating instruction in every acting lane, or on the scalar side (R133): `op` reads the operands of
a lane and gives the operation of each element. Under RSR a packed scalar-side operation draws once for each element, from the
lowest lane of G: R87 says both that it draws once and that every result element draws (DESIGN CHOICE, log 129). -/
def floatOp (s : State) (c : Ctx) (f : FFmt) (draws : Bool) (code : Nat) (d : Dst)
    (op : (Nat ⊕ Unit) → Nat → Rm → Nat × Flags) : State :=
  let (fm, k) := fmtOf f
  let mode := modeOf c.g code
  match d with
  | .v r =>
    (lanesOf c.act).foldl (fun s l =>
      let (x, fl, gn) := elements draws mode fm.bits (op (.inl l)) k 0 (c.g.generator l)
      let s := setVregs s c.gid r.toNat l (fRegs f) x
      let s := orFlags s c.gid fl
      if draws ∧ mode = 4 then setGenerator s c.gid l gn else s) s
  | _ =>
    let l := lowestLane c.act
    let (x, fl, gn) := elements draws mode fm.bits (op (.inr ())) k 0 (c.g.generator l)
    let s := setDstScalar s c.gid d x
    let s := orFlags s c.gid fl
    if draws ∧ mode = 4 then setGenerator s c.gid l gn else s

/-- A floating source in a lane or on the scalar side. -/
def fSrc (s : State) (c : Ctx) (f : FFmt) (imm : BitVec 32) (a : Src) : (Nat ⊕ Unit) → Nat
  | .inl l => srcLane s c (fRegs f) (fImm f imm) a l
  | .inr _ => srcScalar s c (fImm f imm) a

/-- Source A with its modifiers. -/
def fSrcMod (s : State) (c : Ctx) (f : FFmt) (imm : BitVec 32) (m : Mods) (a : Src) : (Nat ⊕ Unit) → Nat
  | .inl l => fMods f m (srcModLane s c (fRegs f) (fImm f imm) m a l)
  | .inr _ => fMods f m (srcScalar s c (fImm f imm) a)

/-- RoundTo with the invalid flag of an operation and the signalling inputs (R84, R85). -/
def roundWith (fm : Fmt) (x : XVal) (rm : Rm) (invalid : Bool) (extra : Flags) : Nat × Flags :=
  let (r, f) := roundTo fm x rm
  (r, f ||| flagIf invalid flagNV ||| extra)

end Sys2Proof.Machine
end

