-- ==== Sys2Proof/Machine/Integer.lean ====
section
/-!
DEFINITION. Class 1: integer and address instructions (R124 to R131).
-/
namespace Sys2Proof.Machine

/-- Element width and count of a class 1 width (R76). -/
def iShape : IWidth → Nat × Nat
  | .w32 => (32, 1)
  | .w64 => (64, 1)
  | .p16 => (16, 2)
  | .p8 => (8, 4)

def iRegs (w : IWidth) : Nat := if w = .w64 then 2 else 1

/-- The immediate of an integer operand (R57). -/
def iImm (w : IWidth) (imm : BitVec 32) : Nat := if w = .w64 then sext32 imm else imm.toNat

/-- Element e of a value. -/
def iElem (w : IWidth) (x e : Nat) : Nat := x / 2 ^ ((iShape w).1 * e) % 2 ^ (iShape w).1

/-- Builds a value from its elements. -/
def iBuild (w : IWidth) (f : Nat → Nat) : Nat :=
  (List.range (iShape w).2).foldl (fun y e => y + (f e % 2 ^ (iShape w).1) * 2 ^ ((iShape w).1 * e)) 0

/-- Abs, then Neg, in two's complement with wrap (R60). -/
def iMods (w : IWidth) (m : Mods) (x : Nat) : Nat :=
  iBuild w (fun e =>
    let v := toSigned (iElem w x e) (iShape w).1
    let v := if m.abs then (v.natAbs : Int) else v
    let v := if m.neg then -v else v
    truncInt v (iShape w).1)

/-- A result in every acting lane, or on the scalar side: `f` reads the operands of a lane. -/
def intOp (s : State) (c : Ctx) (n : Nat) (d : Dst) (f : (Nat ⊕ Unit) → Nat) : Res :=
  match d with
  | .v r => .done (setDstLanes s c r.toNat n (fun l => f (.inl l)))
  | _ => .done (setDstScalar s c.gid d (f (.inr ())))

/-- An integer source of `n` registers in a lane or on the scalar side. -/
def iSrc (s : State) (c : Ctx) (n immv : Nat) (a : Src) : (Nat ⊕ Unit) → Nat
  | .inl l => srcLane s c n immv a l
  | .inr _ => srcScalar s c immv a

/-- Source A with its modifiers at a width. -/
def iSrcMod (s : State) (c : Ctx) (w : IWidth) (immv : Nat) (m : Mods) (a : Src) : (Nat ⊕ Unit) → Nat
  | .inl l => iMods w m (srcModLane s c (iRegs w) immv m a l)
  | .inr _ => iMods w m (srcScalar s c immv a)

/-- A two-source operation, element by element. -/
def int2 (w : IWidth) (o : Ops2) (f : Nat → Nat → Nat) (c : Ctx) (s : State) : Res :=
  intOp s c (iRegs w) o.d (fun l =>
    let a := iSrcMod s c w (iImm w o.imm) o.mods o.a l
    let b := iSrc s c (iRegs w) (iImm w o.imm) o.b l
    iBuild w (fun e => f (iElem w a e) (iElem w b e)))

/-- A one-source operation, element by element. -/
def int1 (w : IWidth) (o : Ops1) (f : Nat → Nat) (c : Ctx) (s : State) : Res :=
  intOp s c (iRegs w) o.d (fun l =>
    let a := iSrcMod s c w (iImm w o.imm) o.mods o.a l
    iBuild w (fun e => f (iElem w a e)))

/-- A shift (R125, R127): the count is 32 bits wide at widths 32 and 64, element by element in packed forms. -/
def intShift (w : IWidth) (o : Ops2) (f : Nat → Nat → Nat) (c : Ctx) (s : State) : Res :=
  intOp s c (iRegs w) o.d (fun l =>
    let a := iSrcMod s c w (iImm w o.imm) o.mods o.a l
    let b := iSrc s c 1 o.imm.toNat o.b l % 2 ^ 32
    iBuild w (fun e => f (iElem w a e) (if (iShape w).2 = 1 then b else iElem w b e)))

/-! ### Element results (R126 to R128) -/

def iAdd (w : Nat) (a b : Nat) : Nat := (a + b) % 2 ^ w
def iSub (w : Nat) (a b : Nat) : Nat := (a + 2 ^ w - b % 2 ^ w) % 2 ^ w
def iMul (w : Nat) (a b : Nat) : Nat := a * b % 2 ^ w
def iMulh (w : Nat) (uns : Bool) (a b : Nat) : Nat :=
  if uns then a * b / 2 ^ w % 2 ^ w else truncInt (toSigned a w * toSigned b w / 2 ^ w) w
def iMin (w : Nat) (uns : Bool) (a b : Nat) : Nat :=
  if uns then min a b else if toSigned a w ≤ toSigned b w then a else b
def iMax (w : Nat) (uns : Bool) (a b : Nat) : Nat :=
  if uns then max a b else if toSigned a w ≤ toSigned b w then b else a
def iAbs (w : Nat) (a : Nat) : Nat := truncInt ((toSigned a w).natAbs : Int) w
def iAndn (w : Nat) (a b : Nat) : Nat := a &&& (2 ^ w - 1 - b % 2 ^ w)
def iShl (w : Nat) (a n : Nat) : Nat := if n < w then a * 2 ^ n % 2 ^ w else 0
def iShr (w : Nat) (a n : Nat) : Nat := if n < w then a / 2 ^ n else 0
def iSar (w : Nat) (a n : Nat) : Nat := truncInt (toSigned a w / 2 ^ (if n < w then n else w - 1)) w
def iRotl (w : Nat) (a n : Nat) : Nat := (a * 2 ^ (n % w) + a / 2 ^ (w - n % w)) % 2 ^ w
def iPopc (w : Nat) (a : Nat) : Nat := ((List.range w).filter (fun i => a.testBit i)).length
def iClz (w : Nat) (a : Nat) : Nat := if a = 0 then w else w - 1 - Nat.log2 a
def iBrev (w : Nat) (a : Nat) : Nat :=
  (List.range w).foldl (fun y i => if a.testBit i then y + 2 ^ (w - 1 - i) else y) 0

/-- The field mask of R128. -/
def fieldMask (w b : Nat) : Nat :=
  let n := min (bitField b 8 8) w
  let p := bitField b 0 8
  if w ≤ p then 0 else (2 ^ n - 1) * 2 ^ p % 2 ^ w

def iBfx (w : Nat) (uns : Bool) (a b : Nat) : Nat :=
  let n := min (bitField b 8 8) w
  let p := bitField b 0 8
  if n = 0 ∨ w ≤ p then 0
  else
    let f := a / 2 ^ p % 2 ^ n
    if uns then f else truncInt (toSigned f n) w

def iBfi (w : Nat) (a b c : Nat) : Nat :=
  let m := fieldMask w b
  (c &&& (2 ^ w - 1 - m)) ||| (a * 2 ^ bitField b 0 8 % 2 ^ w &&& m)

/-! ### The instructions -/

/-- IADD (R126). -/
def execIadd (h : Hdr) (w : IWidth) (o : Ops2) (s : State) : Host.Outcome State Fault Refusal :=
  .next (runInstr (.iadd h w o) false (int2 w o (iAdd (iShape w).1)) s)

/-- ISUB (R126). -/
def execIsub (h : Hdr) (w : IWidth) (o : Ops2) (s : State) : Host.Outcome State Fault Refusal :=
  .next (runInstr (.isub h w o) false (int2 w o (iSub (iShape w).1)) s)

/-- IMUL (R126). -/
def execImul (h : Hdr) (w : IWidth) (o : Ops2) (s : State) : Host.Outcome State Fault Refusal :=
  .next (runInstr (.imul h w o) false (int2 w o (iMul (iShape w).1)) s)

/-- IMULH (R126). -/
def execImulh (h : Hdr) (w : IWidth) (uns : Bool) (o : Ops2) (s : State) : Host.Outcome State Fault Refusal :=
  .next (runInstr (.imulh h w uns o) false (int2 w o (iMulh (iShape w).1 uns)) s)

/-- IMAD (R126). -/
def execImad (h : Hdr) (w : IWidth) (o : Ops3) (s : State) : Host.Outcome State Fault Refusal :=
  .next (runInstr (.imad h w o) false (fun c s =>
    intOp s c (iRegs w) o.d (fun l =>
      let a := iSrcMod s c w (iImm w o.imm) o.mods o.a l
      let b := iSrc s c (iRegs w) (iImm w o.imm) o.b l
      let k := iSrc s c (iRegs w) (iImm w o.imm) o.c l
      iBuild w (fun e => iElem w a e * iElem w b e + iElem w k e))) s)

/-- IMIN (R126). -/
def execImin (h : Hdr) (w : IWidth) (uns : Bool) (o : Ops2) (s : State) : Host.Outcome State Fault Refusal :=
  .next (runInstr (.imin h w uns o) false (int2 w o (iMin (iShape w).1 uns)) s)

/-- IMAX (R126). -/
def execImax (h : Hdr) (w : IWidth) (uns : Bool) (o : Ops2) (s : State) : Host.Outcome State Fault Refusal :=
  .next (runInstr (.imax h w uns o) false (int2 w o (iMax (iShape w).1 uns)) s)

/-- IABS (R126). -/
def execIabs (h : Hdr) (w : IWidth) (o : Ops1) (s : State) : Host.Outcome State Fault Refusal :=
  .next (runInstr (.iabs h w o) false (int1 w o (iAbs (iShape w).1)) s)

/-- AND (R126). -/
def execAnd (h : Hdr) (w : IWidth) (o : Ops2) (s : State) : Host.Outcome State Fault Refusal :=
  .next (runInstr (.and h w o) false (int2 w o (fun a b => a &&& b)) s)

/-- OR (R126). -/
def execOr (h : Hdr) (w : IWidth) (o : Ops2) (s : State) : Host.Outcome State Fault Refusal :=
  .next (runInstr (.or h w o) false (int2 w o (fun a b => a ||| b)) s)

/-- XOR (R126). -/
def execXor (h : Hdr) (w : IWidth) (o : Ops2) (s : State) : Host.Outcome State Fault Refusal :=
  .next (runInstr (.xor h w o) false (int2 w o (fun a b => a ^^^ b)) s)

/-- ANDN (R126). -/
def execAndn (h : Hdr) (w : IWidth) (o : Ops2) (s : State) : Host.Outcome State Fault Refusal :=
  .next (runInstr (.andn h w o) false (int2 w o (iAndn (iShape w).1)) s)

/-- SHL (R127). -/
def execShl (h : Hdr) (w : IWidth) (o : Ops2) (s : State) : Host.Outcome State Fault Refusal :=
  .next (runInstr (.shl h w o) false (intShift w o (iShl (iShape w).1)) s)

/-- SHR (R127). -/
def execShr (h : Hdr) (w : IWidth) (o : Ops2) (s : State) : Host.Outcome State Fault Refusal :=
  .next (runInstr (.shr h w o) false (intShift w o (iShr (iShape w).1)) s)

/-- SAR (R127). -/
def execSar (h : Hdr) (w : IWidth) (o : Ops2) (s : State) : Host.Outcome State Fault Refusal :=
  .next (runInstr (.sar h w o) false (intShift w o (iSar (iShape w).1)) s)

/-- ROTL (R127). -/
def execRotl (h : Hdr) (w : IWidth) (o : Ops2) (s : State) : Host.Outcome State Fault Refusal :=
  .next (runInstr (.rotl h w o) false (intShift w o (iRotl (iShape w).1)) s)

/-- BFX (R128). -/
def execBfx (h : Hdr) (w : IWidth) (uns : Bool) (o : Ops2) (s : State) : Host.Outcome State Fault Refusal :=
  .next (runInstr (.bfx h w uns o) false (intShift w o (iBfx (iShape w).1 uns)) s)

/-- BFI (R128). -/
def execBfi (h : Hdr) (w : IWidth) (o : Ops3) (s : State) : Host.Outcome State Fault Refusal :=
  .next (runInstr (.bfi h w o) false (fun c s =>
    intOp s c (iRegs w) o.d (fun l =>
      let a := iSrcMod s c w (iImm w o.imm) o.mods o.a l
      let b := iSrc s c 1 o.imm.toNat o.b l % 2 ^ 32
      let k := iSrc s c (iRegs w) (iImm w o.imm) o.c l
      iBfi (iShape w).1 (a % 2 ^ (iShape w).1) b (k % 2 ^ (iShape w).1))) s)

/-- POPC (R126). -/
def execPopc (h : Hdr) (w : IWidth) (o : Ops1) (s : State) : Host.Outcome State Fault Refusal :=
  .next (runInstr (.popc h w o) false (int1 w o (iPopc (iShape w).1)) s)

/-- CLZ (R126). -/
def execClz (h : Hdr) (w : IWidth) (o : Ops1) (s : State) : Host.Outcome State Fault Refusal :=
  .next (runInstr (.clz h w o) false (int1 w o (iClz (iShape w).1)) s)

/-- BREV (R126). -/
def execBrev (h : Hdr) (w : IWidth) (o : Ops1) (s : State) : Host.Outcome State Fault Refusal :=
  .next (runInstr (.brev h w o) false (int1 w o (iBrev (iShape w).1)) s)

/-- SEL (R130): the guard selects; every lane of em acts. -/
def execSel (h : Hdr) (w : IWidth) (o : Ops2) (s : State) : Host.Outcome State Fault Refusal :=
  .next (runInstr (.sel h w o) true (fun c s =>
    if c.em = 0 then .done s
    else
      let ce := { c with act := c.em }
      intOp s ce (iRegs w) o.d (fun l =>
        let a := iSrcMod s ce w (iImm w o.imm) o.mods o.a l
        let b := iSrc s ce (iRegs w) (iImm w o.imm) o.b l
        let takeA := match l with
          | .inl l => c.act.getLsbD l
          | .inr _ => c.act != 0
        (if takeA then a else b) % 2 ^ (iShape w).1)) s)

/-- MOV (R126). -/
def execMov (h : Hdr) (w : IWidth) (o : Ops1) (s : State) : Host.Outcome State Fault Refusal :=
  .next (runInstr (.mov h w o) false (int1 w o id) s)

/-- LEA (R129). -/
def execLea (h : Hdr) (sh : BitVec 2) (uns : Bool) (o : Ops2) (s : State) : Host.Outcome State Fault Refusal :=
  .next (runInstr (.lea h sh uns o) false (fun c s =>
    intOp s c 2 o.d (fun l =>
      let a := match l with
        | .inl l => srcModLane s c 2 (sext32 o.imm) o.mods o.a l
        | .inr _ => srcScalar s c (sext32 o.imm) o.a
      let b : Nat := iSrc s c 1 o.imm.toNat o.b l % 2 ^ 32
      let x : Int := if uns then (b : Int) else toSigned b 32
      truncInt (a + x * 2 ^ sh.toNat) 64)) s)

/-- The conditions of ICMP (R131). -/
def icond (w : Nat) (uns : Bool) (k : ICond) (a b : Nat) : Bool :=
  let x : Int := if uns then a else toSigned a w
  let y : Int := if uns then b else toSigned b w
  match k with
  | .eq => x == y
  | .ne => x != y
  | .lt => decide (x < y)
  | .le => decide (x ≤ y)
  | .gt => decide (y < x)
  | .ge => decide (y ≤ x)

/-- A compare's mask (R131): lane by lane on the vector side, one result for all of G on the scalar side. -/
def compareMask (s : State) (c : Ctx) (m : BitVec 3) (vec : Bool) (f : (Nat ⊕ Unit) → Bool) : State :=
  let new := if vec then lanesWhere c.act (fun l => f (.inl l)) else if f (.inr ()) then c.act else 0
  setMask s c.gid m.toNat c.act new

def srcIsVec : Src → Bool
  | .v _ => true
  | _ => false

/-- ICMP (R131). -/
def execIcmp (h : Hdr) (w : IWidth) (uns : Bool) (k : ICond) (o : OpsCmp) (s : State) : Host.Outcome State Fault Refusal :=
  .next (runInstr (.icmp h w uns k o) false (fun c s =>
    .done (compareMask s c o.m (srcIsVec o.a || srcIsVec o.b) (fun l =>
      let a := iSrcMod s c w (iImm w o.imm) o.mods o.a l
      let b := iSrc s c (iRegs w) (iImm w o.imm) o.b l
      icond (iShape w).1 uns k (a % 2 ^ (iShape w).1) (b % 2 ^ (iShape w).1)))) s)

end Sys2Proof.Machine
end

