-- ==== Sys2Proof/Machine/Floating.lean ====
section
/-!
DEFINITION. Class 2: floating-point instructions (R132 to R143).
-/
namespace Sys2Proof.Machine

/-- The flag that signalling inputs set (R85). -/
def snanFlag (fm : Fmt) (xs : List Nat) : Flags := flagIf (xs.any (fun x => fm.isSnan x)) flagNV

/-- A two-source operation that rounds (R134): the exact value and whether it is invalid. -/
def float2 (f : FFmt) (o : Ops2) (op : Rm → XVal → XVal → XVal × Bool) (c : Ctx) (s : State) : Res :=
  let fm := (fmtOf f).1
  .done (floatOp s c f true 7 o.d (fun l e rm =>
    let a := elemAt fm.bits (fSrcMod s c f o.imm o.mods o.a l) e
    let b := elemAt fm.bits (fSrc s c f o.imm o.b l) e
    let (x, inv) := op rm (fm.value a) (fm.value b)
    roundWith fm x rm inv (snanFlag fm [a, b])))

/-- FADD (R134). -/
def execFadd (h : Hdr) (f : FFmt) (o : Ops2) (s : State) : Host.Outcome State Fault Refusal :=
  .next (runInstr (.fadd h f o) false (float2 f o addX) s)

/-- FSUB (R134). -/
def execFsub (h : Hdr) (f : FFmt) (o : Ops2) (s : State) : Host.Outcome State Fault Refusal :=
  .next (runInstr (.fsub h f o) false (float2 f o (fun rm a b => addX rm a b.negate)) s)

/-- FMUL (R134). -/
def execFmul (h : Hdr) (f : FFmt) (o : Ops2) (s : State) : Host.Outcome State Fault Refusal :=
  .next (runInstr (.fmul h f o) false (float2 f o (fun _ a b => mulX a b)) s)

/-- FFMA (R134): one rounding; 0 × ∞ is invalid whatever C holds. -/
def execFfma (h : Hdr) (f : FFmt) (o : Ops3) (s : State) : Host.Outcome State Fault Refusal :=
  .next (runInstr (.ffma h f o) false (fun c s =>
    let fm := (fmtOf f).1
    .done (floatOp s c f true 7 o.d (fun l e rm =>
      let a := elemAt fm.bits (fSrcMod s c f o.imm o.mods o.a l) e
      let b := elemAt fm.bits (fSrc s c f o.imm o.b l) e
      let k := elemAt fm.bits (fSrc s c f o.imm o.c l) e
      let (p, i1) := mulX (fm.value a) (fm.value b)
      let (x, i2) := addX rm p (fm.value k)
      roundWith fm x rm (i1 || i2) (snanFlag fm [a, b, k])))) s)

/-- The lesser or greater element (R135). -/
def minMax (fm : Fmt) (greater : Bool) (a b : Nat) : Nat × Flags :=
  let fl := snanFlag fm [a, b]
  if fm.isNan a ∧ fm.isNan b then (fm.nanBits, fl)
  else if fm.isNan a then (b, fl)
  else if fm.isNan b then (a, fl)
  else
    let bLess := ltZ (fm.value b) (fm.value a)
    (if greater then (if bLess then a else b) else (if bLess then b else a), fl)

def floatMinMax (f : FFmt) (greater : Bool) (o : Ops2) (c : Ctx) (s : State) : Res :=
  let fm := (fmtOf f).1
  .done (floatOp s c f false 7 o.d (fun l e _ =>
    minMax fm greater (elemAt fm.bits (fSrcMod s c f o.imm o.mods o.a l) e) (elemAt fm.bits (fSrc s c f o.imm o.b l) e)))

/-- FMIN (R135). -/
def execFmin (h : Hdr) (f : FFmt) (o : Ops2) (s : State) : Host.Outcome State Fault Refusal :=
  .next (runInstr (.fmin h f o) false (floatMinMax f false o) s)

/-- FMAX (R135). -/
def execFmax (h : Hdr) (f : FFmt) (o : Ops2) (s : State) : Host.Outcome State Fault Refusal :=
  .next (runInstr (.fmax h f o) false (floatMinMax f true o) s)

/-- The conditions of FCMP (R136) and the flag they set. -/
def fcond (fm : Fmt) (k : FCond) (a b : Nat) : Bool × Flags :=
  let un := fm.isNan a || fm.isNan b
  let x := fm.value a
  let y := fm.value b
  let quiet := snanFlag fm [a, b]
  let loud := flagIf un flagNV
  match k with
  | .eq => (eqX x y, quiet)
  | .ne => (!eqX x y, quiet)
  | .lt => (ltX x y, loud)
  | .le => (ltX x y || eqX x y, loud)
  | .gt => (ltX y x, loud)
  | .ge => (ltX y x || eqX x y, loud)
  | .un => (un, quiet)
  | .ord => (!un, quiet)

/-- FCMP (R136). -/
def execFcmp (h : Hdr) (f : FFmt) (k : FCond) (o : OpsCmp) (s : State) : Host.Outcome State Fault Refusal :=
  .next (runInstr (.fcmp h f k o) false (fun c s =>
    let fm := (fmtOf f).1
    let vec := srcIsVec o.a || srcIsVec o.b
    let r (l : Nat ⊕ Unit) : Bool × Flags :=
      fcond fm k (elemAt fm.bits (fSrcMod s c f o.imm o.mods o.a l) 0) (elemAt fm.bits (fSrc s c f o.imm o.b l) 0)
    let fl := if vec then (lanesOf c.act).foldl (fun fl l => fl ||| (r (.inl l)).2) 0 else (r (.inr ())).2
    .done (orFlags (compareMask s c o.m vec (fun l => (r l).1)) c.gid fl)) s)

/-- A one-source function (R138): its value on finite inputs, and its special inputs with flags. -/
def floatFn (f : FFmt) (o : Ops1) (fn : XVal → XVal × Flags) (c : Ctx) (s : State) : Res :=
  let fm := (fmtOf f).1
  .done (floatOp s c f true 7 o.d (fun l e rm =>
    let a := elemAt fm.bits (fSrcMod s c f o.imm o.mods o.a l) e
    let (x, fl) := fn (fm.value a)
    let (r, g) := roundTo fm x rm
    (r, g ||| fl ||| snanFlag fm [a])))

/-- 1 ÷ x and its special inputs (R138). -/
def fnRcp : XVal → XVal × Flags
  | .nan => (.nan, 0)
  | .inf n => (if n then .negZero else .fin 0 0, 0)
  | .negZero => (.inf true, flagDZ)
  | .fin m e => if m = 0 then (.inf false, flagDZ) else (rcpX m e, 0)

def fnRsq : XVal → XVal × Flags
  | .nan => (.nan, 0)
  | .inf n => if n then (.nan, flagNV) else (.fin 0 0, 0)
  | .negZero => (.inf true, flagDZ)
  | .fin m e => if m = 0 then (.inf false, flagDZ) else if m < 0 then (.nan, flagNV) else (rsqX m.natAbs e, 0)

def fnSqrt : XVal → XVal × Flags
  | .nan => (.nan, 0)
  | .inf n => if n then (.nan, flagNV) else (.inf false, 0)
  | .negZero => (.negZero, 0)
  | .fin m e => if m = 0 then (.fin 0 0, 0) else if m < 0 then (.nan, flagNV) else (sqrtX m.natAbs e, 0)

def fnEx2 : XVal → XVal × Flags
  | .nan => (.nan, 0)
  | .inf n => (if n then .fin 0 0 else .inf false, 0)
  | .negZero => (.fin 1 0, 0)
  | .fin m e => (exp2X m e, 0)

def fnLg2 : XVal → XVal × Flags
  | .nan => (.nan, 0)
  | .inf n => if n then (.nan, flagNV) else (.inf false, 0)
  | .negZero => (.inf true, flagDZ)
  | .fin m e => if m = 0 then (.inf true, flagDZ) else if m < 0 then (.nan, flagNV) else (log2X m.natAbs e, 0)

def fnSin : XVal → XVal × Flags
  | .nan => (.nan, 0)
  | .inf _ => (.nan, flagNV)
  | .negZero => (.negZero, 0)
  | .fin m e => if m = 0 then (.fin 0 0, 0) else (trigX false m e, 0)

def fnCos : XVal → XVal × Flags
  | .nan => (.nan, 0)
  | .inf _ => (.nan, flagNV)
  | .negZero => (.fin 1 0, 0)
  | .fin m e => if m = 0 then (.fin 1 0, 0) else (trigX true m e, 0)

/-- FRCP (R138). -/
def execFrcp (h : Hdr) (f : FFmt) (o : Ops1) (s : State) : Host.Outcome State Fault Refusal :=
  .next (runInstr (.frcp h f o) false (floatFn f o fnRcp) s)

/-- FRSQ (R138). -/
def execFrsq (h : Hdr) (f : FFmt) (o : Ops1) (s : State) : Host.Outcome State Fault Refusal :=
  .next (runInstr (.frsq h f o) false (floatFn f o fnRsq) s)

/-- FSQRT (R138). -/
def execFsqrt (h : Hdr) (f : FFmt) (o : Ops1) (s : State) : Host.Outcome State Fault Refusal :=
  .next (runInstr (.fsqrt h f o) false (floatFn f o fnSqrt) s)

/-- FEX2 (R138). -/
def execFex2 (h : Hdr) (f : FFmt) (o : Ops1) (s : State) : Host.Outcome State Fault Refusal :=
  .next (runInstr (.fex2 h f o) false (floatFn f o fnEx2) s)

/-- FLG2 (R138). -/
def execFlg2 (h : Hdr) (f : FFmt) (o : Ops1) (s : State) : Host.Outcome State Fault Refusal :=
  .next (runInstr (.flg2 h f o) false (floatFn f o fnLg2) s)

/-- FSIN (R138). -/
def execFsin (h : Hdr) (f : FFmt) (o : Ops1) (s : State) : Host.Outcome State Fault Refusal :=
  .next (runInstr (.fsin h f o) false (floatFn f o fnSin) s)

/-- FCOS (R138). -/
def execFcos (h : Hdr) (f : FFmt) (o : Ops1) (s : State) : Host.Outcome State Fault Refusal :=
  .next (runInstr (.fcos h f o) false (floatFn f o fnCos) s)

/-! ### FCVT (R141, R142) -/

/-- Element width of a type code. -/
def cvtBits (t : Nat) : Nat :=
  match t with
  | 2 => 4
  | 3 | 4 | 10 => 16
  | 8 | 11 => 32
  | 9 | 12 => 64
  | _ => 8

/-- IEEE formats by type code. -/
def cvtFmt (t : Nat) : Option Fmt :=
  match t with
  | 3 => some fp16
  | 4 => some bf16
  | 8 => some fp32
  | 9 => some fp64
  | _ => none

/-- The exact value of an element, and whether it signals: an FP4 code sets no flag in a conversion into FP32 or FP64,
whatever its extra value is (R99). -/
def cvtRead (t dt xv x : Nat) : XVal × Bool :=
  match cvtFmt t with
  | some f => (f.value x, f.isSnan x)
  | none =>
    match t with
    | 10 => (ofInt (toSigned x 16), false)
    | 11 => (ofInt (toSigned x 32), false)
    | 12 => (ofInt (toSigned x 64), false)
    | 2 => (fp4Value x xv, x == 8 && fp16.isSnan xv && dt != 8 && dt != 9)
    | t => (elementValue t x xv, false)

/-- Writes a value in a type, with flags (R142). -/
def cvtWrite (t : Nat) (x : XVal) (snan : Bool) (sat : Nat) (rm : Rm) : Nat × Flags :=
  match cvtFmt t with
  | some f =>
    let (r, fl) := roundTo f x rm
    (r, fl ||| flagIf snan flagNV)
  | none =>
    let int (w : Nat) (lo hi : Int) : Nat × Flags :=
      let (n, fl) := toBounded lo hi x rm
      (truncInt n w, fl)
    match t with
    | 0 => int 8 (-128) 127
    | 1 => int 8 0 255
    | 2 => toFp4 x rm
    | 10 => int 16 (-32768) 32767
    | 11 => int 32 (-(2 ^ 31)) (2 ^ 31 - 1)
    | 12 => int 64 (-(2 ^ 63)) (2 ^ 63 - 1)
    | t => satTo t x sat rm snan

/-- Replaces element k of a value (R142). -/
def putElem (bits k old new : Nat) : Nat :=
  old - elemAt bits old k * 2 ^ (bits * k) + new * 2 ^ (bits * k)

/-- FCVT (R142). -/
def execFcvt (h : Hdr) (o : CvtOps) (s : State) : Host.Outcome State Fault Refusal :=
  .next (runInstr (.fcvt h o) false (fun c s =>
    let st := o.srct.toNat
    let dt := o.dstt.toNat
    let sw := cvtBits st
    let dw := cvtBits dt
    let mode := modeOf c.g o.rnd.toNat
    let xv := (c.g.xv.getD o.xv.toNat 0x8000).toNat
    let one (a old : Nat) (gen : Word) : Nat × Flags × Word :=
      let gen := if mode = 4 then drawNext gen else gen
      let (x, snan) := cvtRead st dt xv (elemAt sw a o.j.toNat)
      let (y, fl) := cvtWrite dt x snan o.sat.toNat (rmOf mode gen.toNat)
      (if dw = 64 then y else putElem dw o.k.toNat old y, fl, gen)
    let sn := if sw = 64 then 2 else 1
    match o.d with
    | .v r =>
      let dn := if dw = 64 then 2 else 1
      .done ((lanesOf c.act).foldl (fun s l =>
        let (y, fl, gen) := one (srcModLane s c sn 0 o.mods o.a l) (c.g.vregs r.toNat l dn) (c.g.generator l)
        let s := orFlags (setVregs s c.gid r.toNat l dn y) c.gid fl
        if mode = 4 then setGenerator s c.gid l gen else s) s)
    | d =>
      let l := lowestLane c.act
      let old := match d with
        | .s r => (c.g.sreg r.toNat).toNat
        | _ => 0
      let (y, fl, gen) := one (srcScalar s c 0 o.a) old (c.g.generator l)
      let s := orFlags (setDstScalar s c.gid d y) c.gid fl
      .done (if mode = 4 then setGenerator s c.gid l gen else s)) s)

/-! ### FCLS, FRND, FSCL -/

/-- The class bit of a code (R137). -/
def classOf (fm : Fmt) (x : Nat) : Nat :=
  let neg := fm.neg x
  if fm.isSnan x then 8
  else if fm.isNan x then 9
  else if fm.exp x = 2 ^ fm.w - 1 then (if neg then 0 else 7)
  else if fm.exp x = 0 then
    if fm.trail x = 0 then (if neg then 3 else 4) else (if neg then 2 else 5)
  else if neg then 1 else 6

/-- FCLS (R137). -/
def execFcls (h : Hdr) (f : FFmt) (scalar : Bool) (mods : Mods) (m : BitVec 3) (a : Src) (set : BitVec 10) (s : State) :
    Host.Outcome State Fault Refusal :=
  .next (runInstr (.fcls h f scalar mods m a set) false (fun c s =>
    let fm := (fmtOf f).1
    .done (compareMask s c m (!scalar) (fun l => set.getLsbD (classOf fm (elemAt fm.bits (fSrcMod s c f 0 mods a l) 0))))) s)

/-- An element rounded to an integral value (R140): zeros and infinities pass, the sign stays. -/
def roundIntegral (fm : Fmt) (x : Nat) (rm : Rm) : Nat × Flags :=
  match fm.value x with
  | .nan => (fm.nanBits, flagIf (fm.isSnan x) flagNV)
  | .fin m e =>
    if m = 0 then (x, 0)
    else
      let neg := decide (m < 0)
      let (n, exact) := roundMag neg m.natAbs e 0 rm
      ((roundTo fm (mkFin neg n 0) .rtz).1, flagIf (!exact) flagNX)
  | _ => (x, 0)

/-- FRND (R140). -/
def execFrnd (h : Hdr) (f : FFmt) (scalar : Bool) (mods : Mods) (d : Dst) (a : Src) (rnd : BitVec 3) (s : State) :
    Host.Outcome State Fault Refusal :=
  .next (runInstr (.frnd h f scalar mods d a rnd) false (fun c s =>
    let fm := (fmtOf f).1
    .done (floatOp s c f true rnd.toNat d (fun l e rm => roundIntegral fm (elemAt fm.bits (fSrcMod s c f 0 mods a l) e) rm))) s)

/-- a × 2^n, exact (R139). -/
def scaleBy (x : XVal) (n : Int) : XVal :=
  match x with
  | .fin m e => if m = 0 then .fin 0 0 else .fin m (e + n)
  | x => x

/-- FSCL (R139): the count is a 32-bit integer, or a 16-bit one for each packed element (R132). -/
def execFscl (h : Hdr) (f : FFmt) (o : Ops2) (s : State) : Host.Outcome State Fault Refusal :=
  .next (runInstr (.fscl h f o) false (fun c s =>
    let (fm, k) := fmtOf f
    .done (floatOp s c f true 7 o.d (fun l e rm =>
      let a := elemAt fm.bits (fSrcMod s c f o.imm o.mods o.a l) e
      let b := iSrc s c 1 o.imm.toNat o.b l
      let n := if k = 1 then toSigned b 32 else toSigned (elemAt 16 b e) 16
      roundWith fm (scaleBy (fm.value a) n) rm false (snanFlag fm [a])))) s)

end Sys2Proof.Machine
end

