-- ==== Sys2Proof/Machine/Links.lean ====
section
/-!
DEFINITION. The queues between decoupled units (R52): sequenced entries, acknowledgements and resends.
-/
namespace Sys2Proof.Machine

/-- A number for a receiver. -/
def Receiver.code : Receiver → Nat
  | .truss d => d
  | .peer => 4
  | .coll d => 8 + d
  | .slice d n => 16 + d * 64 + n

/-- The entries that a core has sent to a receiver and that are not yet acknowledged. -/
def unacked (s : State) (core : Nat) (dest : Receiver) : List QEntry := s.queue.filter (fun e => e.core == core && e.dest == dest)

/-- The sender may send `n` more entries: it keeps at most the last 16. -/
def mayYetSend (s : State) (core : Nat) (dest : Receiver) (n : Nat) : Bool := decide ((unacked s core dest).length + n ≤ 16)

/-- Sends one entry. -/
def sendEntry (s : State) (core gid : Nat) (dest : Receiver) (p : Payload) : State :=
  let (id, s) := s.fresh
  let key := core * 512 + dest.code
  let q := s.seqs.getD key 0
  { s with seqs := s.seqs.put key (q + 1),
           queue := s.queue ++ [{ id := id, core := core, gid := gid, dest := dest, seq := q, payload := p, state := .sent }] }

def setEntry (s : State) (id : Nat) (st : EntryState) : State :=
  { s with queue := s.queue.map (fun e => if e.id = id then { e with state := st } else e) }

/-- The entry has reached its receiver in order: it is one of the 16 that its sender keeps, later ones being still to be sent, and no
earlier one is still to be accepted. -/
def entryDue (s : State) (e : QEntry) : Bool :=
  e.state == .sent && decide (((unacked s e.core e.dest).filter (fun f => decide (f.seq < e.seq))).length < 16) && s.queue.all (fun f => !(f.core == e.core && f.dest == e.dest && decide (f.seq < e.seq) && f.state != .accepted))

/-- A full receiver drops the entry and answers negatively. -/
def refuseEntry (s : State) (e : QEntry) : State := setEntry s e.id (.nacked s.clk)

def State.entry? (s : State) (id : Nat) : Option QEntry := s.queue.find? (fun e => e.id == id)

/-- QUEUE_ENTRY_ACK (R52). What the peer fabric accepts it acknowledges in the same step, unless its queue is full: its length and
its state are not this module's, so that the step says so (log 152). -/
def execQueueEntryAck (ack : EntryAck) (s : State) : Host.Outcome State Fault Refusal :=
  .next (
    match s.entry? ack.entry with
    | some e =>
      let acked : State := { s with queue := s.queue.filter (fun f => f.id != ack.entry) }
      match e.payload with
      | .peer _ => if !entryDue s e then s else if ack.full then refuseEntry s e else acked
      | _ => if e.state = .accepted then acked else s
    | none => s)

/-- QUEUE_NACK_RESEND (R52): after BACKOFF clk the dropped entry and every later one go again. -/
def execQueueNackResend (entry : Nat) (s : State) : Host.Outcome State Fault Refusal :=
  .next (
    match s.entry? entry with
    | some e =>
      match e.state with
      | .nacked t =>
        let wait := ((s.groups.get? e.gid).map (fun g => g.backoff.toNat)).getD 64
        if s.clk < t + wait then s
        else
          let again (f : QEntry) : Bool := f.core == e.core && f.dest == e.dest && decide (e.seq ≤ f.seq) && f.state != .accepted
          { s with queue := s.queue.map (fun f => if again f then { f with state := .sent } else f) }
      | _ => s
    | none => s)

end Sys2Proof.Machine
end

