-- ==== Sys2Proof/Machine/Pairs.lean ====
section
/-!
DEFINITION. Results of variable latency (R64) and the pairs of a checked launch: what a primary presents, what its
shadow compares, and how results reach both (R169, R332 to R334).
-/
namespace Sys2Proof.Machine

/-! ### Results -/

/-- Values to write into a register: a lane's word, a scalar's value, or a lane's mask bit. -/
abbrev Writes := List (RegRef × List (Nat × Nat))

/-- Writes values into a group's registers. -/
def writeRef (g : Group) (w : RegRef × List (Nat × Nat)) : Group :=
  match w.1 with
  | .v r => { g with v := w.2.foldl (fun v x => Map.putD v 0 (r * 32 + x.1) (BitVec.ofNat 32 x.2)) g.v }
  | .s r => { g with s := w.2.foldl (fun m x => Map.putD m 0 r (BitVec.ofNat 64 x.2)) g.s }
  | .cm n =>
    if n = 7 then g
    else
      let lanes := ofLanes (w.2.map (·.1))
      let new := ofLanes ((w.2.filter (fun x => x.2 != 0)).map (·.1))
      { g with cm := Map.putD g.cm 0 n (mergeLanes lanes (g.cm.getD n 0) new) }

def writeRefs (g : Group) (ws : Writes) : Group := ws.foldl writeRef g

/-- A result is no longer awaited. -/
def Group.clearPend (g : Group) (tok : Nat) : Group := { g with pend := g.pend.filter (fun p => p.tok != tok) }

/-- What a group takes of a result that overwrites earlier ones too early (R65): in each lane of those this result or the earlier one,
a free choice. -/
def takeWrites (s : State) (gid tok : Nat) (ws : Writes) : Writes × State :=
  let kept := (((s.groups.get? gid).bind (fun g => g.pend.find? (fun p => p.tok == tok))).map (·.kept)).getD []
  kept.foldl (fun (a : Writes × State) k =>
    let (b, s) := a.2.freeBool
    (if b then a.1.map (fun w => if w.1 = k.1 then (w.1, w.2.filter (fun x => x.1 != k.2)) else w) else a.1, s)) (ws, s)

/-- A result of the primary's n-th instruction reaches the group and, in a checked launch, its shadow: at once, or when
the shadow issues its n-th (R332). -/
def deliver (s : State) (gid n tok : Nat) (ws : Writes) : State :=
  let (mine, s) := takeWrites s gid tok ws
  let s := s.setGroupKept gid (fun g => (writeRefs g mine).clearPend tok)
  if slotOf gid < 32 ∧ checkedGroup s gid then
    let (its, s) := takeWrites s (gid + 32) tok ws
    s.setGroup (gid + 32) (fun g =>
      if n < g.issued then (writeRefs g its).clearPend tok else { g with results := g.results ++ [(n, ws)] })
  else s

/-- Marks registers as awaiting a result in these lanes (R64). -/
def addPend (s : State) (gid tok : Nat) (refs : List RegRef) (lanes : LaneMask) : State :=
  if refs.isEmpty then s
  else s.setGroup gid (fun g => { g with pend := g.pend ++ [⟨tok, refs, lanes, []⟩] })

/-- A result that an instruction will receive. -/
def newTok (s : State) (k : Tok) (refs : List RegRef) : Nat × State :=
  let (t, s) := s.fresh
  (t, addPend { s with toks := s.toks.put t k } k.gid t refs k.lanes)

/-! ### Pairs -/

/-- One thing that a pair compares: the code of R333, the lane, the value. -/
abbrev Item := Nat × Nat × Nat

/-- What a group is in its launch. -/
inductive Role where
  | alone | primary | shadow
  deriving DecidableEq, Repr

def roleOf (s : State) (c : Ctx) : Role :=
  if isPrimary s c.gid c.g then .primary else if isShadow s c.gid c.g then .shadow else .alone

/-- The primary presents what its instruction would send (R333); where `waits`, it issues nothing more before the comparison. -/
def present (s : State) (c : Ctx) (code : Nat) (items : List Item) (waits : Bool) : State :=
  let k : Cmp := { gid := c.gid, n := c.g.issued, code := code, items := items, g := c.g, split := c.si, em := c.em,
                   act := c.act, since := s.clk, waits := waits }
  { s with cmps := s.cmps ++ [k] }

/-- The first difference between two lists of items: its code and its lane. -/
def firstDifference : List Item → List Item → Option (Nat × Nat)
  | [], [] => none
  | a :: _, [] => some (a.1, a.2.1)
  | [], b :: _ => some (b.1, b.2.1)
  | a :: t, b :: u => if a = b then firstDifference t u else some (a.1, min a.2.1 b.2.1)

/-- What the primary presented for the shadow's present instruction. -/
def presented (s : State) (c : Ctx) : Option Cmp := s.cmps.find? (fun k => k.gid + 32 == c.gid && k.n == c.g.issued)

/-- The shadow compares: a mismatch, or the machine with the primary's accesses released. -/
def compare (s : State) (c : Ctx) (items : List Item) : State × Bool :=
  match presented s c with
  | none => (shadowMismatch s (c.gid - 32) c.g.issued c.si 6 (lowestLane c.act) c.act, false)
  | some k =>
    match firstDifference k.items items with
    | some d => (shadowMismatch s (c.gid - 32) k.n k.split d.1 (d.2 % 32) k.act, false)
    | none =>
      let free (a : Acc) : Acc := if a.gid = some k.gid ∧ a.cmp = some k.n then { a with cmp := none } else a
      ({ s with cmps := s.cmps.filter (fun x => !(x.gid == k.gid && x.n == k.n)), accs := s.accs.map free }, true)

/-- The context in which the primary issued what the shadow now compares. -/
def primaryCtx (s : State) (c : Ctx) : Ctx :=
  match presented s c with
  | none => c
  | some k =>
    { c with gid := k.gid, si := k.split, g := k.g, sp := (k.g.splits.get? k.split).getD c.sp, em := k.em, act := k.act,
             pc := ((k.g.splits.get? k.split).map (·.pc)).getD c.pc }

/-- The shadow takes the primary's result for its present instruction, or waits for it (R332). -/
def takeResult (s : State) (c : Ctx) (refs : List RegRef) : State :=
  match ((s.groups.get? c.gid).map (·.results)).bind (fun rs => rs.find? (fun r => r.1 == c.g.issued)) with
  | some r =>
    s.setGroup c.gid (fun g => { writeRefs g r.2 with results := g.results.filter (fun x => x.1 != c.g.issued) })
  | none =>
    (s.toks.filter (fun p => p.2.gid + 32 == c.gid && p.2.n == c.g.issued)).foldl
      (fun s p => addPend s c.gid p.1 refs p.2.lanes) s

/-- An instruction whose accesses or results the pair shares. `items` is what is compared. Alone or in the primary it
acts at once (`act`); the shadow compares and takes the results. -/
def shared (s : State) (c : Ctx) (code : Nat) (items : List Item) (refs : List RegRef) (act : State → Res) : Res :=
  match roleOf s c with
  | .alone => act s
  | .primary => act (present s c code items false)
  | .shadow =>
    match compare s c items with
    | (s, true) => .done (takeResult s c refs)
    | (s, false) => .held s

/-- An instruction that acts once for the pair, after the comparison, in the context of the primary (R123, R261, R273,
R359, R375). `before` is what the primary does at its own issue; where `waits`, it issues nothing more before the comparison. -/
def actOnce (waits : Bool) (s : State) (c : Ctx) (code : Nat) (items : List Item) (refs : List RegRef) (before : State → State)
    (act : Ctx → State → Res) : Res :=
  match roleOf s c with
  | .alone =>
    act c (before s)
  | .primary => .done (before (present s c code items waits))
  | .shadow =>
    let p := primaryCtx s c
    match compare s c items with
    | (s, false) => .held s
    | (s, true) =>
      match act p s with
      | .done s => .done (takeResult s c refs)
      | .jump s => .done (takeResult s c refs)
      | .fault k e l => .held (takeFault (rewind s p.gid p.g.issued) p k e l)
      | r => r

/-- The same, where the primary goes on. -/
def afterCompare (s : State) (c : Ctx) (code : Nat) (items : List Item) (refs : List RegRef) (before : State → State)
    (act : Ctx → State → Res) : Res := actOnce false s c code items refs before act

/-- The issuing split parks at its instruction (R41). -/
def parkHere (s : State) (c : Ctx) (p : Park) : State := setSplit s c.gid c.si (fun q => q.parkAs p)

/-- The park of the primary's split at the shadow's instruction, if it still waits there (R169). -/
def primaryPark (s : State) (c : Ctx) : Option Park :=
  match (s.groups.get? (c.gid - 32)).bind (fun g => g.splits.get? c.si) with
  | none => none
  | some q =>
    if q.park.isSome ∧ q.pc = c.pc then q.park
    else (q.parts.find? (fun p => p.pc == c.pc && p.members == c.sp.members && p.ended.isNone)).map (·.park)

/-- The shadow waits where its primary does. -/
def parkAlike (s : State) (c : Ctx) : State :=
  match primaryPark s c with
  | some k => parkHere s c k
  | none => s

/-- A split of a group. -/
def splitAt (s : State) (gid si : Nat) : Option Split := (s.groups.get? gid).bind (·.splits.get? si)

def putSplit (s : State) (gid si : Nat) (sp : Option Split) : State :=
  match sp with
  | some sp => s.setGroup gid (fun g => { g with splits := g.splits.put si sp })
  | none => s

/-- An effect of a pair that cannot be taken back (R169, R191, R359): it takes place once, in the context of the primary, when the
shadow has reached the instruction and agrees, and the primary issues nothing in between. `mirror` is the shadow's own part where
the primary has parked, or lanes of it have left. -/
def together (s : State) (c : Ctx) (code : Nat) (items : List Item) (refs : List RegRef) (act : Ctx → State → Res)
    (mirror : State → Ctx → State) : Res :=
  match roleOf s c with
  | .alone => act c s
  | .primary => .done (present s c code items true)
  | .shadow =>
    let p := primaryCtx s c
    match compare s c items with
    | (s, false) => .held s
    | (s, true) =>
      match act p (putSplit s p.gid p.si ((snapOf s p.gid p.g.issued).bind (·.splits.get? p.si))) with
      | .done t => .done (takeResult (putSplit t p.gid p.si (splitAt s p.gid p.si)) c refs)
      | .jump t => .jump (takeResult (mirror t c) c refs)
      | .fault k e l => .held (takeFault (rewind s p.gid p.g.issued) p k e l)
      | r => r

end Sys2Proof.Machine
end

