-- ==== Sys2Proof/Machine/Memory.lean ====
section
/-!
DEFINITION. Class 4: loads, stores, prefetches, flushes and fences (R170 to R182), with the address checks (R174, R157)
that class 5 shares.
-/
namespace Sys2Proof.Machine

/-! ### Addresses -/

/-- The space that an access reaches. -/
inductive MSpace where
  | glb | scr
  | win (member : Bool)
  deriving DecidableEq, Repr

/-- The instruction is vector-side (R172, R183). -/
def vectorSide (a : Base) (b : Src) : Bool :=
  (match a with
   | .v _ => true
   | _ => false)
  || (match b with
      | .v _ => true
      | _ => false)

/-- The accesses of an instruction: one a lane, or one that belongs to every acting lane (R194). In a task group that
runs speculatively a scalar-side access is made once for each lane's task (log 23). 32 names no lane. -/
def unitsOf (s : State) (c : Ctx) (vec : Bool) : List (Nat × LaneMask) :=
  if vec || anySpec s c.g c.act then (lanesOf c.act).map (fun l => (l, laneBit l)) else [(32, c.act)]

/-- A source of the side that the instruction has, in a lane. -/
def sideSrc (s : State) (c : Ctx) (vec : Bool) (n : Nat) (a : Src) (lane : Nat) : Nat :=
  if vec then srcLane s c n 0 a lane else srcScalar s c 0 a

/-- The base of an address: 64 bits, or 32 for scratch (R172). -/
def baseOf (c : Ctx) (sp : MSpace) (b : Base) (lane : Nat) : Nat :=
  if sp = .scr then baseLane c 1 b lane % 2 ^ 32 else baseLane c 2 b lane

/-- ea of R174, exact. -/
def eaOf (s : State) (c : Ctx) (vec : Bool) (sp : MSpace) (o : AddrOps) (lane : Nat) : Int :=
  baseOf c sp o.a lane + toSigned (sideSrc s c vec 1 o.b lane) 32 * 2 ^ o.scale.toNat + o.off.toInt

/-- What an address check finds. -/
inductive Chk where
  | ok (pa : Nat) (uncached : Bool)
  | page (ipa : Nat) (stage2 : Bool)
  | access
  | remote (wa : Nat)
  /-- The member that the address names is saved and absent (R288): the access waits. -/
  | absent
  deriving DecidableEq, Repr

/-- The block that owns a window address, where it belongs to a block of a launch of the accessor's address space
(R180), with the register within the group's allocation (R28). -/
def windowOwner (s : State) (pa : Nat) : Option Nat :=
  match (windowOf pa).space with
  | 0 => scratchOwner s pa
  | 1 =>
    let (g, r, _, _) := windowReg pa
    match s.groups.get? g with
    | some gr => if r < gr.nregs then some gr.blk else none
    | none => none
  | _ => (s.bay (windowOf pa).core (bitField (windowOf pa).off 16 2)).owner

/-- The address belonged to a member of the accessor's cluster that has exited (R28). -/
def exitedPeer (s : State) (b : Block) (pa : Nat) : Bool :=
  let w := windowOf pa
  (b.peers.mapIdx (fun k p =>
    k != b.rank && (memberOf s b k).isNone && p.1 == w.core
      && (match w.space with
          | 0 => decide (p.2 ≤ w.off ∧ w.off < p.2 + b.scratchSize)
          | 1 => inSlots s b (slotOf (windowReg pa).1)
          | _ => (s.bay w.core (bitField w.off 16 2)).former == some (b.launch, b.stage, b.cluster, k)))).any id

/-- A physical window address is checked under R28 and R180. -/
def checkPhysWindow (s : State) (b : Block) (pasid pa : Nat) : Chk :=
  if 2 ^ 52 ≤ pa ∨ !windowOk pa then .access
  else
    match windowOwner s pa with
    | some o =>
      match (s.blocks.get? o).bind s.launchOf with
      | some l => if l.pasid = pasid then .ok pa false else .access
      | none => .access
    | none => if exitedPeer s b pa then .remote pa else .access

/-- The physical address that a member address names (R179). -/
def checkMember (s : State) (b : Block) (pasid va : Nat) : Chk :=
  let rank := bitField va 24 2
  let space := bitField va 22 2
  let off := bitField va 0 22
  if 2 ^ 26 ≤ va ∨ b.peers.length ≤ rank then .access
  else
    let p := b.peers.getD rank (b.core, b.scratchBase)
    let form : Option Nat :=
      match space with
      | 0 => if off < b.scratchSize then some (windowAddr p.1 0 (p.2 + off)) else none
      | 1 =>
        if bitField off 21 1 = 0 ∧ bitField off 15 6 < b.nGroups then
          some (windowAddr p.1 1 (off + b.firstSlot * 2 ^ 15))
        else none
      | 2 => if bitField off 18 4 = 0 then some (windowAddr p.1 2 off) else none
      | _ => none
    match form with
    | none => .access
    | some pa =>
      match memberOf s b rank with
      | none => .remote pa
      | some m => if m.2.sealed then .absent else checkPhysWindow s b pasid pa

/-- Bounds or translation of one access of `size` bytes (R174). An effective address beyond 64 bits is cut to its low 64 in every
space but scratch: the spec says so of global addresses only (log 139). -/
def checkAddr (s : State) (b : Block) (pasid : Nat) (sp : MSpace) (need : Need) (ea : Int) (size : Nat) : Chk × State :=
  let va := truncInt ea 64
  match sp with
  | .scr =>
    if ea < 0 ∨ (b.scratchSize : Int) < ea + size then (.access, s)
    else (.ok (scratchAddr b.core (b.scratchBase + va)) false, s)
  | .win false => (checkPhysWindow s b pasid va, s)
  | .win true => (checkMember s b pasid va, s)
  | .glb =>
    match translate s (dieOfCore b.core) pasid need va with
    | (.ok pa u, s) => (.ok pa u, s)
    | (.page i st, s) => (.page i st, s)
    | (.access, s) => (.access, s)

/-- One access that passed its checks. -/
structure Hit where
  lane : Nat
  lanes : LaneMask
  va : Nat
  pa : Nat
  uncached : Bool
  /-- The shoring reserved for the line that it writes (R319). -/
  room : Option Bool
  deriving DecidableEq, Repr

/-- The outcome of checking every access of an instruction. -/
inductive Checked where
  | stop (r : Res)
  | go (hits : List Hit) (s : State)
  deriving Repr

/-- What the checks answer by themselves. -/
def Checked.res (s : State) : Checked → Res
  | .stop r => r
  | .go _ _ => .done s

/-- The first access whose check satisfies `p`, and the lanes of all that do. -/
def failing (rs : List (Nat × LaneMask × Int × Chk)) (p : Chk → Bool) : Option ((Nat × LaneMask × Int × Chk) × LaneMask) :=
  let bad := rs.filter (fun r => p r.2.2.2)
  bad.head?.map (fun b => (b, bad.foldl (fun m r => m ||| r.2.1) 0))

/-- A class 5 access through a window reaches scratch only (R183). -/
def onlyScratch (only : Bool) : Chk → Chk
  | .ok pa u => if only && isWindow pa && (windowOf pa).space != 0 then .access else .ok pa u
  | k => k

def checkEach (s : State) (b : Block) (pasid : Nat) (sp : MSpace) (need : Need) (size : Nat) (only : Bool) :
    List (Nat × LaneMask × Int) → List (Nat × LaneMask × Int × Chk) × State
  | [] => ([], s)
  | (l, m, ea) :: t =>
    let (k, s) := checkAddr s b pasid sp need ea size
    let (rs, s) := checkEach s b pasid sp need size only t
    ((l, m, ea, onlyScratch only k) :: rs, s)

/-- Window accesses to registers and accumulators are 4 bytes wide (R28). -/
def narrowWindow (k : Chk) (size : Nat) : Bool :=
  match k with
  | .ok pa _ => isWindow pa && (windowOf pa).space != 0 && size != 4
  | _ => false

/-- An access is not naturally aligned (R174), or is not of a width that its window has. -/
def misaligned (size : Nat) (r : Nat × LaneMask × Int × Chk) : Bool := r.2.2.1 % (size : Int) != 0 || narrowWindow r.2.2.2 size

/-- The checks of R174 and R157 over all accesses: ACCESS_FAULT whatever other lanes meet, then REMOTE_EXITED, then PAGE_FAULT,
then MISALIGNED, then ECC_UNCORR for data that is read (R159). -/
def checkAccesses (s : State) (c : Ctx) (sp : MSpace) (need : Need) (size : Nat) (reads only : Bool)
    (us : List (Nat × LaneMask × Int)) : Checked :=
  let s0 := s
  let (rs, s) := checkEach s c.blk c.launch.pasid sp need size only us
  match failing rs (· == .access) with
  | some ((_, _, ea, _), m) => .stop (.fault .accessFault (BitVec.ofInt 64 ea) m)
  | none =>
    match failing rs (fun k => match k with | .remote _ => true | _ => false) with
    | some ((_, _, _, .remote wa), m) => .stop (.fault .remoteExited (BitVec.ofNat 64 wa) m)
    | _ =>
      match failing rs (fun k => match k with | .page _ _ => true | _ => false) with
      | some ((_, _, ea, .page ipa st), m) =>
        .stop (.held (pageFault s c (truncInt ea 64) ipa ((if st then 1 else 0) + (if need.w then 2 else 0)) m))
      | _ =>
        if rs.any (fun r => r.2.2.2 == .absent) then .stop (.held s0)
        else
          let off := rs.filter (misaligned size)
          match off with
          | r :: _ => .stop (.fault .misaligned (BitVec.ofInt 64 r.2.2.1) (off.foldl (fun m r => m ||| r.2.1) 0))
          | [] =>
            let hits := rs.filterMap (fun r =>
              match r.2.2.2 with
              | .ok pa u => some (Hit.mk r.1 r.2.1 (truncInt r.2.2.1 64) pa u none)
              | _ => none)
            let dead := if reads then hits.filter (fun h => (s.line (h.pa / 128)).poison) else []
            match dead with
            | h :: _ => .stop (.fault .eccUncorr (BitVec.ofNat 64 (h.pa - h.pa % 128)) (dead.foldl (fun m h => m ||| h.lanes) 0))
            | [] => .go hits s

/-- Memory whose home is not this module: the host, host bias, peers, and uncached pages (R321, R343). -/
def outsideMemory (s : State) (h : Hit) : Bool :=
  h.uncached || homedAtHost s h.pa || peerMemory s h.pa

def hitLanes (hs : List Hit) : LaneMask := hs.foldl (fun m h => m ||| h.lanes) 0

/-- Lanes in speculative mode (R343). -/
def specLanes (s : State) (c : Ctx) : LaneMask := lanesWhere c.act (laneSpec s c.g)

/-- The NESTING that a speculative lane, or a write in a level, meets (R321, R343). -/
def nestingOf (s : State) (c : Ctx) (sp : MSpace) (write : Bool) (hs : List Hit) : Option Res :=
  let out := hitLanes (hs.filter (outsideMemory s))
  if sp = .glb then
    if specLanes s c &&& out ≠ 0 then some (.fault .nesting 0 (specLanes s c &&& out))
    else if write ∧ 0 < c.blk.levels.length ∧ out ≠ 0 then some (.fault .nesting 0 out)
    else none
  else none

/-- The primary as it stands at the shadow's instruction. -/
def primaryNow (s : State) (c : Ctx) : Ctx :=
  match s.groups.get? (c.gid - 32) with
  | some g => { c with gid := c.gid - 32, g := g, sp := (g.splits.get? c.si).getD c.sp }
  | none => c

/-- What a shadow's own checks find where its primary waits with a fault: a fault, a deferred one, or none. -/
def ownCheck (s : State) (c : Ctx) : Res → Res
  | .fault k e l => .fault k e l
  | .held t => if anySpec s c.g c.act then .held t else .done s
  | _ => .done s

/-- A shadow whose primary has met a fault at its instruction meets the same one where its operands are the primary's; where they
differ its own checks say (R284). `items` are the operands that the fault may depend on, `checks` what those checks answer. -/
def mirrorFault (s : State) (c : Ctx) (items : Ctx → List Item) (checks : Res) (k : Res) : Res :=
  match primaryFault s c with
  | none => k
  | some w => if items (primaryNow s c) = items c then .fault w.cause w.eval w.lanes else ownCheck s c checks

/-! ### Entering the machine -/

/-- The task in whose slot a lane's access is buffered (R344). -/
def taskFor (s : State) (c : Ctx) (lane : Nat) : Option Nat := if laneSpec s c.g lane then c.g.tasks.get? lane else none

/-- An access of the executing instruction. -/
def accFor (s : State) (c : Ctx) (h : Hit) (kind : AKind) (size data data2 : Nat) (ord : Ord) (scope : Nat) (tok : Option Nat) :
    Acc :=
  { id := 0, gid := some c.gid, lanes := h.lanes, cmd := none, blk := some c.g.blk, core := some (coreOfGroup c.gid),
    die := dieOfGroup c.gid, kind := kind, va := h.va, pa := h.pa, size := size, data := data, data2 := data2, lane := h.lane,
    ord := ord, scope := scope, stage := if kind = .load then .pending else .buffered, val := 0, carry := [], need := [],
    tok := tok, cmp := if roleOf s c = .primary then some c.g.issued else none, depth := c.blk.levels.length,
    n := c.g.issued, pc := c.pc, uncached := h.uncached, task := taskFor s c (if h.lane = 32 then lowestLane h.lanes else h.lane),
    room := h.room, since := none }

/-- Issues accesses in order; answers their names. -/
def issueEach (s : State) : List Acc → List Nat × State
  | [] => ([], s)
  | a :: t =>
    let (i, s) := issueAcc s a
    let (is, s) := issueEach s t
    (i :: is, s)

/-- Accesses of an instruction to the memory of peers travel as one entry of its core (R388, R52, log 152). -/
def sendPeers (s : State) (as : List Acc) (ids : List Nat) : State :=
  match (as.zip ids).filter (fun x => peerMemory s x.1.pa) with
  | [] => s
  | (a, i) :: t => sendEntry s (a.core.getD 0) (a.gid.getD 0) .peer (.peer (i :: t.map (·.2)))

def issueAll (s : State) (as : List Acc) : List Nat × State :=
  let (ids, s) := issueEach s as
  (ids, sendPeers s as ids)

/-- The instruction would send a seventeenth unacknowledged entry to the peer fabric (R52). -/
def peerFull (s : State) (c : Ctx) (hs : List Hit) : Bool :=
  hs.any (fun h => peerMemory s h.pa) && !mayYetSend s (coreOfGroup c.gid) .peer 1

/-- Accesses that hold back the split's later ones (R207, R209). -/
def holdSplit (s : State) (c : Ctx) (ids : List Nat) : State :=
  s.setGroup c.gid (fun g => { g with splits := g.splits.map (fun p =>
    if p.2.uid = c.sp.uid then (p.1, { p.2 with hold := p.2.hold ++ ids }) else p) })

/-- One reservation of 144 bytes in a level of a block (R319): whether it lies in the spill area. -/
def reserveLine (s : State) (blk depth : Nat) : Option (Bool × State) :=
  (shoreRoom s blk 144).map (fun sp => (sp, s.setBlock blk (fun b => b.setLevel depth (fun l =>
    { l with reserved := if sp then (l.reserved.1, l.reserved.2 + 1) else (l.reserved.1 + 1, l.reserved.2) }))))

/-- Reserves shoring for each line that the acting lanes of a store or class 5 access write in a level (R319), but for speculative lanes
(R360): the accesses, the first of each line with its reservation, and the first for which there is no room, if any. -/
def reserveLines (s : State) (c : Ctx) : List Nat → List Hit → State × List Hit × Option Hit
  | _, [] => (s, [], none)
  | done, h :: t =>
    let line := h.pa / 128
    if c.blk.levels.isEmpty ∨ !isDevice h.pa ∨ done.contains line ∨ anySpec s c.g h.lanes then
      let (s, hs, r) := reserveLines s c done t
      (s, h :: hs, r)
    else
      match reserveLine s c.g.blk c.blk.levels.length with
      | none => (s, [], some h)
      | some (sp, s) =>
        let (s, hs, r) := reserveLines s c (line :: done) t
        (s, { h with room := some sp } :: hs, r)

/-- SHORE_FULL of a global line (R319). -/
def shoreFullLine (h : Hit) : Res := .fault .shoreFull (BitVec.ofNat 64 (2 * 2 ^ 62 + h.va % 2 ^ 57)) h.lanes

/-! ### Loads -/

def widthBytes : MWidth → Nat
  | .n8 | .i8 => 1
  | .n16 | .i16 => 2
  | .w32 => 4
  | .w64 => 8
  | .w128 => 16

def widthSigned (w : MWidth) : Bool := w = .i8 ∨ w = .i16

/-- The register that a load or class 5 access writes. -/
def dstOf : Src → Option RegRef
  | .v r => some (.v r.toNat)
  | .s r => some (.s r.toNat)
  | _ => none

/-- The lanes whose lines all hit in L1 under a lease (R42, R162). -/
def hitsL1 (s : State) (c : Ctx) (ord : Ord) (scope size : Nat) (h : Hit) : Bool :=
  let k := s.core (coreOfGroup c.gid)
  !((ord == .acquire || ord == .sc) && decide (4 ≤ scope)) && !h.uncached && !isWindow h.pa
    && (linesOf h.pa size).all (fun l => leased k l (s.die (dieOfGroup c.gid)).time)

/-- The lanes that an LDG sends to a split of their own (R42). -/
def missLanes (s : State) (c : Ctx) (vec : Bool) (ord : Ord) (scope size : Nat) (hs : List Hit) : LaneMask :=
  let miss := hitLanes (hs.filter (fun h => !hitsL1 s c ord scope size h))
  if !vec || !c.sp.stack.isEmpty || decide (4 ≤ c.g.splits.length) || c.launch.checked || anySpec s c.g c.act
      || miss == 0 || miss == c.act then 0
  else miss

/-- Issues the loads of some lanes as one result; `kept` marks those that a replica or an instruction cache may serve, but for lines of
uncached pages (R166). -/
def issueLoads (s : State) (c : Ctx) (o : MemOps) (hs : List Hit) (ord : Ord) (kept : Bool) : Nat × List Nat × State :=
  let k : Tok := { gid := c.gid, split := c.si, n := c.g.issued, lanes := hitLanes hs, dst := dstOf o.d,
                   size := widthBytes o.width, sext := widthSigned o.width, mask := none, pc := c.pc, vals := [], oks := [] }
  let (t, s) := newTok s k (refsSrc (mwN o.width) o.d)
  let (ids, s) := issueAll s (hs.map (fun h =>
    { accFor s c h .load (widthBytes o.width) 0 0 ord o.at_.scope.toNat (some t) with
      since := if kept && !h.uncached then some c.launch.since else none }))
  (t, ids, s)

/-- The accesses of a load or store: lane, lanes, ea. -/
def memUnits (s : State) (c : Ctx) (vec : Bool) (sp : MSpace) (o : AddrOps) : List (Nat × LaneMask × Int) :=
  (unitsOf s c vec).map (fun u => (u.1, u.2, eaOf s c vec sp o u.1))

/-- A load of any space (R175). `split` lets it miss-split; `kept` marks one that a replica or an instruction cache may serve, and
`after` what it leaves behind. -/
def loadBody (sp : MSpace) (need : Need) (o : MemOps) (split kept : Bool) (after : List Hit → State → State) (c : Ctx)
    (s : State) : Res :=
  let vec := vectorSide o.at_.a o.at_.b
  let us (c : Ctx) := memUnits s c vec sp o.at_
  let size := widthBytes o.width
  let items (c : Ctx) : List Item := (us c).map (fun u => (0, u.1, truncInt u.2.2 64))
  let refs := refsSrc (mwN o.width) o.d
  let checked : Checked :=
    if sp ≠ .glb ∧ specLanes s c ≠ 0 then .stop (.fault .nesting 0 (specLanes s c))
    else
      match checkAccesses s c sp need size true false (us c) with
      | .stop r => .stop r
      | .go hs s => ((nestingOf s c sp false hs).map Checked.stop).getD (.go hs s)
  mirrorFault s c items (checked.res s) <|
    if roleOf s c = .shadow then shared s c 0 (items c) refs (fun s => .done s)
    else
      match checked with
      | .stop r => r
      | .go hs s =>
          if peerFull s c hs then .wait else
          shared s c 0 (items c) refs (fun s =>
            let miss := if split then missLanes s c vec o.ord o.at_.scope.toNat size hs else 0
            let held (ids : List Nat) (s : State) : State :=
              if o.ord = .acquire ∨ o.ord = .sc then holdSplit s c ids else s
            if miss = 0 then
              let (_, ids, s) := issueLoads s c o hs o.ord kept
              .done (held ids (after hs s))
            else
              let hit := hs.filter (fun h => h.lanes &&& miss == 0)
              let (_, ids1, s) := issueLoads s c o hit o.ord kept
              let (t, ids2, s) := issueLoads s c o (hs.filter (fun h => h.lanes &&& miss != 0)) o.ord kept
              let s := held (ids1 ++ ids2) (after hs s)
              let (u, s) := s.fresh
              .done (s.setGroup c.gid (fun g =>
                match g.splits.get? c.si, freeIndex g with
                | some q, some i =>
                  let new : Split := { q with uid := u, pc := c.pc + 3, em := miss, members := miss, readySince := none,
                                              park := some (.load t), tag := [], stack := [], parts := [], woke := none }
                  { g with splits := (g.splits.put c.si { q with em := q.em &&& ~~~miss, members := q.members &&& ~~~miss }).put i new }
                | _, _ => g)))

/-- The replicas that rep loads leave (R167): of no uncached line (R166), and of none whose page changes its bias (R384). -/
def noteReplicas (c : Ctx) (hs : List Hit) (s : State) : State :=
  let slice (pa : Nat) : Nat := dieOfGroup c.gid * 64 + 4 * (bentOfCore (coreOfGroup c.gid) % 16) + sliceOf pa % 4
  let new : List (Nat × Nat) := (hs.filter (fun h => !h.uncached && !biasFrozen s h.pa)).map (fun h => (h.pa / 128, slice h.pa))
  s.setLaunch c.blk.launch (fun l => { l with replicas := (l.replicas ++ new).eraseDups })

/-- The lines that LDC keeps (R177) in an instruction cache of 512 lines (R14). -/
def noteLdc (c : Ctx) (hs : List Hit) (s : State) : State :=
  forAll hs s (fun h s =>
    let core := coreOfGroup c.gid
    let (m, s) := keepLine 512 s (s.core core).ldc (h.pa / 128) c.blk.launch
    s.setCore core (fun k => { k with ldc := m }))

/-- LDG (R175, R42, R167). -/
def execLdg (h : Hdr) (o : MemOps) (s : State) : Host.Outcome State Fault Refusal :=
  .next (runInstr (.ldg h o) false (fun c s =>
    loadBody .glb Need.load o true (o.sel.getLsbD 1) (if o.sel.getLsbD 1 then noteReplicas c else fun _ s => s) c s) s)

/-- LDS (R175). -/
def execLds (h : Hdr) (o : MemOps) (s : State) : Host.Outcome State Fault Refusal :=
  .next (runInstr (.lds h o) false (loadBody .scr Need.load o false false (fun _ s => s)) s)

/-- LDW (R175, R179). -/
def execLdw (h : Hdr) (o : MemOps) (s : State) : Host.Outcome State Fault Refusal :=
  .next (runInstr (.ldw h o) false (loadBody (.win (o.sel == 1)) Need.load o false false (fun _ s => s)) s)

/-- LDC (R177): no lease; its line stays in the instruction cache. -/
def execLdc (h : Hdr) (o : MemOps) (s : State) : Host.Outcome State Fault Refusal :=
  .next (runInstr (.ldc h o) false (fun c s => loadBody .glb Need.constant o false true (noteLdc c) c s) s)

/-! ### Stores -/

/-- The data of a store in a lane: the low bytes of D (R176). -/
def storeData (s : State) (c : Ctx) (vec : Bool) (o : MemOps) (lane : Nat) : Nat :=
  sideSrc s c vec (mwN o.width) o.d lane % 2 ^ (8 * widthBytes o.width)

/-- A store of any space (R176). -/
def storeBody (sp : MSpace) (o : MemOps) (c : Ctx) (s : State) : Res :=
  let vec := vectorSide o.at_.a o.at_.b
  let us (c : Ctx) := memUnits s c vec sp o.at_
  let size := widthBytes o.width
  let items (c : Ctx) : List Item := (us c).flatMap (fun u => [(1, u.1, truncInt u.2.2 64), (2, u.1, storeData s c vec o u.1)])
  let checked : Checked :=
    if sp ≠ .glb ∧ specLanes s c ≠ 0 then .stop (.fault .nesting 0 (specLanes s c))
    else
      match checkAccesses s c sp Need.store size false false (us c) with
      | .stop r => .stop r
      | .go hs s => ((nestingOf s c sp true hs).map Checked.stop).getD (.go hs s)
  mirrorFault s c items (checked.res s) <|
    if roleOf s c = .shadow then shared s c 1 (items c) [] (fun s => .done s)
    else
      match checked with
      | .stop r => r
      | .go hs s =>
          if peerFull s c hs then .wait else
          match reserveLines s c [] hs with
          | (_, _, some h) => shoreFullLine h
          | (s, hs, none) =>
            shared s c 1 (items c) [] (fun s =>
              let (ids, s) := issueAll s (hs.map (fun h =>
                accFor s c h .store size (storeData s c vec o h.lane) 0 o.ord o.at_.scope.toNat none))
              .done (if o.ord = .sc then holdSplit s c ids else s))

/-- STG (R176). -/
def execStg (h : Hdr) (o : MemOps) (s : State) : Host.Outcome State Fault Refusal :=
  .next (runInstr (.stg h o) false (storeBody .glb o) s)

/-- STS (R176). -/
def execSts (h : Hdr) (o : MemOps) (s : State) : Host.Outcome State Fault Refusal :=
  .next (runInstr (.sts h o) false (storeBody .scr o) s)

/-- STW (R176, R179). -/
def execStw (h : Hdr) (o : MemOps) (s : State) : Host.Outcome State Fault Refusal :=
  .next (runInstr (.stw h o) false (storeBody (.win (o.sel == 1)) o) s)

/-! ### PREF, CFLUSH, FENCE -/

/-- PREF to the L1 or the L2 (R178): the die's slice obtains the line, by a grant or from the host, and grants the L1 a lease for
level 0 (log 140). -/
def prefetchLine (c : Ctx) (lease : Bool) (h : Hit) (s : State) : State :=
  let a : Acc := { accFor s c h .load 1 0 0 .relaxed 0 none with id := s.nextId }
  let s := askGrant (bridgeRead s a.die a.pa 1 false) a
  if lease then grantLease s a else s

/-- PREF (R178): lanes whose address does not translate are ignored; its access is one byte (log 140), so that none is
misaligned. Level 0 asks for a lease, level 1 for the line at the slice, level 2 for a replica. -/
def execPref (h : Hdr) (level : BitVec 2) (o : AddrOps) (s : State) : Host.Outcome State Fault Refusal :=
  .next (runInstr (.pref h level o) false (fun c s =>
    let vec := vectorSide o.a o.b
    let us := memUnits s c vec .glb o
    let items : List Item := us.map (fun u => (0, u.1, truncInt u.2.2 64))
    afterCompare s c 0 items [] id (fun c s =>
      let (rs, s) := checkEach s c.blk c.launch.pasid .glb Need.load 1 false us
      let hs := rs.filterMap (fun r => match r.2.2.2 with | .ok pa u => some (Hit.mk r.1 r.2.1 (truncInt r.2.2.1 64) pa u none) | _ => none)
      let hs := hs.filter (fun h => !h.uncached && !peerMemory s h.pa)
      if anySpec s c.g c.act then .done s
      else
        match level.toNat with
        | 0 => .done (forAll hs s (prefetchLine c true))
        | 1 => .done (forAll hs s (prefetchLine c false))
        | _ => .done (noteReplicas c hs s))) s)

/-- CFLUSH (R181): a flush enters the store buffer; its operation code is that of FMT, its access one byte (log 140). -/
def execCflush (h : Hdr) (op : BitVec 2) (o : AddrOps) (s : State) : Host.Outcome State Fault Refusal :=
  .next (runInstr (.cflush h op o) false (fun c s =>
    let vec := vectorSide o.a o.b
    let us (c : Ctx) := memUnits s c vec .glb o
    let items (c : Ctx) : List Item := (us c).map (fun u => (1, u.1, truncInt u.2.2 64))
    let checked : Checked :=
      if specLanes s c ≠ 0 then .stop (.fault .nesting 0 (specLanes s c))
      else checkAccesses s c .glb Need.load 1 false false (us c)
    mirrorFault s c items (checked.res s) <|
      if roleOf s c = .shadow then shared s c 1 (items c) [] (fun s => .done s)
      else
        match checked with
        | .stop r => r
        | .go hs s =>
          if peerFull s c hs then .wait else
          shared s c 1 (items c) [] (fun s =>
            let (_, s) := issueAll s (hs.map (fun h => accFor s c h (.flush op.toNat) 1 0 0 .relaxed o.scope.toNat none))
            .done s)) s)

/-- The earlier accesses of a split's lanes. -/
def accessesOf (s : State) (gid : Nat) (em : LaneMask) : List Acc :=
  s.accs.filter (fun a => a.gid == some gid && (a.lanes &&& em) != 0)

/-- The split's own part in a release at a scope (R182): its loads have values and its writes are performed. -/
def ownPerformed (s : State) (gid : Nat) (em : LaneMask) (scope : Nat) : Bool :=
  (accessesOf s gid em).all (fun a => if a.isLoad then a.stage == .satisfied else performedAt s (dieOfGroup gid) scope a.id)

/-- A release by some lanes may take place at a scope (R182, R208, R210): their loads have values, and their writes and
the writes they have observed are performed. -/
def released (s : State) (gid : Nat) (em : LaneMask) (scope : Nat) : Bool :=
  ownPerformed s gid em scope && (observed s gid em).all (performedAt s (dieOfGroup gid) scope)

/-- The sets that earlier relaxed loads have read join the observed sets (R210). -/
def acquireSeen (s : State) (gid : Nat) (em : LaneMask) : State :=
  forAll (lanesOf em) s (fun l s =>
    { observe s gid l (s.seen.getD (threadId gid l) []) with seen := s.seen.del (threadId gid l) })

/-- FENCE (R182, R210): for every lane of em, whatever the guard leaves. It waits for the split's own accesses; the writes of others that
its lanes have observed hold back their later writes only. -/
def execFence (h : Hdr) (kind : Ord) (scope : BitVec 4) (s : State) : Host.Outcome State Fault Refusal :=
  .next (runInstr (.fence h kind scope) true (fun c s =>
    if roleOf s c = .shadow ∨ anySpec s c.g c.em then .done s
    else
      let acq := kind = .acquire ∨ kind = .sc
      let rel := kind = .release ∨ kind = .sc
      let loaded := (accessesOf s c.gid c.em).all (fun a => !a.isLoad || a.stage == .satisfied)
      if (acq ∧ !loaded) ∨ (rel ∧ !ownPerformed s c.gid c.em scope.toNat) then .wait
      else
        let s := if acq then dropLeases (acquireSeen s c.gid c.em) (some (coreOfGroup c.gid)) .acquire scope.toNat else s
        let s := if rel then
            forAll (lanesOf c.em) s (fun l s =>
              let th := threadId c.gid l
              let set := (s.obs.getD th []).map (fun i => (i, scope.toNat)) ++ s.fenced.getD th []
              { s with fenced := Map.putD s.fenced [] th (set.filter (fun w => (s.acc? w.1).isSome)).eraseDups })
          else s
        .done s) s)

end Sys2Proof.Machine
end

