-- ==== Sys2Proof/Machine/Atomics.lean ====
section
/-!
DEFINITION. Class 5 accesses to memory: atomics, reductions and the words of reader-writer locks (R183 to R188).
-/
namespace Sys2Proof.Machine

/-! ### What one request does to its word -/

/-- A sum rounded to nearest even, with the canonical NaN (R184). -/
def fSum (fm : Fmt) (a b : Nat) : Nat := (roundTo fm (addX .rne (fm.value a) (fm.value b)).1 .rne).1

/-- Combine of R184 at a width of `w` bits. -/
def combine (op : AtomOp) (w m v : Nat) : Nat :=
  let fm := if w = 64 then fp64 else fp32
  let m := m % 2 ^ w
  let v := v % 2 ^ w
  match op with
  | .add => (m + v) % 2 ^ w
  | .min => if toSigned v w < toSigned m w then v else m
  | .max => if toSigned m w < toSigned v w then v else m
  | .minu => min m v
  | .maxu => max m v
  | .and => m &&& v
  | .or => m ||| v
  | .xor => m ^^^ v
  | .exch => v
  | .fadd => fSum fm m v
  | .fmin => (minMax fm false m v).1
  | .fmax => (minMax fm true m v).1

/-- The fields of a reader-writer lock word (R188). -/
structure LockWord where
  pref : Bool
  held : Bool
  waiting : Nat
  readers : Nat
  deriving DecidableEq, Repr

def LockWord.ofNat (x : Nat) : LockWord :=
  { pref := x.testBit 63, held := x.testBit 62, waiting := bitField x 48 14, readers := bitField x 0 48 }

def LockWord.toNat (w : LockWord) : Nat :=
  (if w.pref then 2 ^ 63 else 0) + (if w.held then 2 ^ 62 else 0) + w.waiting * 2 ^ 48 + w.readers

/-- RDLK's update and whether it succeeded (R188). -/
def rdlkWord (w : LockWord) : LockWord × Bool :=
  if !w.held && (!w.pref || w.waiting == 0) && decide (w.readers < 2 ^ 48 - 1) then ({ w with readers := w.readers + 1 }, true)
  else (w, false)

/-- RDUL (R188). -/
def rdulWord (w : LockWord) : LockWord × Bool :=
  if w.readers ≠ 0 then ({ w with readers := w.readers - 1 }, true) else (w, false)

/-- WRLK; `again` is bit 0 of its operand (R188). -/
def wrlkWord (again : Bool) (w : LockWord) : LockWord × Bool :=
  if !w.held && w.readers == 0 then
    ({ w with held := true, waiting := if again && w.waiting != 0 then w.waiting - 1 else w.waiting }, true)
  else if !again && decide (w.waiting < 0x3FFF) then ({ w with waiting := w.waiting + 1 }, false)
  else (w, false)

/-- WRUL (R188). -/
def wrulWord (w : LockWord) : LockWord × Bool := if w.held then ({ w with held := false }, true) else (w, false)

/-- The new word that a class 5 access writes, if it writes one, and its ok bit. -/
def requestWord (a : Acc) (old : Nat) : Option Nat × Bool :=
  let lw (r : LockWord × Bool) : Option Nat × Bool := (some r.1.toNat, r.2)
  match a.kind with
  | .atom op _ => (some (combine op (8 * a.size) old a.data), true)
  | .cas => (if old = a.data then some a.data2 else none, true)
  | .rdlk => lw (rdlkWord (LockWord.ofNat old))
  | .rdul => lw (rdulWord (LockWord.ofNat old))
  | .wrlk => lw (wrlkWord (a.data.testBit 0) (LockWord.ofNat old))
  | .wrul => lw (wrulWord (LockWord.ofNat old))
  | _ => (none, true)

/-! ### Issuing class 5 accesses -/

def cspaceOf : CSpace → MSpace
  | .glb => .glb
  | .scr => .scr
  | .win => .win false
  | .mb => .win true

/-- A class 5 access of every acting lane (R183, R185). `swap` is what ACAS stores; `lockWord` marks R188. -/
def class5Body (kind : AKind) (ord : Ord) (o : AtomOps) (dst : Option RegRef) (mask : Option Nat) (refs : List RegRef)
    (swap : Ctx → State → Bool → Nat → Nat) (lockWord : Bool) (c : Ctx) (s : State) : Res :=
  let vec := vectorSide o.a o.b
  let sp := cspaceOf o.space
  let size := if o.wide then 8 else 4
  let n := if o.wide then 2 else 1
  let us (c : Ctx) : List (Nat × LaneMask × Int) := (unitsOf s c vec).map (fun u => (u.1, u.2, baseOf c sp o.a u.1 + o.off.toInt))
  let val (c : Ctx) (l : Nat) : Nat := sideSrc s c vec n o.b l % 2 ^ (8 * size)
  let items (c : Ctx) : List Item :=
    (us c).flatMap (fun u => [(1, u.1, truncInt u.2.2 64), (2, u.1, val c u.1), (2, u.1, swap c s vec u.1)])
  let checked : Checked :=
    if (sp ≠ .glb ∨ lockWord) ∧ specLanes s c ≠ 0 then .stop (.fault .nesting 0 (specLanes s c))
    else
      match checkAccesses s c sp Need.both size true true (us c) with
      | .stop r => .stop r
      | .go hs s => ((nestingOf s c sp true hs).map Checked.stop).getD (.go hs s)
  mirrorFault s c items (checked.res s) <|
    if roleOf s c = .shadow then shared s c 1 (items c) refs (fun s => .done s)
    else
      match checked with
      | .stop r => r
      | .go hs s =>
          if peerFull s c hs then .wait else
          match reserveLines s c [] hs with
          | (_, _, some h) => shoreFullLine h
          | (s, hs, none) =>
            shared s c 1 (items c) refs (fun s =>
              let k : Tok := { gid := c.gid, split := c.si, n := c.g.issued, lanes := hitLanes hs, dst := dst, size := size,
                               sext := false, mask := mask, pc := c.pc, vals := [], oks := [] }
              let silent := dst.isNone && mask.isNone
              let (t, s) := if silent then (none, s) else
                let (t, s) := newTok s k refs
                (some t, s)
              let (ids, s) := issueAll s (hs.map (fun h =>
                accFor s c h kind size (val c h.lane) (swap c s vec h.lane) ord o.scope.toNat t))
              .done (if ord = .acquire ∨ ord = .sc then holdSplit s c ids else s))

/-- The register that receives the old value; sz discards it. -/
def atomDst (o : AtomOps) : Option RegRef :=
  match o.d with
  | .v r => some (.v r.toNat)
  | .s r => some (.s r.toNat)
  | .sz => none

def noSwap : Ctx → State → Bool → Nat → Nat := fun _ _ _ _ => 0

def atomRefs (o : AtomOps) : List RegRef := refsDst (if o.wide then 2 else 1) o.d

/-- ATOM (R184, R185). -/
def execAtom (h : Hdr) (op : AtomOp) (o : AtomOps) (s : State) : Host.Outcome State Fault Refusal :=
  .next (runInstr (.atom h op o) false (class5Body (.atom op true) o.ord o (atomDst o) none (atomRefs o) noSwap false) s)

/-- The swap value of ACAS in a lane: D on entry (R187). -/
def swapOf (o : AtomOps) (c : Ctx) (_ : State) (_ : Bool) (lane : Nat) : Nat :=
  let size := if o.wide then 64 else 32
  (match o.d with
   | .v r => c.g.vregs r.toNat lane (if o.wide then 2 else 1)
   | .s r => (c.g.sreg r.toNat).toNat
   | .sz => 0) % 2 ^ size

/-- ACAS (R187). -/
def execAcas (h : Hdr) (o : AtomOps) (s : State) : Host.Outcome State Fault Refusal :=
  .next (runInstr (.acas h o) false (class5Body .cas o.ord o (atomDst o) none (atomRefs o) (swapOf o) false) s)

/-- RED (R184, R185). -/
def execRed (h : Hdr) (op : AtomOp) (dsz : Bool) (o : AtomOps) (s : State) : Host.Outcome State Fault Refusal :=
  .next (runInstr (.red h op dsz o) false (class5Body (.atom op false) o.ord o none none [] noSwap false) s)

/-- RDLK (R188): an acquire when it succeeds. -/
def execRdlk (h : Hdr) (m : BitVec 3) (o : AtomOps) (s : State) : Host.Outcome State Fault Refusal :=
  .next (runInstr (.rdlk h m o) false
    (class5Body .rdlk .acquire o (atomDst o) (some m.toNat) (atomRefs o ++ refsMask m) noSwap true) s)

/-- RDUL (R188): a release. -/
def execRdul (h : Hdr) (m : BitVec 3) (o : AtomOps) (s : State) : Host.Outcome State Fault Refusal :=
  .next (runInstr (.rdul h m o) false
    (class5Body .rdul .release o (atomDst o) (some m.toNat) (atomRefs o ++ refsMask m) noSwap true) s)

/-- WRLK (R188): an acquire when it succeeds. -/
def execWrlk (h : Hdr) (m : BitVec 3) (o : AtomOps) (s : State) : Host.Outcome State Fault Refusal :=
  .next (runInstr (.wrlk h m o) false
    (class5Body .wrlk .acquire o (atomDst o) (some m.toNat) (atomRefs o ++ refsMask m) noSwap true) s)

/-- WRUL (R188): a release. -/
def execWrul (h : Hdr) (m : BitVec 3) (o : AtomOps) (s : State) : Host.Outcome State Fault Refusal :=
  .next (runInstr (.wrul h m o) false
    (class5Body .wrul .release o (atomDst o) (some m.toNat) (atomRefs o ++ refsMask m) noSwap true) s)

end Sys2Proof.Machine
end

