-- ==== Sys2Proof/Machine/Barriers.lean ====
section
/-!
DEFINITION. Barrier words and the barrier instructions (R189 to R192, R213), with the deductions for exits.
-/
namespace Sys2Proof.Machine

/-! ### The word -/

/-- The fields of a barrier word (R189); `low` holds bits [39:24]. -/
structure BarWord where
  phase : Bool
  mismatch : Bool
  expected : Nat
  arrived : Nat
  low : Nat
  pending : Nat
  deriving DecidableEq, Repr

def BarWord.ofNat (x : Nat) : BarWord :=
  { phase := x.testBit 63, mismatch := x.testBit 62, expected := bitField x 51 11, arrived := bitField x 40 11,
    low := bitField x 24 16, pending := bitField x 0 24 }

/-- The word of some fields. Arrivals beyond the 11 bits of their field carry into the next (log 156). -/
def BarWord.toNat (w : BarWord) : Nat :=
  (if w.phase then 2 ^ 63 else 0) + (if w.mismatch then 2 ^ 62 else 0) + w.expected * 2 ^ 51 + w.arrived * 2 ^ 40
    + w.low * 2 ^ 24 + w.pending

/-- Complete() of R191, and whether the phase completed. -/
def BarWord.complete (w : BarWord) : BarWord × Bool :=
  if w.expected ≠ 0 ∧ w.arrived = w.expected ∧ w.pending = 0 then
    ({ w with phase := !w.phase, expected := 0, arrived := 0, pending := 0 }, true)
  else (w, false)

/-- Adds bytes to pending modulo 2^24 (R192, R237). -/
def BarWord.addPending (w : BarWord) (k : Int) : BarWord := { w with pending := truncInt (w.pending + k) 24 }

/-- An arrival of `n` threads with count `c` under R191: the word before Complete() and its mode, or a refusal. A phase whose expected
field a program's own store made non-zero, with no first arrival, is in mode counted (log 143). -/
def BarWord.arrive (w : BarWord) (mode : Option BarState) (live n c : Nat) : Option (BarWord × Bool) :=
  if w.expected = 0 then
    if c = 0 then some ({ w with expected := live, arrived := w.arrived + n }, true)
    else some ({ w with expected := c, arrived := w.arrived + n }, false)
  else
    let all := (mode.map (·.all)).getD false
    if ((c == 0) != all) || (c != 0 && c != w.expected) || decide (w.expected < w.arrived + n) then none
    else some ({ w with arrived := w.arrived + n }, all)

/-- The window address of a named barrier word of a block (R189). -/
def barAddr (b : Block) (i : Nat) : Nat := scratchAddr b.core (b.scratchBase + 8 * i)

/-- The named barrier that lies at a window address of a block. -/
def barIndex (b : Block) (word : Nat) : Nat := ((windowOf word).off - b.scratchBase) / 8

/-- Writes a barrier word as one update at its bank (R203): it keeps the sets it carries and takes those of the update. Complete() of
R191 follows the updates of barrier instructions, copies' credits and exits, and no store or atomic of a program (log 143). -/
def putBar (s : State) (word : Nat) (w : BarWord) (set : List Nat) : State :=
  putApplied s none word (leBytes 8 w.toNat) ((carryOf s word 8 ++ set).eraseDups) true

def readBar (s : State) (word : Nat) : BarWord := BarWord.ofNat (readNat s word 8)

/-- Live threads of a block (R191). -/
def liveThreads (s : State) (b : Block) : Nat := ((s.launchOf b).map (·.threads)).getD 0 - b.exited.length

/-- A thread has exited (R191): every named barrier in mode all that it has not reached expects one fewer. -/
def barrierExit (s : State) (blk thread : Nat) : State :=
  forAll (List.range 16) s (fun i s =>
    match s.blocks.get? blk with
    | none => s
    | some b =>
      match b.bars.get? i with
      | some m =>
        if !m.all || m.arrived.contains thread || decide (b.scratchSize < 8 * i + 8) then s
        else
          let word := barAddr b i
          let w := readBar s word
          if w.expected = 0 then s
          else
            let (w, done) := { w with expected := w.expected - 1 }.complete
            let s := if done then s.setBlock blk (fun b => { b with bars := b.bars.del i }) else s
            putBar s word w []
      | none => s)

/-- A lane's thread exits: it is counted once, and barriers expect it no more (R191). Task lanes are no threads. -/
def exitThread (s : State) (g : Group) (lane : Nat) : State :=
  if (g.tasks.get? lane).isSome then s
  else barrierExit (noteExit s g lane) g.blk (originThread g lane)

/-! ### The instructions -/

/-- The word that a barrier instruction names, or its fault (R189, R190). -/
def barTarget (s : State) (c : Ctx) (r : BarRef) : Chk :=
  let off := 8 * r.index.toNat
  if r.member then checkMember s c.blk c.launch.pasid (r.rank.toNat * 2 ^ 24 + off)
  else if c.blk.scratchSize < off + 8 then .access
  else .ok (barAddr c.blk r.index.toNat) false

/-- What a barrier instruction's update waits for: the holds on its word, and the earlier steps of its lanes: an update is applied after
every program-earlier local write (R201, R203). -/
def barWaits (s : State) (c : Ctx) (word : Nat) (writes release : Bool) (scope : Nat) : Bool :=
  let probe : Acc := { accFor s c ⟨32, c.act, word, word, false, none⟩ (.atom .add false) 8 0 0 .relaxed scope none with id := s.nextId }
  heldAtHome s probe || (writes && claimedScratch s none word 8) || heldByRange s probe
    || s.accs.any (fun a => a.stage == .arrived && a.writesBytes && overlaps a.pa a.size word 8)
    || !(accessesOf s c.gid c.act).all (fun a =>
          if a.isLoad then a.stage == .satisfied || !isLocal s a.die a.pa
          else performedAt s (dieOfGroup c.gid) 0 a.id && (!writes || pinHeld a || !isLocal s a.die a.pa))
    || (release && !released s c.gid c.act scope)
    || (writes && !(fencedOf s c.gid c.act).all (fun w => performedAt s (dieOfGroup c.gid) w.2 w.1))

/-- The words that a write of a barrier changes are shored first (R317). -/
def shoreBar (s : State) (c : Ctx) (word : Nat) : Option State :=
  match scratchOwner s word with
  | some o =>
    if sameSide s c.g.blk o then
      let d := shoreDepth s c.g.blk c.blk.levels.length o
      (shoreWord s d o (word / 4)).bind (fun s => shoreWord s d o (word / 4 + 1))
    else some s
  | none => some s

/-- SHORE_FULL of a scratch word (R319). -/
def shoreFullWord (s : State) (c : Ctx) (word : Nat) : Res :=
  .fault .shoreFull (BitVec.ofNat 64 (2 ^ 62 + ((windowOf word).off
    - (((scratchOwner s word).bind s.blocks.get?).map (·.scratchBase)).getD 0))) c.act

/-- One update of a barrier word (R191, R192): bytes added to pending, and an arrival with count `arrive` if there is one.
`after` gets the word before, the word after and whether the phase completed. -/
def barUpdate (s : State) (c : Ctx) (word : Nat) (bytes : Int) (arrive : Option Nat)
    (after : State → BarWord → BarWord → Bool → Res) : Res :=
  match scratchOwner s word with
  | none => .fault .accessFault (BitVec.ofNat 64 word) c.act
  | some o =>
    match s.blocks.get? o with
    | none => .fault .accessFault (BitVec.ofNat 64 word) c.act
    | some b =>
      match shoreBar s c word with
      | none => shoreFullWord s c word
      | some s =>
        let s := couple (mayCorrect s word) (some c.g.blk) word 8
        let old := readBar s word
        let i := barIndex b word
        match arrive with
        | none =>
          let (w, done) := (old.addPending bytes).complete
          let s := if done then s.setBlock o (fun b => { b with bars := b.bars.del i }) else s
          after (putBar s word w ((fencedOf s c.gid c.act).map (·.1))) old w done
        | some k =>
          match old.arrive (b.bars.get? i) (liveThreads s b) (countLanes c.act) k with
          | none =>
            let g := (s.groups.get? c.gid).getD c.g
            if resultsPending s g then .wait
            else
              let s := putApplied s none word (leBytes 8 { old with mismatch := true }.toNat) (carryOf s word 8) true
              .held (takeFault (rewind s c.gid c.g.issued) c .barrierMismatch (BitVec.ofNat 64 old.toNat) c.act)
          | some (w, all) =>
            let (w, done) := (w.addPending bytes).complete
            let mine := ((lanesOf c.act).filter (fun l => (c.g.tasks.get? l).isNone)).map (originThread c.g)
            let before := if old.expected = 0 then [] else ((b.bars.get? i).map (·.arrived)).getD []
            let s := s.setBlock o (fun b =>
              { b with bars := if done then b.bars.del i else b.bars.put i ⟨all, (before ++ mine).eraseDups⟩ })
            after (putBar s word w (observed s c.gid c.act)) old w done

/-- What the pair compares of a barrier instruction (R169). -/
def barItems (r : BarRef) (x y : Nat) : List Item :=
  [(1, 32, r.index.toNat + r.rank.toNat * 16 + (if r.member then 64 else 0)), (2, 32, x), (2, 32, y)]

/-- A barrier instruction (R190, R192): the checks that all forms share, and then `act` on the word. In a checked launch the pair
acts on it once, when the shadow agrees (R169). -/
def barBody (r : BarRef) (writes release : Bool) (xy : Ctx → Nat × Nat) (refs : List RegRef) (act : Ctx → Nat → Nat → State → Res)
    (c : Ctx) (s : State) : Res :=
    let items (c : Ctx) : List Item := barItems r (xy c).1 (xy c).2
    let scope := if r.member then 4 else 2
    let reach (c : Ctx) (s : State) (f : Nat → Res) : Res :=
      match barTarget s c r with
      | .ok word _ =>
        if (s.line (word / 128)).poison then .fault .eccUncorr (BitVec.ofNat 64 (word - word % 128)) c.act
        else if barWaits s c word writes release scope then .wait
        else f word
      | .remote wa => .fault .remoteExited (BitVec.ofNat 64 wa) c.act
      | .absent => .wait
      | _ => .fault .accessFault (BitVec.ofNat 64 ((if r.member then r.rank.toNat * 2 ^ 24 else 0) + 8 * r.index.toNat)) c.act
    let go : Res := together s c 1 (items c) refs (fun c s => reach c s (fun word => act c word scope s)) parkAlike
    let checked : Res := if specLanes s c ≠ 0 then .fault .nesting 0 (specLanes s c) else reach c s (fun _ => .done s)
    mirrorFault s c items checked <|
    match roleOf s c with
    | .shadow => go
    | .primary => if specLanes s c ≠ 0 then .fault .nesting 0 (specLanes s c) else reach c s (fun _ => go)
    | .alone => if specLanes s c ≠ 0 then .fault .nesting 0 (specLanes s c) else go

/-- A barrier acquired at once: the set that the word carries joins the observed sets (R213). -/
def acquireBar (s : State) (c : Ctx) (word scope : Nat) : State :=
  dropLeases (observeLanes s c.gid c.act (carryOf s word 8)) (some (coreOfGroup c.gid)) .acquire scope

/-- BARW, arriving (R192). -/
def execBarw (h : Hdr) (w : BarRef) (count : BitVec 11) (s : State) : Host.Outcome State Fault Refusal :=
  .next (runInstr (.barw h w count) false (fun c s =>
    barBody w true true (fun c => (countLanes c.act, count.toNat)) [] (fun c word scope s =>
      barUpdate s c word 0 (some count.toNat) (fun s old _ done =>
        if done then .done (acquireBar s c word scope) else .jump (parkHere s c (.barw word old.phase scope)))) c s) s)

/-- BARW with wonly (R192): it parks until the phase differs from bit 0 of B; a vector register's is that of the lowest acting lane
(log 142). -/
def execBarwWait (h : Hdr) (w : BarRef) (phase : Tgt) (s : State) : Host.Outcome State Fault Refusal :=
  .next (runInstr (.barwWait h w phase) false (fun c s =>
    let b (c : Ctx) := (match phase with
      | .s r => (c.g.sreg r.toNat).toNat
      | .v r => (c.g.vreg r.toNat (lowestLane c.act)).toNat) % 2
    barBody w false false (fun c => (b c, 0x800)) [] (fun c word scope s =>
      let s := couple (mayCorrect s word) (some c.g.blk) word 8
      if phaseOf s word != (b c == 1) then .done (acquireBar s c word scope)
      else .jump (parkHere s c (.barw word (b c == 1) scope))) c s) s)

/-- BARA (R192). -/
def execBara (h : Hdr) (w : BarRef) (d : Dst) (count : BitVec 11) (s : State) : Host.Outcome State Fault Refusal :=
  .next (runInstr (.bara h w d count) false (fun c s =>
    let refs := refsDst 1 d
    barBody w true true (fun c => (countLanes c.act, count.toNat)) refs (fun c word _ s =>
      barUpdate s c word 0 (some count.toNat) (fun s old _ done =>
        let x := (if old.phase then 1 else 0) + (if done then 2 else 0)
        .done (deliver s c.gid c.g.issued 0 (refs.map (fun r => (r, [(0, x)])))))) c s) s)

/-- BARX (R192). -/
def execBarx (h : Hdr) (w : BarRef) (arrive : Option (BitVec 11)) (bytes : Src) (imm : BitVec 16) (s : State) :
    Host.Outcome State Fault Refusal :=
  .next (runInstr (.barx h w arrive bytes imm) false (fun c s =>
    let k (c : Ctx) : Int := match bytes with
      | .imm => imm.toInt
      | b => toSigned (srcScalar s c 0 b) 32
    barBody w true arrive.isSome (fun c => (countLanes c.act, truncInt (k c) 32 * 4096 + (arrive.map (·.toNat + 1)).getD 0)) []
      (fun c word _ s => barUpdate s c word (k c) (arrive.map (·.toNat)) (fun s _ _ _ => .done s)) c s) s)

end Sys2Proof.Machine
end

