-- ==== Sys2Proof/Machine/Forms.lean ====
section
/-!
DEFINITION. Which operand forms each row accepts: the limits of R55 to R61, R67, R76 and R77 and of each
instruction's own description. An encoding that would decode to a form refused here raises RESERVED_ENC.
For machine steps: the unit that the step names exists (R12).
-/
namespace Sys2Proof.Machine

/-- A vector register, pair or group of four named at a multiple of `n` (R58, R173). -/
def alignedTo (n : Nat) (r : BitVec 8) : Bool := r.toNat % n == 0

/-- A source whose vector form names `n` registers. -/
def srcOk (n : Nat) : Src → Bool
  | .v r => alignedTo n r
  | _ => true

def Src.isVec : Src → Bool
  | .v _ => true
  | _ => false

def dstIsVec : Dst → Bool
  | .v _ => true
  | _ => false

/-- Destination on the given side, its vector form naming `n` registers (R56). -/
def dstOk (n : Nat) (vec : Bool) : Dst → Bool
  | .v r => vec && alignedTo n r
  | _ => !vec

/-- R59: every guard but gneg = 1 with gidx = 7. -/
def guardOk (h : Hdr) : Bool := !(h.gneg && h.gidx == 7)

/-- The guard that an unguarded instruction carries (R59). -/
def unguarded (h : Hdr) : Bool := !h.gneg && h.gidx == 7

/-- R61. -/
def modsOk (m : Mods) (a : Src) (negAbs : Bool) : Bool :=
  (if m.mclass = 0 then m.mseg == 0 && m.mdist == 0
   else decide (1 ≤ m.mseg.toNat ∧ m.mseg.toNat ≤ 5 ∧ m.mdist.toNat < 2 ^ m.mseg.toNat) && Src.isVec a)
  && (negAbs || (!m.neg && !m.abs))

/-- R57: at most one operand reads the immediate, and IMM is zero when none does. -/
def immOk (srcs : List Src) (imm : BitVec 32) : Bool :=
  let n := (srcs.filter (· == Src.imm)).length
  decide (n ≤ 1) && (n == 1 || imm == 0)

/-- R56, R58, R61 for one source; `aImm` says whether A may read the immediate. -/
def ops1Ok (na nd : Nat) (negAbs aImm : Bool) (o : Ops1) : Bool :=
  srcOk na o.a && !(o.scalar && Src.isVec o.a) && dstOk nd (!o.scalar) o.d && modsOk o.mods o.a negAbs
    && immOk [o.a] o.imm && (aImm || o.a != Src.imm)

/-- Two sources, with the operand sizes of A, B and D. -/
def ops2Ok (na nb nd : Nat) (negAbs : Bool) (o : Ops2) : Bool :=
  srcOk na o.a && srcOk nb o.b && dstOk nd (Src.isVec o.a || Src.isVec o.b) o.d && modsOk o.mods o.a negAbs
    && immOk [o.a, o.b] o.imm

/-- Three sources (R57): C is a register with IMM otherwise zero, or the immediate; A and B never read the
immediate beside either (log 10). -/
def ops3Ok (na nb nc nd : Nat) (negAbs : Bool) (o : Ops3) : Bool :=
  srcOk na o.a && srcOk nb o.b && srcOk nc o.c
    && dstOk nd (Src.isVec o.a || Src.isVec o.b || Src.isVec o.c) o.d && modsOk o.mods o.a negAbs
    && o.a != Src.imm && o.b != Src.imm && (o.c == Src.imm || o.imm == 0)

def opsCmpOk (n : Nat) (o : OpsCmp) : Bool :=
  srcOk n o.a && srcOk n o.b && modsOk o.mods o.a true && immOk [o.a, o.b] o.imm

/-- Registers a value of a class 1 width takes (R58). -/
def iwRegs : IWidth → Nat
  | .w64 => 2
  | _ => 1

def ffRegs : FFmt → Nat
  | .f64 => 2
  | _ => 1

/-- R57: an FP16 or BF16 immediate keeps IMM[31:16] zero. -/
def fimmOk (f : FFmt) (srcs : List Src) (imm : BitVec 32) : Bool :=
  match f with
  | .f16 | .bf16 => !(srcs.any (· == Src.imm)) || imm.toNat < 65536
  | _ => true

/-- Widths accepted by the logic operations and fields (R124). -/
def iwScalarish : IWidth → Bool
  | .w32 | .w64 => true
  | _ => false

/-- Formats accepted by FCMP and FCLS (R132). -/
def ffSingle : FFmt → Bool
  | .f16x2 | .bf16x2 => false
  | _ => true

/-- R86: 5 and 6 are reserved. -/
def roundOk (c : BitVec 3) : Bool := c != 5 && c != 6

/-- R91: an element format code that is assigned. -/
def fmtCodeOk (c : BitVec 6) : Bool :=
  decide (c.toNat ≤ 4) || (decide (0x20 ≤ c.toNat) && decide (c.toNat % 8 ≠ 0))

/-- Element width of a conversion type code (R141), 0 for a code not listed. -/
def cvtWidth (c : BitVec 6) : Nat :=
  match c.toNat with
  | 0 | 1 => 8
  | 2 => 4
  | 3 | 4 | 10 => 16
  | 8 | 11 => 32
  | 9 | 12 => 64
  | n => if 0x20 ≤ n ∧ n % 8 ≠ 0 then 8 else 0

/-- R101, R103: the scale mode is assigned and permitted for the element format. -/
def scaleOk (fmt : BitVec 6) (mode : BitVec 2) : Bool :=
  match mode.toNat with
  | 0 => true
  | 1 => fmt == 2 || decide (0x20 ≤ fmt.toNat)
  | 2 => decide (2 ≤ fmt.toNat)
  | _ => false

/-- R141; lane selection within R61, no negation and no absolute value (R132). -/
def cvtOk (o : CvtOps) : Bool :=
  let dw := cvtWidth o.dstt
  let sw := cvtWidth o.srct
  dw != 0 && sw != 0 && roundOk o.rnd && o.sat != 3 && (o.sat == 0 || decide (0x20 ≤ o.dstt.toNat))
    && decide (o.k.toNat < max 1 (32 / dw)) && decide (o.j.toNat < max 1 (32 / sw))
    && (o.xv == 0 || o.srct == 2)
    && srcOk (if sw = 64 then 2 else 1) o.a && o.a != Src.imm && !(o.scalar && Src.isVec o.a) && modsOk o.mods o.a false
    && dstOk (if dw = 64 then 2 else 1) (!o.scalar) o.d

/-- A target operand: a scalar register or an aligned pair (R111). -/
def tgtOk : Tgt → Bool
  | .s _ => true
  | .v r => alignedTo 2 r

def baseOk (n : Nat) : Base → Bool
  | .v r => alignedTo n r
  | _ => true

def Base.isVec : Base → Bool
  | .v _ => true
  | _ => false

/-- A scalar source that is no immediate: s0 to s63, special register or sz. -/
def scalarSrc : Src → Bool
  | .s _ | .sp _ | .sz => true
  | _ => false

/-- A scalar source or the immediate. -/
def scalarOrImm : Src → Bool
  | .v _ => false
  | _ => true

/-- A scalar register s0 to s63 or the immediate. -/
def sregOrImm : Src → Bool
  | .s _ | .imm => true
  | _ => false

def dstScalar : Dst → Bool
  | .v _ => false
  | _ => true

/-- Registers named by D at a width of R173. -/
def mwRegs : MWidth → Nat
  | .w64 => 2
  | .w128 => 4
  | _ => 1

def isLoadOrd : Ord → Bool
  | .release => false
  | _ => true

def isStoreOrd : Ord → Bool
  | .acquire => false
  | _ => true

/-- R170, R172: address fields; the base names `n` registers, scopes up to `maxScope` (R171). -/
def addrOk (n maxScope : Nat) (o : AddrOps) : Bool :=
  baseOk n o.a && o.b != Src.imm && decide (o.scope.toNat ≤ maxScope)

def memVec (o : AddrOps) : Bool := Base.isVec o.a || Src.isVec o.b

/-- R170 to R173 for loads: kinds, the data register on the instruction's side, .w128 vector-side only. -/
def loadOk (n maxScope : Nat) (o : MemOps) : Bool :=
  addrOk n maxScope o.at_ && isLoadOrd o.ord
    && (match o.d with
        | .v r => memVec o.at_ && alignedTo (mwRegs o.width) r
        | .s _ | .sz => !memVec o.at_
        | _ => false)
    && (memVec o.at_ || o.width != .w128)

def storeOk (n maxScope : Nat) (o : MemOps) : Bool :=
  addrOk n maxScope o.at_ && isStoreOrd o.ord && o.width != .i8 && o.width != .i16
    && (match o.d with
        | .v r => memVec o.at_ && alignedTo (mwRegs o.width) r
        | .s _ | .sz | .sp _ => !memVec o.at_
        | .imm => false)
    && (memVec o.at_ || o.width != .w128)

/-- R171, R183: the widest scope of a class 5 space. -/
def spaceScope : CSpace → Nat
  | .glb => 10
  | .scr => 4
  | _ => 6

/-- R183: the operands of a class 5 access; D is checked on its side unless `noD`. -/
def atomOk (noD : Bool) (o : AtomOps) : Bool :=
  let n := if o.wide then 2 else 1
  let vec := Base.isVec o.a || Src.isVec o.b
  baseOk (if o.space = .scr then 1 else 2) o.a && srcOk n o.b && o.b != Src.imm
    && decide (o.scope.toNat ≤ spaceScope o.space)
    && (if noD then o.d == .sz else dstOk n vec o.d)

/-- R183, R188: the lock-word operations are 64 bits wide and carry kind 0. -/
def lockWordOk (o : AtomOps) : Bool := atomOk false o && o.wide && o.ord == .relaxed

/-- R190: a rank only in the member form. -/
def barOk (w : BarRef) : Bool := w.member || w.rank == 0

/-- R190: counts up to 1,024; 0 is refused in the member form. -/
def countOk (w : BarRef) (c : BitVec 11) : Bool :=
  decide (c.toNat ≤ 1024) && !(w.member && c == 0)

/-- R67: a literal word keeps bits [31:20] other than 0xFFF, and meets its limits. -/
def pwOk (limit : Int → Bool) (signed : Bool) : PWord → Bool
  | .lit w => decide (w.toNat < 0xFFF00000) && limit (if signed then w.toInt else w.toNat)
  | .sub _ => true

/-- R233: the limits of a copy's four words (element size `e` bytes). -/
def copyLim0 (e : Nat) (x : Int) : Bool := decide (1 ≤ x ∧ x ≤ 2 ^ 24) && x % e == 0
def copyLim1 (x : Int) : Bool := decide (1 ≤ x ∧ x ≤ 2 ^ 16)
def multOf (m : Nat) (x : Int) : Bool := decide (-(2 ^ 31) ≤ x ∧ x < 2 ^ 31) && x % m == 0
/-- The scratch offset of CPYG's index list: a multiple of 4. -/
def copyLim3g (x : Int) : Bool := x % 4 == 0

/-- R232, R233. -/
def copyOk (ss ds : List Nat) (gather : Bool) (o : CopyOps) : Bool :=
  let e := 2 ^ o.e.toNat
  decide (o.e.toNat ≤ 4) && ss.contains o.sspace.toNat && ds.contains o.dspace.toNat
    && (match o.b with
        | some _ => decide (3 ≤ o.scope.toNat ∧ o.scope.toNat ≤ 10)
        | none => o.scope == 0 && o.seq == 0)
    && (o.credit || o.bar == 0)
    && pwOk (copyLim0 e) false o.p.p0 && pwOk copyLim1 false o.p.p1 && pwOk (multOf e) true o.p.p2
    && (if gather then pwOk copyLim3g false o.p.p3 else pwOk (multOf e) true o.p.p3)

/-- R247: limits of MXLOOP's words. -/
def mxLim0 (x : Int) : Bool := decide (1 ≤ x ∧ x ≤ 2 ^ 20)

/-- Rows rb to rb + M − 1 lie within the bay (R247, R252, R255). -/
def rowsOk (rb m1 : BitVec 6) : Bool := decide (rb.toNat + m1.toNat + 1 ≤ 64)

def mxloopOk (o : MxloopOps) : Bool :=
  fmtCodeOk o.fmt && scaleOk o.fmt o.scale && (o.xv == 0 || o.fmt == 2) && o.mask != 0 && rowsOk o.rb o.m1
    && pwOk mxLim0 false o.p.p0 && pwOk (multOf 16) true o.p.p1 && pwOk (multOf 32) true o.p.p2
    && pwOk (multOf 32) true o.p.p3

def mxlwOk (o : MxlwOps) : Bool :=
  fmtCodeOk o.fmt && scaleOk o.fmt o.scale && (o.xv == 0 || o.fmt == 2)

/-- R252. -/
def mxdrainOk (o : MxdrainOps) : Bool :=
  rowsOk o.rb o.m1
    && (match o.b with
        | .s _ => o.epi == .scale
        | .sz => o.epi != .scale
        | .v _ => false)
    && (if o.epi = .cvt then
          fmtCodeOk o.dfmt && decide (o.rnd.toNat ≤ 3)
            && (if 0x20 ≤ o.dfmt.toNat then o.sat != 3 else o.sat == 0)
            && (match o.dst with | .s _ => true | .v _ => false)
        else o.dfmt == 0 && o.rnd == 0 && o.sat == 0)

/-- R271: the expert number is a scalar register, a special register or the immediate. -/
def expOk (o : ExpOps) : Bool :=
  dstScalar o.d
    && (match o.b with
        | .s _ | .sp _ => o.imm == 0
        | .imm => true
        | _ => false)

/-- R271: the three layouts of XCNT. `immB` is the expert number, `immC` the increment. -/
def xcntOk (b c : Src) (immB immC : BitVec 20) : Bool :=
  (match b with
   | .v _ | .s _ | .sp _ => immB == 0
   | .imm => c != Src.imm
   | .sz => false)
    && (match c with
        | .imm => true
        | _ => immC == 0)

/-- R256: COLL's limits. -/
def collOk (o : CollOps) : Bool :=
  decide (o.typ.toNat ≤ 5) && decide (6 ≤ o.scope.toNat ∧ o.scope.toNat ≤ 10) && o.op != 3
    && pwOk (fun x => decide (1 ≤ x ∧ x ≤ 2 ^ 24)) false o.p.p0
    && pwOk (fun _ => true) false o.p.p1 && pwOk (fun _ => true) false o.p.p2
    && pwOk (fun x => decide (1 ≤ x ∧ x ≤ 65535)) false o.p.p3

/-- R148: formats accepted by each REDUX operation. -/
def reduxFmtOk (op : ReduxOp) (f : BitVec 3) : Bool :=
  match op with
  | .fadd | .fmin | .fmax => decide (f.toNat ≤ 3)
  | _ => decide (f.toNat ≤ 1)

def ldstOk (n : Nat) : LDst → Bool
  | .v r => alignedTo n r
  | .s _ => true

def maskSrcOk : MaskSrc → Bool
  | .src a imm => scalarOrImm a && (a == Src.imm || imm == 0)
  | .cm _ => true

/-- A class 2 operation with two sources of the format. -/
def f2Ok (f : FFmt) (o : Ops2) : Bool :=
  ops2Ok (ffRegs f) (ffRegs f) (ffRegs f) true o && fimmOk f [o.a, o.b] o.imm

def f1Ok (f : FFmt) (o : Ops1) : Bool :=
  ops1Ok (ffRegs f) (ffRegs f) true true o && fimmOk f [o.a] o.imm

def i2Ok (w : IWidth) (negAbs : Bool) (o : Ops2) : Bool :=
  ops2Ok (iwRegs w) (iwRegs w) (iwRegs w) negAbs o

/-- R125: a count or field operand is 32 bits wide at widths 32 and 64. -/
def shiftOk (w : IWidth) (o : Ops2) : Bool := ops2Ok (iwRegs w) 1 (iwRegs w) false o

/-- Cores, dies, slots and bents that exist (R12, R14). -/
def coreOk (c : Nat) : Bool := decide (c < 256)
def dieOk (d : Nat) : Bool := decide (d < 4)

/-- A guarded row whose only limit is the guard's. -/
def hOk (h : Hdr) (b : Bool) : Bool := guardOk h && b

/-- The forms of the table: every field within its limits. -/
def formOk : Instr → Bool
  | .nop h | .exit h | .sbwaitAll h | .tend h | .tabort h => guardOk h
  | .bra h _ _ => guardOk h
  | .brx h a _ | .ret h a => hOk h (tgtOk a)
  | .call h d _ => hOk h (alignedTo 2 d)
  | .callx h d a => hOk h (alignedTo 2 d && tgtOk a)
  | .trap h code a => hOk h (decide (0x80 ≤ code.toNat) && scalarSrc a)
  | .msave h d => unguarded h && dstScalar d
  | .mand h x | .mor h x | .mrest h x => unguarded h && maskSrcOk x
  | .regroup h _ a => hOk h (a != Src.imm)
  | .launch h _ => guardOk h
  | .launchLane h a => hOk h (alignedTo 2 a)
  | .iadd h w o | .isub h w o | .imul h w o => hOk h (i2Ok w true o)
  | .imulh h w _ o | .imin h w _ o | .imax h w _ o => hOk h (i2Ok w true o)
  | .imad h w o => hOk h (ops3Ok (iwRegs w) (iwRegs w) (iwRegs w) (iwRegs w) true o)
  | .iabs h w o => hOk h (ops1Ok (iwRegs w) (iwRegs w) true true o)
  | .and h w o | .or h w o | .xor h w o | .andn h w o => hOk h (iwScalarish w && i2Ok w false o)
  | .shl h w o | .shr h w o | .sar h w o | .rotl h w o => hOk h (shiftOk w o)
  | .bfx h w _ o => hOk h (iwScalarish w && shiftOk w o)
  | .bfi h w o => hOk h (iwScalarish w && ops3Ok (iwRegs w) 1 (iwRegs w) (iwRegs w) false o)
  | .popc h w o | .clz h w o | .brev h w o => hOk h (ops1Ok (iwRegs w) (iwRegs w) false true o)
  | .sel h w o => hOk h (iwScalarish w && i2Ok w true o)
  | .mov h w o => hOk h (iwScalarish w && ops1Ok (iwRegs w) (iwRegs w) true true o)
  | .lea h _ _ o => hOk h (ops2Ok 2 1 2 false o)
  | .icmp h w _ _ o => hOk h (iwScalarish w && opsCmpOk (iwRegs w) o)
  | .fadd h f o | .fsub h f o | .fmul h f o | .fmin h f o | .fmax h f o => hOk h (f2Ok f o)
  | .ffma h f o =>
    hOk h (ops3Ok (ffRegs f) (ffRegs f) (ffRegs f) (ffRegs f) true o && fimmOk f [o.c] o.imm)
  | .fcmp h f _ o => hOk h (ffSingle f && opsCmpOk (ffRegs f) o && fimmOk f [o.a, o.b] o.imm)
  | .frcp h f o | .frsq h f o | .fsqrt h f o | .fex2 h f o | .flg2 h f o | .fsin h f o | .fcos h f o =>
    hOk h (f1Ok f o)
  | .fcvt h o => hOk h (cvtOk o)
  | .fcls h f sc mods _ a _ =>
    hOk h (ffSingle f && srcOk (ffRegs f) a && a != Src.imm && !(sc && Src.isVec a) && modsOk mods a true)
  | .frnd h f sc mods d a rnd =>
    hOk h (roundOk rnd && a != Src.imm
      && ops1Ok (ffRegs f) (ffRegs f) true false { scalar := sc, mods := mods, d := d, a := a, imm := 0 })
  | .fscl h f o => hOk h (ops2Ok (ffRegs f) 1 (ffRegs f) true o && fimmOk f [o.a] o.imm)
  | .shfl h _ pair d a b imm =>
    hOk h (alignedTo (if pair then 2 else 1) d && alignedTo (if pair then 2 else 1) a && (b == Src.imm || imm == 0))
  | .vote h _ _ _ => guardOk h
  | .redux h op f d a =>
    hOk h (reduxFmtOk op f && ldstOk (if f = 1 then 2 else 1) d && alignedTo (if f = 1 then 2 else 1) a)
  | .matchLanes h pair _ a => hOk h (alignedTo (if pair then 2 else 1) a)
  | .prmt h _ _ b c imm => hOk h (b != Src.imm && (c == Src.imm || imm == 0))
  | .ldg h o => hOk h (loadOk 2 10 o && o.sel.toNat % 2 == 0)
  | .stg h o => hOk h (storeOk 2 10 o && o.sel == 0)
  | .lds h o => hOk h (loadOk 1 4 o && o.sel == 0)
  | .sts h o => hOk h (storeOk 1 4 o && o.sel == 0)
  | .ldw h o => hOk h (loadOk 2 6 o && decide (o.sel.toNat ≤ 1))
  | .stw h o => hOk h (storeOk 2 6 o && decide (o.sel.toNat ≤ 1))
  | .ldc h o => hOk h (loadOk 2 10 o && o.ord == .relaxed && o.sel == 0)
  | .pref h level o | .cflush h level o => hOk h (level != 3 && addrOk 2 10 o)
  | .fence h kind scope => hOk h (kind != .relaxed && decide (scope.toNat ≤ 10))
  | .atom h _ o => hOk h (atomOk false o)
  | .acas h o => hOk h (atomOk false o)
  | .red h op _ o => hOk h (atomOk true o && op != .exch && (o.ord == .relaxed || o.ord == .release))
  | .rdlk h _ o | .rdul h _ o | .wrlk h _ o | .wrul h _ o => hOk h (lockWordOk o)
  | .barw h w c => hOk h (barOk w && countOk w c)
  | .barwWait h w _ => hOk h (barOk w)
  | .bara h w d c => hOk h (barOk w && countOk w c && dstScalar d)
  | .barx h w arr b imm =>
    hOk h (barOk w && (match arr with | some c => countOk w c | none => true) && sregOrImm b
      && (b == Src.imm || imm == 0))
  | .lock h _ d _ b imm => hOk h (dstScalar d && scalarOrImm b && (b == Src.imm || imm == 0))
  | .lockt h _ d _ | .unlock h _ d _ => hOk h (dstScalar d)
  | .cpy h o => hOk h (copyOk [0, 1] [0, 1] false o)
  | .cpyg h o => hOk h (copyOk [0] [0, 1] true o)
  | .cpyw h o => hOk h (copyOk [0, 1] [2, 3] false o)
  | .gres h _ x imm => hOk h (scalarOrImm x && (x == Src.imm || imm == 0))
  | .gresFree h _ => guardOk h
  | .sbwait h _ a b len =>
    hOk h (!Base.isVec a && sregOrImm b && (b == Src.imm || len == 0))
  | .cdone h _ scope _ b => hOk h (decide (3 ≤ scope.toNat ∧ scope.toNat ≤ 10) && !Base.isVec b)
  | .mxlw h o => hOk h (mxlwOk o)
  | .mxswap h _ mask => hOk h (mask != 0)
  | .mxloop h o => hOk h (mxloopOk o)
  | .mxdrain h o => hOk h (mxdrainOk o)
  | .mxzero h _ mask rb m1 => hOk h (mask != 0 && rowsOk rb m1)
  | .xfetch h _ o | .xpin h o | .xunpin h o => hOk h (expOk o)
  | .xstat h sel o => hOk h (sel != 7 && expOk o)
  | .xcnt h _ b c immB immC => hOk h (xcntOk b c immB immC)
  | .coll h o => hOk h (collOk o)
  | .ensure h _ _ b first _ => unguarded h && decide (3 ≤ first.toNat) && !Base.isVec b
  | .elseby h off => unguarded h && decide (3 ≤ off.toNat)
  | .elseerr h | .accept h | .npe h | .pen h | .tret h => unguarded h
  | .reject h a => hOk h (scalarSrc a)
  | .conv h _ | .convx h _ => unguarded h
  | .spawn h a _ _ => hOk h (srcOk 2 a && a != Src.imm)
  | .csrr h d _ => hOk h (dstScalar d)
  | .csrwWr h _ a | .csrwSet h _ a | .csrwClr h _ a => hOk h (scalarSrc a)
  | .snap h d => hOk h (dstScalar d)
  | .halt h _ => unguarded h
  | .splitStarvationGuard core sched => coreOk core && decide (sched < 4)
  | .engineCommandAccept core _ | .taskGroupForm core => coreOk core
  | .copySegment core _ | .copyFailure core _ | .rangeRetire core _ | .completionWordWrite core _
  | .cdoneComplete core _ | .mxlwFill core _ | .mxlwFillEnd core _ | .kStep core _ | .mxdrainExecute core _
  | .mxzeroExecute core _ => coreOk core
  | .barrierCredit core _ _ | .checksumVerdict core _ _ => coreOk core
  | .mxswapExchange core _ bay => coreOk core && decide (bay < 4)
  | .dispatchDecision ps => ps.all (fun p => p.1.all (fun c => decide (c < 256)) && decide (p.2 < 64))
  | .launchQueueRead r => dieOk r.die && decide (r.queue < 64)
  | .probeReceive die _ | .probeAck die _ | .proxyGrantReceive die _ | .hostSnoop die _ _ => dieOk die
  | .fetchQueueServe die | .expertFetchComplete die _ | .expertFetchFail die _ _ => dieOk die
  | .eventRecordWrite die | .frontierReceive die => dieOk die
  | .snapshotLatch die unit index => dieOk die && decide (unit < 6) && decide (index < 64)
  | .taskBatchDispatch die core => dieOk die && coreOk core
  | .selftestDue bent | .selftestComplete bent _ => decide (bent < 64)
  | .blockResume _ core slot => coreOk core && decide (slot < 64)
  | .resume _ _ cores => cores.all (fun p => coreOk p.1 && decide (p.2 < 64))
  | .linkLevelRetry link => decide (link < 18)
  | .loadCompletion _ | .formerFlush _ | .formedGroupPlace _ | .groupEnd _ _ | .blockEnd _
  | .launchPromotion _ | .clusterStartRelease _ | .launchCompletion _ | .queueEntryAck _ | .queueNackResend _
  | .satisfy _ | .drain _ | .apply _ | .cross _ | .leaseExpiry _ | .atomicLeaseHoldEnd _
  | .class5RequestApply _ | .linePoison _ | .engineFailureDelivery _ | .collAccept _ | .collStepAck _ _ _
  | .collContributionArrival _ _ _ | .collStepTimeout _ _ | .collComplete _ | .xcntApply _ | .preemption _
  | .imageSeal _ | .npeWatchdogExpiry _ | .externalTrigger | .thermalLimit _ | .powerReport _ _
  | .powerOnReset _ | .firmwareUpload _ | .rollbackRestore _ | .levelClockLimit _ _ | .acceptCommit _
  | .conversationJoin _ | .conversationAccept _ | .shadowCompareTimeout _ | .taskRecordAccept _
  | .frontierRound | .lockRequestArrival _ | .lockGrant _ | .lockHandover _ | .lockTimeout _ _
  | .lockReservationExpiry _ | .kneeBraceScan | .cmdprodWrite _ | .bar0RegisterWrite _ _ | .space _ _ _
  | .queue _ _ _ _ _ _ | .evlog _ _ _ _ _ | .sleepEnter _ | .sleepWake _
  | .inval _ _ _ | .faultq _ _ _ _ | .answer _ _ | .biasToHost _ | .biasToDevice _ | .expreg _ | .expwd _
  | .checkpt _ _ _ | .selftest _ | .arm _ | .peer _ _ _ _ | .attest _ _ | .hostCxlMemAccess _ _ _
  | .peerAccessArrival _ _ _ => true

end Sys2Proof.Machine
end

