-- ==== Sys2Proof/WellFormed.lean ====
section
/-!
DEFINITION. A well-formed instruction: every field within the limits that Machine/Forms.lean gives.
-/
namespace Sys2Proof

/-- Every field of the instruction lies within the limits of its description (R55 to R61, R67, R76, R77). -/
def Instr.wellFormed (i : Instr) : Bool := Machine.formOk i

end Sys2Proof
end

