-- ==== Sys2Proof/Decode.lean ====
section
/-!
DEFINITION. The instruction word (R53), its decoding (R54, R55, R66, R67, R75 to R77) and the encoder.
A word decodes to an instruction exactly when its fields are the encoding of a well-formed one: R77 refuses
every word in which a field that the operation does not use is non-zero, so the decoder reads the fields the
operation uses and then demands that encoding them again gives the word.
-/
namespace Sys2Proof

/-- The fields of R53, from the high bit down. -/
structure Raw where
  cls : BitVec 3
  op : BitVec 7
  gneg : Bool
  gidx : BitVec 3
  d : BitVec 8
  a : BitVec 8
  b : BitVec 8
  mclass : BitVec 2
  mseg : BitVec 3
  mdist : BitVec 5
  mneg : Bool
  mabs : Bool
  stall : BitVec 4
  yield : Bool
  zero : BitVec 3
  akind : Bool
  bkind : Bool
  ckind : Bool
  fmt : BitVec 3
  imm : BitVec 32
  deriving DecidableEq, Repr

namespace Decode

/-- The fields of a 96-bit word (R53). -/
def fields (w : BitVec 96) : Raw where
  cls := w.extractLsb' 93 3
  op := w.extractLsb' 86 7
  gneg := w.getLsbD 85
  gidx := w.extractLsb' 82 3
  d := w.extractLsb' 74 8
  a := w.extractLsb' 66 8
  b := w.extractLsb' 58 8
  mclass := w.extractLsb' 56 2
  mseg := w.extractLsb' 53 3
  mdist := w.extractLsb' 48 5
  mneg := w.getLsbD 47
  mabs := w.getLsbD 46
  stall := w.extractLsb' 42 4
  yield := w.getLsbD 41
  zero := w.extractLsb' 38 3
  akind := w.getLsbD 37
  bkind := w.getLsbD 36
  ckind := w.getLsbD 35
  fmt := w.extractLsb' 32 3
  imm := w.extractLsb' 0 32

/-- The word that fields make (R53). -/
def assemble (r : Raw) : BitVec 96 :=
  r.cls ++ r.op ++ BitVec.ofBool r.gneg ++ r.gidx ++ r.d ++ r.a ++ r.b ++ r.mclass ++ r.mseg ++ r.mdist
    ++ BitVec.ofBool r.mneg ++ BitVec.ofBool r.mabs ++ r.stall ++ BitVec.ofBool r.yield ++ r.zero
    ++ BitVec.ofBool r.akind ++ BitVec.ofBool r.bkind ++ BitVec.ofBool r.ckind ++ r.fmt ++ r.imm

/-! Codes of the enumerated fields, each in the order of its table. -/

def sregCode : SReg → BitVec 8
  | .lane => 0x40 | .grp => 0x41 | .blk => 0x42 | .clu => 0x43 | .stage => 0x44 | .core => 0x45 | .die => 0x46
  | .time => 0x47 | .tstamp => 0x48 | .task => 0x49 | .front => 0x4A | .olane => 0x4B | .ogrp => 0x4C

def sregOf (n : Nat) : Option SReg :=
  match n with
  | 0x40 => some .lane | 0x41 => some .grp | 0x42 => some .blk | 0x43 => some .clu | 0x44 => some .stage
  | 0x45 => some .core | 0x46 => some .die | 0x47 => some .time | 0x48 => some .tstamp | 0x49 => some .task
  | 0x4A => some .front | 0x4B => some .olane | 0x4C => some .ogrp
  | _ => none

def srcCode : Src → Bool × BitVec 8
  | .v r => (false, r)
  | .s r => (true, r.setWidth 8)
  | .sp r => (true, sregCode r)
  | .sz => (true, 0xFE)
  | .imm => (true, 0xFF)

/-- R55, as a source. -/
def srcOf (kind : Bool) (x : BitVec 8) : Option Src :=
  if !kind then some (.v x)
  else if x.toNat < 0x40 then some (.s (x.setWidth 6))
  else if x = 0xFE then some .sz
  else if x = 0xFF then some .imm
  else (sregOf x.toNat).map .sp

def dstCode : Dst → BitVec 8
  | .v r => r
  | .s r => r.setWidth 8
  | .sz => 0xFE

/-- R55, as a destination on the given side (R56). -/
def dstOf (vec : Bool) (x : BitVec 8) : Option Dst :=
  if vec then some (.v x)
  else if x.toNat < 0x40 then some (.s (x.setWidth 6))
  else if x = 0xFE then some .sz
  else none

def tgtCode : Tgt → Bool × BitVec 8
  | .s r => (true, r.setWidth 8)
  | .v r => (false, r)

def tgtOf (kind : Bool) (x : BitVec 8) : Option Tgt :=
  if kind then (if x.toNat < 0x40 then some (.s (x.setWidth 6)) else none) else some (.v x)

def baseCode : Base → Bool × BitVec 8
  | .s r => (true, r.setWidth 8)
  | .sz => (true, 0xFE)
  | .v r => (false, r)

def baseOf (kind : Bool) (x : BitVec 8) : Option Base :=
  if !kind then some (.v x)
  else if x.toNat < 0x40 then some (.s (x.setWidth 6))
  else if x = 0xFE then some .sz
  else none

def iwCode : IWidth → BitVec 3
  | .w32 => 0 | .w64 => 1 | .p16 => 2 | .p8 => 3

def iwOf (n : Nat) : IWidth :=
  match n % 4 with
  | 0 => .w32 | 1 => .w64 | 2 => .p16 | _ => .p8

/-- FMT of class 1: the width, and 4 more when unsigned (R76). -/
def iwuCode (w : IWidth) (uns : Bool) : BitVec 3 := iwCode w + (if uns then 4 else 0)

def ffCode : FFmt → BitVec 3
  | .f32 => 0 | .f64 => 1 | .f16 => 2 | .bf16 => 3 | .f16x2 => 4 | .bf16x2 => 5

def ffOf (n : Nat) : Option FFmt :=
  match n with
  | 0 => some .f32 | 1 => some .f64 | 2 => some .f16 | 3 => some .bf16 | 4 => some .f16x2 | 5 => some .bf16x2
  | _ => none

def icondCode : ICond → BitVec 3
  | .eq => 0 | .ne => 1 | .lt => 2 | .le => 3 | .gt => 4 | .ge => 5

def icondOf (n : Nat) : Option ICond :=
  match n with
  | 0 => some .eq | 1 => some .ne | 2 => some .lt | 3 => some .le | 4 => some .gt | 5 => some .ge
  | _ => none

def fcondCode : FCond → BitVec 3
  | .eq => 0 | .ne => 1 | .lt => 2 | .le => 3 | .gt => 4 | .ge => 5 | .un => 6 | .ord => 7

def fcondOf (n : Nat) : FCond :=
  match n % 8 with
  | 0 => .eq | 1 => .ne | 2 => .lt | 3 => .le | 4 => .gt | 5 => .ge | 6 => .un | _ => .ord

def shflCode : ShflMode → BitVec 3
  | .idx => 0 | .rot => 1 | .rev => 2 | .xor => 3

def shflOf (n : Nat) : ShflMode :=
  match n % 4 with
  | 0 => .idx | 1 => .rot | 2 => .rev | _ => .xor

def voteCode : VoteMode → Nat
  | .mask => 0 | .count => 1 | .lead => 2 | .same => 3

def voteOf (n : Nat) : VoteMode :=
  match n % 4 with
  | 0 => .mask | 1 => .count | 2 => .lead | _ => .same

def reduxCode : ReduxOp → Nat
  | .add => 0 | .min => 1 | .max => 2 | .minu => 3 | .maxu => 4 | .and => 5 | .or => 6 | .xor => 7
  | .fadd => 8 | .fmin => 9 | .fmax => 10 | .first => 11

def reduxOf (n : Nat) : Option ReduxOp :=
  match n with
  | 0 => some .add | 1 => some .min | 2 => some .max | 3 => some .minu | 4 => some .maxu | 5 => some .and
  | 6 => some .or | 7 => some .xor | 8 => some .fadd | 9 => some .fmin | 10 => some .fmax | 11 => some .first
  | _ => none

def ordCode : Ord → Nat
  | .relaxed => 0 | .acquire => 1 | .release => 2 | .sc => 3

def ordOf (n : Nat) : Ord :=
  match n % 4 with
  | 0 => .relaxed | 1 => .acquire | 2 => .release | _ => .sc

def mwCode : MWidth → BitVec 3
  | .n8 => 0 | .i8 => 1 | .n16 => 2 | .i16 => 3 | .w32 => 4 | .w64 => 5 | .w128 => 6

def mwOf (n : Nat) : Option MWidth :=
  match n with
  | 0 => some .n8 | 1 => some .i8 | 2 => some .n16 | 3 => some .i16 | 4 => some .w32 | 5 => some .w64
  | 6 => some .w128 | _ => none

def cspaceCode : CSpace → Nat
  | .glb => 0 | .scr => 1 | .win => 2 | .mb => 3

def cspaceOf (n : Nat) : CSpace :=
  match n % 4 with
  | 0 => .glb | 1 => .scr | 2 => .win | _ => .mb

def atomCode : AtomOp → Nat
  | .add => 0 | .min => 1 | .max => 2 | .minu => 3 | .maxu => 4 | .and => 5 | .or => 6 | .xor => 7
  | .exch => 8 | .fadd => 9 | .fmin => 10 | .fmax => 11

def atomOf (n : Nat) : Option AtomOp :=
  match n with
  | 0 => some .add | 1 => some .min | 2 => some .max | 3 => some .minu | 4 => some .maxu | 5 => some .and
  | 6 => some .or | 7 => some .xor | 8 => some .exch | 9 => some .fadd | 10 => some .fmin | 11 => some .fmax
  | _ => none

def epiCode : Epi → Nat
  | .none => 0 | .scale => 1 | .relu => 2 | .silu => 3 | .cvt => 4

def epiOf (n : Nat) : Option Epi :=
  match n with
  | 0 => some .none | 1 => some .scale | 2 => some .relu | 3 => some .silu | 4 => some .cvt
  | _ => none

def csrCode : Csr → Nat
  | .status => 0x000 | .cause => 0x001 | .epc => 0x002 | .eval => 0x003 | .tvec => 0x004 | .sbchk => 0x010
  | .backoff => 0x011 | .fflags => 0x020 | .frm => 0x021 | .xv n => 0x030 + n.toNat | .ensd => 0x040
  | .shoru => 0x041 | .snapctl => 0x050

def csrOf (n : Nat) : Option Csr :=
  match n with
  | 0x000 => some .status | 0x001 => some .cause | 0x002 => some .epc | 0x003 => some .eval
  | 0x004 => some .tvec | 0x010 => some .sbchk | 0x011 => some .backoff | 0x020 => some .fflags
  | 0x021 => some .frm | 0x040 => some .ensd | 0x041 => some .shoru | 0x050 => some .snapctl
  | m => if 0x30 ≤ m ∧ m ≤ 0x3F then some (.xv (BitVec.ofNat 4 m)) else none

/-- A parameter word (R67). -/
def pwordCode : PWord → BitVec 32
  | .lit w => w
  | .sub r => 0xFFF00000 + r.setWidth 32

def pwordOf (w : BitVec 32) : PWord :=
  if 0xFFF00000 ≤ w.toNat then .sub (w.setWidth 6) else .lit w

def pblockCode (p : PBlock) : List (BitVec 32) :=
  [pwordCode p.p0, pwordCode p.p1, pwordCode p.p2, pwordCode p.p3]

def pblockOf (ws : List (BitVec 32)) : PBlock :=
  ⟨pwordOf (ws.getD 0 0), pwordOf (ws.getD 1 0), pwordOf (ws.getD 2 0), pwordOf (ws.getD 3 0)⟩

/-- Bits [hi:lo] of IMM as a number. -/
def immBits (r : Raw) (lo n : Nat) : Nat := r.imm.toNat / 2 ^ lo % 2 ^ n

/-- A subfield of IMM at its place. -/
def at_ (lo : Nat) {n : Nat} (x : BitVec n) : BitVec 32 := (x.setWidth 32) <<< lo

def atN (lo x : Nat) : BitVec 32 := BitVec.ofNat 32 (x * 2 ^ lo)

/-- A subfield of IMM. -/
def sub (r : Raw) (lo n : Nat) : BitVec n := r.imm.extractLsb' lo n

/-! ### The encoder -/

/-- An empty word of a class and operation with the header's fields. -/
def base (cls : BitVec 3) (op : BitVec 7) (h : Hdr) : Raw where
  cls := cls
  op := op
  gneg := h.gneg
  gidx := h.gidx
  d := 0
  a := 0
  b := 0
  mclass := 0
  mseg := 0
  mdist := 0
  mneg := false
  mabs := false
  stall := h.stall
  yield := h.yield
  zero := 0
  akind := false
  bkind := false
  ckind := false
  fmt := 0
  imm := 0

def putMods (r : Raw) (m : Mods) : Raw :=
  { r with mclass := m.mclass, mseg := m.mseg, mdist := m.mdist, mneg := m.neg, mabs := m.abs }

def putA (r : Raw) (a : Src) : Raw := { r with akind := (srcCode a).1, a := (srcCode a).2 }
def putB (r : Raw) (b : Src) : Raw := { r with bkind := (srcCode b).1, b := (srcCode b).2 }

def ops1Code (r : Raw) (fmt : BitVec 3) (o : Ops1) : Raw :=
  { putMods (putA r o.a) o.mods with fmt := fmt, d := dstCode o.d, bkind := o.scalar, imm := o.imm }

def ops2Code (r : Raw) (fmt : BitVec 3) (o : Ops2) : Raw :=
  { putMods (putB (putA r o.a) o.b) o.mods with fmt := fmt, d := dstCode o.d, imm := o.imm }

/-- The C register in IMM[8:0] (R57). -/
def cregCode (c : Src) : BitVec 32 :=
  (BitVec.ofBool (srcCode c).1 ++ (srcCode c).2).setWidth 32

def ops3Code (r : Raw) (fmt : BitVec 3) (o : Ops3) : Raw :=
  { putMods (putB (putA r o.a) o.b) o.mods with
    fmt := fmt, d := dstCode o.d, ckind := o.c != Src.imm, imm := if o.c = Src.imm then o.imm else cregCode o.c }

def cmpCode (r : Raw) (fmt : BitVec 3) (cond : BitVec 3) (o : OpsCmp) : Raw :=
  { putMods (putB (putA r o.a) o.b) o.mods with fmt := fmt, d := cond ++ (0 : BitVec 2) ++ o.m, imm := o.imm }

def addrCode (r : Raw) (ord : Ord) (sel : BitVec 2) (o : AddrOps) : Raw :=
  { putB r o.b with
    akind := (baseCode o.a).1, a := (baseCode o.a).2,
    imm := atN 30 (ordCode ord) ||| at_ 26 o.scope ||| at_ 24 sel ||| at_ 22 o.scale ||| at_ 0 o.off }

def memCode (r : Raw) (o : MemOps) : Raw :=
  { addrCode r o.ord o.sel o.at_ with fmt := mwCode o.width, d := (srcCode o.d).2 }

def atomOpsCode (r : Raw) (d : BitVec 8) (op : Nat) (o : AtomOps) : Raw :=
  { putB r o.b with
    akind := (baseCode o.a).1, a := (baseCode o.a).2, d := d, fmt := if o.wide then 1 else 0,
    imm := atN 30 (ordCode o.ord) ||| at_ 26 o.scope ||| atN 24 (cspaceCode o.space) ||| atN 20 op ||| at_ 0 o.off }

def barImm (w : BarRef) (count : BitVec 11) : BitVec 32 :=
  at_ 11 (count.extractLsb' 8 3) ||| at_ 5 w.rank ||| at_ 0 w.index

def barFmt (w : BarRef) : BitVec 3 := if w.member then 1 else 0

def gsCode : GSlot → BitVec 32
  | none => 0
  | some s => at_ 28 ((1 : BitVec 1) ++ s)

def s6 (r : BitVec 6) : BitVec 8 := r.setWidth 8

def copyCode (r : Raw) (o : CopyOps) : Raw :=
  { r with
    fmt := o.e, d := s6 o.d, akind := true, a := s6 o.a, bkind := true,
    b := (match o.b with | some x => s6 x | none => 0xFE),
    imm := gsCode o.gs ||| at_ 24 o.scope ||| at_ 22 o.sspace ||| at_ 20 o.dspace ||| at_ 19 (BitVec.ofBool o.credit)
      ||| at_ 15 o.bar ||| at_ 9 o.seq }

def ldstCode : LDst → BitVec 8
  | .v r => r
  | .s r => s6 r

def ldstBit : LDst → Nat
  | .v _ => 0
  | .s _ => 1

def maskCode (r : Raw) : MaskSrc → Raw
  | .src a imm => { putA r a with imm := imm }
  | .cm m => { r with fmt := 1, imm := at_ 0 m }

def expCode (r : Raw) (pin : Bool) (o : ExpOps) : Raw :=
  { putB r o.b with
    d := dstCode o.d, akind := true, a := s6 o.a,
    imm := at_ 23 (BitVec.ofBool pin) ||| at_ 20 o.m ||| at_ 0 o.imm }

def tgtA (r : Raw) (a : Tgt) : Raw := { r with akind := (tgtCode a).1, a := (tgtCode a).2 }

def csrwCode (r : Raw) (form : BitVec 3) (c : Csr) (a : Src) : Raw :=
  { putA r a with fmt := form, imm := atN 0 (csrCode c) }

/-- The fields of an instruction's word; none for a machine step, which has no encoding. -/
def raw? : Instr → Option Raw
  | .nop h => some (base 0 0x00 h)
  | .bra h off join =>
    some { base 0 0x01 h with d := join.extractLsb' 16 8, a := join.extractLsb' 8 8, b := join.extractLsb' 0 8, imm := off }
  | .brx h a join => some { tgtA (base 0 0x02 h) a with imm := join }
  | .call h d off => some { base 0 0x03 h with d := d, imm := off }
  | .callx h d a => some { tgtA (base 0 0x04 h) a with d := d }
  | .ret h a => some (tgtA (base 0 0x05 h) a)
  | .exit h => some (base 0 0x06 h)
  | .trap h code a => some { putA (base 0 0x07 h) a with imm := at_ 0 code }
  | .msave h d => some { base 0 0x08 h with d := dstCode d }
  | .mand h x => some (maskCode (base 0 0x09 h) x)
  | .mor h x => some (maskCode (base 0 0x0A h) x)
  | .mrest h x => some (maskCode (base 0 0x0B h) x)
  | .regroup h off a => some { putA (base 0 0x0C h) a with imm := off }
  | .launch h a => some { base 0 0x0D h with akind := true, a := s6 a }
  | .launchLane h a => some { base 0 0x0D h with a := a, fmt := 1 }
  | .iadd h w o => some (ops2Code (base 1 0x00 h) (iwCode w) o)
  | .isub h w o => some (ops2Code (base 1 0x01 h) (iwCode w) o)
  | .imul h w o => some (ops2Code (base 1 0x02 h) (iwCode w) o)
  | .imulh h w u o => some (ops2Code (base 1 0x03 h) (iwuCode w u) o)
  | .imad h w o => some (ops3Code (base 1 0x04 h) (iwCode w) o)
  | .imin h w u o => some (ops2Code (base 1 0x05 h) (iwuCode w u) o)
  | .imax h w u o => some (ops2Code (base 1 0x06 h) (iwuCode w u) o)
  | .iabs h w o => some (ops1Code (base 1 0x07 h) (iwCode w) o)
  | .and h w o => some (ops2Code (base 1 0x08 h) (iwCode w) o)
  | .or h w o => some (ops2Code (base 1 0x09 h) (iwCode w) o)
  | .xor h w o => some (ops2Code (base 1 0x0A h) (iwCode w) o)
  | .andn h w o => some (ops2Code (base 1 0x0B h) (iwCode w) o)
  | .shl h w o => some (ops2Code (base 1 0x0C h) (iwCode w) o)
  | .shr h w o => some (ops2Code (base 1 0x0D h) (iwCode w) o)
  | .sar h w o => some (ops2Code (base 1 0x0E h) (iwCode w) o)
  | .rotl h w o => some (ops2Code (base 1 0x0F h) (iwCode w) o)
  | .bfx h w u o => some (ops2Code (base 1 0x10 h) (iwuCode w u) o)
  | .bfi h w o => some (ops3Code (base 1 0x11 h) (iwCode w) o)
  | .popc h w o => some (ops1Code (base 1 0x12 h) (iwCode w) o)
  | .clz h w o => some (ops1Code (base 1 0x13 h) (iwCode w) o)
  | .brev h w o => some (ops1Code (base 1 0x14 h) (iwCode w) o)
  | .sel h w o => some (ops2Code (base 1 0x15 h) (iwCode w) o)
  | .mov h w o => some (ops1Code (base 1 0x16 h) (iwCode w) o)
  | .lea h sh u o => some (ops2Code (base 1 0x17 h) (sh.setWidth 3 + (if u then 4 else 0)) o)
  | .icmp h w u c o => some (cmpCode (base 1 0x18 h) (iwuCode w u) (icondCode c) o)
  | .fadd h f o => some (ops2Code (base 2 0x00 h) (ffCode f) o)
  | .fsub h f o => some (ops2Code (base 2 0x01 h) (ffCode f) o)
  | .fmul h f o => some (ops2Code (base 2 0x02 h) (ffCode f) o)
  | .ffma h f o => some (ops3Code (base 2 0x03 h) (ffCode f) o)
  | .fmin h f o => some (ops2Code (base 2 0x04 h) (ffCode f) o)
  | .fmax h f o => some (ops2Code (base 2 0x05 h) (ffCode f) o)
  | .fcmp h f c o => some (cmpCode (base 2 0x06 h) (ffCode f) (fcondCode c) o)
  | .frcp h f o => some (ops1Code (base 2 0x07 h) (ffCode f) o)
  | .frsq h f o => some (ops1Code (base 2 0x08 h) (ffCode f) o)
  | .fsqrt h f o => some (ops1Code (base 2 0x09 h) (ffCode f) o)
  | .fex2 h f o => some (ops1Code (base 2 0x0A h) (ffCode f) o)
  | .flg2 h f o => some (ops1Code (base 2 0x0B h) (ffCode f) o)
  | .fsin h f o => some (ops1Code (base 2 0x0C h) (ffCode f) o)
  | .fcos h f o => some (ops1Code (base 2 0x0D h) (ffCode f) o)
  | .fcvt h o =>
    some { putMods (putA (base 2 0x0E h) o.a) o.mods with
      d := dstCode o.d, bkind := o.scalar,
      imm := at_ 23 o.xv ||| at_ 20 o.k ||| at_ 17 o.j ||| at_ 15 o.sat ||| at_ 12 o.rnd ||| at_ 6 o.srct ||| at_ 0 o.dstt }
  | .fcls h f sc mods m a set =>
    some { putMods (putA (base 2 0x0F h) a) mods with
      fmt := ffCode f, bkind := sc, d := m.setWidth 8, imm := at_ 0 set }
  | .frnd h f sc mods d a rnd =>
    some { putMods (putA (base 2 0x10 h) a) mods with
      fmt := ffCode f, bkind := sc, d := dstCode d, imm := at_ 0 rnd }
  | .fscl h f o => some (ops2Code (base 2 0x11 h) (ffCode f) o)
  | .shfl h mode pair d a b imm =>
    some { putB (base 3 0x00 h) b with d := d, a := a, fmt := shflCode mode + (if pair then 4 else 0), imm := imm }
  | .vote h mode d a =>
    some { base 3 0x01 h with d := ldstCode d, a := a, imm := atN 0 (voteCode mode) ||| atN 4 (ldstBit d) }
  | .redux h op f d a =>
    some { base 3 0x02 h with d := ldstCode d, a := a, fmt := f, imm := atN 0 (reduxCode op) ||| atN 4 (ldstBit d) }
  | .matchLanes h pair d a => some { base 3 0x03 h with d := d, a := a, fmt := if pair then 1 else 0 }
  | .prmt h d a b c imm =>
    some { putB (base 3 0x04 h) b with
      d := d, a := a, ckind := c != Src.imm, imm := if c = Src.imm then imm else cregCode c }
  | .ldg h o => some (memCode (base 4 0x00 h) o)
  | .stg h o => some (memCode (base 4 0x01 h) o)
  | .lds h o => some (memCode (base 4 0x02 h) o)
  | .sts h o => some (memCode (base 4 0x03 h) o)
  | .ldw h o => some (memCode (base 4 0x04 h) o)
  | .stw h o => some (memCode (base 4 0x05 h) o)
  | .ldc h o => some (memCode (base 4 0x06 h) o)
  | .pref h level o => some { addrCode (base 4 0x07 h) .relaxed 0 o with fmt := level.setWidth 3 }
  | .fence h kind scope => some { base 4 0x08 h with imm := atN 30 (ordCode kind) ||| at_ 26 scope }
  | .cflush h op o => some { addrCode (base 4 0x09 h) .relaxed 0 o with fmt := op.setWidth 3 }
  | .atom h op o => some (atomOpsCode (base 5 0x00 h) (dstCode o.d) (atomCode op) o)
  | .acas h o => some (atomOpsCode (base 5 0x01 h) (dstCode o.d) 0 o)
  | .red h op dsz o => some (atomOpsCode (base 5 0x02 h) (if dsz then 0xFE else 0) (atomCode op) o)
  | .rdlk h m o => some (atomOpsCode (base 5 0x03 h) (dstCode o.d) m.toNat o)
  | .rdul h m o => some (atomOpsCode (base 5 0x04 h) (dstCode o.d) m.toNat o)
  | .wrlk h m o => some (atomOpsCode (base 5 0x05 h) (dstCode o.d) m.toNat o)
  | .wrul h m o => some (atomOpsCode (base 5 0x06 h) (dstCode o.d) m.toNat o)
  | .barw h w c => some { base 5 0x07 h with fmt := barFmt w, d := c.setWidth 8, imm := barImm w c }
  | .barwWait h w p =>
    some { base 5 0x07 h with fmt := barFmt w, bkind := (tgtCode p).1, b := (tgtCode p).2, imm := atN 15 1 ||| barImm w 0 }
  | .bara h w d c => some { base 5 0x08 h with fmt := barFmt w, d := dstCode d, b := c.setWidth 8, imm := barImm w c }
  | .barx h w arr bytes imm =>
    some { putB (base 5 0x09 h) bytes with
      fmt := barFmt w, d := (arr.getD 0).setWidth 8,
      imm := at_ 16 imm ||| (if arr.isSome then atN 14 1 else 0) ||| barImm w (arr.getD 0) }
  | .lock h m d a b imm =>
    some { putB (base 5 0x0A h) b with d := dstCode d, akind := true, a := s6 a, imm := at_ 20 m ||| at_ 0 imm }
  | .lockt h m d a => some { base 5 0x0B h with d := dstCode d, akind := true, a := s6 a, imm := at_ 20 m }
  | .unlock h m d a => some { base 5 0x0C h with d := dstCode d, akind := true, a := s6 a, imm := at_ 20 m }
  | .cpy h o => some (copyCode (base 6 0x00 h) o)
  | .cpyg h o => some (copyCode (base 6 0x01 h) o)
  | .cpyw h o => some (copyCode (base 6 0x02 h) o)
  | .gres h slot x imm => some { putA (base 6 0x03 h) x with d := slot.setWidth 8, imm := imm }
  | .gresFree h slot => some { base 6 0x03 h with d := slot.setWidth 8, fmt := 1 }
  | .sbwait h scr a b len =>
    some { putB (base 6 0x04 h) b with
      akind := (baseCode a).1, a := (baseCode a).2, imm := at_ 24 (BitVec.ofBool scr) ||| at_ 0 len }
  | .sbwaitAll h => some { base 6 0x04 h with fmt := 1 }
  | .cdone h gs scope a b =>
    some { base 6 0x05 h with
      akind := true, a := s6 a, bkind := (baseCode b).1, b := (baseCode b).2, imm := gsCode gs ||| at_ 24 scope }
  | .mxlw h o =>
    some { base 6 0x06 h with
      akind := true, a := s6 o.a,
      imm := gsCode o.gs ||| at_ 22 o.fmt ||| at_ 20 o.scale ||| at_ 16 o.xv ||| at_ 15 (BitVec.ofBool o.tr) ||| at_ 13 o.bay }
  | .mxswap h gs mask => some { base 6 0x07 h with imm := gsCode gs ||| at_ 12 mask }
  | .mxloop h o =>
    some { base 6 0x08 h with
      akind := true, a := s6 o.a, bkind := true, b := s6 o.b,
      imm := gsCode o.gs ||| at_ 22 o.fmt ||| at_ 20 o.scale ||| at_ 16 o.xv ||| at_ 12 o.mask ||| at_ 6 o.rb ||| at_ 0 o.m1 }
  | .mxdrain h o =>
    some { base 6 0x09 h with
      fmt := (match o.dst with | .v _ => 1 | .s _ => 0),
      d := (match o.dst with | .v r => r | .s _ => 0),
      akind := true, a := (match o.dst with | .v _ => 0xFE | .s r => s6 r),
      bkind := (baseCode o.b).1, b := (baseCode o.b).2,
      imm := gsCode o.gs ||| at_ 22 o.dfmt ||| at_ 19 o.rnd ||| at_ 17 o.sat ||| atN 14 (epiCode o.epi) ||| at_ 12 o.bay
        ||| at_ 6 o.rb ||| at_ 0 o.m1 }
  | .mxzero h gs mask rb m1 =>
    some { base 6 0x0A h with imm := gsCode gs ||| at_ 12 mask ||| at_ 6 rb ||| at_ 0 m1 }
  | .xfetch h pin o => some (expCode (base 6 0x0B h) pin o)
  | .xcnt h a b c immB immC =>
    some { putB (base 6 0x0C h) b with
      akind := true, a := s6 a, ckind := c != Src.imm,
      imm := if c = Src.imm then at_ 0 immC else if b = Src.imm then at_ 9 immB ||| cregCode c else cregCode c }
  | .xpin h o => some (expCode (base 6 0x0D h) false o)
  | .xunpin h o => some (expCode (base 6 0x0E h) false o)
  | .xstat h sel o => some { expCode (base 6 0x0F h) false o with fmt := sel }
  | .coll h o =>
    some { base 6 0x10 h with
      fmt := o.typ, d := s6 o.d, akind := true, a := s6 o.a, bkind := true, b := s6 o.b,
      imm := gsCode o.gs ||| at_ 24 o.scope ||| at_ 16 o.retries ||| at_ 0 o.op }
  | .ensure h n1 a b first test =>
    some { base 7 0x00 h with
      fmt := n1, akind := true, a := s6 a, bkind := (baseCode b).1, b := (baseCode b).2, imm := at_ 16 first ||| at_ 0 test }
  | .elseby h off => some { base 7 0x01 h with imm := at_ 0 off }
  | .elseerr h => some (base 7 0x02 h)
  | .accept h => some (base 7 0x03 h)
  | .reject h a => some (putA (base 7 0x04 h) a)
  | .conv h a => some { base 7 0x05 h with akind := true, a := s6 a }
  | .convx h a => some { base 7 0x06 h with akind := true, a := s6 a }
  | .spawn h a die off =>
    some { putA (base 7 0x07 h) a with
      imm := (match die with | none => 0 | some d => at_ 28 ((1 : BitVec 2) ++ d)) ||| at_ 0 off }
  | .tend h => some (base 7 0x08 h)
  | .tabort h => some (base 7 0x09 h)
  | .csrr h d c => some { base 7 0x0A h with d := dstCode d, imm := atN 0 (csrCode c) }
  | .csrwWr h c a => some (csrwCode (base 7 0x0B h) 0 c a)
  | .csrwSet h c a => some (csrwCode (base 7 0x0B h) 1 c a)
  | .csrwClr h c a => some (csrwCode (base 7 0x0B h) 2 c a)
  | .npe h => some (base 7 0x0C h)
  | .pen h => some (base 7 0x0D h)
  | .snap h d => some { base 7 0x0E h with d := dstCode d }
  | .tret h => some (base 7 0x0F h)
  | .halt h code => some { base 7 0x10 h with imm := at_ 0 code }
  | _ => none

/-- The parameter block that follows an instruction's word (R66). -/
def params : Instr → Option PBlock
  | .cpy _ o | .cpyg _ o | .cpyw _ o => some o.p
  | .mxloop _ o => some o.p
  | .coll _ o => some o.p
  | _ => none

/-- The code words of an instruction, the one at its PC first (R54, R66); none for a machine step. -/
def words (i : Instr) : List (BitVec 32) :=
  match raw? i with
  | none => []
  | some r =>
    let w := assemble r
    [w.extractLsb' 0 32, w.extractLsb' 32 32, w.extractLsb' 64 32]
      ++ (match params i with | some p => pblockCode p | none => [])

/-! ### The decoder -/

def hdrOf (r : Raw) : Hdr := ⟨r.gneg, r.gidx, r.stall, r.yield⟩
def modsOf (r : Raw) : Mods := ⟨r.mclass, r.mseg, r.mdist, r.mneg, r.mabs⟩
def aOf (r : Raw) : Option Src := srcOf r.akind r.a
def bOf (r : Raw) : Option Src := srcOf r.bkind r.b
def tOf (r : Raw) : Option Tgt := tgtOf r.akind r.a
def baseA (r : Raw) : Option Base := baseOf r.akind r.a
def baseB (r : Raw) : Option Base := baseOf r.bkind r.b
def a6 (r : Raw) : BitVec 6 := r.a.setWidth 6
def b6 (r : Raw) : BitVec 6 := r.b.setWidth 6
def d6 (r : Raw) : BitVec 6 := r.d.setWidth 6
def gsOf (r : Raw) : GSlot := if sub r 31 1 = 1 then some (sub r 28 3) else none

/-- The C operand of R57. -/
def cOf (r : Raw) : Option Src := if r.ckind then srcOf (sub r 8 1 == 1) (sub r 0 8) else some .imm

def isVec : Src → Bool
  | .v _ => true
  | _ => false

def ops1Of (r : Raw) : Option Ops1 := do
  let a ← aOf r
  let d ← dstOf (!r.bkind) r.d
  pure ⟨r.bkind, modsOf r, d, a, r.imm⟩

def ops2Of (r : Raw) : Option Ops2 := do
  let a ← aOf r
  let b ← bOf r
  let d ← dstOf (isVec a || isVec b) r.d
  pure ⟨modsOf r, d, a, b, r.imm⟩

def ops3Of (r : Raw) : Option Ops3 := do
  let a ← aOf r
  let b ← bOf r
  let c ← cOf r
  let d ← dstOf (isVec a || isVec b || isVec c) r.d
  pure ⟨modsOf r, d, a, b, c, if r.ckind then 0 else r.imm⟩

def cmpOf (r : Raw) : Option OpsCmp := do
  let a ← aOf r
  let b ← bOf r
  pure ⟨modsOf r, r.d.setWidth 3, a, b, r.imm⟩

def addrOf (r : Raw) : Option AddrOps := do
  let a ← baseA r
  let b ← bOf r
  pure ⟨a, b, sub r 22 2, sub r 0 22, sub r 26 4⟩

/-- D of a load or store: a register on the instruction's side (R172). -/
def memOf (r : Raw) : Option MemOps := do
  let o ← addrOf r
  let w ← mwOf r.fmt.toNat
  let d ← srcOf (!((!r.akind) || (!r.bkind))) r.d
  pure ⟨w, ordOf (immBits r 30 2), sub r 24 2, d, o⟩

def atomOpsOf (r : Raw) (hasD : Bool) : Option AtomOps := do
  let a ← baseA r
  let b ← bOf r
  let d ← if hasD then dstOf ((!r.akind) || (!r.bkind)) r.d else some .sz
  pure ⟨r.fmt == 1, ordOf (immBits r 30 2), sub r 26 4, cspaceOf (immBits r 24 2), d, a, b, sub r 0 20⟩

def barOf (r : Raw) : BarRef := ⟨r.fmt == 1, sub r 5 2, sub r 0 4⟩
def countOf (r : Raw) (low : BitVec 8) : BitVec 11 := sub r 11 3 ++ low

def copyOf (r : Raw) (p : PBlock) : CopyOps :=
  ⟨r.fmt, gsOf r, sub r 24 4, sub r 22 2, sub r 20 2, sub r 19 1 == 1, sub r 15 4, sub r 9 6, d6 r, a6 r,
    if r.b = 0xFE then none else some (b6 r), p⟩

def maskOf (r : Raw) : Option MaskSrc :=
  if r.fmt = 1 then some (.cm (sub r 0 3)) else (aOf r).map (fun a => .src a r.imm)

def ldstOf (r : Raw) : LDst := if sub r 4 1 = 1 then .s (d6 r) else .v r.d

def expOf (r : Raw) : Option ExpOps := do
  let b ← bOf r
  let d ← dstOf false r.d
  pure ⟨sub r 20 3, d, a6 r, b, sub r 0 20⟩

def class0 (r : Raw) : Option Instr :=
  let h := hdrOf r
  match r.op.toNat with
  | 0x00 => some (.nop h)
  | 0x01 => some (.bra h r.imm (r.d ++ r.a ++ r.b))
  | 0x02 => (tOf r).map (fun a => .brx h a r.imm)
  | 0x03 => some (.call h r.d r.imm)
  | 0x04 => (tOf r).map (fun a => .callx h r.d a)
  | 0x05 => (tOf r).map (fun a => .ret h a)
  | 0x06 => some (.exit h)
  | 0x07 => (aOf r).map (fun a => .trap h (sub r 0 8) a)
  | 0x08 => (dstOf false r.d).map (fun d => .msave h d)
  | 0x09 => (maskOf r).map (fun x => .mand h x)
  | 0x0A => (maskOf r).map (fun x => .mor h x)
  | 0x0B => (maskOf r).map (fun x => .mrest h x)
  | 0x0C => (aOf r).map (fun a => .regroup h r.imm a)
  | 0x0D => some (if r.fmt = 1 then .launchLane h r.a else .launch h (a6 r))
  | _ => none

def class1 (r : Raw) : Option Instr :=
  let h := hdrOf r
  let w := iwOf r.fmt.toNat
  let u := r.fmt.getLsbD 2
  match r.op.toNat with
  | 0x00 => (ops2Of r).map (fun o => .iadd h w o)
  | 0x01 => (ops2Of r).map (fun o => .isub h w o)
  | 0x02 => (ops2Of r).map (fun o => .imul h w o)
  | 0x03 => (ops2Of r).map (fun o => .imulh h w u o)
  | 0x04 => (ops3Of r).map (fun o => .imad h w o)
  | 0x05 => (ops2Of r).map (fun o => .imin h w u o)
  | 0x06 => (ops2Of r).map (fun o => .imax h w u o)
  | 0x07 => (ops1Of r).map (fun o => .iabs h w o)
  | 0x08 => (ops2Of r).map (fun o => .and h w o)
  | 0x09 => (ops2Of r).map (fun o => .or h w o)
  | 0x0A => (ops2Of r).map (fun o => .xor h w o)
  | 0x0B => (ops2Of r).map (fun o => .andn h w o)
  | 0x0C => (ops2Of r).map (fun o => .shl h w o)
  | 0x0D => (ops2Of r).map (fun o => .shr h w o)
  | 0x0E => (ops2Of r).map (fun o => .sar h w o)
  | 0x0F => (ops2Of r).map (fun o => .rotl h w o)
  | 0x10 => (ops2Of r).map (fun o => .bfx h w u o)
  | 0x11 => (ops3Of r).map (fun o => .bfi h w o)
  | 0x12 => (ops1Of r).map (fun o => .popc h w o)
  | 0x13 => (ops1Of r).map (fun o => .clz h w o)
  | 0x14 => (ops1Of r).map (fun o => .brev h w o)
  | 0x15 => (ops2Of r).map (fun o => .sel h w o)
  | 0x16 => (ops1Of r).map (fun o => .mov h w o)
  | 0x17 => (ops2Of r).map (fun o => .lea h (r.fmt.setWidth 2) u o)
  | 0x18 => do
    let c ← icondOf (r.d.toNat / 32)
    let o ← cmpOf r
    pure (.icmp h w u c o)
  | _ => none

def class2 (r : Raw) : Option Instr := do
  let h := hdrOf r
  let f ← ffOf r.fmt.toNat
  match r.op.toNat with
  | 0x00 => (ops2Of r).map (fun o => .fadd h f o)
  | 0x01 => (ops2Of r).map (fun o => .fsub h f o)
  | 0x02 => (ops2Of r).map (fun o => .fmul h f o)
  | 0x03 => (ops3Of r).map (fun o => .ffma h f o)
  | 0x04 => (ops2Of r).map (fun o => .fmin h f o)
  | 0x05 => (ops2Of r).map (fun o => .fmax h f o)
  | 0x06 => (cmpOf r).map (fun o => .fcmp h f (fcondOf (r.d.toNat / 32)) o)
  | 0x07 => (ops1Of r).map (fun o => .frcp h f o)
  | 0x08 => (ops1Of r).map (fun o => .frsq h f o)
  | 0x09 => (ops1Of r).map (fun o => .fsqrt h f o)
  | 0x0A => (ops1Of r).map (fun o => .fex2 h f o)
  | 0x0B => (ops1Of r).map (fun o => .flg2 h f o)
  | 0x0C => (ops1Of r).map (fun o => .fsin h f o)
  | 0x0D => (ops1Of r).map (fun o => .fcos h f o)
  | 0x0E => do
    let o ← ops1Of r
    pure (.fcvt h ⟨o.scalar, o.mods, o.d, o.a, sub r 23 4, sub r 20 3, sub r 17 3, sub r 15 2, sub r 12 3, sub r 6 6, sub r 0 6⟩)
  | 0x0F => (aOf r).map (fun a => .fcls h f r.bkind (modsOf r) (r.d.setWidth 3) a (sub r 0 10))
  | 0x10 => (ops1Of r).map (fun o => .frnd h f o.scalar o.mods o.d o.a (sub r 0 3))
  | 0x11 => (ops2Of r).map (fun o => .fscl h f o)
  | _ => none

def class3 (r : Raw) : Option Instr :=
  let h := hdrOf r
  match r.op.toNat with
  | 0x00 => (bOf r).map (fun b => .shfl h (shflOf r.fmt.toNat) (r.fmt.getLsbD 2) r.d r.a b r.imm)
  | 0x01 => some (.vote h (voteOf (immBits r 0 2)) (ldstOf r) r.a)
  | 0x02 => (reduxOf (immBits r 0 4)).map (fun op => .redux h op r.fmt (ldstOf r) r.a)
  | 0x03 => some (.matchLanes h (r.fmt == 1) r.d r.a)
  | 0x04 => do
    let b ← bOf r
    let c ← cOf r
    pure (.prmt h r.d r.a b c (if r.ckind then 0 else r.imm))
  | _ => none

def class4 (r : Raw) : Option Instr :=
  let h := hdrOf r
  match r.op.toNat with
  | 0x00 => (memOf r).map (fun o => .ldg h o)
  | 0x01 => (memOf r).map (fun o => .stg h o)
  | 0x02 => (memOf r).map (fun o => .lds h o)
  | 0x03 => (memOf r).map (fun o => .sts h o)
  | 0x04 => (memOf r).map (fun o => .ldw h o)
  | 0x05 => (memOf r).map (fun o => .stw h o)
  | 0x06 => (memOf r).map (fun o => .ldc h o)
  | 0x07 => (addrOf r).map (fun o => .pref h (r.fmt.setWidth 2) o)
  | 0x08 => some (.fence h (ordOf (immBits r 30 2)) (sub r 26 4))
  | 0x09 => (addrOf r).map (fun o => .cflush h (r.fmt.setWidth 2) o)
  | _ => none

def class5 (r : Raw) : Option Instr :=
  let h := hdrOf r
  match r.op.toNat with
  | 0x00 => do
    let op ← atomOf (immBits r 20 4)
    let o ← atomOpsOf r true
    pure (.atom h op o)
  | 0x01 => (atomOpsOf r true).map (fun o => .acas h o)
  | 0x02 => do
    let op ← atomOf (immBits r 20 4)
    let o ← atomOpsOf r false
    pure (.red h op (r.d == 0xFE) o)
  | 0x03 => (atomOpsOf r true).map (fun o => .rdlk h (sub r 20 3) o)
  | 0x04 => (atomOpsOf r true).map (fun o => .rdul h (sub r 20 3) o)
  | 0x05 => (atomOpsOf r true).map (fun o => .wrlk h (sub r 20 3) o)
  | 0x06 => (atomOpsOf r true).map (fun o => .wrul h (sub r 20 3) o)
  | 0x07 =>
    if sub r 15 1 = 1 then (tgtOf r.bkind r.b).map (fun p => .barwWait h (barOf r) p)
    else some (.barw h (barOf r) (countOf r r.d))
  | 0x08 => (dstOf false r.d).map (fun d => .bara h (barOf r) d (countOf r r.b))
  | 0x09 =>
    (bOf r).map (fun b =>
      .barx h (barOf r) (if sub r 14 1 = 1 then some (countOf r r.d) else none) b (sub r 16 16))
  | 0x0A => do
    let b ← bOf r
    let d ← dstOf false r.d
    pure (.lock h (sub r 20 3) d (a6 r) b (sub r 0 20))
  | 0x0B => (dstOf false r.d).map (fun d => .lockt h (sub r 20 3) d (a6 r))
  | 0x0C => (dstOf false r.d).map (fun d => .unlock h (sub r 20 3) d (a6 r))
  | _ => none

def class6 (r : Raw) (p : PBlock) : Option Instr :=
  let h := hdrOf r
  match r.op.toNat with
  | 0x00 => some (.cpy h (copyOf r p))
  | 0x01 => some (.cpyg h (copyOf r p))
  | 0x02 => some (.cpyw h (copyOf r p))
  | 0x03 =>
    if r.fmt = 1 then some (.gresFree h (r.d.setWidth 3))
    else (aOf r).map (fun x => .gres h (r.d.setWidth 3) x r.imm)
  | 0x04 =>
    if r.fmt = 1 then some (.sbwaitAll h)
    else do
      let a ← baseA r
      let b ← bOf r
      pure (.sbwait h (sub r 24 1 == 1) a b (sub r 0 24))
  | 0x05 => (baseB r).map (fun b => .cdone h (gsOf r) (sub r 24 4) (a6 r) b)
  | 0x06 => some (.mxlw h ⟨gsOf r, sub r 22 6, sub r 20 2, sub r 16 4, sub r 15 1 == 1, sub r 13 2, a6 r⟩)
  | 0x07 => some (.mxswap h (gsOf r) (sub r 12 4))
  | 0x08 =>
    some (.mxloop h ⟨gsOf r, sub r 22 6, sub r 20 2, sub r 16 4, sub r 12 4, sub r 6 6, sub r 0 6, a6 r, b6 r, p⟩)
  | 0x09 => do
    let epi ← epiOf (immBits r 14 3)
    let b ← baseB r
    let dst := if r.fmt = 1 then Tgt.v r.d else Tgt.s (a6 r)
    pure (.mxdrain h ⟨gsOf r, dst, b, sub r 22 6, sub r 19 3, sub r 17 2, epi, sub r 12 2, sub r 6 6, sub r 0 6⟩)
  | 0x0A => some (.mxzero h (gsOf r) (sub r 12 4) (sub r 6 6) (sub r 0 6))
  | 0x0B => (expOf r).map (fun o => .xfetch h (sub r 23 1 == 1) o)
  | 0x0C => do
    let b ← bOf r
    let c ← cOf r
    pure (.xcnt h (a6 r) b c (if r.ckind && b == Src.imm then sub r 9 20 else 0) (if r.ckind then 0 else sub r 0 20))
  | 0x0D => (expOf r).map (fun o => .xpin h o)
  | 0x0E => (expOf r).map (fun o => .xunpin h o)
  | 0x0F => (expOf r).map (fun o => .xstat h r.fmt o)
  | 0x10 => some (.coll h ⟨r.fmt, gsOf r, sub r 24 4, sub r 16 8, sub r 0 2, d6 r, a6 r, b6 r, p⟩)
  | _ => none

def class7 (r : Raw) : Option Instr :=
  let h := hdrOf r
  match r.op.toNat with
  | 0x00 => (baseB r).map (fun b => .ensure h r.fmt (a6 r) b (sub r 16 16) (sub r 0 16))
  | 0x01 => some (.elseby h (sub r 0 24))
  | 0x02 => some (.elseerr h)
  | 0x03 => some (.accept h)
  | 0x04 => (aOf r).map (fun a => .reject h a)
  | 0x05 => some (.conv h (a6 r))
  | 0x06 => some (.convx h (a6 r))
  | 0x07 =>
    (aOf r).map (fun a => .spawn h a (if sub r 30 2 = 1 then some (sub r 28 2) else none) (sub r 0 28))
  | 0x08 => some (.tend h)
  | 0x09 => some (.tabort h)
  | 0x0A => do
    let d ← dstOf false r.d
    let c ← csrOf (immBits r 0 12)
    pure (.csrr h d c)
  | 0x0B => do
    let a ← aOf r
    let c ← csrOf (immBits r 0 12)
    match r.fmt.toNat with
    | 0 => pure (.csrwWr h c a)
    | 1 => pure (.csrwSet h c a)
    | 2 => pure (.csrwClr h c a)
    | _ => none
  | 0x0C => some (.npe h)
  | 0x0D => some (.pen h)
  | 0x0E => (dstOf false r.d).map (fun d => .snap h d)
  | 0x0F => some (.tret h)
  | 0x10 => some (.halt h (sub r 0 8))
  | _ => none

/-- The last operation number of each class (R75). -/
def lastOp (cls : Nat) : Nat :=
  match cls with
  | 0 => 0x0D | 1 => 0x18 | 2 => 0x11 | 3 => 0x04 | 4 => 0x09 | 5 => 0x0C | 6 => 0x10 | _ => 0x10

/-- R66: CPY, CPYG, CPYW, MXLOOP and COLL carry a parameter block. -/
def hasParams (r : Raw) : Bool :=
  r.cls == 6 && (decide (r.op.toNat ≤ 2) || r.op == 0x08 || r.op == 0x10)

/-- What a word and its parameter block would name, before the checks of R77. -/
def candidate (r : Raw) (p : PBlock) : Option Instr :=
  match r.cls.toNat with
  | 0 => class0 r
  | 1 => class1 r
  | 2 => class2 r
  | 3 => class3 r
  | 4 => class4 r
  | 5 => class5 r
  | 6 => class6 r p
  | _ => class7 r

/-- The outcome of decoding. -/
inductive Result where
  | ok (i : Instr)
  | illegal
  | reserved
  deriving DecidableEq, Repr

/-- Decodes fields and the four words after the instruction word, which are read only where R66 says so:
ILLEGAL_OP for an unassigned operation number (R75), RESERVED_ENC under R77. -/
def decodeRaw (r : Raw) (ps : List (BitVec 32)) : Result :=
  if lastOp r.cls.toNat < r.op.toNat then .illegal
  else
    match candidate r (pblockOf ps) with
    | none => .reserved
    | some i =>
      if i.wellFormed && raw? i == some r && (!hasParams r || (params i).map pblockCode == some ps) then .ok i
      else .reserved

/-- The 96-bit word of three code words, the one at the PC first (R54). -/
def join3 (w0 w1 w2 : BitVec 32) : BitVec 96 := w2 ++ w1 ++ w0

/-- Decodes code words: the three at the PC and, where a parameter block follows, four more. -/
def decode (ws : List (BitVec 32)) : Result :=
  let r := fields (join3 (ws.getD 0 0) (ws.getD 1 0) (ws.getD 2 0))
  decodeRaw r [ws.getD 3 0, ws.getD 4 0, ws.getD 5 0, ws.getD 6 0]

/-- Code words as the little-endian bytes that memory holds (R4), the first at the lowest address. -/
def codeBytes (ws : List (BitVec 32)) : List Byte :=
  ws.flatMap (fun w => [w.extractLsb' 0 8, w.extractLsb' 8 8, w.extractLsb' 16 8, w.extractLsb' 24 8])

/-- Code word `n` of a number whose lowest bits are the first word. -/
def wordAt (x n : Nat) : BitVec 32 := BitVec.ofNat 32 (x / 2 ^ (32 * n))

/-- The code words of an instruction given as a number, bit 0 the lowest bit of the first word; bits above
`nbits` are 0. -/
def tableWords (nbits w : Nat) : List (BitVec 32) :=
  let x := w % 2 ^ nbits
  [wordAt x 0, wordAt x 1, wordAt x 2, wordAt x 3, wordAt x 4, wordAt x 5, wordAt x 6]

end Decode

/-- The encoder: the code words of a well-formed instruction. -/
def encode (i : Instr) : List (BitVec 32) := Decode.words i

/-- The instruction that the decoder reads from a row's word of the opcode table. -/
def decodeTableWord (nbits w : Nat) : Option Instr :=
  match Decode.decode (Decode.tableWords nbits w) with
  | .ok i => some i
  | _ => none

end Sys2Proof
end

