-- ==== Sys2Proof/Machine/Directory.lean ====
section
/-!
DEFINITION. Expert directories (R263, R264): the fields of a header and of an entry in memory, decay (R266), the pool's
blocks (R267), and what a request does to its entry (R274 to R277).
-/
namespace Sys2Proof.Machine

/-! ### Fields -/

/-- The header fields of R263, by their first byte. -/
structure DirHeader where
  e : Nat
  h : Nat
  poolpa : Nat
  poolva : Nat
  poolsize : Nat
  resident : Nat
  fetches : Nat
  evictions : Nat
  deriving DecidableEq, Repr

def readHeader (s : State) (pa : Nat) : DirHeader :=
  { e := readNat s pa 4, h := readNat s (pa + 4) 4, poolpa := readNat s (pa + 8) 8, poolva := readNat s (pa + 16) 8,
    poolsize := readNat s (pa + 24) 8, resident := readNat s (pa + 32) 8, fetches := readNat s (pa + 40) 8,
    evictions := readNat s (pa + 48) 8 }

/-- The entry fields of R264. -/
structure DirEntry where
  state : Nat
  cause : Nat
  kind : Nat
  peer : Nat
  pooloff : Nat
  backing : Nat
  size : Nat
  pins : Nat
  count : Nat
  base : Nat
  last : Nat
  deriving DecidableEq, Repr

def readEntry (s : State) (pa : Nat) : DirEntry :=
  { state := readNat s pa 1, cause := readNat s (pa + 1) 1, kind := readNat s (pa + 2) 1, peer := readNat s (pa + 4) 2,
    pooloff := readNat s (pa + 8) 8, backing := readNat s (pa + 16) 8, size := readNat s (pa + 24) 4,
    pins := readNat s (pa + 28) 4, count := readNat s (pa + 32) 8, base := readNat s (pa + 40) 8, last := readNat s (pa + 48) 8 }

/-- Entry e of a directory. -/
def entryPa (header e : Nat) : Nat := header + 64 * (e + 1)

/-- A field written by its agent. -/
def putField (s : State) (pa n x : Nat) (carry : List Nat) : State := putApplied s none pa (leBytes n x) carry true

/-- The die that serves a directory: that of its HBM4E. -/
def servingDie (header : Nat) : Option Nat :=
  match placeOf header with
  | .hbm d => some d
  | _ => none

/-- A header registered with the manager of the die where it lies. -/
def registered (s : State) (header : Nat) : Bool :=
  (servingDie header).elim false (fun d => (s.die d).dirs.any (fun k => k.header == header))

/-- Fabric time of the serving die. -/
def dirTime (s : State) (header : Nat) : Nat := (s.die ((servingDie header).getD 0)).time

/-! ### Decay -/

/-- The whole halvings of R266. -/
def halvings (h now base : Nat) : Nat := (now - base) / 2 ^ h

def decayed (h now : Nat) (n : DirEntry) : Nat := n.count / 2 ^ halvings h now n.base

/-- XCNT's update of an entry (R266). -/
def countUse (h now n : Nat) (x : DirEntry) : DirEntry :=
  let k := halvings h now x.base
  { x with count := min (x.count / 2 ^ k + n) (2 ^ 64 - 1), base := x.base + k * 2 ^ h, last := now }

/-! ### The pool -/

def blocksFor (size : Nat) : Nat := (size + 65535) / 65536

/-- Moves the header's resident field. -/
def addResident (s : State) (header bytes : Nat) : State :=
  putField s (header + 32) 8 ((readHeader s header).resident + bytes) []
def subResident (s : State) (header bytes : Nat) : State :=
  putField s (header + 32) 8 ((readHeader s header).resident - bytes) []

/-- Experts that occupy blocks: those resident and those being copied, with first block and number. -/
def occupied (s : State) (die header : Nat) : List (Nat × Nat × Nat) :=
  (List.range (readHeader s header).e).filterMap (fun e =>
    let n := readEntry s (entryPa header e)
    if n.state = 0 ∨ (s.die die).fetching.any (fun f => f.header == header && f.e == e) then
      some (e, n.pooloff / 65536, blocksFor n.size)
    else none)

/-- The lowest run of `n` free blocks among `total`. -/
def freeRun (total n : Nat) (used : List (Nat × Nat × Nat)) : Option Nat :=
  (List.range (total + 1 - n)).find? (fun i => used.all (fun u => !overlaps i n u.2.1 u.2.2))

/-- Experts that may be evicted. -/
def evictable (s : State) (header : Nat) : List Nat :=
  (List.range (readHeader s header).e).filter (fun e =>
    let n := readEntry s (entryPa header e)
    n.state == 0 && n.pins == 0)

/-! ### Requests -/

/-- The result word of R272. -/
def expertWord (poolva : Nat) (n : DirEntry) (status : Nat) : Nat :=
  status * 2 ^ 61 + if status = 0 then (poolva + n.pooloff) % 2 ^ 57 else 0

/-- The entry refuses a fetch (R274), as it does once its directory has been withdrawn (R278, log 149). -/
def fetchRefused (s : State) (header : Nat) (hd : DirHeader) (n : DirEntry) : Bool :=
  !registered s header || n.size == 0 || n.size % 128 != 0 || decide (hd.poolsize < n.size)
    || decide (256 ≤ (s.die ((servingDie header).getD 0)).fetchQ.length)

/-- A request of R274 or R275: it succeeded or not, and what it returns. -/
structure ExpertResult where
  s : State
  val : Nat
  ok : Bool
  deriving Repr

/-- Changes what the manager of a directory keeps of its pins. -/
def setHeld (s : State) (header : Nat) (f : List (Nat × Nat) → List (Nat × Nat)) : State :=
  s.setDie ((servingDie header).getD 0) (fun d =>
    { d with dirs := d.dirs.map (fun k => if k.header = header then { k with held := f k.held } else k) })

/-- A pin of a group returned RESIDENT: an interval of R270 begins. -/
def pinTaken (s : State) (header e gid : Nat) : State := setHeld s header (fun l => l ++ [(e, gid)])

/-- A group's XUNPIN leaves `pins` pins on an expert: the interval that it matches ends, as do those for which no pin is left (R270). -/
def pinGiven (s : State) (header e gid pins : Nat) : State :=
  setHeld s header (fun l =>
    let l := l.erase (e, gid)
    l.filter (fun x => x.1 != e) ++ ((l.filter (fun x => x.1 == e)).take pins))

/-- XFETCH of a group at the entry (R274). -/
def fetchEntry (s : State) (header e gid : Nat) (pin : Bool) (carry : List Nat) : ExpertResult :=
  let pa := entryPa header e
  let hd := readHeader s header
  let n := readEntry s pa
  if n.state = 0 then
    if pin then
      if n.pins < 2 ^ 32 - 1 then
        ⟨pinTaken (putField s (pa + 28) 4 (n.pins + 1) carry) header e gid, expertWord hd.poolva n 0, true⟩
      else ⟨s, expertWord hd.poolva n 3, false⟩
    else ⟨s, expertWord hd.poolva n 0, true⟩
  else if n.state = 1 then ⟨s, expertWord hd.poolva n 1, false⟩
  else if fetchRefused s header hd n then ⟨s, expertWord hd.poolva n 3, false⟩
  else
    let s := putField (putField s pa 2 1 carry) (header + 40) 8 (hd.fetches + 1) []
    let s := s.setDie ((servingDie header).getD 0) (fun d => { d with fetchQ := d.fetchQ ++ [⟨header, e, 0, []⟩] })
    ⟨s, expertWord hd.poolva n (if n.state = 2 then 2 else 4), false⟩

/-- XPIN and XUNPIN of a group at the entry (R275). -/
def pinEntry (s : State) (header e gid : Nat) (pin : Bool) (carry : List Nat) : ExpertResult :=
  let pa := entryPa header e
  let n := readEntry s pa
  let ok := if pin then decide (n.pins < 2 ^ 32 - 1) else n.pins != 0
  let s' :=
    if !ok then s
    else if pin then
      let s := putField s (pa + 28) 4 (n.pins + 1) carry
      if n.state = 0 then pinTaken s header e gid else s
    else pinGiven (putField s (pa + 28) 4 (n.pins - 1) carry) header e gid (n.pins - 1)
  ⟨s', expertWord (readHeader s header).poolva n n.state, ok⟩

/-- What XSTAT reads (R276). -/
def statEntry (s : State) (header e sel : Nat) : Nat :=
  let hd := readHeader s header
  let n := readEntry s (entryPa header e)
  match sel with
  | 0 => expertWord hd.poolva n n.state
  | 1 => decayed hd.h (dirTime s header) n
  | 2 => n.count
  | 3 => n.last
  | 4 => n.pins
  | 5 => hd.resident
  | _ => (s.die ((servingDie header).getD 0)).fetchQ.length

/-- The expert number of a request: its entry's place in the directory that `data2` names. -/
def Acc.expert (a : Acc) : Nat := (a.pa - a.data2) / 64 - 1

/-- A request other than XCNT reaches its entry. -/
def expertEffect (s : State) (a : Acc) (carry : List Nat) : ExpertResult :=
  match a.kind with
  | .xfetch pin => fetchEntry s a.data2 a.expert (a.gid.getD 0) pin carry
  | .xpin => pinEntry s a.data2 a.expert (a.gid.getD 0) true carry
  | .xunpin => pinEntry s a.data2 a.expert (a.gid.getD 0) false carry
  | .xstat sel => ⟨s, statEntry s a.data2 a.expert sel, (readEntry s a.pa).state == 0⟩
  | _ => ⟨s, 0, false⟩

/-- XCNT requests, merged with the saturating sum of their increments, reach their entry (R266, R277). -/
def countEntry (s : State) (header pa n : Nat) (carry : List Nat) : State :=
  let x := countUse (readHeader s header).h (dirTime s header) n (readEntry s pa)
  putField s (pa + 32) 24 (x.count + (x.base % 2 ^ 64) * 2 ^ 64 + (x.last % 2 ^ 64) * 2 ^ 128) carry

end Sys2Proof.Machine
end

