-- ==== Sys2Proof/Machine/Ordering.lean ====
section
/-!
DEFINITION. The steps of the abstract machine (R199 to R204), the slices' leases and probes (R160 to R165), line errors
(R159), results that return (R64) and the schedulers' guard (R43).
-/
namespace Sys2Proof.Machine

/-! ### Results that return -/

/-- Every value of a result has returned. -/
def tokReady (k : Tok) : Bool := (k.vals.get? 32).isSome || (lanesOf k.lanes).all (fun l => (k.vals.get? l).isSome)

/-- The value of a lane: its own, or the one that a scalar-side access returned. -/
def Tok.val (k : Tok) (lane : Nat) : Nat := k.vals.getD lane (k.vals.getD 32 0)
def Tok.ok (k : Tok) (lane : Nat) : Bool := k.oks.getD lane (k.oks.getD 32 false)

/-- A loaded value in `w` bits, sign-extended where the width says so (R175). -/
def Tok.extend (k : Tok) (w x : Nat) : Nat := if k.sext then truncInt (toSigned x (8 * k.size)) w else x % 2 ^ (8 * k.size)

/-- What a result writes (R175, R185, R188). -/
def Tok.writes (k : Tok) : Writes :=
  let ls := lanesOf k.lanes
  let first := if (k.vals.get? 32).isSome then 32 else lowestLane k.lanes
  let d : Writes := match k.dst with
    | some (.v r) =>
      (List.range (max 1 (k.size / 4))).map (fun i =>
        (RegRef.v (r + i), ls.map (fun l => (l, k.extend (if k.size ≤ 4 then 32 else 8 * k.size) (k.val l) / 2 ^ (32 * i) % 2 ^ 32))))
    | some (.s r) => [(RegRef.s r, [(0, k.extend 64 (k.val first) % 2 ^ 64)])]
    | _ => []
  match k.mask with
  | some m => d ++ [(RegRef.cm m, ls.map (fun l => (l, if k.ok l then 1 else 0)))]
  | none => d

/-- The registers of a result are shored before it is written, in both groups of a pair (R317, R319): the first without room. -/
def shoreResult (s : State) (k : Tok) : State × Option Nat :=
  let d := ((s.groups.get? k.gid).map (depthOf s)).getD 0
  let regs := k.writes.map (·.1)
  match shoreDests s d k.gid regs with
  | (s, none) => if checkedGroup s k.gid then shoreDests s d (k.gid + 32) regs else (s, none)
  | x => x

/-- LOAD_COMPLETION (R64, R42): data that has returned is written and nothing waits for it any more. A result whose register finds no
room in the shoring is not written, and the alternate fails at its instruction (R319). -/
def execLoadCompletion (tok : Nat) (s : State) : Host.Outcome State Fault Refusal :=
  .next (
    match s.toks.get? tok with
    | none => s
    | some k =>
      if !tokReady k then s
      else
        let close (s : State) (ws : Writes) : State :=
          let s := wakeGroup (deliver s k.gid k.n tok ws) k.gid (.load tok) 0
          { s with accs := s.accs.filter (fun a => !(a.tok == some tok && a.stage == .satisfied)), toks := s.toks.del tok }
        match shoreResult s k, s.groups.get? k.gid with
        | (s', some r), some g =>
          failLevel (close s' []) g.blk (depthOf s' g) false Cause.shoreFull.code (BitVec.ofNat 64 r) k.pc g.index
        | (s', _), _ => close s' k.writes)

/-- SPLIT_STARVATION_GUARD (R43): a split that has stayed ready for 256 clk is issued first. -/
def execSplitStarvationGuard (core sched : Nat) (s : State) : Host.Outcome State Fault Refusal :=
  .next (
    if 256 ≤ core ∨ 4 ≤ sched then s
    else
      let waiting (g : Group) (i : Nat) : Option Nat :=
        match (g.splits.get? i).bind (·.readySince) with
        | some c => if c + 256 ≤ s.clk then some i else none
        | none => none
      let gs := s.groups.filter (fun p => coreOfGroup p.1 == core && schedOf p.1 == sched)
      let cand := gs.filterMap (fun p => ([0, 1, 2, 3].findSome? (waiting p.2)).map (fun i => (p.1, p.2.age, i)))
      match leastBy (fun x => x.2.1 * 64 + slotOf x.1) cand with
      | some x => s.setCore core (fun k => { k with forced := k.forced.put sched (x.1, x.2.2) })
      | none => s)

/-! ### Satisfy -/

/-- The access would exceed what a slot buffers or registers (R344): it does not take place, the lane ends and its task
is marked (R350). -/
def specOverflow (s : State) (t : Nat) : State :=
  match s.tasks.get? t with
  | none => s
  | some k => (dropTaskAccs (endTaskLane s k) t).setTask t (fun k => { k with state := .marked })

/-- The access exceeds the sectors that its task may register. -/
def overReads (s : State) (a : Acc) : Bool :=
  match a.task.bind s.tasks.get? with
  | some k => decide (1024 < (readsAfter k a.pa a.size).length)
  | none => false

/-- SATISFY (R199, R344, R165). -/
def execSatisfy (acc : Nat) (s : State) : Host.Outcome State Fault Refusal :=
  .next (
    match s.acc? acc with
    | none => s
    | some a =>
      if !canSatisfy s a then s
      else if overReads s a then
        match a.task with
        | some t => specOverflow s t
        | none => s
      else
        mayCorrect (satisfyLoad (bridgeRead s a.die a.pa a.size a.uncached) a) a.pa)

/-! ### Class 5 requests at the home -/

/-- Requests that routers may merge (R186). -/
def mergeable (a b : Acc) : Bool :=
  match a.kind, b.kind with
  | .atom o _, .atom o' _ =>
    o == o' && o != .exch && a.pa == b.pa && a.size == b.size && !isWindow a.pa && !a.uncached && !b.uncached
      && a.task.isNone && b.task.isNone
  | _, _ => false

/-- A class 5 access of R183 to R188. -/
def isClass5 (a : Acc) : Bool :=
  match a.kind with
  | .atom .. | .cas | .rdlk | .rdul | .wrlk | .wrul => true
  | _ => false

/-- A request of R271 other than XCNT. -/
def isExpert (a : Acc) : Bool :=
  match a.kind with
  | .xfetch _ | .xpin | .xunpin | .xstat _ => true
  | _ => false

/-- The request may take its place and be applied, the others of its merge set aside. -/
def readyAt (s : State) (set : List Nat) (a : Acc) : Bool :=
  let s := { s with accs := s.accs.filter (fun b => !set.contains b.id || b.id == a.id) }
  if isLocal s a.die a.pa then canApply s a else canCross s a

/-- What follows for one requester when its request has been applied: the value, its observed set (R203, R207, R211, R270). -/
def returnRequest (s : State) (a : Acc) (old : Nat) (ok : Bool) (carried : List Nat) : State :=
  let wins : Bool := match a.kind with
    | .rdlk | .wrlk => ok
    | .xfetch _ | .xpin => old / 2 ^ 61 == 0
    | _ => true
  let acq := (a.ord = .acquire ∨ a.ord = .sc) ∧ wins
  let s := match a.gid with
    | some g =>
      if acq then dropLeases (observeLanes s g a.lanes carried) a.core a.ord a.scope
      else forAll (lanesOf a.lanes) s (fun l s =>
        { s with seen := Map.putD s.seen [] (threadId g l) ((s.seen.getD (threadId g l) [] ++ carried).eraseDups) })
    | none => s
  let s := couple s a.blk a.pa a.size
  let s := if isWindow a.pa then s
    else match a.core with
      | some c => s.setCore c (fun k => { k with l1 := k.l1.del (a.pa / 128) })
      | none => s
  (returnValue s a old ok).dropAcc a.id

/-- The bytes that a request leaves at its home, with the sets it carries on (R203). -/
def putRequest (s : State) (a : Acc) (new : Option Nat) (carry : List Nat) : State :=
  let s := mayCorrect (bridgeWrite s a.die a.pa a.size a.uncached) a.pa
  match new with
  | some x =>
    let (bytes, s) := spoil s a.pa (leBytes a.size x)
    putApplied s none a.pa bytes carry true
  | none => noteStore s a.pa a.size true

/-- One request that stands alone. -/
def applyOne (s : State) (a : Acc) : State :=
  match shoreBefore s a with
  | none => shoreFull (s.dropAcc a.id) a
  | some s =>
    let old := homeNat s a.pa a.size
    let s := afterHome s a.pa a.size
    let carried := carryOf s a.pa a.size
    let (new, ok) := requestWord a old
    returnRequest (putRequest s a new (carried ++ a.carry).eraseDups) a old ok carried

/-- A request of an expert instruction (R270, R274 to R276). -/
def applyExpert (s : State) (a : Acc) : State :=
  let carried := carryOf s a.pa a.size
  let r := expertEffect s a (carried ++ a.carry).eraseDups
  returnRequest (noteStore r.s a.pa a.size true) a r.val r.ok carried

/-- The contributions of a merge, combined so far, by request (R186): what stands ahead of each, and the sets that it carries (R203). -/
def aheads (op : AtomOp) (w : Nat) : Option Nat → List Nat → List Acc → List (Acc × Option Nat × List Nat)
  | _, _, [] => []
  | p, seen, a :: t =>
    let q := match p with
      | some x => combine op w x a.data
      | none => a.data % 2 ^ w
    (a, p, seen) :: aheads op w (some q) (seen ++ a.carry) t

/-- A merged request, its contributions in merge order (R186). Floating contributions are combined from the left, and the home value
joins what they give, rounded, last (log 144). -/
def applyMerged (s : State) (op : AtomOp) (a : Acc) (all : List Acc) : State :=
  let w := 8 * a.size
  match shoreBefore s a with
  | none => all.foldl (fun s b => s.dropAcc b.id) (shoreFull s a)
  | some s =>
    let old := homeNat s a.pa a.size
    let s := afterHome s a.pa a.size
    let carried := carryOf s a.pa a.size
    let value (p : Option Nat) : Nat :=
      match p with
      | some x => combine op w old x
      | none => old
    let total := all.foldl (fun p b => match p with | some x => some (combine op w x b.data) | none => some (b.data % 2 ^ w)) none
    let s := putRequest s a (some (value total)) (carried ++ all.flatMap (·.carry)).eraseDups
    (aheads op w none carried all).foldl (fun s x => returnRequest s x.1 (value x.2.1) true x.2.2.eraseDups) s

/-- Requests of one instruction stand in increasing lane order (R185). -/
def laneOrder : List Acc → Bool
  | [] => true
  | a :: t => t.all (fun b => !(a.gid.isSome && a.gid == b.gid && a.n == b.n) || decide (a.id < b.id)) && laneOrder t

/-- CLASS5_REQUEST_APPLY (R185 to R188, R203, R186, R270): one request, or several that routers have merged, in merge order. -/
def execClass5RequestApply (accs : List Nat) (s : State) : Host.Outcome State Fault Refusal :=
  .next (
    let all := accs.filterMap s.acc?
    match all with
    | [] => s
    | a :: t =>
      if all.length ≠ accs.length ∨ accs.eraseDups ≠ accs ∨ !all.all (fun a => isClass5 a || isExpert a) then s
      else if t.isEmpty ∧ a.stage = .queued ∧ lockedAgainst s a then s.setAcc a.id (fun a => { a with stage := .barred })
      else if !all.all (readyAt s accs) then
        if all.all (fun b => b.stage == .arrived || b.stage == .queued) then sendProbes s a.pa a.size else s
      else
        match t, a.kind with
        | [], _ => if isExpert a then applyExpert s a else applyOne s a
        | _, .atom op _ =>
          if t.all (mergeable a) ∧ laneOrder all ∧ all.all (fun b => b.depth == 0) ∧ (lockHolder s (a.pa / 128)).isNone then
            applyMerged s op a all
          else s
        | _, _ => s)

/-! ### Drain -/

/-- A state once the dirty data has been written to the home. -/
def Moesi.clean : Moesi → Moesi
  | .m => .e
  | .o => .s
  | x => x

/-- A flush of a line reaches its home (R181): `.inv` drops the core's L1 copy, `.wb` writes dirty data of every proxy and bridge to the
home, and `.wbinv` leaves no copy in the device. -/
def flushLine (s : State) (a : Acc) (op : Nat) : State :=
  let l := a.pa / 128
  let dropL1 (k : Core) : Core := { k with l1 := k.l1.del l }
  if op = 0 then
    match a.core with
    | some c => s.setCore c dropL1
    | none => s
  else
    let s := forAll [0, 1, 2, 3] s (fun d s => forAll [0, 1] s (fun h s =>
      if op = 2 ∧ hostHalf s d l h ≠ .i then setHalf s d l h .i
      else if hostHalf s d l h = .m then setHalf s d l h .e
      else s))
    if bridged s a.pa ∧ op ≠ 2 then s
    else if op = 2 then
      { s with cores := s.cores.map (fun p => (p.1, { dropL1 p.2 with ldc := p.2.ldc.del l })),
               launches := s.launches.map (fun p => (p.1, { p.2 with replicas := p.2.replicas.filter (fun r => r.1 != l) })) }
    else
      let s := forAll ((s.line l).dir.map (·.1)) s (fun d s => s.setProxy l d (fun p => { p with state := p.state.clean }))
      s.setLine l (fun n => { n with dir := n.dir.map (fun p => (p.1, p.2.clean)) })

/-- A `.wbinv` first has every other die's proxy slice give the line up (R163, R181). -/
def flushReady (s : State) (a : Acc) (op : Nat) : Bool := op != 2 || (s.line (a.pa / 128)).dir.all (fun p => p.2 == .i)

/-- A speculative write enters its task's buffer (R344). -/
def bufferWrite (s : State) (a : Acc) (t : Nat) (k : Task) : State :=
  let put (b : Map Byte) (x : Nat) : Map Byte := (leBytes a.size x).mapIdx (fun i y => (a.pa + i, y)) |>.foldl (fun b p => b.put p.1 p.2) b
  let sectors (b : Map Byte) : Nat := (b.map (fun p => p.1 / 32)).eraseDups.length
  let keep (s : State) (buf : Map Byte) (reads : List Nat) : State :=
    if 256 < sectors buf ∨ 1024 < reads.length then specOverflow s t
    else s.setTask t (fun k => { k with buf := buf, reads := reads })
  if isClass5 a then
    let home := homeNat s a.pa a.size
    let s := afterHome s a.pa a.size
    let old := ofLe ((List.range a.size).map (fun i => (k.buf.get? (a.pa + i)).getD (BitVec.ofNat 8 (home / 256 ^ i))))
    let (new, ok) := requestWord a old
    let s' := keep s (match new with | some x => put k.buf x | none => k.buf) (readsAfter k a.pa a.size)
    (returnValue s' a old ok).dropAcc a.id
  else (keep s (put k.buf a.data) k.reads).dropAcc a.id

/-- A write leaves for its local home: it arrives, or waits at a line that is locked (R200, R369); an atomic of a
scratchpad is applied in the same step (R203). -/
def drainLocal (s : State) (a : Acc) : State :=
  if lockedAgainst s a then
    if a.stage = .waiting then s else drainTo s a .waiting
  else if heldAtHome s a then s
  else if isClass5 a ∧ isWindow a.pa then
    let b := { a with stage := .arrived }
    if canApply (s.moveLast b) b then applyOne (s.moveLast b) b else s
  else
    let s := drainTo s a .arrived
    if a.isRmw then match a.core with | some c => s.setCore c (fun k => { k with l1 := k.l1.del (a.pa / 128) }) | none => s
    else s

/-- DRAIN (R200, R181, R344, R368, R369). -/
def execDrain (acc : Nat) (s : State) : Host.Outcome State Fault Refusal :=
  .next (
    match s.acc? acc with
    | none => s
    | some a =>
      if !canDrain s a then s
      else
        match a.kind, a.task.bind (fun t => (s.tasks.get? t).map (fun k => (t, k))) with
        | .flush op, _ =>
          if lockedAgainst s a then (if a.stage = .waiting then s else drainTo s a .waiting)
          else if flushReady s a op then (flushLine s a op).dropAcc a.id
          else sendProbes s a.pa 1
        | .unlock, _ => drainTo s a .arrived
        | _, some (t, k) => if lockedAgainst s a ∨ heldAtHome s a then s else bufferWrite s a t k
        | _, none => if isLocal s a.die a.pa then drainLocal s a else drainTo s a .queued)

/-! ### Apply and Cross -/

/-- APPLY (R201, R163, R317, R321, R345): a local store that has arrived. -/
def execApply (acc : Nat) (s : State) : Host.Outcome State Fault Refusal :=
  .next (
    match s.acc? acc with
    | none => s
    | some a =>
      if a.kind ≠ .store then s
      else if canApply s a then applyStore s a
      else if a.stage = .arrived then sendProbes s a.pa a.size
      else s)

/-- CROSS (R202, R165, R369): an entry of a queue to a remote home. -/
def execCross (acc : Nat) (s : State) : Host.Outcome State Fault Refusal :=
  .next (
    match s.acc? acc with
    | none => s
    | some a =>
      if a.kind ≠ .store ∨ a.stage ≠ .queued then s
      else if lockedAgainst s a then s.setAcc a.id (fun a => { a with stage := .barred })
      else if canCross s a then
        applyStore (bridgeWrite s a.die a.pa a.size a.uncached) a
      else sendProbes s a.pa a.size)

/-! ### Leases and probes -/

/-- Fabric time at the home of a line. -/
def homeTime (s : State) (line : Nat) : Nat := (s.die ((homeDie s (line * 128)).getD 0)).time

/-- LEASE_EXPIRY (R161): held stores are applied in arrival order; the L1 copies are held no more. -/
def execLeaseExpiry (line : Nat) (s : State) : Host.Outcome State Fault Refusal :=
  .next (
    if !leaseOver (s.line line).expiry (homeTime s line) then s
    else
      let drop (c : Nat) (k : Core) : Core :=
        if leased k line (s.die (dieOfCore c)).time then k else { k with l1 := k.l1.del line }
      let s := { s with cores := s.cores.map (fun p => (p.1, drop p.1 p.2)) }
      let held := s.accs.filter (fun a => a.kind == .store && a.stage == .arrived && (linesOf a.pa a.size).contains line)
      forAll held s (fun a s =>
        match s.acc? a.id with
        | some b => if canApply s b then applyStore s b else s
        | none => s))

/-- ATOMIC_LEASE_HOLD_END (R160). -/
def execAtomicLeaseHoldEnd (line : Nat) (s : State) : Host.Outcome State Fault Refusal :=
  .next (
    if (s.line line).atomicUntil ≠ 0 ∧ (s.line line).atomicUntil ≤ homeTime s line then
      s.setLine line (fun n => { n with atomicUntil := 0 })
    else s)

/-- A sequence number is older than another (R164). -/
def seqBefore (a b : BitVec 16) : Bool := a != b && decide ((b - a).toNat < 2 ^ 15)

/-- A proxy gives a line up: no lease is granted on it and the probe is to be acknowledged (R163). -/
def Proxy.giveUp (p : Proxy) : Proxy := { p with state := .i, owesAck := true }

/-- PROBE_RECEIVE (R164). -/
def execProbeReceive (die line : Nat) (s : State) : Host.Outcome State Fault Refusal :=
  .next (
    match s.msgs.find? (fun m => m.die == die && m.line == line && m.probe) with
    | none => s
    | some m =>
      let s := { s with msgs := s.msgs.filter (· != m) }
      let p := s.proxy line die
      if seqBefore m.seq p.seq then s
      else if m.seq = p.seq then s.setProxy line die Proxy.giveUp
      else s.setProxy line die (fun p => { p with probes := p.probes ++ [m.seq] }))

/-- PROBE_ACK (R163): only after the latest lease that the proxy granted has expired. -/
def execProbeAck (die line : Nat) (s : State) : Host.Outcome State Fault Refusal :=
  .next (
    let p := s.proxy line die
    if p.owesAck ∧ leaseOver p.expiry (s.die die).time then
      (s.setProxy line die (fun p => { p with owesAck := false })).setLine line
        (fun n => { n with dir := n.dir.put die .i, probes := n.probes.filter (· != die) })
    else s)

/-- PROXY_GRANT_RECEIVE (R164): the grant is recorded and probes held for it are applied. -/
def execProxyGrantReceive (die line : Nat) (s : State) : Host.Outcome State Fault Refusal :=
  .next (
    match s.msgs.find? (fun m => m.die == die && m.line == line && !m.probe) with
    | none => s
    | some m =>
      let s := { s with msgs := s.msgs.filter (· != m) }
      s.setProxy line die (fun p =>
        let q : Proxy := { p with state := m.state, seq := m.seq, probes := p.probes.filter (seqBefore m.seq) }
        if p.probes.contains m.seq then q.giveUp else q))

/-- HOST_SNOOP (R165): the proxy drops the device line once its leases have passed, and one half becomes I. -/
def execHostSnoop (die line : Nat) (upper : Bool) (s : State) : Host.Outcome State Fault Refusal :=
  .next (
    if !bridged s (line * 128) ∨ !leaseOver (s.proxy line die).expiry (s.die die).time then s
    else
      let drop (k : Core) : Core := { k with l1 := k.l1.del line }
      let s := { s with cores := s.cores.map (fun (p : Nat × Core) => if dieOfCore p.1 = die then (p.1, drop p.2) else p) }
      setHalf s die line (if upper then 1 else 0) .i)

/-- LINE_POISON (R159, R299). -/
def execLinePoison (line : Nat) (s : State) : Host.Outcome State Fault Refusal :=
  .next (
    let die := match placeOf (line * 128) with
      | .hbm d | .lpddr d => some d
      | .window => some (dieOfCore (windowOf (line * 128)).core)
      | _ => none
    match die with
    | none => s
    | some d =>
      let (unit, index) := if isWindow (line * 128) then (0, (windowOf (line * 128)).core % 64) else (1, sliceOf (line * 128))
      logEvent (s.setLine line (fun n => { n with poison := true })) d 0x0003 unit index (BitVec.ofNat 64 (line * 128)) 0)

end Sys2Proof.Machine
end

