-- ==== Sys2Proof/Machine/Engines.lean ====
section
/-!
DEFINITION. What the copy engine and the matrix array share: queues and guard slots (R224 to R226), the range scoreboard
(R227, R228, R239), completion words (R231), deferred actions (R327) and failures after issue (R230, R402).
-/
namespace Sys2Proof.Machine

/-! ### Completion words (R231) -/

def wordOk (seq : Nat) : Nat := seq % 2 ^ 63
def wordFail (code seq : Nat) : Nat := 2 ^ 63 + code % 256 * 2 ^ 48 + seq % 2 ^ 48

/-- The checks of a completion word's address at issue. -/
def wordCheck (va : Nat) : Option (Cause × Nat) :=
  if va % 8 ≠ 0 then some (.misaligned, va)
  else if 2 ^ 57 ≤ va then some (.accessFault, va)
  else none

/-! ### Accesses of agents -/

/-- A write of an engine or agent leaves for its home: it arrives, queues, or waits where it is held. -/
def depart (s : State) (a : Acc) : Nat × State :=
  let (id, s) := s.fresh
  let a := { a with id := id, stage := .buffered }
  let s := { s with accs := s.accs ++ [a] }
  (id, if isLocal s a.die a.pa then drainLocal s a else drainTo s a .queued)

/-- An access of a command. -/
def cmdAcc (id : Nat) (k : Cmd) (kind : AKind) (va pa size data : Nat) (carry : List Nat) : Acc :=
  { agentAcc (dieOfCore k.core) (some k.core) (some k.blk) (some id) kind va pa size data carry with depth := k.depth }

/-- Writes still on their way to a scope. -/
def allPerformed (s : State) (die scope : Nat) (ws : List Nat) : Bool := ws.all (performedAt s die scope)

def liveOf (s : State) (ws : List Nat) : List Nat := ws.filter (fun i => (s.acc? i).isSome)

/-- How the write of a completion word ends. -/
inductive WordEnd where
  | written | tagged (tag : Nat) | lost (c : Cause)
  deriving DecidableEq, Repr

/-- The write of a completion word as a release of an engine, or of the distributor (R231): `mk` makes the access for a physical
address. -/
def writeWord (s : State) (engine : Bool) (pasid va : Nat) (mk : Nat → Acc) : WordEnd × State :=
  if va % 8 ≠ 0 then (.lost .misaligned, s)
  else
    match translate s (mk 0).die pasid Need.both va with
    | (.access, s) => (.lost .accessFault, s)
    | (.page i st, s) =>
      let (t, s) := postFault s pasid va i ((if engine then 10 else 2) + if st then 1 else 0)
      (.tagged t, flushFaults s)
    | (.ok pa _, s) =>
      let a := mk pa
      (.written, (depart (bridgeWrite s a.die pa 8 false) a).2)

/-! ### Queues -/

def queueOf (s : State) (core : Nat) (matrix : Bool) : List Nat := if matrix then (s.core core).mxQ else (s.core core).copyQ

def setQueue (s : State) (core : Nat) (matrix : Bool) (q : List Nat) : State :=
  s.setCore core (fun k => if matrix then { k with mxQ := q } else { k with copyQ := q })

/-- Scoreboard entries in use in a core (R227). -/
def scoreEntries (s : State) (core : Nat) : Nat :=
  (s.ranges.filter (fun r => ((s.blocks.get? r.blk).map (·.core)) == some core)).length

/-- The program-earlier writes of the acting lanes that have not left their store buffers (R215). -/
def earlierWrites (s : State) (c : Ctx) : List Nat :=
  (s.accs.filter (fun a => a.gid == some c.gid && (a.lanes &&& c.act) != 0 && a.isWrite && a.kind != .xunpin && decide (a.n < c.g.issued)
    && !performedAt s a.die 3 a.id)).map (·.id)

/-- A new command of the executing instruction. -/
def newCmd (s : State) (c : Ctx) (gs : GSlot) (kind : CmdKind) : Cmd :=
  { core := coreOfGroup c.gid, gid := c.gid, blk := c.g.blk, lanes := c.act, seq := c.g.issued, gs := gs, kind := kind,
    state := .queued, discarded := false, wait := earlierWrites s c, obs := [], depth := c.blk.levels.length, pos := 0,
    writes := [], credited := [], tag := none, asked := none, failed := none, failedAt := 0, rowsEnd := 0, prevEnd := 0, passed := 0, replay := false, sums := [],
    checks := [],
    kept := 0, fillEnd := none, wordDone := false, released := false }

/-- The IMM field of an instruction (R54). -/
def immOf (i : Instr) : Nat := ((Decode.raw? i).map (·.imm.toNat)).getD 0

/-- An interval to record: claim, scratch, window, first and last byte. -/
abbrev Interval := Bool × Bool × Bool × Int × Int

def Interval.range (cmd blk : Nat) (x : Interval) : Range :=
  { cmd := cmd, blk := blk, claim := x.1, scratch := x.2.1, window := x.2.2.1, lo := x.2.2.2.1, hi := x.2.2.2.2 }

/-- A command at issue (R260, R261): NESTING in a speculative lane, then its checks, then `enter`. In a checked launch the primary issues
nothing more until its shadow has presented the same; the command issues then, its checks made again. -/
def engineBody (items : Ctx → List Item) (refs : List RegRef) (checks : Ctx → State → Option Res) (enter : Ctx → State → Res)
    (c : Ctx) (s : State) : Res :=
  let first (c : Ctx) (s : State) : Option Res := if anySpec s c.g c.act then some (.fault .nesting 0 c.act) else checks c s
  mirrorFault s c items ((first c s).getD (.done s)) <|
    match roleOf s c, first c s with
    | .primary, some r => r
    | _, _ => actOnce true s c 3 (items c) refs id (fun c s => (first c s).getD (enter c s))

/-- A command enters its queue with its scoreboard entries (R224, R227); none while either has no room. -/
def issueCmd (s : State) (c : Ctx) (matrix : Bool) (gs : GSlot) (kind : CmdKind) (is : List Interval) : Option (Nat × State) :=
  let core := coreOfGroup c.gid
  if 32 ≤ (queueOf s core matrix).length ∨ 128 < scoreEntries s core + is.length then none
  else
    let k := newCmd s c gs kind
    let (id, s) := s.fresh
    let s := { s with cmds := s.cmds.put id k, ranges := s.ranges ++ is.map (Interval.range id c.g.blk) }
    some (id, setQueue s core matrix (queueOf s core matrix ++ [id]))

/-! ### The range scoreboard -/

/-- A destination range of the block, other than a collective's, overlaps an interval that SBWAIT names (R239). -/
def sbBusy (s : State) (blk : Nat) (interval : Option (Bool × Nat × Nat)) : Bool :=
  -- where a scratch offset stands in the space of a range of CPYW
  let shift (r : Range) : Nat :=
    match s.blocks.get? blk with
    | some b => if !r.window then 0 else if r.scratch then b.rank * 2 ^ 24 else scratchAddr b.core b.scratchBase
    | none => 0
  s.ranges.any (fun r => !r.claim && r.blk == blk && (s.colls.get? r.cmd).isNone
    && (match interval with
        | none => true
        | some (scr, base, len) =>
          (r.scratch || r.window) == scr && decide (0 < len)
            && decide (r.lo < ((base + shift r : Nat) : Int) + len ∧ ((base + shift r : Nat) : Int) ≤ r.hi)))

/-- Splits parked in SBWAIT go on once no range holds them (R239). -/
def wakeSbwaits (s : State) (blk : Nat) : State :=
  forAll (groupsOf s blk) s (fun p s =>
    let end_ (k : Park) (s : State) : State :=
      match k with
      | .sbwait i => if sbBusy s blk i then s else wakeGroup s p.1 k 3
      | _ => s
    let s := match keptPark p.2 with
      | some k => end_ k s
      | none => s
    forAll p.2.splits s (fun q s =>
      let parks := (match q.2.park with | some k => [k] | none => []) ++ q.2.parts.map (·.park)
      forAll parks.eraseDups s end_))

/-- Retires the destination ranges of a command or a collective (R217). -/
def retireRanges (s : State) (id : Nat) : State :=
  match s.ranges.find? (fun r => !r.claim && r.cmd == id) with
  | none => s
  | some r => wakeSbwaits { s with ranges := s.ranges.filter (fun r => r.claim || r.cmd != id) } r.blk

/-- Retires a command's read claims. -/
def retireClaims (s : State) (id : Nat) : State := { s with ranges := s.ranges.filter (fun r => !r.claim || r.cmd != id) }

def hasRange (s : State) (id : Nat) : Bool := s.ranges.any (fun r => !r.claim && r.cmd == id)

/-- Some rows of bytes overlap a destination range that an earlier command of the block recorded (R228). -/
def rowsHeld (s : State) (blk id : Nat) (glb : Bool) (rows : List (Int × Nat)) : Bool :=
  rows.any (fun r => rangeHit s blk glb r.1 r.2 id)

/-! ### Ends -/

/-- Every block of a collective has arrived and every step is acknowledged (R259). -/
def Coll.complete (k : Coll) : Bool :=
  let others := (List.range k.members).filter (· != k.rank)
  k.summed && k.out.isEmpty && (if k.op = 1 ∧ k.rank ≠ 0 then k.got.contains 0 else others.all (k.got.contains ·))

/-- A collective writes nothing more to its destination. -/
def Coll.settled (k : Coll) : Bool := k.complete || (k.failed.isSome && k.scrambled)

/-- A collective is over once its word is done with and its range has retired. -/
def finishColl (s : State) (id : Nat) : State :=
  if (s.colls.get? id).elim false (·.done) && !hasRange s id then { s with colls := s.colls.del id } else s

def endCmd (s : State) (id : Nat) : State := s.setCmd id (fun k => { k with state := .ended })

/-- A command that is discarded changes nothing more and retires its ranges at once (R226). -/
def discardCmd (s : State) (id : Nat) : State :=
  retireClaims (retireRanges (s.setCmd id (fun k => { k with state := .ended, discarded := true })) id) id

/-- A failure has to wait for results that are on their way to a group whose splits are all parked (R64, R402). -/
def failureWaits (s : State) (k : Cmd) : Bool :=
  match s.groups.get? k.gid with
  | none => false
  | some g => allParked g && resultsPending s g

/-! ### Deferred actions (R327) -/

/-- Records a deferred action in the innermost level of a block; none where no room is left (R319). -/
def deferAction (s : State) (blk : Nat) (a : Action) : Option State :=
  match shoreRoom s blk 16 with
  | none => none
  | some sp =>
    some ((spillOut s blk 16 sp).setBlock blk (fun b => b.setTop (fun l =>
      { l with actions := l.actions ++ [a], actionSpill := l.actionSpill + if sp then 1 else 0 })))

/-- SHORE_FULL of a deferred action (R319). -/
def shoreFullAction (lanes : LaneMask) : Res := .fault .shoreFull (BitVec.ofNat 64 (3 * 2 ^ 62)) lanes

/-! ### Guard slots, SBWAIT and failure delivery -/

/-- What the guard slot of a queue's head says (R226). -/
inductive Gate where
  | go | hold | drop
  deriving DecidableEq, Repr

def gateOf (s : State) (k : Cmd) : Gate :=
  if k.discarded then .drop
  else
    match k.gs with
    | none => .go
    | some n =>
      match s.groups.get? k.gid with
      | none => if 32768 ≤ k.gid then .hold else .drop
      | some g =>
        match g.gs.getD n.toNat .free with
        | .true => .go
        | .false => .drop
        | .free | .pending => .hold

/-- Sets a guard slot once for a pair (R238, R261), from the next clk on. -/
def gresBody (slot : BitVec 3) (x : Nat) (st : GuardState) (c : Ctx) (s : State) : Res :=
  afterCompare s c 3 [(3, 32, slot.toNat), (3, 32, x)] [] id (fun c s =>
    .done (s.setGroup c.gid (fun g => { g with gres := g.gres ++ [(slot.toNat, st)] })))

/-- GRES (R238). -/
def execGres (h : Hdr) (slot : BitVec 3) (x : Src) (imm : BitVec 32) (s : State) : Host.Outcome State Fault Refusal :=
  .next (runInstr (.gres h slot x imm) false (fun c s =>
    let v := srcScalar s c (sext32 imm) x
    gresBody slot v (if v ≠ 0 then GuardState.true else GuardState.false) c s) s)

/-- GRES.free (R238). -/
def execGresFree (h : Hdr) (slot : BitVec 3) (s : State) : Host.Outcome State Fault Refusal :=
  .next (runInstr (.gresFree h slot) false (gresBody slot 0 .free) s)

/-- SBWAIT parks the split until no range overlaps its interval (R239); a shadow parks as its primary does (R261). -/
def sbwaitBody (interval : Option (Bool × Nat × Nat)) (c : Ctx) (s : State) : Res :=
  let items : List Item := match interval with
    | some (b, x, n) => [(3, 32, if b then 1 else 0), (3, 32, x), (3, 32, n)]
    | none => [(3, 32, 2)]
  let go (s : State) : Res := if sbBusy s c.g.blk interval then .jump (parkHere s c (.sbwait interval)) else .done s
  match roleOf s c with
  | .alone => go s
  | .primary => go (present s c 3 items false)
  | .shadow =>
    match compare s c items with
    | (s, false) => .held s
    | (s, true) =>
      match primaryPark s c with
      | some (.sbwait i) => .jump (parkHere s c (.sbwait i))
      | _ => .done s

/-- SBWAIT.glb and SBWAIT.scr. -/
def execSbwait (h : Hdr) (scr : Bool) (a : Base) (b : Src) (len : BitVec 24) (s : State) : Host.Outcome State Fault Refusal :=
  .next (runInstr (.sbwait h scr a b len) false (fun c s =>
    sbwaitBody (some (scr, baseLane c 2 a (lowestLane c.act), srcScalar s c len.toNat b)) c s) s)

/-- SBWAIT.all. -/
def execSbwaitAll (h : Hdr) (s : State) : Host.Outcome State Fault Refusal :=
  .next (runInstr (.sbwaitAll h) false (sbwaitBody none) s)

/-- ENGINE_FAILURE_DELIVERY (R402): every split of the group is parked, and the lowest takes the failure at once. -/
def execEngineFailureDelivery (gid : Nat) (s : State) : Host.Outcome State Fault Refusal := .next (deliverFailure s gid)

end Sys2Proof.Machine
end

