-- ==== Sys2Proof/Machine/Copy.lean ====
section
/-!
DEFINITION. The copy engine (R232 to R237) and CDONE (R240): issue, segments, credits, retirement and completion.
-/
namespace Sys2Proof.Machine

/-! ### A copy's shape -/

/-- The operands of a copy as its command holds them. -/
structure CopyJob where
  k : CopyKind
  e : Nat
  sspace : Nat
  dspace : Nat
  src : Nat
  dst : Nat
  p0 : Nat
  p1 : Nat
  p2 : Int
  p3 : Int
  credit : Option Nat
  word : Option (Nat × Nat × Nat)
  deriving DecidableEq, Repr

def CopyJob.kind (j : CopyJob) : CmdKind := .copy j.k j.e j.sspace j.dspace j.src j.dst j.p0 j.p1 j.p2 j.p3 j.credit j.word

def copyOf : CmdKind → Option CopyJob
  | .copy k e ss ds src dst p0 p1 p2 p3 credit word => some ⟨k, e, ss, ds, src, dst, p0, p1, p2, p3, credit, word⟩
  | _ => none

def CopyJob.isGather (j : CopyJob) : Bool := j.k == .gather

/-- The destination pitch (R233). -/
def CopyJob.dpitch (j : CopyJob) : Int := if j.isGather then j.p0 else j.p3

/-- The first destination byte of a row (R235). -/
def CopyJob.drow (j : CopyJob) (r : Nat) : Int := j.dst + r * j.dpitch

/-- The engine's read of one element (R214): satisfied as for a thread of its core. -/
def engineLoad (id : Nat) (k : Cmd) (va pa size : Nat) (next : Nat) : Acc :=
  { cmdAcc id k .load va pa size 0 [] with id := next }

/-- The engine's read of a row's index of CPYG (R235). -/
def CopyJob.indexLoad (s : State) (id : Nat) (k : Cmd) (j : CopyJob) (r : Nat) : Acc :=
  let base := ((s.blocks.get? k.blk).map (·.scratchBase)).getD 0
  let off := truncInt (j.p3 + 4 * r) 64
  engineLoad id k off (scratchAddr k.core (base + off)) 4 s.nextId

/-- A row's index of CPYG. -/
def CopyJob.index (s : State) (id : Nat) (k : Cmd) (j : CopyJob) (r : Nat) : Int :=
  toSigned (loadNat s (CopyJob.indexLoad s id k j r)) 32

/-- The index of a row can be read now. -/
def CopyJob.indexKnown (s : State) (id : Nat) (k : Cmd) (j : CopyJob) (r : Nat) : Bool :=
  !j.isGather || (sourcesKnown s (CopyJob.indexLoad s id k j r) && !heldAtHome s (CopyJob.indexLoad s id k j r))

/-- The first source byte of a row (R235). -/
def CopyJob.srow (s : State) (id : Nat) (k : Cmd) (j : CopyJob) (r : Nat) : Int :=
  j.src + (if j.isGather then CopyJob.index s id k j r else r) * j.p2

/-- First and last byte of `rows` rows of `len` bytes at a pitch (R234). -/
def spanOf (base : Int) (rows len : Nat) (pitch : Int) : Int × Int :=
  let last : Int := ((rows : Int) - 1) * pitch
  (base + min 0 last, base + max 0 last + len - 1)

/-- Elements of a row and of the copy. -/
def CopyJob.perRow (j : CopyJob) : Nat := j.p0 / j.e
def CopyJob.total (j : CopyJob) : Nat := j.p1 * j.perRow

/-- Elements of the next segment: at most 4 KiB of destination (R235). -/
def CopyJob.segment (j : CopyJob) (pos : Nat) : List Nat :=
  (List.range (min (4096 / j.e) (j.total - pos))).map (pos + ·)

/-- The destination line-sized piece that an element belongs to (R237): its row, and the line within the row. -/
def CopyJob.piece (j : CopyJob) (n : Nat) : Nat :=
  let r := n / j.perRow
  r * 2 ^ 18 + (truncInt (j.drow r) 64 % 128 + n % j.perRow * j.e) / 128

/-- The elements of a piece. -/
def CopyJob.pieceElems (j : CopyJob) (p : Nat) : List Nat :=
  let r := p / 2 ^ 18
  ((List.range j.perRow).map (r * j.perRow + ·)).filter (fun n => j.piece n == p && decide (r < j.p1))

/-- All pieces of a copy. -/
def CopyJob.pieces (j : CopyJob) : List Nat :=
  (List.range j.p1).flatMap (fun r =>
    (List.range ((truncInt (j.drow r) 64 % 128 + j.p0 + 127) / 128)).map (fun i => r * 2 ^ 18 + i))

/-! ### Issue -/

/-- Operands of the executing copy. -/
def copyArgs (c : Ctx) (k : CopyKind) (o : CopyOps) : CopyJob :=
  let sr (r : BitVec 6) : Nat := (c.g.sreg r.toNat).toNat
  { k := k, e := 2 ^ o.e.toNat, sspace := o.sspace.toNat, dspace := o.dspace.toNat, src := sr o.a, dst := sr o.d,
    p0 := (pwordVal c o.p.p0).1, p1 := (pwordVal c o.p.p1).1, p2 := pwordInt c o.p.p2, p3 := pwordInt c o.p.p3,
    credit := if o.credit then some o.bar.toNat else none,
    word := o.b.map (fun b => (sr b, sr o.seq, o.scope.toNat)) }

/-- The lowest-numbered substituted word outside its limits (R233, R234). -/
def badWord (c : Ctx) (ws : List (PWord × (Int → Bool) × Bool)) : Option Nat :=
  ws.findSome? (fun w =>
    match w.1 with
    | .lit _ => none
    | .sub r =>
      let x := (c.g.sreg r.toNat)
      if w.2.1 (if w.2.2 then x.toInt else x.toNat) then none else some x.toNat)

def copyWords (o : CopyOps) (gather : Bool) : List (PWord × (Int → Bool) × Bool) :=
  let e := 2 ^ o.e.toNat
  [(o.p.p0, (fun x => decide (1 ≤ x ∧ x ≤ 2 ^ 24) && x % e == 0), false), (o.p.p1, (fun x => decide (1 ≤ x ∧ x ≤ 2 ^ 16)), false),
   (o.p.p2, (fun x => decide (-(2 ^ 31) ≤ x ∧ x < 2 ^ 31) && x % e == 0), true),
   (o.p.p3, (fun x => if gather then x % 4 == 0 else decide (-(2 ^ 31) ≤ x ∧ x < 2 ^ 31) && x % e == 0), true)]

/-- The first byte of a span that lies outside a block's scratch allocation. -/
def outOfScratch (b : Block) (x : Int × Int) : Option Int :=
  if x.1 < 0 then some x.1
  else if (b.scratchSize : Int) ≤ x.2 then some (max x.1 b.scratchSize)
  else none

/-- The checks of every destination row of CPYW, first and last bytes (R234). -/
def windowRows (s : State) (c : Ctx) (j : CopyJob) : Option Res :=
  let at_ (x : Int) : Chk := (checkAddr s c.blk c.launch.pasid (.win (j.dspace == 3)) Need.store x j.e).1
  let rows := (List.range j.p1).flatMap (fun r => [j.drow r, j.drow r + j.p0 - 1])
  rows.findSome? (fun x =>
    match at_ x with
    | .ok pa _ => if (windowOf pa).space ≠ 0 ∧ j.e ≠ 4 then some (.fault .misaligned (BitVec.ofInt 64 x) c.act) else none
    | .remote wa => some (.fault .remoteExited (BitVec.ofNat 64 wa) c.act)
    | .absent => some .wait
    | _ => some (.fault .accessFault (BitVec.ofInt 64 x) c.act))

/-- The checks of R234, in order; of several scratch operands out of bounds the source is reported first, then the destination, then the
index list (log 164). -/
def copyChecks (s : State) (c : Ctx) (o : CopyOps) (j : CopyJob) : Option Res :=
  let bound (x : Int) : Res := .fault .operandBounds (BitVec.ofInt 64 x) c.act
  if j.src % j.e ≠ 0 then some (.fault .misaligned (BitVec.ofNat 64 j.src) c.act)
  else if j.dst % j.e ≠ 0 then some (.fault .misaligned (BitVec.ofNat 64 j.dst) c.act)
  else
    match j.word.bind (fun w => wordCheck w.1) with
    | some (k, va) => some (.fault k (BitVec.ofNat 64 va) c.act)
    | none =>
      match badWord c (copyWords o j.isGather) with
      | some x => some (.fault .operandBounds (BitVec.ofNat 64 x) c.act)
      | none =>
        let src := if j.sspace = 1 then outOfScratch c.blk (spanOf j.src j.p1 j.p0 j.p2) else none
        let dst := if j.dspace = 1 then outOfScratch c.blk (spanOf j.dst j.p1 j.p0 j.dpitch) else none
        let idx := if j.isGather then outOfScratch c.blk (j.p3, j.p3 + 4 * j.p1 - 1) else none
        match src, dst, idx with
        | some x, _, _ => some (bound x)
        | _, some x, _ => some (bound x)
        | _, _, some x => some (bound x)
        | none, none, none => if 2 ≤ j.dspace then windowRows s c j else none

/-- The destination range of a copy (R227). -/
def copyInterval (j : CopyJob) : Interval :=
  let d := spanOf j.dst j.p1 j.p0 j.dpitch
  (false, j.dspace == 1 || j.dspace == 3, decide (2 ≤ j.dspace), d.1, d.2)

/-- The fields that a pair compares of a copy (R261). -/
def copyItems (o : CopyOps) (j : CopyJob) : List Item :=
  let w := j.word.getD (0, 0, 0)
  [(3, 32, j.e), (3, 32, j.sspace), (3, 32, j.dspace), (3, 32, (o.gs.map (·.toNat + 1)).getD 0),
   (3, 32, (j.credit.map (· + 1)).getD 0), (3, 32, j.src), (3, 32, j.dst), (3, 32, w.1), (3, 32, w.2.1), (3, 32, w.2.2),
   (3, 32, j.p0), (3, 32, j.p1), (3, 32, truncInt j.p2 64), (3, 32, truncInt j.p3 64)]

/-- A copy enters its queue; its completion word waits for the accept inside a level (R327). -/
def copyEnter (o : CopyOps) (j : CopyJob) (c : Ctx) (s : State) : Res :=
  match issueCmd s c false o.gs j.kind [copyInterval j] with
  | none => .wait
  | some (id, s) =>
    let s := s.setGroup c.gid (fun g => { g with copies := g.copies ++ [id] })
    if j.word.isSome ∧ 0 < c.blk.levels.length then
      match deferAction s c.g.blk (.word id) with
      | some s => .done s
      | none => shoreFullAction c.act
    else .done s

/-- CPY, CPYG and CPYW at issue (R234, R260, R261). -/
def copyBody (k : CopyKind) (o : CopyOps) (c : Ctx) (s : State) : Res :=
  engineBody (fun c => copyItems o (copyArgs c k o)) [] (fun c s => copyChecks s c o (copyArgs c k o))
    (fun c s => copyEnter o (copyArgs c k o) c s) c s

/-- CPY (R232, R235). -/
def execCpy (h : Hdr) (o : CopyOps) (s : State) : Host.Outcome State Fault Refusal :=
  .next (runInstr (.cpy h o) false (copyBody .plain o) s)

/-- CPYG (R232, R235). -/
def execCpyg (h : Hdr) (o : CopyOps) (s : State) : Host.Outcome State Fault Refusal :=
  .next (runInstr (.cpyg h o) false (copyBody .gather o) s)

/-- CPYW (R232, R235). -/
def execCpyw (h : Hdr) (o : CopyOps) (s : State) : Host.Outcome State Fault Refusal :=
  .next (runInstr (.cpyw h o) false (copyBody .window o) s)

/-- CDONE (R240): inside a level it enters its queue only at the accept (R327). -/
def cdoneBody (gs : GSlot) (scope : BitVec 4) (a : BitVec 6) (b : Base) (c : Ctx) (s : State) : Res :=
  let word (c : Ctx) : Nat := (c.g.sreg a.toNat).toNat
  let seq (c : Ctx) : Nat := baseLane c 2 b (lowestLane c.act)
  engineBody (fun c => [(3, 32, (gs.map (·.toNat + 1)).getD 0), (3, 32, scope.toNat), (3, 32, word c), (3, 32, seq c)]) []
    (fun c _ => (wordCheck (word c)).map (fun f => .fault f.1 (BitVec.ofNat 64 f.2) c.act))
    (fun c s =>
      let cs := ((s.groups.get? c.gid).map (·.copies)).getD []
      let kind : CmdKind := .cdone (word c) (seq c) scope.toNat cs
      let clear (s : State) : State := s.setGroup c.gid (fun g => { g with copies := [] })
      if 0 < c.blk.levels.length then
        let (id, s) := s.fresh
        match deferAction { s with cmds := s.cmds.put id { newCmd s c gs kind with state := .ended } } c.g.blk (.cdone id) with
        | some s => .done (clear s)
        | none => shoreFullAction c.act
      else
        match issueCmd s c false gs kind [] with
        | none => .wait
        | some (_, s) => .done (clear s)) c s

/-- CDONE (R240). -/
def execCdone (h : Hdr) (gs : GSlot) (scope : BitVec 4) (a : BitVec 6) (b : Base) (s : State) :
    Host.Outcome State Fault Refusal :=
  .next (runInstr (.cdone h gs scope a b) false (cdoneBody gs scope a b) s)

/-! ### Segments -/

/-- Where one element of a copy comes from or goes to. -/
inductive Spot where
  | at_ (pa : Nat) (uncached : Bool)
  | page (va ipa flags : Nat)
  | fail (c : Cause) (x : Int)
  /-- The block whose window it names is absent. -/
  | wait
  deriving DecidableEq, Repr

/-- The place of an operand byte of an engine: a space of R232. -/
def engineSpot (s : State) (b : Block) (pasid space e : Nat) (write : Bool) (x : Int) : Spot × State :=
  let sp : MSpace := match space with | 0 => .glb | 1 => .scr | 2 => .win false | _ => .win true
  match checkAddr s b pasid sp (if write then Need.store else Need.load) x e with
  | (.ok pa u, s) => (if x % (e : Int) ≠ 0 then .fail .misaligned x else .at_ pa u, s)
  | (.page i st, s) => (.page (truncInt x 64) i (8 + (if write then 2 else 0) + if st then 1 else 0), s)
  | (.remote wa, s) => (.fail .remoteExited wa, s)
  | (.access, s) => (.fail .accessFault x, s)
  | (.absent, s) => (.wait, s)

/-- A row's index lies in a poisoned line. -/
def CopyJob.indexPoison (s : State) (id : Nat) (k : Cmd) (j : CopyJob) (r : Nat) : Option Nat :=
  let pa := (CopyJob.indexLoad s id k j r).pa
  if j.isGather && (s.line (pa / 128)).poison then some (pa - pa % 128) else none

/-- The elements of a segment with their two places, up to the first that has none, and what that one meets. A copy that fails with
NESTING has EVAL 0, one that fails with ECC_UNCORR the physical address of the line (log 159). -/
def segmentSpots (s : State) (b : Block) (pasid id : Nat) (k : Cmd) (j : CopyJob) :
    List Nat → (Option Spot × List (Nat × Nat × Nat × Nat × Nat)) × State
  | [] => ((none, []), s)
  | n :: t =>
    let r := n / j.perRow
    let o : Int := (n % j.perRow * j.e : Nat)
    match CopyJob.indexKnown s id k j r, CopyJob.indexPoison s id k j r with
    | false, _ => ((some .wait, []), s)
    | true, some pa => ((some (.fail .eccUncorr (pa : Int)), []), s)
    | true, none =>
      let x := CopyJob.srow s id k j r + o
      let (a, s) := engineSpot s b pasid j.sspace j.e false x
      let (d, s) := engineSpot s b pasid j.dspace j.e true (j.drow r + o)
      match a, d with
      | .at_ pa _, .at_ pd u =>
        if (s.line (pa / 128)).poison then ((some (.fail .eccUncorr ((pa - pa % 128 : Nat) : Int)), []), s)
        else if 0 < k.depth ∧ j.dspace = 0 ∧ (u || homedAtHost s pd || !isDevice pd) then ((some (.fail .nesting 0), []), s)
        else
          let ((y, l), s) := segmentSpots s b pasid id k j t
          ((y, (n, pa, truncInt x 64, pd, truncInt (j.drow r + o) 64) :: l), s)
      | .at_ _ _, d => ((some d, []), s)
      | a, _ => ((some a, []), s)

/-- Reserves shoring for each line of global memory that an engine writes in a segment (R319), up to the first element whose line finds
no room: for each element before it the reservation that its access holds, if it is the first to its line. -/
def reserveEngine (s : State) (k : Cmd) : List Nat → List Nat → State × List (Option Bool)
  | _, [] => (s, [])
  | done, pa :: t =>
    let line := pa / 128
    if k.depth = 0 ∨ !isDevice pa ∨ done.contains line then
      let (s, rs) := reserveEngine s k done t
      (s, none :: rs)
    else
      match reserveLine s k.blk k.depth with
      | none => (s, [])
      | some (sp, s) =>
        let (s, rs) := reserveEngine s k (line :: done) t
        (s, some sp :: rs)

/-- A command fails in its own work (R236). -/
def failCmd (s : State) (id : Nat) (c : Cause) (eval : Dword) : State :=
  s.setCmd id (fun k => { k with failed := some (c, eval), failedAt := s.clk })

/-- The block's engines run: not stopped, absent or ended (R262). -/
def enginesRun (s : State) (blk : Nat) : Bool :=
  (s.blocks.get? blk).elim false (fun b => b.stop.isNone && !b.sealed && b.terminated.isNone)

/-- The first element of what is left of a copy meets a fault (R236). -/
def copyFault (s : State) (cmd pasid : Nat) : Spot → State
  | .page va ipa flags =>
    let (t, s) := postFault s pasid va ipa flags
    flushFaults (s.setCmd cmd (fun k => { k with tag := some t }))
  | .fail c x => failCmd s cmd c (BitVec.ofNat 64 (truncInt x 57))
  | .at_ .. | .wait => s

/-- The writes of a segment to the memory of peers travel as one entry of the core (R388, log 152). -/
def sendSegment (s : State) (k : Cmd) (from_ : Nat) : State :=
  match s.accs.filter (fun a => decide (from_ ≤ a.id) && a.cmd.isSome && peerMemory s a.pa) with
  | [] => s
  | as => sendEntry s k.core k.gid .peer (.peer (as.map (·.id)))

/-- Moves elements of a copy, with their places and the reservations that their writes hold, in element order. -/
def moveElements (s : State) (cmd : Nat) (k : Cmd) (j : CopyJob) (es : List ((Nat × Nat × Nat × Nat × Nat) × Option Bool)) : State :=
  let move (s : State) (y : (Nat × Nat × Nat × Nat × Nat) × Option Bool) : State :=
    let x := y.1
    let a := engineLoad cmd k x.2.2.1 x.2.1 j.e s.nextId
    let v := loadNat s a
    let s := couple (mayCorrect (bridgeRead (afterLoad s a) a.die a.pa j.e false) a.pa) a.blk a.pa j.e
    let (i, s) := depart s { cmdAcc cmd k .store x.2.2.2.2 x.2.2.2.1 j.e v [] with room := y.2 }
    s.setCmd cmd (fun k => { k with writes := k.writes ++ [(i, j.piece x.1)] })
  (sendSegment (es.foldl move s) k s.nextId).setCmd cmd (fun k => { k with pos := k.pos + es.length })

/-- The reads of a segment from the memory of peers travel as one entry of the core (R388, R52, log 152), ahead of the segment. -/
def askPeer (s : State) (core cmd : Nat) (k : Cmd) : State :=
  if mayYetSend s core .peer 1 then (sendEntry s core k.gid .peer (.peer [cmd])).setCmd cmd (fun k => { k with asked := some k.pos }) else s

/-- That entry has not reached the peer fabric. -/
def peerAsked (s : State) (cmd : Nat) : Bool := s.queue.any (fun e => match e.payload with | .peer ids => ids.contains cmd | _ => false)

/-- COPY_SEGMENT (R235, R236, R214): the next segment, in element order. It ends before an element that meets a fault. -/
def execCopySegment (core cmd : Nat) (s : State) : Host.Outcome State Fault Refusal :=
  .next (
    match s.cmds.get? cmd with
    | none => s
    | some k =>
      match copyOf k.kind, s.blocks.get? k.blk with
      | some j, some b =>
        if k.core ≠ core ∨ k.state ≠ .running ∨ k.discarded ∨ k.failed.isSome ∨ k.tag.isSome ∨ !enginesRun s k.blk ∨ j.total ≤ k.pos then s
        else
          let pasid := ((s.launchOf b).map (·.pasid)).getD 0
          match segmentSpots s b pasid cmd k j (j.segment k.pos) with
          | ((some x, []), s') => copyFault s' cmd pasid x
          | ((none, []), _) => s
          | ((_, e :: es), s') =>
            let ready := (e :: es).all (fun x =>
              let a := engineLoad cmd k x.2.2.1 x.2.1 j.e s.nextId
              sourcesKnown s' a && !heldAtHome s' a && !biasFrozen s' x.2.2.2.1)
            let full := (e :: es).any (fun x => peerMemory s' x.2.2.2.1) && !mayYetSend s' core .peer 1
            if (e :: es).any (fun x => peerMemory s' x.2.1) ∧ k.asked ≠ some k.pos then askPeer s core cmd k
            else if !ready ∨ full ∨ peerAsked s cmd then s
            else
              match reserveEngine s' k [] ((e :: es).map (fun x => x.2.2.2.1)) with
              | (s, []) => failCmd s cmd .shoreFull (BitVec.ofNat 64 (2 * 2 ^ 62 + e.2.2.2.2 % 2 ^ 57))
              | (s, rs) => moveElements s cmd k j ((e :: es).zip rs)
      | _, _ => s)

/-! ### Credits, retirement, completion -/

/-- Every element of a copy has been moved, or none will be any more. -/
def CopyJob.moved (j : CopyJob) (k : Cmd) : Bool := decide (j.total ≤ k.pos)

/-- The block whose named barrier a copy credits (R237): the destination's in the member space, else its own. -/
def creditBlock (s : State) (k : Cmd) (j : CopyJob) : Option Nat :=
  if j.dspace = 3 then
    (s.blocks.get? k.blk).bind (fun b => (memberOf s b (bitField j.dst 24 2)).map (·.1))
  else some k.blk

/-- A credit of `n` bytes: one read-modify-write of the barrier word (R237). Levels that shored the word count the bytes
(R318). -/
def creditBytes (s : State) (blk bar n : Nat) : State :=
  match s.blocks.get? blk with
  | none => s
  | some b =>
    if b.scratchSize < 8 * bar + 8 then s
    else
      let word := barAddr b bar
      let (w, done) := ((readBar s word).addPending (-(n : Int))).complete
      let count (l : Level) : Level :=
        if (l.words.get? (word / 4)).isSome then { l with credits := l.credits.put (word / 8) (l.credits.getD (word / 8) 0 + n) } else l
      let s := s.setBlock blk (fun b => { b with levels := b.levels.map count, bars := if done then b.bars.del bar else b.bars })
      putBar s word w []

/-- What holds a credit back: claims and shored words, as any write of the bank. -/
def creditHeld (s : State) (k : Cmd) (cmd blk bar : Nat) : Bool :=
  match s.blocks.get? blk with
  | none => false
  | some b =>
    let word := barAddr b bar
    let a := cmdAcc cmd k (.atom .add false) word word 8 0 []
    heldAtHome s a || claimedScratch s (some cmd) word 8
      || s.accs.any (fun w => w.stage == .arrived && w.writesBytes && overlaps w.pa w.size word 8)

/-- The command has nothing left to do and ends. -/
def finishCopy (s : State) (id : Nat) : State :=
  match s.cmds.get? id with
  | none => s
  | some k =>
    match copyOf k.kind with
    | none => s
    | some j =>
      let credited := j.credit.isNone || j.pieces.all (k.credited.contains ·)
      let word := j.word.isNone || k.wordDone || decide (0 < k.depth)
      if j.moved k && !hasRange s id && credited && word then endCmd s id else s

/-- BARRIER_CREDIT (R237): a piece whose bytes have all been applied. -/
def execBarrierCredit (core cmd piece : Nat) (s : State) : Host.Outcome State Fault Refusal :=
  .next (
    match s.cmds.get? cmd with
    | none => s
    | some k =>
      match copyOf k.kind with
      | none => s
      | some j =>
        match j.credit, creditBlock s k j with
        | some bar, some blk =>
          let es := j.pieceElems piece
          let applied := (k.writes.filter (fun w => w.2 == piece)).all (fun w => (s.acc? w.1).isNone)
          if k.core ≠ core ∨ k.state ≠ .running ∨ (k.failed.isSome ∧ !j.moved k) ∨ es.isEmpty ∨ k.credited.contains piece
              ∨ !es.all (fun n => decide (n < k.pos)) ∨ !applied ∨ creditHeld s k cmd blk bar then s
          else
            finishCopy ((creditBytes s blk bar (es.length * j.e)).setCmd cmd
              (fun k => { k with credited := k.credited ++ [piece] })) cmd
        | _, _ => s)

/-- COPY_FAILURE (R236): no further write, every byte not yet credited is credited, and the failure waits for its group. -/
def execCopyFailure (core cmd : Nat) (s : State) : Host.Outcome State Fault Refusal :=
  .next (
    match s.cmds.get? cmd with
    | none => s
    | some k =>
      match copyOf k.kind, k.failed with
      | some j, some (c, eval) =>
        if k.core ≠ core ∨ k.state ≠ .running ∨ j.moved k ∨ failureWaits s k then s
        else
          let rest := (j.pieces.filter (fun p => !k.credited.contains p)).foldl (fun n p => n + (j.pieceElems p).length * j.e) 0
          let fail (s : State) : State :=
            queueFailure (s.setCmd cmd (fun k => { k with pos := j.total, credited := j.pieces, tag := none })) cmd k c eval
          match j.credit, creditBlock s k j with
          | some bar, some blk => if creditHeld s k cmd blk bar then s else creditBytes (fail s) blk bar rest
          | _, _ => fail s
      | _, _ => s)

/-- RANGE_RETIRE (R217, R227): every write of the command, or of the collective, is applied. -/
def execRangeRetire (core cmd : Nat) (s : State) : Host.Outcome State Fault Refusal :=
  .next (
    match s.cmds.get? cmd with
    | none =>
      match s.colls.get? cmd with
      | some k =>
        if k.core ≠ core ∨ !k.settled ∨ !hasRange s cmd ∨ !(k.writes.all (fun w => (s.acc? w).isNone)) then s
        else finishColl (retireRanges s cmd) cmd
      | none => s
    | some k =>
      let moved := match copyOf k.kind with
        | some j => j.moved k
        | none => decide (0 < k.pos)
      if k.core ≠ core ∨ k.state ≠ .running ∨ !moved ∨ !hasRange s cmd ∨ !(k.writes.all (fun w => (s.acc? w.1).isNone)) then s
      else
        let s := retireRanges s cmd
        match copyOf k.kind with
        | some _ => finishCopy s cmd
        | none => endCmd s cmd)

/-- Writes a command's completion word, or learns that it cannot be written (R231). -/
def finishWord (s : State) (cmd : Nat) (k : Cmd) (va scope value : Nat) (carry : List Nat) : State :=
  let pasid := (((s.blocks.get? k.blk).bind s.launchOf).map (·.pasid)).getD 0
  let done (s : State) : State := s.setCmd cmd (fun k => { k with wordDone := true, tag := none })
  let mk (pa : Nat) : Acc := { cmdAcc cmd { k with depth := 0 } .store va pa 8 value carry with ord := .release, scope := scope }
  match writeWord s true pasid va mk with
  | (.written, s) => done s
  | (.tagged t, s) => s.setCmd cmd (fun k => { k with tag := some t })
  | (.lost c, s) =>
    if k.failed.isSome then done s
    else queueFailure (done (failCmd s cmd c (BitVec.ofNat 64 va))) cmd k c (BitVec.ofNat 64 va)

/-- A copy of the block whose word an accept has released, and which issued before, has still to write it (R327). -/
def wordBefore (s : State) (cmd : Nat) (k : Cmd) : Bool :=
  k.released && s.cmds.any (fun p => decide (p.1 < cmd) && p.2.blk == k.blk && p.2.released && !p.2.wordDone && !p.2.discarded)

/-- Writes a copy's completion word once every write of the copy is performed at its scope (R231, R217). Inside a level the word is
written at the accept, in issue order (R327). -/
def completeWord (s : State) (cmd : Nat) : State :=
  match s.cmds.get? cmd with
  | none => s
  | some k =>
    match (copyOf k.kind).bind (fun j => j.word.map (fun w => (j, w))) with
    | none => s
    | some (j, va, seq, scope) =>
      let set := liveOf s (k.writes.map (·.1) ++ k.obs)
      if k.wordDone ∨ k.tag.isSome ∨ 0 < k.depth ∨ k.discarded ∨ k.state = .queued ∨ !j.moved k ∨ wordBefore s cmd k
          ∨ !allPerformed s (dieOfCore k.core) scope set then s
      else
        let value := match k.failed with
          | some (c, _) => wordFail c.code.toNat seq
          | none => wordOk seq
        finishCopy (finishWord s cmd k va scope value set) cmd

/-- COMPLETION_WORD_WRITE. -/
def execCompletionWordWrite (core cmd : Nat) (s : State) : Host.Outcome State Fault Refusal :=
  .next (if (s.cmds.get? cmd).elim false (fun k => k.core == core) then completeWord s cmd else s)

/-- The first of some commands to fail (R240). -/
def firstFailure (s : State) (cs : List Nat) : Option Cause :=
  let fs := cs.filterMap (fun i => (s.cmds.get? i).bind (fun k => k.failed.map (fun f => (k.failedAt, f.1))))
  (leastBy (fun f => f.1) fs).map (·.2)

/-- CDONE_COMPLETE (R240): once every copy that it waits for has ended. -/
def execCdoneComplete (core cmd : Nat) (s : State) : Host.Outcome State Fault Refusal :=
  .next (
    match s.cmds.get? cmd with
    | none => s
    | some k =>
      match k.kind with
      | .cdone va seq scope cs =>
        let ended := cs.all (fun i => (s.cmds.get? i).elim true (fun q => q.state == .ended))
        let set := liveOf s (cs.flatMap (fun i => ((s.cmds.get? i).map (fun q => q.writes.map (·.1))).getD []) ++ k.obs)
        if k.core ≠ core ∨ k.state ≠ .running ∨ k.tag.isSome ∨ !ended ∨ !allPerformed s (dieOfCore core) scope set then s
        else
          let value := match firstFailure s cs with
            | some c => wordFail c.code.toNat seq
            | none => wordOk seq
          let s := finishWord s cmd k va scope value set
          if (s.cmds.get? cmd).elim false (·.wordDone) then endCmd s cmd else s
      | _ => s)

end Sys2Proof.Machine
end

