-- ==== Sys2Proof/Machine/Matrix.lean ====
section
/-!
DEFINITION. The matrix array (R241 to R255, R101 to R106): bays, planes, K-steps, verdicts and drains; and the acceptance
of commands by both engines of a core (R215, R226).
-/
namespace Sys2Proof.Machine

/-! ### Formats and pairings -/

/-- Elements of a 48-byte slice in a format (R244). -/
def sliceK (fmt : BitVec 6) : Nat := if fmt = 2 then 96 else if fmt = 3 ∨ fmt = 4 then 24 else 48

def isInt8 (fmt : BitVec 6) : Bool := fmt == 0 || fmt == 1
def isEight (fmt : BitVec 6) : Bool := isInt8 fmt || decide (0x20 ≤ fmt.toNat)

/-- A pairing of R102: elements of a K-step, bytes from one activation row to the next, and whether the accumulator is i32. -/
structure Pairing where
  k : Nat
  q : Nat
  int : Bool
  deriving DecidableEq, Repr

def pairing (w a : BitVec 6) : Option Pairing :=
  if isInt8 w && isInt8 a then some ⟨48, 48, true⟩
  else if isEight w && (isEight a || a == 2) then some ⟨48, 48, false⟩
  else if w = 2 ∧ a = 2 then some ⟨96, 48, false⟩
  else if w == 2 && isEight a then some ⟨96, 96, false⟩
  else if w = a ∧ (w = 3 ∨ w = 4) then some ⟨24, 48, false⟩
  else none

/-- Scale bytes of a row of `k` elements (R101). In mode 2 a row of activations in eight bits beside FP4 weights has one scale for the two
48-byte slices that it fills in scratch (log 155). -/
def rowScales (mode : BitVec 2) (k : Nat) : Nat := if mode = 1 then k / 16 else if mode = 2 then 1 else 0

/-- Bytes of a plane in scratch, scales included (R244). -/
def planeBytes (fmt : BitVec 6) (mode : BitVec 2) : Nat := 12288 + 256 * rowScales mode (sliceK fmt)

/-- Bytes of one step's activations, scales included (R248). -/
def actBytes (p : Pairing) (mode : BitVec 2) (m : Nat) : Nat := m * p.q + m * rowScales mode p.k

/-- The element of a format whose first bit stands at `byte` (nibble `hi` for FP4). -/
def elemOf (fmt : BitVec 6) (xv : BitVec 16) (bs : List Byte) (byte : Nat) (hi : Bool) : XVal :=
  let b (i : Nat) : Nat := (bs.getD (byte + i) 0).toNat
  if fmt = 2 then fp4Value (if hi then b 0 / 16 else b 0 % 16) xv.toNat
  else if fmt = 3 ∨ fmt = 4 then elementValue fmt.toNat (b 0 + 256 * b 1) 0
  else elementValue fmt.toNat (b 0) 0

/-- Weight (k, column n) of a plane with its scale applied (R244, R101). -/
def Plane.weight (p : Plane) (k n : Nat) : XVal :=
  match p.fmt with
  | none => .fin 0 0
  | some f =>
    let size2 := if f = 2 then 1 else if f = 3 ∨ f = 4 then 4 else 2
    let pos2 := if p.tr then k * 256 * size2 + n * size2 else 96 * n + k * size2
    let e := elemOf f p.xv p.bytes (pos2 / 2) (pos2 % 2 == 1)
    let sc := if p.scale = 1 then some (n * (sliceK f / 16) + k / 16) else if p.scale = 2 then some n else none
    match sc with
    | some i => (mulX e (scaleValue ((p.bytes.getD (12288 + i) 0).toNat))).1
    | none => e

/-- The checksum column of a plane (R242): for each element position, the exact sum of the weights over the columns. -/
def Plane.column (p : Plane) : List XVal :=
  match p.fmt with
  | none => []
  | some f => (List.range (sliceK f)).map (fun k => (List.range 256).foldl (fun t n => (addX .rne t (p.weight k n)).1) (.fin 0 0))

/-- A plane as a fill leaves it: with its checksum column (R245). -/
def Plane.filled (fmt : BitVec 6) (scale : BitVec 2) (tr : Bool) (xv : BitVec 16) (bytes : List Byte) : Plane :=
  let p : Plane := { fmt := some fmt, scale := scale, tr := tr, xv := xv, bytes := bytes, check := [] }
  { p with check := p.column }

/-- Activation element j of row m, with its scale applied (R248, R101); `bs` are the step's activation bytes. -/
def activation (f : BitVec 6) (mode : BitVec 2) (xv : BitVec 16) (p : Pairing) (rows : Nat) (bs : List Byte) (m j : Nat) : XVal :=
  let size2 := if f = 2 then 1 else if f = 3 ∨ f = 4 then 4 else 2
  let pos2 := m * p.q * 2 + j * size2
  let e := elemOf f xv bs (pos2 / 2) (pos2 % 2 == 1)
  let sc := if mode = 1 then some (m * (p.k / 16) + j / 16) else if mode = 2 then some m else none
  match sc with
  | some i => (mulX e (scaleValue ((bs.getD (rows * p.q + i) 0).toNat))).1
  | none => e

/-- The exact sum of products (R104). -/
def dotX (as bs : List XVal) : XVal := (as.zip bs).foldl (fun s x => (addX .rne s (mulX x.1 x.2).1).1) (.fin 0 0)

/-- The activations of a row, a column of weights, and the checksum column, as a K-step pairs them. -/
def actRow (f : BitVec 6) (mode : BitVec 2) (xv : BitVec 16) (p : Pairing) (rows : Nat) (bs : List Byte) (m : Nat) : List XVal :=
  (List.range p.k).map (activation f mode xv p rows bs m)

def Plane.weights (w : Plane) (p : Pairing) (n : Nat) : List XVal := (List.range p.k).map (fun k => w.weight k n)

def Plane.checks (w : Plane) (p : Pairing) : List XVal := (List.range p.k).map (fun k => w.check.getD k (.fin 0 0))

/-- The exact sum of one output of a K-step (R104, R105). -/
def stepSum (w : Plane) (f : BitVec 6) (mode : BitVec 2) (xv : BitVec 16) (p : Pairing) (rows : Nat) (bs : List Byte)
    (m n : Nat) : XVal := dotX (actRow f mode xv p rows bs m) (w.weights p n)

/-- The exact product of an activation row with the checksum column (R251). -/
def rowProduct (w : Plane) (f : BitVec 6) (mode : BitVec 2) (xv : BitVec 16) (p : Pairing) (rows : Nat) (bs : List Byte) (m : Nat) : XVal :=
  dotX (actRow f mode xv p rows bs m) (w.checks p)

/-- Two exact sums differ (R251). The checksum column is held in a fixed-point form, which has no place for an infinity or a NaN: of a
row that meets one the spec states no verdict, and the sums do not differ (log 151). -/
def XVal.differs (a b : XVal) : Bool :=
  let num (x : XVal) : Option (Int × Int) :=
    match x with
    | .fin m e => some (m, e)
    | .negZero => some (0, 0)
    | _ => none
  match num a, num b with
  | some (m, e), some (n, f) => m * 2 ^ (e - min e f).toNat != n * 2 ^ (f - min e f).toNat
  | _, _ => false

/-- A step's result on an accumulator (R104, R105). -/
def stepResult (int : Bool) (acc : Nat) (sum : XVal) : Nat :=
  if int then
    match sum with
    | .fin m _ => truncInt (toSigned acc 32 + m) 32
    | _ => acc
  else
    let r := (roundTo fp32 (addX .rne (fp32.value acc) sum).1 .rne).1
    if r % 2 ^ 31 = 0 then 0 else r

/-! ### Bays -/

/-- Bays of a mask, from the lowest; the rank of each is its place (R248). -/
def baysOf (mask : BitVec 4) : List Nat := [0, 1, 2, 3].filter (fun i => mask.getLsbD i)

/-- Bays that a matrix command names. -/
def cmdBays : CmdKind → List Nat
  | .mxlw _ _ _ _ bay _ => [bay]
  | .mxswap m | .mxzero m _ _ => baysOf m
  | .mxloop _ _ _ m .. => baysOf m
  | .mxdrain o .. => [o.bay.toNat]
  | _ => []

/-- A bay belongs to another live block (R241). -/
def foreignBay (s : State) (core blk : Nat) (bays : List Nat) : Bool :=
  bays.any (fun b => (s.bay core b).owner.elim false (· != blk))

def accumBytes (core bay : Nat) : Nat := accumAddr core bay 0 0

/-- A block's first command on a free bay makes it the owner: planes empty, accumulators +0 (R241). -/
def ownBays (s : State) (core blk : Nat) (bays : List Nat) : State :=
  forAll bays s (fun b s =>
    if (s.bay core b).owner.isSome then s
    else
      let lo := accumBytes core b
      let s := { s with mem := s.mem.filter (fun p => !(decide (lo ≤ p.1 ∧ p.1 < lo + 65536))) }
      s.setBay core b (fun _ => { Bay.free with owner := some blk }))

/-- The weights, and scales, that a fill reads from scratch. -/
def readPlane (s : State) (id : Nat) (k : Cmd) (off : Int) (n : Nat) : List Byte :=
  let base := ((s.blocks.get? k.blk).map (·.scratchBase)).getD 0
  let lo := scratchAddr k.core (base + off.toNat)
  let a := engineLoad id k off.toNat lo n s.nextId
  (List.range n).map (fun i => loadByte s a (lo + i))

/-- A plane of zero codes, as a discarded command leaves it (R245). -/
def zeroPlane (fmt : BitVec 6) (scale : BitVec 2) (tr : Bool) : Plane :=
  { fmt := some fmt, scale := scale, tr := tr, xv := 0,
    bytes := List.replicate 12288 0 ++ List.replicate (256 * rowScales scale (sliceK fmt)) 0x7F,
    check := List.replicate (sliceK fmt) (.fin 0 0) }

/-- Every earlier matrix command on some bays has ended (R245, R250, R254). -/
def baysClear (s : State) (id core : Nat) (bays : List Nat) : Bool :=
  s.cmds.all (fun p => !(decide (p.1 < id) && p.2.core == core && p.2.state != .ended && (cmdBays p.2.kind).any (bays.contains ·)))

/-! ### Issue -/

/-- A matrix command at issue (R260, R261): it is accepted by one queue of its core, and that is what a pair compares first. -/
def matrixBody (items : Ctx → List Item) (refs : List RegRef) (checks : Ctx → State → Option Res) (enter : Ctx → State → Res) :
    Ctx → State → Res :=
  engineBody (fun c => (3, 32, 64) :: items c) refs checks enter

def gsItem (gs : GSlot) : Item := (3, 32, (gs.map (·.toNat + 1)).getD 0)

/-- ACCESS_FAULT of R241. -/
def bayCheck (s : State) (c : Ctx) (bays : List Nat) (rest : Option Res) : Option Res :=
  if foreignBay s (coreOfGroup c.gid) c.g.blk bays then some (.fault .accessFault 0 c.act) else rest

/-- The command enters the matrix queue and takes its bays. -/
def enterMatrix (s : State) (c : Ctx) (gs : GSlot) (kind : CmdKind) (is : List Interval) (record : Nat → State → State) : Res :=
  match issueCmd s c true gs kind is with
  | none => .wait
  | some (_, s) =>
    let core := coreOfGroup c.gid
    let bays := cmdBays kind
    .done (forAll bays (ownBays s core c.g.blk bays) (fun b s => record b s))

/-- MXLW (R243, R244). -/
def execMxlw (h : Hdr) (o : MxlwOps) (s : State) : Host.Outcome State Fault Refusal :=
  .next (runInstr (.mxlw h o) false (
    let a (c : Ctx) : Nat := (c.g.sreg o.a.toNat).toNat
    let n := planeBytes o.fmt o.scale
    let xv (c : Ctx) : BitVec 16 := c.g.xv.getD o.xv.toNat 0x8000
    matrixBody (fun c => [gsItem o.gs, (3, 32, o.fmt.toNat), (3, 32, o.scale.toNat), (3, 32, (xv c).toNat),
        (3, 32, if o.tr then 1 else 0), (3, 32, o.bay.toNat), (3, 32, a c)]) []
      (fun c s => bayCheck s c [o.bay.toNat]
        (if a c % 32 ≠ 0 then some (.fault .misaligned (BitVec.ofNat 64 (a c)) c.act)
         else (outOfScratch c.blk (a c, (a c : Int) + n - 1)).map (fun x => .fault .operandBounds (BitVec.ofInt 64 x) c.act)))
      (fun c s =>
        enterMatrix s c o.gs (.mxlw o.fmt o.scale (xv c) o.tr o.bay.toNat (a c)) [(true, true, false, (a c : Int), (a c : Int) + n - 1)]
          (fun b s => s.setBay (coreOfGroup c.gid) b (fun k => { k with recShadow := some (o.fmt, o.scale) })))) s)

/-- MXSWAP (R246). -/
def execMxswap (h : Hdr) (gs : GSlot) (mask : BitVec 4) (s : State) : Host.Outcome State Fault Refusal :=
  .next (runInstr (.mxswap h gs mask) false (
    matrixBody (fun _ => [gsItem gs, (3, 32, mask.toNat)]) [] (fun c s => bayCheck s c (baysOf mask) none)
      (fun c s => enterMatrix s c gs (.mxswap mask) []
        (fun b s => s.setBay (coreOfGroup c.gid) b (fun k => { k with recActive := k.recShadow, recShadow := k.recActive })))) s)

/-- MXZERO (R255). -/
def execMxzero (h : Hdr) (gs : GSlot) (mask : BitVec 4) (rb m1 : BitVec 6) (s : State) : Host.Outcome State Fault Refusal :=
  .next (runInstr (.mxzero h gs mask rb m1) false (
    matrixBody (fun _ => [gsItem gs, (3, 32, mask.toNat), (3, 32, rb.toNat), (3, 32, m1.toNat)]) []
      (fun c s => bayCheck s c (baysOf mask) none)
      (fun c s => enterMatrix s c gs (.mxzero mask rb.toNat (m1.toNat + 1)) [] (fun _ s => s))) s)

/-- First and last byte of an operand of `len` bytes that moves by `inc` a step, over steps lo to hi. -/
def stepSpan (base : Int) (inc : Int) (lo hi len : Nat) : Int × Int :=
  (base + min ((lo : Int) * inc) (hi * inc), base + max ((lo : Int) * inc) (hi * inc) + len - 1)

/-- The two claims of an MXLOOP over steps lo to hi (R227, R250). -/
def loopClaims (a b : Int) (p1 p2 p3 : Int) (lo hi alen : Nat) (wlens : List Nat) : List Interval :=
  let x := stepSpan a p1 lo hi alen
  let ws := wlens.mapIdx (fun i n => stepSpan (b + i * p3) p2 lo hi n)
  let first := ws.headD (b, b)
  let w := ws.foldl (fun t y => (min t.1 y.1, max t.2 y.2)) first
  [(true, true, false, x.1, x.2), (true, true, false, w.1, w.2)]

/-- The format check of MXLOOP (R249, fourth): the bay it names and the weight format; else the pairing, and the bytes of each bay's
weights by its own record. -/
def loopFormats (s : State) (core : Nat) (fmt : BitVec 6) (bays : List Nat) : Except (Nat × Nat) (Pairing × List Nat) :=
  match bays with
  | [] => .error (0, 0)
  | b0 :: _ =>
    match bays.find? (fun b => (s.bay core b).recActive.isNone) with
    | some b => .error (b, 0)
    | none =>
      match (s.bay core b0).recActive with
      | none => .error (b0, 0)
      | some (f, _) =>
        match bays.find? (fun b => ((s.bay core b).recActive.map (·.1)) != some f) with
        | some b => .error (b, (((s.bay core b).recActive.map (·.1.toNat))).getD 0)
        | none =>
          match pairing f fmt with
          | none => .error (b0, f.toNat)
          | some p => .ok (p, bays.map (fun b => planeBytes f (((s.bay core b).recActive.map (·.2)).getD 0)))

/-- What an MXLOOP reads at its issue (R247, R248). -/
structure LoopArgs where
  a : Nat
  b : Nat
  n : Nat
  p1 : Int
  p2 : Int
  p3 : Int
  xv : BitVec 16
  deriving DecidableEq, Repr

def loopArgs (o : MxloopOps) (c : Ctx) : LoopArgs :=
  { a := (c.g.sreg o.a.toNat).toNat, b := (c.g.sreg o.b.toNat).toNat, n := (pwordVal c o.p.p0).1, p1 := pwordInt c o.p.p1,
    p2 := pwordInt c o.p.p2, p3 := pwordInt c o.p.p3, xv := c.g.xv.getD o.xv.toNat 0x8000 }

/-- The fields that a pair compares of an MXLOOP (R261). -/
def loopItems (o : MxloopOps) (j : LoopArgs) : List Item :=
  [gsItem o.gs, (3, 32, o.fmt.toNat), (3, 32, o.scale.toNat), (3, 32, j.xv.toNat), (3, 32, o.mask.toNat), (3, 32, o.rb.toNat),
   (3, 32, o.m1.toNat + 1), (3, 32, j.a), (3, 32, j.b), (3, 32, j.n), (3, 32, truncInt j.p1 64), (3, 32, truncInt j.p2 64),
   (3, 32, truncInt j.p3 64)]

def loopWords (o : MxloopOps) : List (PWord × (Int → Bool) × Bool) :=
  let mult (k : Nat) (x : Int) : Bool := decide (-(2 ^ 31) ≤ x ∧ x < 2 ^ 31) && x % k == 0
  [(o.p.p0, (fun x => decide (1 ≤ x ∧ x ≤ 2 ^ 20)), false), (o.p.p1, mult 16, true), (o.p.p2, mult 32, true), (o.p.p3, mult 32, true)]

/-- OPERAND_BOUNDS of R249 for formats, or operands outside the allocation: EVAL names a bay and two formats. -/
def loopBad (o : MxloopOps) (c : Ctx) (x : Nat × Nat) : Res :=
  .fault .operandBounds (BitVec.ofNat 64 (x.2 + o.fmt.toNat * 256 + x.1 * 65536)) c.act

/-- The checks of R249, in order. Where the activations pass the allocation, EVAL names the lowest bay of the mask, and a bay without a
format weight format 0 (log 157). -/
def loopChecks (o : MxloopOps) (c : Ctx) (s : State) : Option Res :=
  let j := loopArgs o c
  let core := coreOfGroup c.gid
  let bays := baysOf o.mask
  bayCheck s c bays
    (if j.a % 16 ≠ 0 then some (.fault .misaligned (BitVec.ofNat 64 j.a) c.act)
     else if j.b % 32 ≠ 0 then some (.fault .misaligned (BitVec.ofNat 64 j.b) c.act)
     else
       match badWord c (loopWords o) with
       | some x => some (.fault .operandBounds (BitVec.ofNat 64 x) c.act)
       | none =>
         match loopFormats s core o.fmt bays with
         | .error x => some (loopBad o c x)
         | .ok (p, wlens) =>
           let f := (((s.bay core (bays.headD 0)).recActive.map (·.1))).getD 0
           let spans := stepSpan j.a j.p1 0 (j.n - 1) (actBytes p o.scale (o.m1.toNat + 1))
             :: wlens.mapIdx (fun i w => stepSpan (j.b + i * j.p3) j.p2 0 (j.n - 1) w)
           match (spans.mapIdx (fun i x => (i, outOfScratch c.blk x))).find? (fun x => x.2.isSome) with
           | some (i, _) => some (loopBad o c (bays.getD (i - 1) 0, f.toNat))
           | none => none)

/-- MXLOOP (R247 to R249). -/
def execMxloop (h : Hdr) (o : MxloopOps) (s : State) : Host.Outcome State Fault Refusal :=
  .next (runInstr (.mxloop h o) false (
    matrixBody (fun c => loopItems o (loopArgs o c)) [] (loopChecks o)
      (fun c s =>
        let j := loopArgs o c
        let core := coreOfGroup c.gid
        let m := o.m1.toNat + 1
        match loopFormats s core o.fmt (baysOf o.mask) with
        | .error x => loopBad o c x
        | .ok (p, wlens) =>
          let alen := actBytes p o.scale m
          enterMatrix s c o.gs (.mxloop o.fmt o.scale j.xv o.mask o.rb.toNat m j.a j.b j.n j.p1 j.p2 j.p3 alen wlens)
            (loopClaims j.a j.b j.p1 j.p2 j.p3 0 (j.n - 1) alen wlens)
            (fun b s => s.setBay core b (fun k =>
              { k with recShadow := if 2 ≤ j.n then k.recActive else k.recShadow, recInt := p.int })))) s)

/-! ### Issue of MXDRAIN -/

/-- Scratch bytes and registers of an output row (R253). -/
def rowBytes (o : MxdrainOps) : Nat :=
  match o.epi with
  | .silu => 512
  | .cvt => 256 * (if o.dfmt = 2 then 1 else if o.dfmt = 3 ∨ o.dfmt = 4 then 4 else 2) / 2
  | _ => 1024
def rowRegs (o : MxdrainOps) : Nat := if o.epi = .silu then 4 else 8

/-- An MXDRAIN writes scratch, not registers. -/
def drainsToScratch (o : MxdrainOps) : Bool :=
  match o.dst with
  | .s _ => true
  | .v _ => false

/-- The destination of an MXDRAIN: a scratch offset or its first register. -/
def drainTarget (o : MxdrainOps) (c : Ctx) : Nat :=
  match o.dst with
  | .s r => (c.g.sreg r.toNat).toNat
  | .v r => r.toNat

/-- The offset of its column scales. -/
def drainScales (o : MxdrainOps) (c : Ctx) : Nat := baseLane c 2 o.b 0

def drainRefs (o : MxdrainOps) : List RegRef :=
  match o.dst with
  | .v r => refsV r (rowRegs o * (o.m1.toNat + 1))
  | .s _ => []

/-- The fields that a pair compares of an MXDRAIN (R261). -/
def drainItems (o : MxdrainOps) (c : Ctx) : List Item :=
  [gsItem o.gs, (3, 32, drainTarget o c), (3, 32, drainScales o c), (3, 32, o.dfmt.toNat), (3, 32, o.rnd.toNat), (3, 32, o.sat.toNat),
   (3, 32, match o.epi with | .none => 0 | .scale => 1 | .relu => 2 | .silu => 3 | .cvt => 4), (3, 32, o.bay.toNat), (3, 32, o.rb.toNat),
   (3, 32, o.m1.toNat + 1)]

/-- The checks of R253, in order; the OPERAND_BOUNDS of an epilogue that an i32 record does not allow has EVAL 0 (log 158). -/
def drainChecks (o : MxdrainOps) (c : Ctx) (s : State) : Option Res :=
  let m := o.m1.toNat + 1
  let a := drainTarget o c
  let b := drainScales o c
  let scratch := drainsToScratch o
  let bound (x : Int) : Res := .fault .operandBounds (BitVec.ofInt 64 x) c.act
  bayCheck s c [o.bay.toNat]
    (if scratch ∧ a % 16 ≠ 0 then some (.fault .misaligned (BitVec.ofNat 64 a) c.act)
     else if o.epi = .scale ∧ b % 4 ≠ 0 then some (.fault .misaligned (BitVec.ofNat 64 b) c.act)
     else if (o.epi = .scale ∨ o.epi = .silu) ∧ (s.bay (coreOfGroup c.gid) o.bay.toNat).recInt then some (bound 0)
     else
       match (if o.epi = .scale then outOfScratch c.blk (b, (b : Int) + 1023) else none),
         (if scratch then outOfScratch c.blk (a, (a : Int) + m * rowBytes o - 1) else none) with
       | some x, _ => some (bound x)
       | _, some x => some (bound x)
       | none, none => if !scratch ∧ c.g.nregs < a + rowRegs o * m then some (bound (max a c.g.nregs)) else none)

/-- MXDRAIN (R252, R253): registers are results of variable latency, from the issue of the command on (R64). -/
def execMxdrain (h : Hdr) (o : MxdrainOps) (s : State) : Host.Outcome State Fault Refusal :=
  .next (runInstr (.mxdrain h o) false (
    matrixBody (drainItems o) (drainRefs o) (drainChecks o)
      (fun c s =>
        let a := drainTarget o c
        let m := o.m1.toNat + 1
        let is : List Interval := if drainsToScratch o then [(false, true, false, (a : Int), (a : Int) + m * rowBytes o - 1)] else []
        match enterMatrix s c o.gs (.mxdrain o a (drainScales o c) (s.bay (coreOfGroup c.gid) o.bay.toNat).recInt) is (fun _ s => s) with
        | .done s =>
          if drainsToScratch o then .done s
          else
            let k : Tok := { gid := c.gid, split := c.si, n := c.g.issued, lanes := BitVec.allOnes 32, dst := none, size := 4,
                             sext := false, mask := none, pc := c.pc, vals := [], oks := [] }
            .done (newTok s k (drainRefs o)).2
        | r => r)) s)

/-! ### Acceptance (R215, R226, R228) -/

/-- The bytes that a command reads and writes: global virtual addresses or physical window addresses, first byte, length. -/
def cmdRows (s : State) (id : Nat) (k : Cmd) : List (Bool × Int × Nat) :=
  match s.blocks.get? k.blk with
  | none => []
  | some b =>
    let scr (x : Int) (n : Nat) : Bool × Int × Nat := (false, (scratchAddr k.core (b.scratchBase + x.toNat) : Nat), n)
    let row (space : Nat) (x : Int) (n : Nat) : List (Bool × Int × Nat) :=
      match space with
      | 0 => [(true, x, n)]
      | 1 => [scr x n]
      | 2 => [(false, x, n)]
      | _ =>
        match checkMember s b (((s.launchOf b).map (·.pasid)).getD 0) x.toNat with
        | .ok pa _ => [(false, (pa : Int), n)]
        | _ => []
    match k.kind with
    | .copy .. =>
      match copyOf k.kind with
      | some j =>
        (List.range j.p1).flatMap (fun r => row j.sspace (CopyJob.srow s id k j r) j.p0 ++ row j.dspace (j.drow r) j.p0)
          ++ (if j.isGather then [scr j.p3 (4 * j.p1)] else [])
      | none => []
    | .mxlw fmt sc _ _ _ a => [scr a (planeBytes fmt sc)]
    | .mxloop _ _ _ _ _ _ a x n p1 p2 p3 alen wlens =>
      (List.range n).flatMap (fun (i : Nat) =>
        scr ((a : Int) + i * p1) alen :: wlens.mapIdx (fun r w => scr ((x : Int) + i * p2 + r * p3) w))
    | .mxdrain o a x _ =>
      (match o.dst with
       | .s _ => [scr a ((o.m1.toNat + 1) * rowBytes o)]
       | .v _ => []) ++ (if o.epi = .scale then [scr x 1024] else [])
    | _ => []

/-- The head may be accepted: its earlier writes have left, and no earlier command's range holds it. -/
def acceptable (s : State) (id : Nat) (k : Cmd) : Bool :=
  allPerformed s (dieOfCore k.core) 3 k.wait && (cmdRows s id k).all (fun r => !rowsHeld s k.blk id r.1 [(r.2.1, r.2.2)])

/-- A discarded matrix command that still changes planes (R245): its step does so later. -/
def stillActs (k : Cmd) : Bool :=
  match k.kind with
  | .mxlw .. | .mxswap _ => true
  | .mxloop _ _ _ _ _ _ _ _ n .. => decide (2 ≤ n)
  | _ => false

/-- No result of a discarded MXDRAIN comes. -/
def dropDrain (s : State) (k : Cmd) : State :=
  match k.kind with
  | .mxdrain .. =>
    match s.toks.find? (fun p => p.2.gid == k.gid && p.2.n == k.seq) with
    | some (t, _) => deliver { s with toks := s.toks.del t } k.gid k.seq t []
    | none => s
  | _ => s

/-- A queued command is discarded (R226): no result of it comes, and its ranges retire; a matrix command may still change planes (R245). -/
def discardQueued (s : State) (id : Nat) (k : Cmd) : State :=
  let s := dropDrain s k
  if stillActs k ∧ (s.blocks.get? k.blk).isSome then
    retireClaims (retireRanges (s.setCmd id (fun k => { k with state := .running, discarded := true })) id) id
  else discardCmd s id

/-- ENGINE_COMMAND_ACCEPT (R215, R226). -/
def execEngineCommandAccept (core : Nat) (matrix : Bool) (s : State) : Host.Outcome State Fault Refusal :=
  .next (
    match queueOf s core matrix with
    | [] => s
    | id :: rest =>
      match s.cmds.get? id with
      | none => setQueue s core matrix rest
      | some k =>
        match gateOf s k with
        | .drop => discardQueued (setQueue s core matrix rest) id k
        | .hold =>
          match k.gs with
          | some n =>
            s.setGroup k.gid (fun g => if g.gs.getD n.toNat .free = .free then { g with gs := g.gs.put n.toNat .pending } else g)
          | none => s
        | .go =>
          if !enginesRun s k.blk ∨ !acceptable s id k then s
          else
            (setQueue s core matrix rest).setCmd id (fun k => { k with state := .running, obs := observed s k.gid k.lanes }))

/-! ### Fills and exchanges -/

/-- MXLW_FILL (R245): the fill starts; a discarded one latches zero codes at once. -/
def execMxlwFill (core cmd : Nat) (s : State) : Host.Outcome State Fault Refusal :=
  .next (
    match s.cmds.get? cmd with
    | none => s
    | some k =>
      match k.kind with
      | .mxlw fmt sc xv tr bay a =>
        if k.core ≠ core ∨ k.state ≠ .running ∨ k.fillEnd.isSome ∨ !baysClear s cmd core [bay] ∨ !(k.discarded || enginesRun s k.blk) then s
        else if k.discarded then
          endCmd (s.setBay core bay (fun b => { b with shadow := zeroPlane fmt sc tr })) cmd
        else
          let bytes := readPlane s cmd k a (planeBytes fmt sc)
          let s := s.setBay core bay (fun b =>
            { b with shadow := { b.shadow with bytes := bytes, check := (Plane.filled fmt sc tr xv bytes).check }, fillEnd := some (s.clk + 48) })
          s.setCmd cmd (fun k => { k with fillEnd := some (s.clk + 48) })
      | _ => s)

/-- MXLW_FILL_END (R245). -/
def execMxlwFillEnd (core cmd : Nat) (s : State) : Host.Outcome State Fault Refusal :=
  .next (
    match s.cmds.get? cmd with
    | none => s
    | some k =>
      match k.kind, k.fillEnd with
      | .mxlw fmt sc xv tr bay _, some t =>
        if k.core ≠ core ∨ k.state ≠ .running ∨ s.clk < t then s
        else
          let s := s.setBay core bay (fun b =>
            { b with shadow := { b.shadow with fmt := some fmt, scale := sc, tr := tr, xv := xv }, fillEnd := none })
          endCmd (retireClaims s cmd) cmd
      | _, _ => s)

/-- A bay's fill has ended (R246). -/
def fillDone (s : State) (core bay : Nat) : Bool := (s.bay core bay).fillEnd.elim true (fun t => decide (t ≤ s.clk))

def Bay.exchange (b : Bay) : Bay := { b with active := b.shadow, shadow := b.active, fillEnd := none }

/-- MXSWAP_EXCHANGE (R246, R245), bay by bay. -/
def execMxswapExchange (core cmd bay : Nat) (s : State) : Host.Outcome State Fault Refusal :=
  .next (
    match s.cmds.get? cmd with
    | none => s
    | some k =>
      match k.kind with
      | .mxswap mask =>
        if k.core ≠ core ∨ k.state ≠ .running ∨ !(baysOf mask).contains bay ∨ k.credited.contains bay
            ∨ !baysClear s cmd core [bay] ∨ !fillDone s core bay
            ∨ !(k.discarded || !k.credited.isEmpty || enginesRun s k.blk) then s
        else
          let done := k.credited ++ [bay]
          let s := (s.setBay core bay Bay.exchange).setCmd cmd (fun k => { k with credited := done })
          if (baysOf mask).all (done.contains ·) then endCmd s cmd else s
      | _ => s)

/-! ### K-steps and verdicts -/

/-- The plane that a fill from scratch gives, in the format of another (R250). -/
def refill (s : State) (cmd : Nat) (k : Cmd) (like : Plane) (off : Int) : Plane :=
  match like.fmt with
  | some f => Plane.filled f like.scale like.tr like.xv (readPlane s cmd k off (planeBytes f like.scale))
  | none => like

/-- The exact sums of a step on some bays, in key order. -/
def stepSums (s : State) (core : Nat) (bays : List Nat) (fmt : BitVec 6) (sc : BitVec 2) (xv : BitVec 16) (m : Nat)
    (bs : Pairing → List Byte) (step : Nat) : Map XVal :=
  bays.flatMap (fun b =>
    let w := (s.bay core b).active
    match w.fmt.bind (fun f => pairing f fmt) with
    | none => []
    | some p =>
      let bytes := bs p
      let columns := (List.range 256).map (w.weights p)
      (List.range m).flatMap (fun r =>
        let row := actRow fmt sc xv p m bytes r
        columns.mapIdx (fun n c => (step % 2 * 65536 + b * 16384 + r * 256 + n, dotX row c))))

/-- The exact products of a step's activation rows with the checksum columns of some bays (R251), in key order. -/
def stepChecks (s : State) (core : Nat) (bays : List Nat) (fmt : BitVec 6) (sc : BitVec 2) (xv : BitVec 16) (m : Nat)
    (bs : Pairing → List Byte) (step : Nat) : Map XVal :=
  bays.flatMap (fun b =>
    let w := (s.bay core b).active
    match w.fmt.bind (fun f => pairing f fmt) with
    | none => []
    | some p =>
      let bytes := bs p
      (List.range m).map (fun r => (step % 2 * 256 + b * 64 + r, rowProduct w fmt sc xv p m bytes r)))

/-- A map with some entries in place of those at their keys. -/
def renew (m : Map XVal) (new : Map XVal) : Map XVal := new.foldl (fun t e => t.put e.1 e.2) m

/-- K_STEP (R250, R251): the next step exchanges planes, starts the next fill and streams its rows; a replay refills the
active planes first. -/
def execKStep (core cmd : Nat) (s : State) : Host.Outcome State Fault Refusal :=
  .next (
    match s.cmds.get? cmd with
    | none => s
    | some k =>
      match k.kind with
      | .mxloop fmt sc xv mask _ m a b n p1 p2 p3 _ _ =>
        let bays := baysOf mask
        if k.core ≠ core ∨ k.state ≠ .running ∨ !baysClear s cmd core bays then s
        else if k.discarded then
          endCmd (forAll bays s (fun i s => s.setBay core i (fun q =>
            match q.active.fmt with
            | some f => { q with shadow := zeroPlane f q.active.scale q.active.tr }
            | none => q))) cmd
        else
          let st := k.pos
          let ready := decide (st < n) && decide (k.rowsEnd ≤ s.clk) && (k.fillEnd.elim true (fun t => decide (t ≤ s.clk)))
            && (if k.replay then decide (st = k.passed)
                else decide (st ≤ k.passed + 1) && enginesRun s k.blk)
          if !ready then s
          else
            let weights (i x : Nat) : Int := (b : Int) + x * p2 + i * p3
            let ranked := bays.mapIdx (fun i x => (i, x))
            let s := if k.replay then
                forAll ranked s (fun x s => s.setBay core x.2 (fun q => { q with active := refill s cmd k q.active (weights x.1 st) }))
              else if st = 0 then s
              else forAll bays s (fun x s => s.setBay core x Bay.exchange)
            let start := if k.replay then s.clk + 48 else s.clk
            let s := if st + 1 < n then
                forAll ranked s (fun x s => s.setBay core x.2 (fun q => { q with shadow := refill s cmd k q.active (weights x.1 (st + 1)) }))
              else s
            let p := (((s.bay core (bays.headD 0)).active.fmt).bind (fun f => pairing f fmt)).getD ⟨48, 48, false⟩
            let base := ((s.blocks.get? k.blk).map (·.scratchBase)).getD 0
            let lo := scratchAddr core (base + ((a : Int) + st * p1).toNat)
            let ld := engineLoad cmd k lo lo 1 s.nextId
            let bytes (p : Pairing) : List Byte := (List.range (actBytes p sc m)).map (fun i => loadByte s ld (lo + i))
            let forms := bays.filter (fun x => !(k.replay && k.kept.getLsbD x))
            let sums := renew k.sums (stepSums s core forms fmt sc xv m bytes st)
            let checks := renew k.checks (stepChecks s core forms fmt sc xv m bytes st)
            s.setCmd cmd (fun k => { k with
              pos := st + 1, prevEnd := k.rowsEnd, rowsEnd := start + m * (p.q / 48), sums := sums, checks := checks,
              fillEnd := if st + 1 < n then some (start + 48) else none })
      | _ => s)

/-- The clk at which the verdict of a step falls: 4 clk after its last row (R251). -/
def verdictDue (k : Cmd) : Nat := (if k.pos = k.passed + 1 then k.rowsEnd else k.prevEnd) + 3

/-- Applies a step's held sums to the accumulators of a bay (R250). -/
def applyStep (s : State) (core bay rb m step : Nat) (int : Bool) (sums : Map XVal) : State :=
  forAll (List.range m) s (fun r s =>
    forAll (List.range 256) s (fun n s =>
      let pa := accumAddr core bay (rb + r) n
      match sums.get? (step % 2 * 65536 + bay * 16384 + r * 256 + n) with
      | some x => writeNat s pa 4 (stepResult int (readNat s pa 4) x)
      | none => s))

/-- A row of a bay in which the sum over columns of a step's outputs is not the product with the checksum column (R251). -/
def rowDiffers (k : Cmd) (step bay r : Nat) : Bool :=
  let key := step % 2 * 65536 + bay * 16384 + r * 256
  let sum := (List.range 256).foldl (fun t n => (addX .rne t (k.sums.getD (key + n) (.fin 0 0))).1) (.fin 0 0)
  XVal.differs sum (k.checks.getD (step % 2 * 256 + bay * 64 + r) (.fin 0 0))

/-- The bays in which a step's sums differ: by what they hold, or since an error of the array has changed one of them. -/
def mismatches (k : Cmd) (bays : List Nat) (step m : Nat) (upset : BitVec 4) : BitVec 4 :=
  bays.foldl (fun t b => if (List.range m).any (rowDiffers k step b) then t ||| (1 <<< b) else t) upset

/-- CHECKSUM_VERDICT (R251): `upset` says in which bays an error of the array has changed a row's sum. -/
def execChecksumVerdict (core cmd : Nat) (upset : BitVec 4) (s : State) : Host.Outcome State Fault Refusal :=
  .next (
    match s.cmds.get? cmd with
    | none => s
    | some k =>
      match k.kind with
      | .mxloop fmt _ _ mask rb m a b n p1 p2 p3 alen wlens =>
        let bays := baysOf mask
        let bad := mismatches k bays k.passed m upset &&& mask &&& (if k.replay then ~~~k.kept else BitVec.allOnes 4)
        let st := k.passed
        if k.core ≠ core ∨ k.state ≠ .running ∨ k.discarded ∨ k.pos ≤ st ∨ ¬(verdictDue k ≤ s.clk) then s
        else if bad ≠ 0 then
          if k.replay then
            let eval := BitVec.ofNat 64 (st + bad.toNat * 2 ^ 20)
            let s := retireClaims (failCmd s cmd .mxCheck eval) cmd
            queueFailure (endCmd s cmd) cmd k .mxCheck eval
          else s.setCmd cmd (fun k => { k with replay := true, kept := mask &&& ~~~bad, pos := st, fillEnd := none, rowsEnd := s.clk })
        else
          let p := (((s.bay core (bays.headD 0)).active.fmt).bind (fun f => pairing f fmt)).getD ⟨48, 48, false⟩
          let s := forAll bays s (fun x s => applyStep s core x rb m st p.int k.sums)
          let s := if k.replay then
              logEvent s (dieOfCore core) 0x0004 0 (core % 64) (BitVec.ofNat 64 st) (BitVec.ofNat 64 (mask &&& ~~~k.kept).toNat)
            else s
          let s := retireClaims s cmd
          if st + 1 = n then endCmd (s.setCmd cmd (fun k => { k with passed := n, replay := false })) cmd
          else
            let left := loopClaims a b p1 p2 p3 (st + 1) (n - 1) alen wlens
            let s := { s with ranges := s.ranges ++ left.map (Interval.range cmd k.blk) }
            s.setCmd cmd (fun k => { k with passed := st + 1, replay := false })
      | _ => s)

/-! ### Drains and zeroes -/

/-- SiLU(g) × h (R254). -/
def siluProduct (g h : XVal) : XVal :=
  match g, h with
  | .nan, _ => .nan
  | _, .nan => .nan
  | .inf false, h => (mulX (.inf false) h).1
  | .inf true, h => (mulX .negZero h).1
  | .negZero, h => (mulX .negZero h).1
  | .fin m e, .fin m' e' =>
    if m = 0 then (mulX (.fin 0 0) (.fin m' e')).1
    else if m' = 0 then (mulX (.fin m 0) (.fin 0 0)).1
    else siluX m e m' e'
  | .fin m e, h => if m = 0 then (mulX (.fin 0 0) h).1 else (mulX (.fin m e) h).1

/-- The result of an epilogue in one column (R254): `x` reads a column of the row, `scale` the column scales. -/
def epilogue (o : MxdrainOps) (int : Bool) (x : Nat → Nat) (scale : Nat → Nat) (n : Nat) : Nat :=
  match o.epi with
  | .none => x n
  | .scale => (roundTo fp32 (mulX (fp32.value (x n)) (fp32.value (scale n))).1 .rne).1
  | .relu =>
    if int then (if toSigned (x n) 32 < 0 then 0 else x n)
    else if fp32.isNan (x n) then fp32.nanBits
    else if ltX (.fin 0 0) (fp32.value (x n)) then x n else 0
  | .silu => (roundTo fp32 (siluProduct (fp32.value (x n)) (fp32.value (x (n + 128)))) .rne).1
  | .cvt =>
    let v := if int then ofInt (toSigned (x n) 32) else fp32.value (x n)
    (cvtWrite o.dfmt.toNat v false o.sat.toNat (rmOf o.rnd.toNat 0)).1

/-- Columns of an output row and the bits of each (R253). -/
def outCols (o : MxdrainOps) : Nat := if o.epi = .silu then 128 else 256
def outBits (o : MxdrainOps) : Nat :=
  if o.epi = .cvt then (if o.dfmt = 2 then 4 else if o.dfmt = 3 ∨ o.dfmt = 4 then 16 else 8) else 32

/-- Packs the columns of a row into units of whole bytes: FP4 two to a byte, the lower column in the low nibble (R82). -/
def packRow (bits : Nat) (cols : List Nat) : List Nat :=
  if bits = 4 then
    (List.range (cols.length / 2)).map (fun i => cols.getD (2 * i) 0 % 16 + 16 * (cols.getD (2 * i + 1) 0 % 16))
  else cols

/-- MXDRAIN_EXECUTE (R254). -/
def execMxdrainExecute (core cmd : Nat) (s : State) : Host.Outcome State Fault Refusal :=
  .next (
    match s.cmds.get? cmd with
    | none => s
    | some k =>
      match k.kind, s.blocks.get? k.blk with
      | .mxdrain o a b int, some blk =>
        if k.core ≠ core ∨ k.state ≠ .running ∨ k.discarded ∨ 0 < k.pos ∨ !baysClear s cmd core [o.bay.toNat] ∨ !enginesRun s k.blk then s
        else
          let m := o.m1.toNat + 1
          let ld (pa : Nat) : Acc := engineLoad cmd k pa pa 4 s.nextId
          let scale (n : Nat) : Nat :=
            let pa := scratchAddr core (blk.scratchBase + b + 4 * n)
            loadNat s (ld pa)
          let row (r : Nat) : List Nat :=
            let x (n : Nat) : Nat := readNat s (accumAddr core o.bay.toNat (o.rb.toNat + r) n) 4
            (List.range (outCols o)).map (epilogue o int x scale)
          match o.dst with
          | .s _ =>
            let unit := max 1 (outBits o / 8)
            let put (s : State) (x : Nat × Nat) : State :=
              let (i, s) := depart s (cmdAcc cmd k .store (a + x.1) (scratchAddr core (blk.scratchBase + a + x.1)) unit x.2 [])
              s.setCmd cmd (fun k => { k with writes := k.writes ++ [(i, 0)] })
            let all := (List.range m).flatMap (fun r => (packRow (outBits o) (row r)).mapIdx (fun i v => (r * rowBytes o + i * unit, v)))
            (all.foldl put s).setCmd cmd (fun k => { k with pos := 1 })
          | .v r =>
            match s.toks.find? (fun p => p.2.gid == k.gid && p.2.n == k.seq) with
            | none => endCmd s cmd
            | some (t, tk) =>
              let ws : Writes := (List.range m).flatMap (fun i =>
                let vs := row i
                (List.range (rowRegs o)).map (fun j =>
                  (RegRef.v (r.toNat + i * rowRegs o + j), (lanesOf tk.lanes).map (fun l => (l, vs.getD (j * 32 + l) 0)))))
              let regs := ws.map (·.1)
              let s := { s with toks := s.toks.del t }
              let shored := match shoreDests s k.depth k.gid regs with
                | (s, none) => if checkedGroup s k.gid then shoreDests s k.depth (k.gid + 32) regs else (s, none)
                | x => x
              match shored with
              | (s, none) => endCmd (deliver s k.gid k.seq t ws) cmd
              | (_, some r) => queueFailure (endCmd (deliver s k.gid k.seq t []) cmd) cmd k .shoreFull (BitVec.ofNat 64 r)
      | _, _ => s)

/-- MXZERO_EXECUTE (R255). -/
def execMxzeroExecute (core cmd : Nat) (s : State) : Host.Outcome State Fault Refusal :=
  .next (
    match s.cmds.get? cmd with
    | none => s
    | some k =>
      match k.kind with
      | .mxzero mask rb m =>
        if k.core ≠ core ∨ k.state ≠ .running ∨ k.discarded ∨ !baysClear s cmd core (baysOf mask) ∨ !enginesRun s k.blk then s
        else
          let s := forAll (baysOf mask) s (fun b s =>
            forAll (List.range m) s (fun r s => forAll (List.range 256) s (fun n s => writeNat s (accumAddr core b (rb + r) n) 4 0)))
          endCmd s cmd
      | _ => s)

end Sys2Proof.Machine
end

