-- ==== Sys2Proof/Machine/Collective.lean ====
section
/-!
DEFINITION. COLL and the die's collective engine (R256 to R260), as the member of this module takes its steps.
-/
namespace Sys2Proof.Machine

/-- Element sizes of COLL (R256). -/
def collSize (typ : Nat) : Nat := if typ = 1 ∨ typ = 5 then 8 else if typ = 2 ∨ typ = 3 then 2 else 4

/-- Clk in a microsecond (R19). -/
def clkPerUs : Nat := 1400

/-! ### Issue -/

/-- What a COLL reads at its issue (R256). -/
structure CollArgs where
  d : Nat
  a : Nat
  b : Nat
  n : Nat
  word : Nat
  seq : Nat
  us : Nat
  deriving DecidableEq, Repr

def collArgs (o : CollOps) (c : Ctx) : CollArgs :=
  let sr (r : BitVec 6) : Nat := (c.g.sreg r.toNat).toNat
  { d := sr o.d, a := sr o.a, b := sr o.b, n := (pwordVal c o.p.p0).1, word := (pwordVal c o.p.p1).1, seq := (pwordVal c o.p.p2).1,
    us := (pwordVal c o.p.p3).1 }

/-- The fields that a pair compares of a COLL (R261). -/
def collItems (o : CollOps) (j : CollArgs) : List Item :=
  [gsItem o.gs, (3, 32, o.typ.toNat), (3, 32, o.scope.toNat), (3, 32, o.retries.toNat), (3, 32, o.op.toNat), (3, 32, j.d), (3, 32, j.a),
   (3, 32, j.b), (3, 32, j.n), (3, 32, j.word), (3, 32, j.seq), (3, 32, j.us)]

/-- The checks of R256 and R260, in order. -/
def collChecks (o : CollOps) (c : Ctx) (_ : State) : Option Res :=
  let j := collArgs o c
  let e := collSize o.typ.toNat
  if 0 < c.blk.levels.length then some (.fault .nesting 0 c.act)
  else if j.b % e ≠ 0 then some (.fault .misaligned (BitVec.ofNat 64 j.b) c.act)
  else if j.d % e ≠ 0 then some (.fault .misaligned (BitVec.ofNat 64 j.d) c.act)
  else
    match wordCheck j.word with
    | some (k, va) => some (.fault k (BitVec.ofNat 64 va) c.act)
    | none =>
      (badWord c [(o.p.p0, (fun x => decide (1 ≤ x ∧ x ≤ 2 ^ 24)), false), (o.p.p3, (fun x => decide (1 ≤ x ∧ x ≤ 65535)), false)]).map
        (fun x => .fault .operandBounds (BitVec.ofNat 64 x) c.act)

/-- A COLL leaves for the engine of its die (R224, R52), with its range in the scoreboard (R227). -/
def collEnter (o : CollOps) (c : Ctx) (s : State) : Res :=
  let j := collArgs o c
  let core := coreOfGroup c.gid
  let dest : Receiver := .coll (dieOfCore core)
  -- the member count is not known before the record is read: the most that it may write (log 62)
  let len := (if o.op = 1 then 1 else 16) * j.n * collSize o.typ.toNat
  if !mayYetSend s core dest 1 ∨ 128 < scoreEntries s core + 1 then .wait
  else
    let k : Coll := { core := core, gid := c.gid, blk := c.g.blk, pasid := c.launch.pasid, die := dieOfCore core, typ := o.typ.toNat, op := o.op.toNat,
                      scope := o.scope.toNat, retries := o.retries.toNat, d := j.d, a := j.a, b := j.b, count := j.n,
                      word := j.word, seq := j.seq, timeout := j.us * clkPerUs, gs := o.gs, lanes := c.act, obs := [],
                      wait := earlierWrites s c, discarded := false, accepted := false, summed := false, scrambled := false, done := false, members := 0, rank := 0, ctag := 0, acc := [], got := [],
                      out := [], writes := [], failed := none, tag := none }
    let (id, s) := s.fresh
    let range : Range := Interval.range id c.g.blk (false, false, false, (j.d : Nat), (j.d + len : Nat) - 1)
    .done (sendEntry { s with colls := s.colls.put id k, ranges := s.ranges ++ [range] } core c.gid dest (.coll id))

/-- COLL (R256, R260, R261). -/
def execColl (h : Hdr) (o : CollOps) (s : State) : Host.Outcome State Fault Refusal :=
  .next (runInstr (.coll h o) false
    (engineBody (fun c => collItems o (collArgs o c)) [] (collChecks o) (collEnter o)) s)

/-! ### Spans of virtual addresses -/

/-- A span cut at 64 KiB boundaries: first address and length of each part. -/
def spanParts (va n : Nat) : List (Nat × Nat) :=
  (List.range ((va % 65536 + n + 65535) / 65536)).map (fun i =>
    let lo := max va ((va / 65536 + i) * 65536)
    let hi := min (va + n) ((va / 65536 + i + 1) * 65536)
    (lo, hi - lo))

/-- Translations of every part of a span, or the first part that has none. -/
def spanTranslate (s : State) (die pasid : Nat) (need : Need) : List (Nat × Nat) → (Option (Nat × Tr) × List (Nat × Nat × Nat)) × State
  | [] => ((none, []), s)
  | (va, n) :: t =>
    if n = 0 then spanTranslate s die pasid need t
    else
      match translate s die pasid need va with
      | (.ok pa _, s) =>
        let ((x, l), s) := spanTranslate s die pasid need t
        ((x, (va, pa, n) :: l), s)
      | (r, s) => ((some (va, r), []), s)

/-- Those parts of a span that translate. -/
def mappedParts (s : State) (die pasid : Nat) (need : Need) (parts : List (Nat × Nat)) : List (Nat × Nat × Nat) × State :=
  parts.foldl (fun (t : List (Nat × Nat × Nat) × State) p =>
    match spanTranslate t.2 die pasid need [p] with
    | ((none, ps), s) => (t.1 ++ ps, s)
    | (_, s) => (t.1, s)) ([], s)

/-- How a collective engine's use of a span begins. -/
inductive SpanEnd where
  | ready (parts : List (Nat × Nat × Nat))
  | wait
  | failed (c : Cause)
  deriving DecidableEq, Repr

/-- Translates a span for a collective (R259): a page fault is posted and the engine waits for its answer. -/
def collSpan (s : State) (id : Nat) (k : Coll) (need : Need) (va n : Nat) : SpanEnd × State :=
  match spanTranslate s k.die k.pasid need (spanParts va n) with
  | ((none, ps), s) =>
    if need.r && ps.any (fun p => (linesOf p.2.1 p.2.2).any (fun l => (s.line l).poison)) then (.failed .eccUncorr, s) else (.ready ps, s)
  | ((some (va, .page i st), _), s) =>
    let (t, s) := postFault s k.pasid va i (8 + (if need.w then 2 else 0) + if st then 1 else 0)
    (.wait, flushFaults { s with colls := s.colls.modify id (fun k => { k with tag := some t }) })
  | ((some _, _), s) => (.failed .accessFault, s)

/-- The engine's accesses (R214): an agent of its die. -/
def collAcc (id : Nat) (k : Coll) (kind : AKind) (va pa size data : Nat) (carry : List Nat) : Acc :=
  let _ := id
  agentAcc k.die none (some k.blk) none kind va pa size data carry

/-- The engine's reads of a span, in pieces of `e` bytes. -/
def collLoads (s : State) (id : Nat) (k : Coll) (e : Nat) (ps : List (Nat × Nat × Nat)) : List Acc :=
  ps.flatMap (fun p => (List.range (p.2.2 / e)).map (fun i =>
    { collAcc id k .load (p.1 + i * e) (p.2.1 + i * e) e 0 [] with id := s.nextId }))

/-- Every byte of a span can be read now: it is held at no home, and stands in no class 5 access that has not been applied (R214, R216,
R204, R321). -/
def collReady (s : State) (id : Nat) (k : Coll) (e : Nat) (ps : List (Nat × Nat × Nat)) : Bool :=
  (collLoads s id k e ps).all (fun a => sourcesKnown s a && !heldAtHome s a)

/-- The bytes of a span as the engine reads them. -/
def collRead (s : State) (id : Nat) (k : Coll) (e : Nat) (ps : List (Nat × Nat × Nat)) : List Byte × State :=
  (collLoads s id k e ps).foldl (fun t a =>
    (t.1 ++ leBytes e (loadNat t.2 a), mayCorrect (bridgeRead (afterLoad t.2 a) a.die a.pa e false) a.pa)) ([], s)

/-- Writes bytes to a span, an element at a time. -/
def collWrite (s : State) (id : Nat) (k : Coll) (ps : List (Nat × Nat × Nat)) (bytes : List Byte) : State :=
  let e := collSize k.typ
  let cells := ps.flatMap (fun p => (List.range (p.2.2 / e)).map (fun i => (p.1 + i * e, p.2.1 + i * e)))
  (cells.mapIdx (fun i x => (i, x))).foldl (fun s x =>
    let (w, s) := depart s (collAcc id k .store x.2.1 x.2.2 e (ofLe ((bytes.drop (x.1 * e)).take e)) [])
    { s with colls := s.colls.modify id (fun k => { k with writes := k.writes ++ [w] }) }) s

def failColl (s : State) (id : Nat) (code : BitVec 8) : State :=
  { s with colls := s.colls.modify id (fun k => if k.failed.isNone then { k with failed := some code, out := [] } else k) }

/-! ### Acceptance (R215, R226, R257) -/

/-- Bytes of one block of a member. -/
def Coll.block (k : Coll) : Nat := k.count * collSize k.typ

/-- Bytes of this member's source and destination (R258). -/
def Coll.srcBytes (k : Coll) : Nat := if k.op = 0 then k.members * k.block else k.block
def Coll.dstBytes (k : Coll) : Nat := if k.op = 1 then k.block else k.members * k.block

def Coll.others (k : Coll) : List Nat := (List.range k.members).filter (· != k.rank)

/-- The members to which a member sends first: all others, or rank 0 for a sum (R258). -/
def Coll.firstSteps (k : Coll) : List Nat := if k.op = 1 then (if k.rank = 0 then [] else [0]) else k.others

/-- A communicator record within its limits, of this device (R257). -/
def recordOk (r : List Byte) (device : Nat) : Bool :=
  let b (i : Nat) : Nat := (r.getD i 0).toNat
  let n := b 0
  let rank := b 1
  decide (2 ≤ n ∧ n ≤ 16 ∧ rank < n) && ((r.drop 2).take 2).all (· == 0) && ((r.drop 8).take 8).all (· == 0)
    && (r.drop 48).all (· == 0) && b (16 + 2 * rank) + 256 * b (17 + 2 * rank) == device

/-- Where the held head of a collective queue stands (R226). -/
def collGate (s : State) (k : Coll) : Gate :=
  if k.discarded then .drop
  else
  match k.gs with
  | none => .go
  | some n =>
    match s.groups.get? k.gid with
    | none => if 32768 ≤ k.gid then .hold else .drop
    | some g =>
      match g.gs.getD n.toNat .free with
      | .true => .go
      | .false => .drop
      | .free | .pending => .hold

/-- The member's own part: its own block copied, or the sum begun at rank 0 (R258). It waits while its source cannot be read. -/
def collBegin (s : State) (id : Nat) (k : Coll) : State :=
  match collSpan s id k Need.load k.b k.srcBytes with
  | (.wait, s) => s
  | (.failed c, s) => failColl s id c.code
  | (.ready ps, s) =>
    let e := collSize k.typ
    if !collReady s id k e ps then s
    else
      let (src, s) := collRead s id k e ps
      let mine := if k.op = 0 then (src.drop (k.rank * k.block)).take k.block else src
      let start (s : State) : State :=
        { s with colls := s.colls.modify id (fun q =>
          { q with acc := mine, summed := true, out := k.firstSteps.map (fun r => (r, k.retries, s.clk)) }) }
      if k.op = 1 then start s
      else
        match collSpan s id k Need.store (k.d + k.rank * k.block) k.block with
        | (.wait, s) => s
        | (.failed c, s) => failColl s id c.code
        | (.ready ds, s) => start (collWrite s id k ds mine)

def setCollQ (s : State) (core : Nat) (q : List Nat) : State := s.setCore core (fun k => { k with collQ := q })

/-- The engine accepts the head of a core's collective queue, with what its threads have observed, and what it has learned of it. -/
def takeColl (s : State) (cmd : Nat) (k : Coll) (f : Coll → Coll) : State :=
  let obs := (k.obs ++ observed s k.gid k.lanes).eraseDups
  setCollQ { s with colls := s.colls.modify cmd (fun q => f { q with accepted := true, obs := obs }) } k.core (s.core k.core).collQ.tail

/-- The head of a core's collective queue is examined (R215, R226): once its slot is true and nothing holds it, the engine reads the
communicator record (R257). -/
def acceptColl (s : State) (cmd : Nat) (k : Coll) : State :=
  match collGate s k with
  | .drop =>
    let s := retireRanges (setCollQ s k.core (s.core k.core).collQ.tail) cmd
    { s with colls := s.colls.del cmd }
  | .hold =>
    match k.gs with
    | some n => s.setGroup k.gid (fun g => if g.gs.getD n.toNat .free = .free then { g with gs := g.gs.put n.toNat .pending } else g)
    | none => s
  | .go =>
    let held (rows : List (Int × Nat)) : Bool := rowsHeld s k.blk cmd true rows
    if !allPerformed s k.die 3 k.wait ∨ held [((k.a : Int), 64)] then s
    else if k.a % 64 ≠ 0 then failColl (takeColl s cmd k id) cmd Cause.misaligned.code
    else
      match collSpan s cmd k Need.load k.a 64 with
      | (.wait, s) => s
      | (.failed c, s) => failColl (takeColl s cmd k id) cmd c.code
      | (.ready ps, s) =>
        if !collReady s cmd k 8 ps then s
        else
          let (r, s) := collRead s cmd k 8 ps
          let read (q : Coll) : Coll :=
            { q with members := (r.getD 0 0).toNat, rank := (r.getD 1 0).toNat, ctag := BitVec.ofNat 32 (ofLe ((r.drop 4).take 4)) }
          if !recordOk r s.mgmt.peer.toNat then failColl (takeColl s cmd k read) cmd 0x40
          else if held [((k.b : Int), (read k).srcBytes), ((k.d : Int), (read k).dstBytes)] then s
          else
            let s := takeColl s cmd k read
            match s.colls.get? cmd with
            | some k => collBegin s cmd k
            | none => s

/-- COLL_ACCEPT (R224, R52, R257): a COLL reaches the queue of its core at the engine, which refuses it when it holds 32; the head of
that queue is then examined. Once a page fault of the engine has been answered, or a source can be read, the same step goes on. -/
def execCollAccept (cmd : Nat) (s : State) : Host.Outcome State Fault Refusal :=
  .next (
    match s.colls.get? cmd with
    | none => s
    | some k =>
      let q := (s.core k.core).collQ
      if k.accepted then (if k.summed ∨ k.failed.isSome ∨ k.tag.isSome then s else collBegin s cmd k)
      else if q.contains cmd then (if q.head? ≠ some cmd ∨ k.tag.isSome then s else acceptColl s cmd k)
      else
        match s.queue.find? (fun e => e.payload == .coll cmd) with
        | none => s
        | some e =>
          if !entryDue s e then s
          else if 32 ≤ q.length then refuseEntry s e
          else setEntry (setCollQ s k.core (q ++ [cmd])) e.id .accepted)

/-! ### Steps (R258, R259) -/

/-- A block's header and length agree with the member's own (R257). -/
def Coll.agrees (k : Coll) (b : CollBlock) : Bool :=
  k.ctag == b.tag && k.op == b.op && k.typ == b.typ && b.bytes.length == k.block

/-- The arrival of a block of another member, or of the sum from rank 0. -/
def collArrive (s : State) (cmd : Nat) (k : Coll) (rank : Nat) (bytes : List Byte) : State :=
  if k.got.contains rank then s
  else
    let at_ := if k.op = 1 then k.d else k.d + rank * k.block
    match collSpan s cmd k Need.store at_ k.block with
    | (.wait, s) => s
    | (.failed c, s) => failColl s cmd c.code
    | (.ready ps, s) =>
      let s := collWrite s cmd k ps bytes
      { s with colls := s.colls.modify cmd (fun q => { q with got := q.got ++ [rank] }) }

/-- COLL_STEP_ACK (R259, R257): with bytes, this member receives a block from `rank`, with the tag, operation and type that `rank` has,
and acknowledges it; with none, `rank` acknowledges the block that this member sent it. -/
def execCollStepAck (cmd rank : Nat) (block : CollBlock) (s : State) : Host.Outcome State Fault Refusal :=
  .next (
    match s.colls.get? cmd with
    | none => s
    | some k =>
      if !k.summed ∨ k.failed.isSome ∨ k.tag.isSome ∨ !k.others.contains rank then s
      else if block.bytes.isEmpty then
        { s with colls := s.colls.modify cmd (fun q => { q with out := q.out.filter (fun x => x.1 != rank) }) }
      else if !k.agrees block then failColl s cmd 0x42
      else if k.op = 1 ∧ (k.rank = 0 ∨ rank ≠ 0) then s
      else collArrive s cmd k rank block.bytes)

/-- One addition of an all-reduce, element by element (R258). -/
def sumElement (typ a b : Nat) : Nat :=
  match typ with
  | 0 => fSum fp32 a b
  | 1 => fSum fp64 a b
  | 2 => fSum fp16 a b
  | 3 => fSum bf16 a b
  | 4 => (a + b) % 2 ^ 32
  | _ => (a + b) % 2 ^ 64

def sumBytes (typ n : Nat) (a b : List Byte) : List Byte :=
  let e := collSize typ
  (List.range n).flatMap (fun i =>
    let at_ (x : List Byte) : Nat := ofLe ((x.drop (i * e)).take e)
    leBytes e (sumElement typ (at_ a) (at_ b)))

/-- COLL_CONTRIBUTION_ARRIVAL (R258): rank 0 adds a contribution in the order of arrival; after the last one it has the
sum, writes it and sends it to every member. -/
def execCollContributionArrival (cmd rank : Nat) (block : CollBlock) (s : State) :
    Host.Outcome State Fault Refusal :=
  .next (
    match s.colls.get? cmd with
    | none => s
    | some k =>
      if !k.summed ∨ k.failed.isSome ∨ k.tag.isSome ∨ k.op ≠ 1 ∨ k.rank ≠ 0 ∨ !k.others.contains rank ∨ k.got.contains rank then s
      else if !k.agrees block then failColl s cmd 0x42
      else
        let acc := sumBytes k.typ k.count k.acc block.bytes
        let got := k.got ++ [rank]
        let set (s : State) (out : List (Nat × Nat × Nat)) : State :=
          { s with colls := s.colls.modify cmd (fun q => { q with acc := acc, got := got, out := out }) }
        if got.length + 1 < k.members then set s []
        else
          match collSpan s cmd k Need.store k.d k.block with
          | (.wait, s) => s
          | (.failed c, s) => failColl s cmd c.code
          | (.ready ps, s) => set (collWrite s cmd k ps acc) (k.others.map (fun r => (r, k.retries, s.clk))))

/-- COLL_STEP_TIMEOUT (R259): a step that stays unacknowledged for its time, or that is refused, is sent again or fails the member with
0x41; a member that waits for the data or the acknowledgement of one that has failed fails with 0x43. -/
def execCollStepTimeout (cmd : Nat) (loss : StepLoss) (s : State) : Host.Outcome State Fault Refusal :=
  .next (
    let rank := loss.rank
    match s.colls.get? cmd with
    | none => s
    | some k =>
      if !k.summed ∨ k.failed.isSome ∨ k.tag.isSome ∨ !k.others.contains rank then s
      else
        let step := k.out.find? (fun x => x.1 == rank)
        match loss.why with
        | .gone =>
          let waits := !k.got.contains rank && (k.op != 1 || k.rank == 0 || rank == 0)
          if waits || step.isSome then failColl s cmd 0x43 else s
        | _ =>
          match step with
          | none => s
          | some (_, tries, since) =>
            if loss.why = .late ∧ s.clk < since + k.timeout then s
            else if tries = 0 then failColl s cmd 0x41
            else
              { s with colls := s.colls.modify cmd (fun q =>
                { q with out := q.out.map (fun x => if x.1 = rank then (rank, tries - 1, s.clk) else x) }) })

/-! ### Completion -/

/-- The destination of a failed member holds unspecified values, wherever it is mapped (R259, R10); where no valid record has told its
extent, that is one block (log 153). -/
def scramble (s : State) (cmd : Nat) (k : Coll) : State :=
  let n := if k.op = 1 then k.block else max 1 (min 16 k.members) * k.block
  let s := { s with colls := s.colls.modify cmd (fun q => { q with scrambled := true }) }
  let (ps, s) := mappedParts s k.die k.pasid Need.store (spanParts k.d n)
  let bytes := (List.range n).map (fun i => BitVec.ofNat 8 (Config.freeNat (s.freeCtr + i)))
  collWrite { s with freeCtr := s.freeCtr + n } cmd k ps bytes

/-- COLL_COMPLETE (R259, R231): a failed member's destination becomes unspecified; then, once every write of the member is performed, the
completion word, as a release that carries them. -/
def execCollComplete (cmd : Nat) (s : State) : Host.Outcome State Fault Refusal :=
  .next (
    match s.colls.get? cmd with
    | none => s
    | some k =>
      let set := liveOf s (k.writes ++ k.obs)
      if k.tag.isSome ∨ !k.accepted ∨ k.done ∨ !(k.complete || k.failed.isSome) then s
      else if !k.settled then scramble s cmd k
      else if !allPerformed s k.die k.scope set then s
      else
        let value := match k.failed with
          | some c => wordFail c.toNat k.seq
          | none => wordOk k.seq
        let finish (s : State) : State := finishColl { s with colls := s.colls.modify cmd (fun q => { q with done := true }) } cmd
        let mk (pa : Nat) : Acc := { collAcc cmd k .store k.word pa 8 value set with ord := .release, scope := k.scope }
        match writeWord s true k.pasid k.word mk with
        | (.written, s) => finish s
        | (.tagged t, s) => { s with colls := s.colls.modify cmd (fun q => { q with tag := some t }) }
        | (.lost c, s) => logEvent (finish s) k.die 0x000E 4 0xFF (BitVec.ofNat 64 k.word) (BitVec.ofNat 64 c.code.toNat))

end Sys2Proof.Machine
end

