-- ==== Sys2Proof/Machine/Control.lean ====
section
/-!
DEFINITION. Class 0: branches, calls, exit, trap and the mask instructions (R111 to R120).
-/
namespace Sys2Proof.Machine

/-- NOP (R118). -/
def execNop (h : Hdr) (s : State) : Host.Outcome State Fault Refusal :=
  .next (runInstr (.nop h) false (fun _ s => .done s) s)

/-- The join address of R112: a zero offset is no join. -/
def joinOf {n : Nat} (pc : CodeAddr) (off : BitVec n) : CodeAddr := if off = 0 then 0 else pcOff pc off

/-- BRA's parts (R113): the lanes of G to the target, the rest of em to PC + 3. -/
def branch (s : State) (c : Ctx) (target join : CodeAddr) : State :=
  let fall := c.em &&& ~~~c.act
  let next := c.pc + 3
  if c.act = 0 then setSplit s c.gid c.si (fun q => { q with pc := next })
  else if fall = 0 ∨ target = next then setSplit s c.gid c.si (fun q => { q with pc := target })
  else divide s c.gid c.si join [(target, c.act), (next, fall)]

/-- The parts of BRX, CALLX and RET (R114): each lane of G to its own target, the rest to PC + 3, in increasing next
PC. -/
def branchParts (c : Ctx) (target : Nat → CodeAddr) : List (CodeAddr × LaneMask) :=
  let nextOf (l : Nat) : Nat := if c.act.getLsbD l then (target l).toNat else (c.pc + 3).toNat
  let pcs := sortBy (fun a b => decide (a ≤ b)) ((lanesOf c.em).map nextOf).eraseDups
  pcs.map (fun p => (BitVec.ofNat 55 p, lanesWhere c.em (fun l => nextOf l == p)))

/-- A branch to register targets: ACCESS_FAULT where a lane's bits [63:55] are not zero (R112). -/
def branchReg (c : Ctx) (t : Tgt) (join : CodeAddr) (before : State → State) (s : State) : Res :=
  let bad := lanesWhere c.act (fun l => decide (2 ^ 55 ≤ tgtLane c t l))
  if bad ≠ 0 then .fault .accessFault (BitVec.ofNat 64 (tgtLane c t (lowestLane bad))) bad
  else
    let s := before s
    if c.em = 0 then .jump (setSplit s c.gid c.si (fun q => { q with pc := c.pc + 3 }))
    else .jump (divide s c.gid c.si join (branchParts c (fun l => BitVec.ofNat 55 (tgtLane c t l))))

/-- Writes the return address PC + 3 in the lanes of G (R115). -/
def writeReturn (c : Ctx) (d : BitVec 8) (s : State) : State := setDstLanes s c d.toNat 2 (fun _ => (c.pc + 3).toNat)

/-- BRA (R113). A branch whose guard leaves no lane falls through. -/
def execBra (h : Hdr) (off : BitVec 32) (join : BitVec 24) (s : State) : Host.Outcome State Fault Refusal :=
  .next (runInstr (.bra h off join) false (fun c s => .jump (branch s c (pcOff c.pc off) (joinOf c.pc join))) s)

/-- BRX (R114). -/
def execBrx (h : Hdr) (a : Tgt) (join : BitVec 32) (s : State) : Host.Outcome State Fault Refusal :=
  .next (runInstr (.brx h a join) false (fun c s => branchReg c a (joinOf c.pc join) id s) s)

/-- CALL (R115). -/
def execCall (h : Hdr) (d : BitVec 8) (off : BitVec 32) (s : State) : Host.Outcome State Fault Refusal :=
  .next (runInstr (.call h d off) false
    (fun c s => .jump (branch (writeReturn c d s) c (pcOff c.pc off) (c.pc + 3))) s)

/-- CALLX (R115). -/
def execCallx (h : Hdr) (d : BitVec 8) (a : Tgt) (s : State) : Host.Outcome State Fault Refusal :=
  .next (runInstr (.callx h d a) false (fun c s => branchReg c a (c.pc + 3) (writeReturn c d) s) s)

/-- RET (R114). -/
def execRet (h : Hdr) (a : Tgt) (s : State) : Host.Outcome State Fault Refusal :=
  .next (runInstr (.ret h a) false (fun c s => branchReg c a 0 id s) s)

/-- TRAP (R119). -/
def execTrap (h : Hdr) (code : BitVec 8) (a : Src) (s : State) : Host.Outcome State Fault Refusal :=
  .next (runInstr (.trap h code a) false
    (fun c s => .fault (.trap code) (BitVec.ofNat 64 (srcScalar s c 0 a)) c.act) s)

/-- MSAVE (R120): em, whatever the guard leaves. -/
def execMsave (h : Hdr) (d : Dst) (s : State) : Host.Outcome State Fault Refusal :=
  .next (runInstr (.msave h d) true (fun c s => .done (setDstScalar s c.gid d c.em.toNat)) s)

/-- Bits [31:0] of the source of MAND, MOR and MREST, or the mask named. -/
def maskSource (s : State) (c : Ctx) (x : MaskSrc) : LaneMask :=
  match x with
  | .src a imm => BitVec.ofNat 32 (srcScalar s c imm.toNat a)
  | .cm m => c.g.mask m.toNat

/-- Sets em of the issuing split, within its members, those of its other parts included (R44, R38, R120). -/
def setEm (s : State) (c : Ctx) (em : LaneMask) : State :=
  setSplit s c.gid c.si (fun q => { q with em := em &&& splitLanes c.sp })

/-- MAND (R120). -/
def execMand (h : Hdr) (x : MaskSrc) (s : State) : Host.Outcome State Fault Refusal :=
  .next (runInstr (.mand h x) true (fun c s => .done (setEm s c (c.em &&& maskSource s c x))) s)

/-- MOR (R120). -/
def execMor (h : Hdr) (x : MaskSrc) (s : State) : Host.Outcome State Fault Refusal :=
  .next (runInstr (.mor h x) true (fun c s => .done (setEm s c (c.em ||| maskSource s c x))) s)

/-- MREST (R120). -/
def execMrest (h : Hdr) (x : MaskSrc) (s : State) : Host.Outcome State Fault Refusal :=
  .next (runInstr (.mrest h x) true (fun c s => .done (setEm s c (maskSource s c x))) s)

end Sys2Proof.Machine
end

