-- ==== Sys2Proof/Machine/Experts.lean ====
section
/-!
DEFINITION. The expert instructions (R271 to R278) and the managers' work: placing, evicting, completing and failing
fetches (R267 to R269).
-/
namespace Sys2Proof.Machine

/-! ### Checks -/

/-- The header that an instruction names passes checks 1 to 3 of R273: its physical address. -/
def headerCheck (s : State) (c : Ctx) (va : Nat) : (Res ⊕ Nat) × State :=
  match translate s (dieOfGroup c.gid) c.launch.pasid Need.both va with
  | (.access, s) => (.inl (.fault .accessFault (BitVec.ofNat 64 va) c.act), s)
  | (.page i st, s) => (.inl (.held (pageFault s c va i (2 + if st then 1 else 0) c.act)), s)
  | (.ok pa _, s) =>
    if va % 64 ≠ 0 then (.inl (.fault .misaligned (BitVec.ofNat 64 va) c.act), s)
    else if !registered s pa then (.inl (.fault .accessFault (BitVec.ofNat 64 va) c.act), s)
    else (.inr pa, s)

/-- OPERAND_BOUNDS of the first number that the directory does not hold (R273). -/
def expertBound (s : State) (c : Ctx) (header : Nat) (es : List (Nat × Nat)) : Option Res :=
  let bad := es.filter (fun x => decide ((readHeader s header).e ≤ x.2))
  bad.head?.map (fun x => .fault .operandBounds (BitVec.ofNat 64 x.2)
    (if x.1 = 32 then c.act else ofLanes (bad.map (·.1))))

/-! ### Requests -/

/-- A request of a group to an entry. `n` is the increment of an XCNT. -/
def expertAcc (gid blk n : Nat) (lanes : LaneMask) (lane : Nat) (kind : AKind) (va pa header inc : Nat) (ord : Ord)
    (tok : Option Nat) : Acc :=
  { id := 0, gid := some gid, lanes := lanes, cmd := none, blk := some blk, core := some (coreOfGroup gid), die := dieOfGroup gid,
    kind := kind, va := va, pa := pa, size := 64, data := inc, data2 := header, lane := lane, ord := ord, scope := 6,
    stage := .buffered, val := 0, carry := [], need := [], tok := tok, cmp := none, depth := 0, n := n, pc := 0, uncached := false,
    task := none, room := none, since := none }

/-- The header's address and the expert number that an instruction other than XCNT names (R271). -/
def expertVa (o : ExpOps) (c : Ctx) : Nat := (c.g.sreg o.a.toNat).toNat
def expertNo (s : State) (o : ExpOps) (c : Ctx) : Nat := srcScalar s c o.imm.toNat o.b % 2 ^ 20

/-- The checks of R273 and R278. -/
def expertChecks (o : ExpOps) (nests spec : Bool) (c : Ctx) (s : State) : Option Res :=
  if (nests ∧ 0 < c.blk.levels.length) ∨ (!spec ∧ anySpec s c.g c.act) then some (.fault .nesting 0 c.act)
  else
    match headerCheck s c (expertVa o c) with
    | (.inl r, _) => some r
    | (.inr header, s) => expertBound s c header [(32, expertNo s o c)]

/-- XFETCH, XPIN, XUNPIN and XSTAT (R271, R273, R278): one request, whose result word and ok bit both groups of a pair
receive; a pair compares `imm`, their IMM field, and their operands. `nests` marks those that raise NESTING inside a level, `spec` those
that speculative lanes may use. -/
def expertBody (kind : AKind) (imm : Nat) (o : ExpOps) (ord : Ord) (nests spec : Bool) (c : Ctx) (s : State) : Res :=
  let items (c : Ctx) : List Item := [(3, 32, imm), (3, 32, expertVa o c), (3, 32, expertNo s o c)]
  let checks := expertChecks o nests spec c s
  mirrorFault s c items (checks.getD (.done s)) <|
    let va := expertVa o c
    let e := expertNo s o c
    let dst : Option RegRef := match o.d with | .s r => some (.s r.toNat) | _ => none
    let refs := refsDst 1 o.d ++ refsMask o.m
    let k : Tok := { gid := c.gid, split := c.si, n := c.g.issued, lanes := c.act, dst := dst, size := 8, sext := false,
                     mask := some o.m.toNat, pc := c.pc, vals := [], oks := [] }
    let act (c : Ctx) (s : State) : Res :=
      match headerCheck s c va with
      | (.inl r, _) => r
      | (.inr header, s) =>
        let tok := (s.toks.find? (fun p => p.2.gid == c.gid && p.2.n == c.g.issued)).map (·.1)
        let a := expertAcc c.gid c.g.blk c.g.issued c.act 32 kind (va + 64 * (e + 1)) (entryPa header e) header 0 ord tok
        .done (issueAcc s a).2
    let before (s : State) : State :=
      let (t, s) := newTok s k refs
      if ord = .acquire then holdSplit s c [t] else s
    match roleOf s c, checks with
    | .shadow, _ | _, none => afterCompare s c 3 (items c) refs before act
    | _, some r => r

/-- XFETCH (R274). -/
def execXfetch (h : Hdr) (pin : Bool) (o : ExpOps) (s : State) : Host.Outcome State Fault Refusal :=
  .next (runInstr (.xfetch h pin o) false (expertBody (.xfetch pin) (immOf (.xfetch h pin o)) o .acquire false false) s)

/-- XPIN (R275). -/
def execXpin (h : Hdr) (o : ExpOps) (s : State) : Host.Outcome State Fault Refusal :=
  .next (runInstr (.xpin h o) false (expertBody .xpin (immOf (.xpin h o)) o .acquire true false) s)

/-- XUNPIN (R275, R270): a release whose request waits for the group's earlier copies. -/
def execXunpin (h : Hdr) (o : ExpOps) (s : State) : Host.Outcome State Fault Refusal :=
  .next (runInstr (.xunpin h o) false (expertBody .xunpin (immOf (.xunpin h o)) o .release true false) s)

/-- XSTAT (R276). -/
def execXstat (h : Hdr) (sel : BitVec 3) (o : ExpOps) (s : State) : Host.Outcome State Fault Refusal :=
  .next (runInstr (.xstat h sel o) false (expertBody (.xstat sel.toNat) (immOf (.xstat h sel o)) o .relaxed false true) s)

/-- Sends increments: lane (32 for all acting lanes), entry's virtual address, entry, increment. -/
def sendCounts (s : State) (gid blk n : Nat) (act : LaneMask) (header : Nat) (incs : List (Nat × Nat × Nat × Nat)) : State :=
  forAll incs s (fun x s =>
    (issueAcc s (expertAcc gid blk n (if x.1 = 32 then act else laneBit x.1) x.1 .xcnt x.2.1 x.2.2.1 header x.2.2.2 .relaxed none)).2)

/-- An XCNT names a vector register (R271). -/
def countsLanes (b c : Src) : Bool :=
  (match b with | .v _ => true | _ => false) || (match c with | .v _ => true | _ => false)

/-- What an XCNT sends: lane (32 on the scalar side, log 80), expert number, increment (R277). -/
def countUnits (s : State) (b c : Src) (immB immC : BitVec 20) (x : Ctx) : List (Nat × Nat × Nat) :=
  let vec := countsLanes b c
  let val (o : Src) (imm l : Nat) : Nat := if vec then srcLane s x 1 imm o l else srcScalar s x imm o
  (if vec then lanesOf x.act else [32]).map (fun l => (l, val b immB.toNat l % 2 ^ 20, val c immC.toNat l % 2 ^ 32))

/-- The checks of R273 and R278 for XCNT. -/
def countChecks (va : Nat) (us : List (Nat × Nat × Nat)) (x : Ctx) (s : State) : Option Res :=
  if anySpec s x.g x.act then some (.fault .nesting 0 x.act)
  else
    match headerCheck s x va with
    | (.inl r, _) => some r
    | (.inr header, s) => expertBound s x header (us.map (fun u => (u.1, u.2.1)))

/-- XCNT (R277): inside a level it takes effect at the accept (R278, R327). -/
def execXcnt (h : Hdr) (a : BitVec 6) (b c : Src) (immB immC : BitVec 20) (s : State) : Host.Outcome State Fault Refusal :=
  .next (runInstr (.xcnt h a b c immB immC) false (fun x s =>
    let va (x : Ctx) : Nat := (x.g.sreg a.toNat).toNat
    let us (x : Ctx) := countUnits s b c immB immC x
    let items (x : Ctx) : List Item :=
      [(3, 32, immOf (.xcnt h a b c immB immC)), (3, 32, va x)] ++ (us x).flatMap (fun u => [(3, u.1, u.2.1), (3, u.1, u.2.2)])
    let checks := countChecks (va x) (us x) x s
    let us := us x
    let va := va x
    mirrorFault s x items (checks.getD (.done s)) <|
      let act (x : Ctx) (s : State) : Res :=
        match headerCheck s x va with
        | (.inl r, _) => r
        | (.inr header, s) =>
          let incs := us.map (fun u => (u.1, va + 64 * (u.2.1 + 1), entryPa header u.2.1, u.2.2))
          if 0 < x.blk.levels.length then
            match deferAction s x.g.blk (.xcnt x.gid header incs) with
            | some s => .done s
            | none => shoreFullAction x.act
          else .done (sendCounts s x.gid x.g.blk x.g.issued x.act header incs)
      match roleOf s x, checks with
      | .shadow, _ | _, none => afterCompare s x 3 (items x) [] id act
      | _, some r => r) s)

/-! ### Events -/

/-- XCNT_APPLY (R266, R270): one request at its entry, or several that routers have merged, with the saturating sum of
their increments. -/
def execXcntApply (accs : List Nat) (s : State) : Host.Outcome State Fault Refusal :=
  .next (
    let all := accs.filterMap s.acc?
    match all with
    | [] => s
    | a :: _ =>
      let same (b : Acc) : Bool := b.kind == .xcnt && b.pa == a.pa
      if all.length ≠ accs.length ∨ accs.eraseDups ≠ accs ∨ !all.all same then s
      else if !all.all (readyAt s accs) then
        if all.all (fun b => b.stage == .arrived || b.stage == .queued) then sendProbes s a.pa a.size else s
      else
        let carried := carryOf s a.pa a.size
        let n := min (2 ^ 64 - 1) (all.foldl (fun n b => n + b.data) 0)
        let s := countEntry s a.data2 a.pa n (carried ++ all.flatMap (·.carry)).eraseDups
        all.foldl (fun s b => returnRequest s b 0 true carried) s)

/-- Drops a fetch that has been placed, its blocks freed. -/
def endFetch (s : State) (die idx : Nat) : State :=
  s.setDie die (fun d => { d with fetching := d.fetching.eraseIdx idx })

/-- The manager may update a field of a directory: no claim, lock, sleep or lease holds it back (R321, R369). -/
def fieldFree (s : State) (die pa : Nat) : Bool :=
  let a := agentAcc die none none none .store pa pa 64 0 []
  leasesPassed s pa 64 && !heldAtHome s a && !lockedAgainst s a

def entryFree (s : State) (die header e : Nat) : Bool := fieldFree s die header && fieldFree s die (entryPa header e)

/-- Probes for the lines of an entry and its header. -/
def probeEntry (s : State) (header e : Nat) : State := sendProbes (sendProbes s header 64) (entryPa header e) 64

/-- The eviction of an expert (R267, R269). -/
def evict (s : State) (header e : Nat) : State :=
  let n := readEntry s (entryPa header e)
  if n.state = 0 ∧ n.pins = 0 then
    let s := putField s (entryPa header e) 1 2 []
    let s := putField s (header + 48) 8 ((readHeader s header).evictions + 1) []
    subResident s header (65536 * blocksFor n.size)
  else s

/-- Places the head fetch at a run of blocks; its copy starts (R267). -/
def placeFetch (s : State) (die : Nat) (f : Fetch) (run : Nat) : State :=
  let n := readEntry s (entryPa f.header f.e)
  let s := putField s (entryPa f.header f.e + 8) 8 (run * 65536) []
  let s := addResident s f.header (65536 * blocksFor n.size)
  s.setDie die (fun d => { d with fetchQ := d.fetchQ.drop 1, fetching := d.fetching ++ [f] })

/-- What a manager may do to some expert of a directory whose program has broken its duty (R265): nothing, fetch it, evict it, or fail
it with a cause of R268, by a free value. -/
def strayExpert (s : State) (die header x : Nat) : State :=
  let hd := readHeader s header
  let e := x / 4 % max 1 hd.e
  let pa := entryPa header e
  let n := readEntry s pa
  let its (f : Fetch) : Bool := f.header == header && f.e == e
  let copying := (s.die die).fetching.any its
  let busy := copying || (s.die die).fetchQ.any its
  let vacate (s : State) : State := if n.state = 0 ∨ copying then subResident s header (65536 * blocksFor n.size) else s
  if x % 4 = 0 then s
  else if !entryFree s die header e then probeEntry s header e
  else
    match x % 4 with
    | 1 =>
      if busy ∨ 256 ≤ (s.die die).fetchQ.length then s
      else
        let s := vacate (putField (putField s pa 1 1 []) (header + 40) 8 (hd.fetches + 1) [])
        s.setDie die (fun d => { d with fetchQ := d.fetchQ ++ [⟨header, e, 0, []⟩] })
    | 2 =>
      if busy ∨ n.state ≠ 0 then s
      else vacate (putField (putField s pa 1 2 []) (header + 48) 8 (hd.evictions + 1) [])
    | _ =>
      let code : Nat := [Cause.accessFault.code.toNat, Cause.eccUncorr.code.toNat].getD (x / 2 ^ 24 % 3) 0x41
      let s := vacate (putField s pa 2 (4 + 256 * code) [])
      let s := s.setDie die (fun d => { d with fetchQ := d.fetchQ.filter (fun f => !its f), fetching := d.fetching.filter (fun f => !its f) })
      logEvent s die 0x0008 3 0xFF (BitVec.ofNat 64 header) (BitVec.ofNat 64 (e + code * 2 ^ 32))

/-- A manager may turn to any of its directories whose programs have broken their duty, which one is a free value (R265). -/
def strayTurn (s : State) (die : Nat) : State :=
  match (s.die die).dirs.filter (·.broken) with
  | [] => s
  | k :: ks =>
    let (d, s) := s.free
    let (x, s) := s.free
    strayExpert s die ((k :: ks).getD (d % (ks.length + 1)) k).header x

/-- FETCH_QUEUE_SERVE (R267): the head is placed, or one expert is evicted where evicting all that may be evicted would
make room. -/
def execFetchQueueServe (die : Nat) (s : State) : Host.Outcome State Fault Refusal :=
  .next (
    let s := strayTurn s die
    match (s.die die).fetchQ with
    | [] => s
    | f :: _ =>
      if 4 ≤ die ∨ !(s.die die).awake ∨ 2 ≤ (s.die die).fetching.length then s
      else if !entryFree s die f.header f.e then probeEntry s f.header f.e
      else
        let hd := readHeader s f.header
        let total := hd.poolsize / 65536
        let size := blocksFor (readEntry s (entryPa f.header f.e)).size
        let used := occupied s die f.header
        match freeRun total size used with
        | some r => placeFetch s die f r
        | none =>
          let out := evictable s f.header
          if (freeRun total size (used.filter (fun u => !out.contains u.1))).isNone then s
          else
            match leastBy (fun e => decayed hd.h (dirTime s f.header) (readEntry s (entryPa f.header e))) out with
            | none => s
            | some e =>
              if !entryFree s die f.header e then probeEntry s f.header e
              else
                let s := evict s f.header e
                match freeRun total size (occupied s die f.header) with
                | some r => placeFetch s die f r
                | none => s)

/-- The length of a fetch's next segment (R268). -/
def segmentLen (f : Fetch) (n : DirEntry) : Nat := min 4096 (n.size - f.pos)

/-- Why the next segment of a fetch of local backing fails (R268): a range outside R151 or in the windows, or a poisoned line. -/
def backingFault (s : State) (f : Fetch) (n : DirEntry) : Option Cause :=
  let a := n.backing + f.pos
  let len := segmentLen f n
  let bad (pa : Nat) : Bool := placeOf pa == .none || isWindow pa
  if n.kind ≠ 0 ∨ len = 0 then none
  else if bad a || bad (a + len - 1) then some Cause.accessFault
  else if (linesOf a len).any (fun l => (s.line l).poison) then some Cause.eccUncorr
  else none

/-- The pieces of a segment: offsets in the expert, at most 128 bytes each. -/
def segmentPieces (f : Fetch) (n : DirEntry) : List (Nat × Nat) :=
  (List.range ((segmentLen f n + 127) / 128)).map (fun i => (f.pos + 128 * i, min 128 (segmentLen f n - 128 * i)))

/-- The manager's read of a piece of local backing, as an agent of its die (R214). -/
def backingLoad (s : State) (die : Nat) (n : DirEntry) (x : Nat × Nat) : Acc :=
  { agentAcc die none none none .load (n.backing + x.1) (n.backing + x.1) x.2 0 [] with id := s.nextId }

/-- Copies a piece: this module's memory, or a peer's, of which the module knows nothing. Its write leaves for the pool. -/
def copyPiece (die : Nat) (n : DirEntry) (dst : Nat) (s : State) (x : Nat × Nat) : List Nat × State :=
  let a := backingLoad s die n x
  let (v, s) :=
    if n.kind = 0 then (loadNat s a, mayCorrect (bridgeRead (afterLoad s a) die a.pa x.2 false) a.pa)
    else (ofLe ((List.range x.2).map (fun i => BitVec.ofNat 8 (Config.freeNat (s.freeCtr + i)))), { s with freeCtr := s.freeCtr + x.2 })
  let (i, s) := depart s { agentAcc die none none none .store (dst + x.1) (dst + x.1) x.2 v [] with data2 := 1 }
  ([i], s)

/-- The next segment of a fetch, in increasing address. -/
def copySegment (s : State) (die idx : Nat) (f : Fetch) (n : DirEntry) (dst : Nat) : State :=
  let (ws, s) := (segmentPieces f n).foldl (fun (t : List Nat × State) x =>
    let (i, s) := copyPiece die n dst t.2 x
    (t.1 ++ i, s)) ([], s)
  s.setDie die (fun d => { d with fetching := d.fetching.modify idx (fun f =>
    { f with pos := f.pos + segmentLen f n, writes := f.writes ++ ws }) })

/-- A fetch's writes have been applied. -/
def Fetch.landed (s : State) (f : Fetch) : Bool := f.writes.all (fun i => (s.acc? i).isNone)

/-- EXPERT_FETCH_COMPLETE (R268): a fetch's next segment of 4 KiB, or, once every byte is applied, its end: the entry is RESIDENT. -/
def execExpertFetchComplete (die idx : Nat) (s : State) : Host.Outcome State Fault Refusal :=
  .next (
    match (s.die die).fetching[idx]? with
    | none => s
    | some f =>
      let n := readEntry s (entryPa f.header f.e)
      if !(s.die die).awake ∨ (backingFault s f n).isSome then s
      else if f.pos < n.size then
        let ready (x : Nat × Nat) : Bool :=
          let a := backingLoad s die n x
          n.kind != 0 || (sourcesKnown s a && !heldAtHome s a)
        if (segmentPieces f n).all ready then copySegment s die idx f n ((readHeader s f.header).poolpa + n.pooloff) else s
      else if !f.landed s then s
      else if !entryFree s die f.header f.e then probeEntry s f.header f.e
      else endFetch (putField s (entryPa f.header f.e) 1 0 []) die idx)

/-- EXPERT_FETCH_FAIL (R268, R299): the entry is FAILED with its cause, and the blocks are free. -/
def execExpertFetchFail (die idx : Nat) (peerLost : Bool) (s : State) : Host.Outcome State Fault Refusal :=
  .next (
    match (s.die die).fetching[idx]? with
    | none => s
    | some f =>
      let n := readEntry s (entryPa f.header f.e)
      let code : Option Nat :=
        if n.kind ≠ 0 then (if peerLost ∧ f.pos < n.size then some 0x41 else none) else (backingFault s f n).map (·.code.toNat)
      match code with
      | none => s
      | some k =>
        if !f.landed s then s
        else if !entryFree s die f.header f.e then probeEntry s f.header f.e
        else
          let s := putField s (entryPa f.header f.e) 2 (4 + 256 * k) []
          let s := subResident s f.header (65536 * blocksFor n.size)
          logEvent (endFetch s die idx) die 0x0008 3 0xFF (BitVec.ofNat 64 f.header) (BitVec.ofNat 64 (f.e + k * 2 ^ 32)))

end Sys2Proof.Machine
end

