-- ==== Sys2Proof/Machine/Gathering.lean ====
section
/-!
DEFINITION. Gathering instructions (R307), and what a gathering does once every live lane has arrived: opening a level
(R308, R309), accepting one (R311, R320), and joining or leaving a conversation (R324 to R326).
-/
namespace Sys2Proof.Machine

/-! ### Conversation words (R324) -/

structure ConvWord where
  state : Nat
  expected : Nat
  joined : Nat
  accepted : Nat
  round : Nat
  epoch : Nat
  deriving DecidableEq, Repr

def ConvWord.ofNat (x : Nat) : ConvWord :=
  { state := bitField x 62 2, expected := bitField x 52 4, joined := bitField x 48 4, accepted := bitField x 44 4,
    round := bitField x 32 8, epoch := bitField x 0 32 }

/-- The word with its fields in place of those of `x`, whose zero fields stay as they are. -/
def ConvWord.toNat (w : ConvWord) (x : Nat) : Nat :=
  w.state * 2 ^ 62 + bitField x 56 6 * 2 ^ 56 + w.expected * 2 ^ 52 + w.joined * 2 ^ 48 + w.accepted * 2 ^ 44
    + bitField x 40 4 * 2 ^ 40 + w.round * 2 ^ 32 + w.epoch

def readConv (s : State) (word : Nat) : ConvWord := ConvWord.ofNat (readNat s word 8)

/-- One read-modify-write of a conversation word. -/
def updateConv (s : State) (word : Nat) (f : ConvWord → ConvWord) : State :=
  let x := readNat s word 8
  putApplied s none word (leBytes 8 ((f (ConvWord.ofNat x)).toNat x)) (carryOf s word 8) true

def setConv (s : State) (word : Nat) (f : Conv → Conv) : State :=
  { s with convs := s.convs.map (fun c => if c.word = word then f c else c) }

/-- A member has restored its level; once every one has, the conversation is active again (R326). -/
def convRestored (s : State) (word blk : Nat) : State :=
  let s := setConv s word (fun c => { c with rolling := c.rolling.filter (· != blk) })
  if (readConv s word).state = 3 ∧ s.convs.any (fun c => c.word == word && c.rolling.isEmpty) then
    updateConv s word (fun w => { w with state := 2 })
  else s

/-- A conversation word may be written for a block: neither a claim of another side nor a lock, a lease or a sleeping home holds it (R321,
R323, R161, R369). -/
def convReady (s : State) (blk word : Nat) : Bool :=
  let a := agentAcc (((s.blocks.get? blk).map (fun b => dieOfCore b.core)).getD 0) none (some blk) none .store word word 8 0 []
  leasesPassed s word 8 && !heldAtHome s a && !lockedAgainst s a

/-- Once every member of a conversation has accepted, its word returns to 0 (R326). -/
def closeConv (s : State) (word : Nat) : State :=
  match s.convs.find? (fun c => c.word == word) with
  | none => s
  | some c =>
    if c.closing ≠ some [] then s
    else
      updateConv { s with convs := s.convs.filter (fun c => c.word != word) } word
        (fun x => { x with state := 0, joined := 0, accepted := 0, epoch := (x.epoch + 1) % 2 ^ 32 })

/-- A member has accepted, or is gone: it keeps the word no longer. -/
def memberDone (s : State) (word blk : Nat) : State :=
  closeConv (setConv s word (fun c => { c with closing := c.closing.map (fun l => l.filter (· != blk)) })) word

/-- A block leaves a conversation (R325, R326). One that nobody is left in is idle again. -/
def leaveConv (s : State) (word blk : Nat) : State :=
  if s.convs.any (fun c => c.word == word && c.closing.isSome) then memberDone s word blk else
  let was := s.convs.any (fun c => c.word == word && c.accepted.contains blk)
  let out (c : Conv) : Conv := { c with members := c.members.filter (· != blk), accepted := c.accepted.filter (· != blk) }
  let s := setConv s word out
  let s := updateConv s word (fun w => { w with joined := w.joined - 1, accepted := if was then w.accepted - 1 else w.accepted })
  if s.convs.any (fun c => c.word == word && c.members.isEmpty) then
    updateConv { s with convs := s.convs.filter (fun c => c.word != word) } word
      (fun w => { w with state := 0, joined := 0, accepted := 0 })
  else convRestored s word blk

/-! ### Groups in a gathering -/

def arrivedAt (g : Group) : Bool := g.splits.any (fun p => p.2.waiting .gather != 0)

/-- Every lane of a group waits in the gathering. -/
def allArrived (g : Group) : Bool := g.splits.all (fun p => p.2.waiting .gather == splitLanes p.2)

/-- The groups that take part in a gathering: those with lanes of the block's threads (R191), and a task group that has
arrived. -/
def gatherers (s : State) (blk : Nat) : List (Nat × Group) :=
  (groupsOf s blk).filter (fun p => !p.2.splits.isEmpty && (!p.2.taskGroup || arrivedAt p.2))

/-- Every live lane has arrived (R307). -/
def gathered (s : State) (blk : Nat) (b : Block) : Bool :=
  let gs := gatherers s blk
  b.gather.isSome && b.conts.isEmpty && b.formed.isEmpty && gs.any (fun p => arrivedAt p.2) && gs.all (fun p => allArrived p.2)

/-- A group becomes one split at a PC, the lowest of its splits. -/
def oneSplit (g : Group) (pc : CodeAddr) : Group :=
  match g.splits with
  | [] => g
  | (i, sp) :: rest =>
    let em := groupLanes g
    let last := rest.foldl (fun n p => max n p.2.stallUntil) sp.stallUntil
    { g with splits := [(i, { sp with pc := pc, em := em, members := em, stallUntil := last, park := none, tag := [], stack := [],
                                      parts := [], hold := (sp :: rest.map (·.2)).flatMap (·.hold), woke := none })] }

/-- The gathering ends: each group is one split at a PC, and every lane has observed what any of them has (R307, R213). -/
def endGather (s : State) (blk : Nat) (pc : CodeAddr) : State :=
  let gs := gatherers s blk
  let seen := (gs.flatMap (fun p => observed s p.1 (groupLanes p.2))).eraseDups
  let s := forAll gs s (fun p s => (observeLanes s p.1 (groupLanes p.2) seen).setGroup p.1 (fun g => oneSplit g pc))
  s.setBlock blk (fun b => { b with gather := none })

/-! ### Opening a level -/

/-- The recovery record of a group (R309). -/
def recordOf (gid : Nat) (spill : Bool) (g : Group) : RecoveryRecord :=
  { gid := gid, spill := spill, em := groupLanes g, s := g.s, cm := g.cm, fflags := g.fflags, frm := g.frm, sbchk := g.sbchk,
    backoff := g.backoff, tvec := g.tvec, xv := g.xv, gen := g.gen }

/-- Records every group, as far as there is room. -/
def recordGroups (s : State) (blk : Nat) : List (Nat × Group) → Option State
  | [] => some s
  | p :: t =>
    match shoreRoom s blk 768 with
    | none => none
    | some sp => recordGroups ((spillOut s blk 768 sp).setBlock blk (fun b => b.setTop (fun l => { l with records := l.records ++ [recordOf p.1 sp p.2] }))) blk t

/-- A fresh level of R308. -/
def newLevel (pc : CodeAddr) (n limit : Nat) (conv : Option Nat) (first : Nat) (test : CodeAddr) : Level :=
  { pc := pc, test := test, marker := pcPlus pc first, n := n, k := 1, limit := limit, clock := 0, conv := conv,
    joining := conv.isSome, accepting := false, coupled := false, records := [], regs := [], words := [], credits := [], bars := [],
    lines := [], reserved := (0, 0), actions := [], actionSpill := 0, locks := [] }

/-- ENSURE's gathering is complete (R308). Without room for a record every group meets SHORE_FULL at the ENSURE. -/
def openLevel (s : State) (blk : Nat) (pc : CodeAddr) (n limit : Nat) (conv : Option Nat) (first : Nat) (test : CodeAddr) : State :=
  let s := endGather s blk pc
  let gs := (groupsOf s blk).filter (fun p => !p.2.splits.isEmpty && (!p.2.taskGroup || p.2.splits.all (fun q => q.2.pc == pc)))
  let t := s.setBlock blk (fun b => { b with levels := b.levels ++ [newLevel pc n limit conv first test] })
  match recordGroups t blk gs with
  | some t => forAll gs t (fun p t => t.setGroup p.1 (fun g => oneSplit g (pc + 3)))
  | none =>
    forAll gs s (fun p s =>
      if isShadow s p.1 p.2 then s
      else
        match p.2.splits with
        | (i, sp) :: _ => takeFaultAt s p.1 i false .shoreFull (BitVec.ofNat 64 (3 * 2 ^ 62)) sp.em
        | [] => s)

/-! ### Accepting -/

/-- Entries of `up`, and those of `l` at keys that `up` does not list. -/
def mergeEntries {α : Type} (up l : Map α) : Map α := l.foldl (fun m p => if (m.get? p.1).isSome then m else m.put p.1 p.2) up

/-- Level d becomes part of level d − 1 (R320): an entry that both have, a barrier's mode with it, is the outer one's. -/
def Level.merge (up l : Level) : Level :=
  { up with regs := mergeEntries up.regs l.regs, words := mergeEntries up.words l.words, credits := mergeEntries up.credits l.credits,
            bars := mergeEntries up.bars l.bars, lines := mergeEntries up.lines l.lines,
            reserved := (up.reserved.1 + l.reserved.1, up.reserved.2 + l.reserved.2),
            actions := up.actions ++ l.actions, actionSpill := up.actionSpill + l.actionSpill, locks := up.locks ++ l.locks }

/-- An inner level accepts (R320): its claims, and the accesses and commands issued in it, are those of level d − 1. -/
def acceptInner (s : State) (blk : Nat) : State :=
  match s.blocks.get? blk with
  | none => s
  | some b =>
    let d := b.levels.length
    match b.levels.reverse with
    | l :: up :: rest =>
      let s := s.setBlock blk (fun b => { b with levels := (up.merge l :: rest).reverse })
      { s with claims := s.claims.map (fun c => if c.blk = blk ∧ c.level = d then { c with level := d - 1 } else c),
               accs := s.accs.map (fun a => if a.blk = some blk ∧ a.depth = d then { a with depth := d - 1 } else a),
               cmds := s.cmds.map (fun p => if p.2.blk = blk ∧ p.2.depth = d then (p.1, { p.2 with depth := d - 1 }) else p) }
    | _ => s

/-- A level that no conversation holds back accepts: an inner one at once, the outermost by ACCEPT_COMMIT (R311). -/
def acceptLevel (s : State) (blk : Nat) : State :=
  match s.blocks.get? blk with
  | none => s
  | some b =>
    if 1 < b.levels.length then acceptInner s blk
    else s.setBlock blk (fun b => b.setTop (fun l => { l with accepting := true, conv := none }))

/-- ACCEPT's gathering is complete (R311): a conversation's member waits for the others (R326). -/
def acceptGathered (s : State) (blk : Nat) : State :=
  match (s.blocks.get? blk).bind Block.top with
  | none => s
  | some l =>
    match l.conv with
    | none => acceptLevel s blk
    | some w =>
      let s := s.setBlock blk (fun b => b.setTop (fun l => { l with accepting := true }))
      let s := setConv s w (fun c => { c with accepted := (c.accepted ++ [blk]).eraseDups })
      updateConv s w (fun x => { x with accepted := x.accepted + 1 })

/-- CONVX's gathering is complete (R325). -/
def leaveGathered (s : State) (blk word : Nat) (pc : CodeAddr) : State :=
  match s.blocks.get? blk with
  | none => s
  | some b =>
    if b.levels.any (fun l => l.conv == some word && l.coupled) then
      failLevel s blk b.levels.length false Cause.nesting.code 0 pc 0
    else
      let s := s.setBlock blk (fun b => { b with levels := b.levels.map (fun l => if l.conv = some word then { l with conv := none } else l) })
      leaveConv s word blk

/-! ### Completion -/

/-- The conversation word that the end of a gathering writes, if it writes one. -/
def gatherWord (b : Block) : GatherKind → Option Nat
  | .accept => b.top.bind (·.conv)
  | .convx w => some w
  | _ => none

/-- Completes the gathering of a block once every live lane has arrived (R307), and its conversation word may be written. -/
def settleGather (s : State) (blk : Nat) : State :=
  match s.blocks.get? blk with
  | none => s
  | some b =>
    match b.gather with
    | none => s
    | some g =>
      if !gathered s blk b then s
      else if !(gatherWord b g.kind).elim true (convReady s blk) then (gatherWord b g.kind).elim s (fun w => sendProbes s w 8)
      else
        match g.kind with
        | .ensure n limit conv first test => openLevel s blk g.pc n limit conv first test
        | .accept => acceptGathered (endGather s blk (g.pc + 3)) blk
        | .conv word =>
          (endGather s blk (g.pc + 3)).setBlock blk (fun b => b.setTop (fun l => { l with conv := some word, joining := true }))
        | .convx word => leaveGathered (endGather s blk (g.pc + 3)) blk word g.pc

/-- A split arrives at a gathering instruction (R307): it waits for the results and writes of its lanes, then parks; the
first arrival fixes the PC and the operands. -/
def gatherBody (kind : GatherKind) (c : Ctx) (s : State) : Res :=
  let other : Bool := match (s.blocks.get? c.g.blk).bind (·.gather) with
    | some g => g.pc != c.pc
    | none => false
  if c.em ≠ splitLanes c.sp ∨ other then .fault .nesting 0 c.em
  else if c.g.pend.any (fun p => (p.lanes &&& c.em) != 0) ∨ !released s c.gid c.em 2 then .wait
  else
    let s := s.setBlock c.g.blk (fun b => { b with gather := some (b.gather.getD ⟨c.pc, kind⟩) })
    .jump (settleGather (parkHere s c .gather) c.g.blk)

end Sys2Proof.Machine
end

