-- ==== Sys2Proof/Machine/Locks.lean ====
section
/-!
DEFINITION. Line locks (R361 to R375): LOCK, LOCKT and UNLOCK, the peg tables of the home slices, grants and hand-overs,
timeouts, reservations and the knee-brace scan.
-/
namespace Sys2Proof.Machine

/-! ### Pegs -/

/-- The state of a peg that counts as holding its line. -/
def Peg.holds (p : Peg) : Bool := p.state == .holding || p.state == .absent

/-- Locks that a group holds (R363). -/
def heldCount (s : State) (gid : Nat) : Nat := (s.pegs.filter (fun p => p.gid == gid && p.holds)).length

def holdsLine (s : State) (gid line : Nat) : Bool := s.pegs.any (fun p => p.gid == gid && p.line == line && p.holds)

/-- The group holds the line or waits for it. -/
def hasPeg (s : State) (gid line : Nat) : Bool := s.pegs.any (fun p => p.gid == gid && p.line == line)

/-- The lines that count against the limit of R361: those held, waited for and asked for, by LOCKT too (log 148). -/
def lockLines (s : State) (gid : Nat) : List Nat :=
  ((s.pegs.filter (fun p => p.gid == gid)).map (·.line) ++ (s.lockReqs.filter (fun p => p.2.gid == gid)).map (·.2.line)).eraseDups

/-- The home slice of a line of device memory: die and number (R152). -/
def lockHome (line : Nat) : Nat × Nat :=
  match placeOf (line * 128) with
  | .hbm d | .lpddr d => (d, sliceOf (line * 128))
  | _ => (0, 0)

/-- Fabric time at a line's home slice. -/
def lockTime (s : State) (line : Nat) : Nat := (s.die (lockHome line).1).time

/-! ### Statuses -/

def stOk : Nat := 0
def stBusy : Nat := 1
def stTimeout : Nat := 2
def stSkipped : Nat := 3
def stBroken : Nat := 4
def stDeadlock : Nat := 5
def stNotHeld : Nat := 6
def stHeld : Nat := 7

/-- The status word of R363. -/
def statusWord (held st : Nat) : Nat := held * 256 + st

/-- D and the mask that a lock instruction writes. -/
def statusWrites (dst : Option RegRef) (mask : Nat) (lanes : LaneMask) (held st : Nat) : Writes :=
  (match dst with | some r => [(r, [(0, statusWord held st)])] | none => [])
    ++ [(RegRef.cm mask, (lanesOf lanes).map (fun l => (l, if st = stOk then 1 else 0)))]

/-- Both groups of a pair. -/
def pairOf (s : State) (gid : Nat) : List Nat := if checkedGroup s gid && decide (slotOf gid < 32) then [gid, gid + 32] else [gid]

/-- A lock request ends with a status: it is delivered and its split goes on (R366, R375). A lock taken in a level is
noted there (R328). -/
def endLock (s : State) (req st : Nat) : State :=
  match s.lockReqs.get? req with
  | none => s
  | some r =>
    let s := { s with lockReqs := s.lockReqs.del req }
    let s := deliver s r.gid r.n req (statusWrites r.dst r.mask r.lanes (heldCount s r.gid) st)
    let s := forAll (pairOf s r.gid) s (fun g s =>
      (wakeGroup s g (.lock req) (if r.atLock then 3 else 0)).setGroup g (fun k => k.clearPend req))
    if st = stOk ∨ st = stBroken then
      match (s.groups.get? r.gid).map (·.blk) with
      | some b => s.setBlock b (fun b => b.setTop (fun l => { l with locks := l.locks ++ [(r.gid, r.line)] }))
      | none => s
    else s

/-! ### The instructions -/

/-- Checks 1 and 2 of R365: the physical address of the line. -/
def lineCheck (s : State) (c : Ctx) (va : Nat) : (Res ⊕ Nat) × State :=
  if va % 128 ≠ 0 then (.inl (.fault .misaligned (BitVec.ofNat 64 va) c.act), s)
  else
    match translate s (dieOfGroup c.gid) c.launch.pasid Need.both va with
    | (.access, s) => (.inl (.fault .accessFault (BitVec.ofNat 64 va) c.act), s)
    | (.page i st, s) => (.inl (.held (pageFault s c va i (2 + if st then 1 else 0) c.act)), s)
    | (.ok pa _, s) =>
      if isDevice pa && !hostBias s pa then (.inr pa, s) else (.inl (.fault .accessFault (BitVec.ofNat 64 va) c.act), s)

/-- Where a status word goes. -/
def lockDst (d : Dst) : Option RegRef :=
  match d with
  | .s r => some (.s r.toNat)
  | _ => none

/-- The pending result of a request: its name is the request's. -/
def newReq (s : State) (r : LockReq) (refs : List RegRef) : Nat × State :=
  let (id, s) := s.fresh
  (id, addPend { s with lockReqs := s.lockReqs.put id r } r.gid id refs r.lanes)

/-- The line address of a lock instruction. -/
def lockVa (a : BitVec 6) (c : Ctx) : Nat := (c.g.sreg a.toNat).toNat

/-- The checks of R365 and R361 for LOCK and LOCKT, with the line where they pass. -/
def lockChecks (a : BitVec 6) (c : Ctx) (s : State) : Res ⊕ Nat :=
  if specLanes s c ≠ 0 then .inl (.fault .nesting 0 (specLanes s c))
  else
    match (lineCheck s c (lockVa a c)).1 with
    | .inl r => .inl r
    | .inr pa =>
      let ls := lockLines s c.gid
      if 4 ≤ ls.length ∧ !ls.contains (pa / 128) then .inl (.fault .lockLimit (BitVec.ofNat 64 (lockVa a c)) c.act) else .inr (pa / 128)

/-- What the checks answer by themselves. -/
def checkRes (s : State) : Res ⊕ Nat → Res
  | .inl r => r
  | .inr _ => .done s

/-- LOCK and LOCKT (R365, R366, R375): the request leaves for the line's home slice. In a pair the primary's result is
awaited from its own issue, and the request leaves once the shadow has presented the same; `imm` is the IMM field. -/
def lockBody (test : Bool) (imm : Nat) (m : BitVec 3) (d : Dst) (a : BitVec 6) (b : Src) (n : BitVec 20) (c : Ctx) (s : State) : Res :=
  let b64 (c : Ctx) : Nat := if test then 0 else srcScalar s c n.toNat b
  let items (c : Ctx) : List Item := [(1, 32, lockVa a c), (2, 32, b64 c), (2, 32, imm)]
  let checks := lockChecks a c s
  mirrorFault s c items (checkRes s checks) <|
    let refs := refsDst 1 d ++ refsMask m
    let before (line : Nat) (s : State) : State :=
      let r : LockReq := { gid := c.gid, split := c.sp.uid, n := c.g.issued, line := line, timeout := b64 c % 2 ^ 32, test := test,
                           dst := lockDst d, mask := m.toNat, lanes := c.act, pc := c.pc, atLock := false,
                           refusedAt := none, late := none }
      let (id, s) := newReq s r refs
      holdSplit s c [id]
    let act (c : Ctx) (s : State) : Res :=
      match s.lockReqs.find? (fun p => p.2.gid == c.gid && p.2.n == c.g.issued) with
      | none => .done s
      | some (id, r) =>
        if hasPeg s c.gid r.line then .done (endLock s id stHeld)
        else
          let home := lockHome r.line
          if mayYetSend s (coreOfGroup c.gid) (.slice home.1 home.2) 1 then
            .done (sendEntry s (coreOfGroup c.gid) c.gid (.slice home.1 home.2) (.lock id))
          else .wait
    match roleOf s c, checks with
    | .shadow, _ => afterCompare s c 1 (items c) refs id act
    | _, .inl r => r
    | _, .inr line => afterCompare s c 1 (items c) refs (before line) act

/-- LOCK (R366). -/
def execLock (h : Hdr) (m : BitVec 3) (d : Dst) (a : BitVec 6) (b : Src) (imm : BitVec 20) (s : State) :
    Host.Outcome State Fault Refusal :=
  .next (runInstr (.lock h m d a b imm) false (lockBody false (immOf (.lock h m d a b imm)) m d a b imm) s)

/-- LOCKT (R366). -/
def execLockt (h : Hdr) (m : BitVec 3) (d : Dst) (a : BitVec 6) (s : State) : Host.Outcome State Fault Refusal :=
  .next (runInstr (.lockt h m d a) false (lockBody true (immOf (.lockt h m d a)) m d a .sz 0) s)

/-- The release of an UNLOCK (R208, R368). -/
def unlockAcc (gid blk n : Nat) (lanes : LaneMask) (line va : Nat) (tok : Option Nat) : Acc :=
  { id := 0, gid := some gid, lanes := lanes, cmd := none, blk := some blk, core := some (coreOfGroup gid), die := dieOfGroup gid,
    kind := .unlock, va := va, pa := line * 128, size := 128, data := 0, data2 := 0, lane := 32, ord := .release, scope := 6,
    stage := .buffered, val := 0, carry := [], need := [], tok := tok, cmp := none, depth := 0, n := n, pc := 0, uncached := false,
    task := none, room := none, since := none }

/-- A deferred UNLOCK of the line stands (R368). -/
def unlockDeferred (b : Block) (gid line : Nat) : Bool := b.levels.any (fun l => l.actions.contains (.unlock gid line))

/-- The checks of R365 for UNLOCK. -/
def unlockChecks (a : BitVec 6) (c : Ctx) (s : State) : Res ⊕ Nat :=
  if specLanes s c ≠ 0 then .inl (.fault .nesting 0 (specLanes s c)) else (lineCheck s c (lockVa a c)).1

/-- UNLOCK (R368, R375); inside a level it is deferred (R327) and its status written at issue. -/
def execUnlock (h : Hdr) (m : BitVec 3) (d : Dst) (a : BitVec 6) (s : State) : Host.Outcome State Fault Refusal :=
  .next (runInstr (.unlock h m d a) false (fun c s =>
    let items (c : Ctx) : List Item := [(1, 32, lockVa a c), (2, 32, immOf (.unlock h m d a))]
    let checks := unlockChecks a c s
    mirrorFault s c items (checkRes s checks) <|
      let va := lockVa a c
      let refs := refsDst 1 d ++ refsMask m
      let now (c : Ctx) (s : State) (st : Nat) : State :=
        deliver s c.gid c.g.issued 0 (statusWrites (lockDst d) m.toNat c.act (heldCount s c.gid) st)
      let k : Tok := { gid := c.gid, split := c.si, n := c.g.issued, lanes := c.act, dst := lockDst d, size := 8, sext := false,
                       mask := some m.toNat, pc := c.pc, vals := [], oks := [] }
      let act (c : Ctx) (s : State) : Res :=
        match lineCheck s c va with
        | (.inl r, _) => r
        | (.inr pa, s) =>
          let line := pa / 128
          let tok := (s.toks.find? (fun p => p.2.gid == c.gid && p.2.n == c.g.issued)).map (·.1)
          let close (s : State) : State :=
            match tok with
            | some t => { s with toks := s.toks.del t }.setGroup c.gid (fun g => g.clearPend t)
            | none => s
          if !holdsLine s c.gid line ∨ unlockDeferred c.blk c.gid line then .done (now c (close s) stNotHeld)
          else if 0 < c.blk.levels.length then
            match deferAction (close s) c.g.blk (.unlock c.gid line) with
            | some s => .done (now c s stOk)
            | none => shoreFullAction c.act
          else .done (issueAcc s (unlockAcc c.gid c.g.blk c.g.issued c.act line va tok)).2
      match roleOf s c, checks with
      | .shadow, _ | _, .inr _ => afterCompare s c 1 (items c) refs (fun s => (newTok s k refs).2) act
      | _, .inl r => r) s)

/-! ### Grants -/

/-- The first request of a line's chain. -/
def firstWaiter (s : State) (line : Nat) : Option Peg :=
  s.pegs.find? (fun p => p.line == line && !p.holds)

def setPeg (s : State) (req : Nat) (f : Peg → Peg) : State :=
  { s with pegs := s.pegs.map (fun p => if p.req = req then f p else p) }

def dropPeg (s : State) (req : Nat) : State := { s with pegs := s.pegs.filter (fun p => p.req != req) }

/-- A grant may be sent (R367): the leases granted on the line have passed, no proxy holds it, and every write that has its place is
applied. -/
def mayGrant (s : State) (line : Nat) : Bool :=
  leasesPassed s (line * 128) 128
    && !s.accs.any (fun a => a.stage == .arrived && a.writesBytes && (linesOf a.pa a.size).contains line)

/-- A claim of another block keeps the line from a waiter (R374). -/
def claimedFrom (s : State) (p : Peg) : Bool :=
  claimedByOther s ((s.groups.get? p.gid).map (·.blk)) (p.line * 128) 128

/-- A grant (R367): an acquire at device scope of the set that the line carries; BROKEN once after a broken hold (R371). -/
def grantLock (s : State) (p : Peg) : State :=
  match s.lockReqs.get? p.req with
  | none => s
  | some r =>
    let s := dropLeases (observeLanes s p.gid r.lanes (carryOf s (p.line * 128) 128)) (some (coreOfGroup p.gid)) .acquire 6
    let st := if s.broken.contains p.line then stBroken else stOk
    endLock { s with broken := s.broken.filter (· != p.line) } p.req st

/-- The grant to a present holder whose request it has not answered: it is sent, or its probes are. -/
def answerHolder (s : State) (line : Nat) : State :=
  match s.pegs.find? (fun p => p.line == line && p.state == .holding) with
  | none => s
  | some p =>
    if (s.lockReqs.get? p.req).isNone ∨ (s.groups.get? p.gid).isNone then s
    else if mayGrant s line then grantLock s p
    else sendProbes s (line * 128) 128

/-- A waiter leaves its chain with a status, which waits for it if it is absent. -/
def leaveChain (s : State) (p : Peg) (st : Nat) : State :=
  let s := dropPeg s p.req
  if (s.groups.get? p.gid).isSome then endLock s p.req st
  else { s with lockReqs := s.lockReqs.modify p.req (fun r => { r with late := some st }) }

/-- How a waiter's turn ends where it does not get the line: its timeout has run out (R372), or its reservation has (R370). -/
def turnLost (s : State) (p : Peg) : Option Nat :=
  match p.state with
  | .waiting => if p.left = some 0 then some stTimeout else none
  | .reserved t => if t ≤ lockTime s p.line then some stSkipped else none
  | _ => none

/-- The turn of the first waiter of a line that nobody holds (R366, R368): the line is its group's from now on, unless a claim keeps it
(R374), or is reserved for it while it is absent (R370): one that has resumed in time waits for the line without limit. A waiter whose
time is over goes, and the next one's turn comes. -/
def turns : Nat → State → Nat → State
  | 0, s, _ => s
  | n + 1, s, line =>
    match firstWaiter s line with
    | none => s
    | some p =>
      match turnLost s p with
      | some st => turns n (leaveChain s p st) line
      | none =>
        if (s.groups.get? p.gid).isNone then
          match p.state with
          | .waiting => setPeg s p.req (fun q => { q with state := .reserved (lockTime s line + 2800) })
          | _ => s
        else if claimedFrom s p then
          match p.state with
          | .reserved _ => setPeg s p.req (fun q => { q with state := .waiting, left := none })
          | _ => s
        else answerHolder (setPeg s p.req (fun q => { q with state := .holding, left := none })) line

/-- The line goes to whoever it is due to, and its holder is answered. -/
def serveChain (s : State) (line : Nat) : State :=
  if (lockHolder s line).isSome then answerHolder s line else turns s.pegs.length s line

/-- LOCK_GRANT (R367). -/
def execLockGrant (req : Nat) (s : State) : Host.Outcome State Fault Refusal :=
  .next (
    match s.lockReqs.get? req with
    | some r => if s.pegs.any (fun p => p.req == req) then serveChain s r.line else s
    | none => s)

/-- The split of a request parks on it (R366): at the LOCK if it has not gone on. -/
def parkOnLock (s : State) (req : Nat) (r : LockReq) : State :=
  match s.groups.get? r.gid with
  | none => s
  | some g =>
    match g.splits.find? (fun p => p.2.members.getLsbD (lowestLane r.lanes)) with
    | none => s
    | some (i, sp) =>
      let here := sp.pc == r.pc + 3
      let park (q : Split) : Split := { q with pc := if here then r.pc else q.pc }.parkAs (.lock req)
      let s := forAll (pairOf s r.gid) s (fun g s => setSplit s g i park)
      { s with lockReqs := s.lockReqs.modify req (fun r => { r with atLock := here }) }

/-- Entries in use in a slice's peg table (R362). -/
def pegsAt (s : State) (line : Nat) : Nat := (s.pegs.filter (fun p => lockHome p.line == lockHome line)).length

/-- LOCK_REQUEST_ARRIVAL (R362, R366): the request is refused, answered or chained; a free line is held from then on. Of a request whose
timeout reaches zero in this tick a grant in the same tick stands (R372); no line of a page whose bias changes is granted (R384). -/
def execLockRequestArrival (req : Nat) (s : State) : Host.Outcome State Fault Refusal :=
  .next (
    match s.queue.find? (fun e => e.payload == .lock req), s.lockReqs.get? req with
    | some e, some r =>
      let now := lockTime s r.line
      if !entryDue s e ∨ !homeAwake s (r.line * 128) ∨ biasFrozen s (r.line * 128)
          ∨ (s.groups.get? r.gid).elim true (fun g => !pairLevel s r.gid g || (s.blocks.get? g.blk).elim true (fun b => b.failing.isSome)
              || r.test && claimedByOther s (some g.blk) (r.line * 128) 128) then s
      else
        let s := setEntry s e.id .accepted
        let taken := s.pegs.any (fun p => p.line == r.line)
        let age := (r.refusedAt.map (fun t => now - t)).getD 0
        if hasPeg s r.gid r.line then endLock s req stHeld
        else if taken ∧ r.test then endLock s req stBusy
        else if r.timeout ≠ 0 ∧ r.timeout < age then endLock s req stTimeout
        else if 4096 ≤ pegsAt s r.line then
          { refuseEntry s e with
            lockReqs := s.lockReqs.modify req (fun r => { r with refusedAt := some (r.refusedAt.getD now) }) }
        else
          let p : Peg := { line := r.line, gid := r.gid, site := r.gid, req := req, accepted := now,
                           left := if r.timeout ≠ 0 then some (r.timeout - age + 1) else none, state := .waiting }
          let s := serveChain { s with pegs := s.pegs ++ [p] } r.line
          if (firstWaiter s r.line).isSome then parkOnLock s req r else s
    | _, _ => s)

/-! ### Hand-overs -/

/-- An access that has waited at its home takes effect there. -/
def applyHeld (s : State) (a : Acc) : State :=
  match a.kind with
  | .store => applyStore s a
  | .flush op => (flushLine s a op).dropAcc a.id
  | .xcnt =>
    let carried := carryOf s a.pa a.size
    returnRequest (countEntry s a.data2 a.pa a.data (carried ++ a.carry).eraseDups) a 0 true carried
  | .load | .unlock => s
  | _ => if isExpert a then applyExpert s a else applyOne s a

/-- Non-holder writes that waited for a line, in arrival order (R368, R369). What a claim or a busy home holds back as well goes on
waiting as any other access does. -/
def applyWaiting (s : State) (line : Nat) : State :=
  let ws := s.accs.filter (fun a => (a.stage == .waiting || a.stage == .barred) && (linesOf a.pa a.size).contains line)
  forAll ws s (fun w s =>
    match s.acc? w.id with
    | none => s
    | some a =>
      if lockedAgainst s a || heldAtHome s a || claimedScratch s a.cmd a.pa a.size then
        s.setAcc a.id (fun b => { b with stage := if a.stage = .barred then .queued else .buffered })
      else applyHeld s a)

/-- The holder gives a line up (R368, R371): the release's set goes with the line, the held writes are applied, and the
first waiter is granted the line, or the line is free. A request of the holder that has not been answered never is. -/
def handOver (s : State) (line : Nat) (broken : Bool) (carry : List Nat) : State :=
  let mine (req : Nat) : Bool := s.pegs.any (fun p => p.line == line && p.holds && p.req == req)
  let s := { s with pegs := s.pegs.filter (fun p => !(p.line == line && p.holds)), lockReqs := s.lockReqs.filter (fun r => !mine r.1),
                    broken := if broken then (line :: s.broken).eraseDups else s.broken }
  let s := setCarry s (line * 128) 128 (carryOf s (line * 128) 128 ++ carry).eraseDups
  serveChain (applyWaiting s line) line

/-- The holder's own writes to the line that have left their buffers are applied. -/
def holderDone (s : State) (gid line : Nat) (before : Nat) : Bool :=
  s.accs.all (fun a => !(byHolder gid a.gid && a.writesBytes && decide (a.id < before) && (linesOf a.pa a.size).contains line))

/-- The holder has issued an UNLOCK of the line that has not taken effect. -/
def unlockComing (s : State) (gid line : Nat) : Bool :=
  s.accs.any (fun a => a.kind == .unlock && a.pa / 128 == line && byHolder gid a.gid)

/-- A holder has ended: its group has, or its block is terminated (R371). -/
def holderEnded (s : State) (gid : Nat) : Bool :=
  isDeadGid gid || ((s.groups.get? gid).bind (s.blockOf ·)).elim false (fun b => b.terminated.isSome)

/-- LOCK_HANDOVER (R368, R371): an UNLOCK whose release has drained, or a holder that has ended without one. -/
def execLockHandover (line : Nat) (s : State) : Host.Outcome State Fault Refusal :=
  .next (
    match s.pegs.find? (fun p => p.line == line && p.holds) with
    | none =>
      match s.accs.find? (fun a => a.kind == .unlock && a.stage == .arrived && a.pa / 128 == line) with
      | some a => (returnValue s a (statusWord (heldCount s (a.gid.getD 0)) stNotHeld) false).dropAcc a.id
      | none => s
    | some p =>
      if holderEnded s p.gid ∧ !unlockComing s p.gid line then
        if holderDone s p.gid line s.nextId then handOver s line true [] else s
      else
        match s.accs.find? (fun a => a.kind == .unlock && a.stage == .arrived && a.pa / 128 == line) with
        | none => s
        | some a =>
          if !byHolder p.gid a.gid then (returnValue s a (statusWord (heldCount s (a.gid.getD 0)) stNotHeld) false).dropAcc a.id
          else if holderDone s p.gid line a.id then
            let s := (handOver (s.dropAcc a.id) line false a.carry)
            returnValue s a (statusWord (heldCount s p.gid) stOk) true
          else s)

/-! ### Waits that end otherwise -/

/-- Statuses that have waited for a group to resume (R370). -/
def deliverLate (s : State) (gid : Nat) : State :=
  forAll (s.lockReqs.filter (fun p => p.2.gid == gid)) s (fun p s =>
    match p.2.late with
    | some st => endLock s p.1 st
    | none => s)

/-- LOCK_TIMEOUT (R372): once the tick in which the timeout reached zero has passed; a grant of that tick stands. -/
def execLockTimeout (gid line : Nat) (s : State) : Host.Outcome State Fault Refusal :=
  .next (
    match s.pegs.find? (fun p => p.gid == gid && p.line == line && p.state == .waiting && p.left == some 0) with
    | some p => leaveChain s p stTimeout
    | none => s)

/-- LOCK_RESERVATION_EXPIRY (R370). -/
def execLockReservationExpiry (line : Nat) (s : State) : Host.Outcome State Fault Refusal :=
  .next (
    match firstWaiter s line with
    | some p =>
      match p.state with
      | .reserved t => if t ≤ lockTime s line ∧ (s.groups.get? p.gid).isNone then serveChain (leaveChain s p stSkipped) line else s
      | _ => s
    | none => s)

/-- The group for which a line counts as held in the scan (R373). -/
def scanHolder (s : State) (line : Nat) : Option Nat :=
  (s.pegs.find? (fun p => p.line == line && (p.holds || (match p.state with | .reserved _ => true | _ => false)))).map (·.gid)

/-- A peg that waits: one whose timeout has reached zero is on its way out (R372). -/
def Peg.waits (p : Peg) : Bool := p.state == .waiting && p.left != some 0

/-- A cycle of waits that leads from a group back to `start`, through no group twice: the waiting pegs on the way. -/
def cycleFrom (s : State) (start : Nat) : Nat → List Peg → Nat → Option (List Peg)
  | 0, _, _ => none
  | n + 1, path, gid =>
    (s.pegs.filter (fun p => p.gid == gid && p.waits)).findSome? (fun p =>
      match scanHolder s p.line with
      | none => none
      | some h =>
        if h = start then some (path ++ [p])
        else if h = gid ∨ path.any (fun q => q.gid == h) then none
        else cycleFrom s start n (path ++ [p]) h)

/-- Some cycle of waits. -/
def findCycle (s : State) : Option (List Peg) :=
  (s.pegs.filter Peg.waits).findSome? (fun p => cycleFrom s p.gid s.pegs.length [] p.gid)

/-- The later of two waiters in the order of R373. -/
def younger (a b : Peg) : Peg :=
  if a.accepted < b.accepted ∨ (a.accepted = b.accepted ∧ a.site < b.site) then b else a

/-- The cycle loses its youngest waiter, and the die that is home to its lowest line logs it (R373). -/
def breakCycle (s : State) (c : List Peg) : State :=
  match c with
  | [] => s
  | p :: t =>
    let low := (leastBy id (c.map (·.line))).getD p.line
    let v := t.foldl younger p
    let g := v.site % 16384
    let home := lockHome low
    let data := c.length % 256 + (dieOfGroup g) * 256 + (coreOfGroup g % 64) * 65536 + slotOf g * 2 ^ 24
    leaveChain (logEvent s home.1 0x0007 1 home.2 (BitVec.ofNat 64 (v.line * 128)) (BitVec.ofNat 64 data)) v stDeadlock

/-- Every cycle is broken. -/
def breakCycles : Nat → State → State
  | 0, s => s
  | n + 1, s =>
    match findCycle s with
    | some c => breakCycles n (breakCycle s c)
    | none => s

/-- KNEE_BRACE_SCAN (R373): at multiples of 65,536 of fabric time. -/
def execKneeBraceScan (s : State) : Host.Outcome State Fault Refusal :=
  .next (if s.dies.any (fun p => p.2.awake && p.2.time % 65536 == 0) then breakCycles s.pegs.length s else s)

end Sys2Proof.Machine
end

