-- ==== Sys2Proof/Machine/Queues.lean ====
section
/-!
DEFINITION. Launch queues as LAUNCH sees them (R48, R385): room, and posting children in the order of R48.
-/
namespace Sys2Proof.Machine

/-- A queue that no QUEUE command has configured. -/
def LQueue.empty : LQueue :=
  { ring := 0, log2 := 0, device := false, prod := 0, cons := 0, read := 0, configured := false, posted := [] }

def State.lqueue (s : State) (q : Nat) : LQueue := s.queues.getD q LQueue.empty

/-- A queue that LAUNCH may post to (R385). -/
def LQueue.accepts (k : LQueue) : Bool := k.configured && k.device

/-- Records posted and not yet read, in the ring and on the way. -/
def queued (s : State) (q : Nat) : Nat :=
  let k := s.lqueue q
  (readNat s k.prod 4 + 2 ^ 32 - readNat s k.cons 4) % 2 ^ 32
    + s.cores.foldl (fun n c => n + c.2.launchBuf.foldl (fun n b => n + (b.records.filter (fun r => r.1 == q)).length) 0) 0

/-- A queue's words can be read by an agent of a die. -/
def queueReads (s : State) (die q : Nat) : Bool := agentReads s die (s.lqueue q).prod 4 && agentReads s die (s.lqueue q).cons 4

/-- Room for more children in every queue that they name; a queue that rejects them has room. -/
def roomFor (s : State) (die : Nat) (qs : List Nat) : Bool :=
  qs.all (fun q => !(s.lqueue q).accepts || (queueReads s die q && decide (queued s q + (qs.filter (· == q)).length ≤ 2 ^ (s.lqueue q).log2)))

/-- Posts one child as an agent of its die, once it may write there: the record goes into the ring and the producer word advances. -/
def postChild (s : State) (die q : Nat) (record : List Byte) (obs : List Nat) : State × Bool :=
  let k := s.lqueue q
  let posted (s : State) : State := { s with queues := s.queues.put q { k with posted := k.posted ++ [(record, obs)] } }
  if !k.accepts then (posted s, true)
  else if !agentReads s die k.prod 4 then (s, false)
  else
    let p := readNat s k.prod 4
    match agentWrite (bridgeRead s die k.prod 4 false) die
        [(k.ring + 64 * (p % 2 ^ k.log2), record), (k.prod, leBytes 4 ((p + 1) % 2 ^ 32))] with
    | (s, true) => (posted s, true)
    | (s, false) => (s, false)

/-- Posts records in order; what is left has to wait. -/
def postRecords (die : Nat) (obs : List Nat) : List (Nat × List Byte) → State → List (Nat × List Byte) × State
  | [], s => ([], s)
  | r :: t, s =>
    match postChild s die r.1 r.2 obs with
    | (s, true) => postRecords die obs t s
    | (s, false) => (r :: t, s)

def postAll (die : Nat) : List Posting → State → List Posting × State
  | [], s => ([], s)
  | b :: t, s =>
    match postRecords die b.obs b.records s with
    | ([], s) => postAll die t s
    | (rest, s) => ({ b with records := rest } :: t, s)

/-- The children of one clk reach the distributor interface of their core, by split index and then by slot (R48). -/
def flushLaunches (s : State) : State :=
  forAll s.cores s (fun c s =>
    if c.2.launchBuf.isEmpty then s
    else
      let key (b : Posting) : Nat := b.clk * 256 + b.split * 64 + b.slot
      let (rest, s) := postAll (dieOfCore c.1) (sortBy (fun a b => decide (key a ≤ key b)) c.2.launchBuf) s
      s.setCore c.1 (fun k => { k with launchBuf := rest }))

end Sys2Proof.Machine
end

