-- ==== Sys2Proof/Machine/Lifecycle.lean ====
section
/-!
DEFINITION. EXIT, REGROUP and LAUNCH (R117, R121 to R123), the former's buckets (R46), and the ends of groups (R38, R229).
-/
namespace Sys2Proof.Machine

/-- The acting lanes leave; the lanes of em outside G go on at the next instruction. A gathering that waited for them is
complete (R307). -/
def lanesGo (s : State) (c : Ctx) : State := settleGather (lanesLeave (advance s c 3) c.gid c.si c.act) c.g.blk

/-- The group would have no lane left without these. -/
def endsGroup (g : Group) (sp : Split) (lanes : LaneMask) : Bool :=
  decide (g.splits.length = 1) && (splitLanes sp &&& ~~~lanes) == 0

/-- The shadow's part in an end of lanes: it waits as its primary does, or its lanes leave too. -/
def goAlike (s : State) (c : Ctx) : State := if (primaryPark s c).isSome then parkAlike s c else lanesGo s c

/-- Acting lanes end once for a pair (R359, R229; EXIT and the others wait for the comparison too, log 141): `last` is the wait of an instruction that would end its group while commands of
it are left, and `act` what else their end does. -/
def endLanesOnce (s : State) (c : Ctx) (items : List Item) (last : Park) (act : Ctx → State → State) : Res :=
  together s c 4 items [] (fun c s =>
    if endsGroup c.g c.sp c.act ∧ commandsLeft s c.gid then .jump (parkHere s c last) else .jump (lanesGo (act c s) c)) goAlike

/-- EXIT (R117, R229). -/
def execExit (h : Hdr) (s : State) : Host.Outcome State Fault Refusal :=
  .next (runInstr (.exit h) false (fun c s =>
    if 0 < c.blk.levels.length ∨ (lanesOf c.act).any (fun l => (c.g.tasks.get? l).isSome) then .fault .nesting 0 c.act
    else endLanesOnce s c [] .exit (fun c s => forAll (lanesOf c.act) s (fun l s => exitThread s c.g l))) s)

/-- What TEND does for some lanes (R356): a task is finished, and a thread has exited and its block serves. -/
def endTasks (s : State) (gid : Nat) (g : Group) (lanes : LaneMask) : State :=
  forAll (lanesOf lanes) s (fun l s =>
    match g.tasks.get? l with
    | none => (exitThread s g l).setBlock g.blk (fun b => { b with serving := true })
    | some t =>
      let left := (s.accs.filter (fun a => a.gid == some gid && a.lanes.getLsbD l && a.writesBytes && a.task.isNone)).map (·.id)
      s.setTask t (fun k => if k.state = .running then { k with state := .finished, drain := left } else k))

/-- TABORT for one task (R357): its buffered writes are dropped, its descendants discarded, and it is finished. -/
def abandonTask (s : State) (gid lane t : Nat) : State :=
  let s := forAll (descendants s s.tasks.length t) s (fun d s => discardTask s d)
  let s := dropTaskWrites s t
  let left := (s.accs.filter (fun a => a.gid == some gid && a.lanes.getLsbD lane && a.writesBytes)).map (·.id)
  s.setTask t (fun k => if k.state = .running then { k with state := .finished, buf := [], drain := left } else k)

/-- TABORT for some lanes. -/
def abandonTasks (s : State) (gid : Nat) (g : Group) (lanes : LaneMask) : State :=
  forAll (lanesOf lanes) s (fun l s =>
    match g.tasks.get? l with
    | some t => abandonTask s gid l t
    | none => s)

/-- What the end of a wait of R229 does for some lanes. -/
def endWait (s : State) (gid : Nat) (g : Group) (lanes : LaneMask) : Park → Option State
  | .exit => some (forAll (lanesOf lanes) s (fun l s => exitThread s g l))
  | .tend => some (endTasks s gid g lanes)
  | .tabort => some (abandonTasks s gid g lanes)
  | _ => none

/-- A parked EXIT, TEND or TABORT takes effect once the group's commands have ended (R229), once for a pair; a group whose lanes have all ended otherwise
leaves its slot then. -/
def execGroupEnd (gid split : Nat) (s : State) : Host.Outcome State Fault Refusal :=
  .next (
    match s.groups.get? gid with
    | none => s
    | some g =>
      if commandsLeft s gid ∨ g.stopped ∨ !g.fails.isEmpty ∨ g.handler && g.held.any (fun u => g.splits.any (fun p => p.1 == split && p.2.uid == u)) then s
      else if g.splits.isEmpty then reapGroup s gid
      else
        match g.splits.get? split with
        | none => s
        | some sp =>
          if isShadow s gid g ∨ !sp.parts.isEmpty ∨ !sp.stack.isEmpty then s
          else
            match sp.park.bind (endWait s gid g sp.members) with
            | none => s
            | some t =>
              let t := lanesLeave t gid split sp.members
              settleGather (if isChecked s g then lanesLeave t (gid + 32) split sp.members else t) g.blk)

/-! ### The former -/

/-- The continuations of one bucket (R46). -/
def bucket (cs : List Cont) (pc : CodeAddr) (key : Word) : List Cont := cs.filter (fun k => k.pc == pc && k.key == key)

/-- Removes the first continuations of a bucket. -/
def takeFromBucket : Nat → List Cont → CodeAddr → Word → List Cont
  | _, [], _, _ => []
  | 0, cs, _, _ => cs
  | n + 1, k :: t, pc, key =>
    if k.pc = pc ∧ k.key = key then takeFromBucket n t pc key else k :: takeFromBucket (n + 1) t pc key

/-- A bucket that holds 32 continuations becomes a group, formed in this clk (R46, R43). -/
def formFull (clk : Nat) (b : Block) (pc : CodeAddr) (key : Word) : Block :=
  let k := bucket b.conts pc key
  if k.length < 32 then b
  else { b with conts := takeFromBucket 32 b.conts pc key, formed := b.formed ++ [(clk, k.take 32)] }

/-- The continuation of a lane (R45). -/
def contOf (g : Group) (target : CodeAddr) (key : Word) (lane : Nat) : Cont :=
  { pc := target, key := key, lane := lane, group := g.index, thread := threadNumber g lane,
    v := (List.range 16).map (fun r => g.vreg r lane) }

/-- REGROUP's continuations enter the spawn area in increasing lane order, and full buckets form groups. -/
def writeConts (s : State) (c : Ctx) (target : CodeAddr) (key : Nat → Word) : State :=
  forAll (lanesOf c.act) s (fun l s =>
    s.setBlock c.g.blk (fun b => formFull s.clk { b with conts := b.conts ++ [contOf c.g target (key l) l] } target (key l)))

/-- REGROUP (R121, R45, R47). -/
def execRegroup (h : Hdr) (off : BitVec 32) (a : Src) (s : State) : Host.Outcome State Fault Refusal :=
  .next (runInstr (.regroup h off a) false (fun c s =>
    if !c.launch.regroup then .fault .accessFault 0 c.act
    else if 0 < c.blk.levels.length ∨ c.g.taskGroup then .fault .nesting 0 c.act
    else
      let target := pcOff c.pc off
      let key (l : Nat) : Word := BitVec.ofNat 32 (srcLane s c 1 0 a l)
      let items : List Item := (lanesOf c.act).flatMap (fun l =>
        [(4, l, target.toNat), (4, l, (key l).toNat)] ++ (List.range 16).map (fun r => (4, l, (c.g.vreg r l).toNat)))
      together s c 4 items [] (fun c s => .jump (lanesGo (writeConts s c target key) c)) goAlike) s)

/-- No lane of the block runs (R46). -/
def noLaneRuns (s : State) (blk : Nat) : Bool := (groupsOf s blk).all (fun p => p.2.splits.isEmpty)

/-- Buckets in increasing continuation PC, then increasing key, each as one partial group. -/
def flushBuckets (clk : Nat) : Nat → Block → Block
  | 0, b => b
  | n + 1, b =>
    match leastBy (fun k => k.pc.toNat * 2 ^ 32 + k.key.toNat) b.conts with
    | none => b
    | some k =>
      let all := bucket b.conts k.pc k.key
      flushBuckets clk n { b with conts := takeFromBucket all.length b.conts k.pc k.key, formed := b.formed ++ [(clk, all)] }

/-- FORMER_FLUSH (R46). DESIGN CHOICE (log 131): the spec does not say whether the threads of a formed group that still waits for a
slot count as held continuations; the model flushes once no formed group is waiting. -/
def execFormerFlush (blk : Nat) (s : State) : Host.Outcome State Fault Refusal :=
  .next (
    match s.blocks.get? blk with
    | none => s
    | some b =>
      if b.sealed ∨ b.terminated.isSome ∨ !b.formed.isEmpty ∨ !noLaneRuns s blk then s
      else s.setBlock blk (fun b => flushBuckets s.clk b.conts.length b))

/-! ### LAUNCH -/

/-- The first record address that fails its check (R122), or the physical addresses. ACCESS_FAULT stands before
PAGE_FAULT (R157). -/
def checkRecords (s : State) (c : Ctx) : List (Nat × LaneMask) → List Nat × State × Option Res
  | [] => ([], s, none)
  | (x, m) :: t =>
    if x % 64 ≠ 0 then ([], s, some (.fault .misaligned (BitVec.ofNat 64 x) m))
    else
      match translate s (dieOfGroup c.gid) c.launch.pasid Need.load x with
      | (.access, s) => ([], s, some (.fault .accessFault (BitVec.ofNat 64 x) m))
      | (.page i st, s) =>
        match checkRecords s c t with
        | (_, s, some (.fault .accessFault e l)) => ([], s, some (.fault .accessFault e l))
        | _ => ([], s, some (.held (pageFault s c x i (if st then 1 else 0) m)))
      | (.ok pa _, s) =>
        let (ps, s, r) := checkRecords s c t
        (pa :: ps, s, r)

/-- The first record in the order of X whose line is poisoned: its address, and the lanes (R159). -/
def badRecord (s : State) (us : List (Nat × LaneMask)) (ps : List Nat) : Option (Nat × LaneMask) :=
  (us.zip ps).findSome? (fun p => if (s.line (p.2 / 128)).poison then some (p.2 - p.2 % 128, p.1.2) else none)

/-- The queue that a record names (R386). -/
def recordQueue (r : List Byte) : Nat := bitField (ofLe ((r.drop 56).take 4)) 23 6

/-- A record cannot be read yet: another block claims its line, or its home is not there to answer (R321, R323, R204). -/
def recordsHeld (s : State) (c : Ctx) (ps : List Nat) : Bool :=
  ps.any (fun p => heldAtHome s (agentAcc (dieOfGroup c.gid) none (some c.g.blk) none .load p p 64 0 []))

/-- The checks of R122, R157 and R159, with the physical addresses of the records where they pass. -/
def launchChecks (us : List (Nat × LaneMask)) (c : Ctx) (s : State) : Res ⊕ List Nat :=
  if 0 < c.blk.levels.length ∨ anySpec s c.g c.act then .inl (.fault .nesting 0 c.act)
  else
    match checkRecords s c us with
    | (_, _, some r) => .inl r
    | (ps, s, none) =>
      match badRecord s us ps with
      | some (pa, m) => .inl (.fault .eccUncorr (BitVec.ofNat 64 pa) m)
      | none => .inr ps

/-- What a pair compares of a LAUNCH (R123, R333): for each lane the record's address and its bytes. -/
def launchItems (vec : Bool) (us : List (Nat × LaneMask)) (bytes : List (List Byte)) : List Item :=
  (us.zip bytes).flatMap (fun x =>
    let lane := if vec then lowestLane x.1.2 else 32
    [(5, lane, x.1.1), (5, lane, ofLe x.2)])

/-- The children leave for the distributor interface of their core once their queues have room (R48). -/
def launchChildren (rs : List (Nat × List Byte)) (c : Ctx) (s : State) : Res :=
  let core := coreOfGroup c.gid
  if !roomFor s (dieOfCore core) (rs.map (·.1)) then .wait
  else .done (s.setCore core (fun k =>
    { k with launchBuf := k.launchBuf ++ [⟨s.clk, c.si, slotOf c.gid, rs, observed s c.gid c.act⟩] }))

/-- LAUNCH of the records at the addresses given (R122, R123, R48). -/
def launchBody (vec : Bool) (xs : Ctx → List (Nat × LaneMask)) (c : Ctx) (s : State) : Res :=
  let checks := launchChecks (xs c) c s
  mirrorFault s c (fun c => (xs c).map (fun u => (5, lowestLane u.2, u.1))) (match checks with | .inl r => r | .inr _ => .done s) <|
    let send (ps : List Nat) : Res :=
      if (roleOf s c ≠ .shadow ∧ !released s c.gid (splitLanes c.sp) 6) ∨ recordsHeld s c ps then .wait
      else
        let s := forAll ps s (fun p s => bridgeRead s (dieOfGroup c.gid) p 64 false)
        let bytes := ps.map (fun p => readBytes s p 64)
        afterCompare s c 5 (launchItems vec (xs c) bytes) [] id (launchChildren (bytes.map (fun r => (recordQueue r, r))))
    match roleOf s c, checks with
    | .shadow, .inl r =>
      -- its own fault, unless its primary has found none
      if (presented s c).isSome then afterCompare s c 5 [] [] id (fun _ s => .done s) else r
    | _, .inl r => r
    | _, .inr ps => send ps

/-- LAUNCH (R122). -/
def execLaunch (h : Hdr) (a : BitVec 6) (s : State) : Host.Outcome State Fault Refusal :=
  .next (runInstr (.launch h a) false (launchBody false (fun c => [((c.g.sreg a.toNat).toNat, c.act)])) s)

/-- LAUNCH.lane (R122). -/
def execLaunchLane (h : Hdr) (a : BitVec 8) (s : State) : Host.Outcome State Fault Refusal :=
  .next (runInstr (.launchLane h a) false
    (launchBody true (fun c => (lanesOf c.act).map (fun l => (c.g.vregs a.toNat l 2, laneBit l)))) s)

end Sys2Proof.Machine
end

