-- ==== Sys2Proof/Machine/Scheduler.lean ====
section
/-!
DEFINITION. The group schedulers (R43), joins and merges at a fetch (R40, R41), fetching and decoding the instruction
of the split that issues (R54, R78), the turn of time, and placing one instruction where the next step fetches it.
-/
namespace Sys2Proof.Machine

/-! ### Joins and merges -/

/-- The lanes of a popped entry reach their join: those parked there join them (R41). -/
def Split.meetJoin (sp : Split) (rest : List CodeAddr) : Split :=
  let here := sp.parts.filter (fun p => p.park == .join && p.pc == sp.pc && p.tag == rest)
  { sp with em := here.foldl (fun m p => m ||| p.em) sp.em, members := here.foldl (fun m p => m ||| p.members) sp.members,
            parts := sp.parts.filter (fun p => !here.contains p), tag := rest }

/-- Joins at the fetch PC of a running part (R41). One that parks at the join of the top entry, and was deferred beside that entry,
stands there as the first of them does: it has reached its own join. -/
def resolveJoins : Nat → Split → Split
  | 0, sp => sp
  | n + 1, sp =>
    match sp.stack with
    | d :: _ =>
      if d.join ≠ 0 ∧ d.join = sp.pc then
        resolveJoins n ({ sp with tag := if sp.tag = d.join :: d.outer then d.outer else sp.tag }.parkAs .join)
      else sp
    | [] =>
      match sp.tag with
      | j :: rest => if j = sp.pc then resolveJoins n (sp.meetJoin rest) else sp
      | [] => sp

/-- Joins below the top of the stack: a popped entry that reaches its join while others are still deferred. -/
def joinDeep (sp : Split) : Split :=
  match sp.tag, sp.stack with
  | j :: rest, d :: _ => if j = sp.pc ∧ d.join ≠ sp.pc then sp.meetJoin rest else sp
  | _, _ => sp

/-- A split at its fetch: not one that is parked. -/
def atFetch (sp : Split) : Split :=
  if sp.park.isSome then sp else resolveJoins 64 (joinDeep sp)

/-- Merges split `j` of a group into split `i` (R40). -/
def mergeInto (g : Group) (i j : Nat) : Group :=
  match g.splits.get? i, g.splits.get? j with
  | some a, some b =>
    { g with splits := (g.splits.put i { a with em := a.em ||| b.em, members := a.members ||| b.members,
                                                stallUntil := max a.stallUntil b.stallUntil, hold := a.hold ++ b.hold }).del j }
  | _, _ => g

/-! ### Fetch and decode -/

/-- What the split at a PC would execute. -/
inductive Next where
  | instr (i : Instr)
  | illegal (eval : Dword)
  | reserved (eval : Dword)
  | page (va ipa : Nat) (stage2 : Bool)
  | access (va : Nat)
  | poison (pa : Nat)
  deriving DecidableEq, Repr

/-- Bits [95:32] of an instruction word (R279). -/
def evalOf (ws : List (BitVec 32)) : Dword := ws.getD 2 0 ++ ws.getD 1 0

/-- Fetches and decodes the instruction at a PC, for a launch on a die: three code words, and the parameter block where there is
one. -/
def fetchDecode (s : State) (die : Nat) (l : Launch) (pc : CodeAddr) : Next × State :=
  match fetchWords s die l pc 3 with
  | (.page va i st, s) => (.page va i st, s)
  | (.access va, s) => (.access va, s)
  | (.poison pa, s) => (.poison pa, s)
  | (.words ws, s) =>
    let r := Decode.fields (Decode.join3 (ws.getD 0 0) (ws.getD 1 0) (ws.getD 2 0))
    let finish (ws : List (BitVec 32)) (s : State) : Next × State :=
      match Decode.decode ws with
      | .ok i => (.instr i, s)
      | .illegal => (.illegal (evalOf ws), s)
      | .reserved => (.reserved (evalOf ws), s)
    if Decode.hasParams r then
      match fetchWords s die l (pc + 3) 4 with
      | (.page va i st, s) => (.page va i st, s)
      | (.access va, s) => (.access va, s)
      | (.poison pa, s) => (.poison pa, s)
      | (.words ps, s) => finish (ws ++ ps) s
    else finish ws s

/-! ### Readiness and choice (R43) -/

/-- A split is ready: its stall has elapsed, its interlocks are clear and it is not parked. -/
def splitReady (s : State) (gid si : Nat) (sp : Split) : Bool :=
  match ctxOf ⟨false, 7, 0, false⟩ { s with cur := (gid, si) } with
  | none => false
  | some c =>
    let sp := atFetch sp
    let c := { c with sp := sp, pc := sp.pc, em := sp.em }
    running c && decide (sp.stallUntil ≤ s.clk)
      && (c.g.npeOver.isSome || !c.g.fails.isEmpty
          || (match (fetchDecode s (dieOfGroup c.gid) c.launch c.pc).1 with
              | .instr i => canIssue s c i
              | _ => pairAllows s c))

/-- The groups of a scheduler, oldest first, ties to the lower slot. -/
def groupsOfSched (s : State) (core sched : Nat) : List (Nat × Group) :=
  let gs := s.groups.filter (fun p => coreOfGroup p.1 == core && schedOf p.1 == sched)
  sortBy (fun a b => decide (a.2.age < b.2.age ∨ (a.2.age = b.2.age ∧ a.1 ≤ b.1))) gs

/-- Split indices in increasing order after the one issued last. -/
def splitOrder (g : Group) : List Nat :=
  match g.lastSplit with
  | none => [0, 1, 2, 3]
  | some i => (List.range 4).map (fun k => (i + 1 + k) % 4)

/-- All ready splits of a scheduler, in the order in which R43 takes them. -/
def readySplits (s : State) (core sched : Nat) : List (Nat × Nat × Split) :=
  (groupsOfSched s core sched).flatMap (fun p =>
    (splitOrder p.2).filterMap (fun i =>
      match p.2.splits.get? i with
      | some sp => if splitReady s p.1 i sp then some (p.1, i, sp) else none
      | none => none))

/-- A split that has stayed ready for 256 clk (R43). -/
def starving (s : State) (r : List (Nat × Nat × Split)) : List (Nat × Nat × Split) :=
  r.filter (fun x => match x.2.2.readySince with | some c => decide (c + 256 ≤ s.clk) | none => false)

/-- The ready splits in the order in which the scheduler tries them: those that have stayed ready for 256 clk, then as R43 picks, those
kept back by a yield last. -/
def issueOrder (s : State) (core sched : Nat) : List (Nat × Nat) :=
  let r := readySplits s core sched
  let free := r.filter (fun x => x.2.2.yieldAt != some s.clk)
  let names (l : List (Nat × Nat × Split)) : List (Nat × Nat) := l.map (fun x => (x.1, x.2.1))
  let forced := (names r).filter (fun x => (s.core core).forced.get? sched == some x)
  (names (starving s r) ++ forced ++ names free ++ names r).eraseDups

/-- The split that the scheduler picks. -/
def pick (s : State) (core sched : Nat) : Option (Nat × Nat) := (issueOrder s core sched).head?

/-- Whether a core may issue in this clk: its die is awake, under the thermal throttle it has issued in none of the three before, and
above the power limit not in the one before: an idle clk stands between its issues (R391, log 162). -/
def coreIssues (s : State) (core sched : Nat) : Bool :=
  (s.die (dieOfCore core)).awake && (s.core core).lastIssue.get? sched != some s.clk
    && (!s.mgmt.throttled || (s.core core).lastIssue.all (fun p => decide (p.2 = s.clk ∨ p.2 + 4 ≤ s.clk)))
    && (decide (s.mgmt.power ≤ s.mgmt.powerLimit) || (s.core core).lastIssue.all (fun p => decide (p.2 = s.clk ∨ p.2 + 2 ≤ s.clk)))

/-- Merges the ready splits that fetch the PC of split `si` (R40); the merged split keeps the lower index. -/
def mergeAt (s : State) (core sched gid si : Nat) : State × Nat :=
  match (s.groups.get? gid).bind (fun g => g.splits.get? si) with
  | none => (s, si)
  | some sp =>
    let plain (q : Split) : Bool := q.stack.isEmpty && q.parts.isEmpty
    if !plain sp then (s, si)
    else
      let same := (readySplits s core sched).filter (fun x => x.1 == gid && x.2.1 != si && x.2.2.pc == sp.pc && plain x.2.2)
      same.foldl (fun (a : State × Nat) x =>
        let lo := min a.2 x.2.1
        let hi := max a.2 x.2.1
        (a.1.setGroup gid (fun g => mergeInto g lo hi), lo)) (s, si)

/-- What a scheduler's turn at one split leads to: a state reached without an instruction, as by a fault before decoding or in it, or
an instruction to execute. -/
inductive Chosen where
  | idle (s : State)
  | run (i : Instr) (s : State)
  deriving Repr

/-- The scheduler turns to a split: it stands at its fetch, merged with those that fetch the same PC, and is the current one. -/
def turnTo (s : State) (core sched gid si : Nat) : State :=
  let s := setSplit s gid si atFetch
  let (s, si) := mergeAt s core sched gid si
  { s.setCore core (fun k => { k with lastIssue := k.lastIssue.put sched s.clk, forced := k.forced.del sched }) with cur := (gid, si) }

/-- The split that `cur` names fetches. -/
def fetchTurn (s : State) : Chosen :=
  match ctxOf ⟨false, 7, 0, false⟩ s with
  | none => .idle s
  | some c =>
    match beforeNext s c, primaryFault s c with
    | some s, _ => .idle s
    | none, some ⟨_, .pageFault, e, l⟩ => .idle (takeFault s c .pageFault e l)
    | none, _ =>
      match fetchDecode s (dieOfGroup c.gid) c.launch c.pc with
      | (.instr i, s) => .run i s
      | (.illegal e, s) => .idle (takeFault s c .illegalOp e c.em)
      | (.reserved e, s) => .idle (takeFault s c .reservedEnc e c.em)
      | (.access va, s) => .idle (takeFault s c .accessFault (BitVec.ofNat 64 va) c.em)
      | (.poison pa, s) => .idle (takeFault s c .eccUncorr (BitVec.ofNat 64 pa) c.em)
      | (.page va ipa st, s) => .idle (pageFault s c va ipa (4 + if st then 1 else 0) c.em)

/-- Nothing has come of a split's turn: its group is as it was. -/
def waitsStill (gid : Nat) (before after : State) : Bool := before.groups.get? gid == after.groups.get? gid

/-- A split whose instruction waits was not ready in this clk (R43): it has not stayed ready, and its core has not issued. `s` is the
state before its turn. -/
def notReady (s after : State) (core gid si : Nat) : State :=
  setSplit (after.setCore core (fun k => { k with lastIssue := (s.core core).lastIssue })) gid si (fun q => { q with readySince := none })

/-! ### Time -/

/-- A waiter's timeout runs, and stops while the holder or the waiter is absent (R362, R370); the tick in which none is left passes all the
same. -/
def ageTimeout (s : State) (p : Peg) : Peg :=
  let holderAway := s.pegs.any (fun q => q.line == p.line && q.state == .absent)
  let here := (s.groups.get? p.gid).isSome
  if p.state = .waiting ∧ (p.left = some 1 ∨ !holderAway ∧ here) then { p with left := p.left.map (fun n => n - 1) } else p

/-- A level's clock counts while its block is resident and the level is not being rolled back (R316). -/
def ageLevels (b : Block) : Block :=
  if b.sealed then b
  else
    { b with levels := b.levels.mapIdx (fun i l =>
        match b.failing with
        | some f => if f.level ≤ i + 1 then l else { l with clock := l.clock + 1 }
        | none => { l with clock := l.clock + 1 }) }

/-- The clk from which each split has been ready (R43). -/
def noteReady (s : State) : State :=
  { s with groups := s.groups.map (fun p =>
      (p.1, { p.2 with splits := p.2.splits.map (fun q =>
        (q.1, { q.2 with readySince := if splitReady s p.1 q.1 q.2 then (match q.2.readySince with | some c => some c | none => some s.clk)
                                       else none })) })) }

/-- Guard slots take the states that GRES gave them in the clk before (R238). -/
def Group.settleGuards (g : Group) : Group :=
  if g.gres.isEmpty then g else { g with gs := g.gres.foldl (fun m p => m.put p.1 p.2) g.gs, gres := [] }

/-- One clk (R5, R19): fabric time advances on every die that is awake. -/
def tick (s : State) : State :=
  let s := flushFaults (settleSpills (flushLaunches (noteReady s)))
  { s with groups := s.groups.map (fun p => (p.1, p.2.settleGuards)), clk := s.clk + 1,
           dies := s.dies.map (fun p => (p.1, if p.2.awake then { p.2 with time := p.2.time + 1 } else p.2)),
           pegs := s.pegs.map (ageTimeout s), blocks := s.blocks.map (fun p => (p.1, ageLevels p.2)) }

/-! ### Placing one instruction -/

/-- A group at the start of its block (R31) with one split that holds the lanes `em` at a PC. -/
def startGroup (blk index age nregs uid : Nat) (pc : CodeAddr) (em : LaneMask) (arg : Dword) : Group :=
  { blk := blk, index := index, age := age, nregs := nregs,
    splits := [(0, { uid := uid, pc := pc, em := em, members := em, stallUntil := 0, yieldAt := none, readySince := none,
                     park := none, tag := [], stack := [], parts := [], hold := [], woke := none })],
    v := [], s := Map.putD [] 0 0 arg, cm := [], gs := [], gres := [], handler := false, npe := none, causeEngine := false, cause := 0,
    epc := 0, eval := 0, tvec := 0, sbchk := false, backoff := 64, fflags := 0, frm := 0, xv := [], gen := [], origin := [], threads := [],
    tasks := [], taskGroup := false, spawned := 0, savedEm := 0, held := [], entry := none, inflight := [], flagsAt := 0, pend := [], lastSplit := none,
    fails := [], copies := [], desched := none, issued := 0, issueLog := [], results := [], sampled := [], faultWait := none,
    npeOver := none, stopped := false }

/-- The launch that the placed instruction belongs to: one block of one thread with 256 registers. -/
def probeLaunch : Launch :=
  { ident := 0, queue := 0, entryIdx := 0, pc := 0, arg := 0, cword := 0, seq := 0, spillBase := 0, spillPages := 0, place := none,
    clusters := 1, threads := 1, regs := 256, scratchPages := 1, clusterSize := 1, stages := 1, cls := 0, pasid := 0,
    gang := false, checked := false, regroup := false, nextCluster := 1, nextStage := 0, waited := 0, blocksEnded := 0,
    fail := none, poisoned := none, halted := false, obs := [], replicas := [], gen := 0, checkpointed := false, refGen := none, gangId := 0, tag := none, lost := false, refused := false, since := 0 }

def probeBlock : Block :=
  { launch := 0, cluster := 0, rank := 0, stage := 0, index := 0, core := 0, peers := [(0, 0)], firstSlot := 0, nGroups := 1, scratchBase := 0,
    scratchSize := 4096, started := true, exited := [], conts := [], formed := [], serving := false, bars := [], levels := [],
    gather := none, failing := none, stop := none, sealed := false, terminated := none }

/-- Page tables at 0x4000_0000 that map the first 1 GiB of virtual addresses onto the first 1 GiB of die 0 (R153, R154). -/
def probeTables (s : State) : State :=
  writeNat (writeNat (writeNat s 0x40000000 8 0x40001001) 0x40001000 8 0x40002001) 0x40002000 8 0xF

/-- The state with an instruction's code bytes at PC 0 of a block of one thread on core 0 of die 0, and that core's
scheduler 0 next to issue. -/
def placeWords (s : State) (ws : List (BitVec 32)) : State :=
  let s := probeTables { s with spaces := s.spaces.put 0 ⟨0x40000000, 0⟩, launches := s.launches.put 0 probeLaunch,
                                blocks := s.blocks.put 0 probeBlock,
                                groups := s.groups.put 0 (startGroup 0 0 0 256 0 0 1 0), agenda := [.issue 0 0] }
  writeBytes s 0 (Decode.codeBytes ws)

end Sys2Proof.Machine
end

