-- ==== Sys2Proof/Machine/Placing.lean ====
section
/-!
DEFINITION. Placing a group in a slot (R31, R46, R341): free slots, what a slot's former group leaves behind, and the
state that a new group starts with.
-/
namespace Sys2Proof.Machine

/-- A slot of a block in which no group stands, nor, in a checked launch, a shadow (R46, R32). -/
def slotFree (s : State) (gid : Nat) (checked : Bool) : Bool :=
  (s.groups.get? gid).isNone && (!checked || (s.groups.get? (gid + 32)).isNone)

/-- The lowest free slot of a block. -/
def freeSlot (s : State) (b : Block) (checked : Bool) : Option Nat :=
  ((List.range b.nGroups).map (fun i => groupId b.core (b.firstSlot + i))).find? (fun g => slotFree s g checked)

/-- What a slot's former group has left (accesses still on their way, locks not passed on) keeps a name of its own; its
loads, results and threads' sets are gone. -/
def retireSlot (s : State) (gid : Nat) : State :=
  let (n, s) := s.fresh
  let name := deadGid gid n
  let rename (a : Acc) : Acc := if a.gid = some gid then { a with gid := some name, tok := none } else a
  let clear (m : Map (List Nat)) : Map (List Nat) := m.filter (fun p => p.1 / 32 != gid)
  { s with pegs := s.pegs.map (fun p => if p.gid = deadGid gid 0 then { p with gid := name } else p),
           lockReqs := s.lockReqs.map (fun p => if p.2.gid = deadGid gid 0 then (p.1, { p.2 with gid := name }) else p),
           dies := s.dies.map (fun d => (d.1, { d.2 with dirs := d.2.dirs.map (fun k =>
             { k with held := k.held.map (fun x => if x.2 = gid then (x.1, name) else x) }) })),
           accs := (s.accs.filter (fun a => !(a.isLoad && a.gid == some gid))).map rename, toks := s.toks.filter (fun p => p.2.gid != gid), cmps := s.cmps.filter (fun c => c.gid != gid), snaps := s.snaps.filter (fun k => k.gid != gid),
           obs := clear s.obs, seen := clear s.seen, fenced := s.fenced.filter (fun p => p.1 / 32 != gid) }

/-- A group takes a slot. -/
def putGroup (s : State) (gid : Nat) (g : Group) : State :=
  let s := retireSlot s gid
  { s with groups := s.groups.put gid g }

/-- A group takes a slot, with its shadow in a checked launch (R32, R331): both start alike. -/
def placeGroup (s : State) (gid : Nat) (checked : Bool) (g : Group) : State :=
  let s := putGroup s gid g
  if checked then putGroup s (gid + 32) g else s

/-- Argument address, registers and seed of new groups of a block. -/
def blockSeed (b : Block) : Nat := (b.index * 8 + b.stage) % 2 ^ 32

end Sys2Proof.Machine
end

