-- ==== Sys2Proof/Machine/Tasks.lean ====
section
/-!
DEFINITION. Timestamped tasks (R335 to R360): SPAWN, TEND and TABORT, the Truss units' entries, batches and slots, task
groups, and the rounds of the commit frontier.
-/
namespace Sys2Proof.Machine

/-! ### Order -/

def Task.pair (k : Task) : Dword × Dword := (k.ts, k.ident)

/-- A pair as one number, in task order (R337). -/
def pairKey (p : Dword × Dword) : Nat := p.1.toNat * 2 ^ 64 + p.2.toNat

def Task.key (k : Task) : Nat := pairKey k.pair

/-- All ones: no pair. -/
def noPair : Dword × Dword := (BitVec.allOnes 64, BitVec.allOnes 64)

/-! ### SPAWN -/

/-- One lane of a SPAWN: lane, timestamp, its task (0 for none), v0 to v15. -/
abbrev SpawnLane := Nat × Dword × Nat × List Word

/-- Sends one record (R355, R336). -/
def sendRecord (s : State) (gid : Nat) (launch : Nat) (target : CodeAddr) (named : Option Nat) (x : SpawnLane) : State :=
  let (id, s) := s.fresh
  let core := coreOfGroup gid
  let die := named.getD (dieOfGroup gid)
  let k : Task := { ident := 0, ts := x.2.1, pc := target, parent := x.2.2.1,
                    parentIdent := ((s.tasks.get? x.2.2.1).map (·.ident)).getD 0, launch := launch, root := x.2.2.1 == 0,
                    placed := named, die := die, v := x.2.2.2, state := .transit, frontier := false, slot := false, buf := [],
                    reads := [], gid := 0, lane := 0, drain := [] }
  sendEntry { s with tasks := s.tasks.put id k } core gid (.truss die) (.task id)

/-- The lanes of an executing SPAWN. -/
def spawnLanes (c : Ctx) (lanes : LaneMask) (ts : Nat → Nat) : List SpawnLane :=
  (lanesOf lanes).map (fun l =>
    (l, BitVec.ofNat 64 (ts l), c.g.tasks.getD l 0, (List.range 16).map (fun r => c.g.vreg r l)))

/-- A timestamp that R355 refuses in a lane. -/
def badStamp (s : State) (c : Ctx) (l t : Nat) : Bool :=
  match taskOfLane s c.g l with
  | some k => decide (t < k.ts.toNat)
  | none =>
    let f := (s.die (dieOfGroup c.gid)).front
    f != noPair && decide (t < f.1.toNat)

/-- The timestamp of a SPAWN in a lane. -/
def spawnStamp (s : State) (c : Ctx) (a : Src) (l : Nat) : Nat :=
  match a with
  | .v _ => srcLane s c 2 0 a l
  | .sp r => (readSpecial s c r l).toNat
  | _ => srcScalar s c 0 a

/-- The checks of SPAWN (R355), once, before the first record is sent. -/
def spawnChecks (a : Src) (c : Ctx) (s : State) : Option Res :=
  if !c.launch.regroup then some (.fault .accessFault 0 c.act)
  else
    match (if c.g.spawned &&& c.act = 0 then (lanesOf c.act).filter (fun l => badStamp s c l (spawnStamp s c a l)) else []) with
    | l :: t => some (.fault .operandBounds (BitVec.ofNat 64 (spawnStamp s c a l)) (ofLanes (l :: t)))
    | [] => none

/-- SPAWN's own effect (R355): inside a level it is deferred; a root's releases as LAUNCH does, for the whole split (R122). It sends as
many records as R52 lets it and waits with the rest. -/
def spawnAct (a : Src) (target : CodeAddr) (named : Option Nat) (c : Ctx) (s : State) : Res :=
  let ts := spawnStamp s c a
  if 0 < c.blk.levels.length then
    match deferAction s c.g.blk (.spawn c.gid target named (spawnLanes c c.act ts)) with
    | some s => .done s
    | none => shoreFullAction c.act
  else
    let sent := ((s.groups.get? c.gid).map (·.spawned)).getD 0
    let roots := (lanesOf c.act).any (fun l => (taskOfLane s c.g l).isNone)
    if roots ∧ !released s c.gid (splitLanes c.sp) 6 then .wait
    else
      let core := coreOfGroup c.gid
      let todo := lanesOf (c.act &&& ~~~sent)
      let room := 16 - (unacked s core (.truss (named.getD (dieOfGroup c.gid)))).length
      let now := ofLanes (todo.take room)
      let s := forAll (spawnLanes c now ts) s (fun x s => sendRecord s c.gid c.blk.launch target named x)
      if todo.length ≤ room then .done (s.setGroup c.gid (fun g => { g with spawned := g.spawned &&& ~~~c.act }))
      else if now = 0 then .wait
      else .held (s.setGroup c.gid (fun g => { g with spawned := g.spawned ||| now }))

/-- SPAWN (R355, R359). -/
def execSpawn (h : Hdr) (a : Src) (die : Option (BitVec 2)) (off : BitVec 28) (s : State) : Host.Outcome State Fault Refusal :=
  .next (runInstr (.spawn h a die off) false (fun c s =>
    let target (c : Ctx) : CodeAddr := pcOff c.pc off
    let items (c : Ctx) : List Item := (4, 32, (target c).toNat) :: (lanesOf c.act).flatMap (fun l =>
      (4, l, spawnStamp s c a l) :: (List.range 16).map (fun r => (4, l, (c.g.vreg r l).toNat)))
    let checks := spawnChecks a c s
    let act (c : Ctx) (s : State) : Res := spawnAct a (target c) (die.map (·.toNat)) c s
    mirrorFault s c items (checks.getD (.done s)) <|
      match roleOf s c, checks with
      | .shadow, _ =>
        match compare s c (items c) with
        | (s', false) => .held s'
        | (s', true) =>
          -- what the primary presented stands until every record has left
          match act (primaryCtx s c) s' with
          | .held t => .held { t with cmps := s.cmps }
          | r => r
      | _, some r => r
      | _, none => afterCompare s c 4 (items c) [] id act) s)

/-! ### TEND and TABORT -/

/-- The checks of TEND (R356, R335). -/
def tendChecks (c : Ctx) : Option Res :=
  let threads := lanesWhere c.act (fun l => (c.g.tasks.get? l).isNone)
  if 0 < c.blk.levels.length then some (.fault .nesting 0 c.act)
  else if threads ≠ 0 ∧ !c.launch.regroup then some (.fault .accessFault 0 threads)
  else none

/-- The checks of TABORT (R357). -/
def tabortChecks (c : Ctx) : Option Res :=
  if 0 < c.blk.levels.length ∨ (lanesOf c.act).any (fun l => (c.g.tasks.get? l).isNone) then some (.fault .nesting 0 c.act) else none

/-- TEND and TABORT, after their checks (R229, R359). -/
def endBody (checks : Ctx → Option Res) (last : Park) (act : Ctx → State → State) (c : Ctx) (s : State) : Res :=
  mirrorFault s c (fun c => [(4, 32, c.act.toNat)]) ((checks c).getD (.done s)) <|
    match roleOf s c, checks c with
    | .shadow, _ | _, none => endLanesOnce s c [(4, 32, c.act.toNat)] last act
    | _, some r => r

/-- TEND (R356, R335, R229). -/
def execTend (h : Hdr) (s : State) : Host.Outcome State Fault Refusal :=
  .next (runInstr (.tend h) false (endBody tendChecks .tend (fun c s => endTasks s c.gid c.g c.act)) s)

/-- TABORT (R357). -/
def execTabort (h : Hdr) (s : State) : Host.Outcome State Fault Refusal :=
  .next (runInstr (.tabort h) false (endBody tabortChecks .tabort (fun c s => abandonTasks s c.gid c.g c.act)) s)

/-! ### Truss units -/

/-- Entries in use (R338). -/
def entriesOf (s : State) (die : Nat) : Nat := (s.tasks.filter (fun p => p.2.die == die && p.2.state != .transit)).length

/-- Tasks of a die that satisfy a predicate, in task order. -/
def tasksWhere (s : State) (p : Task → Bool) : List (Nat × Task) :=
  sortBy (fun a b => decide (a.2.key ≤ b.2.key)) (s.tasks.filter (fun x => p x.2))

def queuedTasks (s : State) (die : Nat) : List (Nat × Task) := tasksWhere s (fun k => k.die == die && k.state == .queued)

/-- The task that a refusal aborts (R338): the latest speculative task of the die with a descendant that holds an entry. -/
def refusalVictim (s : State) (die : Nat) : Option Nat :=
  let frees (t : Nat) : Bool := (descendants s s.tasks.length t).any (fun d =>
    (s.tasks.get? d).elim false (fun k => k.die == die && k.state != .transit))
  let cand := (tasksWhere s (fun k => k.die == die && !k.frontier && k.state != .transit)).filter (fun p => frees p.1)
  (cand.getLast?).map (·.1)

/-- TASK_RECORD_ACCEPT (R337, R338). -/
def execTaskRecordAccept (entry : Nat) (s : State) : Host.Outcome State Fault Refusal :=
  .next (
    match s.entry? entry with
    | none => s
    | some e =>
      match e.payload, e.dest with
      | .task t, .truss d =>
        let die := s.die d
        if !entryDue s e ∨ !die.awake then s
        else if 65536 ≤ entriesOf s d then
          let s := refuseEntry s e
          match refusalVictim s d with
          | some v => abortTask s v
          | none => s
        else
          let seq := if die.acceptTick = die.time then die.acceptSeq + 1 else 1
          if 16 < seq then s
          else
            let s := s.setDie d (fun k => { k with acceptTick := k.time, acceptSeq := seq })
            let ident := BitVec.ofNat 64 (die.time % 2 ^ 56 * 256 + d * 64 + seq)
            setEntry (s.setTask t (fun k => { k with ident := ident, state := .queued })) entry .accepted
      | _, _ => s)

/-! ### Dispatch -/

/-- Slots in use on a die (R339). -/
def slotHolders (s : State) (die : Nat) : List (Nat × Task) := tasksWhere s (fun k => k.die == die && k.slot)

/-- A serving block of a launch on a core. -/
def servingOn (s : State) (core launch : Nat) : List (Nat × Block) :=
  s.blocks.filter (fun p => p.2.core == core && p.2.launch == launch && p.2.serving && !p.2.sealed && p.2.terminated.isNone
    && p.2.stop.isNone && p.2.failing.isNone)

/-- The core that a batch of a launch goes to (R341). -/
def batchCore (s : State) (die launch : Nat) : Option Nat :=
  leastBy (fun c => (s.core c).prefetch.length)
    (((List.range 64).map (die * 64 + ·)).filter (fun c => !(servingOn s c launch).isEmpty && decide ((s.core c).prefetch.length < 2)))

/-- The tasks of the next batch of a die, lowest first (R340). -/
def nextBatch (s : State) (die : Nat) : List (Nat × Task) :=
  match queuedTasks s die with
  | [] => []
  | h :: t =>
    if h.2.frontier then [h]
    else h :: ((t.take 63).filter (fun p => p.2.launch == h.2.launch && p.2.pc == h.2.pc && !p.2.frontier)).take 31

/-- Room for the head of the queue: a slot is free, or the latest holder is aborted (R339). -/
def makeSlot (s : State) (die : Nat) (head : Task) : Option State :=
  if (slotHolders s die).length < 4096 then some s
  else
    match ((slotHolders s die).filter (fun p => !p.2.frontier)).getLast? with
    | some v => if head.key < v.2.key ∨ head.frontier then some (abortTask s v.1) else none
    | none => none

/-- TASK_BATCH_DISPATCH (R340, R341, R339). -/
def execTaskBatchDispatch (die core : Nat) (s : State) : Host.Outcome State Fault Refusal :=
  .next (
    match nextBatch s die with
    | [] => s
    | (t0, k0) :: _ =>
      if !(s.die die).awake ∨ batchCore s die k0.launch ≠ some core then s
      else
        match makeSlot s die k0 with
        | none => s
        | some s =>
          let room := 4096 - (slotHolders s die).length
          let ts := ((nextBatch s die).map (·.1)).take room
          if ts.head? ≠ some t0 then s
          else
            let s := forAll ts s (fun t s => s.setTask t (fun k => { k with state := .prefetched, slot := true }))
            s.setCore core (fun c => { c with prefetch := c.prefetch ++ [⟨k0.launch, k0.pc, ts⟩] }))

/-- A formed task group (R342). -/
def taskGroup (s : State) (blk : Nat) (b : Block) (l : Launch) (gid : Nat) (pc : CodeAddr) (ts : List (Nat × Task)) (uid : Nat) : Group :=
  let em := ofLanes (List.range ts.length)
  let g := startGroup blk (slotOf gid - b.firstSlot) s.clk l.regs uid pc em l.arg
  let v := (ts.mapIdx (fun i t => (t.2.v.mapIdx (fun r w => (r * 32 + i, w))))).flatten
  { g with v := v.foldl (fun m x => Map.putD m 0 x.1 x.2) [],
           gen := ts.mapIdx (fun i t => (i, seed ((t.2.ts.toNat % 2 ^ 32) ^^^ (t.2.ts.toNat / 2 ^ 32)) 0)),
           tasks := ts.mapIdx (fun i t => (i, t.1)), taskGroup := true }

/-- The serving block of a launch on a core, and its slot, that a batch takes (R341): the lowest free slot. -/
def batchSlot (s : State) (core launch : Nat) (checked : Bool) : Option (Nat × Block × Nat) :=
  leastBy (fun x => x.2.2) ((servingOn s core launch).filterMap (fun p => (freeSlot s p.2 checked).map (fun g => (p.1, p.2, g))))

/-- TASK_GROUP_FORM (R341, R342). -/
def execTaskGroupForm (core : Nat) (s : State) : Host.Outcome State Fault Refusal :=
  .next (
    match (s.core core).prefetch with
    | [] => s
    | b :: rest =>
      match s.launches.get? b.launch with
      | none => s
      | some l =>
        match batchSlot s core b.launch l.checked with
        | none => s
        | some (blk, k, gid) =>
          let ts := b.tasks.filterMap (fun t => (s.tasks.get? t).map (fun x => (t, x)))
          let (uid, s) := s.fresh
          let s := placeGroup s gid l.checked (taskGroup s blk k l gid b.pc ts uid)
          let s := forAll (ts.mapIdx (fun i t => (i, t.1))) s (fun x s =>
            s.setTask x.2 (fun t => { t with state := .running, gid := gid, lane := x.1 }))
          s.setCore core (fun c => { c with prefetch := rest }))

/-! ### The frontier -/

/-- Unfinished (R346). -/
def Task.unfinished (k : Task) : Bool :=
  match k.state with
  | .finished => false
  | _ => true

/-- The minimum that a die reports (R346): its unfinished tasks, and the records that its cores have sent. -/
def dieMinimum (s : State) (die : Nat) : Dword × Dword :=
  let held := (s.tasks.filter (fun p => p.2.die == die && p.2.state != .transit && p.2.unfinished)).map (·.2.pair)
  let sent := s.queue.filterMap (fun e =>
    match e.payload with
    | .task t => if dieOfCore e.core = die then (s.tasks.get? t).map (·.pair) else none
    | _ => none)
  (leastBy pairKey (held ++ sent)).getD noPair

/-- FRONTIER_ROUND (R347): at multiples of 64. The tasks of the round are those below G. -/
def execFrontierRound (s : State) : Host.Outcome State Fault Refusal :=
  .next (
    let now := (s.die 0).time
    if now % 64 ≠ 0 ∨ s.round = now / 64 + 1 then s
    else
      let g := (leastBy pairKey ((List.range 4).map (dieMinimum s))).getD noPair
      let below := tasksWhere s (fun k => k.state == .finished && decide (k.key < pairKey g))
      { s with round := now / 64 + 1, roundG := g, roundTasks := below.map (·.1) })

/-- The lines of a task's buffered writes. -/
def bufLines (k : Task) : List Nat := (k.buf.map (fun p => p.1 / 128)).eraseDups

/-- A committing task's writes may be applied (R360, R161). -/
def mayCommit (s : State) (t : Nat) (k : Task) : Bool :=
  s.accs.all (fun a => a.task != some t && !k.drain.contains a.id)
    && (bufLines k).all (fun l =>
        let a := agentAcc k.die none none none .store (l * 128) (l * 128) 128 0 []
        leasesPassed s (l * 128) 128 && !heldAtHome s a && (lockHolder s l).isNone
          && !s.accs.any (fun w => w.stage == .arrived && w.writesBytes && (linesOf w.pa w.size).contains l))

/-- A commit (R348): the buffered bytes are applied, and the slot and the entry are free. -/
def commitTask (s : State) (t : Nat) (k : Task) : State :=
  let put (s : State) (p : Nat × Byte) : State :=
    let (b, s) := spoil s p.1 [p.2]
    setCarry (overwrite s p.1 b) p.1 1 []
  let s := k.buf.foldl put s
  let s := (bufLines k).foldl (fun s l => noteStore s (l * 128) 128 false) s
  let s := { s with tasks := s.tasks.del t }
  let sectors := (k.buf.map (fun p => p.1 / 32)).eraseDups
  sectors.foldl (fun s q => sectorConflicts s (some (k.launch, k.pair)) (q * 32) 32) s

/-- A die commits its tasks of the round as their turns come; a task of the round that is no longer finished ends it. -/
def commitTurns : Nat → State → Nat → State
  | 0, s, _ => s
  | n + 1, s, die =>
    match s.roundTasks with
    | [] => s
    | t :: rest =>
      match s.tasks.get? t with
      | none => { s with roundTasks := [] }
      | some k =>
        if k.state ≠ .finished then { s with roundTasks := [] }
        else if k.die ≠ die then s
        else if !mayCommit s t k then (bufLines k).foldl (fun s l => sendProbes s (l * 128) 128) s
        else
          commitTurns n (commitTask { s with roundTasks := rest } t k) die

/-- A marked task that has become the frontier pair is aborted, to be dispatched in frontier mode (R350, R339): every lower task has
committed, none of them aborted in the round (R347, R348). -/
def enterFrontier (s : State) (die : Nat) : State :=
  match s.tasks.find? (fun p => p.2.die == die && p.2.state == .marked && p.2.pair == s.roundG
      && s.tasks.all (fun q => decide (p.2.key ≤ q.2.key))) with
  | some (t, _) => (abortTask s t).setTask t (fun k => { k with frontier := true })
  | none => s

/-- FRONTIER_RECEIVE (R347, R348): the die has the round's G; it commits what lies below, and then what is the frontier pair may enter
frontier mode. -/
def execFrontierReceive (die : Nat) (s : State) : Host.Outcome State Fault Refusal :=
  .next (
    if 4 ≤ die ∨ !(s.die die).awake ∨ s.round = 0 then s
    else
      let s := if (s.die die).round ≠ s.round then s.setDie die (fun d => { d with front := s.roundG, round := s.round }) else s
      enterFrontier (commitTurns s.roundTasks.length s die) die)

end Sys2Proof.Machine
end

