-- ==== Sys2Proof/Machine/Recovery.lean ====
section
/-!
DEFINITION. Recovery blocks (R304 to R330, R402): their instructions, failure and rollback, the outermost accept with its
deferred actions, and conversations; and the limit on a pair's comparison (R333).
-/
namespace Sys2Proof.Machine

/-! ### Instructions -/

/-- The check of a conversation word (R325): its physical address. -/
def convCheck (s : State) (c : Ctx) (va : Nat) : (Res ⊕ Nat) × State :=
  if va % 8 ≠ 0 then (.inl (.fault .misaligned (BitVec.ofNat 64 va) c.em), s)
  else
    match translate s (dieOfGroup c.gid) c.launch.pasid Need.both va with
    | (.access, s) => (.inl (.fault .accessFault (BitVec.ofNat 64 va) c.em), s)
    | (.page i st, s) => (.inl (.held (pageFault s c va i (2 + if st then 1 else 0) c.em)), s)
    | (.ok pa _, s) =>
      let n := (readConv s pa).expected
      if heldAtHome s (agentAcc (dieOfGroup c.gid) none (some c.g.blk) none .load pa pa 8 0 []) then (.inl .wait, s)
      else if (s.line (pa / 128)).poison then (.inl (.fault .eccUncorr (BitVec.ofNat 64 (pa - pa % 128)) c.em), s)
      else if n < 2 ∨ 8 < n then (.inl (.fault .operandBounds (BitVec.ofNat 64 n) c.em), s)
      else (.inr pa, s)

/-- The block is a member of a word's conversation: until it has accepted, where all accept together. -/
def isMember (s : State) (blk word : Nat) : Bool :=
  s.convs.any (fun c => c.word == word && c.members.contains blk && c.closing.elim true (·.contains blk))

/-- A conversation word that CONV or ENSURE names (R325): its physical address, if the block may join there. -/
def joinCheck (s : State) (c : Ctx) (va : Nat) : Res ⊕ Nat :=
  match (convCheck s c va).1 with
  | .inl r => .inl r
  | .inr pa => if isMember s c.g.blk pa then .inl (.fault .nesting 0 c.em) else .inr pa

/-- The word of a conversation that CONVX names. -/
def leaveCheck (s : State) (c : Ctx) (va : Nat) : Res ⊕ Nat :=
  match (convCheck s c va).1 with
  | .inl r => .inl r
  | .inr pa => if isMember s c.g.blk pa then .inr pa else .inl (.fault .nesting 0 c.em)

/-- An instruction of R304 to R330 whose checks come before its gathering or its effect; a shadow gathers with its primary. -/
def checkedBody (items : Ctx → List Item) (checks : Res ⊕ GatherKind) (alike : GatherKind) (c : Ctx) (s : State) : Res :=
  mirrorFault s c items (match checks with | .inl r => r | .inr k => gatherBody k c s) <|
    if roleOf s c = .shadow then gatherBody alike c s
    else
      match checks with
      | .inl r => r
      | .inr k => gatherBody k c s

/-- The checks of ENSURE (R308, R305, R325). -/
def ensureChecks (n1 : BitVec 3) (a : BitVec 6) (b : Base) (first test : BitVec 16) (c : Ctx) (s : State) : Res ⊕ GatherKind :=
  let limit := (c.g.sreg a.toNat).toNat
  let kind (conv : Option Nat) : GatherKind := .ensure (n1.toNat + 1) limit conv first.toNat (pcOff c.pc test)
  if c.blk.levels.length = 4 then .inl (.fault .nesting 0 c.em)
  else if anySpec s c.g c.em then .inl (.fault .nesting 0 (lanesWhere c.em (laneSpec s c.g)))
  else if limit = 0 ∨ 2 ^ 32 ≤ limit then .inl (.fault .operandBounds (BitVec.ofNat 64 limit) c.em)
  else
    match b with
    | .s r =>
      match joinCheck s c (c.g.sreg r.toNat).toNat with
      | .inl r => .inl r
      | .inr pa => .inr (kind (some pa))
    | _ => .inr (kind none)

/-- ENSURE (R308). -/
def execEnsure (h : Hdr) (n1 : BitVec 3) (a : BitVec 6) (b : Base) (first test : BitVec 16) (s : State) :
    Host.Outcome State Fault Refusal :=
  .next (runInstr (.ensure h n1 a b first test) true (fun c s =>
    let conv (c : Ctx) : Nat := match b with | .s r => (c.g.sreg r.toNat).toNat | _ => 0
    checkedBody (fun c => [(0, 32, (c.g.sreg a.toNat).toNat), (0, 32, conv c)]) (ensureChecks n1 a b first test c s)
      (.ensure (n1.toNat + 1) 0 none first.toNat (pcOff c.pc test)) c s) s)

/-- A marker that a split reaches in normal flow (R310). -/
def markerBody (c : Ctx) (s : State) : Res :=
  let own : Res := match c.blk.top with
    | none => .fault .nesting 0 c.em
    | some l => .jump (setSplit s c.gid c.si (fun q => { q with pc := l.test }))
  mirrorFault s c (fun _ => []) own own

/-- ELSEBY (R310). -/
def execElseby (h : Hdr) (off : BitVec 24) (s : State) : Host.Outcome State Fault Refusal :=
  .next (runInstr (.elseby h off) true markerBody s)

/-- ELSEERR (R310). -/
def execElseerr (h : Hdr) (s : State) : Host.Outcome State Fault Refusal := .next (runInstr (.elseerr h) true markerBody s)

/-- ACCEPT (R311). -/
def execAccept (h : Hdr) (s : State) : Host.Outcome State Fault Refusal :=
  .next (runInstr (.accept h) true (fun c s =>
    let own : Res := if c.blk.levels.isEmpty then .fault .nesting 0 c.em else gatherBody .accept c s
    mirrorFault s c (fun _ => []) own own) s)

/-- REJECT (R312). -/
def execReject (h : Hdr) (a : Src) (s : State) : Host.Outcome State Fault Refusal :=
  .next (runInstr (.reject h a) false (fun c s =>
    let own : Res :=
      if c.blk.levels.isEmpty then .fault .nesting 0 c.act
      else if roleOf s c = .shadow then .done s
      else .jump (failLevel s c.g.blk c.blk.levels.length false 0 (BitVec.ofNat 64 (srcScalar s c 0 a)) c.pc c.g.index)
    mirrorFault s c (fun _ => []) own own) s)

/-- The checks of CONV (R325). -/
def convChecks (a : BitVec 6) (c : Ctx) (s : State) : Res ⊕ GatherKind :=
  if anySpec s c.g c.em then .inl (.fault .nesting 0 (lanesWhere c.em (laneSpec s c.g)))
  else if c.blk.levels.isEmpty ∨ (c.blk.top.map (fun l => l.conv.isSome)).getD false then .inl (.fault .nesting 0 c.em)
  else
    match joinCheck s c (c.g.sreg a.toNat).toNat with
    | .inl r => .inl r
    | .inr pa => .inr (.conv pa)

/-- CONV (R325). -/
def execConv (h : Hdr) (a : BitVec 6) (s : State) : Host.Outcome State Fault Refusal :=
  .next (runInstr (.conv h a) true (fun c s =>
    checkedBody (fun c => [(0, 32, (c.g.sreg a.toNat).toNat)]) (convChecks a c s) (.conv 0) c s) s)

/-- The checks of CONVX (R325). -/
def convxChecks (a : BitVec 6) (c : Ctx) (s : State) : Res ⊕ GatherKind :=
  match leaveCheck s c (c.g.sreg a.toNat).toNat with
  | .inl r => .inl r
  | .inr pa => .inr (.convx pa)

/-- CONVX (R325). -/
def execConvx (h : Hdr) (a : BitVec 6) (s : State) : Host.Outcome State Fault Refusal :=
  .next (runInstr (.convx h a) true (fun c s =>
    checkedBody (fun c => [(0, 32, (c.g.sreg a.toNat).toNat)]) (convxChecks a c s) (.convx 0) c s) s)

/-! ### Rollback (R314) -/

/-- The block's groups abandon their lock waits, and what a pair has not compared never takes place. A request that holds its line stays
until the line is handed on. -/
def abandonWaits (s : State) (blk : Nat) : State :=
  let gids := (groupsOf s blk).map (·.1)
  let reqs := (s.lockReqs.filter (fun p => gids.contains p.2.gid)).map (·.1)
  let due (req : Nat) : Bool := s.pegs.any (fun p => p.req == req && p.holds)
  let open_ (gid n : Nat) : Bool := gids.contains gid && s.cmps.any (fun c => c.gid == gid && c.n == n)
  let lost := (s.toks.filter (fun p => open_ p.2.gid p.2.n)).map (·.1)
  { s with lockReqs := s.lockReqs.filter (fun p => !reqs.contains p.1 || due p.1),
           pegs := s.pegs.filter (fun p => p.holds || !reqs.contains p.req),
           queue := s.queue.filter (fun e => !reqs.any (fun r => e.payload == .lock r)),
           accs := s.accs.filter (fun a => !(a.cmp.isSome && a.gid.elim false gids.contains)),
           toks := s.toks.filter (fun p => !lost.contains p.1),
           cmps := s.cmps.filter (fun c => !gids.contains c.gid),
           snaps := s.snaps.filter (fun k => !gids.contains k.gid),
           groups := s.groups.map (fun p =>
             if p.2.blk = blk then
               (p.1, { p.2 with results := [], sampled := [], pend := p.2.pend.filter (fun q => !reqs.contains q.tok && !lost.contains q.tok) })
             else p) }

/-- Commands of the failed levels that a guard slot still holds are discarded first, and their ranges retired (R260, R314). -/
def dropHeld (s : State) (blk d : Nat) : State :=
  let held := s.cmds.filter (fun p => p.2.blk == blk && decide (d ≤ p.2.depth) && p.2.state == .queued && gateOf s p.2 == .hold)
  forAll held s (fun p s =>
    let matrix := match p.2.kind with | .copy .. | .cdone .. => false | _ => true
    discardQueued (setQueue s p.2.core matrix ((queueOf s p.2.core matrix).filter (· != p.1))) p.1 p.2)

/-- Lines that the levels from d on restore. -/
def failedLines (b : Block) (d : Nat) : List Nat := (b.levels.drop (d - 1)).flatMap (fun l => l.lines.map (·.1))

/-- The conversation words that a rollback of the levels from d on may write. -/
def failedConvs (b : Block) (d : Nat) : List Nat := (b.levels.drop (d - 1)).filterMap (·.conv)

/-- Results are written, commands have ended, writes are applied, and the lines and the conversation words may be written (R314). -/
def rollbackReady (s : State) (blk d : Nat) (b : Block) : Bool :=
  (groupsOf s blk).all (fun p => p.2.pend.isEmpty)
    && s.cmds.all (fun p => !(p.2.blk == blk && decide (d ≤ p.2.depth)) || p.2.state == .ended)
    && s.accs.all (fun a => !(a.blk == some blk && decide (d ≤ a.depth) && a.writesBytes))
    && (failedLines b d).all (fun l => leasesPassed s (l * 128) 128) && (failedConvs b d).all (convReady s blk)

/-- The prior value of a shored scratch word: of a barrier word, less the bytes credited since (R318). -/
def priorWord (b : Block) (l : Level) (word old : Nat) : Nat :=
  let off := (windowOf (word * 4)).off - b.scratchBase
  if off / 8 < 16 ∧ off % 8 = 0 then
    old / 2 ^ 24 * 2 ^ 24 + truncInt ((old % 2 ^ 24 : Nat) - ((l.credits.getD (word / 2) 0 : Nat) : Int)) 24
  else old

/-- Restores the entries of one level (R317, R318). -/
def restoreLevel (s : State) (blk : Nat) (b : Block) (l : Level) : State :=
  let s := l.regs.foldl (fun s p => s.setGroup (p.1 / 256) (fun g =>
    { g with v := (p.2.old.mapIdx (fun i x => (i, x))).foldl (fun v x => Map.putD v 0 (p.1 % 256 * 32 + x.1) (BitVec.ofNat 32 x.2)) g.v })) s
  let s := l.words.foldl (fun s p => putApplied s none (p.1 * 4) (leBytes 4 (priorWord b l p.1 (p.2.old.headD 0))) [] false) s
  let idx := (l.words.map (fun p => ((windowOf (p.1 * 4)).off - b.scratchBase) / 8)).filter (· < 16)
  let old (m : Map BarState) (i : Nat) : Map BarState :=
    match l.bars.get? i with
    | some (some x) => m.put i x
    | _ => m.del i
  let s := s.setBlock blk (fun b => { b with bars := idx.foldl old b.bars })
  l.lines.foldl (fun s p => putApplied s none (p.1 * 128) (p.2.old.map (BitVec.ofNat 8)) [] false) s

/-- A block's claim on a line is older than another's. -/
def claimedFirst (s : State) (line a b : Nat) : Bool :=
  (s.claims.find? (fun c => c.line == line && (c.blk == a || c.blk == b))).elim false (fun c => c.blk == a)

/-- The entries of a restored line that other members of the block's conversations made later hold what a rejected level wrote: they take
the restored value, so that whichever member rolls back last, the line is as it was before the first claim (R323, R326, log 147). -/
def passPrior (s : State) (blk d : Nat) (b : Block) : State :=
  let others := (s.convs.filter (fun c => c.members.contains blk)).flatMap (·.members) |>.filter (· != blk)
  forAll (failedLines b d).eraseDups s (fun line s =>
    let now := (readBytes s (line * 128) 128).map (·.toNat)
    let take (l : Level) : Level := { l with lines := l.lines.modify line (fun e => { e with old := now }) }
    forAll (others.filter (claimedFirst s line blk)) s (fun o s => s.setBlock o (fun k => { k with levels := k.levels.map take })))

/-- A group starts again from its recovery record, with one split at a PC (R309, R314). -/
def restart (g : Group) (r : RecoveryRecord) (uid : Nat) (pc : CodeAddr) (stopped : Bool) : Group :=
  let sp : Split := { uid := uid, pc := pc, em := r.em, members := r.em, stallUntil := 0, yieldAt := none, readySince := none,
                      park := none, tag := [], stack := [], parts := [], hold := [], woke := none }
  { g with s := r.s, cm := r.cm, fflags := r.fflags, frm := r.frm, sbchk := r.sbchk, backoff := r.backoff, tvec := r.tvec, xv := r.xv,
           gen := r.gen, splits := [(0, sp)], inflight := [], pend := [], handler := false, held := [], entry := none, results := [],
           sampled := [], faultWait := none, desched := none, npeOver := none, spawned := 0, stopped := stopped }

/-- Every group of the level at a PC, as recorded; a shadow is level with its primary. -/
def restartAll (s : State) (rs : List RecoveryRecord) (pc : CodeAddr) (stopped : Bool) : State :=
  let s := forAll rs s (fun r s =>
    let (u, s) := s.fresh
    s.setGroup r.gid (fun g => restart g r u pc stopped))
  forAll rs s (fun r s =>
    match s.groups.get? r.gid with
    | some g =>
      if isPrimary s r.gid g then s.setGroup (r.gid + 32) (fun h => { h with issued := g.issued, issueLog := g.issueLog }) else s
    | none => s)

/-- After a rollback a stop that waits for the block stands as before: it holds every group but those whose window is open (R288). -/
def stopAgain (s : State) (blk : Nat) (b : Block) : State :=
  { s with groups := s.groups.map (fun p =>
      if p.2.blk = blk then (p.1, { p.2 with stopped := b.stop.isSome && p.2.npe.isNone && !isShadow s p.1 p.2 }) else p) }

/-- What the end marker of the current alternate says (R314): the offset of an ELSEBY, or the end, with the cause and value
that replace the failure's. -/
def nextMarker (s : State) (die : Nat) (l : Launch) (m : CodeAddr) : (Nat ⊕ Option (Cause × Dword)) × State :=
  match fetchDecode s die l m with
  | (.instr (.elseby _ off), s) => (.inl off.toNat, s)
  | (.instr (.elseerr _), s) => (.inr none, s)
  | (.page va _ _, s) => (.inr (some (.pageFault, BitVec.ofNat 64 va)), s)
  | (.access va, s) => (.inr (some (.accessFault, BitVec.ofNat 64 va)), s)
  | (.poison pa, s) => (.inr (some (.eccUncorr, BitVec.ofNat 64 pa)), s)
  | (_, s) => (.inr (some (.nesting, 0)), s)

/-- The level of a block that belongs to a conversation. -/
def convLevel (b : Block) (word : Nat) : Option Nat :=
  ((b.levels.mapIdx (fun i l => (i + 1, l.conv))).find? (fun x => x.2 == some word)).map (·.1)

/-- The PC at which a block's first group stands. -/
def blockPc (s : State) (blk : Nat) : CodeAddr :=
  (((groupsOf s blk).head?).bind (fun p => (p.2.splits.head?).map (·.2.pc))).getD 0

/-- Another member's failure makes a block roll its conversation level back (R326); a rollback of an inner level under way
goes on to that level. -/
def failMember (s : State) (word blk : Nat) (code : BitVec 8) (value : Dword) : State :=
  match s.blocks.get? blk with
  | none => s
  | some b =>
    match convLevel b word with
    | none => s
    | some j =>
      match b.failing with
      | some f =>
        if j < f.level then s.setBlock blk (fun b => { b with failing := some { f with level := j, code := code, value := value } }) else s
      | none => failLevel s blk j false code value (blockPc s blk) 0

/-- A block whose conversation level has been restored reports it (R314, R326): a failure that no other member's made it roll back for
makes every other member roll back. -/
def reportConv (s : State) (word blk : Nat) (code : BitVec 8) (value : Dword) : State :=
  let ordered := s.convs.any (fun c => c.word == word && c.rolling.contains blk)
  let state := (readConv s word).state
  if state = 3 ∧ ordered then convRestored s word blk
  else if state = 2 ∨ state = 3 then
    let others := ((s.convs.filter (fun c => c.word == word)).flatMap (·.members)).filter (· != blk)
    let s := updateConv s word (fun w => { w with state := 3, accepted := 0, round := min 255 (w.round + 1) })
    let s := setConv s word (fun c => { c with accepted := [], rolling := others })
    convRestored (forAll others s (fun o s => failMember s word o code value)) word blk
  else s

/-- A level starts its next alternate (R314, R316). -/
def Level.again (l : Level) (marker : CodeAddr) (conv : Option Nat) : Level :=
  { l with k := l.k + 1, marker := marker, clock := 0, conv := conv, joining := false, accepting := false, coupled := false, regs := [],
           words := [], credits := [], bars := [], lines := [], reserved := (0, 0), actions := [], actionSpill := 0, locks := [] }

/-- Lines that a group has taken since level d began: those noted in the levels, and those held by requests still to be answered. -/
def failedLocks (s : State) (blk d : Nat) (b : Block) : List (Nat × Nat) :=
  let gids := (groupsOf s blk).map (·.1)
  (b.levels.drop (d - 1)).flatMap (·.locks)
    ++ (s.lockReqs.filter (fun p => gids.contains p.2.gid && s.pegs.any (fun q => q.req == p.1 && q.holds))).map (fun p => (p.2.gid, p.2.line))

/-- Restores levels e down to d of a block (R314): entries, then claims, locks and actions. -/
def undoLevels (s : State) (blk d : Nat) (b : Block) : State :=
  let s := (b.levels.drop (d - 1)).reverse.foldl (fun s l => restoreLevel s blk b l) s
  let s := passPrior s blk d b
  let s := { s with claims := s.claims.filter (fun c => !(c.blk == blk && decide (d ≤ c.level))) }
  forAll (failedLocks s blk d b) s (fun p s => if holdsLine s p.1 p.2 then handOver s p.2 false [] else s)

/-- Conversations after a restore: levels above d leave theirs, level d reports, and a gathering conversation is left. The
conversation that level d still belongs to. -/
def settleConvs (s : State) (blk d : Nat) (b : Block) (f : Failure) : Option Nat × State :=
  let s := forAll ((b.levels.drop d).filterMap (·.conv)) s (fun w s =>
    if isMember s blk w then leaveConv (reportConv s w blk f.code f.value) w blk else s)
  match (b.levels[d - 1]?).bind (·.conv) with
  | none => (none, s)
  | some w =>
    if !isMember s blk w then (none, s)
    else if (readConv s w).state = 1 then (none, leaveConv s w blk)
    else (some w, reportConv s w blk f.code f.value)

/-- The rest of Fail once everything has been restored (R314): the next alternate, or exhaustion. -/
def goOn (s : State) (blk : Nat) (b : Block) (f : Failure) (l : Level) (conv : Option Nat) : State :=
  let d := f.level
  let (m, s) := match s.launchOf b with
    | some la => nextMarker s (dieOfCore b.core) la l.marker
    | none => (.inr none, s)
  let note (code : BitVec 8) (value : Dword) (s : State) : State := forAll l.records s (fun r s =>
    s.setGroup r.gid (fun g => { g with causeEngine := f.engine, cause := code, eval := value, epc := f.pc }))
  let keep (s : State) : State := { s with groups := s.groups.map (fun p =>
    if p.2.blk = blk then
      (p.1, { p.2 with fails := p.2.fails.filter (fun x => (s.cmds.get? x.cmd).elim true (fun k => decide (k.depth < d))) })
    else p) }
  let s := note f.code f.value s
  match m, decide (l.k < l.n) with
  | .inl off, true =>
    let s := s.setBlock blk (fun b => { b with failing := none, levels := b.levels.take (d - 1) ++ [l.again (pcPlus l.marker off) conv] })
    stopAgain (restartAll (keep s) l.records (l.marker + 3) false) blk b
  | m, _ =>
    let (code, value) := match m with
      | .inr (some x) => (x.1.code, x.2)
      | _ => (f.code, f.value)
    let s := match conv with
      | some w => leaveConv s w blk
      | none => s
    if 1 < d then
      let s := s.setBlock blk (fun b =>
        { b with failing := some { f with level := d - 1, code := code, value := value }, levels := b.levels.take (d - 1) })
      restartAll s l.records l.pc true
    else
      let s := s.setBlock blk (fun b => { b with failing := none, levels := [] })
      let s := stopAgain (restartAll (keep s) l.records l.pc false) blk b
      forAll l.records s (fun r s =>
        match s.groups.get? r.gid with
        | some g => if isShadow s r.gid g then s else takeFaultAt s r.gid 0 false .ensureExhausted (code.setWidth 64) r.em
        | none => s)

/-- ROLLBACK_RESTORE (R314): what has to end ends, and once it has, the levels are restored and the block goes on. -/
def execRollbackRestore (blk : Nat) (s : State) : Host.Outcome State Fault Refusal :=
  .next (
    match s.blocks.get? blk with
    | none => s
    | some b =>
      match b.failing with
      | none => s
      | some f =>
        if b.sealed ∨ b.terminated.isSome then s
        else
          let s := dropHeld (abandonWaits s blk) blk f.level
          if !rollbackReady s blk f.level b then
            forAll (failedConvs b f.level) ((failedLines b f.level).foldl (fun s l => sendProbes s (l * 128) 128) s) (fun w s => sendProbes s w 8)
          else
            match b.levels[f.level - 1]? with
            | none => s.setBlock blk (fun b => { b with failing := none })
            | some l =>
              let s := undoLevels s blk f.level b
              let (conv, s) := settleConvs s blk f.level b f
              goOn s blk b f l conv)

/-- LEVEL_CLOCK_LIMIT (R313, R316). Levels are numbered from 1. -/
def execLevelClockLimit (blk level : Nat) (s : State) : Host.Outcome State Fault Refusal :=
  .next (
    match s.blocks.get? blk with
    | none => s
    | some b =>
      match b.levels[level - 1]? with
      | none => s
      | some l =>
        if level = 0 ∨ b.sealed ∨ b.terminated.isSome ∨ b.failing.isSome ∨ l.clock < l.limit ∨ l.accepting ∧ l.conv.isNone then s
        else failLevel s blk level false Cause.ensureLimit.code (BitVec.ofNat 64 l.limit) (blockPc s blk) 0)

/-! ### Accept (R311, R323, R327) -/

/-- A command will still write without waiting on a guard slot: it runs, or it is queued and neither it nor any before it in
its queue is held. -/
def stillMoves (s : State) (id : Nat) (k : Cmd) : Bool :=
  match k.state with
  | .running => true
  | .queued =>
    let q := queueOf s k.core (match k.kind with | .copy .. | .cdone .. => false | _ => true)
    (q.takeWhile (· != id) ++ [id]).all (fun i => (s.cmds.get? i).elim true (fun x => gateOf s x == .go))
  | _ => false

/-- Performs one deferred action (R327). -/
def perform (s : State) (blk launch : Nat) (a : Action) : State :=
  match a with
  | .unlock gid line =>
    match s.groups.get? gid with
    | some g => (issueAcc s (unlockAcc gid blk g.issued (groupLanes g) line (line * 128) none)).2
    | none => s
  | .cdone id =>
    match s.cmds.get? id with
    | some k => setQueue (s.setCmd id (fun k => { k with state := .queued, depth := 0 })) k.core false (queueOf s k.core false ++ [id])
    | none => s
  | .word id =>
    completeWord (s.setCmd id (fun k =>
      { k with depth := 0, released := true, state := if k.state = .ended ∧ !k.discarded then .running else k.state })) id
  | .xcnt gid header incs =>
    match s.groups.get? gid with
    | some g => sendCounts s gid blk g.issued (groupLanes g) header incs
    | none => s
  | .spawn gid target named lanes => forAll lanes s (fun x s => sendRecord s gid launch target named x)

/-- Every write issued in the block's levels is applied, and what its threads have observed is performed (R311, R323). -/
def acceptReady (s : State) (blk : Nat) : Bool :=
  s.accs.all (fun a => !(a.blk == some blk && decide (1 ≤ a.depth) && a.writesBytes))
    && s.cmds.all (fun p => !(p.2.blk == blk && decide (1 ≤ p.2.depth) && stillMoves s p.1 p.2))
    && (groupsOf s blk).all (fun p => isShadow s p.1 p.2 || released s p.1 (groupLanes p.2) 6)

/-- ACCEPT_COMMIT (R311): the outermost accept. -/
def execAcceptCommit (blk : Nat) (s : State) : Host.Outcome State Fault Refusal :=
  .next (
    match s.blocks.get? blk with
    | none => s
    | some b =>
      match b.levels with
      | [l] =>
        if !l.accepting ∨ l.conv.isSome ∨ b.failing.isSome ∨ b.sealed ∨ b.terminated.isSome ∨ !acceptReady s blk then s
        else
          let seen := ((groupsOf s blk).flatMap (fun p => observed s p.1 (groupLanes p.2))).eraseDups
          let lines := (s.claims.filter (fun c => c.blk == blk)).map (·.line)
          let s := forAll lines s (fun n s => setCarry s (n * 128) 128 (carryOf s (n * 128) 128 ++ liveOf s seen).eraseDups)
          let flat (a : Acc) : Acc := if a.blk = some blk then { a with depth := 0 } else a
          let flatCmd (k : Cmd) : Cmd := if k.blk = blk ∧ k.state ≠ .ended then { k with depth := 0 } else k
          let s := { s with claims := s.claims.filter (fun c => c.blk != blk), accs := s.accs.map flat,
                            cmds := s.cmds.map (fun (p : Nat × Cmd) => (p.1, flatCmd p.2)) }
          let s := s.setBlock blk (fun b => { b with levels := [] })
          let s := forAll ((s.convs.filter (fun c => c.closing.elim false (·.contains blk))).map (·.word)) s (fun w s =>
            setConv s w (fun c => { c with closing := c.closing.map (fun l => l.filter (· != blk)) }))
          forAll l.actions s (fun a s => perform s blk b.launch a)
      | _ => s)

/-! ### Conversations -/

/-- The join itself (R325). -/
def joinConv (s : State) (blk w : Nat) : State :=
  match (readConv s w).state with
  | 0 =>
    if 256 ≤ (s.convs.filter (fun c => homeDie s c.word == homeDie s w)).length then s
    else
      updateConv { s with convs := s.convs ++ [⟨w, [blk], [], [], none⟩] } w (fun x => { x with state := 1, joined := 1, round := 0 })
  | 1 =>
    let s := setConv s w (fun c => { c with members := c.members ++ [blk] })
    let n := (readConv s w).joined + 1
    if n = (readConv s w).expected then
      let s := updateConv s w (fun x => { x with state := 2, joined := n })
      let all := (s.convs.filter (fun c => c.word == w)).flatMap (·.members)
      forAll all s (fun m s => s.setBlock m (fun b =>
        { b with levels := b.levels.map (fun l => if l.conv = some w then { l with joining := false } else l) }))
    else updateConv s w (fun x => { x with joined := n })
  | _ => s

/-- CONVERSATION_JOIN (R325): a join, or a gathering's end that had to wait for its conversation word. -/
def execConversationJoin (blk : Nat) (s : State) : Host.Outcome State Fault Refusal :=
  .next (
    match s.blocks.get? blk with
    | none => s
    | some b =>
      if b.failing.isSome ∨ b.sealed ∨ b.terminated.isSome then s
      else
        match b.gather, b.top.bind (fun l => l.conv.map (fun w => (l, w))) with
        | some _, _ => settleGather s blk
        | none, none => s
        | none, some (l, w) =>
          if !l.joining ∨ isMember s blk w then s
          else if !convReady s blk w then sendProbes s w 8
          else joinConv s blk w)

/-- CONVERSATION_ACCEPT (R326): every member has gathered at its ACCEPT, and all accept together; until the last of them has, they remain
one side, and then the word returns to 0. -/
def execConversationAccept (word : Nat) (s : State) : Host.Outcome State Fault Refusal :=
  .next (
    match s.convs.find? (fun c => c.word == word) with
    | none => s
    | some c =>
      if c.closing.isSome then (if convReady s (c.members.headD 0) word then closeConv s word else sendProbes s word 8)
      else
        let w := readConv s word
        let ready := c.members.all (fun m => (s.blocks.get? m).elim false (fun b =>
          !b.sealed && b.failing.isNone && (b.top.map (fun l => l.accepting && l.conv == some word)).getD false))
        if w.state ≠ 2 ∨ w.accepted ≠ w.joined ∨ !ready then s
        else
          let outermost := c.members.filter (fun m => (s.blocks.get? m).elim false (fun b => b.levels.length == 1))
          let s := setConv s word (fun c => { c with closing := some outermost })
          forAll c.members s (fun m s => acceptLevel s m))

/-! ### Pairs -/

/-- SHADOW_COMPARE_TIMEOUT (R333): a compare that has waited 65,536 clk, or a split that the shadow should issue from and
does not have. -/
def execShadowCompareTimeout (gid : Nat) (s : State) : Host.Outcome State Fault Refusal :=
  .next (
    match s.groups.get? gid, s.groups.get? (gid + 32) with
    | some g, some sh =>
      let waiting := s.cmps.filter (fun c => c.gid == gid)
      let late := waiting.any (fun c => decide (c.since + 65536 ≤ s.clk))
      let lost := decide (sh.issued < g.issued) && (shadowSplit g sh).elim false (fun i => (sh.splits.get? i).isNone)
      if !isPrimary s gid g ∨ !(late || lost) then s
      else
        match waiting with
        | k :: _ => shadowMismatch s gid k.n k.split k.code (((k.items.head?).map (·.2.1 % 32)).getD 0) k.act
        | [] =>
          let i := (shadowSplit g sh).getD ((g.splits.head?.map (·.1)).getD 0)
          shadowMismatch s gid sh.issued i 6 0 (((((snapOf s gid sh.issued).getD g).splits.get? i).map (·.em)).getD 0)
    | _, _ => s)

end Sys2Proof.Machine
end

