-- ==== Sys2Proof/Machine/Distribution.lean ====
section
/-!
DEFINITION. The distributor (R30 to R37, R48 to R51, R385 to R387): reading launch queues, placing clusters and gangs, starting
them, placing formed groups, and the ends of blocks and launches.
-/
namespace Sys2Proof.Machine

/-! ### What a block needs and what a core has (R33) -/

/-- Groups of a block (R31). -/
def Launch.groups (l : Launch) : Nat := (l.threads + 31) / 32

def Launch.regBytes (l : Launch) : Nat := l.groups * 128 * l.regs * (if l.checked then 2 else 1)

/-- Scratchpad bytes: the scratch allocation and the spawn area, which lies after it. -/
def Launch.padBytes (l : Launch) : Nat := l.scratchPages * 4096 + (if l.regroup then 80 * 32 * l.groups else 0)

/-- Blocks in the grid (R36). -/
def Launch.blocks (l : Launch) : Nat := l.clusters * l.clusterSize * l.stages

/-- What one block, placed or reserved, takes of a core: first slot, groups, checked, register bytes, scratch base and bytes. -/
structure Tenant where
  slot : Nat
  groups : Nat
  checked : Bool
  regBytes : Nat
  base : Nat
  pad : Nat
  deriving DecidableEq, Repr

/-- The blocks that a core holds. -/
def tenants (s : State) (core : Nat) : List Tenant :=
  s.blocks.filterMap (fun p =>
    if p.2.core ≠ core then none
    else (s.launchOf p.2).map (fun l => ⟨p.2.firstSlot, p.2.nGroups, l.checked, l.regBytes, p.2.scratchBase, l.padBytes⟩))

/-- What reservations hold of a core (R50). -/
def reservedOn (s : State) (rs : List Reserve) (core : Nat) : List Tenant :=
  rs.flatMap (fun r =>
    match s.launches.get? r.launch with
    | some l => (r.held.filter (fun h => h.1.contains core)).map (fun h =>
        ⟨h.2.1, l.groups, l.checked, l.regBytes, h.2.2.getD (h.1.findIdx (· == core)) 0, l.padBytes⟩)
    | none => [])

/-- Slot ranges that a tenant takes (R32). -/
def Tenant.slots (t : Tenant) : List (Nat × Nat) :=
  (t.slot, t.groups) :: if t.checked then [(t.slot + 32, t.groups)] else []

/-- The lowest 4 KiB-aligned base with room for `n` scratchpad bytes. -/
def padBase (ts : List Tenant) (n : Nat) : Option Nat :=
  ((List.range 256).map (· * 4096)).find? (fun b => decide (b + n ≤ Config.scratchBytes) && ts.all (fun t => !overlaps b n t.base t.pad))

/-- A block of a launch fits on a core at a first slot, beside its blocks and some reservations (R33). -/
def coreFits (s : State) (rs : List Reserve) (l : Launch) (core slot : Nat) : Bool :=
  let ts := tenants s core ++ reservedOn s rs core
  let me : Tenant := ⟨slot, l.groups, l.checked, l.regBytes, 0, l.padBytes⟩
  decide (slot + l.groups ≤ (if l.checked then 32 else 64))
    && me.slots.all (fun a => ts.all (fun t => t.slots.all (fun b => !overlaps a.1 a.2 b.1 b.2)))
    && decide (ts.foldl (fun n t => n + t.regBytes) l.regBytes ≤ Config.regFileBytes)
    && (padBase ts l.padBytes).isSome

/-- The distributor places blocks on a core's bent (R295, R391, R204). -/
def bentOpen (s : State) (core : Nat) : Bool :=
  let b := s.bent (bentOfCore core)
  s.mgmt.placing && (s.die (dieOfCore core)).awake && !b.withdrawn && b.testing.isNone

/-- The bent has `n` distinct cores that take a block at one first slot. -/
def bentHasRoom (s : State) (rs : List Reserve) (l : Launch) (bent n : Nat) : Bool :=
  (List.range 64).any (fun slot =>
    decide (n ≤ ((List.range 4).filter (fun i => bentOpen s (bent * 4 + i) && coreFits s rs l (bent * 4 + i) slot)).length))

/-- The die that a launch's map names for a cluster allows a bent (R35). -/
def mapAllows (l : Launch) (cluster bent : Nat) : Bool :=
  match l.place with
  | some map => (map.getD cluster 0).toNat % 4 == bent / 16
  | none => true

/-- A cluster of a launch may take some cores, by rank, at a first slot, beside some reservations (R33 to R35). -/
def clusterRoom (s : State) (rs : List Reserve) (l : Launch) (cluster : Nat) (cores : List Nat) (slot : Nat) : Bool :=
  let bent := bentOfCore (cores.headD 0)
  cores.length == l.clusterSize && cores.eraseDups == cores && mapAllows l cluster bent
    && cores.all (fun c => decide (c < Config.nCores) && bentOfCore c == bent && bentOpen s c && coreFits s rs l c slot)

/-- The same for a stage whose earlier one stands, or is reserved, on the bent `prior`: it goes there if that bent has room (R36). -/
def clusterFits (s : State) (rs : List Reserve) (l : Launch) (cluster : Nat) (prior : Option Nat) (cores : List Nat) (slot : Nat) : Bool :=
  clusterRoom s rs l cluster cores slot
    && prior.elim true (fun b => b == bentOfCore (cores.headD 0) || !bentHasRoom s rs l b l.clusterSize)

/-- The bent on which the earlier stage of a cluster is placed. -/
def priorBent (s : State) (lid cluster stage : Nat) : Option Nat :=
  (s.blocks.find? (fun p => p.2.launch == lid && p.2.cluster == cluster && decide (p.2.stage + 1 = stage) && !p.2.sealed)).map
    (fun p => bentOfCore p.2.core)

/-- The scratch bases that a cluster takes on its cores: clear of every reservation where that can be, else of those of lower
identifiers. -/
def basesFor (s : State) (low : List Reserve) (l : Launch) (cores : List Nat) : List Nat :=
  cores.map (fun c =>
    let beside (rs : List Reserve) : Option Nat := padBase (tenants s c ++ reservedOn s rs c) l.padBytes
    ((beside (low ++ s.reserves.filter (fun r => !low.contains r))).orElse (fun _ => beside low)).getD 0)

/-! ### Starting blocks (R31, R34, R89) -/

/-- A new group of a block at its entry PC, each lane with its seed. -/
def newGroup (s : State) (blk : Nat) (b : Block) (l : Launch) (index uid : Nat) : Group :=
  let em := ofLanes (allLanes.filter (fun i => decide (index * 32 + i < l.threads)))
  { startGroup blk index s.clk l.regs uid l.pc em l.arg with
    gen := (lanesOf em).map (fun i => (i, seed (blockSeed b) (index * 32 + i))) }

/-- Scratchpad bytes of a core read as zero, and carry nothing. -/
def clearPad (s : State) (core base n : Nat) : State :=
  let lo := scratchAddr core base
  let out (a : Nat) : Bool := !decide (lo ≤ a ∧ a < lo + n)
  { s with mem := s.mem.filter (fun c => out c.1), carry := s.carry.filter (fun c => out c.1) }

/-- Places one block: its groups stand at the entry PC and wait for the start release. -/
def placeBlock (s : State) (b : Block) (l : Launch) : State :=
  let (id, s) := s.fresh
  let s := clearPad { s with blocks := s.blocks.put id b } b.core b.scratchBase l.padBytes
  forAll (List.range l.groups) s (fun g s =>
    let (uid, s) := s.fresh
    placeGroup s (groupId b.core (b.firstSlot + g)) l.checked (newGroup s id b l g uid))

/-- Places the cluster of a stage (R34, R35), with its scratch bases. -/
def placeCluster (s : State) (lid : Nat) (l : Launch) (cluster stage : Nat) (cores : List Nat) (slot : Nat) (bases : List Nat) : State :=
  let peers := cores.zip bases
  let one (rank : Nat) (p : Nat × Nat) : Block :=
    { launch := lid, cluster := cluster, rank := rank, stage := stage, index := cluster * l.clusterSize + rank, core := p.1,
      peers := peers, firstSlot := slot, nGroups := l.groups, scratchBase := p.2, scratchSize := l.scratchPages * 4096,
      started := false, exited := [], conts := [], formed := [], serving := false, bars := [], levels := [], gather := none,
      failing := none, stop := none, sealed := false, terminated := none }
  forAll (peers.mapIdx one) s (fun b s => placeBlock s b l)

/-- CLUSTER_START_RELEASE (R34, R212): every member is placed; every thread starts with the launch's observed set. -/
def execClusterStartRelease (blk : Nat) (s : State) : Host.Outcome State Fault Refusal :=
  .next (
    match s.blocks.get? blk with
    | none => s
    | some b =>
      match s.launchOf b with
      | none => s
      | some l =>
        let all := clusterOf s b
        if b.started ∨ all.length < l.clusterSize then s
        else
          forAll all s (fun p s =>
            let s := s.setBlock p.1 (fun b => { b with started := true })
            forAll (groupsOf s p.1) s (fun g s => observeLanes s g.1 (groupLanes g.2) l.obs)))

/-! ### Dispatch decisions (R49, R50) -/

/-- The class that is served: the highest with a launch. -/
def topClass (s : State) : Option Nat := [0, 1, 2, 3].find? (fun c => !(s.classes.getD c []).isEmpty)

/-- A launch leaves its class. -/
def leaveClass (s : State) (lid : Nat) : State := { s with classes := s.classes.map (fun p => (p.1, p.2.filter (· != lid))) }

/-- A launch joins the tail of a class. -/
def joinClass (s : State) (lid c : Nat) : State := { s with classes := s.classes.put c (s.classes.getD c [] ++ [lid]) }

/-- A decision has been made: the launch goes to the tail of its class while it has clusters to place, and every other
waiting launch counts one decision. -/
def decided (s : State) (lid : Nat) (next : Nat) : State :=
  match s.launches.get? lid with
  | none => s
  | some l =>
    let all := l.clusters * l.stages
    let s := s.setLaunch lid (fun l => { l with nextCluster := next / l.stages, nextStage := next % l.stages, waited := 0 })
    let waiting := (s.classes.flatMap (·.2)).filter (· != lid)
    let s := forAll waiting s (fun w s => s.setLaunch w (fun l => { l with waited := l.waited + 1 }))
    let c := ([0, 1, 2, 3].find? (fun c => (s.classes.getD c []).contains lid)).getD l.cls
    let s := leaveClass s lid
    if next < all then joinClass s lid c else s

/-- What a gang holds is placed, one entry for each cluster and stage from the `n`th on; what has been placed stands in the way of
those that follow. -/
def placeAll (s : State) (lid : Nat) (l : Launch) : Nat → List (List Nat × Nat × List Nat) → Option State
  | _, [] => some s
  | n, p :: t =>
    if clusterRoom s s.reserves l (n / l.stages) p.1 p.2.1 then
      placeAll (placeCluster s lid l (n / l.stages) (n % l.stages) p.1 p.2.1 p.2.2) lid l (n + 1) t
    else none

/-- A gang reserves some placements beside what lower identifiers and it itself hold, each stage under R36 by what it has reserved. -/
def reserveAll (s : State) (lid : Nat) (l : Launch) (low : List Reserve) :
    List (List Nat × Nat × List Nat) → List (List Nat × Nat) → Option (List (List Nat × Nat × List Nat))
  | held, [] => some held
  | held, p :: t =>
    let n := held.length
    let rs : List Reserve := ⟨lid, l.gangId, held⟩ :: low
    let prior := if n % l.stages = 0 then none else (held.getLast?).map (fun h => bentOfCore (h.1.headD 0))
    if clusterFits s rs l (n / l.stages) prior p.1 p.2 then reserveAll s lid l low (held ++ [(p.1, p.2, basesFor s rs l p.1)]) t else none

/-- A reservation holds what others are to use of a core: slots or scratchpad bytes that they take, or bytes of the register file where
all of them together do not fit (R50). -/
def holdsNeeded (s : State) (own : Reserve) (r : Reserve) : Bool :=
  own.held.any (fun p => p.1.any (fun core =>
    let mine := reservedOn s [own] core
    let his := reservedOn s [r] core
    let all := tenants s core ++ reservedOn s (own :: s.reserves.filter (fun q => q.launch != own.launch)) core
    !his.isEmpty
      && (his.any (fun t => mine.any (fun m => overlaps m.base m.pad t.base t.pad
            || m.slots.any (fun a => t.slots.any (fun b => overlaps a.1 a.2 b.1 b.2))))
          || decide (Config.regFileBytes < all.foldl (fun n t => n + t.regBytes) 0))))

/-- Reservations of other launches, and those of them with lower identifiers. -/
def othersHeld (s : State) (lid : Nat) : List Reserve := s.reserves.filter (fun r => r.launch != lid)
def lowerHeld (s : State) (lid : Nat) (l : Launch) : List Reserve := (othersHeld s lid).filter (fun r => decide (r.gangId < l.gangId))

/-- A launch that needs what higher identifiers hold makes each of them release everything (R50). -/
def releaseHigher (s : State) (own : Reserve) : State :=
  { s with reserves := (othersHeld s own.launch).filter (fun r => decide (r.gangId < own.gangId) || !holdsNeeded s own r) }

/-- A launch's turn with some placements: its next cluster is placed, or a gang reserves, and is placed once it holds
everything. `none` where they do not fit. Of what a gang held it keeps the clusters before the first on a bent that has closed. -/
def serveLaunch (s : State) (lid : Nat) (ps : List (List Nat × Nat)) : Option State :=
  match s.launches.get? lid with
  | none => none
  | some l =>
    let low := lowerHeld s lid l
    if !l.gang then
      match ps with
      | [p] =>
        let n := l.nextCluster * l.stages + l.nextStage
        let (cluster, stage) := (n / l.stages, n % l.stages)
        if clusterFits s low l cluster (priorBent s lid cluster stage) p.1 p.2 then
          let own : Reserve := ⟨lid, l.gangId, [(p.1, p.2, basesFor s low l p.1)]⟩
          some (decided (placeCluster (releaseHigher s own) lid l cluster stage p.1 p.2 (basesFor s low l p.1)) lid (n + 1))
        else none
      | _ => none
    else
      let held := (((s.reserves.find? (fun r => r.launch == lid)).map (·.held)).getD []).takeWhile (fun h => h.1.all (bentOpen s))
      let all := l.clusters * l.stages
      if ps.isEmpty ∨ all < held.length + ps.length then none
      else
        match reserveAll s lid l low held ps with
        | none => none
        | some total =>
          let own : Reserve := ⟨lid, l.gangId, total⟩
          let s := releaseHigher s own
          if total.length < all then some { s with reserves := s.reserves ++ [own] }
          else (placeAll s lid l 0 total).map (fun s => decided s lid all)

/-- The bents on which the next cluster of a launch may stand, beside some reservations (R33, R35). -/
def openBents (s : State) (rs : List Reserve) (lid : Nat) (l : Launch) : List Nat :=
  let n := if l.gang then ((s.reserves.find? (fun r => r.launch == lid)).map (·.held.length)).getD 0 else l.nextCluster * l.stages + l.nextStage
  (List.range 64).filter (fun bent => mapAllows l (n / l.stages) bent && bentHasRoom s rs l bent l.clusterSize)

/-- The gangs of lower identifiers that hold what a launch waits for: it has no room beside them all, but would have some without them,
on a core that they take from it (R50). -/
def waitsFor (s : State) (lid : Nat) : List Nat :=
  match s.launches.get? lid with
  | none => []
  | some l =>
    let own := s.reserves.filter (fun r => r.launch == lid)
    let low := lowerHeld s lid l
    if !(openBents s (own ++ low) lid l).isEmpty then []
    else
      let want := openBents s own lid l
      let takes (core : Nat) : Bool := want.contains (bentOfCore core)
        && (List.range 64).any (fun slot => coreFits s own l core slot && !coreFits s (own ++ low) l core slot)
      (low.filter (fun r => r.held.any (fun h => h.1.any takes))).map (·.launch)

/-- A launch, the gangs that it waits for, those that these wait for, and so on. -/
def waitChain (s : State) : Nat → List Nat → List Nat
  | 0, ls => ls
  | n + 1, ls =>
    match ((ls.flatMap (waitsFor s)).filter (fun x => !ls.contains x)).eraseDups with
    | [] => ls
    | more => waitChain s n (ls ++ more)

/-- The launches that a decision may serve: the head of the highest class; and, while it waits only for what lower identifiers
reserve, the gangs that hold it, which could otherwise never go on (R49, R50, log 133). -/
def servable (s : State) (c : Nat) : List Nat :=
  match (s.classes.getD c []).head? with
  | none => []
  | some h => waitChain s s.reserves.length [h]

/-- DISPATCH_DECISION (R49, R50): a launch that may be served takes the placements. -/
def execDispatchDecision (at_ : List (List Nat × Nat)) (s : State) : Host.Outcome State Fault Refusal :=
  .next (
    match topClass s with
    | none => s
    | some c => ((servable s c).findSome? (fun l => serveLaunch s l at_)).getD s)

/-- LAUNCH_PROMOTION (R49). -/
def execLaunchPromotion (launch : Nat) (s : State) : Host.Outcome State Fault Refusal :=
  .next (
    match s.launches.get? launch, [1, 2, 3].find? (fun c => (s.classes.getD c []).contains launch) with
    | some l, some c =>
      if l.waited < 65536 then s
      else joinClass (leaveClass (s.setLaunch launch (fun l => { l with waited := 0 })) launch) launch (c - 1)
    | _, _ => s)

/-! ### Formed groups (R46, R47) -/

/-- The state of a group formed at a clk, which is its age (R43, R47). -/
def formedGroup (blk : Nat) (b : Block) (l : Launch) (index uid clk : Nat) (cs : List Cont) : Group :=
  let pc := ((cs.head?).map (·.pc)).getD 0
  let lanes := cs.mapIdx (fun i k => (i, k))
  let v := lanes.flatMap (fun x => x.2.v.mapIdx (fun r w => (r * 32 + x.1, w)))
  { startGroup blk index clk l.regs uid pc (ofLanes (lanes.map (·.1))) 0 with
    v := (v.filter (fun x => decide (x.1 < l.regs * 32))).foldl (fun m x => Map.putD m 0 x.1 x.2) [],
    gen := lanes.map (fun x => (x.1, seed (blockSeed b ^^^ (pc.toNat % 2 ^ 32)) (x.2.group * 32 + x.2.lane))),
    origin := lanes.map (fun x => (x.1, (x.2.lane, x.2.group))),
    threads := lanes.map (fun x => (x.1, x.2.thread)) }

/-- FORMED_GROUP_PLACE (R46, R47). -/
def execFormedGroupPlace (blk : Nat) (s : State) : Host.Outcome State Fault Refusal :=
  .next (
    match s.blocks.get? blk with
    | none => s
    | some b =>
      match b.formed, s.launchOf b with
      | (clk, cs) :: rest, some l =>
        if b.sealed ∨ b.stop.isSome ∨ b.terminated.isSome ∨ b.failing.isSome then s
        else
          match freeSlot s b l.checked with
          | none => s
          | some gid =>
            let (uid, s) := s.fresh
            placeGroup (s.setBlock blk (fun b => { b with formed := rest })) gid l.checked
              (formedGroup blk b l (slotOf gid - b.firstSlot) uid clk cs)
      | _, _ => s)

/-! ### Launch queues (R385, R386) -/

/-- A launch record (R386), as a launch. -/
def launchOfRecord (r : List Byte) : Launch :=
  let dw (i : Nat) : Nat := ofLe ((r.drop i).take 8)
  let w (i : Nat) : Nat := ofLe ((r.drop i).take 4)
  let shape := w 52
  let flags := w 56
  { ident := 0, queue := bitField flags 23 6, entryIdx := 0, pc := BitVec.ofNat 55 (dw 0), arg := BitVec.ofNat 64 (dw 8),
    cword := BitVec.ofNat 64 (dw 16), seq := BitVec.ofNat 64 (dw 24), spillBase := BitVec.ofNat 64 (dw 32),
    spillPages := bitField (w 60) 0 17, place := none, clusters := w 48, threads := bitField shape 0 10 + 1,
    regs := (bitField shape 10 5 + 1) * 8, scratchPages := bitField shape 15 9, clusterSize := bitField shape 24 2 + 1,
    stages := bitField shape 26 3 + 1, cls := bitField shape 29 2, pasid := bitField flags 0 20, gang := bitField flags 20 1 == 1,
    checked := bitField flags 21 1 == 1, regroup := bitField flags 22 1 == 1, nextCluster := 0, nextStage := 0, waited := 0,
    blocksEnded := 0, fail := none, poisoned := none, halted := false, obs := [], replicas := [], gen := 0, checkpointed := false, refGen := none,
    gangId := 0, tag := none, lost := false, refused := false, since := 0 }

/-- The limits of R30, and what a single core can hold (R33). That a spill size above 256 MiB, or a spill base that is no multiple of
4 KiB, is rejected too is the model's choice (log 105). -/
def Launch.within (l : Launch) : Bool :=
  decide (1 ≤ l.clusters) && decide (l.scratchPages ≤ 256) && decide (l.arg.toNat < 2 ^ 57)
    && decide (l.spillPages ≤ 65536) && decide (l.spillBase.toNat % 4096 = 0)
    && decide (l.regBytes ≤ Config.regFileBytes) && decide (l.padBytes ≤ Config.scratchBytes)

/-- The physical parts of a placement map (R386), or none where it does not translate. -/
def mapParts (s : State) (die pasid va n : Nat) : Option (List (Nat × Nat × Nat)) × State :=
  match spanTranslate s die pasid Need.load (spanParts va n) with
  | ((none, ps), s) => (some ps, s)
  | (_, s) => (none, s)

/-- The bytes of some parts, as a distributor reads them, through the bridge where they are the host's. -/
def readParts (s : State) (die : Nat) (ps : List (Nat × Nat × Nat)) : List Byte × State :=
  (ps.flatMap (fun p => readBytes s p.2.1 p.2.2), forAll ps s (fun p s => bridgeRead s die p.2.1 p.2.2 false))

/-- The die whose distributor accepted a launch (R337). -/
def Launch.die (l : Launch) : Nat := bitField l.ident.toNat 6 2

/-- A launch that has been read is accepted, or rejected with a launch code (R387); none while its placement map cannot be read yet
(R321, R323). -/
def acceptLaunch (s : State) (r : List Byte) (ok : Bool) (ident : Dword) (entry : Nat) (obs : List Nat) : Option State :=
  let l := { launchOfRecord r with ident := ident, entryIdx := entry, obs := obs, since := s.moment }
  let reject (s : State) (code : BitVec 8) : State :=
    let (id, s) := s.fresh
    { s with launches := s.launches.put id { l with clusters := 0, fail := some code } }
  let enter (s : State) (place : Option (List Byte)) : State :=
    let (id, s) := s.fresh
    joinClass { s with launches := s.launches.put id { l with place := place, gangId := s.nextGang }, nextGang := s.nextGang + 1 } id l.cls
  let map := ofLe ((r.drop 40).take 8)
  if !ok ∨ (s.spaces.get? l.pasid).isNone ∨ !(s.lqueue l.queue).configured then some (reject s 0x53)
  else if !l.within then some (reject s 0x50)
  else if map = 0 then some (enter s none)
  else
    match mapParts s l.die l.pasid map l.clusters with
    | (some ps, s) =>
      if !ps.all (fun p => agentReads s l.die p.2.1 p.2.2) then none
      else
        let (bytes, s) := readParts s l.die ps
        some (enter s (some bytes))
    | (none, s) => some (reject s 0x50)

/-- The identifier that a die's distributor gives at acceptance (R386, R337), where the tick has room for it. -/
def nextIdent (s : State) (die : Nat) : Option (Dword × State) :=
  let d := s.die die
  let seq := if d.launchTick = d.time then d.launchSeq + 1 else 1
  if 16 < seq then none
  else some (BitVec.ofNat 64 (d.time % 2 ^ 56 * 256 + die * 64 + seq), s.setDie die (fun k => { k with launchTick := k.time, launchSeq := seq }))

/-- A distributor takes the next record of a ring (R385): it reads the record, writes the identifier into it and advances the consumer
word. None while it has to wait. -/
def takeRecord (s : State) (die queue : Nat) (k : LQueue) : Option State × State :=
  let at_ := k.ring + 64 * (k.read % 2 ^ k.log2)
  match nextIdent s die with
  | none => (none, s)
  | some (ident, t) =>
    if !agentReads s die at_ 64 then (none, s)
    else
      let r := readBytes s at_ 64
      let obs := if k.device then ((k.posted.head?).map (·.2)).getD [] else liveOf s (carryOf s k.prod 4)
      let t := bridgeRead (bridgeRead t die k.prod 4 false) die at_ 64 false
      match acceptLaunch { t with queues := t.queues.put queue { k with read := k.read + 1, posted := k.posted.drop 1 } } r true ident k.read obs with
      | none => (none, s)
      | some t =>
        match agentWrite t die [(at_, leBytes 8 ident.toNat), (k.cons, leBytes 4 (k.read + 1))] with
        | (t, true) => (some t, s)
        | (_, false) => (none, sendProbes (sendProbes s at_ 8) k.cons 4)

/-- LAUNCH_QUEUE_READ (R385 to R387): the distributor of an awake die reads the next record of a queue (log 68). A child that
LAUNCH posted to a queue that takes none is rejected. -/
def execLaunchQueueRead (read : QueueRead) (s : State) : Host.Outcome State Fault Refusal :=
  .next (
    let die := read.die
    let queue := read.queue
    let k := s.lqueue queue
    let stray := !k.accepts && !k.posted.isEmpty
    if !(s.die die).awake then s
    else if stray then
      match nextIdent s die, k.posted with
      | some (ident, t), (r, obs) :: rest =>
        (acceptLaunch { t with queues := t.queues.put queue { k with posted := rest } } r false ident 0 obs).getD s
      | _, _ => s
    else if !k.configured ∨ !agentReads s die k.prod 4 ∨ readNat s k.prod 4 = k.read % 2 ^ 32 then s
    else
      match takeRecord s die queue k with
      | (some t, _) => t
      | (none, s) => s)

/-! ### Ends of blocks and launches (R38, R212, R284, R335, R387) -/

/-- Tasks of a launch's domain that have not committed (R335). -/
def domainBusy (s : State) (lid : Nat) : Bool := s.tasks.any (fun p => p.2.launch == lid)

/-- A window access to a block that is still in flight (R28). -/
def windowBusy (s : State) (blk : Nat) (b : Block) : Bool :=
  s.accs.any (fun a => a.stage != .satisfied && isWindow a.pa &&
    (let w := windowOf a.pa
     w.core == b.core &&
       (match w.space with
        | 0 => decide (b.scratchBase ≤ w.off ∧ w.off < b.scratchBase + b.scratchSize)
        | 1 => inSlots s b (slotOf (windowReg a.pa).1)
        | _ => (s.bay b.core (bitField w.off 16 2)).owner == some blk)))

/-- An engine's work stands at a boundary of R262: what it has accepted and not begun is not started; an MXSWAP whose other
bays wait for a stopped MXLOOP goes no further (log 25). -/
def atBoundary (s : State) (id : Nat) (k : Cmd) : Bool :=
  k.state == .ended || k.state == .queued || k.discarded
    || (match k.kind with
        | .copy .. | .cdone .. => true
        | .mxloop .. => k.pos == k.passed && !k.replay
        | .mxlw .. => k.fillEnd.isNone
        | .mxswap m => k.credited.isEmpty
            || (baysOf m).any (fun b => !k.credited.contains b && !baysClear s id k.core [b])
        | .mxdrain .. => k.pos == 0
        | .mxzero .. => true)

/-- Every write of a block's threads and engines is performed at device scope (R212). -/
def writesDone (s : State) (blk : Nat) : Bool := s.accs.all (fun a => a.blk != some blk || !a.isWrite)

/-- Everything that a block ends after has come about. A terminated block's commands have stopped. -/
def blockMayEnd (s : State) (blk : Nat) (b : Block) : Bool :=
  let cmds := s.cmds.filter (fun p => p.2.blk == blk)
  !b.sealed && writesDone s blk && !windowBusy s blk b &&
    (match b.terminated with
     | some _ =>
       cmds.all (fun p => p.2.state == .ended || p.2.discarded || (atBoundary s p.1 p.2 && (copyOf p.2.kind).isNone))
         && (failedLines b 1).all (fun l => leasesPassed s (l * 128) 128)
     | none =>
       (groupsOf s blk).isEmpty && b.started && b.conts.isEmpty && b.formed.isEmpty && b.failing.isNone && b.levels.isEmpty
         && cmds.all (fun p => p.2.state == .ended) && !(b.serving && domainBusy s b.launch))

/-- The task lanes of a terminated block end (R284). -/
def endBlockTasks (s : State) (blk : Nat) : State :=
  let gids := (groupsOf s blk).map (·.1)
  let mine := s.tasks.filter (fun p => gids.contains p.2.gid && (p.2.state == .running))
  forAll mine s (fun p s => if p.2.frontier then poisonTask s p.1 else abortTask s p.1)

/-- Batches that a core holds for a launch that no block of the core serves any more go back to the queue (R341). -/
def returnBatches (s : State) (core launch : Nat) : State :=
  if !(servingOn s core launch).isEmpty then s
  else
    let mine := (s.core core).prefetch.filter (fun b => b.launch == launch)
    let s := s.setCore core (fun c => { c with prefetch := c.prefetch.filter (fun b => b.launch != launch) })
    forAll (mine.flatMap (·.tasks)) s (fun t s => s.setTask t (fun k =>
      if k.state = .prefetched then { k with state := .queued, slot := false } else k))

/-- The groups of a terminated block are gone, with what they still waited for; their locks pass on with BROKEN. -/
def dropGroups (s : State) (blk : Nat) : State :=
  let gids := (groupsOf s blk).map (·.1)
  let s := retireLocks (abandonWaits s blk) gids
  { s with groups := s.groups.filter (fun p => p.2.blk != blk), toks := s.toks.filter (fun p => !gids.contains p.2.gid),
           accs := s.accs.filter (fun a => !(a.isLoad && a.gid.elim false gids.contains)) }

/-- A terminated block's shoring claims are rolled back and its levels are gone (R284). -/
def dropLevels (s : State) (blk : Nat) (b : Block) : State :=
  let s := b.levels.reverse.foldl (fun s l => restoreLevel s blk b l) s
  let s := passPrior s blk 1 b
  { s with claims := s.claims.filter (fun c => c.blk != blk) }

/-- A block leaves every conversation that it is a member of. -/
def leaveConvs (s : State) (blk : Nat) : State :=
  forAll (s.convs.filter (fun c => c.members.contains blk)) s (fun c s => leaveConv s c.word blk)

/-- The block's bays, commands and resources are free (R38, R241). -/
def freeBlock (s : State) (blk : Nat) (b : Block) : State :=
  let left : Bay := { Bay.free with former := some (b.launch, b.stage, b.cluster, b.rank) }
  let s := s.setCore b.core (fun c => { c with bays := c.bays.map (fun p => if p.2.owner = some blk then (p.1, left) else p),
                                               mxQ := c.mxQ.filter (fun i => (s.cmds.get? i).elim true (fun k => k.blk != blk)),
                                               copyQ := c.copyQ.filter (fun i => (s.cmds.get? i).elim true (fun k => k.blk != blk)) })
  { s with blocks := s.blocks.del blk, cmds := s.cmds.filter (fun p => p.2.blk != blk), ranges := s.ranges.filter (fun r => r.blk != blk) }

/-- BLOCK_END (R38, R28, R212, R284, R335). -/
def execBlockEnd (blk : Nat) (s : State) : Host.Outcome State Fault Refusal :=
  .next (
    match s.blocks.get? blk with
    | none => s
    | some b =>
      if !blockMayEnd s blk b ∨ !(s.convs.filter (fun c => c.members.contains blk)).all (fun c => convReady s blk c.word) then
        if b.terminated.isSome then (failedLines b 1).foldl (fun s l => sendProbes s (l * 128) 128) s else s
      else
        let s := if b.terminated.isSome then dropGroups (dropLevels (endBlockTasks s blk) blk b) blk else s
        let s := freeBlock (leaveConvs s blk) blk b
        let s := returnBatches s b.core b.launch
        s.setLaunch b.launch (fun l => { l with blocksEnded := l.blocksEnded + 1 }))

/-- The value of a launch's completion word (R387, R352). -/
def launchValue (l : Launch) : Nat :=
  let seq := l.seq.toNat
  if l.halted then wordFail 0x51 seq
  else if l.refused then wordFail 0x52 seq
  else
    match l.fail, l.poisoned with
    | some c, _ => wordFail c.toNat seq
    | none, some _ => wordFail Cause.taskPoison.code.toNat seq
    | none, none => wordOk seq

/-- The completion word of a launch has been written, or cannot be (R231, R387): a halted launch, and one whose RESUME has been refused, go
on when they are resumed, any other is gone. The report names the first task that retired poisoned, for which R231 leaves the word no room (log 71). -/
def launchReported (s : State) (launch : Nat) (l : Launch) : State :=
  let r : Report := { ident := l.ident, value := launchValue l, poisoned := l.poisoned }
  let s := { s with reports := s.reports ++ [r] }
  if l.halted then s.setLaunch launch (fun l => { l with halted := false, tag := none })
  else if l.refused then s.setLaunch launch (fun l => { l with refused := false, tag := none })
  else { s with launches := s.launches.del launch, images := s.images.filter (fun i => i.launch != launch) }

/-- Every block has ended, and nothing of the domain is left; or the launch is halted and its image sealed (R303), or a RESUME of it has
been refused (R387). -/
def launchDue (s : State) (launch : Nat) (l : Launch) : Bool :=
  if l.halted || l.refused then true
  else l.blocksEnded == l.blocks && !domainBusy s launch

/-- LAUNCH_COMPLETION (R387, R167, R231, R352). Record 0x000E is logged by the die that accepted the launch (log 154). -/
def execLaunchCompletion (launch : Nat) (s : State) : Host.Outcome State Fault Refusal :=
  .next (
    match s.launches.get? launch with
    | none => s
    | some l =>
      if l.tag.isSome ∨ !launchDue s launch l then s
      else
        let s := if l.halted || l.refused then s else s.setLaunch launch (fun l => { l with replicas := [] })
        if l.cword = 0 then launchReported s launch l
        else
          let mk (pa : Nat) : Acc :=
            { agentAcc l.die none none none .store l.cword.toNat pa 8 (launchValue l) [] with ord := .release, scope := 10 }
          match (if l.lost then (WordEnd.lost .pageFault, s) else writeWord s false l.pasid l.cword.toNat mk) with
          | (.written, s) => launchReported s launch l
          | (.tagged t, s) => s.setLaunch launch (fun l => { l with tag := some t })
          | (.lost c, s) =>
            launchReported (logEvent s l.die 0x000E 5 0xFF l.cword (BitVec.ofNat 64 (c.code.toNat + 256))) launch l)

end Sys2Proof.Machine
end

