-- ==== Sys2Proof/Machine/Crypto.lean ====
section
/-!
DEFINITION. The checks of a firmware stage (R389): SHA-512, and RSASSA-PSS with RSA-4096, exponent 65537, SHA-512 and a salt of 64
bytes. The spec names these algorithms; their steps are those of FIPS 180-4 and RFC 8017 (log 5).
-/
namespace Sys2Proof.Machine

/-! ### SHA-512 -/

def roundKeys0 : List (BitVec 64) :=
  [0x428A2F98D728AE22, 0x7137449123EF65CD, 0xB5C0FBCFEC4D3B2F, 0xE9B5DBA58189DBBC,
   0x3956C25BF348B538, 0x59F111F1B605D019, 0x923F82A4AF194F9B, 0xAB1C5ED5DA6D8118,
   0xD807AA98A3030242, 0x12835B0145706FBE, 0x243185BE4EE4B28C, 0x550C7DC3D5FFB4E2,
   0x72BE5D74F27B896F, 0x80DEB1FE3B1696B1, 0x9BDC06A725C71235, 0xC19BF174CF692694]

def roundKeys1 : List (BitVec 64) :=
  [0xE49B69C19EF14AD2, 0xEFBE4786384F25E3, 0x0FC19DC68B8CD5B5, 0x240CA1CC77AC9C65,
   0x2DE92C6F592B0275, 0x4A7484AA6EA6E483, 0x5CB0A9DCBD41FBD4, 0x76F988DA831153B5,
   0x983E5152EE66DFAB, 0xA831C66D2DB43210, 0xB00327C898FB213F, 0xBF597FC7BEEF0EE4,
   0xC6E00BF33DA88FC2, 0xD5A79147930AA725, 0x06CA6351E003826F, 0x142929670A0E6E70]

def roundKeys2 : List (BitVec 64) :=
  [0x27B70A8546D22FFC, 0x2E1B21385C26C926, 0x4D2C6DFC5AC42AED, 0x53380D139D95B3DF,
   0x650A73548BAF63DE, 0x766A0ABB3C77B2A8, 0x81C2C92E47EDAEE6, 0x92722C851482353B,
   0xA2BFE8A14CF10364, 0xA81A664BBC423001, 0xC24B8B70D0F89791, 0xC76C51A30654BE30,
   0xD192E819D6EF5218, 0xD69906245565A910, 0xF40E35855771202A, 0x106AA07032BBD1B8]

def roundKeys3 : List (BitVec 64) :=
  [0x19A4C116B8D2D0C8, 0x1E376C085141AB53, 0x2748774CDF8EEB99, 0x34B0BCB5E19B48A8,
   0x391C0CB3C5C95A63, 0x4ED8AA4AE3418ACB, 0x5B9CCA4F7763E373, 0x682E6FF3D6B2B8A3,
   0x748F82EE5DEFB2FC, 0x78A5636F43172F60, 0x84C87814A1F0AB72, 0x8CC702081A6439EC,
   0x90BEFFFA23631E28, 0xA4506CEBDE82BDE9, 0xBEF9A3F7B2C67915, 0xC67178F2E372532B]

def roundKeys4 : List (BitVec 64) :=
  [0xCA273ECEEA26619C, 0xD186B8C721C0C207, 0xEADA7DD6CDE0EB1E, 0xF57D4F7FEE6ED178,
   0x06F067AA72176FBA, 0x0A637DC5A2C898A6, 0x113F9804BEF90DAE, 0x1B710B35131C471B,
   0x28DB77F523047D84, 0x32CAAB7B40C72493, 0x3C9EBE0A15C9BEBC, 0x431D67C49C100D4C,
   0x4CC5D4BECB3E42B6, 0x597F299CFC657E2A, 0x5FCB6FAB3AD6FAEC, 0x6C44198C4A475817]

def roundKeys : List (BitVec 64) := roundKeys0 ++ roundKeys1 ++ roundKeys2 ++ roundKeys3 ++ roundKeys4

/-- The eight words of a hash under way. -/
structure Hash8 where
  a : BitVec 64
  b : BitVec 64
  c : BitVec 64
  d : BitVec 64
  e : BitVec 64
  f : BitVec 64
  g : BitVec 64
  h : BitVec 64
  deriving DecidableEq, Repr

def Hash8.first : Hash8 :=
  ⟨0x6A09E667F3BCC908, 0xBB67AE8584CAA73B, 0x3C6EF372FE94F82B, 0xA54FF53A5F1D36F1,
   0x510E527FADE682D1, 0x9B05688C2B3E6C1F, 0x1F83D9ABFB41BD6B, 0x5BE0CD19137E2179⟩

def Hash8.add (x y : Hash8) : Hash8 := ⟨x.a + y.a, x.b + y.b, x.c + y.c, x.d + y.d, x.e + y.e, x.f + y.f, x.g + y.g, x.h + y.h⟩

/-- One round with a message word and its key. -/
def Hash8.round (x : Hash8) (w k : BitVec 64) : Hash8 :=
  let s1 := x.e.rotateRight 14 ^^^ x.e.rotateRight 18 ^^^ x.e.rotateRight 41
  let ch := (x.e &&& x.f) ^^^ (~~~x.e &&& x.g)
  let t1 := x.h + s1 + ch + k + w
  let s0 := x.a.rotateRight 28 ^^^ x.a.rotateRight 34 ^^^ x.a.rotateRight 39
  let maj := (x.a &&& x.b) ^^^ (x.a &&& x.c) ^^^ (x.b &&& x.c)
  ⟨t1 + (s0 + maj), x.a, x.b, x.c, x.d + t1, x.e, x.f, x.g⟩

/-- The word that follows 16 words of the message schedule. -/
def nextWord (w : List (BitVec 64)) : BitVec 64 :=
  let x := w.getD 14 0
  let y := w.getD 1 0
  (x.rotateRight 19 ^^^ x.rotateRight 61 ^^^ x >>> 6) + w.getD 9 0 + (y.rotateRight 1 ^^^ y.rotateRight 8 ^^^ y >>> 7) + w.getD 0 0

def rounds : List (BitVec 64) → Hash8 → List (BitVec 64) → Hash8
  | [], x, _ => x
  | k :: t, x, w => rounds t (x.round (w.getD 0 0) k) (w.drop 1 ++ [nextWord w])

/-- Big-endian value of bytes, and the bytes of a value. -/
def ofBe (bs : List Byte) : Nat := bs.foldl (fun n b => n * 256 + b.toNat) 0

def beBytes (n x : Nat) : List Byte := (leBytes n x).reverse

/-- The 16 words of a block of 128 bytes. -/
def blockWords (bs : List Byte) : List (BitVec 64) := (List.range 16).map (fun i => BitVec.ofNat 64 (ofBe ((bs.drop (8 * i)).take 8)))

def hashBlocks : Nat → Hash8 → List Byte → Hash8
  | 0, x, _ => x
  | n + 1, x, bs => hashBlocks n (x.add (rounds roundKeys x (blockWords bs))) (bs.drop 128)

/-- A message filled to whole blocks, with its length in bits. -/
def padded (bs : List Byte) : List Byte :=
  bs ++ 0x80 :: List.replicate ((239 - bs.length % 128) % 128) 0 ++ beBytes 16 (8 * bs.length)

/-- SHA-512: 64 bytes. -/
def sha512 (bs : List Byte) : List Byte :=
  let p := padded bs
  let x := hashBlocks (p.length / 128) Hash8.first p
  [x.a, x.b, x.c, x.d, x.e, x.f, x.g, x.h].flatMap (fun w => beBytes 8 w.toNat)

/-! ### RSASSA-PSS -/

/-- A power with exponent 2 ^ n, in a modulus. -/
def squarings (m : Nat) : Nat → Nat → Nat
  | 0, x => x
  | n + 1, x => squarings m n (x * x % m)

/-- The public operation of an RSA key with exponent 65537. -/
def rsaPublic (m x : Nat) : Nat := squarings m 16 x * x % m

/-- MGF1 with SHA-512: a mask of `n` bytes. -/
def mgf1 (seed : List Byte) (n : Nat) : List Byte :=
  ((List.range (n / 64 + 1)).flatMap (fun i => sha512 (seed ++ beBytes 4 i))).take n

def xorBytes (a b : List Byte) : List Byte := List.zipWith (· ^^^ ·) a b

/-- An encoded message of 512 bytes is that of a digest, with some salt of 64 bytes (EMSA-PSS). -/
def pssEncodes (digest em : List Byte) : Bool :=
  let hidden := em.take 447
  let h := (em.drop 447).take 64
  let db := match xorBytes hidden (mgf1 h 447) with
    | b :: t => (b &&& 0x7F) :: t
    | [] => []
  em.getLast? == some 0xBC && decide ((em.headD 0).toNat < 128) && db.take 383 == List.replicate 382 0 ++ [1]
    && sha512 (List.replicate 8 0 ++ digest ++ db.drop 383) == h

/-- The encoded message of a digest with a salt (EMSA-PSS). -/
def pssEncode (digest salt : List Byte) : List Byte :=
  let h := sha512 (List.replicate 8 0 ++ digest ++ salt)
  let masked := match xorBytes (List.replicate 382 0 ++ 1 :: salt) (mgf1 h 447) with
    | b :: t => (b &&& 0x7F) :: t
    | [] => []
  masked ++ h ++ [0xBC]

/-- The private operation of an RSA key of 4096 bits with exponent `d`. -/
def rsaPrivate (m d x : Nat) : Nat :=
  (List.range 4096).reverse.foldl (fun y i => if d.testBit i then y * y % m * x % m else y * y % m) 1

/-- The signature of a message under a key (R390). -/
def signPss (key : BitVec 4096 × Nat) (msg salt : List Byte) : List Byte :=
  beBytes 512 (rsaPrivate key.1.toNat key.2 (ofBe (pssEncode (sha512 msg) salt)))

/-- A signature over a digest verifies under a key of 4096 bits (R389). -/
def signatureVerifies (modulus sig : BitVec 4096) (digest : List Byte) : Bool :=
  decide (2 ^ 4095 ≤ modulus.toNat) && decide (sig.toNat < modulus.toNat)
    && pssEncodes digest (beBytes 512 (rsaPublic modulus.toNat sig.toNat))

/-- The SHA-512 value of a key: of its modulus, most significant byte first (log 5). -/
def keyHash (modulus : BitVec 4096) : BitVec 512 := BitVec.ofNat 512 (ofBe (sha512 (beBytes 512 modulus.toNat)))

/-- The digest of a firmware stage. -/
def stageDigest (image : List Byte) : BitVec 512 := BitVec.ofNat 512 (ofBe (sha512 image))

end Sys2Proof.Machine
end

