-- ==== Sys2Proof/Machine/System.lean ====
section
/-!
DEFINITION. Class 7's system instructions (R285 to R287, R289, R303), requests for pre-emption (R288), the watchdog of
non-preemptible windows (R290), self-tests (R295), event logs (R297 to R300), snapshots (R301, R302), temperature and
power (R391), and bring-up (R389).
-/
namespace Sys2Proof.Machine

/-! ### Control registers (R72 to R74, R286) -/

/-- SNAPCTL of a core (R73). -/
def snapctlOf (k : Core) : BitVec 3 :=
  (if k.snapExt then 4 else 0) ||| (if k.snapLatched then 2 else 0) ||| (if k.snapArm then 1 else 0)

/-- The value of a control register; SNAPCTL as it stood before this clk's writes (R74). -/
def csrValue (s : State) (c : Ctx) (r : Csr) : Dword :=
  match r with
  | .status => statusOf s c.gid c.g
  | .cause => c.g.cause.setWidth 64 ||| (if c.g.causeEngine then 0x100 else 0)
  | .epc => c.g.epc.setWidth 64
  | .eval => c.g.eval
  | .tvec => c.g.tvec.setWidth 64
  | .sbchk => if c.g.sbchk then 1 else 0
  | .backoff => c.g.backoff.setWidth 64
  | .fflags => c.g.fflags.setWidth 64
  | .frm => c.g.frm.setWidth 64
  | .xv n => (c.g.xv.getD n.toNat 0x8000).setWidth 64
  | .ensd => BitVec.ofNat 64 c.blk.levels.length
  | .shoru => shoruOf c.blk
  | .snapctl =>
    let k := s.core (coreOfGroup c.gid)
    (if k.snapOld.1 = s.clk then k.snapOld.2.2 else snapctlOf k).setWidth 64

/-- CSRR (R286). -/
def execCsrr (h : Hdr) (d : Dst) (r : Csr) (s : State) : Host.Outcome State Fault Refusal :=
  .next (runInstr (.csrr h d r) false (fun c s => .done (setDstScalar s c.gid d (csrValue s c r).toNat)) s)

/-- The forms of CSRW (R285). -/
inductive CsrForm where
  | wr | set | clr
  deriving DecidableEq, Repr

/-- The value that a form writes (R286). -/
def CsrForm.value (f : CsrForm) (old x : Dword) : Dword :=
  match f with
  | .wr => x
  | .set => old ||| x
  | .clr => old &&& ~~~x

/-- A CSRW to SNAPCTL waits in a clk in which a higher scheduler has written it (R74). In a pair the primary alone writes it. -/
def writeSnapctl (f : CsrForm) (x : Dword) (c : Ctx) (s : State) : Res :=
  let core := coreOfGroup c.gid
  let k := s.core core
  let again := decide (k.snapOld.1 = s.clk)
  if roleOf s c = .shadow then .done s
  else if again && decide (schedOf c.gid < k.snapOld.2.1) then .wait
  else
    let v := f.value ((snapctlOf k).setWidth 64) x
    let before := if again then k.snapOld.2.2 else snapctlOf k
    let new : Core := { k with snapExt := v.getLsbD 2, snapArm := v.getLsbD 0,
                               snapLatched := k.snapLatched && !(f == .wr && x.getLsbD 1),
                               snapOld := (s.clk, schedOf c.gid, before) }
    .done (s.setCore core (fun _ => new))

/-- CSRW (R286): fields that are RO, and W1C fields under .set and .clr, stay; FRM takes only 0 to 4 (R73). -/
def csrwBody (f : CsrForm) (r : Csr) (a : Src) (c : Ctx) (s : State) : Res :=
  let x := BitVec.ofNat 64 (srcScalar s c 0 a)
  let v := f.value (csrValue s c r) x
  let set (g : Group → Group) : Res := .done (s.setGroup c.gid g)
  match r with
  | .status | .ensd | .shoru => .done s
  | .cause => set (fun g => { g with cause := v.setWidth 8, causeEngine := v.getLsbD 8 })
  | .epc => set (fun g => { g with epc := v.setWidth 55 })
  | .eval => set (fun g => { g with eval := v })
  | .tvec => set (fun g => { g with tvec := v.setWidth 55 })
  | .sbchk => set (fun g => { g with sbchk := v.getLsbD 0 })
  | .backoff => set (fun g => { g with backoff := v.setWidth 16 })
  | .fflags => set (fun g => { g with fflags := v.setWidth 5 })
  | .frm => set (fun g => { g with frm := if v.toNat % 8 < 5 then v.setWidth 3 else g.frm })
  | .xv n => set (fun g => { g with xv := Map.putD g.xv 0x8000 n.toNat (v.setWidth 16) })
  | .snapctl => writeSnapctl f x c s

/-- CSRW.wr (R286). -/
def execCsrwWr (h : Hdr) (r : Csr) (a : Src) (s : State) : Host.Outcome State Fault Refusal :=
  .next (runInstr (.csrwWr h r a) false (csrwBody .wr r a) s)

/-- CSRW.set (R286). -/
def execCsrwSet (h : Hdr) (r : Csr) (a : Src) (s : State) : Host.Outcome State Fault Refusal :=
  .next (runInstr (.csrwSet h r a) false (csrwBody .set r a) s)

/-- CSRW.clr (R286). -/
def execCsrwClr (h : Hdr) (r : Csr) (a : Src) (s : State) : Host.Outcome State Fault Refusal :=
  .next (runInstr (.csrwClr h r a) false (csrwBody .clr r a) s)

/-! ### Requests for pre-emption (R288) -/

/-- A later request takes the place of an earlier one, but for a HALT's stop (R303) and a checkpoint's. -/
def mergeStop (old : Option StopKind) (new : StopKind) : StopKind :=
  match old, new with
  | some (.halt c), _ => .halt c
  | some .checkpoint, .halt c => .halt c
  | some .checkpoint, _ => .checkpoint
  | _, k => k

/-- Pre-emption of a resident block is requested (R288): its groups stop at their boundaries, but for one with an open
window (R289); a shadow goes on until it is level with its primary. Tasks that run speculatively are aborted and prefetched
batches go back (R341, R358). -/
def requestStop (s : State) (blk : Nat) (k : StopKind) : State :=
  match s.blocks.get? blk with
  | none => s
  | some b =>
    if b.sealed ∨ b.terminated.isSome then s
    else
      let s := s.setBlock blk (fun b => { b with stop := some (mergeStop b.stop k) })
      let halt (p : Nat × Group) : Nat × Group :=
        if p.2.blk = blk ∧ p.2.npe.isNone ∧ !isShadow s p.1 p.2 then (p.1, { p.2 with stopped := true }) else p
      let s := { s with groups := s.groups.map halt }
      let gids := (groupsOf s blk).map (·.1)
      let mine := s.tasks.filter (fun p => p.2.state == .running && !p.2.frontier && gids.contains p.2.gid)
      returnBatches (forAll mine s (fun t s => abortTask s t.1)) b.core b.launch

/-- PREEMPTION (R288). -/
def execPreemption (blks : List Nat) (s : State) : Host.Outcome State Fault Refusal :=
  .next (forAll blks s (fun b s => requestStop s b .preempt))

/-- Every resident block. -/
def residents (s : State) : List Nat := (s.blocks.filter (fun p => !p.2.sealed)).map (·.1)

/-! ### Non-preemptible windows (R289, R290) -/

/-- NPE (R289). -/
def execNpe (h : Hdr) (s : State) : Host.Outcome State Fault Refusal :=
  .next (runInstr (.npe h) true (fun c s =>
    let own : Res :=
      if roleOf s c ≠ .shadow ∧ anySpec s c.g c.em then .fault .nesting 0 (lanesWhere c.em (laneSpec s c.g))
      else if c.g.npe.isSome then .fault .nesting 0 c.em
      else .done (s.setGroup c.gid (fun g => { g with npe := some (s.die (dieOfGroup c.gid)).time }))
    mirrorFault s c (fun _ => []) own own) s)

/-- A window closes; a stop that waited for it takes place (R289). -/
def closeWindow (s : State) (gid : Nat) : State :=
  match s.groups.get? gid with
  | none => s
  | some g =>
    let stop := !isShadow s gid g && ((s.blockOf g).map (fun b => b.stop.isSome)).getD false
    s.setGroup gid (fun g => { g with npe := none, stopped := g.stopped || (g.npe.isSome && stop) })

/-- PEN (R289). -/
def execPen (h : Hdr) (s : State) : Host.Outcome State Fault Refusal :=
  .next (runInstr (.pen h) true (fun c s => .done (closeWindow s c.gid)) s)

/-- The PC of the next instruction of a group (R290): that of the split that R43 takes next, one that is ready first, then one that is
not parked (log 145), each as it stands once it has come to the join at its PC (R41). -/
def nextPc (s : State) (gid : Nat) (g : Group) : CodeAddr :=
  let live := (splitOrder g).filterMap (fun i =>
    (g.splits.get? i).bind (fun sp => if g.handler && g.held.contains sp.uid then none else some (i, atFetch sp)))
  let ready := live.find? (fun p => splitReady s gid p.1 p.2)
  let awake := live.find? (fun p => p.2.park.isNone)
  (((ready.orElse (fun _ => awake)).orElse (fun _ => live.head?)).map (·.2.pc)).getD 0

/-- NPE_WATCHDOG_EXPIRY (R290). -/
def execNpeWatchdogExpiry (gid : Nat) (s : State) : Host.Outcome State Fault Refusal :=
  .next (
    match s.groups.get? gid with
    | none => s
    | some g =>
      match g.npe with
      | none => s
      | some t =>
        if isShadow s gid g ∨ (s.die (dieOfGroup gid)).time < t + 8400 then s
        else
          let s := logEvent s (dieOfGroup gid) 0x0005 0 (coreOfGroup gid % 64) ((nextPc s gid g).setWidth 64) (BitVec.ofNat 64 t)
          let s := closeWindow s gid
          let s := if isPrimary s gid g then closeWindow s (gid + 32) else s
          s.setGroup gid (fun g => { g with npeOver := some t }))

/-! ### Return from the handler (R287, R402) -/

/-- A LOCK request whose kept wait TRET drops goes on, and its status is discarded (R402). -/
def dropKept (s : State) (gid : Nat) (g : Group) : State :=
  match g.entry with
  | some (pc, .lock r, none) =>
    if pc = g.epc then s
    else
      let s := { s with lockReqs := s.lockReqs.modify r (fun q => { q with dst := none, mask := 7 }) }
      s.setGroup gid (fun g => g.clearPend r)
  | _ => s

/-- TRET (R287). -/
def execTret (h : Hdr) (s : State) : Host.Outcome State Fault Refusal :=
  .next (runInstr (.tret h) true (fun c s =>
    if !c.g.handler ∨ c.g.splits.any (fun p => p.1 != c.si && !c.g.held.contains p.2.uid) then .fault .nesting 0 c.em
    else .jump ((dropKept s c.gid c.g).setGroup c.gid (fun g => returnGroup g c.si))) s)

/-! ### Snapshots (R301 to R303) -/

/-- A trigger reaches die 0's arbiter: it fixes T, or joins an earlier trigger whose T is still to come. Triggers whose T every die has
passed are over. -/
def trigger (s : State) (external : Bool) : Nat × State :=
  let now := (s.die 0).time
  let live := s.triggers.filter (fun t => s.dies.any (fun d => d.2.awake && decide (d.2.time ≤ t.t)))
  let t := ((live.find? (fun t => decide (now < t.t))).map (·.t)).getD (now + 64)
  let s := { s with triggers := live ++ [⟨t, external⟩] }
  (t, logEvent s 0 0x000B 5 0xFF (BitVec.ofNat 64 t) (if external then 1 else 0))

/-- SNAP (R303): the primary alone sends the trigger. -/
def execSnap (h : Hdr) (d : Dst) (s : State) : Host.Outcome State Fault Refusal :=
  .next (runInstr (.snap h d) false (fun c s =>
    let refs := refsDst 1 d
    if roleOf s c = .shadow then .done (takeResult s c refs)
    else if !(s.die 0).awake then .wait
    else
      let (t, s) := trigger s false
      .done (deliver s c.gid c.g.issued 0 (refs.map (fun r => (r, [(0, t)]))))) s)

/-- EXTERNAL_TRIGGER (R301). -/
def execExternalTrigger (s : State) : Host.Outcome State Fault Refusal :=
  .next (if (s.die 0).awake then (trigger s true).2 else s)

/-- SNAPQ (R302). -/
def snapQueues (s : State) (core : Nat) : Nat :=
  let here := s.groups.filter (fun p => coreOfGroup p.1 == core)
  let ready := here.foldl (fun n p => n + (p.2.splits.filter (fun q => splitReady s p.1 q.1 q.2)).length) 0
  let unacked := (s.queue.filter (fun e => e.core == core)).length
  ready % 512 * 2 ^ 48 + (queueOf s core false).length % 256 * 2 ^ 40 + (queueOf s core true).length % 256 * 2 ^ 32
    + unacked % 256 * 2 ^ 24 + scoreEntries s core % 256 * 2 ^ 16 + here.length % 256 * 2 ^ 8

/-- A core latches its snapshot registers (R301, R302). -/
def latchCore (s : State) (core t : Nat) : State :=
  let q := snapQueues s core
  let shoring := coreShoring s core
  s.setCore core (fun k =>
    { k with snapLatched := true, snapT := BitVec.ofNat 64 t, snapI := BitVec.ofNat 64 k.issued, snapQ := BitVec.ofNat 64 q,
             snapS := BitVec.ofNat 64 (shoring % 2 ^ 32 * 2 ^ 32 + k.leaseHits % 2 ^ 32) })

/-- SNAPSHOT_LATCH (R301): at the end of tick T of its own die an armed unit latches once. -/
def execSnapshotLatch (die unit index : Nat) (s : State) : Host.Outcome State Fault Refusal :=
  .next (
    let d := s.die die
    let due := s.triggers.filter (fun t => t.t == d.time)
    if due.isEmpty ∨ !d.awake then s
    else if unit = 0 then
      let k := s.core (die * 64 + index)
      if k.snapArm && !k.snapLatched && due.any (fun t => !t.external || k.snapExt) then latchCore s (die * 64 + index) d.time else s
    else
      let key := unit * 256 + index
      if (unit = 1 ∨ index = 0) ∧ d.armed.getLsbD unit ∧ d.latched.get? key ≠ some d.time then
        s.setDie die (fun d => { d with latched := d.latched.put key d.time })
      else s)

/-! ### HALT (R303) -/

/-- HALT: the block stops for inspection. In a pair the primary waits for its shadow, whose HALT does nothing. -/
def execHalt (h : Hdr) (code : BitVec 8) (s : State) : Host.Outcome State Fault Refusal :=
  .next (runInstr (.halt h code) true (fun c s =>
    let spec := lanesWhere (groupLanes c.g) (laneSpec s c.g)
    let own : Res :=
      if roleOf s c = .shadow then .done s
      else if 0 < c.blk.levels.length then .fault .nesting 0 c.em
      else if spec ≠ 0 then .fault .nesting 0 spec
      else if !pairLevel s c.gid c.g then .wait
      else
        let s := logEvent s (dieOfGroup c.gid) 0x000C 0 (coreOfGroup c.gid % 64) (code.setWidth 64) (c.pc.setWidth 64)
        .done (requestStop s c.g.blk (.halt code))
    mirrorFault s c (fun _ => []) own own) s)

/-! ### Self-test (R295) -/

/-- Blocks that a bent holds. -/
def onBent (s : State) (bent : Nat) : List Nat :=
  (s.blocks.filter (fun p => !p.2.sealed && bentOfCore p.2.core == bent)).map (·.1)

/-- SELFTEST_DUE (R295): nothing more is placed on the bent, and its blocks stop. -/
def execSelftestDue (bent : Nat) (s : State) : Host.Outcome State Fault Refusal :=
  .next (
    let b := s.bent bent
    let now := (s.die (bent / 16)).time
    if s.mgmt.selftestMs = 0 ∨ b.withdrawn ∨ b.testing.isSome ∨ !(s.die (bent / 16)).awake
        ∨ now < b.last + s.mgmt.selftestMs * 1400000 then s
    else
      let s := s.setBent bent (fun b => { b with testing := some now, last := now })
      forAll (onBent s bent) s (fun k s => requestStop s k .selftest))

/-- SELFTEST_COMPLETE (R295). -/
def execSelftestComplete (bent : Nat) (pass : Bool) (s : State) : Host.Outcome State Fault Refusal :=
  .next (
    if (s.bent bent).testing.isNone ∨ !(onBent s bent).isEmpty then s
    else
      let s := s.setBent bent (fun b => { b with testing := none, withdrawn := b.withdrawn || !pass })
      logEvent s (bent / 16) 0x000A 6 0xFF (BitVec.ofNat 64 (bent % 16)) (if pass then 0 else 1))

/-! ### Event logs (R297 to R300) -/

/-- The 32 bytes of an event record (R298). -/
def eventBytes (die : Nat) (e : Event) : List Byte :=
  leBytes 8 e.time ++ leBytes 2 e.code ++ leBytes 1 die ++ leBytes 1 e.index ++ leBytes 1 e.unit ++ leBytes 3 0
    ++ leBytes 8 e.data0.toNat ++ leBytes 8 e.data1.toNat

/-- Writes one record and advances the producer word, as a release at host scope (R300), once its die may write there. `rest` is what
the die then still has to report. -/
def writeRecord (s : State) (die : Nat) (r : Ring) (e : Event) (rest : Die → Die) : State :=
  let n := (s.die die).logProd
  match agentWrite s die [(r.base + 32 * (n % 2 ^ r.log2), eventBytes die e), (r.prod, leBytes 4 (n + 1))] with
  | (s, true) => s.setDie die (fun d => rest { d with logProd := (n + 1) % 2 ^ 32 })
  | (s, false) => s

/-- Where the oldest thing that a die may have to report is a read that may have met a corrected error (R159), whether it has is settled:
it becomes the oldest event, or is forgotten (log 134). -/
def settleCorrected (d : Die) : Option Die :=
  match d.corrected with
  | [] => none
  | (e, k) :: rest =>
    if d.events.head?.elim true (fun x => decide (e.time ≤ x.time)) then
      some { d with corrected := rest, events := if Config.freeNat k % 2 = 1 then e :: d.events else d.events }
    else none

/-- EVENT_RECORD_WRITE (R297 to R300): the oldest event of a die is written, or dropped and counted; once room returns, the
first record says how many were lost. -/
def execEventRecordWrite (die : Nat) (s : State) : Host.Outcome State Fault Refusal :=
  .next (
    let d := s.die die
    match settleCorrected d, d.log, d.events with
    | some k, _, _ => if d.awake then s.setDie die (fun _ => k) else s
    | none, some r, e :: rest =>
      if !d.awake ∨ !agentReads s die r.cons 4 then s
      else if 2 ^ r.log2 ≤ (d.logProd + 2 ^ 32 - readNat s r.cons 4) % 2 ^ 32 then
        s.setDie die (fun d => { d with events := rest, dropped := d.dropped + 1 })
      else if 0 < d.dropped then
        writeRecord (bridgeRead s die r.cons 4 false) die r ⟨d.time, 0x000D, 5, 0xFF, BitVec.ofNat 64 d.dropped, 0⟩
          (fun d => { d with dropped := 0 })
      else writeRecord (bridgeRead s die r.cons 4 false) die r e (fun d => { d with events := rest })
    | _, _, _ => s)

/-! ### Temperature and power (R391) -/

/-- THERMAL_LIMIT (R391): the junction temperature is measured. -/
def execThermalLimit (celsius : Nat) (s : State) : Host.Outcome State Fault Refusal :=
  .next (
    let placing := if 115 ≤ celsius then false else if celsius < 95 then true else s.mgmt.placing
    let s := s.setMgmt (fun m => { m with celsius := celsius, throttled := decide (105 ≤ celsius), placing := placing })
    if 115 ≤ celsius then forAll (residents s) s (fun b s => requestStop s b .thermal) else s)

/-- POWER_REPORT (R391): every 1 ms. -/
def execPowerReport (watts celsius : Nat) (s : State) : Host.Outcome State Fault Refusal :=
  .next (
    if (s.die 0).awake ∧ (s.die 0).time % 1400000 = 0 then s.setMgmt (fun m => { m with power := watts, celsius := celsius })
    else s)

/-! ### Bring-up (R389) -/

/-- One stage passes its checks (R389): its key hashes to the fused value, its version is not below the rollback counter, and its
signature verifies. -/
def stageOk (f : FwStage) : Bool :=
  keyHash f.modulus == Config.fusedKeyHash && decide (Config.fusedRollback ≤ f.version)
    && signatureVerifies f.modulus f.sig (sha512 f.image)

/-- Every stage verifies the next. -/
def bootOk (fs : List FwStage) : Bool := !fs.isEmpty && fs.all stageOk

/-- The management unit after stages have been offered. -/
def booted (m : Mgmt) (fs : List FwStage) : Mgmt :=
  { m with stages := if bootOk fs then fs.map (fun f => (stageDigest f.image, f.version)) else [], recovery := !bootOk fs }

/-- POWER_ON_RESET (R389): the state after reset, with the firmware verified, or recovery. -/
def execPowerOnReset (stages : List FwStage) (s : State) : Host.Outcome State Fault Refusal :=
  .next { State.reset with agenda := s.agenda, freeCtr := s.freeCtr, mgmt := booted Mgmt.reset stages }

/-- FIRMWARE_UPLOAD (R389): accepted in recovery only. -/
def execFirmwareUpload (stages : List FwStage) (s : State) : Host.Outcome State Fault Refusal :=
  .next (if s.mgmt.recovery then s.setMgmt (fun m => booted m stages) else s)

end Sys2Proof.Machine
end

