-- ==== Sys2Proof/Machine/Management.lean ====
section
/-!
DEFINITION. The management unit (R377, R378): the command at the head of its ring, accepting it, completion words, and
BAR0's registers.
-/
namespace Sys2Proof.Machine

/-- The physical address of the command at the head of the ring. -/
def headAddr (s : State) : Nat :=
  s.mgmt.cmdBase.toNat + 64 * (s.mgmt.cmdCons.toNat % 2 ^ (s.mgmt.cmdSize.toNat + 4))

/-- The code of the command that is next to be performed: commands are performed one at a time, and in recovery none is. -/
def headCode (s : State) : Option Nat :=
  if s.mgmt.recovery ∨ s.mgmt.job.isSome ∨ s.mgmt.cmdCons = s.mgmt.cmdProd then none else some (readNat s (headAddr s) 1)

/-- Physical memory that a command may name. -/
def inMemory (pa n : Nat) : Bool := nodeOk pa && nodeOk (pa + (n - 1))

/-- A completion word that can be written; 0 names none. -/
def wordUsable (word : Nat) : Bool := word == 0 || (word % 8 == 0 && inMemory word 8)

/-- Writes a command's completion word, as a release at host scope (R378, R231). -/
def finishCommand (s : State) (word seq : Nat) (code : Option (BitVec 8)) : State :=
  if word = 0 ∨ !wordUsable word then s
  else
    let v := match code with
      | none => wordOk seq
      | some c => wordFail c.toNat seq
    let a : Acc := { agentAcc 0 none none none .store word word 8 v [] with ord := .release, scope := 9 }
    (depart (bridgeWrite s 0 word 8 false) a).2

/-- The head command is accepted. -/
def acceptHead (s : State) : State := s.setMgmt (fun m => { m with cmdCons := m.cmdCons + 1 })

/-- Commands with an unknown code fail with OPERAND_BOUNDS as they come to the head (R378). -/
def skipUnknown : Nat → State → State
  | 0, s => s
  | n + 1, s =>
    match headCode s with
    | none => s
    | some c =>
      if 1 ≤ c ∧ c ≤ 0x10 then s
      else
        let at_ := headAddr s
        skipUnknown n (finishCommand (acceptHead s) (readNat s (at_ + 8) 8) (readNat s (at_ + 16) 8) (some 0x07))

/-- Goes on to the next command that the unit knows. -/
def nextCommand (s : State) : State := skipUnknown (s.mgmt.cmdProd - s.mgmt.cmdCons).toNat s

/-- How a command's effect ends: it is performed, with a failure code or none; its job goes on; or it cannot begin yet, where probes
for the places that it is to write may be what it waits for. -/
inductive CmdEnd where
  | done (code : Option (BitVec 8)) (s : State)
  | later (job : MgmtJob) (s : State)
  | wait
  | writes (places : List (Nat × Nat))
  deriving Repr

/-- The job under way ends. -/
def endJob (s : State) (code : Option (BitVec 8)) : State :=
  match s.mgmt.job with
  | none => s
  | some (_, word, seq) => nextCommand (finishCommand (s.setMgmt (fun m => { m with job := none })) word seq code)

/-- A command of a code whose operands lie within their limits or not (R378). -/
def command (code : Nat) (ok : Bool) (body : State → CmdEnd) (s : State) : State :=
  if headCode s ≠ some code then s
  else
    let at_ := headAddr s
    let word := readNat s (at_ + 8) 8
    let seq := readNat s (at_ + 16) 8
    if !ok ∨ readNat s (at_ + 1) 7 ≠ 0 ∨ !wordUsable word then nextCommand (finishCommand (acceptHead s) word seq (some 0x07))
    else
      match body (acceptHead s) with
      | .done r t => nextCommand (finishCommand t word seq r)
      | .later j t => t.setMgmt (fun m => { m with job := some (j, word, seq) })
      | .wait => s
      | .writes ws => forAll ws s (fun w s => sendProbes s w.1 w.2)

/-- A word of memory that a command of the management unit of die 0 reads, through the bridge where it is the host's; the command
waits while it may not read it (R165, R321). -/
def readWord (s : State) (pa : Nat) (k : Nat → State → CmdEnd) : CmdEnd :=
  if !agentReads s 0 pa 4 then .wait else k (readNat s pa 4) (bridgeRead s 0 pa 4 false)

/-! ### BAR0 (R377) -/

/-- Writes from outside the module that have arrived and are not applied: a release of the host at host scope waits for them (R208,
R377, R385). -/
def hostWritesLeft (s : State) : Bool :=
  s.accs.any (fun a => a.writesBytes && a.gid.isNone && a.cmd.isNone && a.core.isNone && a.blk.isNone)

/-- CMDPROD_WRITE (R377, R378): a release at host scope. -/
def execCmdprodWrite (prod : BitVec 32) (s : State) : Host.Outcome State Fault Refusal :=
  .next (if s.mgmt.recovery ∨ hostWritesLeft s then s else nextCommand (s.setMgmt (fun m => { m with cmdProd := prod })))

/-- Where an offset of BAR0 leads (R377): die, unit, index and register. -/
structure Bar0 where
  die : Nat
  unit : Nat
  index : Nat
  reg : Nat
  deriving DecidableEq, Repr

def Bar0.decode (off : Nat) : Option Bar0 :=
  if off < 2 ^ 26 ∧ off % 8 = 0 then some ⟨off / 2 ^ 24, bitField off 20 4, bitField off 12 8, bitField off 3 9⟩ else none

/-- The number of a register of the management unit of die 0 (log 40). -/
def mgmtReg (off : Nat) : Option Nat := (Bar0.decode off).bind (fun b => if b.die = 0 ∧ b.unit = 7 ∧ b.index = 0 then some b.reg else none)

/-- What a read of BAR0 gives (R377, R302, R391): the registers of the management unit, and the snapshot registers of a core; nothing where
the spec gives no register. A read changes nothing. -/
def bar0Read (s : State) (off : Nat) : Option Dword :=
  match Bar0.decode off with
  | none => none
  | some b =>
    let k := s.core (b.die * 64 + b.index)
    let m := s.mgmt
    match b.unit, b.reg with
    | 0, 0 => if b.index < 64 then some k.snapT else none
    | 0, 1 => if b.index < 64 then some k.snapI else none
    | 0, 2 => if b.index < 64 then some k.snapQ else none
    | 0, 3 => if b.index < 64 then some k.snapS else none
    | 7, n =>
      if b.die ≠ 0 ∨ b.index ≠ 0 then none
      else
        match n with
        | 0 => some m.cmdBase
        | 1 => some (m.cmdSize.setWidth 64)
        | 2 => some (m.cmdProd.setWidth 64)
        | 3 => some (m.cmdCons.setWidth 64)
        | 4 => some (BitVec.ofNat 64 m.powerLimit)
        | 5 => some (BitVec.ofNat 64 m.power)
        | 6 => some (BitVec.ofNat 64 m.celsius)
        | _ => none
    | _, _ => none

/-- BAR0_REGISTER_WRITE (R377, R391): RW fields take their new value, any other stays. -/
def execBar0RegisterWrite (off : Nat) (val : Dword) (s : State) : Host.Outcome State Fault Refusal :=
  .next (
    if s.mgmt.recovery then s
    else
      match mgmtReg off with
      | some 0 => s.setMgmt (fun m => { m with cmdBase := BitVec.ofNat 64 (bitField val.toNat 12 40 * 4096) })
      | some 1 => s.setMgmt (fun m => if m.cmdProd = m.cmdCons then { m with cmdSize := val.setWidth 4 } else m)
      | some 2 => if hostWritesLeft s then s else nextCommand (s.setMgmt (fun m => { m with cmdProd := val.setWidth 32 }))
      | some 4 =>
        s.setMgmt (fun m => if 1200 ≤ val.toNat ∧ val.toNat ≤ 2600 then { m with powerLimit := val.toNat } else m)
      | _ => s)

end Sys2Proof.Machine
end

