-- ==== Sys2Proof/Machine/Images.lean ====
section
/-!
DEFINITION. Images (R288, R291, R292), checkpoints (R293) and resuming (R294, R370): what a block leaves at the seal, what
stays behind under names of its own while it is absent, and where everything goes when it returns.
-/
namespace Sys2Proof.Machine

/-! ### Names while a block is absent -/

/-- The name of an absent group (log 47): `key` is its slot counted from the block's first. -/
def awayGid (blk key : Nat) : Nat := 32768 * (blk + 1) + key

/-- The name of a byte of an absent block's scratchpad. -/
def awayByte (blk off : Nat) : Nat := 2 ^ 60 * (blk + 1) + off

/-- Renamings of groups and of scratchpad bytes. -/
structure Names where
  gid : Nat → Nat
  byte : Nat → Nat

/-- The names of a block's groups and bytes at a place become those of an absent block. -/
def leaving (blk core slot n base size : Nat) (checked : Bool) : Names :=
  { gid := fun g =>
      if coreOfGroup g = core ∧ (slot ≤ slotOf g ∧ slotOf g < slot + n ∨ checked ∧ slot + 32 ≤ slotOf g ∧ slotOf g < slot + 32 + n) then
        awayGid blk (slotOf g - slot)
      else g,
    byte := fun a =>
      if isScratch a ∧ (windowOf a).core = core ∧ base ≤ (windowOf a).off ∧ (windowOf a).off < base + size then
        awayByte blk ((windowOf a).off - base)
      else a }

/-- And back, at a new place. -/
def returning (blk core slot base : Nat) : Names :=
  { gid := fun g => if g / 32768 = blk + 1 then groupId core (slot + g % 32768) else g,
    byte := fun a => if a / 2 ^ 60 = blk + 1 then scratchAddr core (base + a % 2 ^ 60) else a }

def Names.park (n : Names) : Park → Park
  | .barw w ph scope => .barw (n.byte w) ph scope
  | p => p

/-- Renames what a group's waits name. -/
def Names.group (n : Names) (g : Group) : Group :=
  { g with splits := g.splits.map (fun q => (q.1, { q.2 with park := q.2.park.map n.park,
                                                             parts := q.2.parts.map (fun r => { r with park := n.park r.park }) })),
           entry := g.entry.map (fun e => (e.1, n.park e.2.1, e.2.2)) }

/-- Renames the keys of a map. -/
def rekey {α : Type} (f : Nat → Nat) (m : Map α) : Map α := m.foldl (fun t p => t.put (f p.1) p.2) []

def Names.action (n : Names) : Action → Action
  | .unlock g l => .unlock (n.gid g) l
  | .xcnt g h is => .xcnt (n.gid g) h is
  | .spawn g t d ls => .spawn (n.gid g) t d ls
  | a => a

/-- Renames what a level's entries name. -/
def Names.level (n : Names) (l : Level) : Level :=
  { l with records := l.records.map (fun r => { r with gid := n.gid r.gid }),
           regs := rekey (fun k => n.gid (k / 256) * 256 + k % 256) l.regs,
           words := rekey (fun k => n.byte (k * 4) / 4) l.words,
           credits := rekey (fun k => n.byte (k * 8) / 8) l.credits,
           actions := l.actions.map n.action, locks := l.locks.map (fun p => (n.gid p.1, p.2)) }

/-- Renames sets kept by thread. -/
def Names.threads {α : Type} (n : Names) (m : Map α) : Map α := rekey (fun k => n.gid (k / 32) * 32 + k % 32) m

/-- Renames the groups that have pinned experts of a directory. -/
def Names.dir (n : Names) (d : Dir) : Dir := { d with held := d.held.map (fun x => (x.1, n.gid x.2)) }

/-- Everything that names the block's groups outside the block: pegs and requests, observed sets, collectives, tasks and pins;
and the waits of other blocks' groups, resident or saved, on its barrier words. -/
def Names.state (n : Names) (blk : Nat) (s : State) : State :=
  let other (i : Image) : Image := if i.blk = blk then i else { i with groups := i.groups.map (fun p => (p.1, n.group p.2)) }
  { s with groups := s.groups.map (fun p => (p.1, n.group p.2)), images := s.images.map other,
           pegs := s.pegs.map (fun p => { p with gid := n.gid p.gid }),
           lockReqs := s.lockReqs.map (fun p => (p.1, { p.2 with gid := n.gid p.2.gid })),
           obs := n.threads s.obs, seen := n.threads s.seen, fenced := n.threads s.fenced,
           colls := s.colls.map (fun p => (p.1, { p.2 with gid := n.gid p.2.gid })),
           tasks := s.tasks.map (fun p => (p.1, { p.2 with gid := n.gid p.2.gid })),
           dies := s.dies.map (fun p => (p.1, { p.2 with dirs := p.2.dirs.map n.dir })) }

/-! ### The image -/

/-- One bit of CRC-32C, reflected (R292). -/
def crcBit (c : BitVec 32) : BitVec 32 := if c.getLsbD 0 then (c >>> 1) ^^^ 0x82F63B78 else c >>> 1

def crcByte (c : BitVec 32) (b : Byte) : BitVec 32 :=
  let x := c ^^^ b.setWidth 32
  crcBit (crcBit (crcBit (crcBit (crcBit (crcBit (crcBit (crcBit x)))))))

/-- CRC-32C (R292). -/
def crc32c (bs : List Byte) : BitVec 32 := bs.foldl crcByte 0xFFFFFFFF ^^^ 0xFFFFFFFF

/-- The 64 bytes of an image header (R292), with a value of the crc field. -/
def headerWith (ident : Dword) (gen : Nat) (b : Block) (len time crc : Nat) : List Byte :=
  leBytes 8 ident.toNat ++ leBytes 4 gen ++ leBytes 4 crc ++ leBytes 8 b.index ++ leBytes 4 b.rank ++ leBytes 4 b.stage
    ++ leBytes 8 len ++ leBytes 8 time ++ leBytes 16 0

/-- The header of an image: the CRC is taken over all its bytes with the crc field as zero. -/
def headerOf (ident : Dword) (gen : Nat) (b : Block) (time num : Nat) : List Byte :=
  let payload := Config.imagePayload num
  let len := 64 + payload.length
  headerWith ident gen b len time (crc32c (headerWith ident gen b len time 0 ++ payload)).toNat

/-- All bytes of an image. -/
def Image.all (i : Image) : List Byte := i.header ++ Config.imagePayload i.num

/-- The regions that a block's image holds: start, length, and offset in the image. -/
def regionsOf (core base pad : Nat) (bays : List Nat) : List (Nat × Nat × Nat) :=
  (scratchAddr core base, pad, 0) :: bays.map (fun n => (windowAddr core 2 (n * 65536), 65536, 2 ^ 22 + n * 65536))

/-- The region that an address lies in, as an offset. -/
def offsetIn (rs : List (Nat × Nat × Nat)) (a : Nat) : Option Nat :=
  (rs.find? (fun r => decide (r.1 ≤ a ∧ a < r.1 + r.2.1))).map (fun r => r.2.2 + (a - r.1))

/-- Entries of a map at addresses in some regions, by offset. -/
def takeRegions {α : Type} (rs : List (Nat × Nat × Nat)) (m : Map α) : Map α :=
  m.foldl (fun t p => match offsetIn rs p.1 with | some o => t.put o p.2 | none => t) []

def outsideRegions {α : Type} (rs : List (Nat × Nat × Nat)) (m : Map α) : Map α := m.filter (fun p => (offsetIn rs p.1).isNone)

/-- The address of an offset in an image, at a new place. -/
def addrFor (core base off : Nat) : Nat := if off < 2 ^ 22 then scratchAddr core (base + off) else windowAddr core 2 (off - 2 ^ 22)

/-- A group as its image holds it: no result is in flight, its stalls count from the seal, and it meets its page fault again
(R288, R291). -/
def savedGroup (clk : Nat) (g : Group) : Group :=
  { g with inflight := [], desched := none, stopped := false,
           splits := g.splits.map (fun q => (q.1, { q.2 with stallUntil := q.2.stallUntil - clk, readySince := none, yieldAt := none })) }

/-- The bays of a core that a block owns. -/
def heldBays (s : State) (core blk : Nat) : Map Bay := (s.core core).bays.filter (fun p => p.2.owner == some blk)

/-! ### When an image can be sealed (R288, R212, R262, R278) -/

/-- The block's XUNPINs that are still held for copies of their groups (R270): their requests have not left the core, so they are not in
flight, and the image holds them with their destinations (log 163). -/
def heldPins (s : State) (blk : Nat) : List Acc :=
  s.accs.filter (fun a => a.blk == some blk && pinHeld a && a.cmp.isNone && unpinHeld s a)

/-- The results of these requests. -/
def pinToks (pins : List Acc) : List Nat := pins.filterMap (·.tok)

/-- A group stands at an instruction boundary with every result written, but those of some requests. A failure that waits for such a
result goes with the image. -/
def groupQuiet (s : State) (toks : List Nat) (gid : Nat) (g : Group) : Bool :=
  let saved := g.pend.any (fun p => toks.contains p.tok)
  (g.stopped || isShadow s gid g) && g.npe.isNone && (g.fails.isEmpty || saved) && g.faultWait.isNone
    && g.pend.all (fun p => (s.lockReqs.get? p.tok).isSome || toks.contains p.tok)
    && pairLevel s gid g && !s.toks.any (fun p => p.2.gid == gid && !toks.contains p.1) && !s.cmps.any (fun c => c.gid == gid)

/-- Nothing of the block is under way but waits and held requests that are saved, and collectives. -/
def blockQuiet (s : State) (blk : Nat) (b : Block) : Bool :=
  let pins := heldPins s blk
  (groupsOf s blk).all (fun p => groupQuiet s (pinToks pins) p.1 p.2)
    && s.accs.all (fun a => !(a.blk == some blk && a.core.isSome) || pins.contains a) && !windowBusy s blk b
    && s.cmds.all (fun p => p.2.blk != blk || atBoundary s p.1 p.2)

/-- An engine failure meets the stop at the boundary: the fault is entered first (R282). -/
def takeFails (s : State) (blk : Nat) : Option State :=
  (groupsOf s blk).findSome? (fun p =>
    match p.2.fails, p.2.splits.filter (fun q => !(p.2.handler && p.2.held.contains q.2.uid)) with
    | f :: rest, q :: _ =>
      if p.2.npe.isSome ∨ resultsPending s p.2 ∨ !pairLevel s p.1 p.2 ∨ p.2.faultWait.isSome then none
      else some (takeFaultAt (s.setGroup p.1 (fun g => { g with fails := rest, desched := none })) p.1 q.1 true f.cause f.eval q.2.em)
    | _, _ => none)

/-! ### Sealing -/

/-- The block leaves its core: its image is stored, its resources are free (R288), and what stays behind is renamed. -/
def takeImage (s : State) (blk : Nat) (b : Block) (ident : Dword) (gen pad : Nat) (checkpoint : Bool) : Nat × State :=
  let bays := heldBays s b.core blk
  let rs := regionsOf b.core b.scratchBase pad (bays.map (·.1))
  let names := leaving blk b.core b.firstSlot b.nGroups b.scratchBase pad (((s.launchOf b).map (·.checked)).getD false)
  let mine := groupsOf s blk
  let gids := mine.map (·.1)
  let cmds := s.cmds.filter (fun p => p.2.blk == blk)
  let ids := cmds.map (·.1)
  let pins := heldPins s blk
  let toks := s.toks.filter (fun p => (pinToks pins).contains p.1)
  let away : Block := { b with core := 256, sealed := true, levels := b.levels.map names.level }
  let (num, s) := s.fresh
  let saveCmd (k : Cmd) : Cmd := { k with core := 256, gid := names.gid k.gid, tag := none, obs := k.obs }
  let img : Image :=
    { num := num, launch := b.launch, gen := gen, header := headerOf ident gen b (s.die (dieOfCore b.core)).time num, blk := blk,
      checkpoint := checkpoint, block := away,
      groups := mine.map (fun p => (slotOf p.1 - b.firstSlot, names.group (savedGroup s.clk p.2))),
      bytes := takeRegions rs s.mem, carry := takeRegions rs s.carry, bays := bays,
      cmds := cmds.map (fun p => (p.1, saveCmd p.2)), copyQ := (s.core b.core).copyQ.filter ids.contains,
      mxQ := (s.core b.core).mxQ.filter ids.contains, ranges := s.ranges.filter (fun r => ids.contains r.cmd),
      accs := pins.map (fun a => { a with gid := a.gid.map names.gid, core := none }),
      toks := toks.map (fun p => (p.1, { p.2 with gid := names.gid p.2.gid })) }
  let reqs := (s.lockReqs.filter (fun p => gids.contains p.2.gid)).map (·.1)
  let s := s.setCore b.core (fun c => { c with bays := c.bays.filter (fun p => p.2.owner != some blk),
                                               copyQ := c.copyQ.filter (fun i => !ids.contains i),
                                               mxQ := c.mxQ.filter (fun i => !ids.contains i) })
  let s := { s with groups := s.groups.filter (fun p => p.2.blk != blk), blocks := s.blocks.put blk away,
                    accs := s.accs.filter (fun a => !pins.contains a), toks := s.toks.filter (fun p => !(pinToks pins).contains p.1),
                    cmds := s.cmds.filter (fun p => p.2.blk != blk), ranges := s.ranges.filter (fun r => !ids.contains r.cmd),
                    mem := outsideRegions rs s.mem, carry := outsideRegions rs s.carry,
                    queue := s.queue.filter (fun e => !(reqs.any (fun r => e.payload == .lock r) && e.state != .accepted)),
                    pegs := s.pegs.map (fun p => if gids.contains p.gid ∧ p.state = .holding then { p with state := .absent } else p),
                    images := s.images.filter (fun i => !(i.blk == blk && !i.checkpoint)) ++ [img] }
  (num, names.state blk s)

/-- The fabric time at which an image was sealed (R292). -/
def Image.sealedAt (i : Image) : Nat := ofLe ((i.header.drop 40).take 8)

/-- HALT's images carry one generation (log 48); each keeps the time at which it was sealed. -/
def restamp (s : State) (launch : Nat) (ident : Dword) (gen : Nat) : State :=
  let halted (i : Image) : Bool := i.launch == launch && (match i.block.stop with | some (.halt _) => true | _ => false)
  { s with images := s.images.map (fun i =>
      if halted i then { i with gen := gen, header := headerOf ident gen i.block i.sealedAt i.num } else i) }

/-- The images of a checkpoint, one after another from an address on. -/
def imageWrites (area : Nat) : List Image → List (Nat × List Byte)
  | [] => []
  | i :: t => (area, i.all) :: imageWrites (area + i.all.length) t

/-- The lowest die that is awake: where the record of a checkpoint by command is logged (log 154). -/
def awakeDie (s : State) : Nat := ((s.dies.find? (fun d => d.2.awake)).map (·.1)).getD 0

/-- A CHECKPT ends once every block that it stopped, and every one that a HALT stops meanwhile, has been sealed, and the images can be
written to the area, as an agent of die 0 writes (R293, R378, R303, log 19). -/
def finishCheckpoint (s : State) : State :=
  match s.mgmt.job with
  | some (.checkpt launch area bytes gen nums at_, _, _) =>
    let waiting := s.blocks.any (fun p => p.2.launch == launch && !p.2.sealed
      && (match p.2.stop with
          | some .checkpoint | some (.halt _) => true
          | _ => false))
    if waiting then s
    else
      let is := s.images.filter (fun i => nums.contains i.num)
      if bytes < is.foldl (fun n i => n + i.all.length) 0 then
        -- too small: the blocks go on as after a pre-emption
        let back (b : Block) : Block := if b.launch = launch ∧ b.stop = some .checkpoint then { b with stop := some .preempt } else b
        let plain (i : Image) : Image := if nums.contains i.num then { i with checkpoint := false, block := back i.block } else i
        let halted (i : Image) : Bool := nums.contains i.num
          && (match (s.blocks.get? i.blk).bind (·.stop) with | some (.halt _) => true | _ => false)
        endJob { s with blocks := s.blocks.map (fun p => (p.1, back p.2)),
                        images := (s.images.filter (fun i => !halted i)).map plain } (some Cause.accessFault.code)
      else
        let ident := ((s.launches.get? launch).map (·.ident)).getD 0
        match agentWrite s 0 (imageWrites area is ++ [(at_ + 56, leBytes 8 gen)]) with
        | (s, false) => s
        | (s, true) =>
          let s := s.setLaunch launch (fun l => { l with gen := gen, checkpointed := true })
          endJob (logEvent s (awakeDie s) 0x0009 5 0xFF ident (BitVec.ofNat 64 gen)) none
  | _ => s

/-- Notes an image of the checkpoint under way. -/
def noteImage (s : State) (num : Nat) : State :=
  s.setMgmt (fun m => { m with job := m.job.map (fun j =>
    match j.1 with
    | .checkpt l a b g nums at_ => (.checkpt l a b g (nums ++ [num]) at_, j.2)
    | _ => j) })

/-- The generation of the checkpoint under way for a launch. -/
def jobGen (s : State) (launch : Nat) : Option Nat :=
  match s.mgmt.job with
  | some (.checkpt l _ _ g _ _, _, _) => if l = launch then some g else none
  | _ => none

/-- A block that halts while a CHECKPT stops it is one of that checkpoint's (R293, R303): a copy of its image takes its place there. -/
def joinCheckpoint (s : State) (num : Nat) (ident : Dword) (gen : Nat) : State :=
  match s.images.find? (fun i => i.num == num) with
  | none => s
  | some i =>
    let (n, s) := s.fresh
    let b : Block := { i.block with stop := some .checkpoint }
    let copy : Image := { i with num := n, block := b, header := headerOf ident gen b i.sealedAt n }
    finishCheckpoint (noteImage { s with images := s.images ++ [copy] } n)

/-- Seals a block that is quiet. The record of a HALT's checkpoint is its block's die's (log 154). -/
def sealBlock (s : State) (blk : Nat) (b : Block) (l : Launch) (k : StopKind) : State :=
  match k with
  | .halt _ =>
    let gen := (jobGen s b.launch).getD ((l.gen + 1) % 2 ^ 32)
    let (num, s) := takeImage s blk b l.ident gen l.padBytes true
    let s := restamp (s.setLaunch b.launch (fun l => { l with gen := gen, checkpointed := true, halted := true })) b.launch l.ident gen
    if (jobGen s b.launch).isSome then joinCheckpoint s num l.ident gen
    else logEvent s (dieOfCore b.core) 0x0009 5 0xFF l.ident (BitVec.ofNat 64 gen)
  | .checkpoint =>
    let (num, s) := takeImage s blk b l.ident ((jobGen s b.launch).getD l.gen) l.padBytes true
    finishCheckpoint (noteImage s num)
  | _ => (takeImage s blk b l.ident l.gen l.padBytes false).2

/-- IMAGE_SEAL (R288, R291, R292, R303). -/
def execImageSeal (blk : Nat) (s : State) : Host.Outcome State Fault Refusal :=
  .next (
    match s.blocks.get? blk with
    | none => s
    | some b =>
      match b.stop, s.launchOf b with
      | some k, some l =>
        if b.sealed ∨ b.terminated.isSome then s
        else
          match takeFails s blk with
          | some s => s
          | none => if blockQuiet s blk b then sealBlock s blk b l k else s
      | _, _ => s)

/-! ### Resuming -/

/-- The block may return to a core (R294): its bent takes blocks, its slots, registers, scratchpad, shoring and bays are
free, and there is room for its commands; members of its cluster that are resident stand on the same bent at the same slot. -/
def returnFits (s : State) (i : Image) (b : Block) (l : Launch) (core slot : Nat) : Bool :=
  let peers := (clusterOf s b).filter (fun p => p.1 != i.blk && !p.2.sealed)
  bentOpen s core && coreFits s s.reserves l core slot && i.bays.all (fun p => (s.bay core p.1).owner.isNone)
    && decide (coreShoring s core + b.onchip ≤ 131072)
    && decide ((s.core core).copyQ.length + i.copyQ.length ≤ 32) && decide ((s.core core).mxQ.length + i.mxQ.length ≤ 32)
    && decide (scoreEntries s core + i.ranges.length + (s.ranges.filter (fun r => r.blk == i.blk)).length ≤ 128)
    && peers.all (fun p => bentOfCore p.2.core == bentOfCore core && p.2.firstSlot == slot && p.2.core != core)

/-- A group as it returns. A rollback that was under way goes on (R330). -/
def returnedGroup (clk : Nat) (n : Names) (failing : Bool) (g : Group) : Group :=
  let g := n.group { g with age := clk, splits := g.splits.map (fun q => (q.1, { q.2 with stallUntil := clk + q.2.stallUntil })) }
  if failing then { g with stopped := true, handler := false, held := [], entry := none } else g

/-- Where the block of a rank stands, in every member's list. -/
def movePeer (s : State) (b : Block) (core base : Nat) : State :=
  let mv (c : Block) : Block :=
    if c.launch = b.launch ∧ c.cluster = b.cluster ∧ c.stage = b.stage then { c with peers := c.peers.set b.rank (core, base) } else c
  { s with blocks := s.blocks.map (fun p => (p.1, mv p.2)), images := s.images.map (fun i => { i with block := mv i.block }) }

/-- Lock requests that were on their way to their homes leave again (R370). -/
def resendLocks (s : State) (core : Nat) (gids : List Nat) : State :=
  let out (p : Nat × LockReq) : Bool :=
    gids.contains p.2.gid && p.2.late.isNone && !s.pegs.any (fun q => q.req == p.1)
      && !s.queue.any (fun e => e.payload == .lock p.1)
  forAll (s.lockReqs.filter out) s (fun p s =>
    let home := lockHome p.2.line
    sendEntry s core p.2.gid (.slice home.1 home.2) (.lock p.1))

/-- Barrier words on which splits wait: a phase that changed while a block was absent lets them go on (R192). -/
def wakeParked (s : State) : State :=
  let word (k : Park) : List Nat := match k with | .barw w _ _ => [w] | _ => []
  let words := s.groups.flatMap (fun p =>
    (match keptPark p.2 with | some k => word k | none => [])
      ++ p.2.splits.flatMap (fun q => (match q.2.park with | some k => word k | none => []) ++ q.2.parts.flatMap (fun r => word r.park)))
  forAll words.eraseDups s (fun w s => wakeBarriers s w 8)

/-- The block of an image returns to a core at a first slot; `b` is the block as it stands. -/
def returnBlock (s : State) (i : Image) (b : Block) (l : Launch) (core slot : Nat) (started : Bool) : State :=
  let base := (padBase (tenants s core) l.padBytes).getD 0
  let names := returning i.blk core slot base
  let back : Block := { b with core := core, firstSlot := slot, scratchBase := base, sealed := false, stop := none, started := started,
                               levels := b.levels.map names.level }
  let s := clearPad { s with blocks := s.blocks.put i.blk back } core base l.padBytes
  let s := movePeer s back core base
  let gids := i.groups.map (fun p => groupId core (slot + p.1))
  let s := forAll gids s (fun g s => retireSlot s g)
  let groups := i.groups.foldl (fun (m : Map Group) (p : Nat × Group) =>
    m.put (groupId core (slot + p.1)) (returnedGroup s.clk names b.failing.isSome p.2)) s.groups
  let s := names.state i.blk { s with groups := groups }
  let addr := addrFor core base
  let hold (p : Peg) : Peg :=
    if !gids.contains p.gid then p
    else { p with site := p.gid, state := if p.state = .absent then .holding else p.state }
  let mine (k : Cmd) : Cmd := { k with core := core, gid := names.gid k.gid }
  let pin (a : Acc) : Acc := { a with gid := a.gid.map names.gid, core := some core, die := dieOfCore core }
  let s := { s with mem := i.bytes.foldl (fun (m : Map Byte) (p : Nat × Byte) => Map.putD m Config.unwritten (addr p.1) p.2) s.mem,
                    carry := i.carry.foldl (fun (m : Map (List Nat)) (p : Nat × List Nat) => Map.putD m [] (addr p.1) p.2) s.carry,
                    cmds := i.cmds.foldl (fun (m : Map Cmd) (p : Nat × Cmd) => m.put p.1 (mine p.2)) s.cmds,
                    ranges := s.ranges ++ i.ranges, pegs := s.pegs.map hold, accs := s.accs ++ i.accs.map pin,
                    toks := i.toks.foldl (fun (m : Map Tok) (p : Nat × Tok) => m.put p.1 { p.2 with gid := names.gid p.2.gid }) s.toks }
  let s := s.setCore core (fun c => { c with bays := i.bays.foldl (fun (m : Map Bay) (p : Nat × Bay) => m.put p.1 p.2) c.bays,
                                             copyQ := c.copyQ ++ i.copyQ, mxQ := c.mxQ ++ i.mxQ })
  let s := forAll gids s (fun g s => deliverLate s g)
  let s := resendLocks s core gids
  let lines := ((s.pegs.filter (fun p => gids.contains p.gid && p.state != .waiting)).map (·.line)).eraseDups
  wakeParked (forAll lines s (fun n s => serveChain s n))

/-- The block waits for a placement, not for the host (R288, R295, R391). -/
def awaitsReturn (b : Block) : Bool :=
  b.sealed && (match b.stop with
    | some (.halt _) | some .checkpoint => false
    | _ => true)

/-- A gang goes on only once every member that waits has been placed (R295, R50). -/
def startGang (s : State) (launch : Nat) : State :=
  if s.blocks.any (fun p => p.2.launch == launch && awaitsReturn p.2) then s
  else { s with blocks := s.blocks.map (fun p => if p.2.launch = launch ∧ !p.2.sealed then (p.1, { p.2 with started := true }) else p) }

/-- BLOCK_RESUME (R288, R294, R370). -/
def execBlockResume (blk : Nat) (core slot : Nat) (s : State) : Host.Outcome State Fault Refusal :=
  .next (
    match s.blocks.get? blk, (s.images.filter (fun i => i.blk == blk && !i.checkpoint)).getLast? with
    | some b, some i =>
      match s.launchOf b with
      | none => s
      | some l =>
        if !awaitsReturn b ∨ !returnFits s i b l core slot then s
        else
          let s := returnBlock { s with images := s.images.filter (· != i) } i b l core slot (!l.gang && b.started)
          if l.gang then startGang s b.launch else s
    | _, _ => s)

/-! ### Checkpoints by command (R293, R378) -/

/-- The launch of an identifier. -/
def launchNamed (s : State) (ident : Dword) : Option (Nat × Launch) := s.launches.find? (fun p => p.2.ident == ident)

/-- CHECKPT (R293, R378). A resident block that a HALT is stopping is sealed by it first (R303). -/
def execCheckpt (launch : Dword) (area bytes : Dword) (s : State) : Host.Outcome State Fault Refusal :=
  .next (
    match s.mgmt.job with
    | some _ => finishCheckpoint s
    | none =>
      let at_ := headAddr s
      let ok := (launchNamed s launch).isSome && inMemory area.toNat bytes.toNat
      finishCheckpoint (command 0x0A ok (fun s =>
        match launchNamed s launch with
        | none => .wait
        | some (id, l) =>
          let mine := s.blocks.filter (fun p => p.2.launch == id && !p.2.sealed && p.2.terminated.isNone)
          if mine.any (fun p => match p.2.stop with | some (.halt _) => true | _ => false) then .wait
          else
            .later (.checkpt id area.toNat bytes.toNat ((l.gen + 1) % 2 ^ 32) [] at_)
              (forAll mine s (fun p s => requestStop s p.1 .checkpoint))) s))

/-- R293's order of generations. -/
def newer (a b : Nat) : Bool := decide (1 ≤ (a + 2 ^ 32 - b) % 2 ^ 32 ∧ (a + 2 ^ 32 - b) % 2 ^ 32 ≤ 2 ^ 31 - 1)

/-- The reference generation of a launch (R293). -/
def Launch.reference (l : Launch) : Option Nat :=
  match l.refGen with
  | some g => some g
  | none => if l.checkpointed then some l.gen else none

/-- A checkpoint of generation g may be resumed for the launch. -/
def Launch.takes (l : Launch) (g : Nat) : Bool := l.reference.elim false (fun r => g == r || newer g r)

/-- The images that lie in an area, `n` of them: each is one that the module sealed for the launch, with no byte changed. -/
def readImages (s : State) (launch : Nat) : Nat → Nat → Option (List Image)
  | 0, _ => some []
  | n + 1, area =>
    match s.images.find? (fun i => i.checkpoint && i.launch == launch && readBytes s area i.all.length == i.all) with
    | none => none
    | some i => (readImages s launch n (area + i.all.length)).map (i :: ·)

/-- The images of a launch that HALT has left. -/
def haltImages (s : State) (launch : Nat) : List Image :=
  s.images.filter (fun i => i.checkpoint && i.launch == launch
    && (match (s.blocks.get? i.blk).bind (·.stop) with | some (.halt _) => (s.blocks.get? i.blk).elim false (·.sealed) | _ => false)
    && (match i.block.stop with | some (.halt _) => true | _ => false))

/-- The images that CHECKPT has sealed for a launch with the generation that an area names. -/
def areaImages (s : State) (launch area : Nat) : List Image :=
  let gen := readNat s (area + 8) 4
  s.images.filter (fun i => i.checkpoint && i.launch == launch && i.gen == gen && i.block.stop == some .checkpoint)

/-- The management unit may read what a RESUME names (R321, R384). -/
def areaReads (s : State) (launch area : Nat) : Bool :=
  (area == 0 && !(haltImages s launch).isEmpty)
    || (agentReads s 0 area 64 && agentReads s 0 area ((areaImages s launch area).foldl (fun n i => n + i.all.length) 0))

/-- The images that a RESUME names (R293, log 48): those in its area, or, with area 0 for a halted launch, HALT's. -/
def offered (s : State) (launch area : Nat) : Option (List Image) :=
  if area = 0 ∧ !(haltImages s launch).isEmpty then some (haltImages s launch)
  else
    let gen := readNat s (area + 8) 4
    let n := (areaImages s launch area).length
    match readImages s launch n area with
    | some is => if n = 0 ∨ !(is.map (·.blk)).eraseDups.length == n ∨ is.any (fun i => i.gen != gen) then none else some is
    | none => none

/-- The block of an image as it stands: as it was left, where it has not run since, else as the image holds it. -/
def blockFor (s : State) (i : Image) : Block :=
  match s.blocks.get? i.blk with
  | some b => if b.sealed ∧ s.images.all (fun j => j.blk != i.blk || decide (j.num ≤ i.num) || j.checkpoint && j.gen == i.gen) then b else i.block
  | none => i.block

/-- The images return to the places given, one after another; none where one does not fit. -/
def returnAll (s : State) (lid : Nat) : List (Image × Nat × Nat) → Option State
  | [] => some s
  | (i, core, slot) :: t =>
    match s.launches.get? lid with
    | none => none
    | some l =>
      let b := blockFor s i
      if !returnFits s i b l core slot then none
      else
        let ended := (s.blocks.get? i.blk).isNone
        let s := s.setLaunch lid (fun l => { l with blocksEnded := if ended then l.blocksEnded - 1 else l.blocksEnded })
        returnAll (returnBlock s i b l core slot b.started) lid t

/-- A launch stands still: it has no resident block, and some that wait for a RESUME. -/
def suspended (s : State) (launch : Nat) : Bool :=
  s.blocks.any (fun p => p.2.launch == launch && p.2.sealed && !awaitsReturn p.2)
    && s.blocks.all (fun p => p.2.launch != launch || p.2.sealed)

/-- A RESUME is refused: its own word says so, and, for a launch that stands still, the launch's too (R387, log 108). -/
def refuseResume (s : State) (launch : Nat) : CmdEnd :=
  .done (some 0x52) (if suspended s launch then s.setLaunch launch (fun l => { l with refused := true }) else s)

/-- RESUME (R293, R294, R378). -/
def execResume (launch : Dword) (area : Dword) (cores : List (Nat × Nat)) (s : State) : Host.Outcome State Fault Refusal :=
  .next (command 0x0B true (fun s =>
    match launchNamed s launch with
    | none => .done (some 0x52) s
    | some (id, l) =>
      if !areaReads s id area.toNat then .wait
      else
      match offered s id area.toNat with
      | none => refuseResume s id
      | some is =>
        let resident (i : Image) : Bool := (s.blocks.get? i.blk).elim false (fun b => !b.sealed)
        if !is.all (fun i => l.takes i.gen) ∨ is.any resident then refuseResume s id
        else if is.length ≠ cores.length then .wait
        else
          match returnAll s id (is.zip cores) with
          | none => .wait
          | some s => .done none (s.setLaunch id (fun l => { l with refGen := (is.head?).map (·.gen) }))) s)

end Sys2Proof.Machine
end

