-- ==== Sys2Proof/Machine/Host.lean ====
section
/-!
DEFINITION. Management commands (R378 to R388, R390) but for checkpoints, and the accesses of the host and of peers (R376, R383,
R388).
-/
namespace Sys2Proof.Machine

/-! ### Configuration -/

/-- QUEUE (R385). -/
def execQueue (q : Nat) (ring : Dword) (log2 : Nat) (device : Bool) (prod cons : Dword) (s : State) :
    Host.Outcome State Fault Refusal :=
  .next (command 0x01 (decide (q < 64 ∧ 4 ≤ log2 ∧ log2 ≤ 16)) (fun s =>
    readWord s cons.toNat (fun n s =>
      let k : LQueue := { s.lqueue q with ring := ring.toNat, log2 := log2, device := device, prod := prod.toNat, cons := cons.toNat, read := n, configured := true }
      .done none { s with queues := s.queues.put q k })) s)

/-- SPACE (R381). -/
def execSpace (pasid : BitVec 20) (s1 s2 : Dword) (s : State) : Host.Outcome State Fault Refusal :=
  .next (command 0x02 true (fun s => .done none { s with spaces := s.spaces.put pasid.toNat ⟨s1.toNat, s2.toNat⟩ }) s)

/-- INVAL (R156, R378): every cached translation of the aligned block goes. -/
def execInval (pasid : BitVec 20) (va : Dword) (log2 : Nat) (s : State) : Host.Outcome State Fault Refusal :=
  .next (command 0x03 (decide (16 ≤ log2 ∧ log2 ≤ 57)) (fun s =>
    let lo := va.toNat / 2 ^ log2 * 2 ^ log2
    let s := { s with settled := s.settled ++ [(⟨pasid.toNat, lo, 2 ^ log2, s.moment⟩ : Settled)] }
    .done none { s with tlb := s.tlb.filter (fun t => !(t.pasid == pasid.toNat && overlaps (t.va * 65536) 65536 lo (2 ^ log2))) }) s)

/-- Writes records that found no room, as far as there is room now (R382). -/
def flushAllFaults : Nat → State → State
  | 0, s => s
  | n + 1, s => flushAllFaults n (flushFaults s)

/-- FAULTQ (R382). -/
def execFaultq (ring : Dword) (log2 : Nat) (prod cons : Dword) (s : State) : Host.Outcome State Fault Refusal :=
  .next (command 0x04 (decide (4 ≤ log2 ∧ log2 ≤ 16)) (fun s =>
    readWord s prod.toNat (fun n s =>
      let s := { s with faultq := some ⟨ring.toNat, log2, prod.toNat, cons.toNat⟩, faultProd := n }
      .done none (flushAllFaults s.faults.length s))) s)

/-- EVLOG (R300). -/
def execEvlog (die : Nat) (ring : Dword) (log2 : Nat) (prod cons : Dword) (s : State) : Host.Outcome State Fault Refusal :=
  .next (command 0x09 (decide (die < 4 ∧ 4 ≤ log2 ∧ log2 ≤ 20)) (fun s =>
    readWord s prod.toNat (fun n s =>
      .done none (s.setDie die (fun d => { d with log := some ⟨ring.toNat, log2, prod.toNat, cons.toNat⟩, logProd := n })))) s)

/-- SELFTEST (R295). -/
def execSelftest (ms : Nat) (s : State) : Host.Outcome State Fault Refusal :=
  .next (command 0x0D (decide (ms = 0 ∨ 100 ≤ ms ∧ ms ≤ 3600000)) (fun s =>
    let s := s.setMgmt (fun m => { m with selftestMs := ms })
    .done none (forAll (List.range 64) s (fun b s => s.setBent b (fun k => { k with last := (s.die (b / 16)).time })))) s)

/-- ARM (R301). -/
def execArm (mask : BitVec 7) (s : State) : Host.Outcome State Fault Refusal :=
  .next (command 0x0E (!mask.getLsbD 0) (fun s =>
    .done none (forAll [0, 1, 2, 3] s (fun d s => s.setDie d (fun k => { k with armed := mask })))) s)

/-- PEER (R388): a size of 0 assigns this module's number, any other maps an aperture (log 41). -/
def execPeer (number : BitVec 16) (aperture : Nat) (base size : Dword) (s : State) : Host.Outcome State Fault Refusal :=
  .next (
    let inside := decide (0x1000000000000 ≤ base.toNat ∧ base.toNat + size.toNat ≤ 0x10000000000000)
    command 0x0F (size == 0 || (decide (aperture < 16) && inside)) (fun s =>
      .done none (s.setMgmt (fun m =>
        if size = 0 then { m with peer := number }
        else { m with apertures := m.apertures.put aperture (number.toNat, base.toNat, size.toNat) }))) s)

/-- An attestation report and its signature by the identity key, with a salt of free bytes (R390). -/
def attestReport (s : State) (nonce : List Byte) : List Byte :=
  let body := Config.attestBody nonce s.mgmt.stages (Config.fusedKeyHash, Config.fusedRollback) Config.serialNumber
  body ++ signPss Config.identityKey body ((List.range 64).map (fun i => BitVec.ofNat 8 (Config.freeNat (s.freeCtr + i))))

/-- ATTEST (R390): the management unit reads the nonce and writes the report as an agent of die 0. -/
def execAttest (nonce report : Dword) (s : State) : Host.Outcome State Fault Refusal :=
  .next (command 0x10 (inMemory nonce.toNat 32 && inMemory report.toNat 1) (fun s =>
    let bytes := attestReport s (readBytes s nonce.toNat 32)
    if !agentReads s 0 nonce.toNat 32 then .wait
    else
      match agentWrite { bridgeRead s 0 nonce.toNat 32 false with freeCtr := s.freeCtr + 64 } 0 [(report.toNat, bytes)] with
      | (s, true) => .done none s
      | (_, false) => .writes [(report.toNat, bytes.length)]) s)

/-! ### Answers to page faults (R157, R158, R231, R236, R259, R382) -/

/-- A group goes on from a fault record: it translates again, or takes PAGE_FAULT, in a pair once its shadow has met it. -/
def answerGroup (s : State) (tag : Nat) (fail : Bool) (gid : Nat) : State :=
  match s.groups.get? gid with
  | none => s
  | some g =>
    match g.desched with
    | none => s
    | some d =>
      if d.tag ≠ tag then s
      else
        let s := s.setGroup gid (fun g => { g with desched := none })
        if !fail then s
        else if isPrimary s gid g then
          s.setGroup gid (fun g => { g with faultWait := some ⟨d.split, .pageFault, BitVec.ofNat 64 d.va, d.lanes⟩ })
        else if isShadow s gid g then s
        else takeFaultAt s gid d.split false .pageFault (BitVec.ofNat 64 d.va) d.lanes

/-- The first address of a copy's present segment that does not translate. -/
def segmentFault (s : State) (id : Nat) (k : Cmd) : Option Nat :=
  match copyOf k.kind, s.blocks.get? k.blk with
  | some j, some b =>
    match (segmentSpots s b (((s.launchOf b).map (·.pasid)).getD 0) id k j (j.segment k.pos)).1 with
    | (some (.page va _ _), _) => some va
    | _ => none
  | _, _ => none

/-- A completion word that cannot be written (R231). -/
def loseWord (s : State) (id : Nat) (k : Cmd) (va : Nat) : State :=
  let done (s : State) : State := s.setCmd id (fun k => { k with wordDone := true, tag := none })
  if k.failed.isSome then done s
  else queueFailure (done (failCmd s id .pageFault (BitVec.ofNat 64 va))) id k .pageFault (BitVec.ofNat 64 va)

/-- A command goes on from a fault record, or fails. -/
def answerCmd (s : State) (fail : Bool) (va : Nat) (id : Nat) (k : Cmd) : State :=
  if !fail then s.setCmd id (fun k => { k with tag := none })
  else
    match k.kind with
    | .cdone word .. => endCmd (loseWord s id k word) id
    | .copy .. =>
      match copyOf k.kind with
      | some j =>
        if j.moved k then finishCopy (loseWord s id k ((j.word.map (·.1)).getD va)) id
        else failCmd (s.setCmd id (fun k => { k with tag := none })) id .pageFault (BitVec.ofNat 64 ((segmentFault s id k).getD va))
      | none => s
    | _ => s.setCmd id (fun k => { k with tag := none })

/-- A collective goes on from a fault record; or its member fails, or its word is lost. -/
def answerColl (s : State) (fail : Bool) (id : Nat) (k : Coll) : State :=
  let s := { s with colls := s.colls.modify id (fun k => { k with tag := none }) }
  if !fail ∨ k.discarded then s
  else if k.accepted && k.settled then
    let s := finishColl { s with colls := s.colls.modify id (fun q => { q with done := true }) } id
    logEvent s k.die 0x000E 4 0xFF (BitVec.ofNat 64 k.word) (BitVec.ofNat 64 Cause.pageFault.code.toNat)
  else
    failColl (if k.accepted then s else takeColl s id k (fun q => q)) id Cause.pageFault.code

/-- ANSWER (R157, R382): everything that waits on the tag goes on. -/
def execAnswer (tag : Dword) (fail : Bool) (s : State) : Host.Outcome State Fault Refusal :=
  .next (
    let rec? := s.faults.find? (fun f => f.tag == tag.toNat && f.posted)
    command 0x05 rec?.isSome (fun s =>
      let va := (rec?.map (·.va)).getD 0
      let t := tag.toNat
      let s := { s with faults := s.faults.filter (fun f => f.tag != t) }
      let s := flushAllFaults s.faults.length s
      let s := forAll (s.groups.map (·.1)) s (fun g s => answerGroup s t fail g)
      let s := forAll (s.cmds.filter (fun p => p.2.tag == some t)) s (fun p s => answerCmd s fail va p.1 p.2)
      let s := forAll (s.colls.filter (fun p => p.2.tag == some t)) s (fun p s => answerColl s fail p.1 p.2)
      .done none { s with launches := s.launches.map (fun p =>
        if p.2.tag = some t then (p.1, { p.2 with tag := none, lost := p.2.lost || fail }) else p) }) s)

/-! ### Bias (R383, R384) -/

/-- The lines of a page. -/
def pageLine (page line : Nat) : Bool := line / 512 == page

/-- A page that BIAS refuses: an expert directory or pool, a launch or command ring, or an event log lies in it. -/
def pageInUse (s : State) (page : Nat) : Bool :=
  let at_ (pa n : Nat) : Bool := overlaps pa (max n 1) (page * 65536) 65536
  s.dies.any (fun d =>
    d.2.dirs.any (fun k =>
      let h := readHeader s k.header
      at_ k.header (64 * (h.e + 1)) || at_ h.poolpa h.poolsize)
      || d.2.log.elim false (fun r => at_ r.base (32 * 2 ^ r.log2)))
    || s.queues.any (fun q => q.2.configured && at_ q.2.ring (64 * 2 ^ q.2.log2))
    || at_ s.mgmt.cmdBase.toNat (64 * 2 ^ (s.mgmt.cmdSize.toNat + 4))

/-- What a flip waits for before it begins: a line lock, a claim or a speculative buffered write. -/
def pageHeld (s : State) (page : Nat) : Bool :=
  s.pegs.any (fun p => p.holds && pageLine page p.line) || s.claims.any (fun c => pageLine page c.line)
    || s.tasks.any (fun t => !t.2.frontier && t.2.buf.any (fun b => b.1 / 65536 == page))

/-- Leases on the page's lines, at their homes and at proxies, have passed. -/
def pageQuiet (s : State) (page : Nat) : Bool :=
  s.lines.all (fun p => !pageLine page p.1 || leaseOver p.2.expiry (homeTime s p.1))
    && s.proxies.all (fun p => !pageLine page (p.1 / 4) || leaseOver p.2.expiry (s.die (p.1 % 4)).time)

/-- Proxies have given the page's lines up, and replicas and grants are gone. -/
def releasePage (s : State) (page : Nat) : State :=
  { s with lines := s.lines.map (fun p => if pageLine page p.1 then (p.1, { p.2 with dir := [], probes := [] }) else p),
           proxies := s.proxies.map (fun p => if pageLine page (p.1 / 4) then (p.1, { p.2 with state := .i, probes := [], owesAck := false }) else p),
           msgs := s.msgs.filter (fun m => !pageLine page m.line),
           launches := s.launches.map (fun p => (p.1, { p.2 with replicas := p.2.replicas.filter (fun r => !pageLine page r.1) })) }

/-- Stores that have arrived at the page, and those that the finished segments of copies have sent to it, are applied in their order
(R384). -/
def applyPage (s : State) (page : Nat) : State :=
  forAll (s.accs.filter (fun a => (a.stage == .arrived || a.cmd.isSome && a.isWrite && inQueue a)
      && (linesOf a.pa a.size).any (pageLine page))) s (fun a s =>
    match s.acc? a.id with
    | some b => applyHeld s b
    | none => s)

/-- BIAS_TO_HOST (R384): the page's lines are frozen, and once their leases have passed the flip is complete. -/
def execBiasToHost (pa : Dword) (s : State) : Host.Outcome State Fault Refusal :=
  .next (
    let page := pa.toNat / 65536
    match s.mgmt.job with
    | some (.bias j, _, _) =>
      if j.page = page ∧ pageQuiet s page then
        let s := applyPage (releasePage s page) page
        endJob { s with bias := s.bias.put page true } none
      else s
    | some _ => s
    | none =>
      command 0x06 (pa.toNat % 65536 == 0 && isDevice pa.toNat) (fun s =>
        if pageInUse s page then .done (some Cause.accessFault.code) s
        else if hostBias s pa.toNat then .done none s
        else if pageHeld s page then .wait
        else .later (.bias ⟨page⟩) s) s)

/-- BIAS_TO_DEVICE (R384): every line of the page is back-invalidated, and the bit flips. -/
def execBiasToDevice (pa : Dword) (s : State) : Host.Outcome State Fault Refusal :=
  .next (
    let page := pa.toNat / 65536
    command 0x06 (pa.toNat % 65536 == 0 && isDevice pa.toNat) (fun s =>
      if pageInUse s page then .done (some Cause.accessFault.code) s
      else if pageHeld s page then .wait
      else
        let s := { s with hostHalves := s.hostHalves.filter (fun p => !pageLine page (p.1 / 32)) }
        .done none { s with bias := s.bias.filter (fun p => p.1 != page) }) s)

/-! ### Expert directories (R263 to R265, R278, R379) -/

/-- A range lies wholly in the HBM4E of a die. -/
def inHbm (die pa n : Nat) : Bool := placeOf pa == .hbm die && (n == 0 || placeOf (pa + n - 1) == .hbm die)

/-- An entry as R264 requires it at registration (R379). -/
def entryFresh (s : State) (pa : Nat) : Bool :=
  let n := readEntry s pa
  n.state == 2 && n.pins == 0 && n.count == 0 && n.base == 0 && n.last == 0 && n.pooloff == 0 && n.cause == 0
    && readNat s (pa + 3) 1 == 0 && readNat s (pa + 6) 2 == 0 && readNat s (pa + 56) 8 == 0 && decide (n.kind ≤ 1)
    && (n.kind == 1 || n.peer == 0) && decide (n.backing < 2 ^ 52)

/-- The checks of EXPREG, in order: the first that fails gives the code (R379). -/
def expregFails (s : State) (pa : Nat) : Option (BitVec 8) :=
  let h := readHeader s pa
  match (if pa % 64 = 0 then servingDie pa else none) with
  | none => some 0x06
  | some d =>
    if !inHbm d pa (64 * (h.e + 1)) then some 0x06
    else if readNat s (pa + 56) 8 ≠ 0 ∨ !decide (1 ≤ h.e ∧ h.e ≤ 2 ^ 20) ∨ !decide (10 ≤ h.h ∧ h.h ≤ 40)
        ∨ h.poolsize % 65536 ≠ 0 ∨ !decide (65536 ≤ h.poolsize ∧ h.poolsize ≤ 2 ^ 36) ∨ h.poolva % 65536 ≠ 0 ∨ h.poolpa % 65536 ≠ 0
        ∨ !inHbm d h.poolpa h.poolsize ∨ overlaps h.poolpa h.poolsize pa (64 * (h.e + 1)) then some 0x07
    else if !(List.range h.e).all (fun e => entryFresh s (entryPa pa e)) then some 0x07
    else if registered s pa then some 0x55
    else if 8 ≤ (s.die d).dirs.length then some 0x54
    else none

/-- EXPREG (R265, R379): the header's counts are cleared as the manager's own writes, which wait for leases, claims and locks (R163). -/
def execExpreg (pa : Dword) (s : State) : Host.Outcome State Fault Refusal :=
  .next (command 0x07 true (fun s =>
    match expregFails s pa.toNat, servingDie pa.toNat with
    | some c, _ => .done (some c) s
    | none, some d =>
      if !fieldFree s d pa.toNat then .writes [(pa.toNat, 64)]
      else
      let s := putField s (pa.toNat + 32) 24 0 []
      .done none (s.setDie d (fun k => { k with dirs := k.dirs ++ [⟨pa.toNat, false, []⟩] }))
    | none, none => .done (some 0x06) s) s)

/-- A queued fetch of a directory that is withdrawn is dropped (R269, R278). -/
def dropFetch (s : State) (f : Fetch) : State :=
  putField (putField s (entryPa f.header f.e) 1 2 []) (entryPa f.header f.e + 8) 8 0 []

/-- The fetches of a directory that have not begun copying are dropped. -/
def dropQueued (s : State) (d header : Nat) : State :=
  let s := forAll ((s.die d).fetchQ.filter (fun f => f.header == header)) s (fun f s => dropFetch s f)
  s.setDie d (fun k => { k with fetchQ := k.fetchQ.filter (fun f => f.header != header) })

/-- The entries whose queued fetches a withdrawal drops, and that the manager may write them. -/
def queuedEntries (s : State) (d header : Nat) : List Nat :=
  ((s.die d).fetchQ.filter (fun f => f.header == header)).map (fun f => entryPa f.header f.e)

def queuedFree (s : State) (d header : Nat) : Bool := (queuedEntries s d header).all (fieldFree s d)

/-- EXPWD (R278, R379): queued fetches are dropped, and the withdrawal ends once no fetch of the directory runs. -/
def execExpwd (pa : Dword) (s : State) : Host.Outcome State Fault Refusal :=
  .next (
    let header := pa.toNat
    let running (s : State) (d : Nat) : Bool := (s.die d).fetching.any (fun f => f.header == header)
    let leave (s : State) (d : Nat) : State := s.setDie d (fun k => { k with dirs := k.dirs.filter (fun x => x.header != header) })
    match s.mgmt.job with
    | some (.expwd d h, _, _) =>
      if h ≠ header ∨ running s d then s
      else if queuedFree s d header then endJob (leave (dropQueued s d header) d) none
      else forAll (queuedEntries s d header) s (fun pa s => sendProbes s pa 64)
    | some _ => s
    | none =>
      command 0x08 true (fun s =>
        if !registered s header then .done (some 0x06) s
        else
          let d := (servingDie header).getD 0
          if !queuedFree s d header then .writes ((queuedEntries s d header).map (fun pa => (pa, 64)))
          else
            let s := dropQueued s d header
            if running s d then .later (.expwd d header) s else .done none (leave s d)) s)

/-! ### Retention sleep (R296) -/

/-- A die's caches and recorded leases are cleared, and its proxies hold nothing. -/
def clearDie (s : State) (die : Nat) : State :=
  let mineProxy (k : Nat) : Bool := k % 4 == die
  let home (l : Nat) : Bool := homeDie s (l * 128) == some die
  { s with cores := s.cores.map (fun p => if dieOfCore p.1 = die then (p.1, { p.2 with l1 := [] }) else p),
           lines := s.lines.map (fun p =>
             let n : Line := { p.2 with dir := p.2.dir.filter (fun d => d.1 != die), probes := p.2.probes.filter (· != die) }
             (p.1, if home p.1 then { n with expiry := 0 } else n)),
           proxies := s.proxies.map (fun p =>
             if mineProxy p.1 then (p.1, { p.2 with state := .i, expiry := 0, probes := [], owesAck := false }) else p),
           hostHalves := s.hostHalves.filter (fun p => p.1 / 8 % 4 != die),
           msgs := s.msgs.filter (fun m => m.die != die) }

/-- Stores held at a die are applied (R296, R161). -/
def applyDie (s : State) (die : Nat) : State :=
  forAll (s.accs.filter (fun a => a.stage == .arrived && a.kind == .store && homeDie s a.pa == some die)) s (fun a s =>
    match s.acc? a.id with
    | some b => if canApply s b then applyStore s b else s
    | none => s)

/-- SLEEP, enter (R296): refused while the die holds a resident block or a task, with a code that the spec does not give
(log 42). -/
def execSleepEnter (die : Nat) (s : State) : Host.Outcome State Fault Refusal :=
  .next (command 0x0C (decide (die < 4)) (fun s =>
    if !(s.die die).awake then .done none s
    else if s.blocks.any (fun p => !p.2.sealed && dieOfCore p.2.core == die) ∨ s.tasks.any (fun t => t.2.die == die && t.2.state != .transit) then
      let (x, s) := s.free
      .done (some (BitVec.ofNat 8 x)) s
    else
      let t := applyDie (clearDie s die) die
      if t.accs.any (fun a => a.stage == .arrived && a.kind == .store && homeDie t a.pa == some die) then .wait
      else .done none (t.setDie die (fun d => { d with awake := false }))) s)

/-- SLEEP, wake (R19, R296): the die takes the fabric time that the others have, or the largest that any die reached. -/
def execSleepWake (die : Nat) (s : State) : Host.Outcome State Fault Refusal :=
  .next (command 0x0C (decide (die < 4)) (fun s =>
    let now := s.dies.foldl (fun n p => max n p.2.time) 0
    .done none (if (s.die die).awake then s else s.setDie die (fun d => { d with awake := true, time := now }))) s)

/-! ### Accesses from outside (R219, R376, R383, R388) -/

/-- A host's write of a launch queue's producer word posts its records: a release at host scope (R385, R212). -/
def postsRecords (s : State) (pa n : Nat) : Bool :=
  s.queues.any (fun q => q.2.configured && !q.2.device && overlaps pa n q.2.prod 4)

/-- A write that arrives at the home slice as from no core. -/
def outsideWrite (s : State) (pa : Nat) (bytes : List Byte) : State :=
  (depart s (agentAcc ((homeDie s pa).getD 0) none none none .store pa pa bytes.length (ofLe bytes) [])).2

/-- HOST_CXL_MEM_ACCESS (R383): an access of the host within one 64-byte half line. In device bias it arrives over CXL.mem;
memory of which the host is the home it writes itself, once no proxy holds the half (R165). A write that posts launch records waits
until the host's earlier writes are applied. A read changes nothing here. -/
def execHostCxlMemAccess (write : Bool) (pa : Nat) (bytes : List Byte) (s : State) : Host.Outcome State Fault Refusal :=
  .next (
    let n := bytes.length
    let fits := decide (1 ≤ n ∧ pa % 64 + n ≤ 64)
    if !write ∨ !fits ∨ biasFrozen s pa ∨ postsRecords s pa n ∧ hostWritesLeft s then s
    else if isDevice pa && !hostBias s pa then outsideWrite s pa bytes
    else if homedAtHost s pa && !peerMemory s pa then
      let half := pa % 128 / 64
      if [0, 1, 2, 3].all (fun d => hostHalf s d (pa / 128) half == .i) then putApplied s none pa bytes [] false else s
    else s)

/-- PEER_ACCESS_ARRIVAL (R388, R219): an access of a peer to this module's device memory. -/
def execPeerAccessArrival (write : Bool) (pa : Nat) (bytes : List Byte) (s : State) : Host.Outcome State Fault Refusal :=
  .next (if write && isDevice pa && decide (1 ≤ bytes.length ∧ pa % 128 + bytes.length ≤ 128) && !biasFrozen s pa then outsideWrite s pa bytes else s)

/-- LINK_LEVEL_RETRY (R388): a flit is sent again; nothing that software sees changes. -/
def execLinkLevelRetry (_link : Nat) (s : State) : Host.Outcome State Fault Refusal := .next s

end Sys2Proof.Machine
end

