-- ==== Sys2Proof/Machine/LaneOps.lean ====
section
/-!
DEFINITION. Class 3: instructions across the lanes of a group (R144 to R150).
-/
namespace Sys2Proof.Machine

/-- The lane that SHFL reads (R146). -/
def shuffleLane (mode : ShflMode) (b lane : Nat) : Nat :=
  let size := 2 ^ min (bitField b 8 3) 5
  let k := bitField b 0 5
  let base := lane - lane % size
  let i := lane % size
  match mode with
  | .idx => base + k % size
  | .rot => base + (i + k) % size
  | .rev => base + ((size - 1 - i) ^^^ (k % size))
  | .xor => base + (i ^^^ k) % size

/-- SHFL (R146). -/
def execShfl (h : Hdr) (mode : ShflMode) (pair : Bool) (d a : BitVec 8) (b : Src) (imm : BitVec 32) (s : State) :
    Host.Outcome State Fault Refusal :=
  .next (runInstr (.shfl h mode pair d a b imm) false (fun c s =>
    let n := if pair then 2 else 1
    .done (setDstLanes s c d.toNat n (fun l =>
      c.g.vregs a.toNat (shuffleLane mode (srcLane s c 1 imm.toNat b l) l) n))) s)

/-- Writes one result to every lane of G, or to a scalar (R147, R148). -/
def writeAll (s : State) (c : Ctx) (d : LDst) (n x : Nat) : State :=
  match d with
  | .v r => setDstLanes s c r.toNat n (fun _ => x)
  | .s r => setSreg s c.gid r.toNat x

/-- VOTE's result (R147). -/
def voteResult (mode : VoteMode) (c : Ctx) (a : Nat) : Nat :=
  let yes := (lanesOf c.act).filter (fun l => c.g.vreg a l != 0)
  match mode with
  | .mask => (ofLanes yes).toNat
  | .count => yes.length
  | .lead => yes.headD 32
  | .same => if (lanesOf c.act).all (fun l => c.g.vreg a l == c.g.vreg a (lowestLane c.act)) then 1 else 0

/-- VOTE (R147). -/
def execVote (h : Hdr) (mode : VoteMode) (d : LDst) (a : BitVec 8) (s : State) : Host.Outcome State Fault Refusal :=
  .next (runInstr (.vote h mode d a) false (fun c s => .done (writeAll s c d 1 (voteResult mode c a.toNat))) s)

/-- REDUX on integers (R148). -/
def reduxInt (op : ReduxOp) (w : Nat) (xs : List Nat) : Nat :=
  let fold (f : Nat → Nat → Nat) : Nat := match xs with
    | [] => 0
    | x :: t => t.foldl f x
  match op with
  | .add => xs.foldl (iAdd w) 0
  | .min => fold (iMin w false)
  | .max => fold (iMax w false)
  | .minu => fold (iMin w true)
  | .maxu => fold (iMax w true)
  | .and => fold (fun a b => a &&& b)
  | .or => fold (fun a b => a ||| b)
  | .xor => fold (fun a b => a ^^^ b)
  | _ => xs.headD 0

/-- REDUX on floats (R148): one exact sum and one rounding, or the least or greatest. -/
def reduxFloat (op : ReduxOp) (fm : Fmt) (rm : Rm) (xs : List Nat) : Nat × Flags :=
  match op with
  | .fadd =>
    let infs := xs.map fm.value
    let bad := infs.contains (.inf true) && infs.contains (.inf false)
    match infs with
    | [] => (0, 0)
    | x :: t =>
      let allNeg := infs.all (fun v => v == .negZero)
      let allPos := infs.all (fun v => v.isZero && !v.isNeg)
      let sum := t.foldl (fun a b => (addX .rne a b).1) x
      let sum : XVal := if bad then .nan
        else if sum.isZero then
          if allNeg then .negZero else if allPos then .fin 0 0 else if rm = .rdn then .negZero else .fin 0 0
        else sum
      roundWith fm sum rm bad (snanFlag fm xs)
  | op =>
    match xs with
    | [] => (0, 0)
    | x :: t =>
      let greater := op == .fmax
      let r := t.foldl (fun a b => (minMax fm greater a b).1) x
      ((if fm.isNan r then fm.nanBits else r), snanFlag fm xs)

/-- Formats of REDUX by FMT (R148). -/
def reduxFmt (f : Nat) : Fmt :=
  match f with
  | 0 => fp32
  | 1 => fp64
  | 2 => fp16
  | _ => bf16

def reduxIsFloat : ReduxOp → Bool
  | .fadd | .fmin | .fmax => true
  | _ => false

/-- REDUX (R148). -/
def execRedux (h : Hdr) (op : ReduxOp) (f : BitVec 3) (d : LDst) (a : BitVec 8) (s : State) :
    Host.Outcome State Fault Refusal :=
  .next (runInstr (.redux h op f d a) false (fun c s =>
    let n := if f = 1 then 2 else 1
    let xs := (lanesOf c.act).map (fun l => c.g.vregs a.toNat l n)
    if reduxIsFloat op then
      let fm := reduxFmt f.toNat
      let l := lowestLane c.act
      let mode := modeOf c.g 7
      let draws := op == .fadd && mode == 4
      let gen := if draws then drawNext (c.g.generator l) else c.g.generator l
      let (x, fl) := reduxFloat op fm (rmOf mode gen.toNat) (xs.map (fun x => x % 2 ^ fm.bits))
      let s := orFlags (writeAll s c d n x) c.gid fl
      .done (if draws then setGenerator s c.gid l gen else s)
    else .done (writeAll s c d n (reduxInt op (32 * n) xs))) s)

/-- MATCH (R149). -/
def execMatchLanes (h : Hdr) (pair : Bool) (d a : BitVec 8) (s : State) : Host.Outcome State Fault Refusal :=
  .next (runInstr (.matchLanes h pair d a) false (fun c s =>
    let n := if pair then 2 else 1
    .done (setDstLanes s c d.toNat 1 (fun l =>
      (lanesWhere c.act (fun j => c.g.vregs a.toNat j n == c.g.vregs a.toNat l n)).toNat))) s)

/-- One byte of PRMT (R150). -/
def permByte (x sel : Nat) : Nat :=
  if sel.testBit 7 then sel % 128
  else
    let y := x / 256 ^ (sel % 8) % 256
    let y := if sel.testBit 3 then 255 - y else y
    if sel.testBit 4 then iBrev 8 y else y

/-- PRMT (R150). -/
def execPrmt (h : Hdr) (d a : BitVec 8) (b c3 : Src) (imm : BitVec 32) (s : State) : Host.Outcome State Fault Refusal :=
  .next (runInstr (.prmt h d a b c3 imm) false (fun c s =>
    .done (setDstLanes s c d.toNat 1 (fun l =>
      let x := srcLane s c 1 imm.toNat b l * 2 ^ 32 + (c.g.vreg a.toNat l).toNat
      let sel := srcLane s c 1 imm.toNat c3 l
      (List.range 4).foldl (fun y k => y + permByte x (bitField sel (8 * k) 8) * 2 ^ (8 * k)) 0))) s)

end Sys2Proof.Machine
end

