-- ==== Sys2Proof/Machine/Dispatch.lean ====
section
/-!
DEFINITION. What each row of the opcode table does: one arm a row, one meaning an arm.
-/
namespace Sys2Proof.Machine

def exec (i : Instr) (s : State) : Host.Outcome State Fault Refusal :=
  match i with
  | .nop h => Sys2Proof.Machine.execNop h s
  | .bra h off join => Sys2Proof.Machine.execBra h off join s
  | .brx h a join => Sys2Proof.Machine.execBrx h a join s
  | .call h d off => Sys2Proof.Machine.execCall h d off s
  | .callx h d a => Sys2Proof.Machine.execCallx h d a s
  | .ret h a => Sys2Proof.Machine.execRet h a s
  | .exit h => Sys2Proof.Machine.execExit h s
  | .trap h code a => Sys2Proof.Machine.execTrap h code a s
  | .msave h d => Sys2Proof.Machine.execMsave h d s
  | .mand h x => Sys2Proof.Machine.execMand h x s
  | .mor h x => Sys2Proof.Machine.execMor h x s
  | .mrest h x => Sys2Proof.Machine.execMrest h x s
  | .regroup h off a => Sys2Proof.Machine.execRegroup h off a s
  | .launch h a => Sys2Proof.Machine.execLaunch h a s
  | .launchLane h a => Sys2Proof.Machine.execLaunchLane h a s
  | .iadd h w o => Sys2Proof.Machine.execIadd h w o s
  | .isub h w o => Sys2Proof.Machine.execIsub h w o s
  | .imul h w o => Sys2Proof.Machine.execImul h w o s
  | .imulh h w uns o => Sys2Proof.Machine.execImulh h w uns o s
  | .imad h w o => Sys2Proof.Machine.execImad h w o s
  | .imin h w uns o => Sys2Proof.Machine.execImin h w uns o s
  | .imax h w uns o => Sys2Proof.Machine.execImax h w uns o s
  | .iabs h w o => Sys2Proof.Machine.execIabs h w o s
  | .and h w o => Sys2Proof.Machine.execAnd h w o s
  | .or h w o => Sys2Proof.Machine.execOr h w o s
  | .xor h w o => Sys2Proof.Machine.execXor h w o s
  | .andn h w o => Sys2Proof.Machine.execAndn h w o s
  | .shl h w o => Sys2Proof.Machine.execShl h w o s
  | .shr h w o => Sys2Proof.Machine.execShr h w o s
  | .sar h w o => Sys2Proof.Machine.execSar h w o s
  | .rotl h w o => Sys2Proof.Machine.execRotl h w o s
  | .bfx h w uns o => Sys2Proof.Machine.execBfx h w uns o s
  | .bfi h w o => Sys2Proof.Machine.execBfi h w o s
  | .popc h w o => Sys2Proof.Machine.execPopc h w o s
  | .clz h w o => Sys2Proof.Machine.execClz h w o s
  | .brev h w o => Sys2Proof.Machine.execBrev h w o s
  | .sel h w o => Sys2Proof.Machine.execSel h w o s
  | .mov h w o => Sys2Proof.Machine.execMov h w o s
  | .lea h sh uns o => Sys2Proof.Machine.execLea h sh uns o s
  | .icmp h w uns c o => Sys2Proof.Machine.execIcmp h w uns c o s
  | .fadd h f o => Sys2Proof.Machine.execFadd h f o s
  | .fsub h f o => Sys2Proof.Machine.execFsub h f o s
  | .fmul h f o => Sys2Proof.Machine.execFmul h f o s
  | .ffma h f o => Sys2Proof.Machine.execFfma h f o s
  | .fmin h f o => Sys2Proof.Machine.execFmin h f o s
  | .fmax h f o => Sys2Proof.Machine.execFmax h f o s
  | .fcmp h f c o => Sys2Proof.Machine.execFcmp h f c o s
  | .frcp h f o => Sys2Proof.Machine.execFrcp h f o s
  | .frsq h f o => Sys2Proof.Machine.execFrsq h f o s
  | .fsqrt h f o => Sys2Proof.Machine.execFsqrt h f o s
  | .fex2 h f o => Sys2Proof.Machine.execFex2 h f o s
  | .flg2 h f o => Sys2Proof.Machine.execFlg2 h f o s
  | .fsin h f o => Sys2Proof.Machine.execFsin h f o s
  | .fcos h f o => Sys2Proof.Machine.execFcos h f o s
  | .fcvt h o => Sys2Proof.Machine.execFcvt h o s
  | .fcls h f scalar mods m a set => Sys2Proof.Machine.execFcls h f scalar mods m a set s
  | .frnd h f scalar mods d a rnd => Sys2Proof.Machine.execFrnd h f scalar mods d a rnd s
  | .fscl h f o => Sys2Proof.Machine.execFscl h f o s
  | .shfl h mode pair d a b imm => Sys2Proof.Machine.execShfl h mode pair d a b imm s
  | .vote h mode d a => Sys2Proof.Machine.execVote h mode d a s
  | .redux h op f d a => Sys2Proof.Machine.execRedux h op f d a s
  | .matchLanes h pair d a => Sys2Proof.Machine.execMatchLanes h pair d a s
  | .prmt h d a b c imm => Sys2Proof.Machine.execPrmt h d a b c imm s
  | .ldg h o => Sys2Proof.Machine.execLdg h o s
  | .stg h o => Sys2Proof.Machine.execStg h o s
  | .lds h o => Sys2Proof.Machine.execLds h o s
  | .sts h o => Sys2Proof.Machine.execSts h o s
  | .ldw h o => Sys2Proof.Machine.execLdw h o s
  | .stw h o => Sys2Proof.Machine.execStw h o s
  | .ldc h o => Sys2Proof.Machine.execLdc h o s
  | .pref h level o => Sys2Proof.Machine.execPref h level o s
  | .fence h kind scope => Sys2Proof.Machine.execFence h kind scope s
  | .cflush h op o => Sys2Proof.Machine.execCflush h op o s
  | .atom h op o => Sys2Proof.Machine.execAtom h op o s
  | .acas h o => Sys2Proof.Machine.execAcas h o s
  | .red h op dsz o => Sys2Proof.Machine.execRed h op dsz o s
  | .rdlk h m o => Sys2Proof.Machine.execRdlk h m o s
  | .rdul h m o => Sys2Proof.Machine.execRdul h m o s
  | .wrlk h m o => Sys2Proof.Machine.execWrlk h m o s
  | .wrul h m o => Sys2Proof.Machine.execWrul h m o s
  | .barw h w count => Sys2Proof.Machine.execBarw h w count s
  | .barwWait h w phase => Sys2Proof.Machine.execBarwWait h w phase s
  | .bara h w d count => Sys2Proof.Machine.execBara h w d count s
  | .barx h w arrive bytes imm => Sys2Proof.Machine.execBarx h w arrive bytes imm s
  | .lock h m d a b imm => Sys2Proof.Machine.execLock h m d a b imm s
  | .lockt h m d a => Sys2Proof.Machine.execLockt h m d a s
  | .unlock h m d a => Sys2Proof.Machine.execUnlock h m d a s
  | .cpy h o => Sys2Proof.Machine.execCpy h o s
  | .cpyg h o => Sys2Proof.Machine.execCpyg h o s
  | .cpyw h o => Sys2Proof.Machine.execCpyw h o s
  | .gres h slot x imm => Sys2Proof.Machine.execGres h slot x imm s
  | .gresFree h slot => Sys2Proof.Machine.execGresFree h slot s
  | .sbwait h scr a b len => Sys2Proof.Machine.execSbwait h scr a b len s
  | .sbwaitAll h => Sys2Proof.Machine.execSbwaitAll h s
  | .cdone h gs scope a b => Sys2Proof.Machine.execCdone h gs scope a b s
  | .mxlw h o => Sys2Proof.Machine.execMxlw h o s
  | .mxswap h gs mask => Sys2Proof.Machine.execMxswap h gs mask s
  | .mxloop h o => Sys2Proof.Machine.execMxloop h o s
  | .mxdrain h o => Sys2Proof.Machine.execMxdrain h o s
  | .mxzero h gs mask rb m1 => Sys2Proof.Machine.execMxzero h gs mask rb m1 s
  | .xfetch h pin o => Sys2Proof.Machine.execXfetch h pin o s
  | .xcnt h a b c immB immC => Sys2Proof.Machine.execXcnt h a b c immB immC s
  | .xpin h o => Sys2Proof.Machine.execXpin h o s
  | .xunpin h o => Sys2Proof.Machine.execXunpin h o s
  | .xstat h sel o => Sys2Proof.Machine.execXstat h sel o s
  | .coll h o => Sys2Proof.Machine.execColl h o s
  | .ensure h n1 a b first test => Sys2Proof.Machine.execEnsure h n1 a b first test s
  | .elseby h off => Sys2Proof.Machine.execElseby h off s
  | .elseerr h => Sys2Proof.Machine.execElseerr h s
  | .accept h => Sys2Proof.Machine.execAccept h s
  | .reject h a => Sys2Proof.Machine.execReject h a s
  | .conv h a => Sys2Proof.Machine.execConv h a s
  | .convx h a => Sys2Proof.Machine.execConvx h a s
  | .spawn h a die off => Sys2Proof.Machine.execSpawn h a die off s
  | .tend h => Sys2Proof.Machine.execTend h s
  | .tabort h => Sys2Proof.Machine.execTabort h s
  | .csrr h d c => Sys2Proof.Machine.execCsrr h d c s
  | .csrwWr h c a => Sys2Proof.Machine.execCsrwWr h c a s
  | .csrwSet h c a => Sys2Proof.Machine.execCsrwSet h c a s
  | .csrwClr h c a => Sys2Proof.Machine.execCsrwClr h c a s
  | .npe h => Sys2Proof.Machine.execNpe h s
  | .pen h => Sys2Proof.Machine.execPen h s
  | .snap h d => Sys2Proof.Machine.execSnap h d s
  | .tret h => Sys2Proof.Machine.execTret h s
  | .halt h code => Sys2Proof.Machine.execHalt h code s
  | .loadCompletion tok => Sys2Proof.Machine.execLoadCompletion tok s
  | .splitStarvationGuard core sched => Sys2Proof.Machine.execSplitStarvationGuard core sched s
  | .formerFlush blk => Sys2Proof.Machine.execFormerFlush blk s
  | .formedGroupPlace blk => Sys2Proof.Machine.execFormedGroupPlace blk s
  | .groupEnd gid split => Sys2Proof.Machine.execGroupEnd gid split s
  | .blockEnd blk => Sys2Proof.Machine.execBlockEnd blk s
  | .dispatchDecision at_ => Sys2Proof.Machine.execDispatchDecision at_ s
  | .launchPromotion launch => Sys2Proof.Machine.execLaunchPromotion launch s
  | .clusterStartRelease blk => Sys2Proof.Machine.execClusterStartRelease blk s
  | .launchQueueRead read => Sys2Proof.Machine.execLaunchQueueRead read s
  | .launchCompletion launch => Sys2Proof.Machine.execLaunchCompletion launch s
  | .queueEntryAck ack => Sys2Proof.Machine.execQueueEntryAck ack s
  | .queueNackResend entry => Sys2Proof.Machine.execQueueNackResend entry s
  | .satisfy acc => Sys2Proof.Machine.execSatisfy acc s
  | .drain acc => Sys2Proof.Machine.execDrain acc s
  | .apply acc => Sys2Proof.Machine.execApply acc s
  | .cross acc => Sys2Proof.Machine.execCross acc s
  | .leaseExpiry line => Sys2Proof.Machine.execLeaseExpiry line s
  | .atomicLeaseHoldEnd line => Sys2Proof.Machine.execAtomicLeaseHoldEnd line s
  | .class5RequestApply accs => Sys2Proof.Machine.execClass5RequestApply accs s
  | .probeReceive die line => Sys2Proof.Machine.execProbeReceive die line s
  | .probeAck die line => Sys2Proof.Machine.execProbeAck die line s
  | .proxyGrantReceive die line => Sys2Proof.Machine.execProxyGrantReceive die line s
  | .hostSnoop die line upper => Sys2Proof.Machine.execHostSnoop die line upper s
  | .linePoison line => Sys2Proof.Machine.execLinePoison line s
  | .engineCommandAccept core matrix => Sys2Proof.Machine.execEngineCommandAccept core matrix s
  | .copySegment core cmd => Sys2Proof.Machine.execCopySegment core cmd s
  | .copyFailure core cmd => Sys2Proof.Machine.execCopyFailure core cmd s
  | .barrierCredit core cmd piece => Sys2Proof.Machine.execBarrierCredit core cmd piece s
  | .rangeRetire core cmd => Sys2Proof.Machine.execRangeRetire core cmd s
  | .completionWordWrite core cmd => Sys2Proof.Machine.execCompletionWordWrite core cmd s
  | .cdoneComplete core cmd => Sys2Proof.Machine.execCdoneComplete core cmd s
  | .engineFailureDelivery gid => Sys2Proof.Machine.execEngineFailureDelivery gid s
  | .mxlwFill core cmd => Sys2Proof.Machine.execMxlwFill core cmd s
  | .mxlwFillEnd core cmd => Sys2Proof.Machine.execMxlwFillEnd core cmd s
  | .mxswapExchange core cmd bay => Sys2Proof.Machine.execMxswapExchange core cmd bay s
  | .kStep core cmd => Sys2Proof.Machine.execKStep core cmd s
  | .checksumVerdict core cmd mismatch => Sys2Proof.Machine.execChecksumVerdict core cmd mismatch s
  | .mxdrainExecute core cmd => Sys2Proof.Machine.execMxdrainExecute core cmd s
  | .mxzeroExecute core cmd => Sys2Proof.Machine.execMxzeroExecute core cmd s
  | .collAccept cmd => Sys2Proof.Machine.execCollAccept cmd s
  | .collStepAck cmd rank block => Sys2Proof.Machine.execCollStepAck cmd rank block s
  | .collContributionArrival cmd rank block => Sys2Proof.Machine.execCollContributionArrival cmd rank block s
  | .collStepTimeout cmd loss => Sys2Proof.Machine.execCollStepTimeout cmd loss s
  | .collComplete cmd => Sys2Proof.Machine.execCollComplete cmd s
  | .xcntApply accs => Sys2Proof.Machine.execXcntApply accs s
  | .fetchQueueServe die => Sys2Proof.Machine.execFetchQueueServe die s
  | .expertFetchComplete die idx => Sys2Proof.Machine.execExpertFetchComplete die idx s
  | .expertFetchFail die idx peerLost => Sys2Proof.Machine.execExpertFetchFail die idx peerLost s
  | .preemption blks => Sys2Proof.Machine.execPreemption blks s
  | .imageSeal blk => Sys2Proof.Machine.execImageSeal blk s
  | .npeWatchdogExpiry gid => Sys2Proof.Machine.execNpeWatchdogExpiry gid s
  | .selftestDue bent => Sys2Proof.Machine.execSelftestDue bent s
  | .selftestComplete bent pass => Sys2Proof.Machine.execSelftestComplete bent pass s
  | .eventRecordWrite die => Sys2Proof.Machine.execEventRecordWrite die s
  | .externalTrigger => Sys2Proof.Machine.execExternalTrigger s
  | .snapshotLatch die unit index => Sys2Proof.Machine.execSnapshotLatch die unit index s
  | .thermalLimit celsius => Sys2Proof.Machine.execThermalLimit celsius s
  | .powerReport watts celsius => Sys2Proof.Machine.execPowerReport watts celsius s
  | .powerOnReset stages => Sys2Proof.Machine.execPowerOnReset stages s
  | .firmwareUpload stages => Sys2Proof.Machine.execFirmwareUpload stages s
  | .rollbackRestore blk => Sys2Proof.Machine.execRollbackRestore blk s
  | .levelClockLimit blk level => Sys2Proof.Machine.execLevelClockLimit blk level s
  | .acceptCommit blk => Sys2Proof.Machine.execAcceptCommit blk s
  | .conversationJoin blk => Sys2Proof.Machine.execConversationJoin blk s
  | .conversationAccept word => Sys2Proof.Machine.execConversationAccept word s
  | .shadowCompareTimeout gid => Sys2Proof.Machine.execShadowCompareTimeout gid s
  | .taskRecordAccept entry => Sys2Proof.Machine.execTaskRecordAccept entry s
  | .taskBatchDispatch die core => Sys2Proof.Machine.execTaskBatchDispatch die core s
  | .taskGroupForm core => Sys2Proof.Machine.execTaskGroupForm core s
  | .frontierRound => Sys2Proof.Machine.execFrontierRound s
  | .frontierReceive die => Sys2Proof.Machine.execFrontierReceive die s
  | .lockRequestArrival req => Sys2Proof.Machine.execLockRequestArrival req s
  | .lockGrant req => Sys2Proof.Machine.execLockGrant req s
  | .lockHandover line => Sys2Proof.Machine.execLockHandover line s
  | .lockTimeout gid line => Sys2Proof.Machine.execLockTimeout gid line s
  | .lockReservationExpiry line => Sys2Proof.Machine.execLockReservationExpiry line s
  | .kneeBraceScan => Sys2Proof.Machine.execKneeBraceScan s
  | .cmdprodWrite prod => Sys2Proof.Machine.execCmdprodWrite prod s
  | .bar0RegisterWrite off val => Sys2Proof.Machine.execBar0RegisterWrite off val s
  | .queue q ring log2 device prod cons => Sys2Proof.Machine.execQueue q ring log2 device prod cons s
  | .space pasid s1 s2 => Sys2Proof.Machine.execSpace pasid s1 s2 s
  | .inval pasid va log2 => Sys2Proof.Machine.execInval pasid va log2 s
  | .faultq ring log2 prod cons => Sys2Proof.Machine.execFaultq ring log2 prod cons s
  | .answer tag fail => Sys2Proof.Machine.execAnswer tag fail s
  | .biasToHost pa => Sys2Proof.Machine.execBiasToHost pa s
  | .biasToDevice pa => Sys2Proof.Machine.execBiasToDevice pa s
  | .expreg pa => Sys2Proof.Machine.execExpreg pa s
  | .expwd pa => Sys2Proof.Machine.execExpwd pa s
  | .evlog die ring log2 prod cons => Sys2Proof.Machine.execEvlog die ring log2 prod cons s
  | .checkpt launch area bytes => Sys2Proof.Machine.execCheckpt launch area bytes s
  | .resume launch area cores => Sys2Proof.Machine.execResume launch area cores s
  | .sleepEnter die => Sys2Proof.Machine.execSleepEnter die s
  | .sleepWake die => Sys2Proof.Machine.execSleepWake die s
  | .selftest ms => Sys2Proof.Machine.execSelftest ms s
  | .arm mask => Sys2Proof.Machine.execArm mask s
  | .peer number aperture base size => Sys2Proof.Machine.execPeer number aperture base size s
  | .attest nonce report => Sys2Proof.Machine.execAttest nonce report s
  | .hostCxlMemAccess write pa bytes => Sys2Proof.Machine.execHostCxlMemAccess write pa bytes s
  | .peerAccessArrival write pa bytes => Sys2Proof.Machine.execPeerAccessArrival write pa bytes s
  | .blockResume blk core slot => Sys2Proof.Machine.execBlockResume blk core slot s
  | .linkLevelRetry link => Sys2Proof.Machine.execLinkLevelRetry link s

end Sys2Proof.Machine
end

