-- ==== Sys2Proof/Machine/Step.lean ====
section
/-!
DEFINITION. One step of the machine: the next turn of the agenda (log 1).
-/
namespace Sys2Proof.Machine

/-- Rows of the table that are machine steps or host actions, not instructions of classes 0 to 7. -/
def isMachineStep (i : Instr) : Bool := (Decode.raw? i).isNone

/-- An issue opportunity of a scheduler (R43): the first of its ready splits whose instruction does not wait issues. -/
def issueTurn (s : State) (core sched : Nat) : List (Nat × Nat) → Host.Outcome State Fault Refusal
  | [] => .next s
  | (gid, si) :: rest =>
    let t := turnTo s core sched gid si
    let (before, out) := match fetchTurn t with
      | .idle u => (t, Host.Outcome.next u)
      | .run i u => (u, exec i u)
    match out with
    | .next u => if waitsStill gid before u then issueTurn (notReady s u core gid si) core sched rest else .next u
    | o => o

/-- One step: an issue opportunity, a machine step, or one clk. An empty agenda is a clk. -/
def step (s : State) : Host.Outcome State Fault Refusal :=
  match s.agenda with
  | [] => .next (tick s)
  | .tick :: rest => .next (tick { s with agenda := rest })
  | .issue core sched :: rest =>
    if 256 ≤ core ∨ 4 ≤ sched then .fault .noSuchUnit
    else
      let s := { s with agenda := rest }
      if coreIssues s core sched then issueTurn s core sched (issueOrder s core sched) else .next s
  | .event i :: rest =>
    if !isMachineStep i then .refused .notAStep
    else if !i.wellFormed then .refused .illFormed
    else exec i { s with agenda := rest }

/-- The state in which the next step fetches and runs the instruction of a row's word. -/
def State.withFetchWord (s : State) (nbits w : Nat) : State := placeWords s (Decode.tableWords nbits w)

end Sys2Proof.Machine
end

