-- ==== Sys2Proof/Safety.lean ====
section
/-!
DEFINITION. What counts as a safe run, and the terms in which claims are stated: what an instruction needs to execute
normally, and what is read off the next state.
-/
namespace Sys2Proof

/-- Memory is in its canonical form: addresses strictly rising, no entry equal to what an unlisted address reads as. -/
def Memory.wf (m : List Host.Cell) : Bool := Map.canon (α := Byte) m Config.unwritten

/-- The parts of a state that hold data by number are in canonical form. -/
def Safe (s : Machine.State) : Prop := Memory.wf s.mem = true

/-- A run of `n` steps from a state that stops neither on a fault nor on a refusal. -/
def runsOn (s : Machine.State) : Nat → Prop
  | 0 => True
  | n + 1 => ∃ t, Machine.step s = .next t ∧ runsOn t n

namespace Machine

/-- The instruction executes normally in this context, once its own checks pass: its split runs (R38, R64), no failure is
waiting for its group (R230, R290), it may issue (R43, R64), no register lies beyond the allocation (R58), nothing that it
touches is still in flight (R65), some lane acts where that matters (R59), its shadow duty is met (R284), and shoring finds room (R319). -/
def ready (i : Instr) (s : State) (c : Ctx) : Bool :=
  running c && c.g.npeOver.isNone && c.g.fails.isEmpty && canIssue s c i && (boundFault c.g i).isNone
    && (earlyRefs s c.g c.sp i).isEmpty && (c.act != 0 || actsAlways i) && (primaryFault s c).isNone
    && (shoreDests (sampleSpecials s c) c.blk.levels.length c.gid (shoredAtIssue c i)).2.isNone

/-- The context of an instruction that is ready. -/
def readyCtx (i : Instr) (s : State) : Option Ctx := (ctxOf (hdrOf i) s).filter (ready i s)

/-- The state that a ready instruction's own effect finds: %time and %front sampled for a shadow (R332), its destinations
shored (R317). -/
def entered (i : Instr) (s : State) (c : Ctx) : State :=
  (shoreDests (sampleSpecials s c) c.blk.levels.length c.gid (shoredAtIssue c i)).1

/-! ### Read off a state -/

/-- `n` vector registers of a group in a lane, as one number. -/
def vregsIn (t : State) (gid r lane n : Nat) : Option Nat := (t.groups.get? gid).map (fun g => g.vregs r lane n)
def sregIn (t : State) (gid r : Nat) : Option Dword := (t.groups.get? gid).map (fun g => g.sreg r)
def maskIn (t : State) (gid n : Nat) : Option LaneMask := (t.groups.get? gid).map (fun g => g.mask n)
def fflagsIn (t : State) (gid : Nat) : Option Flags := (t.groups.get? gid).map (·.fflags)
def splitIn (t : State) (gid si : Nat) : Option Split := (t.groups.get? gid).bind (fun g => g.splits.get? si)
def pcIn (t : State) (gid si : Nat) : Option CodeAddr := (splitIn t gid si).map (·.pc)

/-- The split has gone on to the next sequential instruction (R66). -/
def wentOn (i : Instr) (c : Ctx) (t : State) : Bool := pcIn t c.gid c.si == some (c.pc + BitVec.ofNat 55 (lengthOf i))

end Machine

end Sys2Proof
end

