-- ==== Sys2Proof/Certificates/Slice0/Obligations.lean ====
section
/-!
DEFINITION. The statements for the provers, with the terms in which they speak: for each family what its instructions need
beyond being ready, and what the rules of spec/ say of the next state.
-/
namespace Sys2Proof.Claims

open Sys2Proof.Machine

/-! ### Integer instructions (R124 to R131) -/

/-- What R126 gives for one element of a two-source operation. -/
def elem2 (i : Instr) {w : Nat} (a b : BitVec w) : BitVec w :=
  match i with
  | .iadd .. => a + b
  | .isub .. => a - b
  | .imul .. => a * b
  | .imulh _ _ uns _ => if uns then BitVec.ofNat w (a.toNat * b.toNat / 2 ^ w) else BitVec.ofInt w (a.toInt * b.toInt / 2 ^ w)
  | .imin _ _ uns _ => if (if uns then a.ule b else a.sle b) then a else b
  | .imax _ _ uns _ => if (if uns then a.ule b else a.sle b) then b else a
  | .and .. => a &&& b
  | .or .. => a ||| b
  | .xor .. => a ^^^ b
  | .andn .. => a &&& ~~~b
  | _ => 0

/-- What R126 gives for one element of a one-source operation. -/
def elem1 (i : Instr) {w : Nat} (a : BitVec w) : BitVec w :=
  match i with
  | .iabs .. => if a.msb then -a else a
  | .popc .. => BitVec.ofNat w ((List.range w).filter (a.getLsbD ·)).length
  | .clz .. => BitVec.ofNat w ((List.range w).takeWhile (fun k => !a.getMsbD k)).length
  | .brev .. => a.reverse
  | .mov .. => a
  | _ => 0

/-- The field mask of R128 for a field operand. -/
def maskR128 (w b : Nat) : BitVec w :=
  if w ≤ b % 256 then 0 else BitVec.ofNat w ((2 ^ min (b / 256 % 256) w - 1) * 2 ^ (b % 256))

/-- What R127 and R128 give for an element and a count or field operand. -/
def elemCount (i : Instr) {w : Nat} (a : BitVec w) (b : Nat) : BitVec w :=
  match i with
  | .shl .. => a <<< b
  | .shr .. => a >>> b
  | .sar .. => a.sshiftRight b
  | .rotl .. => a.rotateLeft b
  | .bfx _ _ uns _ =>
    let n := min (b / 256 % 256) w
    if n = 0 ∨ w ≤ b % 256 then 0
    else
      let f : BitVec n := BitVec.ofNat n (a.toNat / 2 ^ (b % 256))
      if uns then f.setWidth w else f.signExtend w
  | _ => 0

/-- Where an integer result goes, how many registers it takes, and its value in a lane, or on the scalar side. -/
def intForm (i : Instr) (c : Ctx) (s : State) : Option (Dst × Nat × ((Nat ⊕ Unit) → Nat)) :=
  let bits (w : IWidth) (x e : Nat) : BitVec (iShape w).1 := BitVec.ofNat (iShape w).1 (iElem w x e)
  let two (w : IWidth) (o : Ops2) : Dst × Nat × ((Nat ⊕ Unit) → Nat) :=
    (o.d, iRegs w, fun l => iBuild w (fun e =>
      (elem2 i (bits w (iSrcMod s c w (iImm w o.imm) o.mods o.a l) e) (bits w (iSrc s c (iRegs w) (iImm w o.imm) o.b l) e)).toNat))
  let one (w : IWidth) (o : Ops1) : Dst × Nat × ((Nat ⊕ Unit) → Nat) :=
    (o.d, iRegs w, fun l => iBuild w (fun e => (elem1 i (bits w (iSrcMod s c w (iImm w o.imm) o.mods o.a l) e)).toNat))
  let count (w : IWidth) (o : Ops2) : Dst × Nat × ((Nat ⊕ Unit) → Nat) :=
    (o.d, iRegs w, fun l =>
      let b := iSrc s c 1 o.imm.toNat o.b l % 2 ^ 32
      iBuild w (fun e =>
        (elemCount i (bits w (iSrcMod s c w (iImm w o.imm) o.mods o.a l) e) (if (iShape w).2 = 1 then b else iElem w b e)).toNat))
  match i with
  | .iadd _ w o | .isub _ w o | .imul _ w o | .imulh _ w _ o | .imin _ w _ o | .imax _ w _ o | .and _ w o | .or _ w o
  | .xor _ w o | .andn _ w o => some (two w o)
  | .iabs _ w o | .popc _ w o | .clz _ w o | .brev _ w o | .mov _ w o => some (one w o)
  | .shl _ w o | .shr _ w o | .sar _ w o | .rotl _ w o | .bfx _ w _ o => some (count w o)
  | .imad _ w o =>
    some (o.d, iRegs w, fun l => iBuild w (fun e =>
      (bits w (iSrcMod s c w (iImm w o.imm) o.mods o.a l) e * bits w (iSrc s c (iRegs w) (iImm w o.imm) o.b l) e
        + bits w (iSrc s c (iRegs w) (iImm w o.imm) o.c l) e).toNat))
  | .bfi _ w o =>
    some (o.d, iRegs w, fun l =>
      let n := (iShape w).1
      let a := BitVec.ofNat n (iSrcMod s c w (iImm w o.imm) o.mods o.a l)
      let b := iSrc s c 1 o.imm.toNat o.b l % 2 ^ 32
      let k := BitVec.ofNat n (iSrc s c (iRegs w) (iImm w o.imm) o.c l)
      ((k &&& ~~~maskR128 n b) ||| (a <<< (b % 256) &&& maskR128 n b)).toNat)
  | .lea _ sh uns o =>
    some (o.d, 2, fun l =>
      let a : Nat := match l with
        | .inl l => srcModLane s c 2 (sext32 o.imm) o.mods o.a l
        | .inr _ => srcScalar s c (sext32 o.imm) o.a
      let b := BitVec.ofNat 32 (iSrc s c 1 o.imm.toNat o.b l)
      (BitVec.ofNat 64 a + (if uns then b.setWidth 64 else b.signExtend 64) <<< sh.toNat).toNat)
  | _ => none

/-- The result stands in the destination in every lane of `m`; a scalar destination takes 64 bits, sz nothing (R55, R58). -/
def resultIn (t : State) (c : Ctx) (m : LaneMask) (d : Dst) (n : Nat) (f : (Nat ⊕ Unit) → Nat) : Bool :=
  match d with
  | .v r => (lanesOf m).all (fun l => vregsIn t c.gid r.toNat l n == some (f (.inl l) % 2 ^ (32 * n)))
  | .s r => sregIn t c.gid r.toNat == some (BitVec.ofNat 64 (f (.inr ())))
  | .sz => true

/-- ICMP's condition (R131). -/
def holdsR131 {w : Nat} (uns : Bool) (k : ICond) (a b : BitVec w) : Bool :=
  let lt := if uns then a.ult b else a.slt b
  match k with
  | .eq => a == b
  | .ne => a != b
  | .lt => lt
  | .le => lt || a == b
  | .gt => !(lt || a == b)
  | .ge => !lt

/-- A compare has written its mask: the lanes of G, one result for all of them on the scalar side; other bits and cm7 stay. -/
def maskWritten (s t : State) (c : Ctx) (m : BitVec 3) (vec : Bool) (f : (Nat ⊕ Unit) → Bool) : Bool :=
  m == 7 || allLanes.all (fun l =>
    (maskIn t c.gid m.toNat).map (·.getLsbD l)
      == if c.act.getLsbD l then some (f (if vec then .inl l else .inr ())) else (maskIn s c.gid m.toNat).map (·.getLsbD l))

/-! ### Floating-point instructions (R132 to R143) -/

/-- The value and the flags that a floating operation gives for the elements of its operands, and whether it rounds (R134,
R135, R138 to R140). -/
def floatElem (i : Instr) (fm : Fmt) (rm : Rm) (a b k : Nat) : Nat × Flags :=
  let round (x : XVal) (inv : Bool) (xs : List Nat) : Nat × Flags := roundWith fm x rm inv (flagIf (xs.any fm.isSnan) flagNV)
  let fn (g : XVal → XVal × Flags) : Nat × Flags :=
    let (r, fl) := roundTo fm (g (fm.value a)).1 rm
    (r, fl ||| (g (fm.value a)).2 ||| flagIf (fm.isSnan a) flagNV)
  match i with
  | .fadd .. => round (addX rm (fm.value a) (fm.value b)).1 (addX rm (fm.value a) (fm.value b)).2 [a, b]
  | .fsub .. => round (addX rm (fm.value a) (fm.value b).negate).1 (addX rm (fm.value a) (fm.value b).negate).2 [a, b]
  | .fmul .. => round (mulX (fm.value a) (fm.value b)).1 (mulX (fm.value a) (fm.value b)).2 [a, b]
  | .ffma .. =>
    let p := mulX (fm.value a) (fm.value b)
    let x := addX rm p.1 (fm.value k)
    round x.1 (p.2 || x.2) [a, b, k]
  | .fmin .. => minMax fm false a b
  | .fmax .. => minMax fm true a b
  | .frcp .. => fn fnRcp
  | .frsq .. => fn fnRsq
  | .fsqrt .. => fn fnSqrt
  | .fex2 .. => fn fnEx2
  | .flg2 .. => fn fnLg2
  | .fsin .. => fn fnSin
  | .fcos .. => fn fnCos
  | .frnd .. => roundIntegral fm a rm
  | _ => (0, 0)

/-- The operands of a floating instruction: format, destination, rounding code, and the elements of a lane. -/
structure FloatForm where
  f : FFmt
  d : Dst
  code : Nat
  elem : (Nat ⊕ Unit) → Nat → Rm → Nat × Flags

def floatForm (i : Instr) (c : Ctx) (s : State) : Option FloatForm :=
  let two (f : FFmt) (o : Ops2) : FloatForm :=
    let fm := (fmtOf f).1
    ⟨f, o.d, 7, fun l e rm => floatElem i fm rm (elemAt fm.bits (fSrcMod s c f o.imm o.mods o.a l) e)
      (elemAt fm.bits (fSrc s c f o.imm o.b l) e) 0⟩
  let one (f : FFmt) (o : Ops1) : FloatForm :=
    let fm := (fmtOf f).1
    ⟨f, o.d, 7, fun l e rm => floatElem i fm rm (elemAt fm.bits (fSrcMod s c f o.imm o.mods o.a l) e) 0 0⟩
  match i with
  | .fadd _ f o | .fsub _ f o | .fmul _ f o | .fmin _ f o | .fmax _ f o => some (two f o)
  | .ffma _ f o =>
    let fm := (fmtOf f).1
    some ⟨f, o.d, 7, fun l e rm => floatElem i fm rm (elemAt fm.bits (fSrcMod s c f o.imm o.mods o.a l) e)
      (elemAt fm.bits (fSrc s c f o.imm o.b l) e) (elemAt fm.bits (fSrc s c f o.imm o.c l) e)⟩
  | .frcp _ f o | .frsq _ f o | .fsqrt _ f o | .fex2 _ f o | .flg2 _ f o | .fsin _ f o | .fcos _ f o => some (one f o)
  | .frnd _ f _ mods d a rnd =>
    let fm := (fmtOf f).1
    some ⟨f, d, rnd.toNat, fun l e rm => floatElem i fm rm (elemAt fm.bits (fSrcMod s c f 0 mods a l) e) 0 0⟩
  | .fscl _ f o =>
    let fm := (fmtOf f).1
    some ⟨f, o.d, 7, fun l e rm =>
      let a := elemAt fm.bits (fSrcMod s c f o.imm o.mods o.a l) e
      let b := iSrc s c 1 o.imm.toNat o.b l
      let n := if (fmtOf f).2 = 1 then toSigned b 32 else toSigned (elemAt 16 b e) 16
      roundWith fm (scaleBy (fm.value a) n) rm false (flagIf (fm.isSnan a) flagNV)⟩
  | _ => none

/-- The value, the flags and the generator that R87 and R133 give a lane: element by element, each with its own draw where
the mode is stochastic and the operation rounds. On the scalar side the lowest lane of G draws. -/
def floatLane (i : Instr) (fo : FloatForm) (c : Ctx) (l : Nat ⊕ Unit) : Nat × Flags × Word :=
  let draws := match i with
    | .fmin .. | .fmax .. => false
    | _ => true
  let lane := match l with
    | .inl l => l
    | .inr _ => lowestLane c.act
  elements draws (modeOf c.g fo.code) (fmtOf fo.f).1.bits (fo.elem l) (fmtOf fo.f).2 0 (c.g.generator lane)

/-- The flags that an instruction adds: of every lane of G, or of its scalar result (R85, R133). -/
def addedFlags (c : Ctx) (d : Dst) (f : (Nat ⊕ Unit) → Flags) : Flags :=
  match d with
  | .v _ => (lanesOf c.act).foldl (fun x l => x ||| f (.inl l)) 0
  | _ => f (.inr ())

/-- A floating result: the value in its destination, its flags added to FFLAGS, the generators advanced. -/
def floatWritten (i : Instr) (fo : FloatForm) (c : Ctx) (t : State) : Bool :=
  resultIn t c c.act fo.d (fRegs fo.f) (fun l => (floatLane i fo c l).1)
    && fflagsIn t c.gid == some (c.g.fflags ||| addedFlags c fo.d (fun l => (floatLane i fo c l).2.1))
    && (match fo.d with
        | .v _ => (lanesOf c.act).all (fun l => (t.groups.get? c.gid).map (·.generator l) == some (floatLane i fo c (.inl l)).2.2)
        | _ => (t.groups.get? c.gid).map (·.generator (lowestLane c.act)) == some (floatLane i fo c (.inr ())).2.2)

/-- The lanes' compare results and flags of FCMP and FCLS (R136, R137). -/
def floatTest (i : Instr) (c : Ctx) (s : State) : Option (BitVec 3 × Bool × ((Nat ⊕ Unit) → Bool × Flags)) :=
  match i with
  | .fcmp _ f k o =>
    let fm := (fmtOf f).1
    some (o.m, srcIsVec o.a || srcIsVec o.b, fun l =>
      fcond fm k (elemAt fm.bits (fSrcMod s c f o.imm o.mods o.a l) 0) (elemAt fm.bits (fSrc s c f o.imm o.b l) 0))
  | .fcls _ f scalar mods m a set =>
    let fm := (fmtOf f).1
    some (m, !scalar, fun l => (set.getLsbD (classOf fm (elemAt fm.bits (fSrcMod s c f 0 mods a l) 0)), 0))
  | _ => none

/-- FCVT's element, flags and next generator in a lane (R141, R142). -/
def cvtLane (o : CvtOps) (c : Ctx) (a old : Nat) (gen : Word) : Nat × Flags × Word :=
  let mode := modeOf c.g o.rnd.toNat
  let gen := if mode = 4 then drawNext gen else gen
  let x := cvtRead o.srct.toNat o.dstt.toNat (c.g.xv.getD o.xv.toNat 0x8000).toNat (elemAt (cvtBits o.srct.toNat) a o.j.toNat)
  let y := cvtWrite o.dstt.toNat x.1 x.2 o.sat.toNat (rmOf mode gen.toNat)
  (if cvtBits o.dstt.toNat = 64 then y.1 else putElem (cvtBits o.dstt.toNat) o.k.toNat old y.1, y.2, gen)

/-- FCVT has written its element, kept the others, and added its flags. -/
def cvtWritten (o : CvtOps) (s : State) (c : Ctx) (t : State) : Bool :=
  let sn := if cvtBits o.srct.toNat = 64 then 2 else 1
  let dn := if cvtBits o.dstt.toNat = 64 then 2 else 1
  match o.d with
  | .v r =>
    let one (l : Nat) := cvtLane o c (srcModLane s c sn 0 o.mods o.a l) (c.g.vregs r.toNat l dn) (c.g.generator l)
    (lanesOf c.act).all (fun l => vregsIn t c.gid r.toNat l dn == some ((one l).1 % 2 ^ (32 * dn)))
      && fflagsIn t c.gid == some ((lanesOf c.act).foldl (fun x l => x ||| (one l).2.1) c.g.fflags)
  | d =>
    let old := match d with
      | .s r => (c.g.sreg r.toNat).toNat
      | _ => 0
    let one := cvtLane o c (srcScalar s c 0 o.a) old (c.g.generator (lowestLane c.act))
    (match d with
     | .s r => sregIn t c.gid r.toNat == some (BitVec.ofNat 64 one.1)
     | _ => true)
      && fflagsIn t c.gid == some (c.g.fflags ||| one.2.1)

/-- Integer instructions but SEL and ICMP: what R126 to R129 give stands in the destination. -/
def integerClaim (i : Instr) (s : State) : Option (State → Bool) :=
  (readyCtx i s).bind (fun c => (intForm i c s).map (fun x t => resultIn t c c.act x.1 x.2.1 x.2.2 && wentOn i c t))

/-- SEL (R130): every lane of em takes A where the guard holds and B elsewhere; the scalar side takes A if any lane is in G. -/
def selClaim (i : Instr) (s : State) : Option (State → Bool) :=
  match i, readyCtx i s with
  | .sel _ w o, some c =>
    if c.em = 0 then
      some (fun t => (match o.d with | .s r => sregIn t c.gid r.toNat == sregIn s c.gid r.toNat | _ => true) && wentOn i c t)
    else some (fun t =>
      let ce := { c with act := c.em }
      resultIn t c c.em o.d (iRegs w) (fun l =>
        let inG := match l with
          | .inl l => c.act.getLsbD l
          | .inr _ => c.act != 0
        (if inG then iSrcMod s ce w (iImm w o.imm) o.mods o.a l else iSrc s ce (iRegs w) (iImm w o.imm) o.b l) % 2 ^ (iShape w).1)
      && wentOn i c t)
  | _, _ => none

/-- ICMP (R131). -/
def icmpClaim (i : Instr) (s : State) : Option (State → Bool) :=
  match i, readyCtx i s with
  | .icmp _ w uns k o, some c => some (fun t =>
      maskWritten s t c o.m (srcIsVec o.a || srcIsVec o.b) (fun l =>
        let n := (iShape w).1
        holdsR131 uns k (BitVec.ofNat n (iSrcMod s c w (iImm w o.imm) o.mods o.a l))
          (BitVec.ofNat n (iSrc s c (iRegs w) (iImm w o.imm) o.b l)))
      && wentOn i c t)
  | _, _ => none

/-- Floating-point arithmetic (R134, R135, R138 to R140). -/
def floatClaim (i : Instr) (s : State) : Option (State → Bool) :=
  (readyCtx i s).bind (fun c => (floatForm i c s).map (fun fo t => floatWritten i fo c t && wentOn i c t))

/-- FCMP and FCLS (R136, R137): the mask, and FFLAGS. -/
def floatTestClaim (i : Instr) (s : State) : Option (State → Bool) :=
  (readyCtx i s).bind (fun c => (floatTest i c s).map (fun x t =>
    maskWritten s t c x.1 x.2.1 (fun l => (x.2.2 l).1)
      && fflagsIn t c.gid == some (c.g.fflags ||| (if x.2.1 then (lanesOf c.act).foldl (fun y l => y ||| (x.2.2 (.inl l)).2) 0
          else (x.2.2 (.inr ())).2))
      && wentOn i c t))

/-- FCVT (R141, R142). -/
def cvtClaim (i : Instr) (s : State) : Option (State → Bool) :=
  match i, readyCtx i s with
  | .fcvt _ o, some c => some (fun t => cvtWritten o s c t && wentOn i c t)
  | _, _ => none

/-! ### Instructions across lanes (R144 to R150) -/

/-- The one result of VOTE or of REDUX on integers, which every lane of G or a scalar takes (R147, R148). -/
def oneResult (i : Instr) (c : Ctx) : Option (LDst × Nat × Nat) :=
  match i with
  | .vote _ mode d a =>
    let x (l : Nat) : Word := c.g.vreg a.toNat l
    some (d, 1, match mode with
      | .mask => (BitVec.ofBoolListLE (allLanes.map (fun l => c.act.getLsbD l && x l != 0))).toNat
      | .count => ((lanesOf c.act).filter (fun l => x l != 0)).length
      | .lead => ((lanesOf c.act).find? (fun l => x l != 0)).getD 32
      | .same => if (lanesOf c.act).all (fun l => (lanesOf c.act).all (fun k => x l == x k)) then 1 else 0)
  | .redux _ op f d a =>
    let n := if f = 1 then 2 else 1
    let w := 32 * n
    let xs : List (BitVec w) := (lanesOf c.act).map (fun l => BitVec.ofNat w (c.g.vregs a.toNat l n))
    let least (le : BitVec w → BitVec w → Bool) : Nat := ((xs.find? (fun x => xs.all (le x))).getD 0).toNat
    match op with
    | .add => some (d, n, (xs.foldl (· + ·) 0).toNat)
    | .min => some (d, n, least BitVec.sle)
    | .max => some (d, n, least (fun a b => b.sle a))
    | .minu => some (d, n, least BitVec.ule)
    | .maxu => some (d, n, least (fun a b => b.ule a))
    | .and => some (d, n, (xs.foldl (· &&& ·) (BitVec.allOnes w)).toNat)
    | .or => some (d, n, (xs.foldl (· ||| ·) 0).toNat)
    | .xor => some (d, n, (xs.foldl (· ^^^ ·) 0).toNat)
    | .first => some (d, n, (xs.headD 0).toNat)
    | _ => none
  | _ => none

/-- The values of the lanes of G, or of a scalar (R144). -/
def ldstIn (t : State) (c : Ctx) (d : LDst) (n x : Nat) : Bool :=
  match d with
  | .v r => (lanesOf c.act).all (fun l => vregsIn t c.gid r.toNat l n == some (x % 2 ^ (32 * n)))
  | .s r => sregIn t c.gid r.toNat == some (BitVec.ofNat 64 x)

/-- The lane that SHFL reads for a lane: within its segment of 2^B[10:8] lanes, by B[4:0] (R146). -/
def shflLane (mode : ShflMode) (b lane : Nat) : Nat :=
  let z := min (b / 256 % 8) 5
  let at_ : BitVec 5 := BitVec.ofNat 5 (lane % 2 ^ z)
  let k : BitVec 5 := BitVec.ofNat 5 (b % 32)
  let low (x : BitVec 5) : Nat := x.toNat % 2 ^ z
  lane / 2 ^ z * 2 ^ z + (match mode with
    | .idx => low k
    | .rot => low (at_ + k)
    | .rev => low (~~~at_ ^^^ k)
    | .xor => low (at_ ^^^ k))

/-- One byte of PRMT (R150): a selector byte picks a byte of B:A, whole, inverted, reversed, or is the byte itself. -/
def prmtByte (x : BitVec 64) (sel : BitVec 8) : BitVec 8 :=
  if sel.msb then sel.setWidth 7 |>.setWidth 8
  else
    let y := (x >>> (8 * (sel.toNat % 8))).setWidth 8
    let y := if sel.getLsbD 3 then ~~~y else y
    if sel.getLsbD 4 then y.reverse else y

/-- SHFL, VOTE, MATCH, PRMT, and REDUX on integers (R146 to R150). -/
def lanesClaim (i : Instr) (s : State) : Option (State → Bool) :=
  (readyCtx i s).bind (fun c =>
    match i with
    | .shfl _ mode pair d a b imm => some (fun t =>
        let n := if pair then 2 else 1
        resultIn t c c.act (.v d) n (fun l => match l with
          | .inl l => c.g.vregs a.toNat (shflLane mode (srcLane s c 1 imm.toNat b l) l) n
          | .inr _ => 0)
        && wentOn i c t)
    | .matchLanes _ pair d a => some (fun t =>
        let n := if pair then 2 else 1
        resultIn t c c.act (.v d) 1 (fun l => match l with
          | .inl l => (BitVec.ofBoolListLE (allLanes.map (fun k =>
              c.act.getLsbD k && c.g.vregs a.toNat k n == c.g.vregs a.toNat l n))).toNat
          | .inr _ => 0)
        && wentOn i c t)
    | .prmt _ d a b sel imm => some (fun t =>
        resultIn t c c.act (.v d) 1 (fun l => match l with
          | .inl l =>
            let x : BitVec 64 := BitVec.ofNat 32 (srcLane s c 1 imm.toNat b l) ++ c.g.vreg a.toNat l
            let k : Word := BitVec.ofNat 32 (srcLane s c 1 imm.toNat sel l)
            let y (j : Nat) : BitVec 8 := prmtByte x ((k >>> (8 * j)).setWidth 8)
            ((y 3 ++ y 2 ++ y 1 ++ y 0 : Word)).toNat
          | .inr _ => 0)
        && wentOn i c t)
    | _ => (oneResult i c).map (fun x t => ldstIn t c x.1 x.2.1 x.2.2 && wentOn i c t))

/-- REDUX on floats (R148): FADD is one exact sum rounded once, FMIN and FMAX pick an element. -/
def reduxClaim (i : Instr) (s : State) : Option (State → Bool) :=
  match i, readyCtx i s with
  | .redux _ op f d a, some c =>
    if !reduxIsFloat op then none
    else some (fun t =>
      let fm := reduxFmt f.toNat
      let n := if f = 1 then 2 else 1
      let mode := modeOf c.g 7
      let gen := c.g.generator (lowestLane c.act)
      let gen := if op = .fadd ∧ mode = 4 then drawNext gen else gen
      let r := reduxFloat op fm (rmOf mode gen.toNat) ((lanesOf c.act).map (fun l => c.g.vregs a.toNat l n % 2 ^ fm.bits))
      ldstIn t c d n r.1 && fflagsIn t c.gid == some (c.g.fflags ||| r.2)
        && (t.groups.get? c.gid).map (·.generator (lowestLane c.act)) == some gen && wentOn i c t)
  | _, _ => none

/-! ### Control flow (R111 to R123) -/

/-- The group of an instruction in a state. -/
def groupIn (t : State) (c : Ctx) : Option Group := t.groups.get? c.gid

/-- Something holds of the instruction's group in a state. -/
def groupHas (t : State) (c : Ctx) (p : Group → Bool) : Bool := (groupIn t c).any p

/-- Something holds of a block in a state. -/
def blockHas (t : State) (b : Nat) (p : Block → Bool) : Bool := (t.blocks.get? b).any p

/-- A lane goes on at a PC: in a split that runs there, or in a part deferred on the stack (R39, R41). -/
def laneAt (t : State) (c : Ctx) (l : Nat) (pc : CodeAddr) : Bool :=
  groupHas t c (fun g => g.splits.any (fun p =>
    (p.2.em.getLsbD l && p.2.pc == pc) || p.2.stack.any (fun d => d.lanes.getLsbD l && d.pc == pc)))

/-- A scalar destination holds a value; sz holds none. -/
def scalarIn (t : State) (c : Ctx) (d : Dst) (x : Nat) : Bool :=
  match d with
  | .s r => sregIn t c.gid r.toNat == some (BitVec.ofNat 64 x)
  | _ => true

/-- The target of a branch in a lane, where it names a code word (R112, R113 to R115). -/
def branchTarget (i : Instr) (c : Ctx) : Option (Nat → CodeAddr) :=
  let reg (a : Tgt) : Option (Nat → CodeAddr) :=
    if (lanesOf c.act).all (fun l => decide (tgtLane c a l < 2 ^ 55)) then some (fun l => BitVec.ofNat 55 (tgtLane c a l)) else none
  match i with
  | .bra _ off _ => some (fun _ => c.pc + BitVec.ofInt 55 off.toInt)
  | .call _ _ off => some (fun _ => c.pc + BitVec.ofInt 55 off.toInt)
  | .brx _ a _ | .callx _ _ a | .ret _ a => reg a
  | _ => none

/-- BRA, BRX, CALL, CALLX and RET: each lane of G at its target, each other lane of em at the next instruction, and after a
call the return address in the lanes of G. -/
def branchClaim (i : Instr) (s : State) : Option (State → Bool) :=
  (readyCtx i s).bind (fun c => (branchTarget i c).map (fun target t =>
    (lanesOf c.em).all (fun l => laneAt t c l (if c.act.getLsbD l then target l else c.pc + 3))
      && (match i with
          | .call _ d _ | .callx _ d _ => resultIn t c c.act (.v d) 2 (fun _ => (c.pc + 3).toNat)
          | _ => true)))

/-- The source of MAND, MOR and MREST (R120). -/
def maskOperand (s : State) (c : Ctx) (x : MaskSrc) : LaneMask :=
  match x with
  | .cm m => c.g.mask m.toNat
  | .src a imm => BitVec.ofNat 32 (srcScalar s c imm.toNat a)

/-- NOP, MSAVE, MAND, MOR and MREST (R118, R120): em stays within the split's members. -/
def maskClaim (i : Instr) (s : State) : Option (State → Bool) :=
  (readyCtx i s).bind (fun c =>
    let em (x : LaneMask) : Option (State → Bool) := some (fun t =>
      (splitIn t c.gid c.si).map (·.em) == some (x &&& splitLanes c.sp) && wentOn i c t)
    match i with
    | .nop _ => some (fun t => (splitIn t c.gid c.si).map (·.em) == some c.em && wentOn i c t)
    | .msave _ d => some (fun t => scalarIn t c d c.em.toNat && wentOn i c t)
    | .mand _ x => em (c.em &&& maskOperand (entered i s c) c x)
    | .mor _ x => em (c.em ||| maskOperand (entered i s c) c x)
    | .mrest _ x => em (maskOperand (entered i s c) c x)
    | _ => none)

/-- No lane of these runs a task. -/
def noTask (c : Ctx) (m : LaneMask) : Bool := (lanesOf m).all (fun l => (c.g.tasks.get? l).isNone)

/-- A primary has presented its instruction under a code of R333, and issues nothing more before its shadow has compared. -/
def presentedIn (t : State) (c : Ctx) (code : Nat) : Bool :=
  t.cmps.any (fun k => k.gid == c.gid && k.n == c.g.issued && k.code == code && k.waits)

/-- The issuing split is not serialised (R41). -/
def onePart (c : Ctx) : Bool := c.sp.parts.isEmpty && c.sp.stack.isEmpty

/-- The lanes of G have left the issuing split (R38, R117): with a lane left it goes on at the next instruction with the rest of em, else
it has ended. Not claimed where the exit completes a gathering (R307) or a phase of a named barrier (R191), which may move it. -/
def lanesLeft (t : State) (c : Ctx) : Bool :=
  !onePart c || c.blk.gather.isSome || !c.blk.bars.isEmpty ||
    (splitIn t c.gid c.si).map (fun q => (q.em, q.pc))
      == if (c.sp.members ||| c.em) &&& ~~~c.act = 0 then none else some (c.em &&& ~~~c.act, c.pc + 3)

/-- EXIT outside levels and tasks (R117): every lane of G has exited, as the barriers count it (R191), and has left its split; where it
would end the group while commands of it are left, its split waits (R229). A primary presents it first (R359). -/
def exitClaim (i : Instr) (s : State) : Option (State → Bool) :=
  match i, readyCtx i s with
  | .exit _, some c =>
    if !c.blk.levels.isEmpty || !noTask c c.act then none
    else
      match roleOf s c with
      | .alone =>
        if endsGroup c.g c.sp c.act && commandsLeft s c.gid then
          some (fun t => !onePart c || (splitIn t c.gid c.si).map (fun q => (q.park, q.pc)) == some (some .exit, c.pc))
        else
          some (fun t => (lanesOf c.act).all (fun l => blockHas t c.g.blk (fun b => b.exited.contains (threadNumber c.g l))) && lanesLeft t c)
      | .primary => some (fun t => presentedIn t c 4 && wentOn i c t)
      | .shadow => none
  | _, _ => none

/-- A group outside a handler, a level, a task and a checked launch takes a fault into its handler. -/
def faultTaken (s : State) (c : Ctx) : Bool :=
  roleOf s c == .alone && !resultsPending s c.g && c.blk.levels.isEmpty && noTask c c.act && !c.g.handler && c.g.tvec != 0

/-- The handler has been entered (R281): STATUS, CAUSE, EPC, EVAL, the saved em, the splits held, and PC at TVEC. -/
def enteredHandler (t : State) (c : Ctx) (engine : Bool) (code : BitVec 8) (eval : Dword) : Bool :=
  groupHas t c (fun g => g.handler && g.causeEngine == engine && g.cause == code && g.epc == c.pc && g.eval == eval
    && g.savedEm == c.em && (c.g.splits.all (fun p => p.1 == c.si || g.held.contains p.2.uid)))
    && pcIn t c.gid c.si == some c.g.tvec

/-- TRAP (R119): the trap is taken. -/
def trapClaim (i : Instr) (s : State) : Option (State → Bool) :=
  match i, readyCtx i s with
  | .trap _ code a, some c =>
    if faultTaken s c then some (fun t => enteredHandler t c false code (BitVec.ofNat 64 (srcScalar (entered i s c) c 0 a))) else none
  | _, _ => none

/-- TRET (R287, R402): back at EPC with the saved em; a kept wait goes on, and one that has ended meanwhile has its split go on after its instruction. -/
def tretClaim (i : Instr) (s : State) : Option (State → Bool) :=
  match i, readyCtx i s with
  | .tret _, some c =>
    if c.g.handler && c.g.splits.all (fun p => p.1 == c.si || c.g.held.contains p.2.uid) then
      some (fun t =>
        let past : Int := match c.g.entry with
          | some (pc, _, some n) => if pc = c.g.epc then n else 0
          | _ => 0
        groupHas t c (fun g => !g.handler && g.held.isEmpty)
          && (splitIn t c.gid c.si).map (·.em) == some (c.g.savedEm &&& splitLanes c.sp)
          && pcIn t c.gid c.si == some (c.g.epc + BitVec.ofInt 55 past)
          && (splitIn t c.gid c.si).map (·.park) == some (match c.g.entry with
            | some (pc, p, none) => if pc = c.g.epc then some p else none
            | _ => none))
    else none
  | _, _ => none

/-- REGROUP (R121, R45, R46): a continuation of every lane of G stands in the spawn area, or in a group that it fills, and the lanes of
G have left their split and ended. A primary presents it first, under code 4 (R359, and log 141's choice). -/
def regroupClaim (i : Instr) (s : State) : Option (State → Bool) :=
  match i, readyCtx i s with
  | .regroup _ off a, some c =>
    if !c.launch.regroup || !c.blk.levels.isEmpty || c.g.taskGroup || roleOf s c == .shadow then none
    else if roleOf s c == .primary then some (fun t => presentedIn t c 4 && wentOn i c t)
    else
      some (fun t => (lanesOf c.act).all (fun l =>
        let k := contOf c.g (c.pc + BitVec.ofInt 55 off.toInt) (BitVec.ofNat 32 (srcLane (entered i s c) c 1 0 a l)) l
        blockHas t c.g.blk (fun b => b.conts.contains k || b.formed.any (·.2.contains k))) && lanesLeft t c)
  | _, _ => none

/-- The records that LAUNCH names, in lane order (R122). -/
def launchUnits (i : Instr) (c : Ctx) : Option (List (Nat × LaneMask)) :=
  match i with
  | .launch _ a => some [((c.g.sreg a.toNat).toNat, c.act)]
  | .launchLane _ a => some ((lanesOf c.act).map (fun l => (c.g.vregs a.toNat l 2, laneBit l)))
  | _ => none

/-- LAUNCH and LAUNCH.lane (R122, R123, R48): the children, each a record of 64 bytes, stand at the core's interface with what
their lanes have observed. -/
def launchClaim (i : Instr) (s : State) : Option (State → Bool) :=
  (readyCtx i s).bind (fun c => (launchUnits i c).bind (fun us =>
    let u := entered i s c
    match launchChecks us c u with
    | .inr ps =>
      let v := forAll ps u (fun p s => bridgeRead s (dieOfGroup c.gid) p 64 false)
      let rs := ps.map (fun p => (recordQueue (readBytes u p 64), readBytes u p 64))
      if roleOf s c == .alone && released u c.gid (splitLanes c.sp) 6 && !recordsHeld u c ps && roomFor v (dieOfGroup c.gid) (rs.map (·.1)) then
        some (fun t => (t.core (coreOfGroup c.gid)).launchBuf.contains ⟨s.clk, c.si, slotOf c.gid, rs, observed u c.gid c.act⟩
          && wentOn i c t)
      else none
    | .inl _ => none))

/-! ### Control registers and the other instructions of class 7 (R285 to R289, R303) -/

/-- The bits that a control register has, all of them writable but where R72 says RO (R72, R73). -/
def csrBits (r : Csr) : Option Dword :=
  match r with
  | .status | .ensd | .shoru | .snapctl => none
  | .cause => some 0x1FF
  | .epc | .tvec => some 0x7FFFFFFFFFFFFF
  | .eval => some 0xFFFFFFFFFFFFFFFF
  | .sbchk => some 1
  | .backoff | .xv _ => some 0xFFFF
  | .fflags => some 0x1F
  | .frm => some 7

/-- A control register as the group would read it now. -/
def csrIn (t : State) (c : Ctx) (r : Csr) : Option Dword :=
  match groupIn t c, t.blocks.get? c.g.blk with
  | some g, some b => some (csrValue t { c with g := g, blk := b } r)
  | _, _ => none

/-- CSRR (R286). -/
def csrrClaim (i : Instr) (s : State) : Option (State → Bool) :=
  match i, readyCtx i s with
  | .csrr _ d r, some c => some (fun t => scalarIn t c d (csrValue (entered i s c) c r).toNat && wentOn i c t)
  | _, _ => none

/-- A CSRW's register, source, and what it makes of the old value (R286). -/
def csrwForm (i : Instr) : Option (Csr × Src × (Dword → Dword → Dword)) :=
  match i with
  | .csrwWr _ r a => some (r, a, fun _ x => x)
  | .csrwSet _ r a => some (r, a, fun old x => old ||| x)
  | .csrwClr _ r a => some (r, a, fun old x => old &&& ~~~x)
  | _ => none

/-- CSRW on every register but SNAPCTL (R286, R72, R73): a register that is RO stays, FRM takes only 0 to 4, and any other
holds the new value in the bits that it has. -/
def csrwClaim (i : Instr) (s : State) : Option (State → Bool) :=
  (readyCtx i s).bind (fun c => (csrwForm i).bind (fun (r, a, f) =>
    let u := entered i s c
    let old := csrValue u c r
    let new := f old (BitVec.ofNat 64 (srcScalar u c 0 a))
    if r == .snapctl then none
    else some (fun t =>
      csrIn t c r == some (match csrBits r with
        | none => old
        | some m => if r == .frm && 5 ≤ new.toNat % 8 then old else new &&& m)
      && wentOn i c t)))

/-- CSRW on SNAPCTL (R73, R74, R286): ARM and EXT take the new value, LATCHED is cleared by writing 1 to it in the form .wr
alone, and the clk's earlier value is kept for its readers. -/
def snapctlClaim (i : Instr) (s : State) : Option (State → Bool) :=
  (readyCtx i s).bind (fun c => (csrwForm i).bind (fun (r, a, f) =>
    let k := s.core (coreOfGroup c.gid)
    let x := BitVec.ofNat 64 (srcScalar (entered i s c) c 0 a)
    let wr : Bool := match i with
      | .csrwWr .. => true
      | _ => false
    if r == .snapctl && roleOf s c != .shadow && !(k.snapOld.1 == s.clk && decide (schedOf c.gid < k.snapOld.2.1)) then
      let new := f ((snapctlOf k).setWidth 64) x
      some (fun t =>
        let n := t.core (coreOfGroup c.gid)
        n.snapArm == new.getLsbD 0 && n.snapExt == new.getLsbD 2 && n.snapLatched == (k.snapLatched && !(wr && x.getLsbD 1))
          && csrIn t c .snapctl == some (csrValue s c .snapctl) && wentOn i c t)
    else none))

/-- NPE, PEN, SNAP and HALT (R289, R301, R303). -/
def systemClaim (i : Instr) (s : State) : Option (State → Bool) :=
  (readyCtx i s).bind (fun c =>
    match i with
    | .npe _ =>
      if (roleOf s c == .shadow || !anySpec s c.g c.em) && c.g.npe.isNone then
        some (fun t => groupHas t c (fun g => g.npe == some (s.die (dieOfGroup c.gid)).time) && wentOn i c t)
      else none
    | .pen _ => some (fun t => groupHas t c (fun g => g.npe.isNone
        && g.stopped == (c.g.npe.isSome && c.blk.stop.isSome && roleOf s c != .shadow)) && wentOn i c t)
    | .snap _ d =>
      if roleOf s c != .shadow && (s.die 0).awake then
        let now := (s.die 0).time
        let live := s.triggers.filter (fun t => s.dies.any (fun d => d.2.awake && decide (d.2.time ≤ t.t)))
        let at_ := ((live.find? (fun t => decide (now < t.t))).map (·.t)).getD (now + 64)
        some (fun t => t.triggers.contains ⟨at_, false⟩ && scalarIn t c d at_ && wentOn i c t)
      else none
    | .halt _ code =>
      if roleOf s c != .shadow && c.blk.levels.isEmpty && !anySpec s c.g (groupLanes c.g) && pairLevel s c.gid c.g then
        some (fun t => blockHas t c.g.blk (fun b => match b.stop with
            | some (.halt k) => k == (match c.blk.stop with
                | some (.halt k) => k
                | _ => code)
            | _ => false)
          && (t.die (dieOfGroup c.gid)).events.contains ⟨(s.die (dieOfGroup c.gid)).time, 0x000C, 0, coreOfGroup c.gid % 64,
              code.setWidth 64, c.pc.setWidth 64⟩)
      else none
    | _ => none)

/-! ### Memory accesses at issue (R170 to R188) -/

/-- Space, need and operands of a load (R175, R177). -/
def loadForm (i : Instr) : Option (MSpace × Need × MemOps) :=
  match i with
  | .ldg _ o => some (.glb, Need.load, o)
  | .lds _ o => some (.scr, Need.load, o)
  | .ldw _ o => some (.win (o.sel == 1), Need.load, o)
  | .ldc _ o => some (.glb, Need.constant, o)
  | _ => none

/-- Space and operands of a store (R176). -/
def storeForm (i : Instr) : Option (MSpace × MemOps) :=
  match i with
  | .stg _ o => some (.glb, o)
  | .sts _ o => some (.scr, o)
  | .stw _ o => some (.win (o.sel == 1), o)
  | _ => none

/-- An access that the instruction has made stands in the machine (R198): a load pending, a write in the store buffer. -/
def madeBy (s : State) (c : Ctx) (h : Hit) (kind : AKind) (size data data2 : Nat) (ord : Ord) (scope : Nat) (a : Acc) : Bool :=
  decide (s.nextId ≤ a.id) && a.gid == some c.gid && a.lanes == h.lanes && a.kind == kind && a.va == h.va && a.pa == h.pa
    && a.size == size && a.data == data && a.data2 == data2 && a.ord == ord && a.scope == scope
    && a.stage == (if kind = .load then .pending else .buffered) && a.n == c.g.issued && a.depth == c.blk.levels.length

/-- What an access returns goes to these destinations of these lanes, which wait for it (R64). -/
def returnsTo (t : State) (c : Ctx) (h : Hit) (dst : Option RegRef) (mask : Option Nat) (size : Nat) (sext : Bool) (refs : List RegRef)
    (a : Acc) : Bool :=
  a.tok.any (fun k => (t.toks.get? k).any (fun x =>
    x.gid == c.gid && x.n == c.g.issued && x.dst == dst && x.mask == mask && x.size == size && x.sext == sext
      && (x.lanes &&& h.lanes) == h.lanes && (refs.isEmpty || groupHas t c (fun g => g.pend.contains ⟨k, refs, x.lanes, []⟩))))

/-- LDG, LDS, LDW and LDC (R172 to R175, R177): every access that passes its checks is a pending load for its lanes. -/
def loadClaim (i : Instr) (s : State) : Option (State → Bool) :=
  (readyCtx i s).bind (fun c => (loadForm i).bind (fun (sp, need, o) =>
    let u := entered i s c
    let size := widthBytes o.width
    match checkAccesses u c sp need size true false (memUnits u c (vectorSide o.at_.a o.at_.b) sp o.at_) with
    | .go hs v =>
      if roleOf s c != .shadow && (sp == .glb || specLanes u c == 0) && (nestingOf v c sp false hs).isNone && !peerFull v c hs then
        some (fun t => hs.all (fun h => t.accs.any (fun a =>
            madeBy s c h .load size 0 0 o.ord o.at_.scope.toNat a
              && returnsTo t c h (dstOf o.d) none size (widthSigned o.width) (refsSrc (mwN o.width) o.d) a)) && wentOn i c t)
      else none
    | .stop _ => none))

/-- STG, STS and STW (R172 to R174, R176): every access that passes its checks is a store of the low bytes of D. -/
def storeClaim (i : Instr) (s : State) : Option (State → Bool) :=
  (readyCtx i s).bind (fun c => (storeForm i).bind (fun (sp, o) =>
    let u := entered i s c
    let vec := vectorSide o.at_.a o.at_.b
    let size := widthBytes o.width
    match checkAccesses u c sp Need.store size false false (memUnits u c vec sp o.at_) with
    | .go hs v =>
      if roleOf s c != .shadow && (sp == .glb || specLanes u c == 0) && (nestingOf v c sp true hs).isNone
          && !peerFull v c hs && (reserveLines v c [] hs).2.2.isNone then
        some (fun t => hs.all (fun h => t.accs.any (madeBy s c h .store size
          (sideSrc u c vec (mwN o.width) o.d h.lane % 256 ^ size) 0 o.ord o.at_.scope.toNat)) && wentOn i c t)
      else none
    | .stop _ => none))

/-- What a class 5 access is: its kind, order, operands, condition mask, and whether it returns a value (R183 to R188). -/
def class5Form (i : Instr) : Option (AKind × Ord × AtomOps × Option Nat × Bool) :=
  match i with
  | .atom _ op o => some (.atom op true, o.ord, o, none, true)
  | .acas _ o => some (.cas, o.ord, o, none, true)
  | .red _ op _ o => some (.atom op false, o.ord, o, none, false)
  | .rdlk _ m o => some (.rdlk, .acquire, o, some m.toNat, true)
  | .rdul _ m o => some (.rdul, .release, o, some m.toNat, true)
  | .wrlk _ m o => some (.wrlk, .acquire, o, some m.toNat, true)
  | .wrul _ m o => some (.wrul, .release, o, some m.toNat, true)
  | _ => none

/-- The registers and the mask that a class 5 access writes. -/
def class5Refs (o : AtomOps) (mask : Option Nat) : List RegRef :=
  refsDst (if o.wide then 2 else 1) o.d ++ (match mask with
    | some m => if m = 7 then [] else [.cm m]
    | none => [])

/-- ATOM, ACAS, RED, RDLK, RDUL, WRLK and WRUL (R183 to R188): every lane's request carries its operand, and for ACAS what D
held, and what it returns goes to D. -/
def class5Claim (i : Instr) (s : State) : Option (State → Bool) :=
  (readyCtx i s).bind (fun c => (class5Form i).bind (fun (kind, ord, o, mask, returns) =>
    let u := entered i s c
    let vec := vectorSide o.a o.b
    let sp := cspaceOf o.space
    let size := if o.wide then 8 else 4
    let us := (unitsOf u c vec).map (fun x => (x.1, x.2, (baseOf c sp o.a x.1 : Int) + o.off.toInt))
    match checkAccesses u c sp Need.both size true true us with
    | .go hs v =>
      if roleOf s c != .shadow && ((sp == .glb && mask.isNone) || specLanes u c == 0)
          && (nestingOf v c sp true hs).isNone && !peerFull v c hs && (reserveLines v c [] hs).2.2.isNone then
        some (fun t => hs.all (fun h => t.accs.any (fun a =>
          madeBy s c h kind size (sideSrc u c vec (size / 4) o.b h.lane % 256 ^ size)
              (if kind = .cas then swapOf o c u vec h.lane else 0) ord o.scope.toNat a
            && (if returns && !((atomDst o).isNone && mask.isNone) then
                  returnsTo t c h (atomDst o) mask size false (class5Refs o mask) a
                else a.tok.isNone))) && wentOn i c t)
      else none
    | .stop _ => none))

/-- The physical addresses that PREF reaches: of the lanes whose address translates (R178), but for uncached pages and peers (R166,
R388). -/
def prefReaches (u : State) (c : Ctx) (o : AddrOps) : List Nat :=
  (checkEach u c.blk c.launch.pasid .glb Need.load 1 false (memUnits u c (vectorSide o.a o.b) .glb o)).1.filterMap (fun r =>
    match r.2.2.2 with
    | .ok pa uncached => if uncached || peerMemory u pa then none else some pa
    | _ => none)

/-- PREF (R178): no byte that a program sees is read or written, no access is made, and no register, mask or flag changes; at level 2 a
replica of every line that it reaches stands in a slice of its core's bent (R167), but for speculative lanes and pages whose bias is
changing (R384). -/
def prefClaim (i : Instr) (s : State) : Option (State → Bool) :=
  match i, readyCtx i s with
  | .pref _ level o, some c =>
    let u := entered i s c
    let slice (pa : Nat) : Nat := dieOfGroup c.gid * 64 + 4 * (bentOfCore (coreOfGroup c.gid) % 16) + sliceOf pa % 4
    if roleOf s c == .alone then
      some (fun t => decide (t.mem = s.mem) && t.accs == s.accs
        && groupHas t c (fun g => g.v == c.g.v && g.s == c.g.s && g.cm == c.g.cm && g.pend == c.g.pend && g.fflags == c.g.fflags)
        && (level != 2 || anySpec u c.g c.act || (prefReaches u c o).all (fun pa => biasFrozen u pa
            || (t.launches.get? c.blk.launch).any (fun l => l.replicas.contains (pa / 128, slice pa))))
        && wentOn i c t)
    else none
  | _, _ => none

/-- CFLUSH (R181): a flush of every line enters the store buffer. -/
def cflushClaim (i : Instr) (s : State) : Option (State → Bool) :=
  match i, readyCtx i s with
  | .cflush _ op o, some c =>
    let u := entered i s c
    match checkAccesses u c .glb Need.load 1 false false (memUnits u c (vectorSide o.a o.b) .glb o) with
    | .go hs v =>
      if roleOf s c != .shadow && specLanes u c == 0 && !peerFull v c hs then
        some (fun t => hs.all (fun h => t.accs.any (madeBy s c h (.flush op.toNat) 1 0 0 .relaxed o.scope.toNat)) && wentOn i c t)
      else none
    | .stop _ => none
  | _, _ => none

/-- FENCE (R182, R210): once its split's own accesses let it go on, an acquiring one has taken what its lanes' loads have read into their
observed sets, and a releasing one makes later writes carry those sets and wait for them at its scope. -/
def fenceClaim (i : Instr) (s : State) : Option (State → Bool) :=
  match i, readyCtx i s with
  | .fence _ kind scope, some c =>
    let acq := kind == .acquire || kind == .sc
    let rel := kind == .release || kind == .sc
    let u := entered i s c
    let loaded := (accessesOf u c.gid c.em).all (fun a => !a.isLoad || a.stage == .satisfied)
    if roleOf s c == .shadow || anySpec u c.g c.em then some (wentOn i c)
    else if (!acq || loaded) && (!rel || ownPerformed u c.gid c.em scope.toNat) then
      some (fun t => (lanesOf c.em).all (fun l =>
          let th := threadId c.gid l
          let live (is : List Nat) : List Nat := is.filter (fun i => (s.acc? i).isSome)
          (!acq || ((t.seen.getD th []).isEmpty && (s.seen.getD th []).all ((t.obs.getD th []).contains ·)))
            && (!rel || (live (s.obs.getD th [])).all (fun w => (t.fenced.getD th []).contains (w, scope.toNat))))
        && (!(acq && decide (4 ≤ scope.toNat)) || (t.core (coreOfGroup c.gid)).l1.isEmpty) && wentOn i c t)
    else none
  | _, _ => none

/-! ### Barriers (R189 to R192) -/

/-- The split waits (R41): parked, or its running part is, at this instruction. -/
def parkedAt (t : State) (c : Ctx) (p : Park) : Bool :=
  (splitIn t c.gid c.si).any (fun q => (q.park == some p && q.pc == c.pc) || q.parts.any (fun r => r.park == p && r.pc == c.pc))

/-- No task is registered as a reader of these bytes (R344): scratch bytes never are. -/
def noReader (s : State) (pa size : Nat) : Bool :=
  s.tasks.all (fun p => p.2.reads.all (fun r => decide ((r + 1) * 32 ≤ pa ∨ pa + size ≤ r * 32)))

/-- The running part has not resumed in this very clk, in which it could not issue (R41, R43). -/
def resumedBefore (s : State) (c : Ctx) : Bool := c.sp.woke.all (fun w => w.1 != s.clk)

/-- A barrier instruction's word, its block, and the state with what it changes shored, where nothing makes it wait or
fault (R190, R192). -/
def barReady (i : Instr) (s : State) (c : Ctx) (r : BarRef) (writes release : Bool) : Option (Nat × Nat × Block × State) :=
  let u := entered i s c
  match barTarget u c r with
  | .ok word _ =>
    if roleOf s c == .alone && specLanes u c == 0 && resumedBefore s c && !(u.line (word / 128)).poison
        && !barWaits u c word writes release (if r.member then 4 else 2) && noReader u word 8 then
      (scratchOwner u word).bind (fun o => (u.blocks.get? o).bind (fun b => (shoreBar u c word).map (fun v => (word, o, b, v))))
    else none
  | _ => none

/-- The word after an arrival of the lanes of G and `bytes` more pending, and whether the phase has completed (R191, R192). -/
def arriveWord (v : State) (c : Ctx) (word : Nat) (b : Block) (bytes : Int) (count : Option Nat) : Option (BarWord × Bool) :=
  match count with
  | none => some ((readBar v word).addPending bytes).complete
  | some k =>
    ((readBar v word).arrive (b.bars.get? (barIndex b word)) (liveThreads v b) (countLanes c.act) k).map
      (fun x => (x.1.addPending bytes).complete)

/-- BARW, BARW with wonly, BARA and BARX (R190 to R192): the word, and the wait or the result. -/
def barrierClaim (i : Instr) (s : State) : Option (State → Bool) :=
  (readyCtx i s).bind (fun c =>
    let update (r : BarRef) (bytes : Int) (count : Option Nat) (after : BarWord → Bool → Nat → State → Bool) : Option (State → Bool) :=
      (barReady i s c r true count.isSome).bind (fun (word, _, b, v) => (arriveWord v c word b bytes count).map (fun (w, done) t =>
        readBar t word == w && after (readBar v word) done word t))
    match i with
    | .barw _ r count => update r 0 (some count.toNat) (fun old done word t =>
        if done then wentOn i c t else parkedAt t c (.barw word old.phase (if r.member then 4 else 2)))
    | .bara _ r d count => update r 0 (some count.toNat) (fun old done _ t =>
        scalarIn t c d ((if old.phase then 1 else 0) + (if done then 2 else 0)) && wentOn i c t)
    | .barx _ r count bytes imm =>
      let k : Int := if bytes = .imm then imm.toInt else toSigned (srcScalar (entered i s c) c 0 bytes) 32
      update r k (count.map (·.toNat)) (fun _ _ _ t => wentOn i c t)
    | .barwWait _ r phase =>
      (barReady i s c r false false).map (fun (word, _, _, _) t =>
        let ph := (match phase with
          | .s r => (c.g.sreg r.toNat).getLsbD 0
          | .v r => (c.g.vreg r.toNat (lowestLane c.act)).getLsbD 0)
        if (readBar s word).phase != ph then wentOn i c t else parkedAt t c (.barw word ph (if r.member then 4 else 2)))
    | _ => none)

/-! ### Line locks (R361 to R375) -/

/-- The status word of R363 in D, and the mask: ones in the lanes of G for OK, zeros otherwise. -/
def statusIn (t : State) (c : Ctx) (d : Dst) (m : BitVec 3) (held st : Nat) : Bool :=
  scalarIn t c d (held * 256 + st)
    && (m == 7 || (maskIn t c.gid m.toNat).map (· &&& c.act) == some (if st = 0 then c.act else 0))

/-- LOCK and LOCKT (R365, R366, R361): a request for the line goes to its home slice, and D and the mask wait for it; a group
that holds the line or waits for it gets HELD at once. -/
def lockClaim (i : Instr) (s : State) : Option (State → Bool) :=
  (readyCtx i s).bind (fun c =>
    let u := entered i s c
    let form : Option (Bool × BitVec 3 × Dst × BitVec 6 × Nat) := match i with
      | .lock _ m d a b imm => some (false, m, d, a, srcScalar u c imm.toNat b % 2 ^ 32)
      | .lockt _ m d a => some (true, m, d, a, 0)
      | _ => none
    form.bind (fun (test, m, d, a, timeout) =>
      match lineCheck u c (c.g.sreg a.toNat).toNat with
      | (.inr pa, v) =>
        let line := pa / 128
        let ls := lockLines v c.gid
        let home := lockHome line
        if roleOf s c == .alone && specLanes u c == 0 && resumedBefore s c && (decide (ls.length < 4) || ls.contains line)
            && v.lockReqs.all (fun p => !(p.2.gid == c.gid && p.2.n == c.g.issued))
            && (hasPeg v c.gid line || mayYetSend v (coreOfGroup c.gid) (.slice home.1 home.2) 1) then
          some (fun t =>
            (if hasPeg v c.gid line then statusIn t c d m (heldCount v c.gid) 7
             else t.lockReqs.any (fun p => p.2.gid == c.gid && p.2.line == line && p.2.timeout == timeout && p.2.test == test
                && p.2.dst == lockDst d && p.2.mask == m.toNat && p.2.lanes == c.act
                && t.queue.any (fun e => e.payload == .lock p.1 && e.dest == .slice home.1 home.2 && e.core == coreOfGroup c.gid
                  && e.state == .sent)))
            && wentOn i c t)
        else none
      | _ => none))

/-- UNLOCK (R368, R327): the release of a line that the group holds; inside a level it is deferred and OK at once; a line not
held gives NOT_HELD. -/
def unlockClaim (i : Instr) (s : State) : Option (State → Bool) :=
  match i, readyCtx i s with
  | .unlock _ m d a, some c =>
    let u := entered i s c
    let va := (c.g.sreg a.toNat).toNat
    let refs := refsDst 1 d ++ (if m = 7 then [] else [.cm m.toNat])
    match (lineCheck u c va).1 with
    | .inr _ =>
      let k : Tok := { gid := c.gid, split := c.si, n := c.g.issued, lanes := c.act, dst := lockDst d, size := 8, sext := false,
                       mask := some m.toNat, pc := c.pc, vals := [], oks := [] }
      match lineCheck (newTok u k refs).2 c va with
      | (.inr pa, w) =>
        let line := pa / 128
        let held := holdsLine w c.gid line && !unlockDeferred c.blk c.gid line
        let deep := !c.blk.levels.isEmpty
        if roleOf s c == .alone && specLanes u c == 0 && u.toks.all (fun p => !(p.2.gid == c.gid && p.2.n == c.g.issued))
            && (!held || !deep || (deferAction w c.g.blk (.unlock c.gid line)).isSome) then
          some (fun t =>
            (if !held then statusIn t c d m (heldCount w c.gid) 6
             else if deep then statusIn t c d m (heldCount w c.gid) 0
                && blockHas t c.g.blk (fun b => b.top.any (fun l => l.actions.contains (.unlock c.gid line)))
             else t.accs.any (fun x => x.kind == .unlock && x.gid == some c.gid && x.pa == line * 128 && x.ord == .release
                && x.scope == 6 && x.stage == .buffered && returnsTo t c ⟨32, c.act, va, pa, false, none⟩ (lockDst d) (some m.toNat) 8 false refs x))
            && wentOn i c t)
        else none
      | _ => none
    | _ => none
  | _, _ => none

/-! ### Recovery blocks and conversations (R304 to R326) -/

/-- Every split of the instruction's group stands at the next instruction. -/
def groupOn (t : State) (c : Ctx) : Bool := groupHas t c (fun g => g.splits.all (fun p => p.2.pc == c.pc + 3))

/-- What a gathering instruction does, where its own checks pass: the kind that it would start, and the state then (R308,
R311, R325). -/
def gatherForm (i : Instr) (s : State) (c : Ctx) : Option (GatherKind × State) :=
  let u := entered i s c
  let word (r : BitVec 6) (member : Bool) : Option (Nat × State) :=
    match convCheck u c (c.g.sreg r.toNat).toNat with
    | (.inr pa, v) => if isMember v c.g.blk pa == member && noReader v pa 8 then some (pa, v) else none
    | _ => none
  if roleOf s c != .alone then none
  else
    match i with
    | .ensure _ n1 a b first test =>
      let limit := (c.g.sreg a.toNat).toNat
      let kind (w : Option Nat) : GatherKind := .ensure (n1.toNat + 1) limit w first.toNat (c.pc + BitVec.ofInt 55 test.toInt)
      if c.blk.levels.length == 4 || anySpec u c.g c.em || limit == 0 || decide (2 ^ 32 ≤ limit) then none
      else
        match b with
        | .s r => (word r false).map (fun x => (kind (some x.1), x.2))
        | _ => some (kind none, u)
    | .accept _ => if c.blk.levels.isEmpty || c.blk.levels.any (fun l => l.conv.any (fun w => !noReader u w 8)) then none else some (.accept, u)
    | .conv _ a =>
      if anySpec u c.g c.em || c.blk.levels.isEmpty || c.blk.top.any (fun l => l.conv.isSome) then none
      else (word a false).map (fun x => (.conv x.1, x.2))
    | .convx _ a => (word a true).map (fun x => (.convx x.1, x.2))
    | _ => none

/-- The level that ENSURE opens (R308). -/
def openedLevel (c : Ctx) (n limit : Nat) (w : Option Nat) (first : Nat) (test : CodeAddr) (l : Level) : Bool :=
  l.pc == c.pc && l.test == test && l.marker == c.pc + BitVec.ofNat 55 first && l.n == n && l.k == 1 && l.limit == limit && l.clock == 0
    && l.conv == w && l.joining == w.isSome && !l.accepting && l.regs.isEmpty && l.words.isEmpty && l.lines.isEmpty && l.actions.isEmpty

/-- ENSURE, ACCEPT, CONV and CONVX (R307, R308, R311, R325): a split with all its lanes arrives and waits, the first arrival
fixing what is gathered for; with the last one, once the conversation word may be written, the level opens, accepts, asks to join a
conversation, or leaves it. -/
def gatherClaim (i : Instr) (s : State) : Option (State → Bool) :=
  (readyCtx i s).bind (fun c => (gatherForm i s c).bind (fun (kind, v) =>
    let old := (v.blocks.get? c.g.blk).bind (·.gather)
    if c.em == 0 || c.em != splitLanes c.sp || old.any (fun g => g.pc != c.pc) || c.g.pend.any (fun p => (p.lanes &&& c.em) != 0)
        || !released v c.gid c.em 2 then none
    else
      let first : Gather := old.getD ⟨c.pc, kind⟩
      let w := parkHere (v.setBlock c.g.blk (fun b => { b with gather := some first })) c .gather
      let ready := (w.blocks.get? c.g.blk).any (fun b =>
        gathered w c.g.blk b && (gatherWord b first.kind).elim true (convReady w c.g.blk))
      if !ready then
        some (fun t => parkedAt t c .gather && blockHas t c.g.blk (fun b => b.gather == some first))
      else
        let depth := c.blk.levels.length
        match first.kind with
        | .ensure n limit cw fst test =>
          let x := endGather w c.g.blk c.pc
          let gs := (groupsOf x c.g.blk).filter (fun p => !p.2.splits.isEmpty && (!p.2.taskGroup || p.2.splits.all (fun q => q.2.pc == c.pc)))
          if (recordGroups (x.setBlock c.g.blk (fun b => { b with levels := b.levels ++ [newLevel c.pc n limit cw fst test] })) c.g.blk gs).isSome then
            some (fun t => blockHas t c.g.blk (fun b => b.gather.isNone && b.levels.length == depth + 1
              && b.top.any (fun l => openedLevel c n limit cw fst test l && l.records.any (fun r => r.gid == c.gid))) && groupOn t c)
          else none
        | .accept =>
          some (fun t => blockHas t c.g.blk (fun b => b.gather.isNone
            && (if (c.blk.top.bind (·.conv)).isNone && decide (1 < depth) then b.levels.length == depth - 1
                else b.levels.length == depth && b.top.any (·.accepting))) && groupOn t c)
        | .conv word =>
          some (fun t => blockHas t c.g.blk (fun b => b.gather.isNone && b.top.any (fun l => l.conv == some word && l.joining)) && groupOn t c)
        | .convx word =>
          if c.blk.levels.any (fun l => l.conv == some word && l.coupled) then none
          else
            some (fun t => blockHas t c.g.blk (fun b => b.gather.isNone && b.levels.all (fun l => l.conv != some word))
              && !isMember t c.g.blk word && groupOn t c)))

/-- ELSEBY and ELSEERR that normal flow reaches (R310), and REJECT (R312). -/
def alternateClaim (i : Instr) (s : State) : Option (State → Bool) :=
  (readyCtx i s).bind (fun c =>
    match i with
    | .elseby .. | .elseerr .. => c.blk.top.map (fun l t => pcIn t c.gid c.si == some l.test)
    | .reject _ a =>
      if c.blk.levels.isEmpty || roleOf s c == .shadow then none
      else some (fun t => blockHas t c.g.blk (fun b => b.failing ==
          some ⟨c.blk.levels.length, false, 0, BitVec.ofNat 64 (srcScalar (entered i s c) c 0 a), c.pc, s.clk, c.g.index⟩)
        && groupHas t c (·.stopped))
    | _ => none)

/-! ### Tasks (R335 to R360) -/

/-- A SPAWN's timestamp in a lane (R355). -/
def spawnStamp (u : State) (c : Ctx) (a : Src) (l : Nat) : Nat :=
  match a with
  | .v _ => srcLane u c 2 0 a l
  | .sp r => (readSpecial u c r l).toNat
  | _ => srcScalar u c 0 a

/-- SPAWN (R355, R336, R327): every lane's record is on its way to a Truss unit, or inside a level deferred. -/
def spawnClaim (i : Instr) (s : State) : Option (State → Bool) :=
  match i, readyCtx i s with
  | .spawn _ a die off, some c =>
    let u := entered i s c
    let target := c.pc + BitVec.ofInt 55 off.toInt
    let named := die.map (·.toNat)
    let todo := lanesOf (c.act &&& ~~~c.g.spawned)
    let to_ := named.getD (dieOfGroup c.gid)
    if roleOf s c != .alone || !c.launch.regroup
        || (c.g.spawned &&& c.act == 0 && (lanesOf c.act).any (fun l => badStamp u c l (spawnStamp u c a l))) then none
    else if !c.blk.levels.isEmpty then
      if (deferAction u c.g.blk (.spawn c.gid target named (spawnLanes c c.act (spawnStamp u c a)))).isSome then
        some (fun t => blockHas t c.g.blk (fun b => b.top.any (fun l =>
          l.actions.contains (.spawn c.gid target named (spawnLanes c c.act (spawnStamp u c a))))) && wentOn i c t)
      else none
    else if ((lanesOf c.act).any (fun l => (taskOfLane u c.g l).isNone) && !released u c.gid (splitLanes c.sp) 6)
        || decide (16 < todo.length + (unacked u (coreOfGroup c.gid) (.truss to_)).length) then none
    else
      some (fun t => todo.all (fun l => t.tasks.any (fun p =>
          p.2.ts == BitVec.ofNat 64 (spawnStamp u c a l) && p.2.pc == target && p.2.parent == c.g.tasks.getD l 0 && p.2.launch == c.blk.launch
            && p.2.v == (List.range 16).map (fun r => c.g.vreg r l) && p.2.state == .transit && p.2.placed == named && p.2.die == to_
            && t.queue.any (fun e => e.payload == .task p.1 && e.dest == .truss to_ && e.state == .sent)))
        && groupHas t c (fun g => (g.spawned &&& c.act) == 0) && wentOn i c t)
  | _, _ => none

/-- TEND and TABORT (R356, R357): a running task is finished, after TABORT with nothing buffered unless it has been discarded
with its parent; a thread that ends has exited, and its block serves tasks. One that would end the group while commands of it are left
waits (R229), and a primary presents its own first (R359). -/
def endTaskClaim (i : Instr) (s : State) : Option (State → Bool) :=
  (readyCtx i s).bind (fun c =>
    let taskOf (l : Nat) : Option (Nat × Task) := (c.g.tasks.get? l).bind (fun t => (s.tasks.get? t).map (fun k => (t, k)))
    let threads := (lanesOf c.act).filter (fun l => (c.g.tasks.get? l).isNone)
    let last := endsGroup c.g c.sp c.act && commandsLeft s c.gid
    let done (p : Park) (e : State → Bool) : Option (State → Bool) :=
      match roleOf s c with
      | .alone => if last then some (fun t => !onePart c || (splitIn t c.gid c.si).map (fun q => (q.park, q.pc)) == some (some p, c.pc)) else some e
      | .primary => some (fun t => presentedIn t c 4 && wentOn i c t)
      | .shadow => none
    if !c.blk.levels.isEmpty then none
    else
      match i with
      | .tend _ =>
        if !threads.isEmpty && !c.launch.regroup then none
        else done .tend (fun t =>
          threads.all (fun l => blockHas t c.g.blk (fun b => b.serving && b.exited.contains (threadNumber c.g l)))
            && (!threads.isEmpty || (lanesOf c.act).all (fun l => (taskOf l).elim true (fun x =>
              x.2.state != .running || (t.tasks.get? x.1).any (fun k => k.state == .finished)))))
      | .tabort _ =>
        if !threads.isEmpty then none
        else done .tabort (fun t => (lanesOf c.act).all (fun l => (taskOf l).elim true (fun x =>
          x.2.state != .running || (t.tasks.get? x.1).elim true (fun k => k.state == .finished && k.buf.isEmpty))))
      | _ => none)

/-! ### Engine instructions at issue (R224 to R261) -/

/-- A command of the instruction stands in its queue, with the intervals that it records (R224, R227). -/
def queuedCmd (t : State) (c : Ctx) (matrix : Bool) (gs : GSlot) (kind : CmdKind) (is : List Interval) (more : Nat → Bool) : Bool :=
  t.cmds.any (fun x => x.2.core == coreOfGroup c.gid && x.2.gid == c.gid && x.2.blk == c.g.blk && x.2.lanes == c.act && x.2.seq == c.g.issued
    && x.2.gs == gs && x.2.kind == kind && x.2.state == .queued && !x.2.discarded && x.2.depth == c.blk.levels.length && x.2.failed.isNone
    && (queueOf t (coreOfGroup c.gid) matrix).contains x.1 && is.all (fun r => t.ranges.contains (Interval.range x.1 c.g.blk r)) && more x.1)

/-- The queue and the scoreboard have room (R224, R227). -/
def roomIn (u : State) (c : Ctx) (matrix : Bool) (n : Nat) : Bool :=
  decide ((queueOf u (coreOfGroup c.gid) matrix).length < 32) && decide (scoreEntries u (coreOfGroup c.gid) + n ≤ 128)

/-- CPY, CPYG and CPYW (R232 to R234, R227, R327): the copy is queued and its destination range recorded; inside a level its
completion word is a deferred action. -/
def copyClaim (i : Instr) (s : State) : Option (State → Bool) :=
  (readyCtx i s).bind (fun c =>
    let u := entered i s c
    let form : Option (CopyKind × CopyOps) := match i with
      | .cpy _ o => some (.plain, o)
      | .cpyg _ o => some (.gather, o)
      | .cpyw _ o => some (.window, o)
      | _ => none
    form.bind (fun (k, o) =>
      let j := copyArgs c k o
      let late := j.word.isSome && !c.blk.levels.isEmpty
      if roleOf s c == .alone && !anySpec u c.g c.act && (copyChecks u c o j).isNone && roomIn u c false 1
          && (!late || (shoreRoom u c.g.blk 16).isSome) then
        some (fun t => queuedCmd t c false o.gs j.kind [copyInterval j] (fun id =>
            groupHas t c (·.copies.contains id)
              && (!late || blockHas t c.g.blk (fun b => b.top.any (fun l => l.actions.contains (.word id)))))
          && wentOn i c t)
      else none))

/-- CDONE (R240, R327): it is queued behind the copies since the last one; inside a level it enters its queue at the accept. -/
def cdoneClaim (i : Instr) (s : State) : Option (State → Bool) :=
  match i, readyCtx i s with
  | .cdone _ gs scope a b, some c =>
    let u := entered i s c
    let word := (c.g.sreg a.toNat).toNat
    let kind : CmdKind := .cdone word (baseLane c 2 b (lowestLane c.act)) scope.toNat c.g.copies
    if roleOf s c == .alone && !anySpec u c.g c.act && (wordCheck word).isNone
        && (if c.blk.levels.isEmpty then roomIn u c false 0 else (shoreRoom u c.g.blk 16).isSome) then
      some (fun t =>
        (if c.blk.levels.isEmpty then queuedCmd t c false gs kind [] (fun _ => true)
         else t.cmds.any (fun x => x.2.kind == kind && x.2.gid == c.gid
           && blockHas t c.g.blk (fun b => b.top.any (fun l => l.actions.contains (.cdone x.1)))))
        && groupHas t c (·.copies.isEmpty) && wentOn i c t)
    else none
  | _, _ => none

/-- A matrix command: its guard slot, kind, bays, intervals, and whether its own checks pass (R241, R243 to R249, R252, R253,
R255). -/
def matrixForm (i : Instr) (u : State) (c : Ctx) : Option (GSlot × CmdKind × List Nat × List Interval × Bool) :=
  let core := coreOfGroup c.gid
  let sr (r : BitVec 6) : Nat := (c.g.sreg r.toNat).toNat
  match i with
  | .mxlw _ o =>
    let a := sr o.a
    let hi : Int := (a : Int) + planeBytes o.fmt o.scale - 1
    some (o.gs, .mxlw o.fmt o.scale (c.g.xv.getD o.xv.toNat 0x8000) o.tr o.bay.toNat a, [o.bay.toNat], [(true, true, false, (a : Int), hi)],
      a % 32 == 0 && (outOfScratch c.blk (a, hi)).isNone)
  | .mxswap _ gs mask => some (gs, .mxswap mask, baysOf mask, [], true)
  | .mxzero _ gs mask rb m1 => some (gs, .mxzero mask rb.toNat (m1.toNat + 1), baysOf mask, [], true)
  | .mxloop _ o =>
    let a := sr o.a
    let b := sr o.b
    let n := (pwordVal c o.p.p0).1
    let p1 := pwordInt c o.p.p1
    let p2 := pwordInt c o.p.p2
    let p3 := pwordInt c o.p.p3
    let m := o.m1.toNat + 1
    let bays := baysOf o.mask
    let pitch (k : Nat) (x : Int) : Bool := decide (-(2 ^ 31) ≤ x ∧ x < 2 ^ 31) && x % k == 0
    match loopFormats u core o.fmt bays with
    | .error _ => none
    | .ok (p, wlens) =>
      let alen := actBytes p o.scale m
      let spans := stepSpan a p1 0 (n - 1) alen :: wlens.mapIdx (fun i w => stepSpan (b + i * p3) p2 0 (n - 1) w)
      some (o.gs, .mxloop o.fmt o.scale (c.g.xv.getD o.xv.toNat 0x8000) o.mask o.rb.toNat m a b n p1 p2 p3 alen wlens, bays,
        loopClaims a b p1 p2 p3 0 (n - 1) alen wlens,
        a % 16 == 0 && b % 32 == 0
          && (badWord c [(o.p.p0, (fun x => decide (1 ≤ x ∧ x ≤ 2 ^ 20)), false), (o.p.p1, pitch 16, true), (o.p.p2, pitch 32, true),
                (o.p.p3, pitch 32, true)]).isNone
          && spans.all (fun x => (outOfScratch c.blk x).isNone))
  | .mxdrain _ o =>
    let m := o.m1.toNat + 1
    let b := baseLane c 2 o.b 0
    let int := (u.bay core o.bay.toNat).recInt
    let ok := (o.epi != .scale || (b % 4 == 0 && (outOfScratch c.blk (b, (b : Int) + 1023)).isNone))
      && ((o.epi != .scale && o.epi != .silu) || !int)
    match o.dst with
    | .s r =>
      let a := sr r
      let hi : Int := (a : Int) + m * rowBytes o - 1
      some (o.gs, .mxdrain o a b int, [o.bay.toNat], [(false, true, false, (a : Int), hi)],
        ok && a % 16 == 0 && (outOfScratch c.blk (a, hi)).isNone)
    | .v r => some (o.gs, .mxdrain o r.toNat b int, [o.bay.toNat], [], ok && decide (r.toNat + rowRegs o * m ≤ c.g.nregs))
  | _ => none

/-- MXLW, MXSWAP, MXLOOP, MXDRAIN and MXZERO (R241 to R255): the command is queued, its claims or range recorded, its bays are the
block's, and what later checks need to know of their planes is noted. -/
def matrixClaim (i : Instr) (s : State) : Option (State → Bool) :=
  (readyCtx i s).bind (fun c =>
    let u := entered i s c
    let core := coreOfGroup c.gid
    (matrixForm i u c).bind (fun (gs, kind, bays, is, ok) =>
      if roleOf s c == .alone && !anySpec u c.g c.act && !foreignBay u core c.g.blk bays && ok && roomIn u c true is.length then
        some (fun t =>
          let before (b : Nat) : Bay := if (u.bay core b).owner.isSome then u.bay core b else Bay.free
          queuedCmd t c true gs kind is (fun _ => true)
            && bays.all (fun b => (t.bay core b).owner == some c.g.blk
              && (match i with
                  | .mxlw _ o => (t.bay core b).recShadow == some (o.fmt, o.scale)
                  | .mxswap .. => (t.bay core b).recActive == (before b).recShadow && (t.bay core b).recShadow == (before b).recActive
                  | _ => true))
            && (match i with
                | .mxdrain _ o =>
                  (match o.dst with
                   | .s _ => true
                   | .v r => t.toks.any (fun k => k.2.gid == c.gid && k.2.n == c.g.issued && groupHas t c (fun g =>
                       g.pend.contains ⟨k.1, refsV r (rowRegs o * (o.m1.toNat + 1)), BitVec.allOnes 32, []⟩)))
                | _ => true)
            && wentOn i c t)
      else none))

/-- GRES, GRES.free, SBWAIT and SBWAIT.all (R238, R239): a slot takes its new state with the clk that ends now, and not before. -/
def slotClaim (i : Instr) (s : State) : Option (State → Bool) :=
  (readyCtx i s).bind (fun c =>
    let u := entered i s c
    let slot (n : BitVec 3) (x : GuardState) : Option (State → Bool) :=
      some (fun t => groupHas t c (fun g => g.gs == c.g.gs && g.settleGuards.gs.getD n.toNat .free == x) && wentOn i c t)
    let wait (x : Option (Bool × Nat × Nat)) : Option (State → Bool) :=
      some (fun t => if sbBusy s c.g.blk x then parkedAt t c (.sbwait x) else wentOn i c t)
    if roleOf s c != .alone then none
    else
      match i with
      | .gres _ n x imm => slot n (if srcScalar u c (imm.signExtend 64).toNat x = 0 then .false else .true)
      | .gresFree _ n => slot n .free
      | .sbwait _ scr a b len => wait (some (scr, baseLane c 2 a (lowestLane c.act), srcScalar u c len.toNat b))
      | .sbwaitAll _ => wait none
      | _ => none)

/-! ### Experts and collectives (R256, R271 to R278) -/

/-- An expert request: its kind, operands, order, whether NESTING is raised inside a level, whether a speculative lane may use
it (R271 to R278). -/
def expertForm (i : Instr) : Option (AKind × ExpOps × Ord × Bool × Bool) :=
  match i with
  | .xfetch _ pin o => some (.xfetch pin, o, .acquire, false, false)
  | .xpin _ o => some (.xpin, o, .acquire, true, false)
  | .xunpin _ o => some (.xunpin, o, .release, true, false)
  | .xstat _ sel o => some (.xstat sel.toNat, o, .relaxed, false, true)
  | _ => none

/-- XFETCH, XPIN, XUNPIN and XSTAT (R271 to R276): one request for the entry of the expert, whose result word and mask return. -/
def expertClaim (i : Instr) (s : State) : Option (State → Bool) :=
  (readyCtx i s).bind (fun c => (expertForm i).bind (fun (kind, o, ord, nests, spec) =>
    let u := entered i s c
    let va := (c.g.sreg o.a.toNat).toNat
    let e := srcScalar u c o.imm.toNat o.b % 2 ^ 20
    let dst := lockDst o.d
    let refs := refsDst 1 o.d ++ (if o.m = 7 then [] else [.cm o.m.toNat])
    match headerCheck u c va with
    | (.inr header, v) =>
      let k : Tok := { gid := c.gid, split := c.si, n := c.g.issued, lanes := c.act, dst := dst, size := 8, sext := false,
                       mask := some o.m.toNat, pc := c.pc, vals := [], oks := [] }
      match headerCheck (newTok u k refs).2 c va with
      | (.inr again, _) =>
        if roleOf s c == .alone && (!nests || c.blk.levels.isEmpty) && (spec || !anySpec u c.g c.act)
            && (expertBound v c header [(32, e)]).isNone && u.toks.all (fun p => !(p.2.gid == c.gid && p.2.n == c.g.issued)) then
          some (fun t => t.accs.any (fun a => a.kind == kind && a.gid == some c.gid && a.lanes == c.act && a.pa == again + 64 * (e + 1)
              && a.size == 64 && a.data2 == again && a.ord == ord && a.scope == 6 && a.stage == .buffered
              && returnsTo t c ⟨32, c.act, va, header, false, none⟩ dst (some o.m.toNat) 8 false refs a) && wentOn i c t)
        else none
      | _ => none
    | _ => none))

/-- XCNT (R277, R278, R327): one increment for a scalar side (log 80's reading), one for each lane otherwise; deferred inside a level. -/
def xcntClaim (i : Instr) (s : State) : Option (State → Bool) :=
  match i, readyCtx i s with
  | .xcnt _ a b x immB immC, some c =>
    let u := entered i s c
    let va := (c.g.sreg a.toNat).toNat
    let vec := srcIsVec b || srcIsVec x
    let val (o : Src) (imm l : Nat) : Nat := if vec then srcLane u c 1 imm o l else srcScalar u c imm o
    let us := (if vec then lanesOf c.act else [32]).map (fun l => (l, val b immB.toNat l % 2 ^ 20, val x immC.toNat l % 2 ^ 32))
    match headerCheck u c va with
    | (.inr header, v) =>
      let deep := !c.blk.levels.isEmpty
      if roleOf s c == .alone && !anySpec u c.g c.act && (expertBound v c header (us.map (fun y => (y.1, y.2.1)))).isNone
          && (!deep || (shoreRoom u c.g.blk 16).isSome) then
        some (fun t =>
          (if deep then blockHas t c.g.blk (fun b => b.top.any (fun l => l.actions.contains
              (.xcnt c.gid header (us.map (fun y => (y.1, va + 64 * (y.2.1 + 1), header + 64 * (y.2.1 + 1), y.2.2))))))
           else us.all (fun y => t.accs.any (fun a => a.kind == .xcnt && a.gid == some c.gid
              && a.lanes == (if y.1 = 32 then c.act else laneBit y.1) && a.pa == header + 64 * (y.2.1 + 1) && a.data == y.2.2
              && a.data2 == header && a.scope == 6 && a.stage == .buffered)))
          && wentOn i c t)
      else none
    | _ => none
  | _, _ => none

/-- COLL (R256, R52, R227): a collective with the operands of the instruction is on its way to the engine of the die, and the range that
it may write is recorded: 16 blocks, or one for a sum. That size, and MISALIGNED for a misaligned record, are log 62's choice. -/
def collClaim (i : Instr) (s : State) : Option (State → Bool) :=
  match i, readyCtx i s with
  | .coll _ o, some c =>
    let u := entered i s c
    let sr (r : BitVec 6) : Nat := (c.g.sreg r.toNat).toNat
    let e := collSize o.typ.toNat
    let core := coreOfGroup c.gid
    let w (p : PWord) : Nat := (pwordVal c p).1
    if roleOf s c == .alone && c.blk.levels.isEmpty && !anySpec u c.g c.act && sr o.b % e == 0 && sr o.d % e == 0 && (wordCheck (w o.p.p1)).isNone
        && (badWord c [(o.p.p0, (fun x => decide (1 ≤ x ∧ x ≤ 2 ^ 24)), false), (o.p.p3, (fun x => decide (1 ≤ x ∧ x ≤ 65535)), false)]).isNone
        && mayYetSend u core (.coll (dieOfCore core)) 1 && decide (scoreEntries u core + 1 ≤ 128) then
      some (fun t => t.colls.any (fun x => x.2.gid == c.gid && x.2.core == core && x.2.pasid == c.launch.pasid && x.2.typ == o.typ.toNat
          && x.2.op == o.op.toNat && x.2.scope == o.scope.toNat && x.2.retries == o.retries.toNat && x.2.d == sr o.d && x.2.a == sr o.a
          && x.2.b == sr o.b && x.2.count == w o.p.p0 && x.2.word == w o.p.p1 && x.2.seq == w o.p.p2 && x.2.timeout == 1400 * w o.p.p3
          && x.2.gs == o.gs && x.2.lanes == c.act && !x.2.accepted
          && t.ranges.contains (Interval.range x.1 c.g.blk (false, false, false, ((sr o.d : Nat) : Int),
            ((sr o.d + (if o.op = 1 then 1 else 16) * w o.p.p0 * e : Nat) : Int) - 1))
          && t.queue.any (fun q => q.payload == .coll x.1 && q.dest == .coll (dieOfCore core) && q.state == .sent)) && wentOn i c t)
    else none
  | _, _ => none

/-! ### Execution events (R34 to R64) -/

/-- What a result of a load or a class 5 access is in a lane, as its destination registers hold it (R175, R185). -/
def tokValue (k : Tok) (l : Nat) : Nat :=
  let x := k.vals.getD l (k.vals.getD 32 0) % 256 ^ k.size
  if k.sext then ((toSigned x (8 * k.size)) % (2 ^ (64 + 8 * k.size) : Int)).toNat else x

/-- Where a result overwrites too early, the registers and lanes in which the earlier result may be the one that stays (R65). -/
def keptBy (s : State) (gid tok : Nat) : List (RegRef × Nat) :=
  (((s.groups.get? gid).bind (fun g => g.pend.find? (fun p => p.tok == tok))).map (·.kept)).getD []

/-- The split that R43 forces first: in its group the lowest index that has stayed ready for 256 clk. -/
def starvedSplit (s : State) (g : Group) : Option Nat :=
  [0, 1, 2, 3].find? (fun i => ((g.splits.get? i).bind (·.readySince)).any (fun c => decide (c + 256 ≤ s.clk)))

/-- The order of R43: the older group, ties to the lower slot. -/
def elder (a b : Nat × Group) : Bool := decide (a.2.age < b.2.age ∨ (a.2.age = b.2.age ∧ slotOf a.1 ≤ slotOf b.1))

/-- LOAD_COMPLETION, SPLIT_STARVATION_GUARD, FORMER_FLUSH, FORMED_GROUP_PLACE and GROUP_END (R64, R43, R46, R47, R38). -/
def groupEventClaim (i : Instr) (s : State) : Option (State → Bool) :=
  match i with
  | .loadCompletion tok => (s.toks.get? tok).bind (fun k =>
    let kept := keptBy s k.gid tok
    let n := max 1 (k.size / 4)
    if tokReady k && (s.groups.get? k.gid).isSome then some (fun t =>
      (t.toks.get? tok).isNone && t.accs.all (fun a => !(a.tok == some tok && a.stage == .satisfied))
        && (t.groups.get? k.gid).any (fun g => g.pend.all (fun p => p.tok != tok))
        && (if (shoreResult s k).2.isSome then blockHas t ((s.groups.get? k.gid).elim 0 (·.blk)) (·.failing.isSome) else true)
        && ((shoreResult s k).2.isSome || (match k.dst with
            | some (.v r) => (lanesOf k.lanes).all (fun l => (List.range n).any (fun i => kept.contains (.v (r + i), l))
                || vregsIn t k.gid r l n == some (tokValue k l % 2 ^ (32 * n)))
            | some (.s r) => kept.contains (.s r, 0) || sregIn t k.gid r == some (BitVec.ofNat 64 (tokValue k (if (k.vals.get? 32).isSome then 32 else lowestLane k.lanes)))
            | _ => true))
        && ((shoreResult s k).2.isSome || (match k.mask with
            | some m => m == 7 || (lanesOf k.lanes).all (fun l => kept.contains (.cm m, l) ||
                (maskIn t k.gid m).map (·.getLsbD l) == some (k.oks.getD l (k.oks.getD 32 false)))
            | none => true)))
    else none)
  | .splitStarvationGuard core sched =>
    let cand := s.groups.filter (fun p => coreOfGroup p.1 == core && schedOf p.1 == sched && (starvedSplit s p.2).isSome)
    if decide (core < 256) && decide (sched < 4) && !cand.isEmpty then some (fun t =>
      ((t.core core).forced.get? sched).any (fun f => cand.any (fun p =>
        p.1 == f.1 && starvedSplit s p.2 == some f.2 && cand.all (elder p))))
    else none
  | .formerFlush blk => (s.blocks.get? blk).bind (fun b =>
    if b.sealed || b.terminated.isSome || !b.formed.isEmpty || (groupsOf s blk).any (fun p => !p.2.splits.isEmpty) then none
    else some (fun t => blockHas t blk (fun n => n.conts.isEmpty && b.conts.all (fun k =>
      n.formed.contains (s.clk, b.conts.filter (fun x => x.pc == k.pc && x.key == k.key))))))
  | .formedGroupPlace blk => (s.blocks.get? blk).bind (fun b =>
    match b.formed, s.launchOf b with
    | (clk, cs) :: rest, some l =>
      if b.sealed || b.stop.isSome || b.terminated.isSome || b.failing.isSome || decide (32 < cs.length) then none
      else (freeSlot s b l.checked).map (fun gid t =>
        blockHas t blk (fun n => n.formed == rest)
          && (t.groups.get? gid).any (fun g => g.blk == blk && g.nregs == l.regs && g.age == clk
            && (g.splits.get? 0).any (fun p => some p.pc == (cs.head?).map (·.pc) && p.em == ofLanes (List.range cs.length))
            && (cs.mapIdx (fun i k => g.origin.get? i == some (k.lane, k.group) && threadNumber g i == k.thread
                && (k.v.mapIdx (fun r w => decide (l.regs ≤ r) || g.vreg r i == w)).and)).and))
    | _, _ => none)
  | .groupEnd gid split => (s.groups.get? gid).bind (fun g =>
    if commandsLeft s gid || g.stopped || !g.fails.isEmpty || (g.handler && g.held.any (fun u => (g.splits.get? split).any (fun p => p.uid == u))) || checkedGroup s gid || !((s.blocks.get? g.blk).any (·.gather.isNone)) then none
    else if g.splits.isEmpty then (if regsTargeted s gid then none else some (fun t => (t.groups.get? gid).isNone))
    else (g.splits.get? split).bind (fun sp =>
      let tasksRun := (lanesOf sp.members).all (fun l => ((g.tasks.get? l).bind s.tasks.get?).any (fun k => k.state == .running))
      if !sp.parts.isEmpty || !sp.stack.isEmpty || (sp.em &&& ~~~sp.members) != 0 then none
      else if sp.park == some .exit && (lanesOf sp.members).all (fun l => (g.tasks.get? l).isNone) then some (fun t => (splitIn t gid split).isNone
        && (lanesOf sp.members).all (fun l => blockHas t g.blk (fun b => b.exited.contains (threadNumber g l))))
      else if sp.park == some .tend && tasksRun then
        some (fun t => (splitIn t gid split).isNone
          && (lanesOf sp.members).all (fun l => ((g.tasks.get? l).bind t.tasks.get?).any (fun k => k.state == .finished)))
      else if sp.park == some .tabort && tasksRun then
        some (fun t => (splitIn t gid split).isNone
          && (lanesOf sp.members).all (fun l => ((g.tasks.get? l).bind t.tasks.get?).elim true (fun k => k.state == .finished && k.buf.isEmpty)))
      else none))
  | _ => none

/-- The block of a rank stands on its core, not started, each of its groups at the launch's entry PC (R31, R34). -/
def blockPlaced (t : State) (lid : Nat) (l : Launch) (cluster stage rank core slot : Nat) : Bool :=
  t.blocks.any (fun x => x.2.launch == lid && x.2.cluster == cluster && x.2.stage == stage && x.2.rank == rank && x.2.core == core
    && x.2.firstSlot == slot && x.2.index == cluster * l.clusterSize + rank && !x.2.started
    && (List.range l.groups).all (fun g => (t.groups.get? (groupId core (slot + g))).any (fun k => k.blk == x.1 && k.index == g
      && k.nregs == l.regs && k.sreg 0 == l.arg && (k.splits.get? 0).any (fun p => p.pc == l.pc))))

/-- Every cluster and stage of what a gang holds stands where it was reserved (R34, R50). -/
def gangPlaced (t : State) (lid : Nat) (l : Launch) (total : List (List Nat × Nat × List Nat)) : Bool :=
  (total.mapIdx (fun i p => (p.1.mapIdx (fun r core => t.blocks.any (fun x => x.2.launch == lid && x.2.cluster == i / l.stages
    && x.2.stage == i % l.stages && x.2.rank == r && x.2.core == core && x.2.firstSlot == p.2.1
    && x.2.scratchBase == ((p.1.zip p.2.2).getD r (0, 0)).2))).and)).and

/-- BLOCK_END, DISPATCH_DECISION, LAUNCH_PROMOTION and CLUSTER_START_RELEASE (R38, R49, R50, R34, R212). The decisions are those that
serve the head of the highest class; which other gangs one may serve is log 133's choice. -/
def blockEventClaim (i : Instr) (s : State) : Option (State → Bool) :=
  match i with
  | .blockEnd blk => (s.blocks.get? blk).bind (fun b =>
    if blockMayEnd s blk b && (s.convs.filter (fun c => c.members.contains blk)).all (fun c => convReady s blk c.word) then some (fun t => (t.blocks.get? blk).isNone && t.cmds.all (fun p => p.2.blk != blk) && t.ranges.all (fun r => r.blk != blk)
      && (b.terminated.isSome || !(s.convs.all (fun c => !c.members.contains blk))
          || (t.launches.get? b.launch).map (·.blocksEnded) == (s.launches.get? b.launch).map (fun l => l.blocksEnded + 1)))
    else none)
  | .dispatchDecision ps => (topClass s).bind (fun c => ((s.classes.getD c []).head?).bind (fun lid => (s.launches.get? lid).bind (fun l =>
    let n := l.nextCluster * l.stages + l.nextStage
    let moved (next : Nat) (t : State) : Bool := (t.launches.get? lid).any (fun x => x.nextCluster == next / l.stages && x.nextStage == next % l.stages && x.waited == 0)
    let held := (((s.reserves.find? (fun r => r.launch == lid)).map (·.held)).getD []).takeWhile (fun h => h.1.all (bentOpen s))
    let all := l.clusters * l.stages
    let low := s.reserves.filter (fun r => r.launch != lid && decide (r.gangId < l.gangId))
    if !l.gang then
      match ps with
      | [(cores, slot)] =>
        if clusterFits s low l (n / l.stages) (priorBent s lid (n / l.stages) (n % l.stages)) cores slot then
          some (fun t => (cores.mapIdx (fun i core => blockPlaced t lid l (n / l.stages) (n % l.stages) i core slot)).and && moved (n + 1) t)
        else none
      | _ => none
    else if ps.isEmpty then none
    else (reserveAll s lid l low held ps).bind (fun total =>
      let own : Reserve := ⟨lid, l.gangId, total⟩
      if held.length + ps.length < all then
        some (fun t => t.reserves.contains own && t.blocks == s.blocks
          && t.reserves.all (fun r => r.launch == lid || decide (r.gangId < l.gangId) || !holdsNeeded s own r))
      else if held.length + ps.length == all && (placeAll (releaseHigher s own) lid l 0 total).isSome then
        some (fun t => gangPlaced t lid l total && t.reserves.all (fun r => r.launch != lid) && moved all t)
      else none))))
  | .launchPromotion lid =>
    match s.launches.get? lid, [1, 2, 3].find? (fun c => (s.classes.getD c []).contains lid) with
    | some l, some c =>
      if 65536 ≤ l.waited then some (fun t => (t.classes.getD (c - 1) []).getLast? == some lid && !(t.classes.getD c []).contains lid
        && (t.launches.get? lid).map (·.waited) == some 0)
      else none
    | _, _ => none
  | .clusterStartRelease blk => (s.blocks.get? blk).bind (fun b => (s.launchOf b).bind (fun l =>
    if b.started || decide ((clusterOf s b).length < l.clusterSize) then none
    else some (fun t => (clusterOf s b).all (fun p => blockHas t p.1 (·.started)
      && (groupsOf s p.1).all (fun g => (lanesOf (groupLanes g.2)).all (fun n => l.obs.all (t.obs.getD (threadId g.1 n) []).contains)))))
    )
  | _ => none

/-- The next record of a configured queue, with the identifier that a die's distributor gives it (R386, R337), where nothing holds back the
distributor's reads of the ring and of the placement map, and its writes to the ring (R161, R321, R384). -/
def nextRecord (s : State) (d q : Nat) : Option (List Byte × Dword) :=
  let k := s.lqueue q
  if !(s.die d).awake || !k.configured || (!k.accepts && !k.posted.isEmpty) || readNat s k.prod 4 == k.read % 2 ^ 32
      || !agentReads s d k.prod 4 || (takeRecord s d q k).1.isNone then none
  else (nextIdent s d).map (fun x => (readBytes s (k.ring + 64 * (k.read % 2 ^ k.log2)) 64, x.1))

/-- A launch whose word has been written is gone, but for one that has halted or whose RESUME has been refused (R387, log 108's choice). -/
def reportedOn (t : State) (lid : Nat) (l : Launch) : Bool :=
  if l.halted then (t.launches.get? lid).any (fun x => !x.halted)
  else if l.refused then (t.launches.get? lid).any (fun x => !x.refused)
  else (t.launches.get? lid).isNone

/-- LAUNCH_QUEUE_READ and LAUNCH_COMPLETION (R385 to R387): the launch is accepted at the tail of its class, or rejected with its
code; the completion word is on its way with its value. -/
def launchEventClaim (i : Instr) (s : State) : Option (State → Bool) :=
  match i with
  | .launchQueueRead ⟨d, q⟩ => (nextRecord s d q).bind (fun (r, ident) =>
    let k := s.lqueue q
    let l := launchOfRecord r
    let code : Option (BitVec 8) :=
      if (s.spaces.get? l.pasid).isNone || !(s.lqueue l.queue).configured then some 0x53
      else if !l.within then some 0x50
      else none
    if (List.range 4).any (fun i => isWindow (k.cons + i)) then none
    else some (fun t =>
      (t.lqueue q).read == k.read + 1 && readNat t k.cons 4 == (k.read + 1) % 2 ^ 32
        && t.launches.any (fun x => x.2.ident == ident && x.2.entryIdx == k.read && x.2.pc == l.pc && x.2.arg == l.arg && x.2.cword == l.cword
          && x.2.seq == l.seq && x.2.pasid == l.pasid && x.2.queue == l.queue
          && (match code with
              | some c => x.2.fail == some c && x.2.clusters == 0
              | none =>
                if ofLe ((r.drop 40).take 8) = 0 then x.2.fail.isNone && x.2.clusters == l.clusters && x.2.place.isNone
                  && (t.classes.getD l.cls []).getLast? == some x.1
                else x.2.fail == some 0x50 || ((t.classes.getD l.cls []).getLast? == some x.1 && x.2.place.isSome)))))
  | .launchCompletion lid => (s.launches.get? lid).bind (fun l =>
    if l.tag.isSome || !launchDue s lid l then none
    else if l.cword = 0 then
      some (fun t => t.reports.getLast?.map (fun r => (r.ident, r.poisoned)) == some (l.ident, l.poisoned)
        && reportedOn t lid l)
    else if l.lost || l.cword.toNat % 8 != 0 then none
    else
      match translate (if l.halted || l.refused then s else s.setLaunch lid (fun l => { l with replicas := [] })) l.die l.pasid Need.both l.cword.toNat with
      | (.ok pa _, _) =>
        some (fun t => reportedOn t lid l
          && t.reports.getLast?.map (fun r => (r.ident, r.poisoned)) == some (l.ident, l.poisoned)
          && t.accs.any (fun a => a.kind == .store && a.pa == pa && a.size == 8 && a.ord == .release && a.gid.isNone
            && a.data == (if l.halted then wordFail 0x51 l.seq.toNat
                else if l.refused then wordFail 0x52 l.seq.toNat
                else match l.fail, l.poisoned with
                  | some c, _ => wordFail c.toNat l.seq.toNat
                  | none, some _ => wordFail 0x12 l.seq.toNat
                  | none, none => wordOk l.seq.toNat)))
      | _ => none)
  | _ => none

/-- QUEUE_ENTRY_ACK and QUEUE_NACK_RESEND (R52): an acknowledged entry is kept no more; one that finds the peer fabric's queue full is
answered negatively; BACKOFF clk after a negative answer the entry and every later one that is not accepted go again. -/
def linkClaim (i : Instr) (s : State) : Option (State → Bool) :=
  match i with
  | .queueEntryAck ⟨n, full⟩ => (s.entry? n).bind (fun e =>
    let peer := match e.payload with | .peer _ => true | _ => false
    if if peer then entryDue s e && !full else e.state == .accepted then
      some (fun t => (t.entry? n).isNone && s.queue.all (fun f => f.id == n || t.queue.contains f))
    else if peer && entryDue s e then
      some (fun t => (t.entry? n).any (fun f => f.state == .nacked s.clk) && s.queue.all (fun f => f.id == n || t.queue.contains f))
    else none)
  | .queueNackResend n => (s.entry? n).bind (fun e =>
    match e.state with
    | .nacked c =>
      if decide (c + ((s.groups.get? e.gid).map (fun g => g.backoff.toNat)).getD 64 ≤ s.clk) then
        some (fun t => s.queue.all (fun f => t.queue.contains
          (if f.core == e.core && f.dest == e.dest && decide (e.seq ≤ f.seq) && f.state != .accepted then { f with state := .sent } else f)))
      else none
    | _ => none)
  | _ => none

/-! ### The steps of the abstract machine (R199 to R204), leases and probes (R160 to R165), line errors (R159) -/

/-- Every byte of memory outside a range is what it was. -/
def memKept (s t : State) (lo n : Nat) : Bool :=
  (s.mem.map (·.1) ++ t.mem.map (·.1)).all (fun a => decide (lo ≤ a ∧ a < lo + n) || t.byte a == s.byte a)

/-- Bytes of memory, none of them a register seen through a window. -/
def plain (pa n : Nat) : Bool := (List.range n).all (fun i => !(isWindow (pa + i) && (windowOf (pa + i)).space == 1))

/-- Plain bytes hold a value, and no other byte has changed. -/
def wrote (s t : State) (pa n x : Nat) : Bool := readBytes t pa n == leBytes n x && memKept s t pa n

/-- An access stands last in the machine's list, its place in coherence order or in its queue (R197). -/
def standsLast (t : State) (a : Acc) (st : Stage) : Bool := t.accs.getLast? == some { a with stage := st }

/-- Every other die that may hold a line has been sent a probe (R163). -/
def probed (s t : State) (pa n : Nat) : Bool :=
  (linesOf pa n).all (fun l => (s.line l).dir.all (fun p => p.2 == .i || (t.line l).probes.contains p.1))

/-- What R184, R187 and R188 leave in the word of a request; none where nothing is written. -/
def requestLeaves (a : Acc) (old : Nat) : Option Nat :=
  let w := 8 * a.size
  let x := BitVec.ofNat w old
  let y := BitVec.ofNat w a.data
  let held := old.testBit 62
  let waiting := old / 2 ^ 48 % 2 ^ 14
  let readers := old % 2 ^ 48
  let again := a.data.testBit 0
  match a.kind with
  | .atom op _ => some (match op with
    | .add => (x + y).toNat
    | .min => if y.slt x then y.toNat else x.toNat
    | .max => if x.slt y then y.toNat else x.toNat
    | .minu => if y.ult x then y.toNat else x.toNat
    | .maxu => if x.ult y then y.toNat else x.toNat
    | .and => (x &&& y).toNat
    | .or => (x ||| y).toNat
    | .xor => (x ^^^ y).toNat
    | .exch => y.toNat
    | _ => combine op w old a.data)
  | .cas => if old = a.data then some a.data2 else none
  | .rdlk => some (if !held && (!old.testBit 63 || waiting == 0) && decide (readers < 2 ^ 48 - 1) then old + 1 else old)
  | .rdul => some (if readers = 0 then old else old - 1)
  | .wrlk => some (
    if !held && readers == 0 then old + 2 ^ 62 - (if again && waiting != 0 then 2 ^ 48 else 0)
    else if !again && decide (waiting < 0x3FFF) then old + 2 ^ 48
    else old)
  | .wrul => some (if held then old - 2 ^ 62 else old)
  | _ => none

/-- A lock word is 8 bytes (R188). -/
def wordSized (a : Acc) : Bool :=
  match a.kind with
  | .rdlk | .rdul | .wrlk | .wrul => a.size == 8
  | _ => true

/-- A request has returned a value to the result that waits for it. -/
def returned (t : State) (a : Acc) (x : Nat) : Bool :=
  a.tok.elim true (fun k => (t.toks.get? k).elim true (fun r => r.vals.get? a.lane == some x))

/-- A class 5 request of a word that is no register and that no task reads has taken effect: the old value returns, the word
holds what the operation leaves, all else in memory is unchanged (R185 to R188). -/
def requestDone (s t : State) (a : Acc) : Bool :=
  let old := readNat s a.pa a.size
  (t.acc? a.id).isNone && returned t a old
    && (match requestLeaves a old with
        | some x => wrote s t a.pa a.size x
        | none => memKept s t 0 0)

/-- No byte lies in a registered directory or in its pool, where a program's write leaves what R265 says. -/
def outsideDirs (s : State) (pa n : Nat) : Bool :=
  s.dies.all (fun d => d.2.dirs.all (fun k => (List.range n).all (fun i => !k.holds s (pa + i))))

/-- The module knows what some bytes hold at their home: none lies in a registered directory or its pool (R265, R270), and none in the
memory of a peer (R388). -/
def knownHome (s : State) (pa n : Nat) : Bool := outsideDirs s pa n && (List.range n).all (fun i => !peerMemory s (pa + i))

/-- A store that leaves the bytes it carries: a manager's own, or one outside every directory. -/
def exactStore (s : State) (a : Acc) : Bool := plain a.pa a.size && (a.data2 != 0 || outsideDirs s a.pa a.size)

/-- A flush has reached its home (R181): `.inv` leaves no copy in the core's L1, `.wb` no dirty data in a proxy or at a bridge, `.wbinv`
no copy anywhere in the module. -/
def flushed (s t : State) (a : Acc) (op : Nat) : Bool :=
  let l := a.pa / 128
  let halves (f : Mesi → Bool) : Bool := [0, 1, 2, 3].all (fun d => [0, 1].all (fun h => f (hostHalf t d l h)))
  (t.acc? a.id).isNone && memKept s t 0 0
    && (if op == 0 then a.core.all (fun c => ((t.core c).l1.get? l).isNone)
        else if op == 2 then
          halves (· == .i) && t.cores.all (fun p => (p.2.l1.get? l).isNone && (p.2.ldc.get? l).isNone)
            && t.launches.all (fun p => p.2.replicas.all (fun r => r.1 != l))
        else halves (· != .m) && (bridged s a.pa || (t.line l).dir.all (fun p => p.2 != .m && p.2 != .o)))

/-- An entry of a queue waits where it stands for a line that another group has locked (R369). -/
def waitsInPlace (s t : State) (a : Acc) : Bool :=
  t.acc? a.id == some { a with stage := .barred } && t.accs.map (·.id) == s.accs.map (·.id) && memKept s t 0 0

/-- What is written at a host line is held nowhere else (R165): the halves written are M at the writer's bridge, and no other die holds one. -/
def ownedBy (t : State) (a : Acc) : Bool :=
  (linesOf a.pa a.size).all (fun l => [0, 1].all (fun h =>
    (!overlaps a.pa a.size (l * 128 + 64 * h) 64 || hostHalf t a.die l h == .m)
      && (otherDies a.die).all (fun d => hostHalf t d l h == .i)))

/-- SATISFY, DRAIN, APPLY and CROSS (R199 to R202, R344, R345, R369). -/
def accessStepClaim (i : Instr) (s : State) : Option (State → Bool) :=
  match i with
  | .satisfy n => (s.acc? n).bind (fun a =>
    if !canSatisfy s a then none
    else if overReads s a then
      a.task.map (fun k t => (t.tasks.get? k).any (fun x => x.state == .marked) && t.accs.all (fun b => b.task != some k))
    else
      let v := loadNat (bridgeRead s a.die a.pa a.size a.uncached) a
      some (fun t => (t.acc? n).any (fun b => b.stage == .satisfied && b.val == v) && returned t a v && memKept s t 0 0))
  | .drain n => (s.acc? n).bind (fun a =>
    if !canDrain s a then none
    else
      match a.kind, a.task.bind (fun k => (s.tasks.get? k).map (fun x => (k, x))) with
      | .unlock, _ => some (fun t => standsLast t a .arrived)
      | .flush op, _ =>
        if lockedAgainst s a then (if a.stage == .waiting then none else some (fun t => standsLast t a .waiting && memKept s t 0 0))
        else if flushReady s a op then some (fun t => flushed s t a op)
        else some (fun t => probed s t a.pa 1 && memKept s t 0 0)
      | _, some (k, x) =>
        if lockedAgainst s a || heldAtHome s a || isClass5 a then none
        else some (fun t => (t.acc? n).isNone && memKept s t 0 0 && (t.tasks.get? k).any (fun y => y.state == .marked
          || (y.reads == x.reads && (List.range a.size).all (fun i => y.buf.get? (a.pa + i) == some (BitVec.ofNat 8 (a.data / 256 ^ i))))))
      | _, none =>
        if !isLocal s a.die a.pa then some (fun t => standsLast t a .queued && memKept s t 0 0)
        else if lockedAgainst s a then (if a.stage == .waiting then none else some (fun t => standsLast t a .waiting && memKept s t 0 0))
        else if heldAtHome s a then none
        else if isClass5 a && isWindow a.pa then
          let b := { a with stage := .arrived }
          if canApply (s.moveLast b) b && (shoreBefore (s.moveLast b) b).isSome && noReader s a.pa a.size && plain a.pa a.size
              && knownHome s a.pa a.size && wordSized a then
            some (fun t => requestDone s t a)
          else none
        else some (fun t => standsLast t a .arrived && memKept s t 0 0))
  | .apply n => (s.acc? n).bind (fun a =>
    if a.kind != .store then none
    else if canApply s a then
      if exactStore s a then
        some (fun t => (t.acc? n).isNone && ((shoreBefore s a).isNone || wrote s t a.pa a.size a.data))
      else if a.size == 4 && a.pa % 4 == 0 && (shoreBefore s a).isSome && noReader s a.pa a.size && outsideDirs s a.pa a.size then
        let (g, r, l, _) := windowReg a.pa
        if (s.groups.get? g).isSome && !plain a.pa a.size then
          some (fun t => (t.acc? n).isNone && memKept s t 0 0 && vregsIn t g r l 1 == some (a.data % 2 ^ 32))
        else none
      else none
    else if a.stage == .arrived then some (fun t => probed s t a.pa a.size && memKept s t 0 0)
    else none)
  | .cross n => (s.acc? n).bind (fun a =>
    if a.kind != .store || a.stage != .queued then none
    else if lockedAgainst s a then some (fun t => waitsInPlace s t a)
    else if canCross s a then
      if exactStore s a && decide (a.die < 4) then some (fun t => (t.acc? n).isNone && ((shoreBefore s a).isNone
        || (wrote s t a.pa a.size a.data && (!bridged s a.pa || a.uncached || ownedBy t a))))
      else none
    else some (fun t => probed s t a.pa a.size && memKept s t 0 0))
  | _ => none

/-- The values of merged requests of one operation, and what they leave (R186). That floating contributions are combined from the left,
with the home value last, is the model's choice (log 144): the rule does not say how they are grouped. -/
def mergedValues (op : AtomOp) (w old : Nat) : Option Nat → List Acc → List (Acc × Nat) × Nat
  | p, [] => ([], p.elim old (combine op w old))
  | p, a :: t =>
    let (vs, x) := mergedValues op w old (some (p.elim (a.data % 2 ^ w) (fun q => combine op w q a.data))) t
    ((a, p.elim old (combine op w old)) :: vs, x)

/-- CLASS5_REQUEST_APPLY (R185 to R188, R369): one request, or atomics of one operation on one word that routers have merged; one to a
line that another group has locked waits, and one that other dies' copies hold back has probes sent. -/
def requestClaim (i : Instr) (s : State) : Option (State → Bool) :=
  match i with
  | .class5RequestApply ids =>
    let all := ids.filterMap s.acc?
    match all with
    | [] => none
    | a :: rest =>
      if all.length != ids.length || ids.eraseDups != ids || !all.all isClass5 then none
      else if rest.isEmpty && a.stage == .queued && lockedAgainst s a then some (fun t => waitsInPlace s t a)
      else if !all.all (readyAt s ids) then
        if all.all (fun b => b.stage == .arrived || b.stage == .queued) then some (fun t => probed s t a.pa a.size && memKept s t 0 0)
        else none
      else if (shoreBefore s a).isNone || !noReader s a.pa a.size || !plain a.pa a.size || !knownHome s a.pa a.size || !wordSized a then none
      else if rest.isEmpty then some (fun t => requestDone s t a)
      else
        match a.kind with
        | .atom op _ =>
          if rest.all (mergeable a) && laneOrder all && all.all (fun b => b.depth == 0) && (lockHolder s (a.pa / 128)).isNone && (((all.filter (·.tok.isSome)).map (fun b => (b.tok, b.lane))).Nodup : Bool) then
            let (vs, x) := mergedValues op (8 * a.size) (readNat s a.pa a.size) none all
            some (fun t => wrote s t a.pa a.size x && vs.all (fun v => (t.acc? v.1.id).isNone && (v.1.tok.isNone || returned t v.1 v.2)))
          else none
        | _ => none
  | _ => none

/-- The stores that a home slice holds for a line, in their order of arrival (R161). -/
def heldStores (s : State) (line : Nat) : List Acc :=
  s.accs.filter (fun a => a.kind == .store && a.stage == .arrived && (linesOf a.pa a.size).contains line)

/-- The latest lease has passed (R161): a lease serves through the tick at which it expires. -/
def leasePassed (expiry now : Nat) : Bool := expiry == 0 || decide (expiry < now)

/-- No core's L1 keeps a copy of a line whose lease there has passed (R161). -/
def leasesGone (s t : State) (line : Nat) : Bool :=
  s.cores.all (fun p =>
    ((t.core p.1).l1.get? line).all (fun e => decide ((s.die (dieOfCore p.1)).time ≤ e)))

/-- LEASE_EXPIRY, ATOMIC_LEASE_HOLD_END, PROBE_RECEIVE, PROBE_ACK, PROXY_GRANT_RECEIVE, HOST_SNOOP and LINE_POISON (R159 to R165). -/
def lineClaim (i : Instr) (s : State) : Option (State → Bool) :=
  match i with
  | .leaseExpiry l =>
    if !leasePassed (s.line l).expiry (homeTime s l) then none
    else
      match heldStores s l with
      | [] => some (fun t => leasesGone s t l && memKept s t 0 0 && t.accs == s.accs)
      | a :: rest =>
        if s.acc? a.id != some a then none
        else if canApply s a then
          if rest.isEmpty && exactStore s a then some (fun t => leasesGone s t l && (t.acc? a.id).isNone
            && ((shoreBefore s a).isNone || wrote s t a.pa a.size a.data))
          else some (fun t => leasesGone s t l && (t.acc? a.id).isNone)
        else if rest.isEmpty then some (fun t => leasesGone s t l && memKept s t 0 0 && t.accs == s.accs)
        else none
  | .atomicLeaseHoldEnd l =>
    if (s.line l).atomicUntil != 0 && decide ((s.line l).atomicUntil ≤ homeTime s l) then
      some (fun t => t.line l == { s.line l with atomicUntil := 0 } && memKept s t 0 0)
    else none
  | .probeReceive d l => (s.msgs.find? (fun m => m.die == d && m.line == l && m.probe)).map (fun m t =>
    let p := s.proxy l d
    !t.msgs.contains m && s.msgs.all (fun x => x == m || t.msgs.contains x) && t.line l == s.line l && memKept s t 0 0
      && t.proxy l d == (if m.seq == p.seq then { p with state := .i, owesAck := true }
                         else if decide ((p.seq - m.seq).toNat < 2 ^ 15) then p
                         else { p with probes := p.probes ++ [m.seq] }))
  | .probeAck d l =>
    let p := s.proxy l d
    if p.owesAck && leasePassed p.expiry (s.die d).time then
      some (fun t => t.proxy l d == { p with owesAck := false } && memKept s t 0 0
        && (t.line l).dir.getD d .i == .i && !(t.line l).probes.contains d
        && (s.line l).probes.all (fun x => x == d || (t.line l).probes.contains x))
    else none
  | .proxyGrantReceive d l => (s.msgs.find? (fun m => m.die == d && m.line == l && !m.probe)).map (fun m t =>
    let p := s.proxy l d
    let held := p.probes.contains m.seq
    let later := p.probes.filter (fun x => x != m.seq && decide ((x - m.seq).toNat < 2 ^ 15))
    !t.msgs.contains m && s.msgs.all (fun x => x == m || t.msgs.contains x) && t.line l == s.line l && memKept s t 0 0
      && t.proxy l d == { p with seq := m.seq, probes := later, state := if held then .i else m.state, owesAck := held || p.owesAck })
  | .hostSnoop d l upper =>
    let h := if upper then 1 else 0
    if bridged s (l * 128) && leasePassed (s.proxy l d).expiry (s.die d).time then
      some (fun t => (t.proxy l d).state == .i && hostHalf t d l h == .i && hostHalf t d l (1 - h) == hostHalf s d l (1 - h)
        && s.cores.all (fun p => dieOfCore p.1 != d || ((t.core p.1).l1.get? l).isNone) && memKept s t 0 0)
    else none
  | .linePoison l =>
    let place : Option (Nat × Nat × Nat) := match placeOf (l * 128) with
      | .hbm d | .lpddr d => some (d, 1, sliceOf (l * 128))
      | .window => some (dieOfCore (windowOf (l * 128)).core, 0, (windowOf (l * 128)).core % 64)
      | _ => none
    place.map (fun (d, unit, index) t => t.line l == { s.line l with poison := true } && memKept s t 0 0
      && (t.die d).events.getLast? == some ⟨(s.die d).time, 0x0003, unit, index, BitVec.ofNat 64 (l * 128), 0⟩)
  | _ => none

/-! ### The engines of a core (R215 to R255) -/

/-- Something holds of a command in a state. -/
def cmdHas (t : State) (id : Nat) (p : Cmd → Bool) : Bool := (t.cmds.get? id).any p

/-- Every byte of memory outside some addresses is what it was. -/
def memKeptBut (s t : State) (p : Nat → Bool) : Bool :=
  (s.mem.map (·.1) ++ t.mem.map (·.1)).all (fun a => p a || t.byte a == s.byte a)

/-- A copy's barrier word after a credit of `n` bytes (R237), where no task reads the word. -/
def credited (s : State) (k : Cmd) (j : CopyJob) (n : Nat) : Option (State → Bool) :=
  match j.credit, creditBlock s k j with
  | some bar, some blk => (s.blocks.get? blk).bind (fun b =>
      let word := barAddr b bar
      if decide (b.scratchSize < 8 * bar + 8) then some (fun _ => true)
      else if plain word 8 && noReader s word 8 then
        some (fun t => wrote s t word 8 ((readBar s word).addPending (-(n : Int))).complete.1.toNat)
      else none)
  | _, _ => some (fun _ => true)

/-- A group that the failure of a command finds running keeps it waiting (R230). -/
def failureKept (s t : State) (id gid : Nat) (c : Cause) (eval : Dword) : Bool :=
  (s.groups.get? gid).elim true (fun g => allParked g || (t.groups.get? gid).any (fun x => x.fails.contains ⟨id, c, eval⟩))

/-- A completion word is on its way (R231): a release of 8 bytes for the address space of the command. -/
def wordSent (s t : State) (cmd va x scope : Nat) : Bool :=
  t.accs.any (fun a => a.kind == .store && a.cmd == some cmd && a.va == va && a.size == 8 && a.data == x && a.ord == .release
    && a.scope == scope && decide (s.nextId ≤ a.id))

/-- The address space of a command. -/
def pasidOf (s : State) (k : Cmd) : Nat := (((s.blocks.get? k.blk).bind s.launchOf).map (·.pasid)).getD 0

/-- A word's address translates on a die. -/
def wordMapped (s : State) (die pasid va : Nat) : Bool :=
  va % 8 == 0 && (match (translate s die pasid Need.both va).1 with
    | .ok .. => true
    | _ => false)

/-- ENGINE_COMMAND_ACCEPT (R215, R226): the head of the queue is running with what its lanes have observed, or waits at its guard
slot, which is then pending, or is discarded. -/
def acceptClaim (i : Instr) (s : State) : Option (State → Bool) :=
  match i with
  | .engineCommandAccept core matrix =>
    match queueOf s core matrix with
    | [] => none
    | id :: rest => (s.cmds.get? id).bind (fun k =>
      match gateOf s k with
      | .go =>
        if enginesRun s k.blk && acceptable s id k then
          some (fun t => queueOf t core matrix == rest && cmdHas t id (fun x => x.state == .running && x.obs == observed s k.gid k.lanes))
        else none
      | .hold => k.gs.map (fun n t => queueOf t core matrix == id :: rest && cmdHas t id (· == k)
          && (s.groups.get? k.gid).elim true (fun g => (t.groups.get? k.gid).any (fun x => x.gs.getD n.toNat .free
            == (if g.gs.getD n.toNat .free = .free then .pending else g.gs.getD n.toNat .free))))
      | .drop =>
        some (fun t => queueOf t core matrix == rest && t.ranges.all (fun r => r.cmd != id)
          && cmdHas t id (fun x => x.discarded && x.state == (if stillActs k && (s.blocks.get? k.blk).isSome then .running else .ended))))
  | _ => none

/-- COPY_SEGMENT (R235, R236, R388): elements of the next segment leave for their destinations, in element order, the first with the
value at its source; or the first element that has no place fails the copy, or waits for the host's answer; or the reads of a peer's
memory are asked for first, as one entry of the core (the model's choice, log 152). -/
def copyStepClaim (i : Instr) (s : State) : Option (State → Bool) :=
  match i with
  | .copySegment core id => (s.cmds.get? id).bind (fun k =>
    match copyOf k.kind, s.blocks.get? k.blk with
    | some j, some b =>
      if k.core != core || k.state != .running || k.discarded || k.failed.isSome || k.tag.isSome || !enginesRun s k.blk || decide (j.total ≤ k.pos) then none
      else
        match segmentSpots s b (pasidOf s k) id k j (j.segment k.pos) with
        | ((some (.fail c x), []), _) => some (fun t => cmdHas t id (fun y => y.failed == some (c, BitVec.ofNat 64 (truncInt x 57)) && y.pos == k.pos))
        | ((some (.page _ _ _), []), _) => some (fun t => cmdHas t id (fun y => y.tag.isSome && y.failed.isNone && y.pos == k.pos))
        | ((_, e :: es), v) =>
          let load (x : Nat × Nat × Nat × Nat × Nat) : Acc := engineLoad id k x.2.2.1 x.2.1 j.e s.nextId
          if (e :: es).any (fun x => peerMemory v x.2.1) && k.asked != some k.pos then
            if mayYetSend s core .peer 1 then
              some (fun t => cmdHas t id (· == { k with asked := some k.pos }) && t.accs == s.accs && memKept s t 0 0
                && t.queue.any (fun x => x.payload == .peer [id]))
            else none
          else if peerAsked s id || !(e :: es).all (fun x => sourcesKnown v (load x) && !heldAtHome v (load x) && !biasFrozen v x.2.2.2.1)
              || (e :: es).any (fun x => peerMemory v x.2.2.2.1) && !mayYetSend v core .peer 1 then none
          else
            match reserveEngine v k [] ((e :: es).map (fun x => x.2.2.2.1)) with
            | (_, []) => some (fun t => cmdHas t id (fun y => (y.failed.map (·.1)) == some .shoreFull && y.pos == k.pos))
            | (_, rs) =>
              let moved := (e :: es).take rs.length
              some (fun t => cmdHas t id (fun y => y.pos == k.pos + moved.length && y.writes.length == k.writes.length + moved.length)
                && moved.all (fun x => t.accs.any (fun a => a.kind == .store && a.cmd == some id && a.pa == x.2.2.2.1 && a.va == x.2.2.2.2
                    && a.size == j.e))
                && t.accs.any (fun a => a.cmd == some id && a.pa == e.2.2.2.1 && a.data == loadNat v (load e)))
        | _ => none
    | _, _ => none)
  | _ => none

/-- COPY_FAILURE, BARRIER_CREDIT, RANGE_RETIRE, COMPLETION_WORD_WRITE and CDONE_COMPLETE (R217, R231, R236, R237, R240). -/
def copyEndClaim (i : Instr) (s : State) : Option (State → Bool) :=
  match i with
  | .copyFailure core id => (s.cmds.get? id).bind (fun k =>
    match copyOf k.kind, k.failed with
    | some j, some (c, eval) =>
      let held := match j.credit, creditBlock s k j with
        | some bar, some blk => creditHeld s k id blk bar
        | _, _ => false
      if k.core != core || k.state != .running || j.moved k || failureWaits s k || held || (s.groups.get? k.gid).any allParked then none
      else (credited s k j ((j.pieces.filter (fun p => !k.credited.contains p)).foldl (fun n p => n + (j.pieceElems p).length * j.e) 0)).map
        (fun word t => word t && failureKept s t id k.gid c eval
          && cmdHas t id (fun x => x.pos == j.total && x.credited == j.pieces && x.tag.isNone && x.writes == k.writes))
    | _, _ => none)
  | .barrierCredit core id piece => (s.cmds.get? id).bind (fun k => (copyOf k.kind).bind (fun j =>
    match j.credit, creditBlock s k j with
    | some bar, some blk =>
      let es := j.pieceElems piece
      if k.core != core || k.state != .running || (k.failed.isSome && !j.moved k) || es.isEmpty || k.credited.contains piece || !es.all (fun n => decide (n < k.pos))
          || !(k.writes.filter (fun w => w.2 == piece)).all (fun w => (s.acc? w.1).isNone) || creditHeld s k id blk bar then none
      else (credited s k j (es.length * j.e)).map (fun word t => word t && cmdHas t id (fun x => x.credited == k.credited ++ [piece]))
    | _, _ => none))
  | .rangeRetire core id =>
    let retired (t : State) : Bool := t.ranges.all (fun r => r.claim || r.cmd != id)
      && s.ranges.all (fun r => (!r.claim && r.cmd == id) || t.ranges.contains r)
    match s.cmds.get? id with
    | some k =>
      let moved := match copyOf k.kind with
        | some j => j.moved k
        | none => decide (0 < k.pos)
      if k.core != core || k.state != .running || !moved || !hasRange s id || !k.writes.all (fun w => (s.acc? w.1).isNone) then none
      else some (fun t => retired t && cmdHas t id (fun x => x.state == (match copyOf k.kind with
          | some j =>
            if (j.credit.isNone || j.pieces.all k.credited.contains) && (j.word.isNone || k.wordDone || decide (0 < k.depth)) then .ended
            else .running
          | none => .ended)))
    | none => (s.colls.get? id).bind (fun k =>
      if k.core != core || !k.settled || !hasRange s id || !k.writes.all (fun w => (s.acc? w).isNone) then none
      else some (fun t => retired t && (t.colls.get? id).isNone == k.done))
  | .completionWordWrite core id => (s.cmds.get? id).bind (fun k => ((copyOf k.kind).bind (fun j => j.word.map (fun w => (j, w)))).bind
    (fun (j, va, seq, scope) =>
      if k.core != core || k.wordDone || k.tag.isSome || decide (0 < k.depth) || k.discarded || k.state == .queued || !j.moved k || wordBefore s id k
          || !allPerformed s (dieOfCore k.core) scope (liveOf s (k.writes.map (·.1) ++ k.obs)) || !wordMapped s (dieOfCore k.core) (pasidOf s k) va then none
      else some (fun t => cmdHas t id (·.wordDone) && wordSent s t id va (match k.failed with
        | some (c, _) => wordFail c.code.toNat seq
        | none => wordOk seq) scope)))
  | .cdoneComplete core id => (s.cmds.get? id).bind (fun k =>
    match k.kind with
    | .cdone va seq scope cs =>
      let of (i : Nat) : Option Cmd := s.cmds.get? i
      if k.core != core || k.state != .running || k.tag.isSome || !cs.all (fun i => (of i).elim true (fun q => q.state == .ended))
          || !allPerformed s (dieOfCore core) scope (liveOf s (cs.flatMap (fun i => ((of i).map (fun q => q.writes.map (·.1))).getD []) ++ k.obs))
          || !wordMapped s (dieOfCore k.core) (pasidOf s k) va then none
      else some (fun t => cmdHas t id (fun x => x.wordDone && x.state == .ended)
        && wordSent s t id va (match firstFailure s cs with
          | some c => wordFail c.code.toNat seq
          | none => wordOk seq) scope)
    | _ => none)
  | _ => none

/-- ENGINE_FAILURE_DELIVERY (R402): every split of the group is parked, and the lowest takes its first failure at once. -/
def deliveryClaim (i : Instr) (s : State) : Option (State → Bool) :=
  match i with
  | .engineFailureDelivery gid => (s.groups.get? gid).bind (fun g =>
    match g.fails, (liveSplits g).head?, s.blocks.get? g.blk with
    | f :: rest, some (si, sp), some b =>
      if !allParked g || resultsPending s g || isChecked s g || g.stopped || g.desched.isSome || g.faultWait.isSome || b.failing.isSome
          || b.terminated.isSome || b.sealed || (lanesOf sp.em).any (fun l => (g.tasks.get? l).isSome) || (g.splits.get? si) != some sp then none
      else if !b.levels.isEmpty && f.cause != .illegalOp && f.cause != .reservedEnc then
        some (fun t => blockHas t g.blk (fun x => x.failing == some ⟨b.levels.length, true, f.cause.code, f.eval, sp.pc, s.clk, g.index⟩))
      else if g.handler || g.tvec == 0 then
        some (fun t => blockHas t g.blk (fun x => x.terminated == some f.cause))
      else some (fun t => (t.groups.get? gid).any (fun x => x.handler && x.causeEngine && x.cause == f.cause.code && x.eval == f.eval && x.epc == sp.pc
        && x.savedEm == sp.em && x.fails == rest) && pcIn t gid si == some g.tvec)
    | _, _, _ => none)
  | _ => none

/-- A command that its core has accepted and that an event may take further. -/
def runsOnCore (s : State) (core id : Nat) : Option Cmd := (s.cmds.get? id).filter (fun k => k.core == core && k.state == .running)

/-- MXLW_FILL, MXLW_FILL_END and MXSWAP_EXCHANGE (R245, R246). -/
def planeClaim (i : Instr) (s : State) : Option (State → Bool) :=
  match i with
  | .mxlwFill core id => (runsOnCore s core id).bind (fun k =>
    match k.kind with
    | .mxlw fmt sc xv tr bay a =>
      if k.fillEnd.isSome || !baysClear s id core [bay] || !(k.discarded || enginesRun s k.blk) then none
      else if k.discarded then some (fun t => (t.bay core bay).shadow == zeroPlane fmt sc tr && cmdHas t id (fun x => x.state == .ended))
      else some (fun t => (t.bay core bay).shadow.bytes == readPlane s id k a (planeBytes fmt sc) && (t.bay core bay).fillEnd == some (s.clk + 48)
        && (t.bay core bay).shadow.check == (Plane.filled fmt sc tr xv (readPlane s id k a (planeBytes fmt sc))).column
        && (t.bay core bay).active == (s.bay core bay).active && cmdHas t id (fun x => x.fillEnd == some (s.clk + 48) && x.state == .running))
    | _ => none)
  | .mxlwFillEnd core id => (runsOnCore s core id).bind (fun k =>
    match k.kind, k.fillEnd with
    | .mxlw fmt sc xv tr bay _, some c =>
      if decide (s.clk < c) then none
      else some (fun t =>
        let p := (t.bay core bay).shadow
        p.fmt == some fmt && p.scale == sc && p.tr == tr && p.xv == xv && p.bytes == (s.bay core bay).shadow.bytes
          && p.check == (s.bay core bay).shadow.check && (t.bay core bay).fillEnd.isNone
          && t.ranges.all (fun r => !r.claim || r.cmd != id) && cmdHas t id (fun x => x.state == .ended))
    | _, _ => none)
  | .mxswapExchange core id bay => (runsOnCore s core id).bind (fun k =>
    match k.kind with
    | .mxswap mask =>
      if !(baysOf mask).contains bay || k.credited.contains bay || !baysClear s id core [bay] || !fillDone s core bay
          || !(k.discarded || !k.credited.isEmpty || enginesRun s k.blk) then none
      else some (fun t => (t.bay core bay).active == (s.bay core bay).shadow && (t.bay core bay).shadow == (s.bay core bay).active
        && cmdHas t id (fun x => x.credited == k.credited ++ [bay]
            && x.state == (if (baysOf mask).all (k.credited ++ [bay]).contains then .ended else .running)))
    | _ => none)
  | _ => none

/-- The active plane of a bay at a K-step (R250): what a replay reads again, else after the first step the plane filled last. -/
def stepPlane (s : State) (core id : Nat) (k : Cmd) (b : Int) (p2 p3 : Int) (rank bay : Nat) : Plane :=
  let q := s.bay core bay
  if k.replay then
    match q.active.fmt with
    | some f => Plane.filled f q.active.scale q.active.tr q.active.xv (readPlane s id k (b + k.pos * p2 + rank * p3) (planeBytes f q.active.scale))
    | none => q.active
  else if k.pos = 0 then q.active
  else q.shadow

/-- K_STEP (R250, R251, R104, R105, R245): the exact sum of every output of the step, the exact product of every row with the checksum
column, and the clk at which the rows end; a discarded command leaves planes of zero codes. -/
def kStepClaim (i : Instr) (s : State) : Option (State → Bool) :=
  match i with
  | .kStep core id => (runsOnCore s core id).bind (fun k =>
    match k.kind with
    | .mxloop fmt sc xv mask _ m a b n p1 p2 p3 _ _ =>
      let bays := baysOf mask
      if !baysClear s id core bays || decide (64 < m) then none
      else if k.discarded then
        some (fun t => cmdHas t id (fun x => x.state == .ended) && bays.all (fun y => (s.bay core y).active.fmt.elim true (fun f =>
          (t.bay core y).shadow == zeroPlane f (s.bay core y).active.scale (s.bay core y).active.tr)))
      else
        let st := k.pos
        let start := if k.replay then s.clk + 48 else s.clk
        let base := ((s.blocks.get? k.blk).map (·.scratchBase)).getD 0
        let lo := scratchAddr core (base + ((a : Int) + st * p1).toNat)
        let bytes (p : Pairing) : List Byte := (List.range (actBytes p sc m)).map (fun i => loadByte s (engineLoad id k lo lo 1 s.nextId) (lo + i))
        if decide (st < n) && decide (k.rowsEnd ≤ s.clk) && k.fillEnd.elim true (fun c => decide (c ≤ s.clk))
            && (if k.replay then decide (st = k.passed) else decide (st ≤ k.passed + 1) && enginesRun s k.blk) then
          some (fun t =>
            (bays.mapIdx (fun i y => (t.bay core y).active == stepPlane s core id k b p2 p3 i y)).and
            && cmdHas t id (fun x => x.pos == st + 1 && x.fillEnd == (if st + 1 < n then some (start + 48) else none)
              && (bays.mapIdx (fun i y =>
                  let w := stepPlane s core id k b p2 p3 i y
                  (k.replay && k.kept.getLsbD y) || (w.fmt.bind (fun f => pairing f fmt)).elim true (fun p =>
                    (i != 0 || x.rowsEnd == start + m * (p.q / 48))
                    && (List.range m).all (fun r => x.checks.get? (st % 2 * 256 + y * 64 + r) == some (rowProduct w fmt sc xv p m (bytes p) r)
                      && (List.range 256).all (fun c =>
                      x.sums.get? (st % 2 * 65536 + y * 16384 + r * 256 + c) == some (stepSum w fmt sc xv p m (bytes p) r c)))))).and))
        else none
    | _ => none)
  | _ => none

/-- An accumulator of some bays of a core (R27). -/
def inBays (core : Nat) (bays : List Nat) (pa : Nat) : Bool := bays.any (fun b => decide (accumBytes core b ≤ pa ∧ pa < accumBytes core b + 65536))

/-- CHECKSUM_VERDICT (R250, R251): a step whose two exact sums agree in every row is added to its accumulators; a first mismatch has it run again; a second fails the
command. -/
def verdictClaim (i : Instr) (s : State) : Option (State → Bool) :=
  match i with
  | .checksumVerdict core id upset => (runsOnCore s core id).bind (fun k =>
    match k.kind with
    | .mxloop fmt _ _ mask rb m _ _ n _ _ _ _ _ =>
      let bays := baysOf mask
      let bad := mismatches k bays k.passed m upset &&& mask &&& (if k.replay then ~~~k.kept else BitVec.allOnes 4)
      let st := k.passed
      if k.discarded || decide (k.pos ≤ st) || decide (s.clk < (verdictDue k)) || decide (64 < rb + m) then none
      else if bad != 0 then
        if k.replay then
          let eval := BitVec.ofNat 64 (st + bad.toNat * 2 ^ 20)
          if (s.groups.get? k.gid).any allParked then none
          else some (fun t => cmdHas t id (fun x => x.state == .ended && x.failed == some (.mxCheck, eval)) && memKept s t 0 0
            && failureKept s t id k.gid .mxCheck eval)
        else some (fun t => cmdHas t id (fun x => x.replay && x.kept == mask &&& ~~~bad && x.pos == st && x.passed == st) && memKept s t 0 0)
      else
        let int := ((((s.bay core (bays.headD 0)).active.fmt).bind (fun f => pairing f fmt)).map (·.int)).getD false
        some (fun t => cmdHas t id (fun x => x.passed == st + 1 && x.state == (if st + 1 = n then .ended else .running))
          && memKeptBut s t (inBays core bays)
          && bays.all (fun y => (List.range m).all (fun r => (List.range 256).all (fun c =>
            let pa := accumAddr core y (rb + r) c
            readNat t pa 4 == (match k.sums.get? (st % 2 * 65536 + y * 16384 + r * 256 + c) with
              | some x => stepResult int (readNat s pa 4) x
              | none => readNat s pa 4)))))
    | _ => none)
  | _ => none

/-- The columns of a drained row as they are stored or written to registers (R253, R254). -/
def drainRow (s : State) (core id : Nat) (k : Cmd) (o : MxdrainOps) (blk : Block) (b : Nat) (int : Bool) (r : Nat) : List Nat :=
  let scale (n : Nat) : Nat :=
    let pa := scratchAddr core (blk.scratchBase + b + 4 * n)
    loadNat s (engineLoad id k pa pa 4 s.nextId)
  (List.range (outCols o)).map (epilogue o int (fun n => readNat s (accumAddr core o.bay.toNat (o.rb.toNat + r) n) 4) scale)

/-- MXDRAIN_EXECUTE and MXZERO_EXECUTE (R254, R255). -/
def drainClaim (i : Instr) (s : State) : Option (State → Bool) :=
  match i with
  | .mxdrainExecute core id => (runsOnCore s core id).bind (fun k =>
    match k.kind, s.blocks.get? k.blk with
    | .mxdrain o a b int, some blk =>
      if k.discarded || decide (0 < k.pos) || !baysClear s id core [o.bay.toNat] || !enginesRun s k.blk then none
      else
        let rows := List.range (o.m1.toNat + 1)
        match o.dst with
        | .s _ =>
          let unit := max 1 (outBits o / 8)
          some (fun t => cmdHas t id (fun x => x.pos == 1) && memKept s t 0 0
            && rows.all (fun r => ((packRow (outBits o) (drainRow s core id k o blk b int r)).mapIdx (fun i v =>
              t.accs.any (fun x => x.kind == .store && x.cmd == some id && x.size == unit && x.data == v
                && x.pa == scratchAddr core (blk.scratchBase + a + (r * rowBytes o + i * unit))))).and))
        | .v r =>
          match s.toks.find? (fun p => p.2.gid == k.gid && p.2.n == k.seq) with
          | none => some (fun t => cmdHas t id (fun x => x.state == .ended))
          | some (tok, tk) =>
            if decide (0 < k.depth) || (s.groups.get? k.gid).isNone then none
            else some (fun t => cmdHas t id (fun x => x.state == .ended) && (t.toks.get? tok).isNone && memKept s t 0 0
              && rows.all (fun i =>
                let vs := drainRow s core id k o blk b int i
                (List.range (rowRegs o)).all (fun j => (lanesOf tk.lanes).all (fun l =>
                  vregsIn t k.gid (r.toNat + i * rowRegs o + j) l 1 == some (vs.getD (j * 32 + l) 0 % 2 ^ 32)))))
    | _, _ => none)
  | .mxzeroExecute core id => (runsOnCore s core id).bind (fun k =>
    match k.kind with
    | .mxzero mask rb m =>
      let bays := baysOf mask
      if k.discarded || !baysClear s id core bays || !enginesRun s k.blk || decide (64 < rb + m) then none
      else some (fun t => cmdHas t id (fun x => x.state == .ended) && memKeptBut s t (inBays core bays)
        && bays.all (fun y => (List.range m).all (fun r => (List.range 256).all (fun n => readNat t (accumAddr core y (rb + r) n) 4 == 0))))
    | _ => none)
  | _ => none

/-! ### Collectives (R257 to R259) -/

/-- Something holds of a collective in a state. -/
def collHas (t : State) (id : Nat) (p : Coll → Bool) : Bool := (t.colls.get? id).any p

/-- The elements of some bytes are on their way to the parts of a span. -/
def elementsSent (t : State) (k : Coll) (ps : List (Nat × Nat × Nat)) (bytes : List Byte) : Bool :=
  let e := collSize k.typ
  ((ps.flatMap (fun p => (List.range (p.2.2 / e)).map (fun i => p.2.1 + i * e))).mapIdx (fun i pa =>
    t.accs.any (fun a => a.kind == .store && a.gid.isNone && a.pa == pa && a.size == e && a.data == ofLe ((bytes.drop (i * e)).take e)))).and

/-- The member's own part begins: its source can be read, or meets a fault or a missing page (R258, R259). -/
def beginsAt (s : State) (id : Nat) (k : Coll) : Bool :=
  match collSpan s id k Need.load k.b k.srcBytes with
  | (.ready ps, v) => collReady v id k (collSize k.typ) ps
  | _ => true

/-- A member has taken its own part and has its first steps to take, or has failed, or waits for the answer to a page fault. -/
def begun (k x : Coll) : Bool :=
  x.failed.isSome || x.tag.isSome || (x.summed && x.out.map (·.1)
    == (if k.op = 1 then (if k.rank = 0 then [] else [0]) else (List.range k.members).filter (· != k.rank)))

/-- COLL_ACCEPT (R224, R52, R257, R215, R226): an entry reaches the queue of its core, unless that holds 32; its head is discarded, waits
at its guard slot, or has its communicator record read; then the member takes its own part. -/
def collAcceptClaim (i : Instr) (s : State) : Option (State → Bool) :=
  match i with
  | .collAccept id => (s.colls.get? id).bind (fun k =>
    let q := (s.core k.core).collQ
    let left (t : State) : Bool := (t.core k.core).collQ == q.tail
    let taken (t : State) (p : Coll → Bool) : Bool := left t && collHas t id (fun x => x.accepted && p x)
    if k.accepted then
      (if k.summed || k.failed.isSome || k.tag.isSome || !beginsAt s id k then none else some (fun t => collHas t id (begun k)))
    else if q.contains id then
      if q.head? != some id || k.tag.isSome || k.failed.isSome then none
      else
        match collGate s k with
        | .drop => some (fun t => left t && (t.colls.get? id).isNone && t.ranges.all (fun r => r.claim || r.cmd != id))
        | .hold => k.gs.map (fun n t => (t.core k.core).collQ == q && collHas t id (· == k)
            && (s.groups.get? k.gid).elim true (fun g => (t.groups.get? k.gid).any (fun x =>
              x.gs.getD n.toNat .free == (if g.gs.getD n.toNat .free = .free then .pending else g.gs.getD n.toNat .free))))
        | .go =>
          if !allPerformed s k.die 3 k.wait || rowsHeld s k.blk id true [((k.a : Int), 64)] then none
          else if k.a % 64 != 0 then some (fun t => taken t (fun x => x.failed == some 0x04))
          else
            match collSpan s id k Need.load k.a 64 with
            | (.failed c, _) => some (fun t => taken t (fun x => x.failed == some c.code))
            | (.wait, _) => some (fun t => (t.core k.core).collQ == q && collHas t id (fun x => !x.accepted && x.tag.isSome))
            | (.ready ps, v) =>
              if !collReady v id k 8 ps then none
              else
                let (r, w) := collRead v id k 8 ps
                let k1 : Coll := { k with members := (r.getD 0 0).toNat, rank := (r.getD 1 0).toNat }
                let read (x : Coll) : Bool := x.members == k1.members && x.rank == k1.rank && x.ctag.toNat == ofLe ((r.drop 4).take 4)
                  && (observed s k.gid k.lanes).all x.obs.contains
                if !recordOk r s.mgmt.peer.toNat then some (fun t => taken t (fun x => read x && x.failed == some 0x40))
                else if rowsHeld w k.blk id true [((k.b : Int), k1.srcBytes), ((k.d : Int), k1.dstBytes)] then none
                else some (fun t => taken t (fun x => read x && (!beginsAt w id k1 || begun k1 x)))
    else (s.queue.find? (fun e => e.payload == .coll id)).bind (fun e =>
      if !entryDue s e then none
      else if decide (32 ≤ q.length) then
        some (fun t => (t.core k.core).collQ == q && collHas t id (· == k) && (t.entry? e.id).any (fun x => x.state == .nacked s.clk))
      else some (fun t => (t.core k.core).collQ == q ++ [id] && collHas t id (· == k) && (t.entry? e.id).any (fun x => x.state == .accepted))))
  | _ => none

/-- A member that takes steps. -/
def inSteps (s : State) (id rank : Nat) : Option Coll :=
  (s.colls.get? id).filter (fun k => k.summed && k.failed.isNone && k.tag.isNone && k.others.contains rank)

/-- COLL_STEP_ACK, COLL_CONTRIBUTION_ARRIVAL, COLL_STEP_TIMEOUT and COLL_COMPLETE (R257 to R259, R231): what arrives is checked against
the member's own tag, operation, type and length. -/
def collStepClaim (i : Instr) (s : State) : Option (State → Bool) :=
  match i with
  | .collStepAck id rank ⟨tag, op, typ, bytes⟩ => (inSteps s id rank).bind (fun k =>
    if bytes.isEmpty then some (fun t => collHas t id (fun x => x.out == k.out.filter (fun y => y.1 != rank)))
    else if tag != k.ctag || op != k.op || typ != k.typ || bytes.length != k.block then
      some (fun t => collHas t id (fun x => x.failed == some 0x42))
    else if (k.op == 1 && (k.rank == 0 || rank != 0)) || k.got.contains rank then none
    else
      match collSpan s id k Need.store (if k.op = 1 then k.d else k.d + rank * k.block) k.block with
      | (.ready ps, _) => some (fun t => collHas t id (fun x => x.got == k.got ++ [rank] && x.failed.isNone) && elementsSent t k ps bytes)
      | (.failed c, _) => some (fun t => collHas t id (fun x => x.failed == some c.code))
      | (.wait, _) => some (fun t => collHas t id (fun x => x.tag.isSome && x.got == k.got)))
  | .collContributionArrival id rank ⟨tag, op, typ, bytes⟩ => (inSteps s id rank).bind (fun k =>
    if k.op != 1 || k.rank != 0 || k.got.contains rank then none
    else if tag != k.ctag || op != k.op || typ != k.typ || bytes.length != k.block then some (fun t => collHas t id (fun x => x.failed == some 0x42))
    else
      let sum := sumBytes k.typ k.count k.acc bytes
      if k.got.length + 2 < k.members then some (fun t => collHas t id (fun x => x.acc == sum && x.got == k.got ++ [rank] && x.out.isEmpty))
      else
        match collSpan s id k Need.store k.d k.block with
        | (.ready ps, _) => some (fun t => elementsSent t k ps sum
            && collHas t id (fun x => x.acc == sum && x.got == k.got ++ [rank] && x.out == k.others.map (fun r => (r, k.retries, s.clk))))
        | (.failed c, _) => some (fun t => collHas t id (fun x => x.failed == some c.code))
        | (.wait, _) => some (fun t => collHas t id (fun x => x.tag.isSome && x.got == k.got)))
  | .collStepTimeout id ⟨rank, why⟩ => (inSteps s id rank).bind (fun k =>
    match why, k.out.find? (fun x => x.1 == rank) with
    | .gone, step =>
      if step.isSome || (!k.got.contains rank && (k.op != 1 || k.rank == 0 || rank == 0)) then
        some (fun t => collHas t id (fun x => x.failed == some 0x43))
      else none
    | _, none => none
    | w, some (_, tries, since) =>
      if w == .late && decide (s.clk < since + k.timeout) then none
      else if tries = 0 then some (fun t => collHas t id (fun x => x.failed == some 0x41))
      else some (fun t => collHas t id (fun x => x.failed.isNone && x.out.contains (rank, tries - 1, s.clk))))
  | .collComplete id => (s.colls.get? id).bind (fun k =>
    if k.tag.isSome || !k.accepted || k.done || !(k.complete || k.failed.isSome) then none
    else if !k.settled then some (fun t => memKept s t 0 0 && collHas t id (fun x => x.scrambled && x.writes.take k.writes.length == k.writes))
    else if !allPerformed s k.die k.scope (liveOf s (k.writes ++ k.obs)) || !wordMapped s k.die k.pasid k.word then none
    else some (fun t => (if hasRange s id then collHas t id (·.done) else (t.colls.get? id).isNone)
      && t.accs.any (fun a => a.kind == .store && a.gid.isNone && a.va == k.word && a.size == 8
        && a.ord == .release && a.scope == k.scope && a.data == (match k.failed with
          | some c => wordFail c.toNat k.seq
          | none => wordOk k.seq))))
  | _ => none

/-! ### Experts (R263 to R277) -/

/-- An expert request alone at its entry: directory, entry, number, header and entry as they stand. -/
def atEntry (s : State) (ids : List Nat) : Option (Acc × DirHeader × DirEntry) :=
  match ids with
  | [n] => (s.acc? n).bind (fun a =>
    if isExpert a && readyAt s [n] a && a.size == 64 && a.pa == a.data2 + 64 * (a.expert + 1) && noReader s a.pa 64 && noReader s (a.data2 + 40) 8
        && plain a.pa 64 && plain a.data2 64 && (servingDie a.data2).isSome then
      some (a, readHeader s a.data2, readEntry s a.pa)
    else none)
  | _ => none

/-- The result word of R272 and the ok bit return. -/
def returnsWord (t : State) (a : Acc) (poolva pooloff status : Nat) (ok : Bool) : Bool :=
  let x := status * 2 ^ 61 + if status = 0 then (poolva + pooloff) % 2 ^ 57 else 0
  (t.acc? a.id).isNone && returned t a x && a.tok.elim true (fun k => (t.toks.get? k).elim true (fun r => r.oks.get? a.lane == some ok))

/-- XFETCH, XPIN, XUNPIN and XSTAT at the entry of their expert (R272, R274 to R276). -/
def entryClaim (i : Instr) (s : State) : Option (State → Bool) :=
  match i with
  | .class5RequestApply ids => (atEntry s ids).bind (fun (a, h, n) =>
    let word (t : State) (status : Nat) (ok : Bool) : Bool := returnsWord t a h.poolva n.pooloff status ok
    let pins (t : State) (x : Nat) : Bool := wrote s t (a.pa + 28) 4 x
    let same (t : State) : Bool := memKept s t 0 0
    let q := (s.die ((servingDie a.data2).getD 0)).fetchQ
    match a.kind with
    | .xfetch pin =>
      if n.state = 0 then
        some (if !pin then (fun t => word t 0 true && same t)
              else if n.pins < 2 ^ 32 - 1 then (fun t => word t 0 true && pins t (n.pins + 1))
              else (fun t => word t 3 false && same t))
      else if n.state = 1 then some (fun t => word t 1 false && same t)
      else if !registered s a.data2 || n.size == 0 || n.size % 128 != 0 || decide (h.poolsize < n.size) || decide (256 ≤ q.length) then
        some (fun t => word t 3 false && same t)
      else some (fun t => word t (if n.state = 2 then 2 else 4) false && readNat t a.pa 1 == 1
        && readNat t (a.data2 + 40) 8 == (h.fetches + 1) % 2 ^ 64
        && (t.die ((servingDie a.data2).getD 0)).fetchQ == q ++ [⟨a.data2, a.expert, 0, []⟩])
    | .xpin =>
      let ok := decide (n.pins < 2 ^ 32 - 1)
      some (fun t => word t n.state ok && (if ok then pins t (n.pins + 1) else same t))
    | .xunpin =>
      let ok := n.pins != 0
      some (fun t => word t n.state ok && (if ok then pins t (n.pins - 1) else same t))
    | .xstat sel =>
      let now := (s.die ((servingDie a.data2).getD 0)).time
      let x := match sel with
        | 0 => n.state * 2 ^ 61 + if n.state = 0 then (h.poolva + n.pooloff) % 2 ^ 57 else 0
        | 1 => n.count / 2 ^ ((now - n.base) / 2 ^ h.h)
        | 2 => n.count
        | 3 => n.last
        | 4 => n.pins
        | 5 => h.resident
        | _ => q.length
      some (fun t => returned t a x && same t)
    | _ => none)
  | _ => none

/-- An entry and its header are waited for: every other die that may hold their lines has been sent a probe (R163, R321). -/
def entryProbed (s t : State) (header pa : Nat) : Bool := probed s t header 64 && probed s t pa 64 && memKept s t 0 0

/-- XCNT_APPLY, FETCH_QUEUE_SERVE, EXPERT_FETCH_COMPLETE and EXPERT_FETCH_FAIL (R266 to R269). -/
def expertEventClaim (i : Instr) (s : State) : Option (State → Bool) :=
  match i with
  | .xcntApply ids =>
    let all := ids.filterMap s.acc?
    match all with
    | [] => none
    | a :: _ =>
      if all.length != ids.length || ids.eraseDups != ids || !all.all (fun b => b.kind == .xcnt && b.pa == a.pa) then none
      else if !all.all (readyAt s ids) then
        if all.all (fun b => b.stage == .arrived || b.stage == .queued) then some (fun t => probed s t a.pa a.size && memKept s t 0 0)
        else none
      else if !plain a.pa 64 then none
      else
        let n := readEntry s a.pa
        let h := (readHeader s a.data2).h
        let now := dirTime s a.data2
        let k := (now - n.base) / 2 ^ h
        let inc := min (2 ^ 64 - 1) ((all.map (·.data)).sum)
        some (fun t => all.all (fun b => (t.acc? b.id).isNone) && memKept s t (a.pa + 32) 24
          && readNat t (a.pa + 32) 8 == min (n.count / 2 ^ k + inc) (2 ^ 64 - 1) && readNat t (a.pa + 40) 8 == (n.base + k * 2 ^ h) % 2 ^ 64
          && readNat t (a.pa + 48) 8 == now % 2 ^ 64)
  | .fetchQueueServe d =>
    match (s.die d).fetchQ with
    | [] => none
    | f :: rest =>
      let pa := entryPa f.header f.e
      if decide (4 ≤ d) || !(s.die d).awake || (s.die d).dirs.any (·.broken) || decide (2 ≤ (s.die d).fetching.length) || !plain f.header 64
          || !plain pa 64 then none
      else if !entryFree s d f.header f.e then some (fun t => entryProbed s t f.header pa)
      else
        let h := readHeader s f.header
        let n := blocksFor (readEntry s pa).size
        let used := occupied s d f.header
        match freeRun (h.poolsize / 65536) n used with
        | some r => some (fun t => readNat t (pa + 8) 8 == (r * 65536) % 2 ^ 64 && readNat t (f.header + 32) 8 == (h.resident + 65536 * n) % 2 ^ 64
            && (t.die d).fetchQ == rest && (t.die d).fetching == (s.die d).fetching ++ [f])
        | none =>
          let out := evictable s f.header
          if (freeRun (h.poolsize / 65536) n (used.filter (fun u => !out.contains u.1))).isNone then none
          else (leastBy (fun e => decayed h.h (dirTime s f.header) (readEntry s (entryPa f.header e))) out).bind (fun e =>
            if !entryFree s d f.header e then some (fun t => entryProbed s t f.header (entryPa f.header e))
            else if plain (entryPa f.header e) 64 then
              some (fun t => readNat t (entryPa f.header e) 1 == 2 && readNat t (f.header + 48) 8 == (h.evictions + 1) % 2 ^ 64)
            else none)
  | .expertFetchComplete d n => ((s.die d).fetching[n]?).bind (fun f =>
    let pa := entryPa f.header f.e
    let x := readEntry s pa
    let dst := (readHeader s f.header).poolpa + x.pooloff
    let pieces := segmentPieces f x
    let known (p : Nat × Nat) : Bool := sourcesKnown s (backingLoad s d x p) && !heldAtHome s (backingLoad s d x p)
    if (backingFault s f x).isSome || !(s.die d).awake || !plain pa 64 then none
    else if f.pos < x.size then
      if x.kind = 0 && !pieces.all known then none
      else some (fun t => memKept s t 0 0 && ((t.die d).fetching[n]?).any (fun g =>
          g.header == f.header && g.e == f.e && g.pos == f.pos + min 4096 (x.size - f.pos) && g.writes.length == f.writes.length + pieces.length)
        && pieces.all (fun p => t.accs.any (fun a => a.kind == .store && a.pa == dst + p.1 && a.size == p.2 && a.data2 == 1 && decide (s.nextId ≤ a.id)))
        && (x.kind != 0 || (pieces.head?).all (fun p => t.accs.any (fun a => a.kind == .store && a.pa == dst + p.1
            && a.data == loadNat s (backingLoad s d x p)))))
    else if !f.landed s then none
    else if !entryFree s d f.header f.e then some (fun t => entryProbed s t f.header pa)
    else some (fun t => readNat t pa 1 == 0 && memKept s t pa 1 && (t.die d).fetching == (s.die d).fetching.eraseIdx n))
  | .expertFetchFail d n lost => ((s.die d).fetching[n]?).bind (fun f =>
    let pa := entryPa f.header f.e
    let x := readEntry s pa
    let code : Option Nat := if x.kind != 0 then (if lost && decide (f.pos < x.size) then some 0x41 else none)
      else (backingFault s f x).map (·.code.toNat)
    if !plain pa 64 || !f.landed s then none
    else if !entryFree s d f.header f.e then code.map (fun _ t => entryProbed s t f.header pa)
    else code.map (fun k t => readNat t pa 1 == 4 && readNat t (pa + 1) 1 == k % 256 && (t.die d).fetching == (s.die d).fetching.eraseIdx n
      && (t.die d).events.any (fun e => e.code == 0x0008 && e.unit == 3 && e.data0 == BitVec.ofNat 64 f.header
        && e.data1 == BitVec.ofNat 64 (f.e + k * 2 ^ 32))))
  | _ => none

/-! ### The management unit and the host (R376 to R391) -/

/-- Commands that stand in the ring. -/
def pending (s : State) : Nat := (s.mgmt.cmdProd - s.mgmt.cmdCons).toNat

/-- The head command has been accepted; its completion word, if it names one that can be written, is on its way as a release at
host scope (R378, R231). -/
def answered (s : State) (code : Option (BitVec 8)) (t : State) : Bool :=
  let word := readNat s (headAddr s + 8) 8
  let seq := readNat s (headAddr s + 16) 8
  decide (pending t < pending s) && (word == 0 || !wordUsable word || t.accs.any (fun a => a.kind == .store && a.gid.isNone && a.pa == word
    && a.size == 8 && a.ord == .release && a.scope == 9 && a.data == (match code with
      | some c => wordFail c.toNat seq
      | none => wordOk seq)))

/-- A command of a code at the head: with an operand outside its limits, a reserved byte that is not 0 or a completion word that
cannot be written it fails with OPERAND_BOUNDS and has no other effect on `same` (R378); else it does what `effect` says. -/
def commanded (s : State) (code : Nat) (ok : Bool) (effect : Option (State → Bool)) : Option (State → Bool) :=
  if headCode s ≠ some code then none
  else if !ok || readNat s (headAddr s + 1) 7 != 0 || !wordUsable (readNat s (headAddr s + 8) 8) then
    some (fun t => answered s (some 0x07) t && t.mem == s.mem && t.queues == s.queues && t.spaces == s.spaces && t.tlb == s.tlb
      && t.faultq == s.faultq && t.bias == s.bias && t.dies == s.dies && t.bents == s.bents && t.blocks == s.blocks)
  else effect

/-- A command that is done, and what holds then. -/
def doneWith (s : State) (e : State → Bool) : Option (State → Bool) := some (fun t => answered s none t && e t)

/-- A command reads a word as an agent of die 0 (log 17): while a claim, a change of bias or a sleeping home holds it, nothing happens. -/
def withWord (s : State) (pa : Nat) (e : Option (State → Bool)) : Option (State → Bool) :=
  if agentReads s 0 pa 4 then e else some (fun t => t == s)

/-- QUEUE, SPACE, INVAL, FAULTQ, EVLOG, SELFTEST, ARM, PEER and ATTEST (R156, R295, R300, R301, R381, R382, R385, R388, R390). -/
def settingClaim (i : Instr) (s : State) : Option (State → Bool) :=
  match i with
  | .queue q ring log2 device prod cons => commanded s 0x01 (decide (q < 64 ∧ 4 ≤ log2 ∧ log2 ≤ 16)) (withWord s cons.toNat <| doneWith s (fun t =>
      (t.queues.get? q).any (fun k => k.ring == ring.toNat && k.log2 == log2 && k.device == device && k.prod == prod.toNat && k.cons == cons.toNat
        && k.configured && k.read == readNat s cons.toNat 4 && k.posted == (s.lqueue q).posted)))
  | .space pasid s1 s2 => commanded s 0x02 true (doneWith s (fun t => t.spaces.get? pasid.toNat == some ⟨s1.toNat, s2.toNat⟩
      && s.spaces.all (fun p => p.1 == pasid.toNat || (t.spaces.get? p.1) == s.spaces.get? p.1)))
  | .inval pasid va log2 => commanded s 0x03 (decide (16 ≤ log2 ∧ log2 ≤ 57)) (doneWith s (fun t =>
      let gone (x : Tlb) : Bool := x.pasid == pasid.toNat && x.va * 65536 / 2 ^ log2 == va.toNat / 2 ^ log2
      t.tlb.all (fun x => !gone x) && s.tlb.all (fun x => gone x || t.tlb.contains x)))
  | .faultq ring log2 prod cons => commanded s 0x04 (decide (4 ≤ log2 ∧ log2 ≤ 16)) (withWord s prod.toNat <| doneWith s (fun t =>
      let n := readNat s prod.toNat 4
      t.faultq == some ⟨ring.toNat, log2, prod.toNat, cons.toNat⟩ && (match s.faults.find? (fun f => !f.posted) with
        | none => t.faultProd == n && t.mem == s.mem
        | some f => decide (2 ^ log2 ≤ (n + 2 ^ 32 - readNat s cons.toNat 4) % 2 ^ 32) || !agentReads s 0 cons.toNat 4
            || !agentWrites s 0 (ring.toNat + 32 * (n % 2 ^ log2)) 32 || !agentWrites s 0 prod.toNat 4
            || t.faults.all (fun x => x.tag != f.tag || x.posted))))
  | .evlog die ring log2 prod cons => commanded s 0x09 (decide (die < 4 ∧ 4 ≤ log2 ∧ log2 ≤ 20)) (withWord s prod.toNat <| doneWith s (fun t =>
      (t.die die).log == some ⟨ring.toNat, log2, prod.toNat, cons.toNat⟩ && (t.die die).logProd == readNat s prod.toNat 4
        && (t.die die).events == (s.die die).events))
  | .selftest ms => commanded s 0x0D (decide (ms = 0 ∨ 100 ≤ ms ∧ ms ≤ 3600000)) (doneWith s (fun t => t.mgmt.selftestMs == ms
      && (List.range 64).all (fun b => (t.bent b).last == (s.die (b / 16)).time && (t.bent b).withdrawn == (s.bent b).withdrawn)))
  | .arm mask => commanded s 0x0E (!mask.getLsbD 0) (doneWith s (fun t => (List.range 4).all (fun d => (t.die d).armed == mask)))
  | .peer number aperture base size =>
    commanded s 0x0F (size == 0 || (decide (aperture < 16 ∧ 2 ^ 48 ≤ base.toNat ∧ base.toNat + size.toNat ≤ 2 ^ 52))) (doneWith s (fun t =>
      if size = 0 then t.mgmt.peer == number && t.mgmt.apertures == s.mgmt.apertures
      else t.mgmt.peer == s.mgmt.peer && t.mgmt.apertures.get? aperture == some (number.toNat, base.toNat, size.toNat)))
  | .attest nonce report => commanded s 0x10 (inMemory nonce.toNat 32 && inMemory report.toNat 1) (
      let bytes := attestReport s (readBytes s nonce.toNat 32)
      if !agentReads s 0 nonce.toNat 32 then some (fun t => t == s)
      else some (fun t =>
        if agentWrites s 0 report.toNat bytes.length then
          answered s none t && (!plain report.toNat bytes.length || readBytes t report.toNat bytes.length == bytes)
        else probed s t report.toNat bytes.length && memKept s t 0 0))
  | _ => none

/-- A group that one fault record stopped, alone on its tag, and whose failure its handler takes. -/
def loneFault (s : State) (tag gid : Nat) (g : Group) (d : Desched) (b : Block) : Bool :=
  d.tag == tag && b.levels.isEmpty && !g.handler && g.tvec != 0 && !isPrimary s gid g && !isShadow s gid g && g.tasks.isEmpty && s.faults.all (·.posted) && (g.splits.get? d.split).isSome
    && s.groups.all (fun p => p.1 == gid || p.2.desched.all (fun x => x.tag != tag)) && s.cmds.all (fun p => p.2.tag != some tag)
    && s.colls.all (fun p => p.2.tag != some tag) && (s.groups.filter (fun p => p.1 == gid)).length == 1

/-- ANSWER (R157, R382): the record is answered; what waits on it goes on, or its group takes PAGE_FAULT at the address. -/
def answerClaim (i : Instr) (s : State) : Option (State → Bool) :=
  match i with
  | .answer tag fail =>
    let tag := tag.toNat
    commanded s 0x05 (s.faults.any (fun f => f.tag == tag && f.posted)) (
      if !fail then doneWith s (fun t => t.faults.all (fun f => f.tag != tag)
        && s.groups.all (fun p => (t.groups.get? p.1).all (fun g => g.desched.all (fun d => d.tag != tag)))
        && s.cmds.all (fun p => (t.cmds.get? p.1).all (fun k => k.tag != some tag))
        && s.colls.all (fun p => (t.colls.get? p.1).all (fun k => k.tag != some tag))
        && t.launches.all (fun p => p.2.tag != some tag))
      else (s.groups.find? (fun p => p.2.desched.any (fun d => d.tag == tag))).bind (fun p => (s.blocks.get? p.2.blk).bind (fun b => p.2.desched.bind (fun d =>
        if loneFault s tag p.1 p.2 d b then
          doneWith s (fun t => (t.groups.get? p.1).any (fun g => g.handler && !g.causeEngine && g.cause == Cause.pageFault.code && g.desched.isNone
            && g.eval == BitVec.ofNat 64 d.va && some g.epc == pcIn s p.1 d.split) && pcIn t p.1 d.split == some p.2.tvec)
        else none))))
  | _ => none

/-- BIAS, to host and to device (R384). -/
def biasClaim (i : Instr) (s : State) : Option (State → Bool) :=
  match i with
  | .biasToHost pa =>
    let page := pa.toNat / 65536
    match s.mgmt.job with
    | some (.bias j, word, seq) =>
      if j.page == page && pageQuiet s page then
        some (fun t => t.bias.get? page == some true && t.mgmt.job.isNone && (word == 0 || !wordUsable word || t.accs.any (fun a => a.kind == .store
          && a.gid.isNone && a.pa == word && a.size == 8 && a.data == wordOk seq && a.ord == .release && a.scope == 9)))
      else none
    | some _ => none
    | none => commanded s 0x06 (pa.toNat % 65536 == 0 && isDevice pa.toNat) (
        if pageInUse s page then some (fun t => answered s (some 0x06) t && t.bias == s.bias)
        else if hostBias s pa.toNat then doneWith s (fun t => t.bias == s.bias)
        else if pageHeld s page then none
        else some (fun t => (t.mgmt.job.map (·.1)) == some (.bias ⟨page⟩) && t.bias == s.bias && t.mgmt.cmdCons == s.mgmt.cmdCons + 1))
  | .biasToDevice pa =>
    let page := pa.toNat / 65536
    commanded s 0x06 (pa.toNat % 65536 == 0 && isDevice pa.toNat) (
      if pageInUse s page then some (fun t => answered s (some 0x06) t && t.bias == s.bias)
      else if pageHeld s page then none
      else doneWith s (fun t => (t.bias.get? page).isNone))
  | _ => none

/-- EXPREG and EXPWD (R265, R278, R379). -/
def directoryClaim (i : Instr) (s : State) : Option (State → Bool) :=
  match i with
  | .expreg pa =>
    commanded s 0x07 true (match expregFails s pa.toNat, servingDie pa.toNat with
      | some c, _ => some (fun t => answered s (some c) t && t.dies == s.dies && t.mem == s.mem)
      | none, some d =>
        if !fieldFree s d pa.toNat then some (fun t => probed s t pa.toNat 64 && memKept s t 0 0)
        else doneWith s (fun t => (t.die d).dirs == (s.die d).dirs ++ [⟨pa.toNat, false, []⟩]
          && (!noReader s (pa.toNat + 32) 24 || wrote s t (pa.toNat + 32) 24 0))
      | none, none => none)
  | .expwd pa =>
    let header := pa.toNat
    let d := (servingDie header).getD 0
    let runs := (s.die d).fetching.any (fun f => f.header == header)
    match s.mgmt.job with
    | some (.expwd e h, _, _) =>
      if h == header && !(s.die e).fetching.any (fun f => f.header == header) && queuedFree s e header then
        some (fun t => t.mgmt.job.isNone && (t.die e).fetchQ == (s.die e).fetchQ.filter (fun f => f.header != header) && (t.die e).dirs == (s.die e).dirs.filter (fun x => x.header != header))
      else none
    | some _ => none
    | none => commanded s 0x08 true (
        if !registered s header then some (fun t => answered s (some 0x06) t && t.dies == s.dies)
        else if !(s.die d).dirs.any (fun x => x.header == header) then none
        else if !queuedFree s d header then
          some (fun t => (queuedEntries s d header).all (fun x => probed s t x 64) && memKept s t 0 0)
        else
          let dropped (t : State) : Bool := (t.die d).fetchQ == (s.die d).fetchQ.filter (fun f => f.header != header)
          if runs then some (fun t => dropped t && (t.mgmt.job.map (·.1)) == some (.expwd d header) && (t.die d).dirs == (s.die d).dirs)
          else doneWith s (fun t => dropped t && (t.die d).dirs == (s.die d).dirs.filter (fun x => x.header != header)))
  | _ => none

/-- SLEEP (R19, R296). -/
def sleepClaim (i : Instr) (s : State) : Option (State → Bool) :=
  match i with
  | .sleepEnter die =>
    commanded s 0x0C (decide (die < 4)) (
      if !(s.die die).awake then doneWith s (fun t => !(t.die die).awake)
      else if s.blocks.any (fun p => !p.2.sealed && dieOfCore p.2.core == die) || s.tasks.any (fun t => t.2.die == die && t.2.state != .transit) then
        some (fun t => answered s (some (BitVec.ofNat 8 s.free.1)) t && (t.die die).awake)
      else if s.accs.any (fun a => a.stage == .arrived) then none
      else doneWith s (fun t => !(t.die die).awake && (t.die die).time == (s.die die).time
        && t.cores.all (fun p => dieOfCore p.1 != die || p.2.l1.isEmpty)
        -- die 0 may write the completion word to host memory through its bridge
        && (die == 0 || t.proxies.all (fun p => p.1 % 4 != die || (p.2.state == .i && !p.2.owesAck && p.2.probes.isEmpty))
              && t.hostHalves.all (fun p => p.1 / 8 % 4 != die))))
  | .sleepWake die =>
    commanded s 0x0C (decide (die < 4)) (doneWith s (fun t => (t.die die).awake
      && (if (s.die die).awake then t.dies == s.dies else s.dies.all (fun p => decide (p.2.time ≤ (t.die die).time))
        && s.dies.any (fun p => p.2.time == (t.die die).time))))
  | _ => none

/-- CMDPROD and the other registers of BAR0 (R377, R391): a write of CMDPROD is a release at host scope, which waits for the host's
earlier writes; any other register or offset keeps its value. -/
def bar0Claim (i : Instr) (s : State) : Option (State → Bool) :=
  let known (p c : BitVec 32) : Bool := p == c || decide (1 ≤ readNat s (s.mgmt.cmdBase.toNat + 64 * (c.toNat % 2 ^ (s.mgmt.cmdSize.toNat + 4))) 1)
    && decide (readNat s (s.mgmt.cmdBase.toNat + 64 * (c.toNat % 2 ^ (s.mgmt.cmdSize.toNat + 4))) 1 ≤ 0x10)
  match i with
  | .cmdprodWrite prod =>
    if s.mgmt.recovery || hostWritesLeft s then some (fun t => t == s)
    else if known prod s.mgmt.cmdCons then some (fun t => t == { s with mgmt := { s.mgmt with cmdProd := prod } })
    else none
  | .bar0RegisterWrite off val =>
    if s.mgmt.recovery then some (fun t => t == s)
    else if off == 0x700000 then some (fun t => t == { s with mgmt := { s.mgmt with cmdBase := val &&& 0x000FFFFFFFFFF000 } })
    else if off == 0x700008 then
      some (fun t => t == if s.mgmt.cmdProd = s.mgmt.cmdCons then { s with mgmt := { s.mgmt with cmdSize := val.setWidth 4 } } else s)
    else if off == 0x700010 then
      if hostWritesLeft s then some (fun t => t == s)
      else if known (val.setWidth 32) s.mgmt.cmdCons then some (fun t => t == { s with mgmt := { s.mgmt with cmdProd := val.setWidth 32 } })
      else none
    else if off == 0x700020 then some (fun t => t == { s with mgmt := { s.mgmt with powerLimit :=
      if 1200 ≤ val.toNat ∧ val.toNat ≤ 2600 then val.toNat else s.mgmt.powerLimit } })
    else some (fun t => t == s)
  | _ => none

/-- A write from outside is on its way to memory as from no core. -/
def outsideSent (t : State) (pa : Nat) (bytes : List Byte) : Bool :=
  t.accs.any (fun a => a.kind == .store && a.gid.isNone && a.core.isNone && a.pa == pa && a.size == bytes.length && a.data == ofLe bytes)

/-- Accesses of the host and of peers (R219, R376, R383, R388). -/
def outsideClaim (i : Instr) (s : State) : Option (State → Bool) :=
  match i with
  | .hostCxlMemAccess write pa bytes =>
    if !write then some (fun t => t == s)
    else if bytes.isEmpty || decide (64 < pa % 64 + bytes.length) || biasFrozen s pa || (postsRecords s pa bytes.length && hostWritesLeft s) then none
    else if isDevice pa && !hostBias s pa then some (fun t => outsideSent t pa bytes && memKept s t 0 0)
    else if homedAtHost s pa && !peerMemory s pa && (List.range 4).all (fun d => hostHalf s d (pa / 128) (pa % 128 / 64) == .i) && noReader s pa bytes.length
        && plain pa bytes.length then
      some (fun t => readBytes t pa bytes.length == bytes && memKept s t pa bytes.length)
    else none
  | .peerAccessArrival write pa bytes =>
    if !write then some (fun t => t == s)
    else if isDevice pa && !bytes.isEmpty && decide (pa % 128 + bytes.length ≤ 128) && !biasFrozen s pa then
      some (fun t => outsideSent t pa bytes && memKept s t 0 0)
    else none
  | .linkLevelRetry _ => some (fun t => t == s)
  | _ => none

/-! ### Pre-emption, images and checkpoints (R288, R291 to R294, R303) -/

/-- The stop that a block keeps when pre-emption is asked for: a HALT's, a checkpoint's, else this one (R288, R303). -/
def stopAfter (old : Option StopKind) (new : StopKind) : Option StopKind :=
  match old with
  | some (.halt c) => some (.halt c)
  | some .checkpoint => some .checkpoint
  | _ => some new

/-- A block that was resident has been told to stop, and its groups stop at their boundaries but for open windows and shadows. -/
def toldToStop (s t : State) (blk : Nat) (kind : Block → Option StopKind) : Bool :=
  (s.blocks.get? blk).elim true (fun b => b.sealed || b.terminated.isSome || (blockHas t blk (fun x => x.stop == kind b)
    && t.groups.all (fun q => q.2.blk != blk || q.2.npe.isSome || isShadow t q.1 q.2 || q.2.stopped)))

/-- PREEMPTION, SELFTEST_DUE, SELFTEST_COMPLETE and THERMAL_LIMIT (R288, R295, R391). -/
def stopClaim (i : Instr) (s : State) : Option (State → Bool) :=
  match i with
  | .preemption blks => some (fun t => blks.all (fun k => toldToStop s t k (fun b => stopAfter b.stop .preempt)) && t.mem == s.mem)
  | .selftestDue bent =>
    let b := s.bent bent
    let d := s.die (bent / 16)
    some (fun t =>
      if s.mgmt.selftestMs == 0 || b.withdrawn || b.testing.isSome || !d.awake || decide (d.time < b.last + s.mgmt.selftestMs * 1400000) then t == s
      else (t.bent bent).testing == some d.time
        && s.blocks.all (fun p => bentOfCore p.2.core != bent || (s.blocks.get? p.1) != some p.2 || toldToStop s t p.1 (fun b => stopAfter b.stop .selftest)))
  | .selftestComplete bent pass =>
    if (s.bent bent).testing.isNone || s.blocks.any (fun p => !p.2.sealed && bentOfCore p.2.core == bent) then some (fun t => t == s)
    else some (fun t => (t.bent bent).testing.isNone && (t.bent bent).withdrawn == ((s.bent bent).withdrawn || !pass)
      && (t.die (bent / 16)).events == (s.die (bent / 16)).events ++ [⟨(s.die (bent / 16)).time, 0x000A, 6, 0xFF, BitVec.ofNat 64 (bent % 16), if pass then 0 else 1⟩])
  | .thermalLimit celsius => some (fun t =>
      t.mgmt.celsius == celsius && t.mgmt.throttled == decide (105 ≤ celsius)
        && t.mgmt.placing == (decide (celsius < 95) || (decide (celsius < 115) && s.mgmt.placing))
        && (decide (celsius < 115) || s.blocks.all (fun p => (s.blocks.get? p.1) != some p.2 || toldToStop s t p.1 (fun b => stopAfter b.stop .thermal))))
  | _ => none

/-- An image holds the bytes of a scratchpad. -/
def savedBytes (s : State) (m : Image) (lo n : Nat) : Bool :=
  !Memory.wf s.mem || s.mem.all (fun p => decide (p.1 < lo) || decide (lo + n ≤ p.1) || m.bytes.get? (p.1 - lo) == some p.2)

/-- The checkpoint under way counts an image of this number. -/
def jobImages (s : State) (num : Nat) : Bool :=
  match s.mgmt.job with
  | some (.checkpt _ _ _ _ nums _, _, _) => nums.contains num
  | _ => false

/-- A HALT is stopping the block (R303). -/
def halting (b : Block) : Bool :=
  match b.stop with
  | some (.halt _) => true
  | _ => false

/-- IMAGE_SEAL, CHECKPT, RESUME and BLOCK_RESUME (R288, R291 to R294, R303, R370). -/
def imageClaim (i : Instr) (s : State) : Option (State → Bool) :=
  let back (t : State) (blk core slot : Nat) : Bool := blockHas t blk (fun b => b.core == core && b.firstSlot == slot && !b.sealed && b.stop.isNone)
  match i with
  | .imageSeal blk => (s.blocks.get? blk).bind (fun b => b.stop.bind (fun k => (s.launchOf b).bind (fun l =>
    let joins := (jobGen s b.launch).isSome
    let gen := (jobGen s b.launch).getD ((l.gen + 1) % 2 ^ 32)
    if b.sealed || b.terminated.isSome || (takeFails s blk).isSome || !blockQuiet s blk b || jobImages s s.nextId then none
    else some (fun t =>
      blockHas t blk (fun x => x.sealed && x.core == 256) && t.groups.all (fun p => p.2.blk != blk) && t.cmds.all (fun p => p.2.blk != blk)
        && t.images.any (fun m => m.blk == blk && m.launch == b.launch && s.groups.all (fun p => p.2.blk != blk || (m.groups.get? (slotOf p.1 - b.firstSlot)).isSome)
          && savedBytes s m (scratchAddr b.core b.scratchBase) (min l.padBytes (2 ^ 22)))
        && (match k with
          | .halt _ => (t.launches.get? b.launch).any (fun x => x.halted && x.checkpointed && x.gen == gen)
            && (joins || (t.die (dieOfCore b.core)).events.contains ⟨(s.die (dieOfCore b.core)).time, 0x0009, 5, 0xFF, l.ident, BitVec.ofNat 64 gen⟩)
          | _ => true)))))
  | .checkpt launch area bytes =>
    let finished (id gen : Nat) (ident : Dword) (t : State) : Bool :=
      t.mgmt.job.isNone && (t.launches.get? id).any (fun x => x.gen == gen && x.checkpointed)
        && (t.die (awakeDie s)).events.contains ⟨(s.die (awakeDie s)).time, 0x0009, 5, 0xFF, ident, BitVec.ofNat 64 gen⟩
    match s.mgmt.job with
    | some (.checkpt id area bytes gen nums at_, _, _) => (s.launches.get? id).bind (fun l =>
      let is := s.images.filter (fun i => nums.contains i.num)
      let places := (imageWrites area is).map (fun w => (w.1, w.2.length)) ++ [(at_ + 56, 8)]
      if s.blocks.any (fun p => p.2.launch == id && !p.2.sealed && (p.2.stop == some .checkpoint || halting p.2))
        || decide (bytes < (is.map (·.all.length)).sum) then none
      else if !places.all (fun w => agentWrites s 0 w.1 w.2) then
        some (fun t => t.mgmt == s.mgmt && places.all (fun w => probed s t w.1 w.2) && memKept s t 0 0)
      else some (fun t => finished id gen l.ident t && (!plain (at_ + 56) 8 || !noReader s (at_ + 56) 8 || readNat t (at_ + 56) 8 == gen % 2 ^ 64)))
    | some _ => some (fun t => t == s)
    | none => commanded s 0x0A ((launchNamed s launch).isSome && inMemory area.toNat bytes.toNat) ((launchNamed s launch).bind (fun (id, l) =>
        let mine := s.blocks.filter (fun p => p.2.launch == id && !p.2.sealed && p.2.terminated.isNone)
        let gen := (l.gen + 1) % 2 ^ 32
        let ending := s.blocks.any (fun p => p.2.launch == id && !p.2.sealed && p.2.terminated.isSome && (p.2.stop == some .checkpoint || halting p.2))
        if mine.any (fun p => (s.blocks.get? p.1) != some p.2) || (s.launches.get? id) != some l || ending then none
        else if mine.any (fun p => halting p.2) then some (fun t => t == s)
        else if mine.isEmpty then (if agentWrites s 0 (headAddr s + 56) 8 then doneWith s (finished id gen l.ident) else none)
        else some (fun t => mine.all (fun p => toldToStop s t p.1 (fun _ => some .checkpoint)) && t.mgmt.cmdCons == s.mgmt.cmdCons + 1
          && (match t.mgmt.job with
            | some (.checkpt n _ _ g _ _, _, _) => n == id && g == gen
            | _ => false))))
  | .resume launch area cores =>
    let refused (id : Option Nat) : Option (State → Bool) := some (fun t => answered s (some 0x52) t && t.blocks == s.blocks
      && id.all (fun n => !suspended s n || (t.launches.get? n).any (·.refused)))
    commanded s 0x0B true (
      match launchNamed s launch with
      | none => refused none
      | some (id, l) =>
        if !areaReads s id area.toNat then some (fun t => t == s) else
        match offered (acceptHead s) id area.toNat with
        | none => refused (some id)
        | some is =>
          if is.any (fun i => !l.takes i.gen || (s.blocks.get? i.blk).any (fun b => !b.sealed)) then refused (some id)
          else if is.length == cores.length && (is.map (·.blk)).eraseDups.length == is.length && (returnAll (acceptHead s) id (is.zip cores)).isSome then
            doneWith s (fun t => (is.zip cores).all (fun x => back t x.1.blk x.2.1 x.2.2) && (t.launches.get? id).any (fun x => x.refGen == (is.head?).map (·.gen)))
          else none)
  | .blockResume blk core slot => (s.blocks.get? blk).bind (fun b => ((s.images.filter (fun i => i.blk == blk && !i.checkpoint)).getLast?).bind (fun m =>
    (s.launchOf b).bind (fun l =>
      if awaitsReturn b && returnFits s m b l core slot then
        some (fun t => back t blk core slot && m.groups.all (fun p => (t.groups.get? (groupId core (slot + p.1))).any (fun g => g.age == s.clk)))
      else some (fun t => t == s))))
  | _ => none

/-! ### Watchdogs, event logs, snapshots, temperature and firmware (R289 to R302, R389, R391) -/

/-- An event record as it lies in memory (R298). -/
def recordAt (t : State) (a die : Nat) (e : Event) : Bool :=
  readNat t a 8 == e.time % 2 ^ 64 && readNat t (a + 8) 2 == e.code % 2 ^ 16 && readNat t (a + 10) 1 == die % 2 ^ 8 && readNat t (a + 11) 1 == e.index % 2 ^ 8
    && readNat t (a + 12) 1 == e.unit % 2 ^ 8 && readNat t (a + 13) 3 == 0 && readNat t (a + 16) 8 == e.data0.toNat && readNat t (a + 24) 8 == e.data1.toNat

/-- NPE_WATCHDOG_EXPIRY, EVENT_RECORD_WRITE, EXTERNAL_TRIGGER, SNAPSHOT_LATCH and POWER_REPORT. -/
def watchClaim (i : Instr) (s : State) : Option (State → Bool) :=
  match i with
  | .npeWatchdogExpiry gid => (s.groups.get? gid).bind (fun g =>
    let d := dieOfGroup gid
    match g.npe with
    | none => some (fun t => t == s)
    | some n =>
      if isShadow s gid g || decide ((s.die d).time < n + 8400) then some (fun t => t == s)
      else some (fun t => (t.groups.get? gid).any (fun x => x.npe.isNone && x.npeOver == some n
          && x.stopped == (g.stopped || (s.blockOf g).any (fun b => b.stop.isSome)))
        && (!isPrimary s gid g || (t.groups.get? (gid + 32)).all (·.npe.isNone))
        && (t.die d).events == (s.die d).events ++ [⟨(s.die d).time, 0x0005, 0, coreOfGroup gid % 64, (nextPc s gid g).setWidth 64, BitVec.ofNat 64 n⟩]))
  | .eventRecordWrite die =>
    let d := s.die die
    match settleCorrected d, d.log, d.events with
    | some k, _, _ => some (fun t => if d.awake then t.die die == k && t.mem == s.mem else t == s)
    | none, some r, e :: rest =>
      let a := r.base + 32 * (d.logProd % 2 ^ r.log2)
      if !d.awake || !agentReads s die r.cons 4 then some (fun t => t == s)
      else if decide (2 ^ r.log2 ≤ (d.logProd + 2 ^ 32 - readNat s r.cons 4) % 2 ^ 32) then
        some (fun t => (t.die die).events == rest && (t.die die).dropped == d.dropped + 1 && (t.die die).logProd == d.logProd && t.mem == s.mem)
      else if !agentWrites s die a 32 || !agentWrites s die r.prod 4 then
        some (fun t => probed s t a 32 && probed s t r.prod 4 && memKept s t 0 0 && t.die die == d)
      else if !noReader s a 32 || !noReader s r.prod 4 || !plain a 32 || !plain r.prod 4 || overlaps a 32 r.prod 4 then none
      else some (fun t => (t.die die).logProd == (d.logProd + 1) % 2 ^ 32 && readNat t r.prod 4 == (d.logProd + 1) % 2 ^ 32
        && memKeptBut s t (fun p => decide (a ≤ p ∧ p < a + 32 ∨ r.prod ≤ p ∧ p < r.prod + 4))
        && (if 0 < d.dropped then recordAt t a die ⟨d.time, 0x000D, 5, 0xFF, BitVec.ofNat 64 d.dropped, 0⟩ && (t.die die).events == d.events && (t.die die).dropped == 0
          else recordAt t a die e && (t.die die).events == rest))
    | _, _, _ => some (fun t => t == s)
  | .externalTrigger =>
    let now := (s.die 0).time
    if !(s.die 0).awake then some (fun t => t == s)
    else
      let live := s.triggers.filter (fun x => s.dies.any (fun p => p.2.awake && decide (p.2.time ≤ x.t)))
      let at_ := ((live.find? (fun x => decide (now < x.t))).map (·.t)).getD (now + 64)
      some (fun t => t.triggers == live ++ [⟨at_, true⟩] && (t.die 0).events == (s.die 0).events ++ [⟨now, 0x000B, 5, 0xFF, BitVec.ofNat 64 at_, 1⟩])
  | .snapshotLatch die unit index =>
    let d := s.die die
    let due := s.triggers.filter (fun t => t.t == d.time)
    let core := die * 64 + index
    let k := s.core core
    if due.isEmpty || !d.awake then some (fun t => t == s)
    else if unit = 0 then some (fun t =>
      if k.snapArm && !k.snapLatched && (k.snapExt || due.any (fun t => !t.external)) then
        (t.core core).snapLatched && (t.core core).snapT == BitVec.ofNat 64 d.time && (t.core core).snapI == BitVec.ofNat 64 k.issued
      else t == s)
    else if (unit == 1 || index == 0) && d.armed.getLsbD unit then some (fun t => (t.die die).latched.get? (unit * 256 + index) == some d.time)
    else some (fun t => t == s)
  | .powerReport watts celsius => some (fun t =>
      if (s.die 0).awake && (s.die 0).time % 1400000 == 0 then t == { s with mgmt := { s.mgmt with power := watts, celsius := celsius } } else t == s)
  | _ => none

/-- Firmware stages each of which the one before verifies (R389): the key is the fused one, the version is not rolled back, and the
RSA-4096 signature over the SHA-512 digest verifies (R25). -/
def verified (fs : List FwStage) : Bool :=
  !fs.isEmpty && fs.all (fun f => keyHash f.modulus == Config.fusedKeyHash && decide (Config.fusedRollback ≤ f.version)
    && signatureVerifies f.modulus f.sig (sha512 f.image))

/-- POWER_ON_RESET and FIRMWARE_UPLOAD (R6, R389). -/
def firmwareClaim (i : Instr) (s : State) : Option (State → Bool) :=
  let taken (m : Mgmt) (fs : List FwStage) : Mgmt :=
    { m with recovery := !verified fs, stages := if verified fs then fs.map (fun f => (stageDigest f.image, f.version)) else [] }
  match i with
  | .powerOnReset fs => some (fun t => { t with mgmt := Mgmt.reset, agenda := [], freeCtr := 0 } == State.reset && t.mgmt == taken Mgmt.reset fs)
  | .firmwareUpload fs => some (fun t => if s.mgmt.recovery then t == { s with mgmt := taken s.mgmt fs } else t == s)
  | _ => none

/-! ### Rollback, accept and conversations (R311 to R327, R333) -/

/-- The end marker of the failed alternate, as it is read once everything has been restored. -/
def markerAfter (s : State) (blk : Nat) (b : Block) (f : Failure) (l : Level) : Nat ⊕ Option (Cause × Dword) :=
  let v := (settleConvs (undoLevels (dropHeld (abandonWaits s blk) blk f.level) blk f.level b) blk f.level b f).2
  match v.launchOf b with
  | some la => (nextMarker v (dieOfCore b.core) la l.marker).1
  | none => .inr none

/-- A group stands at a PC as its recovery record says, and holds a failure's cause, value and PC. -/
def restarted (t : State) (r : RecoveryRecord) (pc : CodeAddr) (f : Failure) : Bool :=
  (t.groups.get? r.gid).elim true (fun g => g.splits.map (fun p => (p.2.pc, p.2.em)) == [(pc, r.em)] && g.s == r.s && g.cm == r.cm
    && g.fflags == r.fflags && g.frm == r.frm && g.tvec == r.tvec && g.xv == r.xv && g.gen == r.gen && !g.handler
    && g.causeEngine == f.engine && g.cause == f.code && g.eval == f.value && g.epc == f.pc)

/-- ROLLBACK_RESTORE, once nothing of the failed levels is under way (R314 to R317): claimed lines hold their prior values; the next
alternate starts, or the level above fails, or the outermost level is exhausted. -/
def rollbackClaim (i : Instr) (s : State) : Option (State → Bool) :=
  match i with
  | .rollbackRestore blk => (s.blocks.get? blk).bind (fun b => b.failing.bind (fun f => (b.levels[f.level - 1]?).bind (fun l =>
    let d := f.level
    if d == 0 || b.sealed || b.terminated.isSome || !rollbackReady (dropHeld (abandonWaits s blk) blk d) blk d b
        || (l.records.map (·.gid)).eraseDups.length != l.records.length then none
    else
      let m := markerAfter s blk b f l
      let restored (t : State) : Bool :=
        d != b.levels.length || l.conv.isSome || !(failedLocks s blk d b).isEmpty || !l.words.all (fun p => isWindow (p.1 * 4))
          || (l.lines.map (·.1)).eraseDups.length != l.lines.length
          || l.lines.all (fun p => isWindow (p.1 * 128) || p.2.old.length != 128 || !noReader s (p.1 * 128) 128
            || readBytes t (p.1 * 128) 128 == p.2.old.map (BitVec.ofNat 8))
      match m, decide (l.k < l.n) with
      | .inl off, true => some (fun t => restored t && l.records.all (fun r => restarted t r (l.marker + 3) f)
          && blockHas t blk (fun x => x.failing.isNone && x.levels.length == d && (x.levels.getLast?).any (fun y => y.k == l.k + 1 && y.n == l.n
            && y.limit == l.limit && y.clock == 0 && y.marker == pcPlus l.marker off && y.lines.isEmpty && y.regs.isEmpty && y.words.isEmpty
            && y.actions.isEmpty)))
      | m, _ =>
        let (code, value) : BitVec 8 × Dword := match m with
          | .inr (some x) => (x.1.code, x.2)
          | _ => (f.code, f.value)
        if 1 < d then some (fun t => blockHas t blk (fun x => x.levels.length == d - 1
          && x.failing == some { f with level := d - 1, code := code, value := value }))
        else if l.records.all (fun r => r.tvec != 0 && (s.groups.get? r.gid).elim true (fun g => g.tasks.isEmpty && g.blk == blk)) then
          some (fun t => blockHas t blk (fun x => x.failing.isNone && x.levels.isEmpty)
            && l.records.all (fun r => (t.groups.get? r.gid).elim true (fun g => isShadow t r.gid g || (g.handler && !g.causeEngine
              && g.cause == Cause.ensureExhausted.code && g.eval == code.setWidth 64 && g.epc == l.pc && pcIn t r.gid 0 == some r.tvec))))
        else none)))
  | _ => none

/-- LEVEL_CLOCK_LIMIT (R313, R316). -/
def clockClaim (i : Instr) (s : State) : Option (State → Bool) :=
  match i with
  | .levelClockLimit blk level => (s.blocks.get? blk).bind (fun b => if level = 0 then none else (b.levels[level - 1]?).bind (fun l =>
    if b.sealed || b.terminated.isSome || b.failing.isSome || decide (l.clock < l.limit) || (l.accepting && l.conv.isNone) then some (fun t => t == s)
    else some (fun t => blockHas t blk (fun x => x.failing.any (fun f => f.level == level && !f.engine && f.code == Cause.ensureLimit.code
        && f.value == BitVec.ofNat 64 l.limit))
      && t.groups.all (fun p => p.2.blk != blk || p.2.stopped))))
  | _ => none

/-- The completion word of a copy: its address may need an answer of the host first. -/
def isWord (a : Action) : Bool :=
  match a with
  | .word _ => true
  | _ => false

/-- A deferred action has taken place, or may from now on (R327). -/
def performed (s t : State) (a : Action) : Bool :=
  match a with
  | .unlock gid line => (s.groups.get? gid).isNone || t.accs.any (fun x => x.kind == .unlock && x.gid == some gid && x.pa == line * 128 && x.ord == .release)
  | .cdone id => (s.cmds.get? id).isNone || cmdHas t id (fun k => k.state == .queued && k.depth == 0)
  | .word id => (s.cmds.get? id).isNone || cmdHas t id (fun k => k.released && k.depth == 0)
  | .spawn _ target _ lanes => lanes.all (fun x => t.tasks.any (fun k => k.2.state == .transit && k.2.ts == x.2.1 && k.2.pc == target && k.2.v == x.2.2.2))
  | _ => true

/-- ACCEPT_COMMIT (R311, R321, R327). -/
def acceptCommitClaim (i : Instr) (s : State) : Option (State → Bool) :=
  match i with
  | .acceptCommit blk => (s.blocks.get? blk).bind (fun b =>
    match b.levels with
    | [l] =>
      if !l.accepting || l.conv.isSome || b.failing.isSome || b.sealed || b.terminated.isSome || !acceptReady s blk then none
      else some (fun t => blockHas t blk (·.levels.isEmpty) && t.claims == s.claims.filter (fun c => c.blk != blk) && l.actions.all (performed s t)
        && (l.actions.any isWord || memKept s t 0 0))
    | _ => none)
  | _ => none

/-- CONVERSATION_JOIN and CONVERSATION_ACCEPT (R324 to R326): all accept together, and once the last member whose level is outermost has
committed, the word returns to 0. -/
def conversationClaim (i : Instr) (s : State) : Option (State → Bool) :=
  match i with
  | .conversationJoin blk => (s.blocks.get? blk).bind (fun b => b.top.bind (fun l => l.conv.bind (fun w =>
    let x := readConv s w
    let idle (c : Conv) : Bool := c.word != w
    if b.failing.isSome || b.sealed || b.terminated.isSome then some (fun t => t == s)
    else if b.gather.isSome then none
    else if !l.joining || isMember s blk w then some (fun t => t == s)
    else if !convReady s blk w then some (fun t => probed s t w 8 && memKept s t 0 0)
    else if !noReader s w 8 || !plain w 8 then none
    else if x.state = 0 then
      if decide (256 ≤ (s.convs.filter (fun c => homeDie s c.word == homeDie s w)).length) then some (fun t => t == s)
      else some (fun t => readConv t w == { x with state := 1, joined := 1, round := 0 } && t.convs == s.convs ++ [⟨w, [blk], [], [], none⟩] && memKept s t w 8)
    else if x.state = 1 && x.joined != 15 && !s.convs.all idle then
      if x.joined + 1 = x.expected then
        some (fun t => readConv t w == { x with state := 2, joined := x.joined + 1 } && memKept s t w 8
          && (blk :: (s.convs.filter (fun c => c.word == w)).flatMap (·.members)).all (fun m => (t.blocks.get? m).all (fun y =>
            y.levels.all (fun l => l.conv != some w || !l.joining))))
      else some (fun t => readConv t w == { x with joined := x.joined + 1 } && memKept s t w 8
        && t.convs.any (fun c => c.word == w && c.members.contains blk))
    else if x.state = 2 || x.state = 3 then some (fun t => t == s)
    else none)))
  | .conversationAccept word => (s.convs.find? (fun c => c.word == word)).bind (fun c =>
    let w := readConv s word
    let last := c.members.filter (fun m => (s.blocks.get? m).any (fun b => b.levels.length == 1))
    let ready := c.members.all (fun m => (s.blocks.get? m).any (fun b => !b.sealed && b.failing.isNone
      && b.top.any (fun l => l.accepting && l.conv == some word)))
    if c.closing.isSome then
      if !convReady s (c.members.headD 0) word then some (fun t => probed s t word 8 && memKept s t 0 0)
      else if c.closing != some [] then some (fun t => t == s)
      else if !noReader s word 8 || !plain word 8 then none
      else some (fun t => readConv t word == { w with state := 0, joined := 0, accepted := 0, epoch := (w.epoch + 1) % 2 ^ 32 }
        && t.convs == s.convs.filter (fun c => c.word != word) && memKept s t word 8)
    else if w.state != 2 || w.accepted != w.joined || !ready then some (fun t => t == s)
    else if c.members.eraseDups.length != c.members.length then none
    else some (fun t => t.convs.contains { c with closing := some last } && memKept s t 0 0
      && c.members.all (fun m => (s.blocks.get? m).any (fun b => blockHas t m (fun y =>
        if 1 < b.levels.length then y.levels.length + 1 == b.levels.length else y.top.any (fun l => l.accepting && l.conv.isNone))))))
  | _ => none

/-- SHADOW_COMPARE_TIMEOUT (R333, R334). -/
def compareTimeoutClaim (i : Instr) (s : State) : Option (State → Bool) :=
  match i with
  | .shadowCompareTimeout gid => (s.groups.get? gid).bind (fun g => (s.groups.get? (gid + 32)).bind (fun sh => (s.blocks.get? g.blk).bind (fun b =>
    let waiting := s.cmps.filter (fun c => c.gid == gid)
    let late := waiting.any (fun c => decide (c.since + 65536 ≤ s.clk))
    let lost := decide (sh.issued < g.issued) && (shadowSplit g sh).any (fun i => (sh.splits.get? i).isNone)
    if !isPrimary s gid g || !(late || lost) then some (fun t => t == s)
    else
      let (n, si) : Nat × Nat := match waiting with
        | k :: _ => (k.n, k.split)
        | [] => (sh.issued, (shadowSplit g sh).getD ((g.splits.head?.map (·.1)).getD 0))
      let back : Group := (snapOf s gid n).getD g
      let eval : Dword := match waiting with
        | k :: _ => BitVec.ofNat 64 (k.code + ((k.items.head?).map (·.2.1 % 32)).getD 0 * 256)
        | [] => 6
      if back.blk != g.blk then none
      else if b.levels.isEmpty then
        (back.splits.get? si).bind (fun sp => if back.handler || back.tvec == 0 || !back.tasks.isEmpty then none
          else some (fun t => [gid, gid + 32].all (fun n => (t.groups.get? n).any (fun x => x.handler && !x.causeEngine && x.cause == Cause.shadowMismatch.code
            && x.eval == eval && x.epc == sp.pc)) && t.accs.all (fun a => a.gid != some gid || a.cmp.isNone)))
      else if b.failing.isSome || !back.tasks.isEmpty then none
      else some (fun t => blockHas t g.blk (fun x => x.failing.any (fun f => f.level == b.levels.length && f.code == Cause.shadowMismatch.code && f.value == eval))))))
  | _ => none

/-! ### Tasks (R337 to R348) -/

/-- TASK_RECORD_ACCEPT, TASK_BATCH_DISPATCH and TASK_GROUP_FORM (R337 to R342). -/
def taskClaim (i : Instr) (s : State) : Option (State → Bool) :=
  match i with
  | .taskRecordAccept n => (s.entry? n).bind (fun e =>
    match e.payload, e.dest with
    | .task k, .truss d =>
      let die := s.die d
      let seq := if die.acceptTick = die.time then die.acceptSeq + 1 else 1
      if !entryDue s e || !die.awake then some (fun t => t == s)
      else if decide (65536 ≤ entriesOf s d) then
        match refusalVictim s d with
        | none => some (fun t => (t.entry? n).any (fun x => x.state == .nacked s.clk) && t.tasks == s.tasks)
        | some v => if (s.tasks.get? v).any (fun k => !k.frontier) then
            some (fun t => (t.tasks.get? v).all (fun x => !x.slot && x.buf.isEmpty && x.reads.isEmpty)) else none
      else if 16 < seq then some (fun t => t == s)
      else some (fun t => (t.entry? n).any (fun x => x.state == .accepted) && (t.die d).acceptTick == die.time && (t.die d).acceptSeq == seq
        && ((s.tasks.get? k).isNone || (t.tasks.get? k).any (fun x => x.state == .queued
          && x.ident == BitVec.ofNat 64 (die.time % 2 ^ 56 * 256 + d * 64 + seq))))
    | _, _ => none)
  | .taskBatchDispatch die core =>
    let batch := nextBatch s die
    batch.head?.bind (fun (_, k) =>
      if !(s.die die).awake || batchCore s die k.launch != some core then some (fun t => t == s)
      else if decide ((slotHolders s die).length + batch.length ≤ 4096) then
        some (fun t => batch.all (fun x => (t.tasks.get? x.1).any (fun y => y.state == .prefetched && y.slot))
          && (t.core core).prefetch == (s.core core).prefetch ++ [⟨k.launch, k.pc, batch.map (·.1)⟩])
      else none)
  | .taskGroupForm core =>
    match (s.core core).prefetch with
    | [] => some (fun t => t == s)
    | b :: rest => (s.launches.get? b.launch).bind (fun l =>
      match batchSlot s core b.launch l.checked with
      | none => some (fun t => t == s)
      | some (blk, _, gid) =>
        let ks := b.tasks.filterMap (fun n => (s.tasks.get? n).map (fun k => (n, k)))
        if ks.length != b.tasks.length || decide (32 < ks.length) || b.tasks.eraseDups.length != b.tasks.length then none
        else some (fun t => (t.core core).prefetch == rest && (t.groups.get? gid).any (fun g => g.blk == blk && g.taskGroup && g.nregs == l.regs
          && g.splits.map (fun p => (p.2.pc, p.2.em)) == [(b.pc, ofLanes (List.range ks.length))]
          && (ks.mapIdx (fun i x => (t.tasks.get? x.1).any (fun k => k.state == .running && k.gid == gid && k.lane == i) && g.tasks.get? i == some x.1
            && (x.2.v.mapIdx (fun r w => decide (l.regs ≤ r) || g.vreg r i == w)).and)).and)))
  | _ => none

/-- FRONTIER_ROUND and FRONTIER_RECEIVE (R346 to R348, R350): G is the least pair of an unfinished task or of a record under way; the
tasks below it are those of the round, in task order; each die learns G, what commits leaves its bytes in memory, and a marked task
enters frontier mode as G only where no lower task is left. -/
def frontierClaim (i : Instr) (s : State) : Option (State → Bool) :=
  match i with
  | .frontierRound =>
    let now := (s.die 0).time
    if now % 64 ≠ 0 ∨ s.round = now / 64 + 1 then some (fun t => t == s)
    else some (fun t =>
      let g := pairKey t.roundG
      let below (k : Task) : Bool := k.state == .finished && decide (k.key < g)
      t.round == now / 64 + 1
        && s.tasks.all (fun p => decide (4 ≤ p.2.die) || p.2.state == .transit || p.2.state == .finished || decide (g ≤ p.2.key))
        && s.queue.all (fun e => match e.payload with
          | .task n => decide (256 ≤ e.core) || (s.tasks.get? n).all (fun k => decide (g ≤ k.key))
          | _ => true)
        && (t.roundG == noPair || s.tasks.any (fun p => p.2.pair == t.roundG))
        && s.tasks.all (fun p => !below p.2 || t.roundTasks.contains p.1)
        && t.roundTasks.all (fun n => s.tasks.any (fun p => p.1 == n && below p.2)))
  | .frontierReceive die =>
    if 4 ≤ die ∨ !(s.die die).awake ∨ s.round = 0 then some (fun t => t == s)
    else
      let due : Option (Nat × Task) := s.roundTasks.head?.bind (fun n => (s.tasks.get? n).bind (fun k =>
        if k.state == .finished && k.die == die && mayCommit s n k then
          some (n, k)
        else none))
      let lowest (u : State) (k : Task) : Bool := k.pair == s.roundG && u.tasks.all (fun q => decide (k.key ≤ q.2.key))
      let entering := s.tasks.find? (fun p => p.2.die == die && p.2.state == .marked && p.2.pair == s.roundG
        && s.tasks.all (fun q => decide (p.2.key ≤ q.2.key)))
      some (fun t => (t.die die).round == s.round && ((s.die die).round == s.round || (t.die die).front == s.roundG)
        && t.tasks.all (fun p => !p.2.frontier || s.tasks.any (fun q => q.1 == p.1 && q.2.frontier) || lowest t p.2)
        && (!s.roundTasks.isEmpty || entering.all (fun p => (t.tasks.get? p.1).all (fun k => k.frontier && k.state == .queued)))
        && due.all (fun x => (t.tasks.get? x.1).isNone && (decide (1 < s.roundTasks.length) || (x.2.buf.map (·.1)).eraseDups.length != x.2.buf.length
          || !x.2.buf.all (fun p => outsideDirs s p.1 1) || x.2.buf.all (fun p => !plain p.1 1 || t.byte p.1 == p.2))))
  | _ => none

/-! ### Line locks (R361 to R373) -/

/-- A lock request has ended with a status (R363, R366). -/
def lockEnded (t : State) (req : Nat) (r : LockReq) (held st : Nat) : Bool :=
  (t.lockReqs.get? req).isNone
    && (match r.dst with
      | some (.s n) => sregIn t r.gid n == some (BitVec.ofNat 64 (held * 256 + st))
      | _ => true)
    && (r.mask == 7 || (maskIn t r.gid r.mask).map (· &&& r.lanes) == some (if st = 0 then r.lanes else 0))

/-- The request of a line's holder has been granted (R367): its status says how many locks its group holds, and BROKEN once after a
broken hold (R371). -/
def lockGranted (s t : State) (req : Nat) (r : LockReq) (held : Nat) : Bool :=
  lockEnded t req r held (if s.broken.contains r.line then 4 else 0) && !t.broken.contains r.line

/-- LOCK_REQUEST_ARRIVAL (R362, R366, R370, R374): refused, answered, chained, or given the free line, which it holds from then on. -/
def lockArrivalClaim (i : Instr) (s : State) : Option (State → Bool) :=
  match i with
  | .lockRequestArrival req => (s.queue.find? (fun e => e.payload == .lock req)).bind (fun e => (s.lockReqs.get? req).bind (fun r =>
    (s.groups.get? r.gid).bind (fun g => (s.blocks.get? g.blk).bind (fun b =>
      let now := lockTime s r.line
      let taken := s.pegs.any (fun p => p.line == r.line)
      let age := (r.refusedAt.map (fun t => now - t)).getD 0
      let held := heldCount s r.gid
      let p : Peg := { line := r.line, gid := r.gid, site := r.gid, req := req, accepted := now,
                       left := if r.timeout ≠ 0 then some (r.timeout - age + 1) else none, state := .waiting }
      let accepted (t : State) : Bool := (t.entry? e.id).any (fun x => x.state == .accepted)
      if !entryDue s e || !homeAwake s (r.line * 128) || biasFrozen s (r.line * 128) || !pairLevel s r.gid g || b.failing.isSome
          || (r.test && claimedByOther s (some g.blk) (r.line * 128) 128) then some (fun t => t == s)
      else if (s.queue.filter (fun x => x.id == e.id)).length != 1 || s.pegs.any (fun q => q.req == req) then none
      else if hasPeg s r.gid r.line then some (fun t => accepted t && lockEnded t req r held 7 && t.pegs == s.pegs)
      else if taken && r.test then some (fun t => accepted t && lockEnded t req r held 1 && t.pegs == s.pegs)
      else if r.timeout != 0 && decide (r.timeout < age) then some (fun t => accepted t && lockEnded t req r held 2 && t.pegs == s.pegs)
      else if decide (4096 ≤ pegsAt s r.line) then
        some (fun t => t.queue.any (fun x => x.id == e.id && x.state == .nacked s.clk) && (t.lockReqs.get? req).any (fun x => x.refusedAt == some (r.refusedAt.getD now))
          && t.pegs == s.pegs)
      else if (lockHolder s r.line).isSome || (!taken && claimedFrom s p) then
        some (fun t => accepted t && t.pegs == s.pegs ++ [p] && (t.lockReqs.get? req).any (fun x => x == { r with atLock := x.atLock }))
      else if taken then none
      else some (fun t => accepted t && t.pegs == s.pegs ++ [{ p with state := .holding, left := none }]
        && (if mayGrant s r.line then lockGranted s t req r (held + 1) else (t.lockReqs.get? req) == some r))))))
  | _ => none

/-- LOCK_GRANT (R366, R367, R370, R372, R374): the holder is answered once it may be; a line that nobody holds goes to its first waiter,
is reserved for it while it is absent, or leaves it behind where its time has run out. -/
def lockGrantClaim (i : Instr) (s : State) : Option (State → Bool) :=
  match i with
  | .lockGrant req => (s.lockReqs.get? req).bind (fun r0 =>
    let line := r0.line
    if !s.pegs.any (fun p => p.req == req) then some (fun t => t == s)
    else if (lockHolder s line).isSome then
      (match s.pegs.find? (fun p => p.line == line && p.state == .holding) with
      | none => some (fun t => t == s)
      | some p =>
        match s.lockReqs.get? p.req with
        | none => some (fun t => t == s)
        | some r =>
          if (s.groups.get? p.gid).isNone then some (fun t => t == s)
          else if r.gid != p.gid || r.line != line then none
          else some (fun t => t.pegs == s.pegs
            && (if mayGrant s line then lockGranted s t p.req r (heldCount s p.gid) else t.lockReqs == s.lockReqs && probed s t (line * 128) 128)))
    else (firstWaiter s line).bind (fun p => (s.lockReqs.get? p.req).bind (fun r =>
      let present := (s.groups.get? p.gid).isSome
      if (s.pegs.filter (fun q => q.req == p.req)).length != 1 || r.gid != p.gid || r.line != line then none
      else match turnLost s p with
        | some st =>
          if (s.pegs.filter (fun q => q.line == line)).length != 1 then none
          else some (fun t => t.pegs == s.pegs.filter (fun q => q.req != p.req)
            && (if present then lockEnded t p.req r (heldCount s p.gid) st else (t.lockReqs.get? p.req).any (fun x => x.late == some st)))
        | none =>
          if !present then
            some (fun t => t.pegs == s.pegs.map (fun q =>
              if q.req = p.req ∧ q.state = .waiting then { q with state := .reserved (lockTime s line + 2800) } else q))
          else if claimedFrom s p then
            some (fun t => t == { s with pegs := s.pegs.map (fun q =>
              if q.req = p.req ∧ q.state ≠ .waiting then { q with state := .waiting, left := none } else q) })
          else some (fun t => t.pegs == s.pegs.map (fun q => if q.req = p.req then { q with state := .holding, left := none } else q)
            && (if mayGrant s line then lockGranted s t p.req r (heldCount s p.gid + 1) else t.lockReqs == s.lockReqs && probed s t (line * 128) 128)))))
  | _ => none

/-- LOCK_HANDOVER (R368, R371): an UNLOCK of a line that its sender does not hold gives NOT_HELD; the holder's gives the line up with
OK, to the first waiter whose turn it is; a holder that has ended leaves it broken. -/
def handoverClaim (i : Instr) (s : State) : Option (State → Bool) :=
  match i with
  | .lockHandover line =>
    let asked := s.accs.find? (fun a => a.kind == .unlock && a.stage == .arrived && a.pa / 128 == line)
    let gone (a : Acc) (x : Nat) (t : State) : Bool := (t.acc? a.id).isNone && returned t a x
    let rest := s.pegs.filter (fun p => !(p.line == line && p.holds))
    let alone := !rest.any (fun p => p.line == line)
    match s.pegs.filter (fun p => p.line == line && p.holds) with
    | [] =>
      match asked with
      | some a => some (gone a (heldCount s (a.gid.getD 0) * 256 + 6))
      | none => some (fun t => t == s)
    | [p] =>
      if holderEnded s p.gid && !unlockComing s p.gid line then
        if !holderDone s p.gid line s.nextId then some (fun t => t == s)
        else some (fun t => !alone || (t.pegs == rest && t.broken.contains line))
      else
        match asked with
        | none => some (fun t => t == s)
        | some a =>
          let gives (t : State) : Bool := gone a ((heldCount s p.gid - 1) * 256) t
          if !byHolder p.gid a.gid then some (gone a (heldCount s (a.gid.getD 0) * 256 + 6))
          else if !holderDone s p.gid line a.id then some (fun t => t == s)
          else if alone then some (fun t => gives t && t.pegs == rest)
          else (firstWaiter s line).bind (fun q =>
            if (turnLost s q).isSome || (s.groups.get? q.gid).isNone || claimedFrom s q || q.gid == p.gid || (rest.filter (fun x => x.req == q.req)).length != 1
                || s.accs.any (fun x => (x.stage == .waiting || x.stage == .barred) && (linesOf x.pa x.size).contains line) then none
            else some (fun t => gives t && t.pegs == rest.map (fun x => if x.req = q.req then { x with state := .holding, left := none } else x)))
    | _ => none
  | _ => none

/-- LOCK_TIMEOUT, LOCK_RESERVATION_EXPIRY and KNEE_BRACE_SCAN (R370, R372, R373). -/
def lockEndClaim (i : Instr) (s : State) : Option (State → Bool) :=
  match i with
  | .lockTimeout gid line =>
    match s.pegs.find? (fun p => p.gid == gid && p.line == line && p.state == .waiting && p.left == some 0) with
    | none => some (fun t => t == s)
    | some p => (s.lockReqs.get? p.req).bind (fun r =>
      if r.gid != gid then none
      else if (s.groups.get? gid).isSome then some (fun t => t.pegs == s.pegs.filter (fun q => q.req != p.req)
        && lockEnded t p.req r (heldCount { s with pegs := s.pegs.filter (fun q => q.req != p.req) } gid) 2)
      else some (fun t => t.pegs == s.pegs.filter (fun q => q.req != p.req) && (t.lockReqs.get? p.req).any (fun x => x.late == some 2)))
  | .lockReservationExpiry line =>
    match s.pegs.find? (fun p => p.line == line && !p.holds) with
    | none => some (fun t => t == s)
    | some p =>
      match p.state with
      | .reserved n =>
        if decide (n ≤ lockTime s line) && (s.groups.get? p.gid).isNone then
          some (fun t => t.pegs.all (fun q => q.req != p.req) && ((s.lockReqs.get? p.req).isNone || (t.lockReqs.get? p.req).any (fun x => x.late == some 3)))
        else some (fun t => t == s)
      | _ => some (fun t => t == s)
  | .kneeBraceScan =>
    if !s.dies.any (fun p => p.2.awake && p.2.time % 65536 == 0) then some (fun t => t == s)
    else
      match findCycle s with
      | none => some (fun t => t == s)
      | some c =>
        let low := c.foldl (fun n p => min n p.line) ((c.head?.map (·.line)).getD 0)
        some (fun t => c.any (fun v => t.pegs.all (fun q => q.req != v.req)
          && c.all (fun q => decide (q.accepted < v.accepted ∨ (q.accepted = v.accepted ∧ q.site ≤ v.site)))
          && (t.die (lockHome low).1).events.any (fun e => e.code == 0x0007 && e.unit == 1 && e.data0 == BitVec.ofNat 64 (v.line * 128))))
  | _ => none

/-! ### Terms of the statements -/

/-- Each claim's instructions complete: from every state that meets the claim's premises `exec` answers a next state, and that state
is as the claim says. -/
def Completes (claims : List (Instr → State → Option (State → Bool))) : Prop :=
  ∀ claim ∈ claims, ∀ (i : Instr) (s : State) (e : State → Bool), claim i s = some e → ∃ t, exec i s = .next t ∧ e t = true

/-- Instructions that only read and write registers: the arithmetic and lane instructions, the mask instructions, branches, and
CSRR. -/
def registerOnly : Instr → Bool
  | .nop .. | .bra .. | .brx .. | .call .. | .callx .. | .ret .. | .msave .. | .mand .. | .mor .. | .mrest .. => true
  | .iadd .. | .isub .. | .imul .. | .imulh .. | .imad .. | .imin .. | .imax .. | .iabs .. | .and .. | .or .. | .xor .. | .andn .. => true
  | .shl .. | .shr .. | .sar .. | .rotl .. | .bfx .. | .bfi .. | .popc .. | .clz .. | .brev .. | .sel .. | .mov .. | .lea .. | .icmp .. => true
  | .fadd .. | .fsub .. | .fmul .. | .ffma .. | .fmin .. | .fmax .. | .fcmp .. | .frcp .. | .frsq .. | .fsqrt .. | .fex2 .. | .flg2 .. => true
  | .fsin .. | .fcos .. | .fcvt .. | .fcls .. | .frnd .. | .fscl .. => true
  | .shfl .. | .vote .. | .redux .. | .matchLanes .. | .prmt .. | .csrr .. => true
  | _ => false

/-- Where it branches to registers, each of them names a code address (R112). -/
def targetsFit (i : Instr) (c : Ctx) : Bool :=
  match i with
  | .brx .. | .callx .. | .ret .. => (branchTarget i c).isSome
  | _ => true

/-- Of these, the ones that set FFLAGS and draw (R85, R88). -/
def floating : Instr → Bool
  | .fadd .. | .fsub .. | .fmul .. | .ffma .. | .fmin .. | .fmax .. | .fcmp .. | .frcp .. | .frsq .. | .fsqrt .. | .fex2 .. | .flg2 .. => true
  | .fsin .. | .fcos .. | .fcvt .. | .frnd .. | .fscl .. | .redux .. => true
  | _ => false

/-- Every control register of a group but FFLAGS, and its handler's state, are as they were. -/
def controlKept (g h : Group) : Prop :=
  h.cause = g.cause ∧ h.causeEngine = g.causeEngine ∧ h.epc = g.epc ∧ h.eval = g.eval ∧ h.tvec = g.tvec ∧ h.sbchk = g.sbchk
    ∧ h.backoff = g.backoff ∧ h.frm = g.frm ∧ h.xv = g.xv ∧ h.handler = g.handler ∧ h.npe = g.npe ∧ h.savedEm = g.savedEm

/-- Every register of a group is as it was. -/
def registersKept (g h : Group) : Prop :=
  (∀ r lane, h.vreg r lane = g.vreg r lane) ∧ (∀ r, h.sreg r = g.sreg r) ∧ (∀ n, h.mask n = g.mask n) ∧ controlKept g h ∧ h.fflags = g.fflags

/-- Every byte of memory reads as it did. -/
def memoryKept (s t : State) : Prop := ∀ a, t.byte a = s.byte a

/-- Instructions that send an access or a command and change nothing but what waits for it. -/
def sends (i : Instr) (s : State) : Bool :=
  (loadClaim i s).isSome || (storeClaim i s).isSome || (copyClaim i s).isSome || (matrixClaim i s).isSome || (collClaim i s).isSome
    || (spawnClaim i s).isSome || (expertClaim i s).isSome || (xcntClaim i s).isSome

/-- The state in which the picked split of a scheduler fetches (R40, R41, R43), and the split. -/
def fetching (s : State) (core sched gid si : Nat) : State :=
  let m := mergeAt (setSplit s gid si atFetch) core sched gid si
  { m.1.setCore core (fun k => { k with lastIssue := k.lastIssue.put sched m.1.clk, forced := k.forced.del sched }) with cur := (gid, m.2) }

/-- The code words at a PC, with the parameter block where the instruction has one, and the state that their fetch leaves (R54). -/
def wordsAt (u : State) (die : Nat) (l : Launch) (pc : CodeAddr) (ws : List (BitVec 32)) (v : State) : Prop :=
  ∃ w0 w1 w2 v0, fetchWords u die l pc 3 = (.words [w0, w1, w2], v0)
    ∧ (if Decode.hasParams (Decode.fields (Decode.join3 w0 w1 w2)) then ∃ ps, fetchWords v0 die l (pc + 3) 4 = (.words ps, v) ∧ ws = [w0, w1, w2] ++ ps
       else ws = [w0, w1, w2] ∧ v = v0)

/-- Instructions that raise NESTING inside a level (R303, R308, R356, R357). -/
def closedToLevels (b : Block) : Instr → Bool
  | .halt .. | .tend .. | .tabort .. => true
  | .ensure .. => b.levels.length == 4
  | _ => false

/-- The formats of the class 2 operations (R83). -/
def binaryFormats : List Fmt := [fp64, fp32, fp16, bf16]

/-- Words written out from the encoding tables of the spec, one or more for each class, with the instructions they stand for. -/
def printedWords : List (List (BitVec 32) × Instr) :=
  [([0x0, 0x0C001010, 0x20281014], .iadd ⟨true, 2, 4, false⟩ .w32 ⟨⟨0, 0, 0, false, false⟩, .v 4, .v 5, .s 3, 0⟩),
   ([0x0, 0x1020, 0x259C5010], .mov ⟨false, 7, 4, false⟩ .w32 ⟨false, ⟨0, 0, 0, false, false⟩, .v 20, .s 4, 0⟩),
   ([0xB, 0x29631808, 0x40C42024], .ffma ⟨false, 1, 6, false⟩ .f32 ⟨⟨1, 3, 3, false, false⟩, .v 8, .v 9, .v 10, .v 11, 0⟩),
   ([0x98000000, 0x0, 0x821C0000], .fence ⟨false, 7, 0, false⟩ .release 6),
   ([0x200AF0, 0xFC000030, 0xA29C2413], .lock ⟨false, 7, 0, false⟩ 2 (.s 9) 4 .imm 2800),
   ([0xB00000, 0x14000030, 0xC2DC2410], .xfetch ⟨false, 7, 0, false⟩ true ⟨3, .s 9, 4, .s 5, 0⟩),
   ([0x180000, 0xF8000032, 0xC01C2013, 0x100, 4, 0x400, 0x100],
     .cpy ⟨false, 7, 0, false⟩ ⟨2, none, 0, 0, 1, true, 0, 0, 8, 4, none, ⟨.lit 0x100, .lit 4, .lit 0x400, .lit 0x100⟩⟩),
   ([0x600090, 0xF8000031, 0xE01C0053], .ensure ⟨false, 7, 0, false⟩ 1 20 .sz 0x60 0x90),
   ([0x0, 0x20, 0xE12403F8], .reject ⟨true, 1, 0, false⟩ .sz),
   ([0x30, 0x0, 0xE1DC0050], .spawn ⟨false, 7, 0, false⟩ (.v 20) none 0x30)]

end Sys2Proof.Claims

open Sys2Proof Sys2Proof.Machine Sys2Proof.Claims

/-! ### Instructions of classes 0 to 3 -/

/-- R126 to R129: the arithmetic, logic, bit, shift, field and address operations complete, and each element of the destination is the
element result of its rule; where the spec states no value, the value is free (log 2). -/
def Obligations.IntegerResults : Prop := Completes [integerClaim]

/-- R130: SEL reads its guard as a selector and acts on every lane of em. -/
def Obligations.SelSelects : Prop := Completes [selClaim]

/-- R134, R138 to R140, R85, R88: the class 2 arithmetic completes with correctly rounded elements, flags and draws. That a packed
scalar-side operation draws once for each element, from the generator of its lowest lane, is the model's choice (log 129: R87 and R133
say two things). -/
def Obligations.FloatResults : Prop := Completes [floatClaim]

/-- R131, R136, R137: ICMP, FCMP and FCLS write their condition into the acting lanes of a mask. -/
def Obligations.Compares : Prop := Completes [icmpClaim, floatTestClaim]

/-- R141, R142: FCVT. -/
def Obligations.Conversions : Prop := Completes [cvtClaim]

/-- R146 to R150: SHFL, VOTE, REDUX, MATCH and PRMT. -/
def Obligations.LaneResults : Prop := Completes [lanesClaim, reduxClaim]

/-- R112 to R116, R39, R41, R118, R120: branches send each lane to its address; NOP and the mask instructions. -/
def Obligations.BranchesAndMasks : Prop := Completes [branchClaim, maskClaim]

/-- R117, R119, R281, R287: EXIT, TRAP and TRET. That the EXIT of a checked pair's primary is presented to the comparison and takes effect
with the shadow is the model's choice (log 141). -/
def Obligations.ThreadsLeaveAndTrap : Prop := Completes [exitClaim, trapClaim, tretClaim]

/-- R121 to R123, R45, R46, R48: REGROUP records a continuation for each acting lane, whose lanes leave their split and end in their group;
the records of LAUNCH stand at the core's interface, from which the child launches are posted. That in a checked pair a REGROUP takes
effect with the shadow is the model's choice (log 141). -/
def Obligations.ContinuationsAndChildren : Prop := Completes [regroupClaim, launchClaim]

/-! ### Class 7's system instructions -/

/-- R72 to R74, R286, R289, R301, R303: CSRR, CSRW, NPE, PEN, SNAP and HALT. -/
def Obligations.SystemInstructions : Prop := Completes [csrrClaim, csrwClaim, snapctlClaim, systemClaim]

/-! ### Memory instructions -/

/-- R172 to R175, R177: a load sends one access for each lane, which returns to its destination. -/
def Obligations.LoadsIssue : Prop := Completes [loadClaim]

/-- R172 to R174, R176: a store puts one access for each lane into the store buffer. -/
def Obligations.StoresIssue : Prop := Completes [storeClaim]

/-- R183 to R188: a class 5 request goes to its home with its operands. -/
def Obligations.RequestsIssue : Prop := Completes [class5Claim]

/-- R167, R178, R181, R182, R210: PREF changes no register, no byte and no access, and fills at most the caches of its level; CFLUSH and
FENCE. That CFLUSH accesses one byte, so that it is never misaligned, is the model's choice (log 140). -/
def Obligations.LinesAndFences : Prop := Completes [prefClaim, cflushClaim, fenceClaim]

/-- R190 to R192: the barrier instructions. Which lane's bit a BARW with wonly and a vector register reads (log 142) and the mode of a phase
with no first arrival (log 143) are the model's choices. -/
def Obligations.Barriers : Prop := Completes [barrierClaim]

/-- R361, R365, R366, R368: LOCK, LOCKT and UNLOCK. -/
def Obligations.LockInstructions : Prop := Completes [lockClaim, unlockClaim]

/-! ### Recovery, tasks, engines and experts -/

/-- R307 to R312, R325: the recovery instructions. -/
def Obligations.RecoveryInstructions : Prop := Completes [gatherClaim, alternateClaim]

/-- R327, R336, R355 to R357: SPAWN, TEND and TABORT. That TEND and TABORT of a checked pair's primary take effect once the shadow agrees is
the model's choice (log 141). -/
def Obligations.TaskInstructions : Prop := Completes [spawnClaim, endTaskClaim]

/-- R224, R227, R232 to R234, R240: copies and CDONE enter the copy queue. -/
def Obligations.CopyCommands : Prop := Completes [copyClaim, cdoneClaim]

/-- R238 to R255: matrix commands enter their queue; GRES and SBWAIT. -/
def Obligations.MatrixCommands : Prop := Completes [matrixClaim, slotClaim]

/-- R271 to R278, R327: the expert instructions. That a scalar-side XCNT sends one request is the model's choice (log 80). -/
def Obligations.ExpertInstructions : Prop := Completes [expertClaim, xcntClaim]

/-- R52, R224, R256 to R259: COLL, its queue, and what its member does with arrivals, answers and time limits. MISALIGNED for a misaligned
record and a destination of 16 blocks (log 62), and a step without bytes as an acknowledgement (log 63), are the model's choices. -/
def Obligations.Collectives : Prop := Completes [collClaim, collAcceptClaim, collStepClaim]

/-! ### Machine steps -/

/-- R34, R38, R43, R46, R47, R64: results arrive, groups form and end, and the guard against starvation acts. -/
def Obligations.GroupEvents : Prop := Completes [groupEventClaim]

/-- R34, R38, R49, R50, R212: blocks end, are placed and start together. -/
def Obligations.BlockEvents : Prop := Completes [blockEventClaim]

/-- R385 to R387: records of the launch queues are read, and completion words written. That a distributor's words are performed in the step
that makes them, as an access of its die (log 19), that a code 0x52 stands in the launch's own word where it can (log 108), and that the
first poisoned task stands beside the completion word (log 71), are the model's choices. -/
def Obligations.LaunchEvents : Prop := Completes [launchEventClaim]

/-- R52, R333, R334, R388: entries between units, those of the peer fabric among them, and a pair whose comparison is overdue. -/
def Obligations.LinksAndPairs : Prop := Completes [linkClaim, compareTimeoutClaim]

/-- R199 to R202, R181, R344, R345, R369: Satisfy, Drain, Apply and Cross, and what a flush leaves. -/
def Obligations.AccessSteps : Prop := Completes [accessStepClaim]

/-- R185 to R188: class 5 requests are applied, lowest lane first. That merged floating additions are combined from the left, the home's
value last, is the model's choice (log 144). -/
def Obligations.RequestsApply : Prop := Completes [requestClaim]

/-- R159 to R165: leases, probes, grants and poison. -/
def Obligations.LineEvents : Prop := Completes [lineClaim]

/-- R215, R226, R402: commands are accepted, and failures delivered to parked groups. -/
def Obligations.EnginesAccept : Prop := Completes [acceptClaim, deliveryClaim]

/-- R217, R231, R235 to R237, R240: copies proceed, end and report. The EVAL of a copy that fails with NESTING, 0, is the model's choice
(log 159), as is the entry that carries a segment's accesses to a peer (log 152). -/
def Obligations.CopySteps : Prop := Completes [copyStepClaim, copyEndClaim]

/-- R15, R242, R245, R246, R254, R255: weights and their checksum column fill, planes change places, and MXDRAIN and MXZERO act on the accumulators. -/
def Obligations.PlanesAndDrains : Prop := Completes [planeClaim, drainClaim]

/-- R15, R104, R105, R245, R250, R251: a K-step adds its products with one rounding, and its sums are judged by the checksum column. The
array's error as an operand, and the verdict on rows with a NaN or an infinity, are the model's choices (log 151). -/
def Obligations.KSteps : Prop := Completes [kStepClaim, verdictClaim]

/-- R266 to R269, R272, R274 to R276: expert requests at their entries, counts, and fetches. That an XFETCH in flight that meets the entry of
a withdrawn directory is refused is the model's choice (log 149). -/
def Obligations.ExpertEntries : Prop := Completes [entryClaim, expertEventClaim]

/-- R156, R295, R300, R301, R378, R381, R382, R385, R388, R390: the management commands that set something. The layout of PEER's
operands (log 41), that QUEUE, FAULTQ and EVLOG start from the words memory holds (log 17), and OPERAND_BOUNDS without effect for a
reserved byte (log 14) or no word at all for an unusable completion word (log 15), are the model's choices. -/
def Obligations.SettingCommands : Prop := Completes [settingClaim]

/-- R157, R382, R384: ANSWER and BIAS. That ANSWER of a tag that no record has completes with OPERAND_BOUNDS (log 18), and that an unusable
completion word ends without a word (log 15), are the model's choices. -/
def Obligations.AnswersAndBias : Prop := Completes [answerClaim, biasClaim]

/-- R265, R278, R296, R379: expert directories are registered and withdrawn, and dies sleep and wake. The code of a refused SLEEP is a
free value (log 42); that a woken die's fabric time is another die's (log 66), and what an unusable completion word gives (log 15), are
the model's choices. -/
def Obligations.DirectoriesAndSleep : Prop := Completes [directoryClaim, sleepClaim]

/-- R25, R219, R376, R377, R383, R388, R389, R391: what the host and peers do to the module. The offsets of BAR0's registers (log 40), that
CMDSIZE is not written while the ring is not empty (log 121), and that a power limit outside 1,200 to 2,600 is ignored (log 161), are the
model's choices. -/
def Obligations.HostActions : Prop := Completes [bar0Claim, outsideClaim, firmwareClaim]

/-- R288 to R290, R295, R297 to R302, R391: requests for pre-emption, watchdogs, self-tests, event records, snapshots and heat. The bent's
number in record 0x000A (log 114), the PC of record 0x0005 where no split can issue (log 145), the moment at which a snapshot latches (log 112), and the order in
which the arbiter receives records (log 160), are the model's choices. -/
def Obligations.StopsAndEvents : Prop := Completes [stopClaim, watchClaim]

/-- R288, R291 to R294, R303, R370: images are sealed, checkpoints taken and resumed. That HALT's images carry one generation (log 48), that
RESUME is refused while a block is resident or its launch unknown (log 108), that CHECKPT of an unknown launch or of an area that does not
fit gives OPERAND_BOUNDS (log 109), and which arbiter and unit log 0x0009 (log 154), are the model's choices. -/
def Obligations.ImagesAndCheckpoints : Prop := Completes [imageClaim]

/-- R313 to R317: rollback and the levels' clocks. That a marker that cannot be fetched exhausts its level with that fault's EVAL (log 100),
and that the clock runs while a conversation's accept waits (log 103), are the model's choices. -/
def Obligations.Rollback : Prop := Completes [rollbackClaim, clockClaim]

/-- R311, R321, R324 to R327: the outermost accept, and conversations. -/
def Obligations.AcceptsAndConversations : Prop := Completes [acceptCommitClaim, conversationClaim]

/-- R337 to R342, R346 to R348, R350: Truss units and the commit frontier. That the tasks of a round are fixed at FRONTIER_ROUND (log 92), and
that records in transit count with identifier 0 (log 91), are the model's choices. -/
def Obligations.TasksAndFrontier : Prop := Completes [taskClaim, frontierClaim]

/-- R361 to R363, R366 to R374: line locks at their home slices. That event 0x0007 carries unit 1 and the slice as its index is the model's
choice (log 89). -/
def Obligations.LineLocks : Prop := Completes [lockArrivalClaim, lockGrantClaim, handoverClaim, lockEndClaim]

/-! ### Rules of single instructions -/

/-- R312: a REJECT that acts fails the innermost level's alternate with code 0 and its operand's value, whatever the block's other
groups do; outside a level it raises NESTING. -/
def Obligations.RejectFails : Prop :=
  ∀ (h : Hdr) (a : Src) (s : State) (c : Ctx), readyCtx (.reject h a) s = some c → roleOf s c ≠ .shadow →
    (c.blk.levels ≠ [] → ∃ t, exec (.reject h a) s = .next t ∧ blockHas t c.g.blk (fun b => b.failing.any (fun f =>
      f.level == c.blk.levels.length && f.code == 0 && f.value == BitVec.ofNat 64 (srcScalar (sampleSpecials s c) c 0 a) && f.pc == c.pc)) = true)
    ∧ (c.blk.levels = [] → exec (.reject h a) s = .next (takeFault (sampleSpecials s c) c .nesting 0 c.act))

/-- R310: a marker reached in normal flow at ENSD ≥ 1 moves its split to the innermost level's test, with em and members as they were,
without a gathering, and opens and closes no level; at ENSD = 0 it raises NESTING. -/
def Obligations.MarkersMove : Prop :=
  ∀ (i : Instr) (s : State) (c : Ctx), (∃ hd off, i = .elseby hd off) ∨ (∃ hd, i = .elseerr hd) → readyCtx i s = some c →
    (∀ l, c.blk.top = some l → ∃ t, exec i s = .next t
      ∧ (splitIn t c.gid c.si).map (fun q => (q.pc, q.em, q.members)) = some (l.test, c.sp.em, c.sp.members)
      ∧ blockHas t c.g.blk (fun b => b.gather == c.blk.gather && b.levels == c.blk.levels) = true)
    ∧ (c.blk.top = none → exec i s = .next (takeFault (sampleSpecials s c) c .nesting 0 c.em))

/-- R303, R308, R356, R357 with R313: HALT, TEND, TABORT and a fifth ENSURE inside a level fail it with NESTING. -/
def Obligations.LevelsRefuse : Prop :=
  ∀ (i : Instr) (s : State) (c : Ctx), readyCtx i s = some c → closedToLevels c.blk i = true → c.blk.levels ≠ [] → roleOf s c = .alone →
    c.g.tasks = [] → resultsPending s c.g = false →
    ∃ t, exec i s = .next t ∧ blockHas t c.g.blk (fun b => b.failing.any (fun f =>
      f.level == c.blk.levels.length && !f.engine && f.code == Cause.nesting.code && f.value == 0 && f.pc == c.pc)) = true

/-! ### Frames -/

/-- An instruction that only reads and writes registers changes no byte of memory, no register of another group, in its own group no
register but its destinations, no lane outside em of a vector register or a mask, and no control register; FFLAGS and the
generators change only by a floating operation (R9, R59, R85, R88, R126). A branch to registers that name no code address takes
ACCESS_FAULT instead (R112), and is not meant here. -/
def Obligations.RegisterFrame : Prop :=
  ∀ (i : Instr) (s t : State) (c : Ctx), registerOnly i = true → readyCtx i s = some c → targetsFit i c = true → exec i s = .next t →
    memoryKept s t
    ∧ (∀ n g, n ≠ c.gid → s.groups.get? n = some g → ∃ h, t.groups.get? n = some h ∧ registersKept g h)
    ∧ ∃ h, t.groups.get? c.gid = some h ∧ controlKept c.g h
      ∧ (∀ r lane, lane < 32 → RegRef.v r ∉ (refsOf i).2 → h.vreg r lane = c.g.vreg r lane)
      ∧ (∀ r, RegRef.s r ∉ (refsOf i).2 → h.sreg r = c.g.sreg r)
      ∧ (∀ n, RegRef.cm n ∉ (refsOf i).2 → h.mask n = c.g.mask n)
      ∧ (∀ r lane, lane < 32 → c.em.getLsbD lane = false → h.vreg r lane = c.g.vreg r lane)
      ∧ (∀ n lane, c.em.getLsbD lane = false → (h.mask n).getLsbD lane = (c.g.mask n).getLsbD lane)
      ∧ (floating i = false → h.fflags = c.g.fflags ∧ h.gen = c.g.gen)

/-- A load, a store, a copy, a matrix, an expert or a collective command or a SPAWN that is sent changes, as it issues, no byte of
memory and no register of any group: its results come later, and its bytes are written by the steps that apply them (R64, R173, R198,
R226). -/
def Obligations.IssueFrame : Prop :=
  ∀ (i : Instr) (s t : State) (c : Ctx), sends i s = true → readyCtx i s = some c → roleOf s c = .alone → exec i s = .next t →
    memoryKept s t ∧ ∀ n g, s.groups.get? n = some g → ∃ h, t.groups.get? n = some h ∧ registersKept g h

/-- R59: an instruction whose guard leaves no lane acting goes on and changes no register and no memory. -/
def Obligations.EmptyGuardGoesOn : Prop :=
  ∀ (i : Instr) (s : State) (c : Ctx), isMachineStep i = false → actsAlways i = false → ctxOf (hdrOf i) s = some c → c.act = 0 →
    running c = true → c.g.npeOver = none → c.g.fails = [] → canIssue s c i = true → boundFault c.g i = none → earlyRefs s c.g c.sp i = [] →
    primaryFault s c = none →
    ∃ t, exec i s = .next t ∧ wentOn i c t = true ∧ memoryKept s t ∧ ∃ h, t.groups.get? c.gid = some h ∧ registersKept c.g h

/-! ### Faults -/

/-- R281, R284: a fault outside levels and tasks saves the cause, the PC, the value and em, holds the other splits, and goes on at TVEC
with em and members as they were; in a handler, or with TVEC = 0, it terminates the block with its cause. -/
def Obligations.FaultEntry : Prop :=
  ∀ (s : State) (gid si : Nat) (engine : Bool) (cause : Cause) (eval : Dword) (lanes : LaneMask) (g : Group) (sp : Split) (b : Block),
    s.groups.get? gid = some g → g.splits.get? si = some sp → s.blocks.get? g.blk = some b → b.levels = [] → b.terminated = none → g.tasks = [] →
    (g.handler = false ∧ g.tvec ≠ 0 → ∃ h q, (takeFaultAt s gid si engine cause eval lanes).groups.get? gid = some h ∧ h.handler = true
      ∧ h.causeEngine = engine ∧ h.cause = cause.code ∧ h.epc = sp.pc ∧ h.eval = eval ∧ h.savedEm = sp.em
      ∧ (∀ p ∈ g.splits, p.1 ≠ si → p.2.uid ∈ h.held)
      ∧ h.splits.get? si = some q ∧ q.pc = g.tvec ∧ q.em = sp.em ∧ q.members = sp.members
      ∧ (∀ r lane, h.vreg r lane = g.vreg r lane) ∧ (∀ r, h.sreg r = g.sreg r) ∧ (∀ n, h.mask n = g.mask n) ∧ h.tvec = g.tvec)
    ∧ (g.handler = true ∨ g.tvec = 0 → blockHas (takeFaultAt s gid si engine cause eval lanes) g.blk (fun x => x.terminated == some cause) = true)

/-! ### Numbers -/

/-- R8, R83, R85, R86, R91 to R95, R97, R99: a value that a format holds rounds to its own code under every rounding mode and sets no flag.
It holds of the four IEEE formats but for their NaNs, of every P3109 format under each saturation mode (but that SATFIN writes no
infinity), its one NaN too, and of FP4, whose code 0b1000 is the extra value and no value of the format. -/
def Obligations.RoundingExact : Prop :=
  (∀ fm ∈ binaryFormats, ∀ (x : Nat) (rm : Rm), x < 2 ^ fm.bits → fm.isNan x = false → roundTo fm (fm.value x) rm = (x, 0))
  ∧ (∀ (c x sat : Nat) (rm : Rm), 0x20 ≤ c → c < 0x40 → p3109P c ≠ 0 → x < 256 → sat < 3 → (∀ neg, p3109Value c x = .inf neg → sat ≠ 0) →
      satTo c (p3109Value c x) sat rm false = (x, 0))
  ∧ (∀ (x xv : Nat) (rm : Rm), x < 16 → x ≠ 8 → toFp4 (fp4Value x xv) rm = (x, 0))

/-! ### Encodings -/

/-- R53 to R61, R67, R75: decoding the encoding of a well-formed instruction gives it back, with every operand. -/
def Obligations.DecodeOfEncode : Prop :=
  ∀ i : Instr, i.wellFormed = true → isMachineStep i = false → Decode.decode (encode i) = .ok i

/-- R54, R60 and the encoding tables: these words, which the spec prints or whose fields its tables give, decode to their instructions:
IADD with an immediate, FFMA, MOV, ENSURE, REJECT, SPAWN, LOCK, XFETCH and CPY with its parameter block. -/
def Obligations.DecodeWords : Prop :=
  ∀ x ∈ printedWords, Decode.decode x.1 = .ok x.2

/-- R75: an operation number beyond the last one assigned in its class is no operation. -/
def Obligations.UnassignedOperations : Prop :=
  ∀ (w0 w1 w2 : BitVec 32) (ps : List (BitVec 32)),
    let r := Decode.fields (Decode.join3 w0 w1 w2)
    ([0x0D, 0x18, 0x11, 0x04, 0x09, 0x0C, 0x10, 0x10].getD r.cls.toNat 0) < r.op.toNat → Decode.decode (w0 :: w1 :: w2 :: ps) = .illegal

/-- R54, R43: when a scheduler takes its turn and the words at the PC of the split that it picks decode to an instruction, the step is
that instruction, executed with that split as the current one; where the instruction waits, so that its group is as it was, the
scheduler goes on to the next of its ready splits. -/
def Obligations.StepRunsDecoded : Prop :=
  ∀ (s v : State) (core sched gid si : Nat) (rest : List Turn) (c : Ctx) (ws : List (BitVec 32)) (i : Instr),
    s.agenda = .issue core sched :: rest → core < 256 → sched < 4 →
    coreIssues { s with agenda := rest } core sched = true → pick { s with agenda := rest } core sched = some (gid, si) →
    ctxOf ⟨false, 7, 0, false⟩ (fetching { s with agenda := rest } core sched gid si) = some c →
    beforeNext (fetching { s with agenda := rest } core sched gid si) c = none →
    primaryFault (fetching { s with agenda := rest } core sched gid si) c = none →
    wordsAt (fetching { s with agenda := rest } core sched gid si) (dieOfGroup gid) c.launch c.pc ws v → Decode.decode ws = .ok i →
    ((∀ u, exec i v = .next u → u.groups.get? gid ≠ v.groups.get? gid) → step s = exec i v)
    ∧ (∀ u, exec i v = .next u → u.groups.get? gid = v.groups.get? gid →
        step s = issueTurn (notReady { s with agenda := rest } u core gid si) core sched (issueOrder { s with agenda := rest } core sched).tail)

/-! ### The machine as a whole -/

/-- After reset memory lists nothing and is in its canonical form. -/
def Obligations.ResetSafe : Prop := Safe State.reset

/-- Every step keeps memory in its canonical form. -/
def Obligations.SafeKept : Prop := ∀ s t : State, Safe s → step s = .next t → Safe t

/-- R5, R19, R296: fabric time never goes back on any die, but for a power-on reset. -/
def Obligations.FabricTimeForward : Prop :=
  ∀ (s t : State) (d : Nat), (∀ fs rest, s.agenda ≠ .event (.powerOnReset fs) :: rest) → step s = .next t → (s.die d).time ≤ (t.die d).time

/-- What power-on reset leaves (R6, R19, R71, R160, R377): four dies awake at fabric time 0 with %front all ones, no launch, block, group
or lease, and the management unit's ring empty. That memory reads 0 is the model's choice (log 3). -/
def Obligations.ResetState : Prop :=
  (∀ d, (State.reset.die d).time = 0 ∧ (State.reset.die d).awake = true ∧ (State.reset.die d).front = (BitVec.allOnes 64, BitVec.allOnes 64))
    ∧ State.reset.clk = 0 ∧ State.reset.launches = [] ∧ State.reset.blocks = [] ∧ State.reset.groups = [] ∧ State.reset.tasks = []
    ∧ (∀ l, (State.reset.line l).leaseLen = 64 ∧ (State.reset.line l).expiry = 0 ∧ (State.reset.line l).poison = false)
    ∧ State.reset.mgmt.cmdBase = 0 ∧ State.reset.mgmt.cmdSize = 0 ∧ State.reset.mgmt.cmdProd = 0 ∧ State.reset.mgmt.cmdCons = 0
    ∧ ∀ a, State.reset.byte a = 0
end

