-- ==== Sys2Proof/Laws/Maps.lean ====
section
/-!
SUPPORT. Laws of the keyed lists: a read after a write, on any list, and that every operation keeps the canonical form.
-/
namespace Sys2Proof

variable {α : Type}

/-! ### Reads after writes -/

@[simp] theorem Map.get?_nil (k : Nat) : Map.get? ([] : Map α) k = none := rfl

theorem Map.get?_put (m : Map α) (k j : Nat) (v : α) : Map.get? (Map.put m k v) j = if k = j then some v else Map.get? m j := by
  induction m with
  | nil => simp [Map.put, Map.get?]
  | cons p t ih =>
    obtain ⟨i, w⟩ := p
    simp only [Map.put]
    split
    · simp [Map.get?]
    · split
      · subst_vars
        simp only [Map.get?]
        split <;> rfl
      · simp only [Map.get?, ih]
        split <;> split <;> simp_all

@[simp] theorem Map.get?_put_self (m : Map α) (k : Nat) (v : α) : Map.get? (Map.put m k v) k = some v := by simp [Map.get?_put]

theorem Map.get?_put_ne (m : Map α) {k j : Nat} (v : α) (h : k ≠ j) : Map.get? (Map.put m k v) j = Map.get? m j := by
  simp [Map.get?_put, h]

theorem Map.get?_del (m : Map α) (k j : Nat) : Map.get? (Map.del m k) j = if k = j then none else Map.get? m j := by
  induction m with
  | nil => simp [Map.del, Map.get?]
  | cons p t ih =>
    obtain ⟨i, w⟩ := p
    simp only [Map.del, List.filter_cons] at ih ⊢
    by_cases hi : i = k
    · subst hi
      by_cases hj : i = j <;> simp_all [Map.get?]
    · simp only [bne_iff_ne, ne_eq, hi, not_false_eq_true, ite_true, Map.get?, ih]
      split <;> split <;> simp_all

theorem Map.get?_putD [DecidableEq α] (m : Map α) (d : α) (k j : Nat) (v : α) :
    Map.get? (Map.putD m d k v) j = if k = j then (if v = d then none else some v) else Map.get? m j := by
  unfold Map.putD
  split
  · rw [Map.get?_del]
  · rw [Map.get?_put]

theorem Map.getD_putD [DecidableEq α] (m : Map α) (d : α) (k j : Nat) (v : α) :
    Map.getD (Map.putD m d k v) j d = if k = j then v else Map.getD m j d := by
  unfold Map.getD
  rw [Map.get?_putD]
  split
  · split
    · subst_vars; rfl
    · rfl
  · rfl

@[simp] theorem Map.getD_putD_self [DecidableEq α] (m : Map α) (d : α) (k : Nat) (v : α) : Map.getD (Map.putD m d k v) k d = v := by
  simp [Map.getD_putD]

theorem Map.getD_putD_ne [DecidableEq α] (m : Map α) (d : α) {k j : Nat} (v : α) (h : k ≠ j) :
    Map.getD (Map.putD m d k v) j d = Map.getD m j d := by simp [Map.getD_putD, h]

theorem Map.getD_put (m : Map α) (k j : Nat) (v d : α) : Map.getD (Map.put m k v) j d = if k = j then v else Map.getD m j d := by
  unfold Map.getD
  rw [Map.get?_put]
  split <;> rfl

theorem Map.get?_modify (m : Map α) (k j : Nat) (f : α → α) :
    Map.get? (Map.modify m k f) j = if k = j then (Map.get? m j).map f else Map.get? m j := by
  induction m with
  | nil => simp [Map.modify, Map.get?]
  | cons p t ih =>
    obtain ⟨i, w⟩ := p
    simp only [Map.modify, List.map_cons] at ih ⊢
    by_cases hi : i = k
    · subst hi
      by_cases hj : i = j <;> simp_all [Map.get?]
    · by_cases hj : i = j
      · subst hj; simp [Map.get?, hi, Ne.symm hi]
      · simp [Map.get?, hi, hj, ih]

@[simp] theorem Map.get?_modify_self (m : Map α) (k : Nat) (f : α → α) : Map.get? (Map.modify m k f) k = (Map.get? m k).map f := by
  simp [Map.get?_modify]

theorem Map.get?_modify_ne (m : Map α) {k j : Nat} (f : α → α) (h : k ≠ j) : Map.get? (Map.modify m k f) j = Map.get? m j := by
  simp [Map.get?_modify, h]

/-- Keeping the pairs whose key a test holds for. -/
theorem Map.get?_filter (m : Map α) (p : Nat → Bool) (j : Nat) :
    Map.get? (m.filter (fun x => p x.1)) j = if p j then Map.get? m j else none := by
  induction m with
  | nil => simp [Map.get?]
  | cons q t ih =>
    obtain ⟨i, w⟩ := q
    simp only [List.filter_cons]
    by_cases hi : p i
    · simp only [hi, ite_true, Map.get?, ih]
      split
      · subst_vars; simp [hi]
      · rfl
    · by_cases hj : i = j
      · subst hj; simp [hi, ih]
      · simp [hi, hj, ih, Map.get?]

/-- A change of every value, by key. -/
theorem Map.get?_mapVals {β : Type} (m : Map α) (f : Nat → α → β) (j : Nat) :
    Map.get? (m.map (fun p => (p.1, f p.1 p.2))) j = (Map.get? m j).map (f j) := by
  induction m with
  | nil => rfl
  | cons q t ih =>
    obtain ⟨i, w⟩ := q
    simp only [List.map_cons, Map.get?]
    split
    · subst_vars; rfl
    · exact ih

/-! ### The canonical form -/

theorem Map.risingFrom_le (m : Map α) {a b : Nat} (h : b ≤ a) (r : Map.risingFrom m a = true) : Map.risingFrom m b = true := by
  cases m with
  | nil => rfl
  | cons p t =>
    obtain ⟨j, w⟩ := p
    simp only [Map.risingFrom, Bool.and_eq_true, decide_eq_true_eq] at r ⊢
    exact ⟨le_trans h r.1, r.2⟩

theorem Map.risingFrom_filter (m : Map α) (p : Nat × α → Bool) (b : Nat) (r : Map.risingFrom m b = true) :
    Map.risingFrom (m.filter p) b = true := by
  induction m generalizing b with
  | nil => rfl
  | cons q t ih =>
    obtain ⟨j, w⟩ := q
    simp only [Map.risingFrom, Bool.and_eq_true, decide_eq_true_eq] at r
    simp only [List.filter_cons]
    split
    · simp only [Map.risingFrom, Bool.and_eq_true, decide_eq_true_eq]
      exact ⟨r.1, ih _ r.2⟩
    · exact Map.risingFrom_le _ (le_trans r.1 (Nat.le_succ j)) (ih _ r.2)

theorem Map.risingFrom_put (m : Map α) (k : Nat) (v : α) (b : Nat) (hb : b ≤ k) (r : Map.risingFrom m b = true) :
    Map.risingFrom (Map.put m k v) b = true := by
  induction m generalizing b with
  | nil => simp [Map.put, Map.risingFrom, hb]
  | cons q t ih =>
    obtain ⟨j, w⟩ := q
    simp only [Map.risingFrom, Bool.and_eq_true, decide_eq_true_eq] at r
    simp only [Map.put]
    split
    · simp only [Map.risingFrom, Bool.and_eq_true, decide_eq_true_eq]
      exact ⟨hb, by omega, r.2⟩
    · split
      · subst_vars
        simp only [Map.risingFrom, Bool.and_eq_true, decide_eq_true_eq]
        exact ⟨hb, r.2⟩
      · simp only [Map.risingFrom, Bool.and_eq_true, decide_eq_true_eq]
        exact ⟨r.1, ih _ (by omega) r.2⟩

theorem Map.all_put (m : Map α) (p : Nat × α → Bool) (k : Nat) (v : α) (h : m.all p = true) (hv : p (k, v) = true) :
    (Map.put m k v).all p = true := by
  induction m with
  | nil => simp [Map.put, hv]
  | cons q t ih =>
    obtain ⟨j, w⟩ := q
    simp only [List.all_cons, Bool.and_eq_true] at h
    simp only [Map.put]
    split
    · simp_all
    · split
      · simp_all
      · simp_all

theorem Map.canon_filter [DecidableEq α] (m : Map α) (d : α) (p : Nat × α → Bool) (h : Map.canon m d = true) :
    Map.canon (m.filter p) d = true := by
  simp only [Map.canon, Map.rising, Bool.and_eq_true] at h ⊢
  refine ⟨Map.risingFrom_filter m p 0 h.1, ?_⟩
  simp only [List.all_eq_true] at h ⊢
  exact fun x hx => h.2 x (List.mem_of_mem_filter hx)

theorem Map.canon_del [DecidableEq α] (m : Map α) (d : α) (k : Nat) (h : Map.canon m d = true) : Map.canon (Map.del m k) d = true :=
  Map.canon_filter m d _ h

theorem Map.canon_putD [DecidableEq α] (m : Map α) (d : α) (k : Nat) (v : α) (h : Map.canon m d = true) :
    Map.canon (Map.putD m d k v) d = true := by
  unfold Map.putD
  split
  · exact Map.canon_del m d k h
  · rename_i hv
    simp only [Map.canon, Map.rising, Bool.and_eq_true] at h ⊢
    exact ⟨Map.risingFrom_put m k v 0 (Nat.zero_le k) h.1, Map.all_put m _ k v h.2 (by simpa using hv)⟩

end Sys2Proof
end

