-- ==== Sys2Proof/Laws/State.lean ====
section
/-!
SUPPORT. What each update of the state leaves in each field, so that no proof unfolds a record update.
-/
namespace Sys2Proof.Machine

variable (s : State)

/-! ### setCore -/

@[simp] theorem State.setCore_agenda (c : Nat) (f : Core → Core) : (s.setCore c f).agenda = s.agenda := rfl
@[simp] theorem State.setCore_cur (c : Nat) (f : Core → Core) : (s.setCore c f).cur = s.cur := rfl
@[simp] theorem State.setCore_freeCtr (c : Nat) (f : Core → Core) : (s.setCore c f).freeCtr = s.freeCtr := rfl
@[simp] theorem State.setCore_nextId (c : Nat) (f : Core → Core) : (s.setCore c f).nextId = s.nextId := rfl
@[simp] theorem State.setCore_clk (c : Nat) (f : Core → Core) : (s.setCore c f).clk = s.clk := rfl
@[simp] theorem State.setCore_mem (c : Nat) (f : Core → Core) : (s.setCore c f).mem = s.mem := rfl
@[simp] theorem State.setCore_past (c : Nat) (f : Core → Core) : (s.setCore c f).past = s.past := rfl
@[simp] theorem State.setCore_dies (c : Nat) (f : Core → Core) : (s.setCore c f).dies = s.dies := rfl
@[simp] theorem State.setCore_cores (c : Nat) (f : Core → Core) : (s.setCore c f).cores = s.cores.put c (f (s.core c)) := rfl
@[simp] theorem State.setCore_groups (c : Nat) (f : Core → Core) : (s.setCore c f).groups = s.groups := rfl
@[simp] theorem State.setCore_blocks (c : Nat) (f : Core → Core) : (s.setCore c f).blocks = s.blocks := rfl
@[simp] theorem State.setCore_launches (c : Nat) (f : Core → Core) : (s.setCore c f).launches = s.launches := rfl
@[simp] theorem State.setCore_reports (c : Nat) (f : Core → Core) : (s.setCore c f).reports = s.reports := rfl
@[simp] theorem State.setCore_classes (c : Nat) (f : Core → Core) : (s.setCore c f).classes = s.classes := rfl
@[simp] theorem State.setCore_reserves (c : Nat) (f : Core → Core) : (s.setCore c f).reserves = s.reserves := rfl
@[simp] theorem State.setCore_nextGang (c : Nat) (f : Core → Core) : (s.setCore c f).nextGang = s.nextGang := rfl
@[simp] theorem State.setCore_lines (c : Nat) (f : Core → Core) : (s.setCore c f).lines = s.lines := rfl
@[simp] theorem State.setCore_proxies (c : Nat) (f : Core → Core) : (s.setCore c f).proxies = s.proxies := rfl
@[simp] theorem State.setCore_hostHalves (c : Nat) (f : Core → Core) : (s.setCore c f).hostHalves = s.hostHalves := rfl
@[simp] theorem State.setCore_msgs (c : Nat) (f : Core → Core) : (s.setCore c f).msgs = s.msgs := rfl
@[simp] theorem State.setCore_accs (c : Nat) (f : Core → Core) : (s.setCore c f).accs = s.accs := rfl
@[simp] theorem State.setCore_toks (c : Nat) (f : Core → Core) : (s.setCore c f).toks = s.toks := rfl
@[simp] theorem State.setCore_obs (c : Nat) (f : Core → Core) : (s.setCore c f).obs = s.obs := rfl
@[simp] theorem State.setCore_seen (c : Nat) (f : Core → Core) : (s.setCore c f).seen = s.seen := rfl
@[simp] theorem State.setCore_fenced (c : Nat) (f : Core → Core) : (s.setCore c f).fenced = s.fenced := rfl
@[simp] theorem State.setCore_carry (c : Nat) (f : Core → Core) : (s.setCore c f).carry = s.carry := rfl
@[simp] theorem State.setCore_cmps (c : Nat) (f : Core → Core) : (s.setCore c f).cmps = s.cmps := rfl
@[simp] theorem State.setCore_snaps (c : Nat) (f : Core → Core) : (s.setCore c f).snaps = s.snaps := rfl
@[simp] theorem State.setCore_cmds (c : Nat) (f : Core → Core) : (s.setCore c f).cmds = s.cmds := rfl
@[simp] theorem State.setCore_ranges (c : Nat) (f : Core → Core) : (s.setCore c f).ranges = s.ranges := rfl
@[simp] theorem State.setCore_colls (c : Nat) (f : Core → Core) : (s.setCore c f).colls = s.colls := rfl
@[simp] theorem State.setCore_tasks (c : Nat) (f : Core → Core) : (s.setCore c f).tasks = s.tasks := rfl
@[simp] theorem State.setCore_round (c : Nat) (f : Core → Core) : (s.setCore c f).round = s.round := rfl
@[simp] theorem State.setCore_roundG (c : Nat) (f : Core → Core) : (s.setCore c f).roundG = s.roundG := rfl
@[simp] theorem State.setCore_roundTasks (c : Nat) (f : Core → Core) : (s.setCore c f).roundTasks = s.roundTasks := rfl
@[simp] theorem State.setCore_queue (c : Nat) (f : Core → Core) : (s.setCore c f).queue = s.queue := rfl
@[simp] theorem State.setCore_seqs (c : Nat) (f : Core → Core) : (s.setCore c f).seqs = s.seqs := rfl
@[simp] theorem State.setCore_pegs (c : Nat) (f : Core → Core) : (s.setCore c f).pegs = s.pegs := rfl
@[simp] theorem State.setCore_lockReqs (c : Nat) (f : Core → Core) : (s.setCore c f).lockReqs = s.lockReqs := rfl
@[simp] theorem State.setCore_broken (c : Nat) (f : Core → Core) : (s.setCore c f).broken = s.broken := rfl
@[simp] theorem State.setCore_spills (c : Nat) (f : Core → Core) : (s.setCore c f).spills = s.spills := rfl
@[simp] theorem State.setCore_claims (c : Nat) (f : Core → Core) : (s.setCore c f).claims = s.claims := rfl
@[simp] theorem State.setCore_convs (c : Nat) (f : Core → Core) : (s.setCore c f).convs = s.convs := rfl
@[simp] theorem State.setCore_spaces (c : Nat) (f : Core → Core) : (s.setCore c f).spaces = s.spaces := rfl
@[simp] theorem State.setCore_tlb (c : Nat) (f : Core → Core) : (s.setCore c f).tlb = s.tlb := rfl
@[simp] theorem State.setCore_settled (c : Nat) (f : Core → Core) : (s.setCore c f).settled = s.settled := rfl
@[simp] theorem State.setCore_faultq (c : Nat) (f : Core → Core) : (s.setCore c f).faultq = s.faultq := rfl
@[simp] theorem State.setCore_faultProd (c : Nat) (f : Core → Core) : (s.setCore c f).faultProd = s.faultProd := rfl
@[simp] theorem State.setCore_faults (c : Nat) (f : Core → Core) : (s.setCore c f).faults = s.faults := rfl
@[simp] theorem State.setCore_queues (c : Nat) (f : Core → Core) : (s.setCore c f).queues = s.queues := rfl
@[simp] theorem State.setCore_bias (c : Nat) (f : Core → Core) : (s.setCore c f).bias = s.bias := rfl
@[simp] theorem State.setCore_mgmt (c : Nat) (f : Core → Core) : (s.setCore c f).mgmt = s.mgmt := rfl
@[simp] theorem State.setCore_images (c : Nat) (f : Core → Core) : (s.setCore c f).images = s.images := rfl
@[simp] theorem State.setCore_bents (c : Nat) (f : Core → Core) : (s.setCore c f).bents = s.bents := rfl
@[simp] theorem State.setCore_triggers (c : Nat) (f : Core → Core) : (s.setCore c f).triggers = s.triggers := rfl
@[simp] theorem State.setCore_die (c : Nat) (f : Core → Core) (x : Nat) : (s.setCore c f).die x = s.die x := rfl
@[simp] theorem State.setCore_line (c : Nat) (f : Core → Core) (x : Nat) : (s.setCore c f).line x = s.line x := rfl
@[simp] theorem State.setCore_byte (c : Nat) (f : Core → Core) (x : Nat) : (s.setCore c f).byte x = s.byte x := rfl

/-! ### setDie -/

@[simp] theorem State.setDie_agenda (d : Nat) (f : Die → Die) : (s.setDie d f).agenda = s.agenda := rfl
@[simp] theorem State.setDie_cur (d : Nat) (f : Die → Die) : (s.setDie d f).cur = s.cur := rfl
@[simp] theorem State.setDie_freeCtr (d : Nat) (f : Die → Die) : (s.setDie d f).freeCtr = s.freeCtr := rfl
@[simp] theorem State.setDie_nextId (d : Nat) (f : Die → Die) : (s.setDie d f).nextId = s.nextId := rfl
@[simp] theorem State.setDie_clk (d : Nat) (f : Die → Die) : (s.setDie d f).clk = s.clk := rfl
@[simp] theorem State.setDie_mem (d : Nat) (f : Die → Die) : (s.setDie d f).mem = s.mem := rfl
@[simp] theorem State.setDie_past (d : Nat) (f : Die → Die) : (s.setDie d f).past = s.past := rfl
@[simp] theorem State.setDie_dies (d : Nat) (f : Die → Die) : (s.setDie d f).dies = s.dies.put d (f (s.die d)) := rfl
@[simp] theorem State.setDie_cores (d : Nat) (f : Die → Die) : (s.setDie d f).cores = s.cores := rfl
@[simp] theorem State.setDie_groups (d : Nat) (f : Die → Die) : (s.setDie d f).groups = s.groups := rfl
@[simp] theorem State.setDie_blocks (d : Nat) (f : Die → Die) : (s.setDie d f).blocks = s.blocks := rfl
@[simp] theorem State.setDie_launches (d : Nat) (f : Die → Die) : (s.setDie d f).launches = s.launches := rfl
@[simp] theorem State.setDie_reports (d : Nat) (f : Die → Die) : (s.setDie d f).reports = s.reports := rfl
@[simp] theorem State.setDie_classes (d : Nat) (f : Die → Die) : (s.setDie d f).classes = s.classes := rfl
@[simp] theorem State.setDie_reserves (d : Nat) (f : Die → Die) : (s.setDie d f).reserves = s.reserves := rfl
@[simp] theorem State.setDie_nextGang (d : Nat) (f : Die → Die) : (s.setDie d f).nextGang = s.nextGang := rfl
@[simp] theorem State.setDie_lines (d : Nat) (f : Die → Die) : (s.setDie d f).lines = s.lines := rfl
@[simp] theorem State.setDie_proxies (d : Nat) (f : Die → Die) : (s.setDie d f).proxies = s.proxies := rfl
@[simp] theorem State.setDie_hostHalves (d : Nat) (f : Die → Die) : (s.setDie d f).hostHalves = s.hostHalves := rfl
@[simp] theorem State.setDie_msgs (d : Nat) (f : Die → Die) : (s.setDie d f).msgs = s.msgs := rfl
@[simp] theorem State.setDie_accs (d : Nat) (f : Die → Die) : (s.setDie d f).accs = s.accs := rfl
@[simp] theorem State.setDie_toks (d : Nat) (f : Die → Die) : (s.setDie d f).toks = s.toks := rfl
@[simp] theorem State.setDie_obs (d : Nat) (f : Die → Die) : (s.setDie d f).obs = s.obs := rfl
@[simp] theorem State.setDie_seen (d : Nat) (f : Die → Die) : (s.setDie d f).seen = s.seen := rfl
@[simp] theorem State.setDie_fenced (d : Nat) (f : Die → Die) : (s.setDie d f).fenced = s.fenced := rfl
@[simp] theorem State.setDie_carry (d : Nat) (f : Die → Die) : (s.setDie d f).carry = s.carry := rfl
@[simp] theorem State.setDie_cmps (d : Nat) (f : Die → Die) : (s.setDie d f).cmps = s.cmps := rfl
@[simp] theorem State.setDie_snaps (d : Nat) (f : Die → Die) : (s.setDie d f).snaps = s.snaps := rfl
@[simp] theorem State.setDie_cmds (d : Nat) (f : Die → Die) : (s.setDie d f).cmds = s.cmds := rfl
@[simp] theorem State.setDie_ranges (d : Nat) (f : Die → Die) : (s.setDie d f).ranges = s.ranges := rfl
@[simp] theorem State.setDie_colls (d : Nat) (f : Die → Die) : (s.setDie d f).colls = s.colls := rfl
@[simp] theorem State.setDie_tasks (d : Nat) (f : Die → Die) : (s.setDie d f).tasks = s.tasks := rfl
@[simp] theorem State.setDie_round (d : Nat) (f : Die → Die) : (s.setDie d f).round = s.round := rfl
@[simp] theorem State.setDie_roundG (d : Nat) (f : Die → Die) : (s.setDie d f).roundG = s.roundG := rfl
@[simp] theorem State.setDie_roundTasks (d : Nat) (f : Die → Die) : (s.setDie d f).roundTasks = s.roundTasks := rfl
@[simp] theorem State.setDie_queue (d : Nat) (f : Die → Die) : (s.setDie d f).queue = s.queue := rfl
@[simp] theorem State.setDie_seqs (d : Nat) (f : Die → Die) : (s.setDie d f).seqs = s.seqs := rfl
@[simp] theorem State.setDie_pegs (d : Nat) (f : Die → Die) : (s.setDie d f).pegs = s.pegs := rfl
@[simp] theorem State.setDie_lockReqs (d : Nat) (f : Die → Die) : (s.setDie d f).lockReqs = s.lockReqs := rfl
@[simp] theorem State.setDie_broken (d : Nat) (f : Die → Die) : (s.setDie d f).broken = s.broken := rfl
@[simp] theorem State.setDie_spills (d : Nat) (f : Die → Die) : (s.setDie d f).spills = s.spills := rfl
@[simp] theorem State.setDie_claims (d : Nat) (f : Die → Die) : (s.setDie d f).claims = s.claims := rfl
@[simp] theorem State.setDie_convs (d : Nat) (f : Die → Die) : (s.setDie d f).convs = s.convs := rfl
@[simp] theorem State.setDie_spaces (d : Nat) (f : Die → Die) : (s.setDie d f).spaces = s.spaces := rfl
@[simp] theorem State.setDie_tlb (d : Nat) (f : Die → Die) : (s.setDie d f).tlb = s.tlb := rfl
@[simp] theorem State.setDie_settled (d : Nat) (f : Die → Die) : (s.setDie d f).settled = s.settled := rfl
@[simp] theorem State.setDie_faultq (d : Nat) (f : Die → Die) : (s.setDie d f).faultq = s.faultq := rfl
@[simp] theorem State.setDie_faultProd (d : Nat) (f : Die → Die) : (s.setDie d f).faultProd = s.faultProd := rfl
@[simp] theorem State.setDie_faults (d : Nat) (f : Die → Die) : (s.setDie d f).faults = s.faults := rfl
@[simp] theorem State.setDie_queues (d : Nat) (f : Die → Die) : (s.setDie d f).queues = s.queues := rfl
@[simp] theorem State.setDie_bias (d : Nat) (f : Die → Die) : (s.setDie d f).bias = s.bias := rfl
@[simp] theorem State.setDie_mgmt (d : Nat) (f : Die → Die) : (s.setDie d f).mgmt = s.mgmt := rfl
@[simp] theorem State.setDie_images (d : Nat) (f : Die → Die) : (s.setDie d f).images = s.images := rfl
@[simp] theorem State.setDie_bents (d : Nat) (f : Die → Die) : (s.setDie d f).bents = s.bents := rfl
@[simp] theorem State.setDie_triggers (d : Nat) (f : Die → Die) : (s.setDie d f).triggers = s.triggers := rfl
@[simp] theorem State.setDie_core (d : Nat) (f : Die → Die) (x : Nat) : (s.setDie d f).core x = s.core x := rfl
@[simp] theorem State.setDie_line (d : Nat) (f : Die → Die) (x : Nat) : (s.setDie d f).line x = s.line x := rfl
@[simp] theorem State.setDie_byte (d : Nat) (f : Die → Die) (x : Nat) : (s.setDie d f).byte x = s.byte x := rfl

/-! ### setLine -/

@[simp] theorem State.setLine_agenda (l : Nat) (f : Line → Line) : (s.setLine l f).agenda = s.agenda := rfl
@[simp] theorem State.setLine_cur (l : Nat) (f : Line → Line) : (s.setLine l f).cur = s.cur := rfl
@[simp] theorem State.setLine_freeCtr (l : Nat) (f : Line → Line) : (s.setLine l f).freeCtr = s.freeCtr := rfl
@[simp] theorem State.setLine_nextId (l : Nat) (f : Line → Line) : (s.setLine l f).nextId = s.nextId := rfl
@[simp] theorem State.setLine_clk (l : Nat) (f : Line → Line) : (s.setLine l f).clk = s.clk := rfl
@[simp] theorem State.setLine_mem (l : Nat) (f : Line → Line) : (s.setLine l f).mem = s.mem := rfl
@[simp] theorem State.setLine_past (l : Nat) (f : Line → Line) : (s.setLine l f).past = s.past := rfl
@[simp] theorem State.setLine_dies (l : Nat) (f : Line → Line) : (s.setLine l f).dies = s.dies := rfl
@[simp] theorem State.setLine_cores (l : Nat) (f : Line → Line) : (s.setLine l f).cores = s.cores := rfl
@[simp] theorem State.setLine_groups (l : Nat) (f : Line → Line) : (s.setLine l f).groups = s.groups := rfl
@[simp] theorem State.setLine_blocks (l : Nat) (f : Line → Line) : (s.setLine l f).blocks = s.blocks := rfl
@[simp] theorem State.setLine_launches (l : Nat) (f : Line → Line) : (s.setLine l f).launches = s.launches := rfl
@[simp] theorem State.setLine_reports (l : Nat) (f : Line → Line) : (s.setLine l f).reports = s.reports := rfl
@[simp] theorem State.setLine_classes (l : Nat) (f : Line → Line) : (s.setLine l f).classes = s.classes := rfl
@[simp] theorem State.setLine_reserves (l : Nat) (f : Line → Line) : (s.setLine l f).reserves = s.reserves := rfl
@[simp] theorem State.setLine_nextGang (l : Nat) (f : Line → Line) : (s.setLine l f).nextGang = s.nextGang := rfl
@[simp] theorem State.setLine_lines (l : Nat) (f : Line → Line) : (s.setLine l f).lines = s.lines.put l (f (s.line l)) := rfl
@[simp] theorem State.setLine_proxies (l : Nat) (f : Line → Line) : (s.setLine l f).proxies = s.proxies := rfl
@[simp] theorem State.setLine_hostHalves (l : Nat) (f : Line → Line) : (s.setLine l f).hostHalves = s.hostHalves := rfl
@[simp] theorem State.setLine_msgs (l : Nat) (f : Line → Line) : (s.setLine l f).msgs = s.msgs := rfl
@[simp] theorem State.setLine_accs (l : Nat) (f : Line → Line) : (s.setLine l f).accs = s.accs := rfl
@[simp] theorem State.setLine_toks (l : Nat) (f : Line → Line) : (s.setLine l f).toks = s.toks := rfl
@[simp] theorem State.setLine_obs (l : Nat) (f : Line → Line) : (s.setLine l f).obs = s.obs := rfl
@[simp] theorem State.setLine_seen (l : Nat) (f : Line → Line) : (s.setLine l f).seen = s.seen := rfl
@[simp] theorem State.setLine_fenced (l : Nat) (f : Line → Line) : (s.setLine l f).fenced = s.fenced := rfl
@[simp] theorem State.setLine_carry (l : Nat) (f : Line → Line) : (s.setLine l f).carry = s.carry := rfl
@[simp] theorem State.setLine_cmps (l : Nat) (f : Line → Line) : (s.setLine l f).cmps = s.cmps := rfl
@[simp] theorem State.setLine_snaps (l : Nat) (f : Line → Line) : (s.setLine l f).snaps = s.snaps := rfl
@[simp] theorem State.setLine_cmds (l : Nat) (f : Line → Line) : (s.setLine l f).cmds = s.cmds := rfl
@[simp] theorem State.setLine_ranges (l : Nat) (f : Line → Line) : (s.setLine l f).ranges = s.ranges := rfl
@[simp] theorem State.setLine_colls (l : Nat) (f : Line → Line) : (s.setLine l f).colls = s.colls := rfl
@[simp] theorem State.setLine_tasks (l : Nat) (f : Line → Line) : (s.setLine l f).tasks = s.tasks := rfl
@[simp] theorem State.setLine_round (l : Nat) (f : Line → Line) : (s.setLine l f).round = s.round := rfl
@[simp] theorem State.setLine_roundG (l : Nat) (f : Line → Line) : (s.setLine l f).roundG = s.roundG := rfl
@[simp] theorem State.setLine_roundTasks (l : Nat) (f : Line → Line) : (s.setLine l f).roundTasks = s.roundTasks := rfl
@[simp] theorem State.setLine_queue (l : Nat) (f : Line → Line) : (s.setLine l f).queue = s.queue := rfl
@[simp] theorem State.setLine_seqs (l : Nat) (f : Line → Line) : (s.setLine l f).seqs = s.seqs := rfl
@[simp] theorem State.setLine_pegs (l : Nat) (f : Line → Line) : (s.setLine l f).pegs = s.pegs := rfl
@[simp] theorem State.setLine_lockReqs (l : Nat) (f : Line → Line) : (s.setLine l f).lockReqs = s.lockReqs := rfl
@[simp] theorem State.setLine_broken (l : Nat) (f : Line → Line) : (s.setLine l f).broken = s.broken := rfl
@[simp] theorem State.setLine_spills (l : Nat) (f : Line → Line) : (s.setLine l f).spills = s.spills := rfl
@[simp] theorem State.setLine_claims (l : Nat) (f : Line → Line) : (s.setLine l f).claims = s.claims := rfl
@[simp] theorem State.setLine_convs (l : Nat) (f : Line → Line) : (s.setLine l f).convs = s.convs := rfl
@[simp] theorem State.setLine_spaces (l : Nat) (f : Line → Line) : (s.setLine l f).spaces = s.spaces := rfl
@[simp] theorem State.setLine_tlb (l : Nat) (f : Line → Line) : (s.setLine l f).tlb = s.tlb := rfl
@[simp] theorem State.setLine_settled (l : Nat) (f : Line → Line) : (s.setLine l f).settled = s.settled := rfl
@[simp] theorem State.setLine_faultq (l : Nat) (f : Line → Line) : (s.setLine l f).faultq = s.faultq := rfl
@[simp] theorem State.setLine_faultProd (l : Nat) (f : Line → Line) : (s.setLine l f).faultProd = s.faultProd := rfl
@[simp] theorem State.setLine_faults (l : Nat) (f : Line → Line) : (s.setLine l f).faults = s.faults := rfl
@[simp] theorem State.setLine_queues (l : Nat) (f : Line → Line) : (s.setLine l f).queues = s.queues := rfl
@[simp] theorem State.setLine_bias (l : Nat) (f : Line → Line) : (s.setLine l f).bias = s.bias := rfl
@[simp] theorem State.setLine_mgmt (l : Nat) (f : Line → Line) : (s.setLine l f).mgmt = s.mgmt := rfl
@[simp] theorem State.setLine_images (l : Nat) (f : Line → Line) : (s.setLine l f).images = s.images := rfl
@[simp] theorem State.setLine_bents (l : Nat) (f : Line → Line) : (s.setLine l f).bents = s.bents := rfl
@[simp] theorem State.setLine_triggers (l : Nat) (f : Line → Line) : (s.setLine l f).triggers = s.triggers := rfl
@[simp] theorem State.setLine_core (l : Nat) (f : Line → Line) (x : Nat) : (s.setLine l f).core x = s.core x := rfl
@[simp] theorem State.setLine_die (l : Nat) (f : Line → Line) (x : Nat) : (s.setLine l f).die x = s.die x := rfl
@[simp] theorem State.setLine_byte (l : Nat) (f : Line → Line) (x : Nat) : (s.setLine l f).byte x = s.byte x := rfl

/-! ### setProxy -/

@[simp] theorem State.setProxy_agenda (l d : Nat) (f : Proxy → Proxy) : (s.setProxy l d f).agenda = s.agenda := rfl
@[simp] theorem State.setProxy_cur (l d : Nat) (f : Proxy → Proxy) : (s.setProxy l d f).cur = s.cur := rfl
@[simp] theorem State.setProxy_freeCtr (l d : Nat) (f : Proxy → Proxy) : (s.setProxy l d f).freeCtr = s.freeCtr := rfl
@[simp] theorem State.setProxy_nextId (l d : Nat) (f : Proxy → Proxy) : (s.setProxy l d f).nextId = s.nextId := rfl
@[simp] theorem State.setProxy_clk (l d : Nat) (f : Proxy → Proxy) : (s.setProxy l d f).clk = s.clk := rfl
@[simp] theorem State.setProxy_mem (l d : Nat) (f : Proxy → Proxy) : (s.setProxy l d f).mem = s.mem := rfl
@[simp] theorem State.setProxy_past (l d : Nat) (f : Proxy → Proxy) : (s.setProxy l d f).past = s.past := rfl
@[simp] theorem State.setProxy_dies (l d : Nat) (f : Proxy → Proxy) : (s.setProxy l d f).dies = s.dies := rfl
@[simp] theorem State.setProxy_cores (l d : Nat) (f : Proxy → Proxy) : (s.setProxy l d f).cores = s.cores := rfl
@[simp] theorem State.setProxy_groups (l d : Nat) (f : Proxy → Proxy) : (s.setProxy l d f).groups = s.groups := rfl
@[simp] theorem State.setProxy_blocks (l d : Nat) (f : Proxy → Proxy) : (s.setProxy l d f).blocks = s.blocks := rfl
@[simp] theorem State.setProxy_launches (l d : Nat) (f : Proxy → Proxy) : (s.setProxy l d f).launches = s.launches := rfl
@[simp] theorem State.setProxy_reports (l d : Nat) (f : Proxy → Proxy) : (s.setProxy l d f).reports = s.reports := rfl
@[simp] theorem State.setProxy_classes (l d : Nat) (f : Proxy → Proxy) : (s.setProxy l d f).classes = s.classes := rfl
@[simp] theorem State.setProxy_reserves (l d : Nat) (f : Proxy → Proxy) : (s.setProxy l d f).reserves = s.reserves := rfl
@[simp] theorem State.setProxy_nextGang (l d : Nat) (f : Proxy → Proxy) : (s.setProxy l d f).nextGang = s.nextGang := rfl
@[simp] theorem State.setProxy_lines (l d : Nat) (f : Proxy → Proxy) : (s.setProxy l d f).lines = s.lines := rfl
@[simp] theorem State.setProxy_proxies (l d : Nat) (f : Proxy → Proxy) : (s.setProxy l d f).proxies = s.proxies.put (l * 4 + d) (f (s.proxy l d)) := rfl
@[simp] theorem State.setProxy_hostHalves (l d : Nat) (f : Proxy → Proxy) : (s.setProxy l d f).hostHalves = s.hostHalves := rfl
@[simp] theorem State.setProxy_msgs (l d : Nat) (f : Proxy → Proxy) : (s.setProxy l d f).msgs = s.msgs := rfl
@[simp] theorem State.setProxy_accs (l d : Nat) (f : Proxy → Proxy) : (s.setProxy l d f).accs = s.accs := rfl
@[simp] theorem State.setProxy_toks (l d : Nat) (f : Proxy → Proxy) : (s.setProxy l d f).toks = s.toks := rfl
@[simp] theorem State.setProxy_obs (l d : Nat) (f : Proxy → Proxy) : (s.setProxy l d f).obs = s.obs := rfl
@[simp] theorem State.setProxy_seen (l d : Nat) (f : Proxy → Proxy) : (s.setProxy l d f).seen = s.seen := rfl
@[simp] theorem State.setProxy_fenced (l d : Nat) (f : Proxy → Proxy) : (s.setProxy l d f).fenced = s.fenced := rfl
@[simp] theorem State.setProxy_carry (l d : Nat) (f : Proxy → Proxy) : (s.setProxy l d f).carry = s.carry := rfl
@[simp] theorem State.setProxy_cmps (l d : Nat) (f : Proxy → Proxy) : (s.setProxy l d f).cmps = s.cmps := rfl
@[simp] theorem State.setProxy_snaps (l d : Nat) (f : Proxy → Proxy) : (s.setProxy l d f).snaps = s.snaps := rfl
@[simp] theorem State.setProxy_cmds (l d : Nat) (f : Proxy → Proxy) : (s.setProxy l d f).cmds = s.cmds := rfl
@[simp] theorem State.setProxy_ranges (l d : Nat) (f : Proxy → Proxy) : (s.setProxy l d f).ranges = s.ranges := rfl
@[simp] theorem State.setProxy_colls (l d : Nat) (f : Proxy → Proxy) : (s.setProxy l d f).colls = s.colls := rfl
@[simp] theorem State.setProxy_tasks (l d : Nat) (f : Proxy → Proxy) : (s.setProxy l d f).tasks = s.tasks := rfl
@[simp] theorem State.setProxy_round (l d : Nat) (f : Proxy → Proxy) : (s.setProxy l d f).round = s.round := rfl
@[simp] theorem State.setProxy_roundG (l d : Nat) (f : Proxy → Proxy) : (s.setProxy l d f).roundG = s.roundG := rfl
@[simp] theorem State.setProxy_roundTasks (l d : Nat) (f : Proxy → Proxy) : (s.setProxy l d f).roundTasks = s.roundTasks := rfl
@[simp] theorem State.setProxy_queue (l d : Nat) (f : Proxy → Proxy) : (s.setProxy l d f).queue = s.queue := rfl
@[simp] theorem State.setProxy_seqs (l d : Nat) (f : Proxy → Proxy) : (s.setProxy l d f).seqs = s.seqs := rfl
@[simp] theorem State.setProxy_pegs (l d : Nat) (f : Proxy → Proxy) : (s.setProxy l d f).pegs = s.pegs := rfl
@[simp] theorem State.setProxy_lockReqs (l d : Nat) (f : Proxy → Proxy) : (s.setProxy l d f).lockReqs = s.lockReqs := rfl
@[simp] theorem State.setProxy_broken (l d : Nat) (f : Proxy → Proxy) : (s.setProxy l d f).broken = s.broken := rfl
@[simp] theorem State.setProxy_spills (l d : Nat) (f : Proxy → Proxy) : (s.setProxy l d f).spills = s.spills := rfl
@[simp] theorem State.setProxy_claims (l d : Nat) (f : Proxy → Proxy) : (s.setProxy l d f).claims = s.claims := rfl
@[simp] theorem State.setProxy_convs (l d : Nat) (f : Proxy → Proxy) : (s.setProxy l d f).convs = s.convs := rfl
@[simp] theorem State.setProxy_spaces (l d : Nat) (f : Proxy → Proxy) : (s.setProxy l d f).spaces = s.spaces := rfl
@[simp] theorem State.setProxy_tlb (l d : Nat) (f : Proxy → Proxy) : (s.setProxy l d f).tlb = s.tlb := rfl
@[simp] theorem State.setProxy_settled (l d : Nat) (f : Proxy → Proxy) : (s.setProxy l d f).settled = s.settled := rfl
@[simp] theorem State.setProxy_faultq (l d : Nat) (f : Proxy → Proxy) : (s.setProxy l d f).faultq = s.faultq := rfl
@[simp] theorem State.setProxy_faultProd (l d : Nat) (f : Proxy → Proxy) : (s.setProxy l d f).faultProd = s.faultProd := rfl
@[simp] theorem State.setProxy_faults (l d : Nat) (f : Proxy → Proxy) : (s.setProxy l d f).faults = s.faults := rfl
@[simp] theorem State.setProxy_queues (l d : Nat) (f : Proxy → Proxy) : (s.setProxy l d f).queues = s.queues := rfl
@[simp] theorem State.setProxy_bias (l d : Nat) (f : Proxy → Proxy) : (s.setProxy l d f).bias = s.bias := rfl
@[simp] theorem State.setProxy_mgmt (l d : Nat) (f : Proxy → Proxy) : (s.setProxy l d f).mgmt = s.mgmt := rfl
@[simp] theorem State.setProxy_images (l d : Nat) (f : Proxy → Proxy) : (s.setProxy l d f).images = s.images := rfl
@[simp] theorem State.setProxy_bents (l d : Nat) (f : Proxy → Proxy) : (s.setProxy l d f).bents = s.bents := rfl
@[simp] theorem State.setProxy_triggers (l d : Nat) (f : Proxy → Proxy) : (s.setProxy l d f).triggers = s.triggers := rfl
@[simp] theorem State.setProxy_core (l d : Nat) (f : Proxy → Proxy) (x : Nat) : (s.setProxy l d f).core x = s.core x := rfl
@[simp] theorem State.setProxy_die (l d : Nat) (f : Proxy → Proxy) (x : Nat) : (s.setProxy l d f).die x = s.die x := rfl
@[simp] theorem State.setProxy_line (l d : Nat) (f : Proxy → Proxy) (x : Nat) : (s.setProxy l d f).line x = s.line x := rfl
@[simp] theorem State.setProxy_byte (l d : Nat) (f : Proxy → Proxy) (x : Nat) : (s.setProxy l d f).byte x = s.byte x := rfl

/-! ### setBent -/

@[simp] theorem State.setBent_agenda (b : Nat) (f : Bent → Bent) : (s.setBent b f).agenda = s.agenda := rfl
@[simp] theorem State.setBent_cur (b : Nat) (f : Bent → Bent) : (s.setBent b f).cur = s.cur := rfl
@[simp] theorem State.setBent_freeCtr (b : Nat) (f : Bent → Bent) : (s.setBent b f).freeCtr = s.freeCtr := rfl
@[simp] theorem State.setBent_nextId (b : Nat) (f : Bent → Bent) : (s.setBent b f).nextId = s.nextId := rfl
@[simp] theorem State.setBent_clk (b : Nat) (f : Bent → Bent) : (s.setBent b f).clk = s.clk := rfl
@[simp] theorem State.setBent_mem (b : Nat) (f : Bent → Bent) : (s.setBent b f).mem = s.mem := rfl
@[simp] theorem State.setBent_past (b : Nat) (f : Bent → Bent) : (s.setBent b f).past = s.past := rfl
@[simp] theorem State.setBent_dies (b : Nat) (f : Bent → Bent) : (s.setBent b f).dies = s.dies := rfl
@[simp] theorem State.setBent_cores (b : Nat) (f : Bent → Bent) : (s.setBent b f).cores = s.cores := rfl
@[simp] theorem State.setBent_groups (b : Nat) (f : Bent → Bent) : (s.setBent b f).groups = s.groups := rfl
@[simp] theorem State.setBent_blocks (b : Nat) (f : Bent → Bent) : (s.setBent b f).blocks = s.blocks := rfl
@[simp] theorem State.setBent_launches (b : Nat) (f : Bent → Bent) : (s.setBent b f).launches = s.launches := rfl
@[simp] theorem State.setBent_reports (b : Nat) (f : Bent → Bent) : (s.setBent b f).reports = s.reports := rfl
@[simp] theorem State.setBent_classes (b : Nat) (f : Bent → Bent) : (s.setBent b f).classes = s.classes := rfl
@[simp] theorem State.setBent_reserves (b : Nat) (f : Bent → Bent) : (s.setBent b f).reserves = s.reserves := rfl
@[simp] theorem State.setBent_nextGang (b : Nat) (f : Bent → Bent) : (s.setBent b f).nextGang = s.nextGang := rfl
@[simp] theorem State.setBent_lines (b : Nat) (f : Bent → Bent) : (s.setBent b f).lines = s.lines := rfl
@[simp] theorem State.setBent_proxies (b : Nat) (f : Bent → Bent) : (s.setBent b f).proxies = s.proxies := rfl
@[simp] theorem State.setBent_hostHalves (b : Nat) (f : Bent → Bent) : (s.setBent b f).hostHalves = s.hostHalves := rfl
@[simp] theorem State.setBent_msgs (b : Nat) (f : Bent → Bent) : (s.setBent b f).msgs = s.msgs := rfl
@[simp] theorem State.setBent_accs (b : Nat) (f : Bent → Bent) : (s.setBent b f).accs = s.accs := rfl
@[simp] theorem State.setBent_toks (b : Nat) (f : Bent → Bent) : (s.setBent b f).toks = s.toks := rfl
@[simp] theorem State.setBent_obs (b : Nat) (f : Bent → Bent) : (s.setBent b f).obs = s.obs := rfl
@[simp] theorem State.setBent_seen (b : Nat) (f : Bent → Bent) : (s.setBent b f).seen = s.seen := rfl
@[simp] theorem State.setBent_fenced (b : Nat) (f : Bent → Bent) : (s.setBent b f).fenced = s.fenced := rfl
@[simp] theorem State.setBent_carry (b : Nat) (f : Bent → Bent) : (s.setBent b f).carry = s.carry := rfl
@[simp] theorem State.setBent_cmps (b : Nat) (f : Bent → Bent) : (s.setBent b f).cmps = s.cmps := rfl
@[simp] theorem State.setBent_snaps (b : Nat) (f : Bent → Bent) : (s.setBent b f).snaps = s.snaps := rfl
@[simp] theorem State.setBent_cmds (b : Nat) (f : Bent → Bent) : (s.setBent b f).cmds = s.cmds := rfl
@[simp] theorem State.setBent_ranges (b : Nat) (f : Bent → Bent) : (s.setBent b f).ranges = s.ranges := rfl
@[simp] theorem State.setBent_colls (b : Nat) (f : Bent → Bent) : (s.setBent b f).colls = s.colls := rfl
@[simp] theorem State.setBent_tasks (b : Nat) (f : Bent → Bent) : (s.setBent b f).tasks = s.tasks := rfl
@[simp] theorem State.setBent_round (b : Nat) (f : Bent → Bent) : (s.setBent b f).round = s.round := rfl
@[simp] theorem State.setBent_roundG (b : Nat) (f : Bent → Bent) : (s.setBent b f).roundG = s.roundG := rfl
@[simp] theorem State.setBent_roundTasks (b : Nat) (f : Bent → Bent) : (s.setBent b f).roundTasks = s.roundTasks := rfl
@[simp] theorem State.setBent_queue (b : Nat) (f : Bent → Bent) : (s.setBent b f).queue = s.queue := rfl
@[simp] theorem State.setBent_seqs (b : Nat) (f : Bent → Bent) : (s.setBent b f).seqs = s.seqs := rfl
@[simp] theorem State.setBent_pegs (b : Nat) (f : Bent → Bent) : (s.setBent b f).pegs = s.pegs := rfl
@[simp] theorem State.setBent_lockReqs (b : Nat) (f : Bent → Bent) : (s.setBent b f).lockReqs = s.lockReqs := rfl
@[simp] theorem State.setBent_broken (b : Nat) (f : Bent → Bent) : (s.setBent b f).broken = s.broken := rfl
@[simp] theorem State.setBent_spills (b : Nat) (f : Bent → Bent) : (s.setBent b f).spills = s.spills := rfl
@[simp] theorem State.setBent_claims (b : Nat) (f : Bent → Bent) : (s.setBent b f).claims = s.claims := rfl
@[simp] theorem State.setBent_convs (b : Nat) (f : Bent → Bent) : (s.setBent b f).convs = s.convs := rfl
@[simp] theorem State.setBent_spaces (b : Nat) (f : Bent → Bent) : (s.setBent b f).spaces = s.spaces := rfl
@[simp] theorem State.setBent_tlb (b : Nat) (f : Bent → Bent) : (s.setBent b f).tlb = s.tlb := rfl
@[simp] theorem State.setBent_settled (b : Nat) (f : Bent → Bent) : (s.setBent b f).settled = s.settled := rfl
@[simp] theorem State.setBent_faultq (b : Nat) (f : Bent → Bent) : (s.setBent b f).faultq = s.faultq := rfl
@[simp] theorem State.setBent_faultProd (b : Nat) (f : Bent → Bent) : (s.setBent b f).faultProd = s.faultProd := rfl
@[simp] theorem State.setBent_faults (b : Nat) (f : Bent → Bent) : (s.setBent b f).faults = s.faults := rfl
@[simp] theorem State.setBent_queues (b : Nat) (f : Bent → Bent) : (s.setBent b f).queues = s.queues := rfl
@[simp] theorem State.setBent_bias (b : Nat) (f : Bent → Bent) : (s.setBent b f).bias = s.bias := rfl
@[simp] theorem State.setBent_mgmt (b : Nat) (f : Bent → Bent) : (s.setBent b f).mgmt = s.mgmt := rfl
@[simp] theorem State.setBent_images (b : Nat) (f : Bent → Bent) : (s.setBent b f).images = s.images := rfl
@[simp] theorem State.setBent_bents (b : Nat) (f : Bent → Bent) : (s.setBent b f).bents = s.bents.put b (f (s.bent b)) := rfl
@[simp] theorem State.setBent_triggers (b : Nat) (f : Bent → Bent) : (s.setBent b f).triggers = s.triggers := rfl
@[simp] theorem State.setBent_core (b : Nat) (f : Bent → Bent) (x : Nat) : (s.setBent b f).core x = s.core x := rfl
@[simp] theorem State.setBent_die (b : Nat) (f : Bent → Bent) (x : Nat) : (s.setBent b f).die x = s.die x := rfl
@[simp] theorem State.setBent_line (b : Nat) (f : Bent → Bent) (x : Nat) : (s.setBent b f).line x = s.line x := rfl
@[simp] theorem State.setBent_byte (b : Nat) (f : Bent → Bent) (x : Nat) : (s.setBent b f).byte x = s.byte x := rfl

/-! ### setGroup -/

@[simp] theorem State.setGroup_agenda (g : Nat) (f : Group → Group) : (s.setGroup g f).agenda = s.agenda := rfl
@[simp] theorem State.setGroup_cur (g : Nat) (f : Group → Group) : (s.setGroup g f).cur = s.cur := rfl
@[simp] theorem State.setGroup_freeCtr (g : Nat) (f : Group → Group) : (s.setGroup g f).freeCtr = s.freeCtr := rfl
@[simp] theorem State.setGroup_nextId (g : Nat) (f : Group → Group) : (s.setGroup g f).nextId = s.nextId := rfl
@[simp] theorem State.setGroup_clk (g : Nat) (f : Group → Group) : (s.setGroup g f).clk = s.clk := rfl
@[simp] theorem State.setGroup_mem (g : Nat) (f : Group → Group) : (s.setGroup g f).mem = s.mem := rfl
@[simp] theorem State.setGroup_past (g : Nat) (f : Group → Group) : (s.setGroup g f).past = s.past := rfl
@[simp] theorem State.setGroup_dies (g : Nat) (f : Group → Group) : (s.setGroup g f).dies = s.dies := rfl
@[simp] theorem State.setGroup_cores (g : Nat) (f : Group → Group) : (s.setGroup g f).cores = s.cores := rfl
@[simp] theorem State.setGroup_groups (g : Nat) (f : Group → Group) : (s.setGroup g f).groups = s.groups.modify g f := rfl
@[simp] theorem State.setGroup_blocks (g : Nat) (f : Group → Group) : (s.setGroup g f).blocks = s.blocks := rfl
@[simp] theorem State.setGroup_launches (g : Nat) (f : Group → Group) : (s.setGroup g f).launches = s.launches := rfl
@[simp] theorem State.setGroup_reports (g : Nat) (f : Group → Group) : (s.setGroup g f).reports = s.reports := rfl
@[simp] theorem State.setGroup_classes (g : Nat) (f : Group → Group) : (s.setGroup g f).classes = s.classes := rfl
@[simp] theorem State.setGroup_reserves (g : Nat) (f : Group → Group) : (s.setGroup g f).reserves = s.reserves := rfl
@[simp] theorem State.setGroup_nextGang (g : Nat) (f : Group → Group) : (s.setGroup g f).nextGang = s.nextGang := rfl
@[simp] theorem State.setGroup_lines (g : Nat) (f : Group → Group) : (s.setGroup g f).lines = s.lines := rfl
@[simp] theorem State.setGroup_proxies (g : Nat) (f : Group → Group) : (s.setGroup g f).proxies = s.proxies := rfl
@[simp] theorem State.setGroup_hostHalves (g : Nat) (f : Group → Group) : (s.setGroup g f).hostHalves = s.hostHalves := rfl
@[simp] theorem State.setGroup_msgs (g : Nat) (f : Group → Group) : (s.setGroup g f).msgs = s.msgs := rfl
@[simp] theorem State.setGroup_accs (g : Nat) (f : Group → Group) : (s.setGroup g f).accs = s.accs := rfl
@[simp] theorem State.setGroup_toks (g : Nat) (f : Group → Group) : (s.setGroup g f).toks = s.toks := rfl
@[simp] theorem State.setGroup_obs (g : Nat) (f : Group → Group) : (s.setGroup g f).obs = s.obs := rfl
@[simp] theorem State.setGroup_seen (g : Nat) (f : Group → Group) : (s.setGroup g f).seen = s.seen := rfl
@[simp] theorem State.setGroup_fenced (g : Nat) (f : Group → Group) : (s.setGroup g f).fenced = s.fenced := rfl
@[simp] theorem State.setGroup_carry (g : Nat) (f : Group → Group) : (s.setGroup g f).carry = s.carry := rfl
@[simp] theorem State.setGroup_cmps (g : Nat) (f : Group → Group) : (s.setGroup g f).cmps = s.cmps := rfl
@[simp] theorem State.setGroup_snaps (g : Nat) (f : Group → Group) : (s.setGroup g f).snaps = s.snaps := rfl
@[simp] theorem State.setGroup_cmds (g : Nat) (f : Group → Group) : (s.setGroup g f).cmds = s.cmds := rfl
@[simp] theorem State.setGroup_ranges (g : Nat) (f : Group → Group) : (s.setGroup g f).ranges = s.ranges := rfl
@[simp] theorem State.setGroup_colls (g : Nat) (f : Group → Group) : (s.setGroup g f).colls = s.colls := rfl
@[simp] theorem State.setGroup_tasks (g : Nat) (f : Group → Group) : (s.setGroup g f).tasks = s.tasks := rfl
@[simp] theorem State.setGroup_round (g : Nat) (f : Group → Group) : (s.setGroup g f).round = s.round := rfl
@[simp] theorem State.setGroup_roundG (g : Nat) (f : Group → Group) : (s.setGroup g f).roundG = s.roundG := rfl
@[simp] theorem State.setGroup_roundTasks (g : Nat) (f : Group → Group) : (s.setGroup g f).roundTasks = s.roundTasks := rfl
@[simp] theorem State.setGroup_queue (g : Nat) (f : Group → Group) : (s.setGroup g f).queue = s.queue := rfl
@[simp] theorem State.setGroup_seqs (g : Nat) (f : Group → Group) : (s.setGroup g f).seqs = s.seqs := rfl
@[simp] theorem State.setGroup_pegs (g : Nat) (f : Group → Group) : (s.setGroup g f).pegs = s.pegs := rfl
@[simp] theorem State.setGroup_lockReqs (g : Nat) (f : Group → Group) : (s.setGroup g f).lockReqs = s.lockReqs := rfl
@[simp] theorem State.setGroup_broken (g : Nat) (f : Group → Group) : (s.setGroup g f).broken = s.broken := rfl
@[simp] theorem State.setGroup_spills (g : Nat) (f : Group → Group) : (s.setGroup g f).spills = s.spills := rfl
@[simp] theorem State.setGroup_claims (g : Nat) (f : Group → Group) : (s.setGroup g f).claims = s.claims := rfl
@[simp] theorem State.setGroup_convs (g : Nat) (f : Group → Group) : (s.setGroup g f).convs = s.convs := rfl
@[simp] theorem State.setGroup_spaces (g : Nat) (f : Group → Group) : (s.setGroup g f).spaces = s.spaces := rfl
@[simp] theorem State.setGroup_tlb (g : Nat) (f : Group → Group) : (s.setGroup g f).tlb = s.tlb := rfl
@[simp] theorem State.setGroup_settled (g : Nat) (f : Group → Group) : (s.setGroup g f).settled = s.settled := rfl
@[simp] theorem State.setGroup_faultq (g : Nat) (f : Group → Group) : (s.setGroup g f).faultq = s.faultq := rfl
@[simp] theorem State.setGroup_faultProd (g : Nat) (f : Group → Group) : (s.setGroup g f).faultProd = s.faultProd := rfl
@[simp] theorem State.setGroup_faults (g : Nat) (f : Group → Group) : (s.setGroup g f).faults = s.faults := rfl
@[simp] theorem State.setGroup_queues (g : Nat) (f : Group → Group) : (s.setGroup g f).queues = s.queues := rfl
@[simp] theorem State.setGroup_bias (g : Nat) (f : Group → Group) : (s.setGroup g f).bias = s.bias := rfl
@[simp] theorem State.setGroup_mgmt (g : Nat) (f : Group → Group) : (s.setGroup g f).mgmt = s.mgmt := rfl
@[simp] theorem State.setGroup_images (g : Nat) (f : Group → Group) : (s.setGroup g f).images = s.images := rfl
@[simp] theorem State.setGroup_bents (g : Nat) (f : Group → Group) : (s.setGroup g f).bents = s.bents := rfl
@[simp] theorem State.setGroup_triggers (g : Nat) (f : Group → Group) : (s.setGroup g f).triggers = s.triggers := rfl
@[simp] theorem State.setGroup_core (g : Nat) (f : Group → Group) (x : Nat) : (s.setGroup g f).core x = s.core x := rfl
@[simp] theorem State.setGroup_die (g : Nat) (f : Group → Group) (x : Nat) : (s.setGroup g f).die x = s.die x := rfl
@[simp] theorem State.setGroup_line (g : Nat) (f : Group → Group) (x : Nat) : (s.setGroup g f).line x = s.line x := rfl
@[simp] theorem State.setGroup_byte (g : Nat) (f : Group → Group) (x : Nat) : (s.setGroup g f).byte x = s.byte x := rfl

/-! ### setGroupKept -/

@[simp] theorem State.setGroupKept_agenda (g : Nat) (f : Group → Group) : (s.setGroupKept g f).agenda = s.agenda := rfl
@[simp] theorem State.setGroupKept_cur (g : Nat) (f : Group → Group) : (s.setGroupKept g f).cur = s.cur := rfl
@[simp] theorem State.setGroupKept_freeCtr (g : Nat) (f : Group → Group) : (s.setGroupKept g f).freeCtr = s.freeCtr := rfl
@[simp] theorem State.setGroupKept_nextId (g : Nat) (f : Group → Group) : (s.setGroupKept g f).nextId = s.nextId := rfl
@[simp] theorem State.setGroupKept_clk (g : Nat) (f : Group → Group) : (s.setGroupKept g f).clk = s.clk := rfl
@[simp] theorem State.setGroupKept_mem (g : Nat) (f : Group → Group) : (s.setGroupKept g f).mem = s.mem := rfl
@[simp] theorem State.setGroupKept_past (g : Nat) (f : Group → Group) : (s.setGroupKept g f).past = s.past := rfl
@[simp] theorem State.setGroupKept_dies (g : Nat) (f : Group → Group) : (s.setGroupKept g f).dies = s.dies := rfl
@[simp] theorem State.setGroupKept_cores (g : Nat) (f : Group → Group) : (s.setGroupKept g f).cores = s.cores := rfl
@[simp] theorem State.setGroupKept_groups (g : Nat) (f : Group → Group) : (s.setGroupKept g f).groups = s.groups.modify g f := rfl
@[simp] theorem State.setGroupKept_blocks (g : Nat) (f : Group → Group) : (s.setGroupKept g f).blocks = s.blocks := rfl
@[simp] theorem State.setGroupKept_launches (g : Nat) (f : Group → Group) : (s.setGroupKept g f).launches = s.launches := rfl
@[simp] theorem State.setGroupKept_reports (g : Nat) (f : Group → Group) : (s.setGroupKept g f).reports = s.reports := rfl
@[simp] theorem State.setGroupKept_classes (g : Nat) (f : Group → Group) : (s.setGroupKept g f).classes = s.classes := rfl
@[simp] theorem State.setGroupKept_reserves (g : Nat) (f : Group → Group) : (s.setGroupKept g f).reserves = s.reserves := rfl
@[simp] theorem State.setGroupKept_nextGang (g : Nat) (f : Group → Group) : (s.setGroupKept g f).nextGang = s.nextGang := rfl
@[simp] theorem State.setGroupKept_lines (g : Nat) (f : Group → Group) : (s.setGroupKept g f).lines = s.lines := rfl
@[simp] theorem State.setGroupKept_proxies (g : Nat) (f : Group → Group) : (s.setGroupKept g f).proxies = s.proxies := rfl
@[simp] theorem State.setGroupKept_hostHalves (g : Nat) (f : Group → Group) : (s.setGroupKept g f).hostHalves = s.hostHalves := rfl
@[simp] theorem State.setGroupKept_msgs (g : Nat) (f : Group → Group) : (s.setGroupKept g f).msgs = s.msgs := rfl
@[simp] theorem State.setGroupKept_accs (g : Nat) (f : Group → Group) : (s.setGroupKept g f).accs = s.accs := rfl
@[simp] theorem State.setGroupKept_toks (g : Nat) (f : Group → Group) : (s.setGroupKept g f).toks = s.toks := rfl
@[simp] theorem State.setGroupKept_obs (g : Nat) (f : Group → Group) : (s.setGroupKept g f).obs = s.obs := rfl
@[simp] theorem State.setGroupKept_seen (g : Nat) (f : Group → Group) : (s.setGroupKept g f).seen = s.seen := rfl
@[simp] theorem State.setGroupKept_fenced (g : Nat) (f : Group → Group) : (s.setGroupKept g f).fenced = s.fenced := rfl
@[simp] theorem State.setGroupKept_carry (g : Nat) (f : Group → Group) : (s.setGroupKept g f).carry = s.carry := rfl
@[simp] theorem State.setGroupKept_cmps (g : Nat) (f : Group → Group) : (s.setGroupKept g f).cmps = s.cmps := rfl
@[simp] theorem State.setGroupKept_snaps (g : Nat) (f : Group → Group) : (s.setGroupKept g f).snaps = s.snaps.map (fun k => if k.gid = g then { k with g := f k.g } else k) := rfl
@[simp] theorem State.setGroupKept_cmds (g : Nat) (f : Group → Group) : (s.setGroupKept g f).cmds = s.cmds := rfl
@[simp] theorem State.setGroupKept_ranges (g : Nat) (f : Group → Group) : (s.setGroupKept g f).ranges = s.ranges := rfl
@[simp] theorem State.setGroupKept_colls (g : Nat) (f : Group → Group) : (s.setGroupKept g f).colls = s.colls := rfl
@[simp] theorem State.setGroupKept_tasks (g : Nat) (f : Group → Group) : (s.setGroupKept g f).tasks = s.tasks := rfl
@[simp] theorem State.setGroupKept_round (g : Nat) (f : Group → Group) : (s.setGroupKept g f).round = s.round := rfl
@[simp] theorem State.setGroupKept_roundG (g : Nat) (f : Group → Group) : (s.setGroupKept g f).roundG = s.roundG := rfl
@[simp] theorem State.setGroupKept_roundTasks (g : Nat) (f : Group → Group) : (s.setGroupKept g f).roundTasks = s.roundTasks := rfl
@[simp] theorem State.setGroupKept_queue (g : Nat) (f : Group → Group) : (s.setGroupKept g f).queue = s.queue := rfl
@[simp] theorem State.setGroupKept_seqs (g : Nat) (f : Group → Group) : (s.setGroupKept g f).seqs = s.seqs := rfl
@[simp] theorem State.setGroupKept_pegs (g : Nat) (f : Group → Group) : (s.setGroupKept g f).pegs = s.pegs := rfl
@[simp] theorem State.setGroupKept_lockReqs (g : Nat) (f : Group → Group) : (s.setGroupKept g f).lockReqs = s.lockReqs := rfl
@[simp] theorem State.setGroupKept_broken (g : Nat) (f : Group → Group) : (s.setGroupKept g f).broken = s.broken := rfl
@[simp] theorem State.setGroupKept_spills (g : Nat) (f : Group → Group) : (s.setGroupKept g f).spills = s.spills := rfl
@[simp] theorem State.setGroupKept_claims (g : Nat) (f : Group → Group) : (s.setGroupKept g f).claims = s.claims := rfl
@[simp] theorem State.setGroupKept_convs (g : Nat) (f : Group → Group) : (s.setGroupKept g f).convs = s.convs := rfl
@[simp] theorem State.setGroupKept_spaces (g : Nat) (f : Group → Group) : (s.setGroupKept g f).spaces = s.spaces := rfl
@[simp] theorem State.setGroupKept_tlb (g : Nat) (f : Group → Group) : (s.setGroupKept g f).tlb = s.tlb := rfl
@[simp] theorem State.setGroupKept_settled (g : Nat) (f : Group → Group) : (s.setGroupKept g f).settled = s.settled := rfl
@[simp] theorem State.setGroupKept_faultq (g : Nat) (f : Group → Group) : (s.setGroupKept g f).faultq = s.faultq := rfl
@[simp] theorem State.setGroupKept_faultProd (g : Nat) (f : Group → Group) : (s.setGroupKept g f).faultProd = s.faultProd := rfl
@[simp] theorem State.setGroupKept_faults (g : Nat) (f : Group → Group) : (s.setGroupKept g f).faults = s.faults := rfl
@[simp] theorem State.setGroupKept_queues (g : Nat) (f : Group → Group) : (s.setGroupKept g f).queues = s.queues := rfl
@[simp] theorem State.setGroupKept_bias (g : Nat) (f : Group → Group) : (s.setGroupKept g f).bias = s.bias := rfl
@[simp] theorem State.setGroupKept_mgmt (g : Nat) (f : Group → Group) : (s.setGroupKept g f).mgmt = s.mgmt := rfl
@[simp] theorem State.setGroupKept_images (g : Nat) (f : Group → Group) : (s.setGroupKept g f).images = s.images := rfl
@[simp] theorem State.setGroupKept_bents (g : Nat) (f : Group → Group) : (s.setGroupKept g f).bents = s.bents := rfl
@[simp] theorem State.setGroupKept_triggers (g : Nat) (f : Group → Group) : (s.setGroupKept g f).triggers = s.triggers := rfl
@[simp] theorem State.setGroupKept_core (g : Nat) (f : Group → Group) (x : Nat) : (s.setGroupKept g f).core x = s.core x := rfl
@[simp] theorem State.setGroupKept_die (g : Nat) (f : Group → Group) (x : Nat) : (s.setGroupKept g f).die x = s.die x := rfl
@[simp] theorem State.setGroupKept_line (g : Nat) (f : Group → Group) (x : Nat) : (s.setGroupKept g f).line x = s.line x := rfl
@[simp] theorem State.setGroupKept_byte (g : Nat) (f : Group → Group) (x : Nat) : (s.setGroupKept g f).byte x = s.byte x := rfl

/-! ### setBlock -/

@[simp] theorem State.setBlock_agenda (b : Nat) (f : Block → Block) : (s.setBlock b f).agenda = s.agenda := rfl
@[simp] theorem State.setBlock_cur (b : Nat) (f : Block → Block) : (s.setBlock b f).cur = s.cur := rfl
@[simp] theorem State.setBlock_freeCtr (b : Nat) (f : Block → Block) : (s.setBlock b f).freeCtr = s.freeCtr := rfl
@[simp] theorem State.setBlock_nextId (b : Nat) (f : Block → Block) : (s.setBlock b f).nextId = s.nextId := rfl
@[simp] theorem State.setBlock_clk (b : Nat) (f : Block → Block) : (s.setBlock b f).clk = s.clk := rfl
@[simp] theorem State.setBlock_mem (b : Nat) (f : Block → Block) : (s.setBlock b f).mem = s.mem := rfl
@[simp] theorem State.setBlock_past (b : Nat) (f : Block → Block) : (s.setBlock b f).past = s.past := rfl
@[simp] theorem State.setBlock_dies (b : Nat) (f : Block → Block) : (s.setBlock b f).dies = s.dies := rfl
@[simp] theorem State.setBlock_cores (b : Nat) (f : Block → Block) : (s.setBlock b f).cores = s.cores := rfl
@[simp] theorem State.setBlock_groups (b : Nat) (f : Block → Block) : (s.setBlock b f).groups = s.groups := rfl
@[simp] theorem State.setBlock_blocks (b : Nat) (f : Block → Block) : (s.setBlock b f).blocks = s.blocks.modify b f := rfl
@[simp] theorem State.setBlock_launches (b : Nat) (f : Block → Block) : (s.setBlock b f).launches = s.launches := rfl
@[simp] theorem State.setBlock_reports (b : Nat) (f : Block → Block) : (s.setBlock b f).reports = s.reports := rfl
@[simp] theorem State.setBlock_classes (b : Nat) (f : Block → Block) : (s.setBlock b f).classes = s.classes := rfl
@[simp] theorem State.setBlock_reserves (b : Nat) (f : Block → Block) : (s.setBlock b f).reserves = s.reserves := rfl
@[simp] theorem State.setBlock_nextGang (b : Nat) (f : Block → Block) : (s.setBlock b f).nextGang = s.nextGang := rfl
@[simp] theorem State.setBlock_lines (b : Nat) (f : Block → Block) : (s.setBlock b f).lines = s.lines := rfl
@[simp] theorem State.setBlock_proxies (b : Nat) (f : Block → Block) : (s.setBlock b f).proxies = s.proxies := rfl
@[simp] theorem State.setBlock_hostHalves (b : Nat) (f : Block → Block) : (s.setBlock b f).hostHalves = s.hostHalves := rfl
@[simp] theorem State.setBlock_msgs (b : Nat) (f : Block → Block) : (s.setBlock b f).msgs = s.msgs := rfl
@[simp] theorem State.setBlock_accs (b : Nat) (f : Block → Block) : (s.setBlock b f).accs = s.accs := rfl
@[simp] theorem State.setBlock_toks (b : Nat) (f : Block → Block) : (s.setBlock b f).toks = s.toks := rfl
@[simp] theorem State.setBlock_obs (b : Nat) (f : Block → Block) : (s.setBlock b f).obs = s.obs := rfl
@[simp] theorem State.setBlock_seen (b : Nat) (f : Block → Block) : (s.setBlock b f).seen = s.seen := rfl
@[simp] theorem State.setBlock_fenced (b : Nat) (f : Block → Block) : (s.setBlock b f).fenced = s.fenced := rfl
@[simp] theorem State.setBlock_carry (b : Nat) (f : Block → Block) : (s.setBlock b f).carry = s.carry := rfl
@[simp] theorem State.setBlock_cmps (b : Nat) (f : Block → Block) : (s.setBlock b f).cmps = s.cmps := rfl
@[simp] theorem State.setBlock_snaps (b : Nat) (f : Block → Block) : (s.setBlock b f).snaps = s.snaps := rfl
@[simp] theorem State.setBlock_cmds (b : Nat) (f : Block → Block) : (s.setBlock b f).cmds = s.cmds := rfl
@[simp] theorem State.setBlock_ranges (b : Nat) (f : Block → Block) : (s.setBlock b f).ranges = s.ranges := rfl
@[simp] theorem State.setBlock_colls (b : Nat) (f : Block → Block) : (s.setBlock b f).colls = s.colls := rfl
@[simp] theorem State.setBlock_tasks (b : Nat) (f : Block → Block) : (s.setBlock b f).tasks = s.tasks := rfl
@[simp] theorem State.setBlock_round (b : Nat) (f : Block → Block) : (s.setBlock b f).round = s.round := rfl
@[simp] theorem State.setBlock_roundG (b : Nat) (f : Block → Block) : (s.setBlock b f).roundG = s.roundG := rfl
@[simp] theorem State.setBlock_roundTasks (b : Nat) (f : Block → Block) : (s.setBlock b f).roundTasks = s.roundTasks := rfl
@[simp] theorem State.setBlock_queue (b : Nat) (f : Block → Block) : (s.setBlock b f).queue = s.queue := rfl
@[simp] theorem State.setBlock_seqs (b : Nat) (f : Block → Block) : (s.setBlock b f).seqs = s.seqs := rfl
@[simp] theorem State.setBlock_pegs (b : Nat) (f : Block → Block) : (s.setBlock b f).pegs = s.pegs := rfl
@[simp] theorem State.setBlock_lockReqs (b : Nat) (f : Block → Block) : (s.setBlock b f).lockReqs = s.lockReqs := rfl
@[simp] theorem State.setBlock_broken (b : Nat) (f : Block → Block) : (s.setBlock b f).broken = s.broken := rfl
@[simp] theorem State.setBlock_spills (b : Nat) (f : Block → Block) : (s.setBlock b f).spills = s.spills := rfl
@[simp] theorem State.setBlock_claims (b : Nat) (f : Block → Block) : (s.setBlock b f).claims = s.claims := rfl
@[simp] theorem State.setBlock_convs (b : Nat) (f : Block → Block) : (s.setBlock b f).convs = s.convs := rfl
@[simp] theorem State.setBlock_spaces (b : Nat) (f : Block → Block) : (s.setBlock b f).spaces = s.spaces := rfl
@[simp] theorem State.setBlock_tlb (b : Nat) (f : Block → Block) : (s.setBlock b f).tlb = s.tlb := rfl
@[simp] theorem State.setBlock_settled (b : Nat) (f : Block → Block) : (s.setBlock b f).settled = s.settled := rfl
@[simp] theorem State.setBlock_faultq (b : Nat) (f : Block → Block) : (s.setBlock b f).faultq = s.faultq := rfl
@[simp] theorem State.setBlock_faultProd (b : Nat) (f : Block → Block) : (s.setBlock b f).faultProd = s.faultProd := rfl
@[simp] theorem State.setBlock_faults (b : Nat) (f : Block → Block) : (s.setBlock b f).faults = s.faults := rfl
@[simp] theorem State.setBlock_queues (b : Nat) (f : Block → Block) : (s.setBlock b f).queues = s.queues := rfl
@[simp] theorem State.setBlock_bias (b : Nat) (f : Block → Block) : (s.setBlock b f).bias = s.bias := rfl
@[simp] theorem State.setBlock_mgmt (b : Nat) (f : Block → Block) : (s.setBlock b f).mgmt = s.mgmt := rfl
@[simp] theorem State.setBlock_images (b : Nat) (f : Block → Block) : (s.setBlock b f).images = s.images := rfl
@[simp] theorem State.setBlock_bents (b : Nat) (f : Block → Block) : (s.setBlock b f).bents = s.bents := rfl
@[simp] theorem State.setBlock_triggers (b : Nat) (f : Block → Block) : (s.setBlock b f).triggers = s.triggers := rfl
@[simp] theorem State.setBlock_core (b : Nat) (f : Block → Block) (x : Nat) : (s.setBlock b f).core x = s.core x := rfl
@[simp] theorem State.setBlock_die (b : Nat) (f : Block → Block) (x : Nat) : (s.setBlock b f).die x = s.die x := rfl
@[simp] theorem State.setBlock_line (b : Nat) (f : Block → Block) (x : Nat) : (s.setBlock b f).line x = s.line x := rfl
@[simp] theorem State.setBlock_byte (b : Nat) (f : Block → Block) (x : Nat) : (s.setBlock b f).byte x = s.byte x := rfl

/-! ### setLaunch -/

@[simp] theorem State.setLaunch_agenda (l : Nat) (f : Launch → Launch) : (s.setLaunch l f).agenda = s.agenda := rfl
@[simp] theorem State.setLaunch_cur (l : Nat) (f : Launch → Launch) : (s.setLaunch l f).cur = s.cur := rfl
@[simp] theorem State.setLaunch_freeCtr (l : Nat) (f : Launch → Launch) : (s.setLaunch l f).freeCtr = s.freeCtr := rfl
@[simp] theorem State.setLaunch_nextId (l : Nat) (f : Launch → Launch) : (s.setLaunch l f).nextId = s.nextId := rfl
@[simp] theorem State.setLaunch_clk (l : Nat) (f : Launch → Launch) : (s.setLaunch l f).clk = s.clk := rfl
@[simp] theorem State.setLaunch_mem (l : Nat) (f : Launch → Launch) : (s.setLaunch l f).mem = s.mem := rfl
@[simp] theorem State.setLaunch_past (l : Nat) (f : Launch → Launch) : (s.setLaunch l f).past = s.past := rfl
@[simp] theorem State.setLaunch_dies (l : Nat) (f : Launch → Launch) : (s.setLaunch l f).dies = s.dies := rfl
@[simp] theorem State.setLaunch_cores (l : Nat) (f : Launch → Launch) : (s.setLaunch l f).cores = s.cores := rfl
@[simp] theorem State.setLaunch_groups (l : Nat) (f : Launch → Launch) : (s.setLaunch l f).groups = s.groups := rfl
@[simp] theorem State.setLaunch_blocks (l : Nat) (f : Launch → Launch) : (s.setLaunch l f).blocks = s.blocks := rfl
@[simp] theorem State.setLaunch_launches (l : Nat) (f : Launch → Launch) : (s.setLaunch l f).launches = s.launches.modify l f := rfl
@[simp] theorem State.setLaunch_reports (l : Nat) (f : Launch → Launch) : (s.setLaunch l f).reports = s.reports := rfl
@[simp] theorem State.setLaunch_classes (l : Nat) (f : Launch → Launch) : (s.setLaunch l f).classes = s.classes := rfl
@[simp] theorem State.setLaunch_reserves (l : Nat) (f : Launch → Launch) : (s.setLaunch l f).reserves = s.reserves := rfl
@[simp] theorem State.setLaunch_nextGang (l : Nat) (f : Launch → Launch) : (s.setLaunch l f).nextGang = s.nextGang := rfl
@[simp] theorem State.setLaunch_lines (l : Nat) (f : Launch → Launch) : (s.setLaunch l f).lines = s.lines := rfl
@[simp] theorem State.setLaunch_proxies (l : Nat) (f : Launch → Launch) : (s.setLaunch l f).proxies = s.proxies := rfl
@[simp] theorem State.setLaunch_hostHalves (l : Nat) (f : Launch → Launch) : (s.setLaunch l f).hostHalves = s.hostHalves := rfl
@[simp] theorem State.setLaunch_msgs (l : Nat) (f : Launch → Launch) : (s.setLaunch l f).msgs = s.msgs := rfl
@[simp] theorem State.setLaunch_accs (l : Nat) (f : Launch → Launch) : (s.setLaunch l f).accs = s.accs := rfl
@[simp] theorem State.setLaunch_toks (l : Nat) (f : Launch → Launch) : (s.setLaunch l f).toks = s.toks := rfl
@[simp] theorem State.setLaunch_obs (l : Nat) (f : Launch → Launch) : (s.setLaunch l f).obs = s.obs := rfl
@[simp] theorem State.setLaunch_seen (l : Nat) (f : Launch → Launch) : (s.setLaunch l f).seen = s.seen := rfl
@[simp] theorem State.setLaunch_fenced (l : Nat) (f : Launch → Launch) : (s.setLaunch l f).fenced = s.fenced := rfl
@[simp] theorem State.setLaunch_carry (l : Nat) (f : Launch → Launch) : (s.setLaunch l f).carry = s.carry := rfl
@[simp] theorem State.setLaunch_cmps (l : Nat) (f : Launch → Launch) : (s.setLaunch l f).cmps = s.cmps := rfl
@[simp] theorem State.setLaunch_snaps (l : Nat) (f : Launch → Launch) : (s.setLaunch l f).snaps = s.snaps := rfl
@[simp] theorem State.setLaunch_cmds (l : Nat) (f : Launch → Launch) : (s.setLaunch l f).cmds = s.cmds := rfl
@[simp] theorem State.setLaunch_ranges (l : Nat) (f : Launch → Launch) : (s.setLaunch l f).ranges = s.ranges := rfl
@[simp] theorem State.setLaunch_colls (l : Nat) (f : Launch → Launch) : (s.setLaunch l f).colls = s.colls := rfl
@[simp] theorem State.setLaunch_tasks (l : Nat) (f : Launch → Launch) : (s.setLaunch l f).tasks = s.tasks := rfl
@[simp] theorem State.setLaunch_round (l : Nat) (f : Launch → Launch) : (s.setLaunch l f).round = s.round := rfl
@[simp] theorem State.setLaunch_roundG (l : Nat) (f : Launch → Launch) : (s.setLaunch l f).roundG = s.roundG := rfl
@[simp] theorem State.setLaunch_roundTasks (l : Nat) (f : Launch → Launch) : (s.setLaunch l f).roundTasks = s.roundTasks := rfl
@[simp] theorem State.setLaunch_queue (l : Nat) (f : Launch → Launch) : (s.setLaunch l f).queue = s.queue := rfl
@[simp] theorem State.setLaunch_seqs (l : Nat) (f : Launch → Launch) : (s.setLaunch l f).seqs = s.seqs := rfl
@[simp] theorem State.setLaunch_pegs (l : Nat) (f : Launch → Launch) : (s.setLaunch l f).pegs = s.pegs := rfl
@[simp] theorem State.setLaunch_lockReqs (l : Nat) (f : Launch → Launch) : (s.setLaunch l f).lockReqs = s.lockReqs := rfl
@[simp] theorem State.setLaunch_broken (l : Nat) (f : Launch → Launch) : (s.setLaunch l f).broken = s.broken := rfl
@[simp] theorem State.setLaunch_spills (l : Nat) (f : Launch → Launch) : (s.setLaunch l f).spills = s.spills := rfl
@[simp] theorem State.setLaunch_claims (l : Nat) (f : Launch → Launch) : (s.setLaunch l f).claims = s.claims := rfl
@[simp] theorem State.setLaunch_convs (l : Nat) (f : Launch → Launch) : (s.setLaunch l f).convs = s.convs := rfl
@[simp] theorem State.setLaunch_spaces (l : Nat) (f : Launch → Launch) : (s.setLaunch l f).spaces = s.spaces := rfl
@[simp] theorem State.setLaunch_tlb (l : Nat) (f : Launch → Launch) : (s.setLaunch l f).tlb = s.tlb := rfl
@[simp] theorem State.setLaunch_settled (l : Nat) (f : Launch → Launch) : (s.setLaunch l f).settled = s.settled := rfl
@[simp] theorem State.setLaunch_faultq (l : Nat) (f : Launch → Launch) : (s.setLaunch l f).faultq = s.faultq := rfl
@[simp] theorem State.setLaunch_faultProd (l : Nat) (f : Launch → Launch) : (s.setLaunch l f).faultProd = s.faultProd := rfl
@[simp] theorem State.setLaunch_faults (l : Nat) (f : Launch → Launch) : (s.setLaunch l f).faults = s.faults := rfl
@[simp] theorem State.setLaunch_queues (l : Nat) (f : Launch → Launch) : (s.setLaunch l f).queues = s.queues := rfl
@[simp] theorem State.setLaunch_bias (l : Nat) (f : Launch → Launch) : (s.setLaunch l f).bias = s.bias := rfl
@[simp] theorem State.setLaunch_mgmt (l : Nat) (f : Launch → Launch) : (s.setLaunch l f).mgmt = s.mgmt := rfl
@[simp] theorem State.setLaunch_images (l : Nat) (f : Launch → Launch) : (s.setLaunch l f).images = s.images := rfl
@[simp] theorem State.setLaunch_bents (l : Nat) (f : Launch → Launch) : (s.setLaunch l f).bents = s.bents := rfl
@[simp] theorem State.setLaunch_triggers (l : Nat) (f : Launch → Launch) : (s.setLaunch l f).triggers = s.triggers := rfl
@[simp] theorem State.setLaunch_core (l : Nat) (f : Launch → Launch) (x : Nat) : (s.setLaunch l f).core x = s.core x := rfl
@[simp] theorem State.setLaunch_die (l : Nat) (f : Launch → Launch) (x : Nat) : (s.setLaunch l f).die x = s.die x := rfl
@[simp] theorem State.setLaunch_line (l : Nat) (f : Launch → Launch) (x : Nat) : (s.setLaunch l f).line x = s.line x := rfl
@[simp] theorem State.setLaunch_byte (l : Nat) (f : Launch → Launch) (x : Nat) : (s.setLaunch l f).byte x = s.byte x := rfl

/-! ### setCmd -/

@[simp] theorem State.setCmd_agenda (c : Nat) (f : Cmd → Cmd) : (s.setCmd c f).agenda = s.agenda := rfl
@[simp] theorem State.setCmd_cur (c : Nat) (f : Cmd → Cmd) : (s.setCmd c f).cur = s.cur := rfl
@[simp] theorem State.setCmd_freeCtr (c : Nat) (f : Cmd → Cmd) : (s.setCmd c f).freeCtr = s.freeCtr := rfl
@[simp] theorem State.setCmd_nextId (c : Nat) (f : Cmd → Cmd) : (s.setCmd c f).nextId = s.nextId := rfl
@[simp] theorem State.setCmd_clk (c : Nat) (f : Cmd → Cmd) : (s.setCmd c f).clk = s.clk := rfl
@[simp] theorem State.setCmd_mem (c : Nat) (f : Cmd → Cmd) : (s.setCmd c f).mem = s.mem := rfl
@[simp] theorem State.setCmd_past (c : Nat) (f : Cmd → Cmd) : (s.setCmd c f).past = s.past := rfl
@[simp] theorem State.setCmd_dies (c : Nat) (f : Cmd → Cmd) : (s.setCmd c f).dies = s.dies := rfl
@[simp] theorem State.setCmd_cores (c : Nat) (f : Cmd → Cmd) : (s.setCmd c f).cores = s.cores := rfl
@[simp] theorem State.setCmd_groups (c : Nat) (f : Cmd → Cmd) : (s.setCmd c f).groups = s.groups := rfl
@[simp] theorem State.setCmd_blocks (c : Nat) (f : Cmd → Cmd) : (s.setCmd c f).blocks = s.blocks := rfl
@[simp] theorem State.setCmd_launches (c : Nat) (f : Cmd → Cmd) : (s.setCmd c f).launches = s.launches := rfl
@[simp] theorem State.setCmd_reports (c : Nat) (f : Cmd → Cmd) : (s.setCmd c f).reports = s.reports := rfl
@[simp] theorem State.setCmd_classes (c : Nat) (f : Cmd → Cmd) : (s.setCmd c f).classes = s.classes := rfl
@[simp] theorem State.setCmd_reserves (c : Nat) (f : Cmd → Cmd) : (s.setCmd c f).reserves = s.reserves := rfl
@[simp] theorem State.setCmd_nextGang (c : Nat) (f : Cmd → Cmd) : (s.setCmd c f).nextGang = s.nextGang := rfl
@[simp] theorem State.setCmd_lines (c : Nat) (f : Cmd → Cmd) : (s.setCmd c f).lines = s.lines := rfl
@[simp] theorem State.setCmd_proxies (c : Nat) (f : Cmd → Cmd) : (s.setCmd c f).proxies = s.proxies := rfl
@[simp] theorem State.setCmd_hostHalves (c : Nat) (f : Cmd → Cmd) : (s.setCmd c f).hostHalves = s.hostHalves := rfl
@[simp] theorem State.setCmd_msgs (c : Nat) (f : Cmd → Cmd) : (s.setCmd c f).msgs = s.msgs := rfl
@[simp] theorem State.setCmd_accs (c : Nat) (f : Cmd → Cmd) : (s.setCmd c f).accs = s.accs := rfl
@[simp] theorem State.setCmd_toks (c : Nat) (f : Cmd → Cmd) : (s.setCmd c f).toks = s.toks := rfl
@[simp] theorem State.setCmd_obs (c : Nat) (f : Cmd → Cmd) : (s.setCmd c f).obs = s.obs := rfl
@[simp] theorem State.setCmd_seen (c : Nat) (f : Cmd → Cmd) : (s.setCmd c f).seen = s.seen := rfl
@[simp] theorem State.setCmd_fenced (c : Nat) (f : Cmd → Cmd) : (s.setCmd c f).fenced = s.fenced := rfl
@[simp] theorem State.setCmd_carry (c : Nat) (f : Cmd → Cmd) : (s.setCmd c f).carry = s.carry := rfl
@[simp] theorem State.setCmd_cmps (c : Nat) (f : Cmd → Cmd) : (s.setCmd c f).cmps = s.cmps := rfl
@[simp] theorem State.setCmd_snaps (c : Nat) (f : Cmd → Cmd) : (s.setCmd c f).snaps = s.snaps := rfl
@[simp] theorem State.setCmd_cmds (c : Nat) (f : Cmd → Cmd) : (s.setCmd c f).cmds = s.cmds.modify c f := rfl
@[simp] theorem State.setCmd_ranges (c : Nat) (f : Cmd → Cmd) : (s.setCmd c f).ranges = s.ranges := rfl
@[simp] theorem State.setCmd_colls (c : Nat) (f : Cmd → Cmd) : (s.setCmd c f).colls = s.colls := rfl
@[simp] theorem State.setCmd_tasks (c : Nat) (f : Cmd → Cmd) : (s.setCmd c f).tasks = s.tasks := rfl
@[simp] theorem State.setCmd_round (c : Nat) (f : Cmd → Cmd) : (s.setCmd c f).round = s.round := rfl
@[simp] theorem State.setCmd_roundG (c : Nat) (f : Cmd → Cmd) : (s.setCmd c f).roundG = s.roundG := rfl
@[simp] theorem State.setCmd_roundTasks (c : Nat) (f : Cmd → Cmd) : (s.setCmd c f).roundTasks = s.roundTasks := rfl
@[simp] theorem State.setCmd_queue (c : Nat) (f : Cmd → Cmd) : (s.setCmd c f).queue = s.queue := rfl
@[simp] theorem State.setCmd_seqs (c : Nat) (f : Cmd → Cmd) : (s.setCmd c f).seqs = s.seqs := rfl
@[simp] theorem State.setCmd_pegs (c : Nat) (f : Cmd → Cmd) : (s.setCmd c f).pegs = s.pegs := rfl
@[simp] theorem State.setCmd_lockReqs (c : Nat) (f : Cmd → Cmd) : (s.setCmd c f).lockReqs = s.lockReqs := rfl
@[simp] theorem State.setCmd_broken (c : Nat) (f : Cmd → Cmd) : (s.setCmd c f).broken = s.broken := rfl
@[simp] theorem State.setCmd_spills (c : Nat) (f : Cmd → Cmd) : (s.setCmd c f).spills = s.spills := rfl
@[simp] theorem State.setCmd_claims (c : Nat) (f : Cmd → Cmd) : (s.setCmd c f).claims = s.claims := rfl
@[simp] theorem State.setCmd_convs (c : Nat) (f : Cmd → Cmd) : (s.setCmd c f).convs = s.convs := rfl
@[simp] theorem State.setCmd_spaces (c : Nat) (f : Cmd → Cmd) : (s.setCmd c f).spaces = s.spaces := rfl
@[simp] theorem State.setCmd_tlb (c : Nat) (f : Cmd → Cmd) : (s.setCmd c f).tlb = s.tlb := rfl
@[simp] theorem State.setCmd_settled (c : Nat) (f : Cmd → Cmd) : (s.setCmd c f).settled = s.settled := rfl
@[simp] theorem State.setCmd_faultq (c : Nat) (f : Cmd → Cmd) : (s.setCmd c f).faultq = s.faultq := rfl
@[simp] theorem State.setCmd_faultProd (c : Nat) (f : Cmd → Cmd) : (s.setCmd c f).faultProd = s.faultProd := rfl
@[simp] theorem State.setCmd_faults (c : Nat) (f : Cmd → Cmd) : (s.setCmd c f).faults = s.faults := rfl
@[simp] theorem State.setCmd_queues (c : Nat) (f : Cmd → Cmd) : (s.setCmd c f).queues = s.queues := rfl
@[simp] theorem State.setCmd_bias (c : Nat) (f : Cmd → Cmd) : (s.setCmd c f).bias = s.bias := rfl
@[simp] theorem State.setCmd_mgmt (c : Nat) (f : Cmd → Cmd) : (s.setCmd c f).mgmt = s.mgmt := rfl
@[simp] theorem State.setCmd_images (c : Nat) (f : Cmd → Cmd) : (s.setCmd c f).images = s.images := rfl
@[simp] theorem State.setCmd_bents (c : Nat) (f : Cmd → Cmd) : (s.setCmd c f).bents = s.bents := rfl
@[simp] theorem State.setCmd_triggers (c : Nat) (f : Cmd → Cmd) : (s.setCmd c f).triggers = s.triggers := rfl
@[simp] theorem State.setCmd_core (c : Nat) (f : Cmd → Cmd) (x : Nat) : (s.setCmd c f).core x = s.core x := rfl
@[simp] theorem State.setCmd_die (c : Nat) (f : Cmd → Cmd) (x : Nat) : (s.setCmd c f).die x = s.die x := rfl
@[simp] theorem State.setCmd_line (c : Nat) (f : Cmd → Cmd) (x : Nat) : (s.setCmd c f).line x = s.line x := rfl
@[simp] theorem State.setCmd_byte (c : Nat) (f : Cmd → Cmd) (x : Nat) : (s.setCmd c f).byte x = s.byte x := rfl

/-! ### setTask -/

@[simp] theorem State.setTask_agenda (t : Nat) (f : Task → Task) : (s.setTask t f).agenda = s.agenda := rfl
@[simp] theorem State.setTask_cur (t : Nat) (f : Task → Task) : (s.setTask t f).cur = s.cur := rfl
@[simp] theorem State.setTask_freeCtr (t : Nat) (f : Task → Task) : (s.setTask t f).freeCtr = s.freeCtr := rfl
@[simp] theorem State.setTask_nextId (t : Nat) (f : Task → Task) : (s.setTask t f).nextId = s.nextId := rfl
@[simp] theorem State.setTask_clk (t : Nat) (f : Task → Task) : (s.setTask t f).clk = s.clk := rfl
@[simp] theorem State.setTask_mem (t : Nat) (f : Task → Task) : (s.setTask t f).mem = s.mem := rfl
@[simp] theorem State.setTask_past (t : Nat) (f : Task → Task) : (s.setTask t f).past = s.past := rfl
@[simp] theorem State.setTask_dies (t : Nat) (f : Task → Task) : (s.setTask t f).dies = s.dies := rfl
@[simp] theorem State.setTask_cores (t : Nat) (f : Task → Task) : (s.setTask t f).cores = s.cores := rfl
@[simp] theorem State.setTask_groups (t : Nat) (f : Task → Task) : (s.setTask t f).groups = s.groups := rfl
@[simp] theorem State.setTask_blocks (t : Nat) (f : Task → Task) : (s.setTask t f).blocks = s.blocks := rfl
@[simp] theorem State.setTask_launches (t : Nat) (f : Task → Task) : (s.setTask t f).launches = s.launches := rfl
@[simp] theorem State.setTask_reports (t : Nat) (f : Task → Task) : (s.setTask t f).reports = s.reports := rfl
@[simp] theorem State.setTask_classes (t : Nat) (f : Task → Task) : (s.setTask t f).classes = s.classes := rfl
@[simp] theorem State.setTask_reserves (t : Nat) (f : Task → Task) : (s.setTask t f).reserves = s.reserves := rfl
@[simp] theorem State.setTask_nextGang (t : Nat) (f : Task → Task) : (s.setTask t f).nextGang = s.nextGang := rfl
@[simp] theorem State.setTask_lines (t : Nat) (f : Task → Task) : (s.setTask t f).lines = s.lines := rfl
@[simp] theorem State.setTask_proxies (t : Nat) (f : Task → Task) : (s.setTask t f).proxies = s.proxies := rfl
@[simp] theorem State.setTask_hostHalves (t : Nat) (f : Task → Task) : (s.setTask t f).hostHalves = s.hostHalves := rfl
@[simp] theorem State.setTask_msgs (t : Nat) (f : Task → Task) : (s.setTask t f).msgs = s.msgs := rfl
@[simp] theorem State.setTask_accs (t : Nat) (f : Task → Task) : (s.setTask t f).accs = s.accs := rfl
@[simp] theorem State.setTask_toks (t : Nat) (f : Task → Task) : (s.setTask t f).toks = s.toks := rfl
@[simp] theorem State.setTask_obs (t : Nat) (f : Task → Task) : (s.setTask t f).obs = s.obs := rfl
@[simp] theorem State.setTask_seen (t : Nat) (f : Task → Task) : (s.setTask t f).seen = s.seen := rfl
@[simp] theorem State.setTask_fenced (t : Nat) (f : Task → Task) : (s.setTask t f).fenced = s.fenced := rfl
@[simp] theorem State.setTask_carry (t : Nat) (f : Task → Task) : (s.setTask t f).carry = s.carry := rfl
@[simp] theorem State.setTask_cmps (t : Nat) (f : Task → Task) : (s.setTask t f).cmps = s.cmps := rfl
@[simp] theorem State.setTask_snaps (t : Nat) (f : Task → Task) : (s.setTask t f).snaps = s.snaps := rfl
@[simp] theorem State.setTask_cmds (t : Nat) (f : Task → Task) : (s.setTask t f).cmds = s.cmds := rfl
@[simp] theorem State.setTask_ranges (t : Nat) (f : Task → Task) : (s.setTask t f).ranges = s.ranges := rfl
@[simp] theorem State.setTask_colls (t : Nat) (f : Task → Task) : (s.setTask t f).colls = s.colls := rfl
@[simp] theorem State.setTask_tasks (t : Nat) (f : Task → Task) : (s.setTask t f).tasks = s.tasks.modify t f := rfl
@[simp] theorem State.setTask_round (t : Nat) (f : Task → Task) : (s.setTask t f).round = s.round := rfl
@[simp] theorem State.setTask_roundG (t : Nat) (f : Task → Task) : (s.setTask t f).roundG = s.roundG := rfl
@[simp] theorem State.setTask_roundTasks (t : Nat) (f : Task → Task) : (s.setTask t f).roundTasks = s.roundTasks := rfl
@[simp] theorem State.setTask_queue (t : Nat) (f : Task → Task) : (s.setTask t f).queue = s.queue := rfl
@[simp] theorem State.setTask_seqs (t : Nat) (f : Task → Task) : (s.setTask t f).seqs = s.seqs := rfl
@[simp] theorem State.setTask_pegs (t : Nat) (f : Task → Task) : (s.setTask t f).pegs = s.pegs := rfl
@[simp] theorem State.setTask_lockReqs (t : Nat) (f : Task → Task) : (s.setTask t f).lockReqs = s.lockReqs := rfl
@[simp] theorem State.setTask_broken (t : Nat) (f : Task → Task) : (s.setTask t f).broken = s.broken := rfl
@[simp] theorem State.setTask_spills (t : Nat) (f : Task → Task) : (s.setTask t f).spills = s.spills := rfl
@[simp] theorem State.setTask_claims (t : Nat) (f : Task → Task) : (s.setTask t f).claims = s.claims := rfl
@[simp] theorem State.setTask_convs (t : Nat) (f : Task → Task) : (s.setTask t f).convs = s.convs := rfl
@[simp] theorem State.setTask_spaces (t : Nat) (f : Task → Task) : (s.setTask t f).spaces = s.spaces := rfl
@[simp] theorem State.setTask_tlb (t : Nat) (f : Task → Task) : (s.setTask t f).tlb = s.tlb := rfl
@[simp] theorem State.setTask_settled (t : Nat) (f : Task → Task) : (s.setTask t f).settled = s.settled := rfl
@[simp] theorem State.setTask_faultq (t : Nat) (f : Task → Task) : (s.setTask t f).faultq = s.faultq := rfl
@[simp] theorem State.setTask_faultProd (t : Nat) (f : Task → Task) : (s.setTask t f).faultProd = s.faultProd := rfl
@[simp] theorem State.setTask_faults (t : Nat) (f : Task → Task) : (s.setTask t f).faults = s.faults := rfl
@[simp] theorem State.setTask_queues (t : Nat) (f : Task → Task) : (s.setTask t f).queues = s.queues := rfl
@[simp] theorem State.setTask_bias (t : Nat) (f : Task → Task) : (s.setTask t f).bias = s.bias := rfl
@[simp] theorem State.setTask_mgmt (t : Nat) (f : Task → Task) : (s.setTask t f).mgmt = s.mgmt := rfl
@[simp] theorem State.setTask_images (t : Nat) (f : Task → Task) : (s.setTask t f).images = s.images := rfl
@[simp] theorem State.setTask_bents (t : Nat) (f : Task → Task) : (s.setTask t f).bents = s.bents := rfl
@[simp] theorem State.setTask_triggers (t : Nat) (f : Task → Task) : (s.setTask t f).triggers = s.triggers := rfl
@[simp] theorem State.setTask_core (t : Nat) (f : Task → Task) (x : Nat) : (s.setTask t f).core x = s.core x := rfl
@[simp] theorem State.setTask_die (t : Nat) (f : Task → Task) (x : Nat) : (s.setTask t f).die x = s.die x := rfl
@[simp] theorem State.setTask_line (t : Nat) (f : Task → Task) (x : Nat) : (s.setTask t f).line x = s.line x := rfl
@[simp] theorem State.setTask_byte (t : Nat) (f : Task → Task) (x : Nat) : (s.setTask t f).byte x = s.byte x := rfl

/-! ### setMgmt -/

@[simp] theorem State.setMgmt_agenda (f : Mgmt → Mgmt) : (s.setMgmt f).agenda = s.agenda := rfl
@[simp] theorem State.setMgmt_cur (f : Mgmt → Mgmt) : (s.setMgmt f).cur = s.cur := rfl
@[simp] theorem State.setMgmt_freeCtr (f : Mgmt → Mgmt) : (s.setMgmt f).freeCtr = s.freeCtr := rfl
@[simp] theorem State.setMgmt_nextId (f : Mgmt → Mgmt) : (s.setMgmt f).nextId = s.nextId := rfl
@[simp] theorem State.setMgmt_clk (f : Mgmt → Mgmt) : (s.setMgmt f).clk = s.clk := rfl
@[simp] theorem State.setMgmt_mem (f : Mgmt → Mgmt) : (s.setMgmt f).mem = s.mem := rfl
@[simp] theorem State.setMgmt_past (f : Mgmt → Mgmt) : (s.setMgmt f).past = s.past := rfl
@[simp] theorem State.setMgmt_dies (f : Mgmt → Mgmt) : (s.setMgmt f).dies = s.dies := rfl
@[simp] theorem State.setMgmt_cores (f : Mgmt → Mgmt) : (s.setMgmt f).cores = s.cores := rfl
@[simp] theorem State.setMgmt_groups (f : Mgmt → Mgmt) : (s.setMgmt f).groups = s.groups := rfl
@[simp] theorem State.setMgmt_blocks (f : Mgmt → Mgmt) : (s.setMgmt f).blocks = s.blocks := rfl
@[simp] theorem State.setMgmt_launches (f : Mgmt → Mgmt) : (s.setMgmt f).launches = s.launches := rfl
@[simp] theorem State.setMgmt_reports (f : Mgmt → Mgmt) : (s.setMgmt f).reports = s.reports := rfl
@[simp] theorem State.setMgmt_classes (f : Mgmt → Mgmt) : (s.setMgmt f).classes = s.classes := rfl
@[simp] theorem State.setMgmt_reserves (f : Mgmt → Mgmt) : (s.setMgmt f).reserves = s.reserves := rfl
@[simp] theorem State.setMgmt_nextGang (f : Mgmt → Mgmt) : (s.setMgmt f).nextGang = s.nextGang := rfl
@[simp] theorem State.setMgmt_lines (f : Mgmt → Mgmt) : (s.setMgmt f).lines = s.lines := rfl
@[simp] theorem State.setMgmt_proxies (f : Mgmt → Mgmt) : (s.setMgmt f).proxies = s.proxies := rfl
@[simp] theorem State.setMgmt_hostHalves (f : Mgmt → Mgmt) : (s.setMgmt f).hostHalves = s.hostHalves := rfl
@[simp] theorem State.setMgmt_msgs (f : Mgmt → Mgmt) : (s.setMgmt f).msgs = s.msgs := rfl
@[simp] theorem State.setMgmt_accs (f : Mgmt → Mgmt) : (s.setMgmt f).accs = s.accs := rfl
@[simp] theorem State.setMgmt_toks (f : Mgmt → Mgmt) : (s.setMgmt f).toks = s.toks := rfl
@[simp] theorem State.setMgmt_obs (f : Mgmt → Mgmt) : (s.setMgmt f).obs = s.obs := rfl
@[simp] theorem State.setMgmt_seen (f : Mgmt → Mgmt) : (s.setMgmt f).seen = s.seen := rfl
@[simp] theorem State.setMgmt_fenced (f : Mgmt → Mgmt) : (s.setMgmt f).fenced = s.fenced := rfl
@[simp] theorem State.setMgmt_carry (f : Mgmt → Mgmt) : (s.setMgmt f).carry = s.carry := rfl
@[simp] theorem State.setMgmt_cmps (f : Mgmt → Mgmt) : (s.setMgmt f).cmps = s.cmps := rfl
@[simp] theorem State.setMgmt_snaps (f : Mgmt → Mgmt) : (s.setMgmt f).snaps = s.snaps := rfl
@[simp] theorem State.setMgmt_cmds (f : Mgmt → Mgmt) : (s.setMgmt f).cmds = s.cmds := rfl
@[simp] theorem State.setMgmt_ranges (f : Mgmt → Mgmt) : (s.setMgmt f).ranges = s.ranges := rfl
@[simp] theorem State.setMgmt_colls (f : Mgmt → Mgmt) : (s.setMgmt f).colls = s.colls := rfl
@[simp] theorem State.setMgmt_tasks (f : Mgmt → Mgmt) : (s.setMgmt f).tasks = s.tasks := rfl
@[simp] theorem State.setMgmt_round (f : Mgmt → Mgmt) : (s.setMgmt f).round = s.round := rfl
@[simp] theorem State.setMgmt_roundG (f : Mgmt → Mgmt) : (s.setMgmt f).roundG = s.roundG := rfl
@[simp] theorem State.setMgmt_roundTasks (f : Mgmt → Mgmt) : (s.setMgmt f).roundTasks = s.roundTasks := rfl
@[simp] theorem State.setMgmt_queue (f : Mgmt → Mgmt) : (s.setMgmt f).queue = s.queue := rfl
@[simp] theorem State.setMgmt_seqs (f : Mgmt → Mgmt) : (s.setMgmt f).seqs = s.seqs := rfl
@[simp] theorem State.setMgmt_pegs (f : Mgmt → Mgmt) : (s.setMgmt f).pegs = s.pegs := rfl
@[simp] theorem State.setMgmt_lockReqs (f : Mgmt → Mgmt) : (s.setMgmt f).lockReqs = s.lockReqs := rfl
@[simp] theorem State.setMgmt_broken (f : Mgmt → Mgmt) : (s.setMgmt f).broken = s.broken := rfl
@[simp] theorem State.setMgmt_spills (f : Mgmt → Mgmt) : (s.setMgmt f).spills = s.spills := rfl
@[simp] theorem State.setMgmt_claims (f : Mgmt → Mgmt) : (s.setMgmt f).claims = s.claims := rfl
@[simp] theorem State.setMgmt_convs (f : Mgmt → Mgmt) : (s.setMgmt f).convs = s.convs := rfl
@[simp] theorem State.setMgmt_spaces (f : Mgmt → Mgmt) : (s.setMgmt f).spaces = s.spaces := rfl
@[simp] theorem State.setMgmt_tlb (f : Mgmt → Mgmt) : (s.setMgmt f).tlb = s.tlb := rfl
@[simp] theorem State.setMgmt_settled (f : Mgmt → Mgmt) : (s.setMgmt f).settled = s.settled := rfl
@[simp] theorem State.setMgmt_faultq (f : Mgmt → Mgmt) : (s.setMgmt f).faultq = s.faultq := rfl
@[simp] theorem State.setMgmt_faultProd (f : Mgmt → Mgmt) : (s.setMgmt f).faultProd = s.faultProd := rfl
@[simp] theorem State.setMgmt_faults (f : Mgmt → Mgmt) : (s.setMgmt f).faults = s.faults := rfl
@[simp] theorem State.setMgmt_queues (f : Mgmt → Mgmt) : (s.setMgmt f).queues = s.queues := rfl
@[simp] theorem State.setMgmt_bias (f : Mgmt → Mgmt) : (s.setMgmt f).bias = s.bias := rfl
@[simp] theorem State.setMgmt_mgmt (f : Mgmt → Mgmt) : (s.setMgmt f).mgmt = f s.mgmt := rfl
@[simp] theorem State.setMgmt_images (f : Mgmt → Mgmt) : (s.setMgmt f).images = s.images := rfl
@[simp] theorem State.setMgmt_bents (f : Mgmt → Mgmt) : (s.setMgmt f).bents = s.bents := rfl
@[simp] theorem State.setMgmt_triggers (f : Mgmt → Mgmt) : (s.setMgmt f).triggers = s.triggers := rfl
@[simp] theorem State.setMgmt_core (f : Mgmt → Mgmt) (x : Nat) : (s.setMgmt f).core x = s.core x := rfl
@[simp] theorem State.setMgmt_die (f : Mgmt → Mgmt) (x : Nat) : (s.setMgmt f).die x = s.die x := rfl
@[simp] theorem State.setMgmt_line (f : Mgmt → Mgmt) (x : Nat) : (s.setMgmt f).line x = s.line x := rfl
@[simp] theorem State.setMgmt_byte (f : Mgmt → Mgmt) (x : Nat) : (s.setMgmt f).byte x = s.byte x := rfl

/-! ### setByte -/

@[simp] theorem State.setByte_agenda (a : Nat) (b : Byte) : (s.setByte a b).agenda = s.agenda := rfl
@[simp] theorem State.setByte_cur (a : Nat) (b : Byte) : (s.setByte a b).cur = s.cur := rfl
@[simp] theorem State.setByte_freeCtr (a : Nat) (b : Byte) : (s.setByte a b).freeCtr = s.freeCtr := rfl
@[simp] theorem State.setByte_nextId (a : Nat) (b : Byte) : (s.setByte a b).nextId = s.nextId := rfl
@[simp] theorem State.setByte_clk (a : Nat) (b : Byte) : (s.setByte a b).clk = s.clk := rfl
@[simp] theorem State.setByte_mem (a : Nat) (b : Byte) : (s.setByte a b).mem = Map.putD s.mem Config.unwritten a b := rfl
@[simp] theorem State.setByte_past (a : Nat) (b : Byte) : (s.setByte a b).past = s.past := rfl
@[simp] theorem State.setByte_dies (a : Nat) (b : Byte) : (s.setByte a b).dies = s.dies := rfl
@[simp] theorem State.setByte_cores (a : Nat) (b : Byte) : (s.setByte a b).cores = s.cores := rfl
@[simp] theorem State.setByte_groups (a : Nat) (b : Byte) : (s.setByte a b).groups = s.groups := rfl
@[simp] theorem State.setByte_blocks (a : Nat) (b : Byte) : (s.setByte a b).blocks = s.blocks := rfl
@[simp] theorem State.setByte_launches (a : Nat) (b : Byte) : (s.setByte a b).launches = s.launches := rfl
@[simp] theorem State.setByte_reports (a : Nat) (b : Byte) : (s.setByte a b).reports = s.reports := rfl
@[simp] theorem State.setByte_classes (a : Nat) (b : Byte) : (s.setByte a b).classes = s.classes := rfl
@[simp] theorem State.setByte_reserves (a : Nat) (b : Byte) : (s.setByte a b).reserves = s.reserves := rfl
@[simp] theorem State.setByte_nextGang (a : Nat) (b : Byte) : (s.setByte a b).nextGang = s.nextGang := rfl
@[simp] theorem State.setByte_lines (a : Nat) (b : Byte) : (s.setByte a b).lines = s.lines := rfl
@[simp] theorem State.setByte_proxies (a : Nat) (b : Byte) : (s.setByte a b).proxies = s.proxies := rfl
@[simp] theorem State.setByte_hostHalves (a : Nat) (b : Byte) : (s.setByte a b).hostHalves = s.hostHalves := rfl
@[simp] theorem State.setByte_msgs (a : Nat) (b : Byte) : (s.setByte a b).msgs = s.msgs := rfl
@[simp] theorem State.setByte_accs (a : Nat) (b : Byte) : (s.setByte a b).accs = s.accs := rfl
@[simp] theorem State.setByte_toks (a : Nat) (b : Byte) : (s.setByte a b).toks = s.toks := rfl
@[simp] theorem State.setByte_obs (a : Nat) (b : Byte) : (s.setByte a b).obs = s.obs := rfl
@[simp] theorem State.setByte_seen (a : Nat) (b : Byte) : (s.setByte a b).seen = s.seen := rfl
@[simp] theorem State.setByte_fenced (a : Nat) (b : Byte) : (s.setByte a b).fenced = s.fenced := rfl
@[simp] theorem State.setByte_carry (a : Nat) (b : Byte) : (s.setByte a b).carry = s.carry := rfl
@[simp] theorem State.setByte_cmps (a : Nat) (b : Byte) : (s.setByte a b).cmps = s.cmps := rfl
@[simp] theorem State.setByte_snaps (a : Nat) (b : Byte) : (s.setByte a b).snaps = s.snaps := rfl
@[simp] theorem State.setByte_cmds (a : Nat) (b : Byte) : (s.setByte a b).cmds = s.cmds := rfl
@[simp] theorem State.setByte_ranges (a : Nat) (b : Byte) : (s.setByte a b).ranges = s.ranges := rfl
@[simp] theorem State.setByte_colls (a : Nat) (b : Byte) : (s.setByte a b).colls = s.colls := rfl
@[simp] theorem State.setByte_tasks (a : Nat) (b : Byte) : (s.setByte a b).tasks = s.tasks := rfl
@[simp] theorem State.setByte_round (a : Nat) (b : Byte) : (s.setByte a b).round = s.round := rfl
@[simp] theorem State.setByte_roundG (a : Nat) (b : Byte) : (s.setByte a b).roundG = s.roundG := rfl
@[simp] theorem State.setByte_roundTasks (a : Nat) (b : Byte) : (s.setByte a b).roundTasks = s.roundTasks := rfl
@[simp] theorem State.setByte_queue (a : Nat) (b : Byte) : (s.setByte a b).queue = s.queue := rfl
@[simp] theorem State.setByte_seqs (a : Nat) (b : Byte) : (s.setByte a b).seqs = s.seqs := rfl
@[simp] theorem State.setByte_pegs (a : Nat) (b : Byte) : (s.setByte a b).pegs = s.pegs := rfl
@[simp] theorem State.setByte_lockReqs (a : Nat) (b : Byte) : (s.setByte a b).lockReqs = s.lockReqs := rfl
@[simp] theorem State.setByte_broken (a : Nat) (b : Byte) : (s.setByte a b).broken = s.broken := rfl
@[simp] theorem State.setByte_spills (a : Nat) (b : Byte) : (s.setByte a b).spills = s.spills := rfl
@[simp] theorem State.setByte_claims (a : Nat) (b : Byte) : (s.setByte a b).claims = s.claims := rfl
@[simp] theorem State.setByte_convs (a : Nat) (b : Byte) : (s.setByte a b).convs = s.convs := rfl
@[simp] theorem State.setByte_spaces (a : Nat) (b : Byte) : (s.setByte a b).spaces = s.spaces := rfl
@[simp] theorem State.setByte_tlb (a : Nat) (b : Byte) : (s.setByte a b).tlb = s.tlb := rfl
@[simp] theorem State.setByte_settled (a : Nat) (b : Byte) : (s.setByte a b).settled = s.settled := rfl
@[simp] theorem State.setByte_faultq (a : Nat) (b : Byte) : (s.setByte a b).faultq = s.faultq := rfl
@[simp] theorem State.setByte_faultProd (a : Nat) (b : Byte) : (s.setByte a b).faultProd = s.faultProd := rfl
@[simp] theorem State.setByte_faults (a : Nat) (b : Byte) : (s.setByte a b).faults = s.faults := rfl
@[simp] theorem State.setByte_queues (a : Nat) (b : Byte) : (s.setByte a b).queues = s.queues := rfl
@[simp] theorem State.setByte_bias (a : Nat) (b : Byte) : (s.setByte a b).bias = s.bias := rfl
@[simp] theorem State.setByte_mgmt (a : Nat) (b : Byte) : (s.setByte a b).mgmt = s.mgmt := rfl
@[simp] theorem State.setByte_images (a : Nat) (b : Byte) : (s.setByte a b).images = s.images := rfl
@[simp] theorem State.setByte_bents (a : Nat) (b : Byte) : (s.setByte a b).bents = s.bents := rfl
@[simp] theorem State.setByte_triggers (a : Nat) (b : Byte) : (s.setByte a b).triggers = s.triggers := rfl
@[simp] theorem State.setByte_core (a : Nat) (b : Byte) (x : Nat) : (s.setByte a b).core x = s.core x := rfl
@[simp] theorem State.setByte_die (a : Nat) (b : Byte) (x : Nat) : (s.setByte a b).die x = s.die x := rfl
@[simp] theorem State.setByte_line (a : Nat) (b : Byte) (x : Nat) : (s.setByte a b).line x = s.line x := rfl

/-! ### setSplit -/

@[simp] theorem setSplit_agenda (g k : Nat) (f : Split → Split) : (setSplit s g k f).agenda = s.agenda := rfl
@[simp] theorem setSplit_cur (g k : Nat) (f : Split → Split) : (setSplit s g k f).cur = s.cur := rfl
@[simp] theorem setSplit_freeCtr (g k : Nat) (f : Split → Split) : (setSplit s g k f).freeCtr = s.freeCtr := rfl
@[simp] theorem setSplit_nextId (g k : Nat) (f : Split → Split) : (setSplit s g k f).nextId = s.nextId := rfl
@[simp] theorem setSplit_clk (g k : Nat) (f : Split → Split) : (setSplit s g k f).clk = s.clk := rfl
@[simp] theorem setSplit_mem (g k : Nat) (f : Split → Split) : (setSplit s g k f).mem = s.mem := rfl
@[simp] theorem setSplit_past (g k : Nat) (f : Split → Split) : (setSplit s g k f).past = s.past := rfl
@[simp] theorem setSplit_dies (g k : Nat) (f : Split → Split) : (setSplit s g k f).dies = s.dies := rfl
@[simp] theorem setSplit_cores (g k : Nat) (f : Split → Split) : (setSplit s g k f).cores = s.cores := rfl
@[simp] theorem setSplit_groups (g k : Nat) (f : Split → Split) : (setSplit s g k f).groups = s.groups.modify g (fun x => { x with splits := x.splits.modify k f }) := rfl
@[simp] theorem setSplit_blocks (g k : Nat) (f : Split → Split) : (setSplit s g k f).blocks = s.blocks := rfl
@[simp] theorem setSplit_launches (g k : Nat) (f : Split → Split) : (setSplit s g k f).launches = s.launches := rfl
@[simp] theorem setSplit_reports (g k : Nat) (f : Split → Split) : (setSplit s g k f).reports = s.reports := rfl
@[simp] theorem setSplit_classes (g k : Nat) (f : Split → Split) : (setSplit s g k f).classes = s.classes := rfl
@[simp] theorem setSplit_reserves (g k : Nat) (f : Split → Split) : (setSplit s g k f).reserves = s.reserves := rfl
@[simp] theorem setSplit_nextGang (g k : Nat) (f : Split → Split) : (setSplit s g k f).nextGang = s.nextGang := rfl
@[simp] theorem setSplit_lines (g k : Nat) (f : Split → Split) : (setSplit s g k f).lines = s.lines := rfl
@[simp] theorem setSplit_proxies (g k : Nat) (f : Split → Split) : (setSplit s g k f).proxies = s.proxies := rfl
@[simp] theorem setSplit_hostHalves (g k : Nat) (f : Split → Split) : (setSplit s g k f).hostHalves = s.hostHalves := rfl
@[simp] theorem setSplit_msgs (g k : Nat) (f : Split → Split) : (setSplit s g k f).msgs = s.msgs := rfl
@[simp] theorem setSplit_accs (g k : Nat) (f : Split → Split) : (setSplit s g k f).accs = s.accs := rfl
@[simp] theorem setSplit_toks (g k : Nat) (f : Split → Split) : (setSplit s g k f).toks = s.toks := rfl
@[simp] theorem setSplit_obs (g k : Nat) (f : Split → Split) : (setSplit s g k f).obs = s.obs := rfl
@[simp] theorem setSplit_seen (g k : Nat) (f : Split → Split) : (setSplit s g k f).seen = s.seen := rfl
@[simp] theorem setSplit_fenced (g k : Nat) (f : Split → Split) : (setSplit s g k f).fenced = s.fenced := rfl
@[simp] theorem setSplit_carry (g k : Nat) (f : Split → Split) : (setSplit s g k f).carry = s.carry := rfl
@[simp] theorem setSplit_cmps (g k : Nat) (f : Split → Split) : (setSplit s g k f).cmps = s.cmps := rfl
@[simp] theorem setSplit_snaps (g k : Nat) (f : Split → Split) : (setSplit s g k f).snaps = s.snaps := rfl
@[simp] theorem setSplit_cmds (g k : Nat) (f : Split → Split) : (setSplit s g k f).cmds = s.cmds := rfl
@[simp] theorem setSplit_ranges (g k : Nat) (f : Split → Split) : (setSplit s g k f).ranges = s.ranges := rfl
@[simp] theorem setSplit_colls (g k : Nat) (f : Split → Split) : (setSplit s g k f).colls = s.colls := rfl
@[simp] theorem setSplit_tasks (g k : Nat) (f : Split → Split) : (setSplit s g k f).tasks = s.tasks := rfl
@[simp] theorem setSplit_round (g k : Nat) (f : Split → Split) : (setSplit s g k f).round = s.round := rfl
@[simp] theorem setSplit_roundG (g k : Nat) (f : Split → Split) : (setSplit s g k f).roundG = s.roundG := rfl
@[simp] theorem setSplit_roundTasks (g k : Nat) (f : Split → Split) : (setSplit s g k f).roundTasks = s.roundTasks := rfl
@[simp] theorem setSplit_queue (g k : Nat) (f : Split → Split) : (setSplit s g k f).queue = s.queue := rfl
@[simp] theorem setSplit_seqs (g k : Nat) (f : Split → Split) : (setSplit s g k f).seqs = s.seqs := rfl
@[simp] theorem setSplit_pegs (g k : Nat) (f : Split → Split) : (setSplit s g k f).pegs = s.pegs := rfl
@[simp] theorem setSplit_lockReqs (g k : Nat) (f : Split → Split) : (setSplit s g k f).lockReqs = s.lockReqs := rfl
@[simp] theorem setSplit_broken (g k : Nat) (f : Split → Split) : (setSplit s g k f).broken = s.broken := rfl
@[simp] theorem setSplit_spills (g k : Nat) (f : Split → Split) : (setSplit s g k f).spills = s.spills := rfl
@[simp] theorem setSplit_claims (g k : Nat) (f : Split → Split) : (setSplit s g k f).claims = s.claims := rfl
@[simp] theorem setSplit_convs (g k : Nat) (f : Split → Split) : (setSplit s g k f).convs = s.convs := rfl
@[simp] theorem setSplit_spaces (g k : Nat) (f : Split → Split) : (setSplit s g k f).spaces = s.spaces := rfl
@[simp] theorem setSplit_tlb (g k : Nat) (f : Split → Split) : (setSplit s g k f).tlb = s.tlb := rfl
@[simp] theorem setSplit_settled (g k : Nat) (f : Split → Split) : (setSplit s g k f).settled = s.settled := rfl
@[simp] theorem setSplit_faultq (g k : Nat) (f : Split → Split) : (setSplit s g k f).faultq = s.faultq := rfl
@[simp] theorem setSplit_faultProd (g k : Nat) (f : Split → Split) : (setSplit s g k f).faultProd = s.faultProd := rfl
@[simp] theorem setSplit_faults (g k : Nat) (f : Split → Split) : (setSplit s g k f).faults = s.faults := rfl
@[simp] theorem setSplit_queues (g k : Nat) (f : Split → Split) : (setSplit s g k f).queues = s.queues := rfl
@[simp] theorem setSplit_bias (g k : Nat) (f : Split → Split) : (setSplit s g k f).bias = s.bias := rfl
@[simp] theorem setSplit_mgmt (g k : Nat) (f : Split → Split) : (setSplit s g k f).mgmt = s.mgmt := rfl
@[simp] theorem setSplit_images (g k : Nat) (f : Split → Split) : (setSplit s g k f).images = s.images := rfl
@[simp] theorem setSplit_bents (g k : Nat) (f : Split → Split) : (setSplit s g k f).bents = s.bents := rfl
@[simp] theorem setSplit_triggers (g k : Nat) (f : Split → Split) : (setSplit s g k f).triggers = s.triggers := rfl
@[simp] theorem setSplit_core (g k : Nat) (f : Split → Split) (x : Nat) : (setSplit s g k f).core x = s.core x := rfl
@[simp] theorem setSplit_die (g k : Nat) (f : Split → Split) (x : Nat) : (setSplit s g k f).die x = s.die x := rfl
@[simp] theorem setSplit_line (g k : Nat) (f : Split → Split) (x : Nat) : (setSplit s g k f).line x = s.line x := rfl
@[simp] theorem setSplit_byte (g k : Nat) (f : Split → Split) (x : Nat) : (setSplit s g k f).byte x = s.byte x := rfl

/-! ### setBay -/

@[simp] theorem State.setBay_agenda (c b : Nat) (f : Bay → Bay) : (s.setBay c b f).agenda = s.agenda := rfl
@[simp] theorem State.setBay_cur (c b : Nat) (f : Bay → Bay) : (s.setBay c b f).cur = s.cur := rfl
@[simp] theorem State.setBay_freeCtr (c b : Nat) (f : Bay → Bay) : (s.setBay c b f).freeCtr = s.freeCtr := rfl
@[simp] theorem State.setBay_nextId (c b : Nat) (f : Bay → Bay) : (s.setBay c b f).nextId = s.nextId := rfl
@[simp] theorem State.setBay_clk (c b : Nat) (f : Bay → Bay) : (s.setBay c b f).clk = s.clk := rfl
@[simp] theorem State.setBay_mem (c b : Nat) (f : Bay → Bay) : (s.setBay c b f).mem = s.mem := rfl
@[simp] theorem State.setBay_past (c b : Nat) (f : Bay → Bay) : (s.setBay c b f).past = s.past := rfl
@[simp] theorem State.setBay_dies (c b : Nat) (f : Bay → Bay) : (s.setBay c b f).dies = s.dies := rfl
@[simp] theorem State.setBay_groups (c b : Nat) (f : Bay → Bay) : (s.setBay c b f).groups = s.groups := rfl
@[simp] theorem State.setBay_blocks (c b : Nat) (f : Bay → Bay) : (s.setBay c b f).blocks = s.blocks := rfl
@[simp] theorem State.setBay_launches (c b : Nat) (f : Bay → Bay) : (s.setBay c b f).launches = s.launches := rfl
@[simp] theorem State.setBay_reports (c b : Nat) (f : Bay → Bay) : (s.setBay c b f).reports = s.reports := rfl
@[simp] theorem State.setBay_classes (c b : Nat) (f : Bay → Bay) : (s.setBay c b f).classes = s.classes := rfl
@[simp] theorem State.setBay_reserves (c b : Nat) (f : Bay → Bay) : (s.setBay c b f).reserves = s.reserves := rfl
@[simp] theorem State.setBay_nextGang (c b : Nat) (f : Bay → Bay) : (s.setBay c b f).nextGang = s.nextGang := rfl
@[simp] theorem State.setBay_lines (c b : Nat) (f : Bay → Bay) : (s.setBay c b f).lines = s.lines := rfl
@[simp] theorem State.setBay_proxies (c b : Nat) (f : Bay → Bay) : (s.setBay c b f).proxies = s.proxies := rfl
@[simp] theorem State.setBay_hostHalves (c b : Nat) (f : Bay → Bay) : (s.setBay c b f).hostHalves = s.hostHalves := rfl
@[simp] theorem State.setBay_msgs (c b : Nat) (f : Bay → Bay) : (s.setBay c b f).msgs = s.msgs := rfl
@[simp] theorem State.setBay_accs (c b : Nat) (f : Bay → Bay) : (s.setBay c b f).accs = s.accs := rfl
@[simp] theorem State.setBay_toks (c b : Nat) (f : Bay → Bay) : (s.setBay c b f).toks = s.toks := rfl
@[simp] theorem State.setBay_obs (c b : Nat) (f : Bay → Bay) : (s.setBay c b f).obs = s.obs := rfl
@[simp] theorem State.setBay_seen (c b : Nat) (f : Bay → Bay) : (s.setBay c b f).seen = s.seen := rfl
@[simp] theorem State.setBay_fenced (c b : Nat) (f : Bay → Bay) : (s.setBay c b f).fenced = s.fenced := rfl
@[simp] theorem State.setBay_carry (c b : Nat) (f : Bay → Bay) : (s.setBay c b f).carry = s.carry := rfl
@[simp] theorem State.setBay_cmps (c b : Nat) (f : Bay → Bay) : (s.setBay c b f).cmps = s.cmps := rfl
@[simp] theorem State.setBay_snaps (c b : Nat) (f : Bay → Bay) : (s.setBay c b f).snaps = s.snaps := rfl
@[simp] theorem State.setBay_cmds (c b : Nat) (f : Bay → Bay) : (s.setBay c b f).cmds = s.cmds := rfl
@[simp] theorem State.setBay_ranges (c b : Nat) (f : Bay → Bay) : (s.setBay c b f).ranges = s.ranges := rfl
@[simp] theorem State.setBay_colls (c b : Nat) (f : Bay → Bay) : (s.setBay c b f).colls = s.colls := rfl
@[simp] theorem State.setBay_tasks (c b : Nat) (f : Bay → Bay) : (s.setBay c b f).tasks = s.tasks := rfl
@[simp] theorem State.setBay_round (c b : Nat) (f : Bay → Bay) : (s.setBay c b f).round = s.round := rfl
@[simp] theorem State.setBay_roundG (c b : Nat) (f : Bay → Bay) : (s.setBay c b f).roundG = s.roundG := rfl
@[simp] theorem State.setBay_roundTasks (c b : Nat) (f : Bay → Bay) : (s.setBay c b f).roundTasks = s.roundTasks := rfl
@[simp] theorem State.setBay_queue (c b : Nat) (f : Bay → Bay) : (s.setBay c b f).queue = s.queue := rfl
@[simp] theorem State.setBay_seqs (c b : Nat) (f : Bay → Bay) : (s.setBay c b f).seqs = s.seqs := rfl
@[simp] theorem State.setBay_pegs (c b : Nat) (f : Bay → Bay) : (s.setBay c b f).pegs = s.pegs := rfl
@[simp] theorem State.setBay_lockReqs (c b : Nat) (f : Bay → Bay) : (s.setBay c b f).lockReqs = s.lockReqs := rfl
@[simp] theorem State.setBay_broken (c b : Nat) (f : Bay → Bay) : (s.setBay c b f).broken = s.broken := rfl
@[simp] theorem State.setBay_spills (c b : Nat) (f : Bay → Bay) : (s.setBay c b f).spills = s.spills := rfl
@[simp] theorem State.setBay_claims (c b : Nat) (f : Bay → Bay) : (s.setBay c b f).claims = s.claims := rfl
@[simp] theorem State.setBay_convs (c b : Nat) (f : Bay → Bay) : (s.setBay c b f).convs = s.convs := rfl
@[simp] theorem State.setBay_spaces (c b : Nat) (f : Bay → Bay) : (s.setBay c b f).spaces = s.spaces := rfl
@[simp] theorem State.setBay_tlb (c b : Nat) (f : Bay → Bay) : (s.setBay c b f).tlb = s.tlb := rfl
@[simp] theorem State.setBay_settled (c b : Nat) (f : Bay → Bay) : (s.setBay c b f).settled = s.settled := rfl
@[simp] theorem State.setBay_faultq (c b : Nat) (f : Bay → Bay) : (s.setBay c b f).faultq = s.faultq := rfl
@[simp] theorem State.setBay_faultProd (c b : Nat) (f : Bay → Bay) : (s.setBay c b f).faultProd = s.faultProd := rfl
@[simp] theorem State.setBay_faults (c b : Nat) (f : Bay → Bay) : (s.setBay c b f).faults = s.faults := rfl
@[simp] theorem State.setBay_queues (c b : Nat) (f : Bay → Bay) : (s.setBay c b f).queues = s.queues := rfl
@[simp] theorem State.setBay_bias (c b : Nat) (f : Bay → Bay) : (s.setBay c b f).bias = s.bias := rfl
@[simp] theorem State.setBay_mgmt (c b : Nat) (f : Bay → Bay) : (s.setBay c b f).mgmt = s.mgmt := rfl
@[simp] theorem State.setBay_images (c b : Nat) (f : Bay → Bay) : (s.setBay c b f).images = s.images := rfl
@[simp] theorem State.setBay_bents (c b : Nat) (f : Bay → Bay) : (s.setBay c b f).bents = s.bents := rfl
@[simp] theorem State.setBay_triggers (c b : Nat) (f : Bay → Bay) : (s.setBay c b f).triggers = s.triggers := rfl
@[simp] theorem State.setBay_die (c b : Nat) (f : Bay → Bay) (x : Nat) : (s.setBay c b f).die x = s.die x := rfl
@[simp] theorem State.setBay_line (c b : Nat) (f : Bay → Bay) (x : Nat) : (s.setBay c b f).line x = s.line x := rfl
@[simp] theorem State.setBay_byte (c b : Nat) (f : Bay → Bay) (x : Nat) : (s.setBay c b f).byte x = s.byte x := rfl

/-! ### setAcc -/

@[simp] theorem State.setAcc_agenda (n : Nat) (f : Acc → Acc) : (s.setAcc n f).agenda = s.agenda := rfl
@[simp] theorem State.setAcc_cur (n : Nat) (f : Acc → Acc) : (s.setAcc n f).cur = s.cur := rfl
@[simp] theorem State.setAcc_freeCtr (n : Nat) (f : Acc → Acc) : (s.setAcc n f).freeCtr = s.freeCtr := rfl
@[simp] theorem State.setAcc_nextId (n : Nat) (f : Acc → Acc) : (s.setAcc n f).nextId = s.nextId := rfl
@[simp] theorem State.setAcc_clk (n : Nat) (f : Acc → Acc) : (s.setAcc n f).clk = s.clk := rfl
@[simp] theorem State.setAcc_mem (n : Nat) (f : Acc → Acc) : (s.setAcc n f).mem = s.mem := rfl
@[simp] theorem State.setAcc_past (n : Nat) (f : Acc → Acc) : (s.setAcc n f).past = s.past := rfl
@[simp] theorem State.setAcc_dies (n : Nat) (f : Acc → Acc) : (s.setAcc n f).dies = s.dies := rfl
@[simp] theorem State.setAcc_cores (n : Nat) (f : Acc → Acc) : (s.setAcc n f).cores = s.cores := rfl
@[simp] theorem State.setAcc_groups (n : Nat) (f : Acc → Acc) : (s.setAcc n f).groups = s.groups := rfl
@[simp] theorem State.setAcc_blocks (n : Nat) (f : Acc → Acc) : (s.setAcc n f).blocks = s.blocks := rfl
@[simp] theorem State.setAcc_launches (n : Nat) (f : Acc → Acc) : (s.setAcc n f).launches = s.launches := rfl
@[simp] theorem State.setAcc_reports (n : Nat) (f : Acc → Acc) : (s.setAcc n f).reports = s.reports := rfl
@[simp] theorem State.setAcc_classes (n : Nat) (f : Acc → Acc) : (s.setAcc n f).classes = s.classes := rfl
@[simp] theorem State.setAcc_reserves (n : Nat) (f : Acc → Acc) : (s.setAcc n f).reserves = s.reserves := rfl
@[simp] theorem State.setAcc_nextGang (n : Nat) (f : Acc → Acc) : (s.setAcc n f).nextGang = s.nextGang := rfl
@[simp] theorem State.setAcc_lines (n : Nat) (f : Acc → Acc) : (s.setAcc n f).lines = s.lines := rfl
@[simp] theorem State.setAcc_proxies (n : Nat) (f : Acc → Acc) : (s.setAcc n f).proxies = s.proxies := rfl
@[simp] theorem State.setAcc_hostHalves (n : Nat) (f : Acc → Acc) : (s.setAcc n f).hostHalves = s.hostHalves := rfl
@[simp] theorem State.setAcc_msgs (n : Nat) (f : Acc → Acc) : (s.setAcc n f).msgs = s.msgs := rfl
@[simp] theorem State.setAcc_toks (n : Nat) (f : Acc → Acc) : (s.setAcc n f).toks = s.toks := rfl
@[simp] theorem State.setAcc_obs (n : Nat) (f : Acc → Acc) : (s.setAcc n f).obs = s.obs := rfl
@[simp] theorem State.setAcc_seen (n : Nat) (f : Acc → Acc) : (s.setAcc n f).seen = s.seen := rfl
@[simp] theorem State.setAcc_fenced (n : Nat) (f : Acc → Acc) : (s.setAcc n f).fenced = s.fenced := rfl
@[simp] theorem State.setAcc_carry (n : Nat) (f : Acc → Acc) : (s.setAcc n f).carry = s.carry := rfl
@[simp] theorem State.setAcc_cmps (n : Nat) (f : Acc → Acc) : (s.setAcc n f).cmps = s.cmps := rfl
@[simp] theorem State.setAcc_snaps (n : Nat) (f : Acc → Acc) : (s.setAcc n f).snaps = s.snaps := rfl
@[simp] theorem State.setAcc_cmds (n : Nat) (f : Acc → Acc) : (s.setAcc n f).cmds = s.cmds := rfl
@[simp] theorem State.setAcc_ranges (n : Nat) (f : Acc → Acc) : (s.setAcc n f).ranges = s.ranges := rfl
@[simp] theorem State.setAcc_colls (n : Nat) (f : Acc → Acc) : (s.setAcc n f).colls = s.colls := rfl
@[simp] theorem State.setAcc_tasks (n : Nat) (f : Acc → Acc) : (s.setAcc n f).tasks = s.tasks := rfl
@[simp] theorem State.setAcc_round (n : Nat) (f : Acc → Acc) : (s.setAcc n f).round = s.round := rfl
@[simp] theorem State.setAcc_roundG (n : Nat) (f : Acc → Acc) : (s.setAcc n f).roundG = s.roundG := rfl
@[simp] theorem State.setAcc_roundTasks (n : Nat) (f : Acc → Acc) : (s.setAcc n f).roundTasks = s.roundTasks := rfl
@[simp] theorem State.setAcc_queue (n : Nat) (f : Acc → Acc) : (s.setAcc n f).queue = s.queue := rfl
@[simp] theorem State.setAcc_seqs (n : Nat) (f : Acc → Acc) : (s.setAcc n f).seqs = s.seqs := rfl
@[simp] theorem State.setAcc_pegs (n : Nat) (f : Acc → Acc) : (s.setAcc n f).pegs = s.pegs := rfl
@[simp] theorem State.setAcc_lockReqs (n : Nat) (f : Acc → Acc) : (s.setAcc n f).lockReqs = s.lockReqs := rfl
@[simp] theorem State.setAcc_broken (n : Nat) (f : Acc → Acc) : (s.setAcc n f).broken = s.broken := rfl
@[simp] theorem State.setAcc_spills (n : Nat) (f : Acc → Acc) : (s.setAcc n f).spills = s.spills := rfl
@[simp] theorem State.setAcc_claims (n : Nat) (f : Acc → Acc) : (s.setAcc n f).claims = s.claims := rfl
@[simp] theorem State.setAcc_convs (n : Nat) (f : Acc → Acc) : (s.setAcc n f).convs = s.convs := rfl
@[simp] theorem State.setAcc_spaces (n : Nat) (f : Acc → Acc) : (s.setAcc n f).spaces = s.spaces := rfl
@[simp] theorem State.setAcc_tlb (n : Nat) (f : Acc → Acc) : (s.setAcc n f).tlb = s.tlb := rfl
@[simp] theorem State.setAcc_settled (n : Nat) (f : Acc → Acc) : (s.setAcc n f).settled = s.settled := rfl
@[simp] theorem State.setAcc_faultq (n : Nat) (f : Acc → Acc) : (s.setAcc n f).faultq = s.faultq := rfl
@[simp] theorem State.setAcc_faultProd (n : Nat) (f : Acc → Acc) : (s.setAcc n f).faultProd = s.faultProd := rfl
@[simp] theorem State.setAcc_faults (n : Nat) (f : Acc → Acc) : (s.setAcc n f).faults = s.faults := rfl
@[simp] theorem State.setAcc_queues (n : Nat) (f : Acc → Acc) : (s.setAcc n f).queues = s.queues := rfl
@[simp] theorem State.setAcc_bias (n : Nat) (f : Acc → Acc) : (s.setAcc n f).bias = s.bias := rfl
@[simp] theorem State.setAcc_mgmt (n : Nat) (f : Acc → Acc) : (s.setAcc n f).mgmt = s.mgmt := rfl
@[simp] theorem State.setAcc_images (n : Nat) (f : Acc → Acc) : (s.setAcc n f).images = s.images := rfl
@[simp] theorem State.setAcc_bents (n : Nat) (f : Acc → Acc) : (s.setAcc n f).bents = s.bents := rfl
@[simp] theorem State.setAcc_triggers (n : Nat) (f : Acc → Acc) : (s.setAcc n f).triggers = s.triggers := rfl
@[simp] theorem State.setAcc_core (n : Nat) (f : Acc → Acc) (x : Nat) : (s.setAcc n f).core x = s.core x := rfl
@[simp] theorem State.setAcc_die (n : Nat) (f : Acc → Acc) (x : Nat) : (s.setAcc n f).die x = s.die x := rfl
@[simp] theorem State.setAcc_line (n : Nat) (f : Acc → Acc) (x : Nat) : (s.setAcc n f).line x = s.line x := rfl
@[simp] theorem State.setAcc_byte (n : Nat) (f : Acc → Acc) (x : Nat) : (s.setAcc n f).byte x = s.byte x := rfl

/-! ### dropAcc -/

@[simp] theorem State.dropAcc_agenda (n : Nat) : (s.dropAcc n).agenda = s.agenda := rfl
@[simp] theorem State.dropAcc_cur (n : Nat) : (s.dropAcc n).cur = s.cur := rfl
@[simp] theorem State.dropAcc_freeCtr (n : Nat) : (s.dropAcc n).freeCtr = s.freeCtr := rfl
@[simp] theorem State.dropAcc_nextId (n : Nat) : (s.dropAcc n).nextId = s.nextId := rfl
@[simp] theorem State.dropAcc_clk (n : Nat) : (s.dropAcc n).clk = s.clk := rfl
@[simp] theorem State.dropAcc_mem (n : Nat) : (s.dropAcc n).mem = s.mem := rfl
@[simp] theorem State.dropAcc_past (n : Nat) : (s.dropAcc n).past = s.past := rfl
@[simp] theorem State.dropAcc_dies (n : Nat) : (s.dropAcc n).dies = s.dies := rfl
@[simp] theorem State.dropAcc_cores (n : Nat) : (s.dropAcc n).cores = s.cores := rfl
@[simp] theorem State.dropAcc_groups (n : Nat) : (s.dropAcc n).groups = s.groups := rfl
@[simp] theorem State.dropAcc_blocks (n : Nat) : (s.dropAcc n).blocks = s.blocks := rfl
@[simp] theorem State.dropAcc_launches (n : Nat) : (s.dropAcc n).launches = s.launches := rfl
@[simp] theorem State.dropAcc_reports (n : Nat) : (s.dropAcc n).reports = s.reports := rfl
@[simp] theorem State.dropAcc_classes (n : Nat) : (s.dropAcc n).classes = s.classes := rfl
@[simp] theorem State.dropAcc_reserves (n : Nat) : (s.dropAcc n).reserves = s.reserves := rfl
@[simp] theorem State.dropAcc_nextGang (n : Nat) : (s.dropAcc n).nextGang = s.nextGang := rfl
@[simp] theorem State.dropAcc_lines (n : Nat) : (s.dropAcc n).lines = s.lines := rfl
@[simp] theorem State.dropAcc_proxies (n : Nat) : (s.dropAcc n).proxies = s.proxies := rfl
@[simp] theorem State.dropAcc_hostHalves (n : Nat) : (s.dropAcc n).hostHalves = s.hostHalves := rfl
@[simp] theorem State.dropAcc_msgs (n : Nat) : (s.dropAcc n).msgs = s.msgs := rfl
@[simp] theorem State.dropAcc_toks (n : Nat) : (s.dropAcc n).toks = s.toks := rfl
@[simp] theorem State.dropAcc_obs (n : Nat) : (s.dropAcc n).obs = s.obs := rfl
@[simp] theorem State.dropAcc_seen (n : Nat) : (s.dropAcc n).seen = s.seen := rfl
@[simp] theorem State.dropAcc_fenced (n : Nat) : (s.dropAcc n).fenced = s.fenced := rfl
@[simp] theorem State.dropAcc_carry (n : Nat) : (s.dropAcc n).carry = s.carry := rfl
@[simp] theorem State.dropAcc_cmps (n : Nat) : (s.dropAcc n).cmps = s.cmps := rfl
@[simp] theorem State.dropAcc_snaps (n : Nat) : (s.dropAcc n).snaps = s.snaps := rfl
@[simp] theorem State.dropAcc_cmds (n : Nat) : (s.dropAcc n).cmds = s.cmds := rfl
@[simp] theorem State.dropAcc_ranges (n : Nat) : (s.dropAcc n).ranges = s.ranges := rfl
@[simp] theorem State.dropAcc_colls (n : Nat) : (s.dropAcc n).colls = s.colls := rfl
@[simp] theorem State.dropAcc_tasks (n : Nat) : (s.dropAcc n).tasks = s.tasks := rfl
@[simp] theorem State.dropAcc_round (n : Nat) : (s.dropAcc n).round = s.round := rfl
@[simp] theorem State.dropAcc_roundG (n : Nat) : (s.dropAcc n).roundG = s.roundG := rfl
@[simp] theorem State.dropAcc_roundTasks (n : Nat) : (s.dropAcc n).roundTasks = s.roundTasks := rfl
@[simp] theorem State.dropAcc_queue (n : Nat) : (s.dropAcc n).queue = s.queue := rfl
@[simp] theorem State.dropAcc_seqs (n : Nat) : (s.dropAcc n).seqs = s.seqs := rfl
@[simp] theorem State.dropAcc_pegs (n : Nat) : (s.dropAcc n).pegs = s.pegs := rfl
@[simp] theorem State.dropAcc_lockReqs (n : Nat) : (s.dropAcc n).lockReqs = s.lockReqs := rfl
@[simp] theorem State.dropAcc_broken (n : Nat) : (s.dropAcc n).broken = s.broken := rfl
@[simp] theorem State.dropAcc_spills (n : Nat) : (s.dropAcc n).spills = s.spills := rfl
@[simp] theorem State.dropAcc_claims (n : Nat) : (s.dropAcc n).claims = s.claims := rfl
@[simp] theorem State.dropAcc_convs (n : Nat) : (s.dropAcc n).convs = s.convs := rfl
@[simp] theorem State.dropAcc_spaces (n : Nat) : (s.dropAcc n).spaces = s.spaces := rfl
@[simp] theorem State.dropAcc_tlb (n : Nat) : (s.dropAcc n).tlb = s.tlb := rfl
@[simp] theorem State.dropAcc_settled (n : Nat) : (s.dropAcc n).settled = s.settled := rfl
@[simp] theorem State.dropAcc_faultq (n : Nat) : (s.dropAcc n).faultq = s.faultq := rfl
@[simp] theorem State.dropAcc_faultProd (n : Nat) : (s.dropAcc n).faultProd = s.faultProd := rfl
@[simp] theorem State.dropAcc_faults (n : Nat) : (s.dropAcc n).faults = s.faults := rfl
@[simp] theorem State.dropAcc_queues (n : Nat) : (s.dropAcc n).queues = s.queues := rfl
@[simp] theorem State.dropAcc_bias (n : Nat) : (s.dropAcc n).bias = s.bias := rfl
@[simp] theorem State.dropAcc_mgmt (n : Nat) : (s.dropAcc n).mgmt = s.mgmt := rfl
@[simp] theorem State.dropAcc_images (n : Nat) : (s.dropAcc n).images = s.images := rfl
@[simp] theorem State.dropAcc_bents (n : Nat) : (s.dropAcc n).bents = s.bents := rfl
@[simp] theorem State.dropAcc_triggers (n : Nat) : (s.dropAcc n).triggers = s.triggers := rfl
@[simp] theorem State.dropAcc_core (n : Nat) (x : Nat) : (s.dropAcc n).core x = s.core x := rfl
@[simp] theorem State.dropAcc_die (n : Nat) (x : Nat) : (s.dropAcc n).die x = s.die x := rfl
@[simp] theorem State.dropAcc_line (n : Nat) (x : Nat) : (s.dropAcc n).line x = s.line x := rfl
@[simp] theorem State.dropAcc_byte (n : Nat) (x : Nat) : (s.dropAcc n).byte x = s.byte x := rfl

/-! ### fresh -/

@[simp] theorem State.fresh_agenda : (s.fresh.2).agenda = s.agenda := rfl
@[simp] theorem State.fresh_cur : (s.fresh.2).cur = s.cur := rfl
@[simp] theorem State.fresh_freeCtr : (s.fresh.2).freeCtr = s.freeCtr := rfl
@[simp] theorem State.fresh_nextId : (s.fresh.2).nextId = s.nextId + 1 := rfl
@[simp] theorem State.fresh_clk : (s.fresh.2).clk = s.clk := rfl
@[simp] theorem State.fresh_mem : (s.fresh.2).mem = s.mem := rfl
@[simp] theorem State.fresh_past : (s.fresh.2).past = s.past := rfl
@[simp] theorem State.fresh_dies : (s.fresh.2).dies = s.dies := rfl
@[simp] theorem State.fresh_cores : (s.fresh.2).cores = s.cores := rfl
@[simp] theorem State.fresh_groups : (s.fresh.2).groups = s.groups := rfl
@[simp] theorem State.fresh_blocks : (s.fresh.2).blocks = s.blocks := rfl
@[simp] theorem State.fresh_launches : (s.fresh.2).launches = s.launches := rfl
@[simp] theorem State.fresh_reports : (s.fresh.2).reports = s.reports := rfl
@[simp] theorem State.fresh_classes : (s.fresh.2).classes = s.classes := rfl
@[simp] theorem State.fresh_reserves : (s.fresh.2).reserves = s.reserves := rfl
@[simp] theorem State.fresh_nextGang : (s.fresh.2).nextGang = s.nextGang := rfl
@[simp] theorem State.fresh_lines : (s.fresh.2).lines = s.lines := rfl
@[simp] theorem State.fresh_proxies : (s.fresh.2).proxies = s.proxies := rfl
@[simp] theorem State.fresh_hostHalves : (s.fresh.2).hostHalves = s.hostHalves := rfl
@[simp] theorem State.fresh_msgs : (s.fresh.2).msgs = s.msgs := rfl
@[simp] theorem State.fresh_accs : (s.fresh.2).accs = s.accs := rfl
@[simp] theorem State.fresh_toks : (s.fresh.2).toks = s.toks := rfl
@[simp] theorem State.fresh_obs : (s.fresh.2).obs = s.obs := rfl
@[simp] theorem State.fresh_seen : (s.fresh.2).seen = s.seen := rfl
@[simp] theorem State.fresh_fenced : (s.fresh.2).fenced = s.fenced := rfl
@[simp] theorem State.fresh_carry : (s.fresh.2).carry = s.carry := rfl
@[simp] theorem State.fresh_cmps : (s.fresh.2).cmps = s.cmps := rfl
@[simp] theorem State.fresh_snaps : (s.fresh.2).snaps = s.snaps := rfl
@[simp] theorem State.fresh_cmds : (s.fresh.2).cmds = s.cmds := rfl
@[simp] theorem State.fresh_ranges : (s.fresh.2).ranges = s.ranges := rfl
@[simp] theorem State.fresh_colls : (s.fresh.2).colls = s.colls := rfl
@[simp] theorem State.fresh_tasks : (s.fresh.2).tasks = s.tasks := rfl
@[simp] theorem State.fresh_round : (s.fresh.2).round = s.round := rfl
@[simp] theorem State.fresh_roundG : (s.fresh.2).roundG = s.roundG := rfl
@[simp] theorem State.fresh_roundTasks : (s.fresh.2).roundTasks = s.roundTasks := rfl
@[simp] theorem State.fresh_queue : (s.fresh.2).queue = s.queue := rfl
@[simp] theorem State.fresh_seqs : (s.fresh.2).seqs = s.seqs := rfl
@[simp] theorem State.fresh_pegs : (s.fresh.2).pegs = s.pegs := rfl
@[simp] theorem State.fresh_lockReqs : (s.fresh.2).lockReqs = s.lockReqs := rfl
@[simp] theorem State.fresh_broken : (s.fresh.2).broken = s.broken := rfl
@[simp] theorem State.fresh_spills : (s.fresh.2).spills = s.spills := rfl
@[simp] theorem State.fresh_claims : (s.fresh.2).claims = s.claims := rfl
@[simp] theorem State.fresh_convs : (s.fresh.2).convs = s.convs := rfl
@[simp] theorem State.fresh_spaces : (s.fresh.2).spaces = s.spaces := rfl
@[simp] theorem State.fresh_tlb : (s.fresh.2).tlb = s.tlb := rfl
@[simp] theorem State.fresh_settled : (s.fresh.2).settled = s.settled := rfl
@[simp] theorem State.fresh_faultq : (s.fresh.2).faultq = s.faultq := rfl
@[simp] theorem State.fresh_faultProd : (s.fresh.2).faultProd = s.faultProd := rfl
@[simp] theorem State.fresh_faults : (s.fresh.2).faults = s.faults := rfl
@[simp] theorem State.fresh_queues : (s.fresh.2).queues = s.queues := rfl
@[simp] theorem State.fresh_bias : (s.fresh.2).bias = s.bias := rfl
@[simp] theorem State.fresh_mgmt : (s.fresh.2).mgmt = s.mgmt := rfl
@[simp] theorem State.fresh_images : (s.fresh.2).images = s.images := rfl
@[simp] theorem State.fresh_bents : (s.fresh.2).bents = s.bents := rfl
@[simp] theorem State.fresh_triggers : (s.fresh.2).triggers = s.triggers := rfl
@[simp] theorem State.fresh_core (x : Nat) : (s.fresh.2).core x = s.core x := rfl
@[simp] theorem State.fresh_die (x : Nat) : (s.fresh.2).die x = s.die x := rfl
@[simp] theorem State.fresh_line (x : Nat) : (s.fresh.2).line x = s.line x := rfl
@[simp] theorem State.fresh_byte (x : Nat) : (s.fresh.2).byte x = s.byte x := rfl

/-! ### free -/

@[simp] theorem State.free_agenda : (s.free.2).agenda = s.agenda := rfl
@[simp] theorem State.free_cur : (s.free.2).cur = s.cur := rfl
@[simp] theorem State.free_freeCtr : (s.free.2).freeCtr = s.freeCtr + 1 := rfl
@[simp] theorem State.free_nextId : (s.free.2).nextId = s.nextId := rfl
@[simp] theorem State.free_clk : (s.free.2).clk = s.clk := rfl
@[simp] theorem State.free_mem : (s.free.2).mem = s.mem := rfl
@[simp] theorem State.free_past : (s.free.2).past = s.past := rfl
@[simp] theorem State.free_dies : (s.free.2).dies = s.dies := rfl
@[simp] theorem State.free_cores : (s.free.2).cores = s.cores := rfl
@[simp] theorem State.free_groups : (s.free.2).groups = s.groups := rfl
@[simp] theorem State.free_blocks : (s.free.2).blocks = s.blocks := rfl
@[simp] theorem State.free_launches : (s.free.2).launches = s.launches := rfl
@[simp] theorem State.free_reports : (s.free.2).reports = s.reports := rfl
@[simp] theorem State.free_classes : (s.free.2).classes = s.classes := rfl
@[simp] theorem State.free_reserves : (s.free.2).reserves = s.reserves := rfl
@[simp] theorem State.free_nextGang : (s.free.2).nextGang = s.nextGang := rfl
@[simp] theorem State.free_lines : (s.free.2).lines = s.lines := rfl
@[simp] theorem State.free_proxies : (s.free.2).proxies = s.proxies := rfl
@[simp] theorem State.free_hostHalves : (s.free.2).hostHalves = s.hostHalves := rfl
@[simp] theorem State.free_msgs : (s.free.2).msgs = s.msgs := rfl
@[simp] theorem State.free_accs : (s.free.2).accs = s.accs := rfl
@[simp] theorem State.free_toks : (s.free.2).toks = s.toks := rfl
@[simp] theorem State.free_obs : (s.free.2).obs = s.obs := rfl
@[simp] theorem State.free_seen : (s.free.2).seen = s.seen := rfl
@[simp] theorem State.free_fenced : (s.free.2).fenced = s.fenced := rfl
@[simp] theorem State.free_carry : (s.free.2).carry = s.carry := rfl
@[simp] theorem State.free_cmps : (s.free.2).cmps = s.cmps := rfl
@[simp] theorem State.free_snaps : (s.free.2).snaps = s.snaps := rfl
@[simp] theorem State.free_cmds : (s.free.2).cmds = s.cmds := rfl
@[simp] theorem State.free_ranges : (s.free.2).ranges = s.ranges := rfl
@[simp] theorem State.free_colls : (s.free.2).colls = s.colls := rfl
@[simp] theorem State.free_tasks : (s.free.2).tasks = s.tasks := rfl
@[simp] theorem State.free_round : (s.free.2).round = s.round := rfl
@[simp] theorem State.free_roundG : (s.free.2).roundG = s.roundG := rfl
@[simp] theorem State.free_roundTasks : (s.free.2).roundTasks = s.roundTasks := rfl
@[simp] theorem State.free_queue : (s.free.2).queue = s.queue := rfl
@[simp] theorem State.free_seqs : (s.free.2).seqs = s.seqs := rfl
@[simp] theorem State.free_pegs : (s.free.2).pegs = s.pegs := rfl
@[simp] theorem State.free_lockReqs : (s.free.2).lockReqs = s.lockReqs := rfl
@[simp] theorem State.free_broken : (s.free.2).broken = s.broken := rfl
@[simp] theorem State.free_spills : (s.free.2).spills = s.spills := rfl
@[simp] theorem State.free_claims : (s.free.2).claims = s.claims := rfl
@[simp] theorem State.free_convs : (s.free.2).convs = s.convs := rfl
@[simp] theorem State.free_spaces : (s.free.2).spaces = s.spaces := rfl
@[simp] theorem State.free_tlb : (s.free.2).tlb = s.tlb := rfl
@[simp] theorem State.free_settled : (s.free.2).settled = s.settled := rfl
@[simp] theorem State.free_faultq : (s.free.2).faultq = s.faultq := rfl
@[simp] theorem State.free_faultProd : (s.free.2).faultProd = s.faultProd := rfl
@[simp] theorem State.free_faults : (s.free.2).faults = s.faults := rfl
@[simp] theorem State.free_queues : (s.free.2).queues = s.queues := rfl
@[simp] theorem State.free_bias : (s.free.2).bias = s.bias := rfl
@[simp] theorem State.free_mgmt : (s.free.2).mgmt = s.mgmt := rfl
@[simp] theorem State.free_images : (s.free.2).images = s.images := rfl
@[simp] theorem State.free_bents : (s.free.2).bents = s.bents := rfl
@[simp] theorem State.free_triggers : (s.free.2).triggers = s.triggers := rfl
@[simp] theorem State.free_core (x : Nat) : (s.free.2).core x = s.core x := rfl
@[simp] theorem State.free_die (x : Nat) : (s.free.2).die x = s.die x := rfl
@[simp] theorem State.free_line (x : Nat) : (s.free.2).line x = s.line x := rfl
@[simp] theorem State.free_byte (x : Nat) : (s.free.2).byte x = s.byte x := rfl

/-! ### freeBool -/

@[simp] theorem State.freeBool_agenda : (s.freeBool.2).agenda = s.agenda := rfl
@[simp] theorem State.freeBool_cur : (s.freeBool.2).cur = s.cur := rfl
@[simp] theorem State.freeBool_freeCtr : (s.freeBool.2).freeCtr = s.freeCtr + 1 := rfl
@[simp] theorem State.freeBool_nextId : (s.freeBool.2).nextId = s.nextId := rfl
@[simp] theorem State.freeBool_clk : (s.freeBool.2).clk = s.clk := rfl
@[simp] theorem State.freeBool_mem : (s.freeBool.2).mem = s.mem := rfl
@[simp] theorem State.freeBool_past : (s.freeBool.2).past = s.past := rfl
@[simp] theorem State.freeBool_dies : (s.freeBool.2).dies = s.dies := rfl
@[simp] theorem State.freeBool_cores : (s.freeBool.2).cores = s.cores := rfl
@[simp] theorem State.freeBool_groups : (s.freeBool.2).groups = s.groups := rfl
@[simp] theorem State.freeBool_blocks : (s.freeBool.2).blocks = s.blocks := rfl
@[simp] theorem State.freeBool_launches : (s.freeBool.2).launches = s.launches := rfl
@[simp] theorem State.freeBool_reports : (s.freeBool.2).reports = s.reports := rfl
@[simp] theorem State.freeBool_classes : (s.freeBool.2).classes = s.classes := rfl
@[simp] theorem State.freeBool_reserves : (s.freeBool.2).reserves = s.reserves := rfl
@[simp] theorem State.freeBool_nextGang : (s.freeBool.2).nextGang = s.nextGang := rfl
@[simp] theorem State.freeBool_lines : (s.freeBool.2).lines = s.lines := rfl
@[simp] theorem State.freeBool_proxies : (s.freeBool.2).proxies = s.proxies := rfl
@[simp] theorem State.freeBool_hostHalves : (s.freeBool.2).hostHalves = s.hostHalves := rfl
@[simp] theorem State.freeBool_msgs : (s.freeBool.2).msgs = s.msgs := rfl
@[simp] theorem State.freeBool_accs : (s.freeBool.2).accs = s.accs := rfl
@[simp] theorem State.freeBool_toks : (s.freeBool.2).toks = s.toks := rfl
@[simp] theorem State.freeBool_obs : (s.freeBool.2).obs = s.obs := rfl
@[simp] theorem State.freeBool_seen : (s.freeBool.2).seen = s.seen := rfl
@[simp] theorem State.freeBool_fenced : (s.freeBool.2).fenced = s.fenced := rfl
@[simp] theorem State.freeBool_carry : (s.freeBool.2).carry = s.carry := rfl
@[simp] theorem State.freeBool_cmps : (s.freeBool.2).cmps = s.cmps := rfl
@[simp] theorem State.freeBool_snaps : (s.freeBool.2).snaps = s.snaps := rfl
@[simp] theorem State.freeBool_cmds : (s.freeBool.2).cmds = s.cmds := rfl
@[simp] theorem State.freeBool_ranges : (s.freeBool.2).ranges = s.ranges := rfl
@[simp] theorem State.freeBool_colls : (s.freeBool.2).colls = s.colls := rfl
@[simp] theorem State.freeBool_tasks : (s.freeBool.2).tasks = s.tasks := rfl
@[simp] theorem State.freeBool_round : (s.freeBool.2).round = s.round := rfl
@[simp] theorem State.freeBool_roundG : (s.freeBool.2).roundG = s.roundG := rfl
@[simp] theorem State.freeBool_roundTasks : (s.freeBool.2).roundTasks = s.roundTasks := rfl
@[simp] theorem State.freeBool_queue : (s.freeBool.2).queue = s.queue := rfl
@[simp] theorem State.freeBool_seqs : (s.freeBool.2).seqs = s.seqs := rfl
@[simp] theorem State.freeBool_pegs : (s.freeBool.2).pegs = s.pegs := rfl
@[simp] theorem State.freeBool_lockReqs : (s.freeBool.2).lockReqs = s.lockReqs := rfl
@[simp] theorem State.freeBool_broken : (s.freeBool.2).broken = s.broken := rfl
@[simp] theorem State.freeBool_spills : (s.freeBool.2).spills = s.spills := rfl
@[simp] theorem State.freeBool_claims : (s.freeBool.2).claims = s.claims := rfl
@[simp] theorem State.freeBool_convs : (s.freeBool.2).convs = s.convs := rfl
@[simp] theorem State.freeBool_spaces : (s.freeBool.2).spaces = s.spaces := rfl
@[simp] theorem State.freeBool_tlb : (s.freeBool.2).tlb = s.tlb := rfl
@[simp] theorem State.freeBool_settled : (s.freeBool.2).settled = s.settled := rfl
@[simp] theorem State.freeBool_faultq : (s.freeBool.2).faultq = s.faultq := rfl
@[simp] theorem State.freeBool_faultProd : (s.freeBool.2).faultProd = s.faultProd := rfl
@[simp] theorem State.freeBool_faults : (s.freeBool.2).faults = s.faults := rfl
@[simp] theorem State.freeBool_queues : (s.freeBool.2).queues = s.queues := rfl
@[simp] theorem State.freeBool_bias : (s.freeBool.2).bias = s.bias := rfl
@[simp] theorem State.freeBool_mgmt : (s.freeBool.2).mgmt = s.mgmt := rfl
@[simp] theorem State.freeBool_images : (s.freeBool.2).images = s.images := rfl
@[simp] theorem State.freeBool_bents : (s.freeBool.2).bents = s.bents := rfl
@[simp] theorem State.freeBool_triggers : (s.freeBool.2).triggers = s.triggers := rfl
@[simp] theorem State.freeBool_core (x : Nat) : (s.freeBool.2).core x = s.core x := rfl
@[simp] theorem State.freeBool_die (x : Nat) : (s.freeBool.2).die x = s.die x := rfl
@[simp] theorem State.freeBool_line (x : Nat) : (s.freeBool.2).line x = s.line x := rfl
@[simp] theorem State.freeBool_byte (x : Nat) : (s.freeBool.2).byte x = s.byte x := rfl

end Sys2Proof.Machine
end

