-- ==== Sys2Proof/Laws/Memory.lean ====
section
/-!
SUPPORT. Laws of memory: a byte read after a write, what a write leaves alone, and that every operation on memory keeps its
canonical form: writes, clearing a scratchpad, taking a bay, and the leaving and returning of a block.
-/
namespace Sys2Proof.Machine

/-! ### One byte -/

theorem byte_setByte (s : State) (a c : Nat) (b : Byte) : (s.setByte a b).byte c = if a = c then b else s.byte c :=
  Map.getD_putD s.mem Config.unwritten a c b

@[simp] theorem byte_setByte_self (s : State) (a : Nat) (b : Byte) : (s.setByte a b).byte a = b := by simp [byte_setByte]

theorem byte_setByte_ne (s : State) {a c : Nat} (b : Byte) (h : a ≠ c) : (s.setByte a b).byte c = s.byte c := by simp [byte_setByte, h]

/-- States with the same memory read the same bytes. -/
theorem byte_congr {s t : State} (h : t.mem = s.mem) (a : Nat) : t.byte a = s.byte a := by simp [State.byte, h]

/-! ### Writes (R4, R27) -/

/-- Whether an address lies in a window of registers (R27). -/
def isRegWindow (pa : Nat) : Bool := isWindow pa && (windowOf pa).space == 1

/-- A byte of memory after a write of one byte: a window of registers holds none. -/
theorem byte_writeByte (s : State) (a c : Nat) (b : Byte) :
    (writeByte s a b).byte c = if a = c ∧ isRegWindow a = false then b else s.byte c := by
  unfold writeByte isRegWindow
  by_cases h : (isWindow a && (windowOf a).space == 1) = true
  · simp only [h, if_true]
    split <;> simp
  · rw [if_neg h, byte_setByte]
    simp [Bool.eq_false_iff.mpr h]

theorem byte_writeBytes (s : State) (a c : Nat) (bs : List Byte) (h : c < a ∨ a + bs.length ≤ c) :
    (writeBytes s a bs).byte c = s.byte c := by
  induction bs generalizing s a with
  | nil => rfl
  | cons b t ih =>
    simp only [List.length_cons] at h
    rw [writeBytes, ih _ _ (by omega), byte_writeByte, if_neg (by omega)]

/-- A write leaves every byte of memory outside it alone. -/
theorem byte_writeNat (s : State) (a n x c : Nat) (h : c < a ∨ a + (leBytes n x).length ≤ c) : (writeNat s a n x).byte c = s.byte c :=
  byte_writeBytes s a c _ h

/-- A write changes memory and registers seen through windows, and nothing else. -/
theorem writeByte_other (s : State) (a : Nat) (b : Byte) :
    (writeByte s a b).dies = s.dies ∧ (writeByte s a b).accs = s.accs ∧ (writeByte s a b).blocks = s.blocks
      ∧ (writeByte s a b).cores = s.cores ∧ (writeByte s a b).lines = s.lines := by
  unfold writeByte
  split
  · dsimp only
    split <;> simp
  · simp

theorem writeBytes_other (s : State) (a : Nat) (bs : List Byte) :
    (writeBytes s a bs).dies = s.dies ∧ (writeBytes s a bs).accs = s.accs ∧ (writeBytes s a bs).blocks = s.blocks
      ∧ (writeBytes s a bs).cores = s.cores ∧ (writeBytes s a bs).lines = s.lines := by
  induction bs generalizing s a with
  | nil => exact ⟨rfl, rfl, rfl, rfl, rfl⟩
  | cons b t ih =>
    obtain ⟨h1, h2, h3, h4, h5⟩ := ih (writeByte s a b) (a + 1)
    obtain ⟨k1, k2, k3, k4, k5⟩ := writeByte_other s a b
    exact ⟨h1.trans k1, h2.trans k2, h3.trans k3, h4.trans k4, h5.trans k5⟩

@[simp] theorem writeBytes_dies (s : State) (a : Nat) (bs : List Byte) : (writeBytes s a bs).dies = s.dies := (writeBytes_other s a bs).1
@[simp] theorem writeNat_dies (s : State) (a n x : Nat) : (writeNat s a n x).dies = s.dies := (writeBytes_other s a _).1

/-! ### The canonical form -/

theorem wf_setByte (s : State) (a : Nat) (b : Byte) (h : Memory.wf s.mem = true) : Memory.wf (s.setByte a b).mem = true :=
  Map.canon_putD s.mem Config.unwritten a b h

theorem wf_writeByte (s : State) (a : Nat) (b : Byte) (h : Memory.wf s.mem = true) : Memory.wf (writeByte s a b).mem = true := by
  unfold writeByte
  split
  · dsimp only
    split <;> simpa using h
  · exact wf_setByte s a b h

theorem wf_writeBytes (s : State) (a : Nat) (bs : List Byte) (h : Memory.wf s.mem = true) : Memory.wf (writeBytes s a bs).mem = true := by
  induction bs generalizing s a with
  | nil => exact h
  | cons b t ih => exact ih _ _ (wf_writeByte s a b h)

theorem wf_writeNat (s : State) (a n x : Nat) (h : Memory.wf s.mem = true) : Memory.wf (writeNat s a n x).mem = true :=
  wf_writeBytes s a _ h

/-- Bytes that are dropped read as unwritten; the form stays. -/
theorem wf_filter (m : List Host.Cell) (p : Host.Cell → Bool) (h : Memory.wf m = true) : Memory.wf (m.filter p) = true :=
  Map.canon_filter (α := Byte) m Config.unwritten p h

theorem wf_clearPad (s : State) (core base n : Nat) (h : Memory.wf s.mem = true) : Memory.wf (clearPad s core base n).mem = true :=
  wf_filter s.mem _ h

theorem wf_outsideRegions (rs : List (Nat × Nat × Nat)) (m : List Host.Cell) (h : Memory.wf m = true) :
    Memory.wf (outsideRegions (α := Byte) rs m) = true := wf_filter m _ h

/-- Bytes that an image brings back. -/
theorem wf_fold (addr : Nat → Nat) (l : List (Nat × Byte)) (m : List Host.Cell) (h : Memory.wf m = true) :
    Memory.wf (l.foldl (fun (m : Map Byte) (p : Nat × Byte) => Map.putD m Config.unwritten (addr p.1) p.2) m) = true := by
  induction l generalizing m with
  | nil => exact h
  | cons p t ih => exact ih _ (Map.canon_putD (α := Byte) m Config.unwritten (addr p.1) p.2 h)

theorem wf_reset : Memory.wf State.reset.mem = true := rfl

/-! ### Repeated steps -/

/-- A property that every step of a repetition keeps. -/
theorem forAll_keeps {α : Type} (P : State → Prop) (l : List α) (s : State) (f : α → State → State) (h : P s)
    (hf : ∀ x t, P t → P (f x t)) : P (forAll l s f) := by
  unfold forAll
  induction l generalizing s with
  | nil => exact h
  | cons x t ih => exact ih _ (hf x s h)

theorem wf_ownBays (s : State) (core blk : Nat) (bays : List Nat) (h : Memory.wf s.mem = true) :
    Memory.wf (ownBays s core blk bays).mem = true := by
  unfold ownBays
  refine forAll_keeps (fun t => Memory.wf t.mem = true) bays s _ h (fun b t ht => ?_)
  dsimp only
  split
  · exact ht
  · exact wf_filter t.mem _ ht

end Sys2Proof.Machine
end

