-- ==== Sys2Proof/Laws/Registers.lean ====
section
/-!
SUPPORT. Laws of registers: what a vector, scalar or mask register reads after a write, and what a write leaves alone.
-/
namespace Sys2Proof.Machine

/-! ### Lanes -/

theorem mem_allLanes (l : Nat) : l ∈ allLanes ↔ l < 32 := by simp [allLanes]

theorem mem_lanesOf (m : LaneMask) (l : Nat) : l ∈ lanesOf m ↔ l < 32 ∧ m.getLsbD l = true := by
  simp [lanesOf, mem_allLanes]

theorem nodup_lanesOf (m : LaneMask) : (lanesOf m).Nodup := (List.nodup_range).filter _

/-! ### One lane of a vector register -/

/-- Register q of lane l after `n` registers from r on are written in another place. -/
theorem putVregs_ne (v : Map Word) (r lane n x k : Nat) (h : ∀ i, i < n → (r + i) * 32 + lane ≠ k) :
    Map.getD (putVregs v r lane n x) k 0 = Map.getD v k 0 := by
  induction n generalizing v r x with
  | zero => rfl
  | succ n ih =>
    rw [putVregs, ih _ _ _ (fun i hi => by have := h (i + 1) (by omega); rwa [show r + 1 + i = r + (i + 1) by omega])]
    exact Map.getD_putD_ne v 0 _ (by simpa using h 0 (by omega))

/-- The registers just written read as the number written. -/
theorem vregs_putVregs (g : Group) (r lane n x : Nat) :
    ({ g with v := putVregs g.v r lane n x } : Group).vregs r lane n = x % 2 ^ (32 * n) := by
  suffices h : ∀ (v : Map Word) (r x : Nat), ({ g with v := putVregs v r lane n x } : Group).vregs r lane n = x % 2 ^ (32 * n) from h g.v r x
  induction n with
  | zero => intro v r x; simp [Group.vregs, Nat.mod_one]
  | succ n ih =>
    intro v r x
    rw [Group.vregs, putVregs, ih]
    have h : Group.vreg { g with v := putVregs (Map.putD v 0 (r * 32 + lane) (BitVec.ofNat 32 x)) (r + 1) lane n (x / 2 ^ 32) } r lane
        = BitVec.ofNat 32 x := by
      unfold Group.vreg
      rw [putVregs_ne _ _ _ _ _ _ (fun i _ => by omega), Map.getD_putD_self]
    rw [h, BitVec.toNat_ofNat, show 32 * (n + 1) = 32 + 32 * n by omega, Nat.pow_add, Nat.mod_mul]

theorem vregs_congr (g h : Group) (r lane n : Nat) (e : ∀ i, i < n → g.vreg (r + i) lane = h.vreg (r + i) lane) :
    g.vregs r lane n = h.vregs r lane n := by
  induction n generalizing r with
  | zero => rfl
  | succ n ih =>
    rw [Group.vregs, Group.vregs, ih (r + 1) (fun i hi => by have := e (i + 1) (by omega); rwa [show r + (i + 1) = r + 1 + i by omega] at this)]
    rw [show g.vreg r lane = h.vreg r lane by simpa using e 0 (by omega)]

/-- Groups with the same vector registers read alike. -/
theorem vregs_v_congr (g h : Group) (e : g.v = h.v) (r lane n : Nat) : g.vregs r lane n = h.vregs r lane n :=
  vregs_congr g h r lane n (fun _ _ => by simp [Group.vreg, e])

/-! ### A vector destination -/

theorem foldl_putVregs_ne (v : Map Word) (ls : List Nat) (r n k : Nat) (f : Nat → Nat) (h : ∀ l ∈ ls, ∀ i, i < n → (r + i) * 32 + l ≠ k) :
    Map.getD (ls.foldl (fun v l => putVregs v r l n (f l)) v) k 0 = Map.getD v k 0 := by
  induction ls generalizing v with
  | nil => rfl
  | cons l t ih =>
    rw [List.foldl_cons, ih _ (fun x hx => h x (by simp [hx])), putVregs_ne _ _ _ _ _ _ (h l (by simp))]

/-- A lane of a destination reads what was written there. -/
theorem vregs_written (g : Group) (ls : List Nat) (r n : Nat) (f : Nat → Nat) (lane : Nat) (hd : ls.Nodup) (hl : ∀ l ∈ ls, l < 32)
    (hm : lane ∈ ls) :
    ({ g with v := ls.foldl (fun v l => putVregs v r l n (f l)) g.v } : Group).vregs r lane n = f lane % 2 ^ (32 * n) := by
  suffices h : ∀ v : Map Word, ({ g with v := ls.foldl (fun v l => putVregs v r l n (f l)) v } : Group).vregs r lane n
      = f lane % 2 ^ (32 * n) from h g.v
  induction ls with
  | nil => simp at hm
  | cons l t ih =>
    intro v
    rw [List.foldl_cons]
    by_cases he : l = lane
    · subst he
      have hn := (List.nodup_cons.mp hd).1
      rw [vregs_congr _ { g with v := putVregs v r l n (f l) } r l n (fun i _ => by
        unfold Group.vreg
        exact foldl_putVregs_ne _ _ _ _ _ _ (fun x hx j _ => by
          have := hl x (by simp [hx]); have := hl l (by simp)
          intro e
          have : x = l := by omega
          exact hn (this ▸ hx)))]
      exact vregs_putVregs { g with v := v } r l n (f l)
    · exact ih (List.nodup_cons.mp hd).2 (fun x hx => hl x (by simp [hx])) (by simpa [Ne.symm he] using hm) _

/-- The group of the executing instruction after its vector destination is written, as R59 says. -/
theorem setDstLanes_group (s : State) (c : Ctx) (r n : Nat) (f : Nat → Nat) :
    (setDstLanes s c r n f).groups.get? c.gid
      = (s.groups.get? c.gid).map (fun g => { g with v := (lanesOf c.act).foldl (fun v l => putVregs v r l n (f l)) g.v }) := by
  simp [setDstLanes]

theorem setDstLanes_reads (s : State) (c : Ctx) (g : Group) (r n : Nat) (f : Nat → Nat) (hg : s.groups.get? c.gid = some g) (l : Nat)
    (hl : l ∈ lanesOf c.act) : vregsIn (setDstLanes s c r n f) c.gid r l n = some (f l % 2 ^ (32 * n)) := by
  rw [vregsIn, setDstLanes_group, hg]
  simp only [Option.map_some]
  rw [vregs_written g (lanesOf c.act) r n f l (nodup_lanesOf _) (fun x hx => ((mem_lanesOf _ _).mp hx).1) hl]

/-- A lane that does not act, and a register that the destination does not name, read as before. -/
theorem setDstLanes_keeps (s : State) (c : Ctx) (g : Group) (r n : Nat) (f : Nat → Nat) (hg : s.groups.get? c.gid = some g) (q l : Nat)
    (hl : l < 32) (h : l ∉ lanesOf c.act ∨ q < r ∨ r + n ≤ q) :
    ((setDstLanes s c r n f).groups.get? c.gid).map (fun h => h.vreg q l) = some (g.vreg q l) := by
  rw [setDstLanes_group, hg]
  simp only [Option.map_some, Option.some.injEq]
  unfold Group.vreg
  refine foldl_putVregs_ne _ _ _ _ _ _ (fun x hx i hi e => ?_)
  have hx' := ((mem_lanesOf _ _).mp hx).1
  have : x = l := by omega
  have : q = r + i := by omega
  rcases h with h | h | h
  · exact h (by rwa [← ‹x = l›])
  · omega
  · omega

theorem setDstLanes_other (s : State) (c : Ctx) (r n : Nat) (f : Nat → Nat) (k : Nat) (h : k ≠ c.gid) :
    (setDstLanes s c r n f).groups.get? k = s.groups.get? k := by
  simp only [setDstLanes, State.setGroup_groups]
  exact Map.get?_modify_ne _ _ (Ne.symm h)

@[simp] theorem setDstLanes_mem (s : State) (c : Ctx) (r n : Nat) (f : Nat → Nat) : (setDstLanes s c r n f).mem = s.mem := rfl

/-! ### Scalar registers -/

theorem setSreg_reads (s : State) (gid r x : Nat) (g : Group) (hg : s.groups.get? gid = some g) :
    sregIn (setSreg s gid r x) gid r = some (BitVec.ofNat 64 x) := by
  simp [sregIn, setSreg, hg, Group.sreg]

theorem setSreg_keeps (s : State) (gid r x q : Nat) (h : q ≠ r) : sregIn (setSreg s gid r x) gid q = sregIn s gid q := by
  simp only [sregIn, setSreg, State.setGroup_groups, Map.get?_modify_self, Option.map_map]
  cases s.groups.get? gid with
  | none => rfl
  | some g => simp [Group.sreg, Map.getD_putD_ne _ _ _ (Ne.symm h)]

@[simp] theorem setSreg_mem (s : State) (gid r x : Nat) : (setSreg s gid r x).mem = s.mem := rfl

@[simp] theorem setDstScalar_sz (s : State) (gid x : Nat) : setDstScalar s gid .sz x = s := rfl

/-! ### Masks (R44) -/

@[simp] theorem mask_seven (g : Group) : g.mask 7 = BitVec.allOnes 32 := rfl

@[simp] theorem setMask_seven (s : State) (gid : Nat) (m new : LaneMask) : setMask s gid 7 m new = s := rfl

theorem setMask_reads (s : State) (gid n : Nat) (m new : LaneMask) (g : Group) (hg : s.groups.get? gid = some g) (hn : n ≠ 7) :
    maskIn (setMask s gid n m new) gid n = some (mergeLanes m (g.mask n) new) := by
  simp [maskIn, setMask, hg, Group.mask, hn]

theorem setMask_keeps (s : State) (gid n k : Nat) (m new : LaneMask) (h : k ≠ n) :
    maskIn (setMask s gid n m new) gid k = maskIn s gid k := by
  unfold setMask
  split
  · rfl
  · simp only [maskIn, State.setGroup_groups, Map.get?_modify_self, Option.map_map]
    cases s.groups.get? gid with
    | none => rfl
    | some g => simp [Group.mask, Map.getD_putD_ne _ _ _ (Ne.symm h)]

end Sys2Proof.Machine
end

