-- ==== Sys2Proof/Laws/Issue.lean ====
section
/-!
SUPPORT. What issuing an instruction can do. A ready instruction's own effect is what happens, and then its completion;
`advance` and `finishIssue` change program counters, counts and results in flight only.
-/
namespace Sys2Proof.Machine

/-! ### Readiness -/

/-- The context is that of the current group, its split, its block and its launch. -/
theorem ctxOf_some {h : Hdr} {s : State} {c : Ctx} (e : ctxOf h s = some c) :
    s.groups.get? c.gid = some c.g ∧ c.g.splits.get? c.si = some c.sp ∧ s.blocks.get? c.g.blk = some c.blk
      ∧ s.launches.get? c.blk.launch = some c.launch ∧ s.cur = (c.gid, c.si) ∧ c.pc = c.sp.pc ∧ c.em = c.sp.em
      ∧ c.act = guardLanes c.g h c.em := by
  unfold ctxOf at e
  split at e
  · cases e
  · rename_i g hg
    split at e
    · rename_i sp b hsp hb
      split at e
      · rename_i l hl
        cases e
        exact ⟨hg, hsp, hb, hl, rfl, rfl, rfl, rfl⟩
      · cases e
    · cases e

theorem readyCtx_some {i : Instr} {s : State} {c : Ctx} (e : readyCtx i s = some c) : ctxOf (hdrOf i) s = some c ∧ ready i s c = true := by
  simpa [readyCtx, Option.filter_eq_some_iff] using e

/-- What readiness says, clause by clause. -/
theorem ready_parts {i : Instr} {s : State} {c : Ctx} (h : ready i s c = true) :
    running c = true ∧ c.g.npeOver = none ∧ c.g.fails = [] ∧ canIssue s c i = true ∧ boundFault c.g i = none
      ∧ earlyRefs s c.g c.sp i = [] ∧ (c.act ≠ 0 ∨ actsAlways i = true) ∧ primaryFault s c = none
      ∧ (shoreDests (sampleSpecials s c) c.blk.levels.length c.gid (shoredAtIssue c i)).2 = none := by
  simp only [ready, Bool.and_eq_true, Option.isNone_iff_eq_none, List.isEmpty_iff, Bool.or_eq_true, bne_iff_ne, ne_eq] at h
  obtain ⟨⟨⟨⟨⟨⟨⟨⟨a, b⟩, c⟩, d⟩, e⟩, f⟩, g⟩, k⟩, l⟩ := h
  exact ⟨a, b, c, d, e, f, g, k, l⟩

/-! ### Shoring and sampling leave the rest alone -/

/-- An entry that leaves for the spill area changes the list of those on their way only (R319). -/
theorem spillOut_eq (s : State) (blk n : Nat) (b : Bool) : ∃ O, spillOut s blk n b = { s with spills := O } := by
  unfold spillOut
  split
  · split
    · exact ⟨_, rfl⟩
    · exact ⟨_, rfl⟩
  · exact ⟨_, rfl⟩

/-- Shoring changes recovery data only: every block keeps its launch (R317). -/
theorem shoreReg_some {s t : State} {d gid r : Nat} (e : shoreReg s d gid r = some t) :
    ∃ B O, t = { s with blocks := B, spills := O } ∧ ∀ k, (Map.get? B k).map (·.launch) = (s.blocks.get? k).map (·.launch) := by
  have same : ∃ B O, s = { s with blocks := B, spills := O } ∧ ∀ k, (Map.get? B k).map (·.launch) = (s.blocks.get? k).map (·.launch) :=
    ⟨s.blocks, s.spills, rfl, fun _ => rfl⟩
  unfold shoreReg at e
  split at e
  · cases e; exact same
  · split at e
    · cases e; exact same
    · split at e
      · cases e; exact same
      · split at e
        · cases e
        · rename_i sp _
          obtain ⟨O, hO⟩ := spillOut_eq s (Group.blk ‹Group›) 136 sp
          rw [hO] at e
          cases e
          refine ⟨_, O, rfl, fun k => ?_⟩
          rw [Map.get?_modify]
          split
          · cases s.blocks.get? k <;> rfl
          · rfl

theorem shoreDests_fst (s : State) (d gid : Nat) (rs : List RegRef) :
    ∃ B O, (shoreDests s d gid rs).1 = { s with blocks := B, spills := O }
      ∧ ∀ k, (Map.get? B k).map (·.launch) = (s.blocks.get? k).map (·.launch) := by
  induction rs generalizing s with
  | nil => exact ⟨s.blocks, s.spills, rfl, fun _ => rfl⟩
  | cons r t ih =>
    cases r with
    | v n =>
      rw [shoreDests]
      split
      · rename_i u hu
        obtain ⟨B, O, rfl, hB⟩ := shoreReg_some hu
        obtain ⟨C, P, hC, hD⟩ := ih { s with blocks := B, spills := O }
        exact ⟨C, P, hC, fun k => (hD k).trans (hB k)⟩
      · exact ⟨s.blocks, s.spills, rfl, fun _ => rfl⟩
    | s n => exact ih s
    | cm n => exact ih s

/-- Sampling changes the shadow's samples only (R332). -/
theorem sampleSpecials_get (s : State) (c : Ctx) (k : Nat) :
    ((sampleSpecials s c).groups.get? k).map (fun g => (g.v, g.s, g.cm, g.faultWait, g.issued, g.blk))
      = (s.groups.get? k).map (fun g => (g.v, g.s, g.cm, g.faultWait, g.issued, g.blk)) := by
  unfold sampleSpecials
  split
  · simp only [State.setGroup_groups, Map.get?_modify]
    split
    · cases s.groups.get? k <;> rfl
    · rfl
  · rfl

theorem sampleSpecials_self (s : State) (c : Ctx) : (sampleSpecials s c).groups.get? c.gid = s.groups.get? c.gid := by
  unfold sampleSpecials
  split
  · simp only [State.setGroup_groups]
    exact Map.get?_modify_ne _ _ (by omega)
  · rfl

@[simp] theorem sampleSpecials_blocks (s : State) (c : Ctx) : (sampleSpecials s c).blocks = s.blocks := by
  unfold sampleSpecials; split <;> rfl
@[simp] theorem sampleSpecials_launches (s : State) (c : Ctx) : (sampleSpecials s c).launches = s.launches := by
  unfold sampleSpecials; split <;> rfl
@[simp] theorem sampleSpecials_mem (s : State) (c : Ctx) : (sampleSpecials s c).mem = s.mem := by
  unfold sampleSpecials; split <;> rfl
@[simp] theorem sampleSpecials_dies (s : State) (c : Ctx) : (sampleSpecials s c).dies = s.dies := by
  unfold sampleSpecials; split <;> rfl

/-- Whether a launch is checked depends on the launches of blocks only. -/
theorem isChecked_congr {s t : State} (hb : ∀ k, (t.blocks.get? k).map (·.launch) = (s.blocks.get? k).map (·.launch))
    (hl : t.launches = s.launches) (g : Group) : isChecked t g = isChecked s g := by
  unfold isChecked State.groupLaunch State.blockOf State.launchOf
  have h := hb g.blk
  rw [hl]
  cases ht : t.blocks.get? g.blk <;> cases hs : s.blocks.get? g.blk <;> rw [ht, hs] at h <;> simp at h
  simp [h]

/-- What an instruction finds as its own effect begins: the state, but for samples and recovery data. -/
theorem entered_parts (i : Instr) (s : State) (c : Ctx) :
    ∃ B O, entered i s c = { sampleSpecials s c with blocks := B, spills := O }
      ∧ ∀ k, (Map.get? B k).map (·.launch) = (s.blocks.get? k).map (·.launch) := by
  obtain ⟨B, O, hB, hk⟩ := shoreDests_fst (sampleSpecials s c) c.blk.levels.length c.gid (shoredAtIssue c i)
  exact ⟨B, O, hB, fun k => (hk k).trans (by simp)⟩

@[simp] theorem entered_mem (i : Instr) (s : State) (c : Ctx) : (entered i s c).mem = s.mem := by
  obtain ⟨B, O, h, -⟩ := entered_parts i s c
  simp [h]

@[simp] theorem entered_dies (i : Instr) (s : State) (c : Ctx) : (entered i s c).dies = s.dies := by
  obtain ⟨B, O, h, -⟩ := entered_parts i s c
  simp [h]

@[simp] theorem entered_self (i : Instr) (s : State) (c : Ctx) : (entered i s c).groups.get? c.gid = s.groups.get? c.gid := by
  obtain ⟨B, O, h, -⟩ := entered_parts i s c
  rw [h]
  exact sampleSpecials_self s c

/-- The shadow's duty is met in the state that the effect finds as it was before (R284). -/
theorem primaryFault_entered (i : Instr) (s : State) (c : Ctx) : primaryFault (entered i s c) c = primaryFault s c := by
  obtain ⟨B, O, h, hB⟩ := entered_parts i s c
  have hl : (entered i s c).launches = s.launches := by rw [h]; simp
  have hc : isChecked (entered i s c) c.g = isChecked s c.g := isChecked_congr (by rw [h]; exact hB) hl c.g
  have hg := sampleSpecials_get s c (c.gid - 32)
  have hg' : (entered i s c).groups.get? (c.gid - 32) = (sampleSpecials s c).groups.get? (c.gid - 32) := by rw [h]
  unfold primaryFault isShadow
  rw [hc, hg']
  split
  · cases h1 : (sampleSpecials s c).groups.get? (c.gid - 32) <;> cases h2 : s.groups.get? (c.gid - 32) <;> rw [h1, h2] at hg <;> simp at hg
    obtain ⟨-, -, -, hw, hi, -⟩ := hg
    simp [hw, hi]
  · rfl

/-! ### A ready instruction -/

/-- A ready instruction does what its own effect says, and then completes (R78). -/
theorem runInstr_ready {i : Instr} {s : State} {c : Ctx} (e : readyCtx i s = some c) (body : Ctx → State → Res) :
    runInstr i (actsAlways i) body s = settle (entered i s c) c i [] (body c (entered i s c)) := by
  obtain ⟨hc, hr⟩ := readyCtx_some e
  obtain ⟨h1, h2, h3, h4, h5, h6, h7, h8, h9⟩ := ready_parts hr
  unfold runInstr
  simp only [hc, h1, Bool.not_true, Bool.false_eq_true, if_false, beforeNext, h2, h3, h4, h5, h6]
  have hact : ¬(c.act = 0 ∧ (!actsAlways i) = true) := by
    rintro ⟨ha, hb⟩
    rcases h7 with h7 | h7
    · exact h7 ha
    · simp [h7] at hb
  have hg : { c with act := guardLanes c.g (hdrOf i) c.em } = c := by rw [← (ctxOf_some hc).2.2.2.2.2.2.2]
  simp only [List.head?_nil, ite_self, earlyRead, List.map_nil]
  have ha : guardLanes c.g (hdrOf i) c.em = c.act := (ctxOf_some hc).2.2.2.2.2.2.2.symm
  simp only [hg]
  rw [if_neg (by rw [ha]; exact hact)]
  rcases hs : shoreDests (sampleSpecials s c) c.blk.levels.length c.gid (shoredAtIssue c i) with ⟨t, o⟩
  rw [hs] at h9
  simp only at h9
  subst h9
  simp [entered, hs]

theorem settle_done {i : Instr} {s : State} {c : Ctx} (h : primaryFault s c = none) (t : State) :
    settle s c i [] (.done t) = finishIssue (advance t c (lengthOf i)) c i [] := by
  simp [settle, complete, h]

theorem settle_jump {i : Instr} {s : State} {c : Ctx} (h : primaryFault s c = none) (t : State) :
    settle s c i [] (.jump t) = finishIssue t c i [] := by
  simp [settle, complete, h]

/-- A ready instruction whose effect completes. -/
theorem runInstr_done {i : Instr} {s : State} {c : Ctx} (e : readyCtx i s = some c) {body : Ctx → State → Res} {t : State}
    (hb : body c (entered i s c) = .done t) : runInstr i (actsAlways i) body s = finishIssue (advance t c (lengthOf i)) c i [] := by
  obtain ⟨-, -, -, -, -, -, -, h8, -⟩ := ready_parts (readyCtx_some e).2
  rw [runInstr_ready e, hb, settle_done (by rw [primaryFault_entered, h8])]

/-- A ready instruction whose effect sets the program counters itself. -/
theorem runInstr_jump {i : Instr} {s : State} {c : Ctx} (e : readyCtx i s = some c) {body : Ctx → State → Res} {t : State}
    (hb : body c (entered i s c) = .jump t) : runInstr i (actsAlways i) body s = finishIssue t c i [] := by
  obtain ⟨-, -, -, -, -, -, -, h8, -⟩ := ready_parts (readyCtx_some e).2
  rw [runInstr_ready e, hb, settle_jump (by rw [primaryFault_entered, h8])]

/-- A ready instruction whose effect is a fault takes it. -/
theorem runInstr_fault {i : Instr} {s : State} {c : Ctx} (e : readyCtx i s = some c) {body : Ctx → State → Res} {k : Cause} {v : Dword}
    {l : LaneMask} (hb : body c (entered i s c) = .fault k v l) : runInstr i (actsAlways i) body s = takeFault (entered i s c) c k v l := by
  rw [runInstr_ready e, hb]; rfl

/-! ### What completion changes -/

/-- Keeping a primary's state changes the copies kept only (R333). -/
theorem keepSnap_eq (s : State) (c : Ctx) : ∃ K, keepSnap s c = { s with snaps := K } := by
  unfold keepSnap
  split
  · exact ⟨_, rfl⟩
  · split
    · exact ⟨_, rfl⟩
    · exact ⟨s.snaps, rfl⟩

@[simp] theorem keepSnap_groups (s : State) (c : Ctx) : (keepSnap s c).groups = s.groups := by
  obtain ⟨K, h⟩ := keepSnap_eq s c
  rw [h]
@[simp] theorem keepSnap_mem (s : State) (c : Ctx) : (keepSnap s c).mem = s.mem := by
  obtain ⟨K, h⟩ := keepSnap_eq s c
  rw [h]
@[simp] theorem keepSnap_dies (s : State) (c : Ctx) : (keepSnap s c).dies = s.dies := by
  obtain ⟨K, h⟩ := keepSnap_eq s c
  rw [h]
@[simp] theorem keepSnap_blocks (s : State) (c : Ctx) : (keepSnap s c).blocks = s.blocks := by
  obtain ⟨K, h⟩ := keepSnap_eq s c
  rw [h]
@[simp] theorem keepSnap_accs (s : State) (c : Ctx) : (keepSnap s c).accs = s.accs := by
  obtain ⟨K, h⟩ := keepSnap_eq s c
  rw [h]
@[simp] theorem keepSnap_toks (s : State) (c : Ctx) : (keepSnap s c).toks = s.toks := by
  obtain ⟨K, h⟩ := keepSnap_eq s c
  rw [h]
@[simp] theorem keepSnap_cmds (s : State) (c : Ctx) : (keepSnap s c).cmds = s.cmds := by
  obtain ⟨K, h⟩ := keepSnap_eq s c
  rw [h]
@[simp] theorem keepSnap_tasks (s : State) (c : Ctx) : (keepSnap s c).tasks = s.tasks := by
  obtain ⟨K, h⟩ := keepSnap_eq s c
  rw [h]

/-- Going on and completing change of each group only its splits' counters, its counts and its results in flight. -/
theorem finish_get (t : State) (c : Ctx) (i : Instr) (k : Nat) :
    ((finishIssue t c i []).groups.get? k).map (fun g => { g with issued := 0, issueLog := [], lastSplit := none, splits := [], inflight := [], flagsAt := 0 })
      = (t.groups.get? k).map (fun g => { g with issued := 0, issueLog := [], lastSplit := none, splits := [], inflight := [], flagsAt := 0 }) := by
  simp only [finishIssue, keepSnap_groups, earlyWrite, countIssue, noteInflight, State.setGroup_groups, State.setCore_groups, Map.get?_modify]
  split
  · cases t.groups.get? k <;> rfl
  · rfl

theorem advance_get (t : State) (c : Ctx) (n k : Nat) :
    ((advance t c n).groups.get? k).map (fun g => { g with splits := [] }) = (t.groups.get? k).map (fun g => { g with splits := [] }) := by
  simp only [advance, State.setGroup_groups, Map.get?_modify]
  split
  · cases t.groups.get? k <;> rfl
  · rfl

@[simp] theorem finishIssue_mem (t : State) (c : Ctx) (i : Instr) : (finishIssue t c i []).mem = t.mem := by
  simp [finishIssue, earlyWrite, countIssue, noteInflight]
@[simp] theorem finishIssue_dies (t : State) (c : Ctx) (i : Instr) : (finishIssue t c i []).dies = t.dies := by
  simp [finishIssue, earlyWrite, countIssue, noteInflight]
@[simp] theorem finishIssue_blocks (t : State) (c : Ctx) (i : Instr) : (finishIssue t c i []).blocks = t.blocks := by
  simp [finishIssue, earlyWrite, countIssue, noteInflight]
@[simp] theorem finishIssue_accs (t : State) (c : Ctx) (i : Instr) : (finishIssue t c i []).accs = t.accs := by
  simp [finishIssue, earlyWrite, countIssue, noteInflight]
@[simp] theorem finishIssue_toks (t : State) (c : Ctx) (i : Instr) : (finishIssue t c i []).toks = t.toks := by
  simp [finishIssue, earlyWrite, countIssue, noteInflight]
@[simp] theorem finishIssue_cmds (t : State) (c : Ctx) (i : Instr) : (finishIssue t c i []).cmds = t.cmds := by
  simp [finishIssue, earlyWrite, countIssue, noteInflight]
@[simp] theorem finishIssue_tasks (t : State) (c : Ctx) (i : Instr) : (finishIssue t c i []).tasks = t.tasks := by
  simp [finishIssue, earlyWrite, countIssue, noteInflight]
@[simp] theorem advance_mem (t : State) (c : Ctx) (n : Nat) : (advance t c n).mem = t.mem := rfl
@[simp] theorem advance_dies (t : State) (c : Ctx) (n : Nat) : (advance t c n).dies = t.dies := rfl
@[simp] theorem advance_blocks (t : State) (c : Ctx) (n : Nat) : (advance t c n).blocks = t.blocks := rfl
@[simp] theorem advance_accs (t : State) (c : Ctx) (n : Nat) : (advance t c n).accs = t.accs := rfl
@[simp] theorem advance_toks (t : State) (c : Ctx) (n : Nat) : (advance t c n).toks = t.toks := rfl
@[simp] theorem advance_cmds (t : State) (c : Ctx) (n : Nat) : (advance t c n).cmds = t.cmds := rfl
@[simp] theorem advance_tasks (t : State) (c : Ctx) (n : Nat) : (advance t c n).tasks = t.tasks := rfl

/-- A field that going on and completing leave alone, read off a group. -/
theorem done_get {β : Type} (t : State) (c : Ctx) (i : Instr) (n k : Nat) (p : Group → β)
    (hp : ∀ g, p g = p { g with issued := 0, issueLog := [], lastSplit := none, splits := [], inflight := [], flagsAt := 0 }) :
    ((finishIssue (advance t c n) c i []).groups.get? k).map p = (t.groups.get? k).map p := by
  have h1 := finish_get (advance t c n) c i k
  have h2 := advance_get t c n k
  cases ha : (finishIssue (advance t c n) c i []).groups.get? k <;> cases hb : (advance t c n).groups.get? k <;>
    cases hd : t.groups.get? k <;> rw [ha, hb] at h1 <;> rw [hb, hd] at h2 <;> simp only [Option.map_none, Option.map_some, reduceCtorEq,
      Option.some.injEq] at h1 h2 ⊢
  rename_i x y z
  rw [hp x, h1, hp z]
  exact congrArg (fun g : Group => p { g with issued := 0, issueLog := [], lastSplit := none, inflight := [], flagsAt := 0 }) h2

theorem done_vregs (t : State) (c : Ctx) (i : Instr) (m gid r lane n : Nat) :
    vregsIn (finishIssue (advance t c m) c i []) gid r lane n = vregsIn t gid r lane n :=
  done_get t c i m gid _ (fun g => vregs_v_congr g { g with issued := 0, issueLog := [], lastSplit := none, splits := [], inflight := [], flagsAt := 0 } rfl r lane n)

theorem done_sreg (t : State) (c : Ctx) (i : Instr) (m gid r : Nat) : sregIn (finishIssue (advance t c m) c i []) gid r = sregIn t gid r :=
  done_get t c i m gid _ (fun _ => rfl)

theorem done_mask (t : State) (c : Ctx) (i : Instr) (m gid n : Nat) : maskIn (finishIssue (advance t c m) c i []) gid n = maskIn t gid n :=
  done_get t c i m gid _ (fun _ => rfl)

theorem done_fflags (t : State) (c : Ctx) (i : Instr) (m gid : Nat) : fflagsIn (finishIssue (advance t c m) c i []) gid = fflagsIn t gid :=
  done_get t c i m gid _ (fun _ => rfl)

/-- What a split shows of its lanes and its place. -/
def shown (q : Split) : Nat × CodeAddr × LaneMask × LaneMask := (q.uid, q.pc, q.em, q.members)

theorem shown_ite {P : Prop} [Decidable P] {a b : Split} (h : shown a = shown b) : shown (if P then a else b) = shown b := by
  split
  · exact h
  · rfl

/-- A change of every split, whatever its index. -/
theorem get?_map_split (m : Map Split) (f : Nat × Split → Nat × Split) (h1 : ∀ p, (f p).1 = p.1) (h2 : ∀ j q, (f (j, q)).2 = (f (0, q)).2)
    (k : Nat) : Map.get? (m.map f) k = (Map.get? m k).map (fun q => (f (0, q)).2) := by
  rw [show f = fun p => (p.1, (f (0, p.2)).2) from funext (fun p => Prod.ext (h1 p) (h2 p.1 p.2))]
  exact Map.get?_mapVals m (fun _ q => (f (0, q)).2) k

theorem advance_split (t : State) (c : Ctx) (n si : Nat) :
    (splitIn (advance t c n) c.gid si).map shown
      = (splitIn t c.gid si).map (fun q => (q.uid, if q.uid = c.sp.uid then q.pc + BitVec.ofNat 55 n else q.pc, q.em, q.members)) := by
  simp only [splitIn, advance, State.setGroup_groups, Map.get?_modify_self]
  cases t.groups.get? c.gid with
  | none => rfl
  | some g =>
    simp only [Option.map_some, Option.bind_some]
    rw [get?_map_split g.splits, Option.map_map]
    · congr 1
      funext q
      by_cases hu : q.uid = c.sp.uid <;> simp [shown, hu]
    · intro p; split <;> rfl
    · intro j q; split <;> rfl

theorem finish_split (t : State) (c : Ctx) (i : Instr) (si : Nat) :
    (splitIn (finishIssue t c i []) c.gid si).map shown = (splitIn t c.gid si).map shown := by
  unfold finishIssue countIssue
  simp only [splitIn, keepSnap_groups, State.setGroup_groups, Map.get?_modify_self, State.setCore_groups, noteInflight, earlyWrite]
  cases t.groups.get? c.gid with
  | none => rfl
  | some g =>
    simp only [Option.map_some, Option.bind_some]
    rw [get?_map_split g.splits, Option.map_map]
    · congr 1
      funext q
      simp only [Function.comp]
      by_cases hu : q.uid = c.sp.uid
      · rw [if_pos hu]; rfl
      · rw [if_neg hu]
        exact shown_ite rfl
    · intro p; rfl
    · intro j q; rfl

/-- The splits after completion: the issuing one has gone on, and each shows otherwise what it did. -/
theorem done_split (t : State) (c : Ctx) (i : Instr) (n si : Nat) :
    (splitIn (finishIssue (advance t c n) c i []) c.gid si).map shown
      = (splitIn t c.gid si).map (fun q => (q.uid, if q.uid = c.sp.uid then q.pc + BitVec.ofNat 55 n else q.pc, q.em, q.members)) :=
  (finish_split _ c i si).trans (advance_split t c n si)

/-- An instruction whose effect leaves its split where it stood goes on to the next (R66). -/
theorem done_wentOn (t : State) (c : Ctx) (i : Instr) (h : splitIn t c.gid c.si = some c.sp) (hpc : c.pc = c.sp.pc) :
    wentOn i c (finishIssue (advance t c (lengthOf i)) c i []) = true := by
  have k := done_split t c i (lengthOf i) c.si
  rw [h] at k
  simp only [Option.map_some, if_true] at k
  unfold wentOn pcIn
  cases hs : splitIn (finishIssue (advance t c (lengthOf i)) c i []) c.gid c.si with
  | none => rw [hs] at k; simp at k
  | some q =>
    rw [hs] at k
    simp only [Option.map_some, Option.some.injEq, shown, Prod.mk.injEq] at k
    simp [k.2.1, hpc]

end Sys2Proof.Machine
end

