-- ==== Sys2Proof/Laws/Results.lean ====
section
/-!
SUPPORT. A ready instruction that computes a register result: the result stands in its destination, everything else in the
group's registers is as it was, memory is untouched, and the split has gone on.
-/
namespace Sys2Proof.Machine

/-- The group as the effect finds it is the context's. -/
theorem entered_group {i : Instr} {s : State} {c : Ctx} (e : readyCtx i s = some c) :
    (entered i s c).groups.get? c.gid = some c.g ∧ c.g.splits.get? c.si = some c.sp ∧ c.pc = c.sp.pc := by
  obtain ⟨hg, hsp, -, -, -, hpc, -, -⟩ := ctxOf_some (readyCtx_some e).1
  exact ⟨by rw [entered_self]; exact hg, hsp, hpc⟩

/-- A vector result (R55, R58, R59). -/
theorem vector_result {i : Instr} {s : State} {c : Ctx} (e : readyCtx i s = some c) {body : Ctx → State → Res} {r n : Nat} {f : Nat → Nat}
    (hb : body c (entered i s c) = .done (setDstLanes (entered i s c) c r n f)) :
    let t := runInstr i (actsAlways i) body s
    (∀ l ∈ lanesOf c.act, vregsIn t c.gid r l n = some (f l % 2 ^ (32 * n)))
      ∧ (∀ q l, l < 32 → (l ∉ lanesOf c.act ∨ q < r ∨ r + n ≤ q) → vregsIn t c.gid q l 1 = vregsIn s c.gid q l 1)
      ∧ (∀ q, sregIn t c.gid q = sregIn s c.gid q) ∧ (∀ m, maskIn t c.gid m = maskIn s c.gid m)
      ∧ t.mem = s.mem ∧ wentOn i c t = true := by
  obtain ⟨hg, hsp, hpc⟩ := entered_group e
  have hs : s.groups.get? c.gid = some c.g := by rw [← entered_self i s c]; exact hg
  have hset := setDstLanes_group (entered i s c) c r n f
  rw [hg] at hset
  intro t
  have ht : t = finishIssue (advance (setDstLanes (entered i s c) c r n f) c (lengthOf i)) c i [] := runInstr_done e hb
  rw [ht]
  refine ⟨fun l hl => ?_, fun q l hl h => ?_, fun q => ?_, fun m => ?_, by simp, done_wentOn _ _ _ ?_ hpc⟩
  · rw [done_vregs]
    exact setDstLanes_reads _ _ c.g r n f hg l hl
  · rw [done_vregs]
    have k := setDstLanes_keeps (entered i s c) c c.g r n f hg q l hl h
    rw [hset] at k
    simp only [vregsIn, hset, hs, Option.map_some, Group.vregs, Option.some.injEq] at k ⊢
    rw [k]
  · rw [done_sreg]
    simp only [sregIn, hset, hs, Option.map_some]
    rfl
  · rw [done_mask]
    simp only [maskIn, hset, hs, Option.map_some]
    rfl
  · simp only [splitIn, hset, Option.map_some, Option.bind_some]
    exact hsp

/-- A scalar result (R55). -/
theorem scalar_result {i : Instr} {s : State} {c : Ctx} (e : readyCtx i s = some c) {body : Ctx → State → Res} {r x : Nat}
    (hb : body c (entered i s c) = .done (setSreg (entered i s c) c.gid r x)) :
    let t := runInstr i (actsAlways i) body s
    sregIn t c.gid r = some (BitVec.ofNat 64 x) ∧ (∀ q, q ≠ r → sregIn t c.gid q = sregIn s c.gid q)
      ∧ (∀ q l n, vregsIn t c.gid q l n = vregsIn s c.gid q l n) ∧ (∀ m, maskIn t c.gid m = maskIn s c.gid m)
      ∧ t.mem = s.mem ∧ wentOn i c t = true := by
  obtain ⟨hg, hsp, hpc⟩ := entered_group e
  have hs : s.groups.get? c.gid = some c.g := by rw [← entered_self i s c]; exact hg
  have hset : (setSreg (entered i s c) c.gid r x).groups.get? c.gid
      = some { c.g with s := Map.putD c.g.s 0 r (BitVec.ofNat 64 x) } := by simp [setSreg, hg]
  intro t
  have ht : t = finishIssue (advance (setSreg (entered i s c) c.gid r x) c (lengthOf i)) c i [] := runInstr_done e hb
  rw [ht]
  refine ⟨?_, fun q hq => ?_, fun q l n => ?_, fun m => ?_, by simp, done_wentOn _ _ _ ?_ hpc⟩
  · rw [done_sreg]
    exact setSreg_reads _ _ _ _ c.g hg
  · rw [done_sreg, setSreg_keeps _ _ _ _ _ hq]
    simp [sregIn, hg, hs]
  · rw [done_vregs]
    simp only [vregsIn, hset, hs, Option.map_some]
    exact congrArg some (vregs_v_congr { c.g with s := Map.putD c.g.s 0 r (BitVec.ofNat 64 x) } c.g rfl q l n)
  · rw [done_mask]
    simp only [maskIn, hset, hs, Option.map_some]
    rfl
  · simp only [splitIn, hset, Option.bind_some]
    exact hsp

/-- A destination sz discards the result; the split goes on (R55). -/
theorem discarded_result {i : Instr} {s : State} {c : Ctx} (e : readyCtx i s = some c) {body : Ctx → State → Res}
    (hb : body c (entered i s c) = .done (entered i s c)) :
    let t := runInstr i (actsAlways i) body s
    (∀ q l n, vregsIn t c.gid q l n = vregsIn s c.gid q l n) ∧ (∀ q, sregIn t c.gid q = sregIn s c.gid q)
      ∧ (∀ m, maskIn t c.gid m = maskIn s c.gid m) ∧ t.mem = s.mem ∧ wentOn i c t = true := by
  obtain ⟨hg, hsp, hpc⟩ := entered_group e
  have hs : s.groups.get? c.gid = some c.g := by rw [← entered_self i s c]; exact hg
  intro t
  have ht : t = finishIssue (advance (entered i s c) c (lengthOf i)) c i [] := runInstr_done e hb
  rw [ht]
  refine ⟨fun q l n => ?_, fun q => ?_, fun m => ?_, by simp, done_wentOn _ _ _ ?_ hpc⟩
  · rw [done_vregs]; simp [vregsIn, hg, hs]
  · rw [done_sreg]; simp [sregIn, hg, hs]
  · rw [done_mask]; simp [maskIn, hg, hs]
  · simp [splitIn, hg, hsp]

end Sys2Proof.Machine
end

