-- ==== Sys2Proof/Tests/Slice0.lean ====
section
/-!
SUPPORT. Tests: words written out from the spec's encodings decode to their instructions, terms that break one check are
refused, and witnesses: for every claim states and operands that meet its premises, one for each constructor it covers
and for the ends of its clauses.
-/

namespace Sys2Proof.Tests

set_option Elab.async false

open Sys2Proof.Machine Sys2Proof.Claims

/-! ### Small states -/

/-- Every pair meets the premises of the claim. -/
def meets (claim : Instr → State → Option (State → Bool)) (l : List (Instr × State)) : Bool :=
  l.all (fun x => x.1.wellFormed && (claim x.1 x.2).isSome)

/-- One block of one thread on core 0 of die 0, its one group at PC 0; the first GiB is mapped onto itself. -/
def world : State := { placeWords State.reset [] with agenda := [], clk := 1000 }

def grp (f : Group → Group) (s : State) : State := s.setGroup 0 f
def spl (f : Split → Split) (s : State) : State := setSplit s 0 0 f
def blk (f : Block → Block) (s : State) : State := s.setBlock 0 f
def lau (f : Launch → Launch) (s : State) : State := s.setLaunch 0 f

/-- The same with four lanes, three of them in em, a handler address, and some registers written. -/
def wide : State :=
  grp (fun g => { g with tvec := 0x900, v := [(32, 5), (33, 0xFFFFFFFF), (34, 0x80000000), (64, 3), (65, 40), (66, 0x3C00), (96, 0x3F800000), (192, 0x30), (193, 0x60), (194, 0x60)],
                         s := [(2, 0x100), (3, 0x1000), (4, 0xFFFFFFFFFFFFFFFF), (5, 0xF00000000000)], cm := [(1, 5)] })
    (spl (fun q => { q with em := 7, members := 15 }) world)

/-- The same inside one level. -/
def inLevel : State := blk (fun b => { b with levels := [newLevel 0x30 1 1000 none 0x60 0x90] }) wide

/-- A checked launch: each group with its shadow, level with it. -/
def paired (s : State) : State :=
  let s := lau (fun l => { l with checked := true }) s
  { s with groups := s.groups ++ (s.groups.map (fun p => (p.1 + 32, p.2))) }

/-- Block 5, which is not there, has claimed a line. -/
def claimedBy5 (line : Nat) (s : State) : State := { s with claims := s.claims ++ [⟨line, 5, 1⟩] }

def hd : Hdr := ⟨false, 7, 0, false⟩
def hg : Hdr := ⟨false, 1, 0, false⟩
def hn : Hdr := ⟨true, 1, 0, false⟩
def m0 : Mods := ⟨0, 0, 0, false, false⟩
def mRot : Mods := ⟨2, 2, 1, false, false⟩
def o1 : Ops1 := ⟨false, m0, .v 10, .v 2, 0⟩
def o1s : Ops1 := ⟨true, m0, .s 10, .s 4, 0⟩
def o2 : Ops2 := ⟨m0, .v 10, .v 2, .v 4, 0⟩
def o2i : Ops2 := ⟨mRot, .v 10, .v 2, .imm, 0x00000804⟩
def o2s : Ops2 := ⟨m0, .s 10, .s 4, .s 3, 0⟩
def o2z : Ops2 := ⟨m0, .sz, .s 4, .s 3, 0⟩
def o3 : Ops3 := ⟨m0, .v 10, .v 2, .v 4, .s 3, 0⟩
def o3i : Ops3 := ⟨m0, .v 10, .v 2, .s 3, .imm, 0x3F800000⟩
def oc : OpsCmp := ⟨m0, 2, .v 2, .v 4, 0⟩
def oc7 : OpsCmp := ⟨m0, 7, .v 2, .v 4, 0⟩
def ocs : OpsCmp := ⟨m0, 2, .s 4, .s 3, 0⟩

/-- A write of 4 bytes at 0x5000 by lane 0, buffered. -/
def write0 : Acc :=
  { id := 9, gid := some 0, lanes := 1, cmd := none, blk := some 0, core := some 0, die := 0, kind := .store, va := 0x5000, pa := 0x5000, size := 4,
    data := 0x12345678, data2 := 0, lane := 0, ord := .relaxed, scope := 2, stage := .buffered, val := 0, carry := [], need := [], tok := none,
    cmp := none, depth := 0, n := 0, pc := 0, uncached := false, task := none, room := none, since := none }

/-- A queued copy of 16 bytes from global 0x2000 to scratch 0x100. -/
def cmd0 : Cmd :=
  { core := 0, gid := 0, blk := 0, lanes := 7, seq := 0, gs := none, kind := .copy .plain 4 0 1 0x2000 0x100 16 1 16 16 none none, state := .queued,
    discarded := false, wait := [], obs := [], depth := 0, pos := 0, writes := [], credited := [], tag := none, failed := none, failedAt := 0,
    rowsEnd := 0, prevEnd := 0, passed := 0, replay := false, sums := [], kept := 0, fillEnd := none, wordDone := false, released := false, asked := none, checks := [] }

/-- A task that lane 0 of the group runs. -/
def task0 : Task :=
  { ident := 0x100, ts := 5, pc := 0x30, parent := 0, parentIdent := 0, launch := 0, root := true, placed := none, die := 0, v := [],
    state := .running, frontier := false, slot := false, buf := [], reads := [], gid := 0, lane := 0, drain := [] }

/-- Two bays whose planes hold integer weights. -/
def bay0 : Bay :=
  { owner := some 0, former := none, active := { fmt := some 0, scale := 0, tr := false, xv := 0, bytes := [], check := [] }, shadow := Plane.empty,
    recActive := some (0, 0), recShadow := some (0x24, 0), recInt := true, fillEnd := none }
def roomy : State := (blk (fun b => { b with scratchSize := 1048576 }) wide).setCore 0 (fun k => { k with bays := [(0, bay0), (1, bay0)] })

/-! ### Witnesses: classes 0 to 3 -/

def integerCases : List (Instr × State) :=
  [(.iadd hd .w32 o2, wide), (.iadd hg .p8 o2i, wide), (.iadd hd .w64 o2s, wide), (.iadd hd .w64 o2z, wide), (.isub hd .p16 o2, wide),
   (.imul hd .w64 o2, wide), (.imulh hd .w32 false o2, wide), (.imulh hd .w64 true o2, wide), (.imad hd .w32 o3, wide), (.imad hd .w32 o3i, wide),
   (.imin hd .w32 false o2, wide), (.imin hd .p8 true o2, wide), (.imax hd .p16 false o2, wide), (.imax hd .w32 true o2, wide),
   (.iabs hd .w32 o1, wide), (.iabs hd .w64 o1s, wide), (.and hd .w32 o2, wide), (.or hd .w64 o2, wide), (.xor hn .w32 o2, wide),
   (.andn hd .w32 o2, wide)]
def shiftCases : List (Instr × State) :=
  [(.shl hd .w32 o2, wide), (.shl hd .p16 o2, wide), (.shr hd .w64 o2s, wide), (.shr hd .w32 o2i, wide), (.sar hd .w32 o2, wide),
   (.rotl hd .w64 o2, wide), (.bfx hd .w32 true o2i, wide), (.bfx hd .w64 false o2, wide), (.bfi hd .w32 o3, wide),
   (.popc hd .w32 o1, wide), (.clz hd .w64 o1, wide), (.brev hd .w32 o1, wide), (.mov hd .w32 o1, wide), (.mov hd .w64 o1s, wide),
   (.lea hd 3 false o2, wide), (.lea hd 0 true o2s, wide)]
theorem test_integer_witness : meets integerClaim integerCases = true := by decide +kernel
theorem test_shift_witness : meets integerClaim shiftCases = true := by decide +kernel

def selCases : List (Instr × State) :=
  [(.sel hg .w32 o2, wide), (.sel ⟨false, 2, 0, false⟩ .w64 o2, wide), (.sel hg .w64 o2s, wide), (.sel ⟨false, 2, 0, false⟩ .w64 o2s, wide),
   (.sel hg .w64 o2s, spl (fun q => { q with em := 0 }) wide), (.sel hg .w32 o2, spl (fun q => { q with em := 0 }) wide)]
theorem test_sel_witness : meets selClaim selCases = true := by decide +kernel

def icmpCases : List (Instr × State) :=
  [(.icmp hd .w32 false .eq oc, wide), (.icmp hg .w32 true .lt oc, wide), (.icmp hd .w64 false .le oc, wide), (.icmp hd .w32 false .gt oc7, wide),
   (.icmp hd .w64 false .ne ocs, wide), (.icmp hn .w64 true .ge ocs, wide)]
theorem test_icmp_witness : meets icmpClaim icmpCases = true := by decide +kernel

/-- The same with stochastic rounding. -/
def stochastic : State := grp (fun g => { g with frm := 4 }) wide

def floatCases : List (Instr × State) :=
  [(.fadd hd .f32 o2, wide), (.fadd hg .f16x2 o2, stochastic), (.fsub hd .f64 o2, wide), (.fmul hd .bf16 o2, wide), (.ffma hd .f32 o3i, wide),
   (.ffma hd .bf16x2 o3, stochastic), (.fmin hd .f32 o2, wide), (.fmax hd .f16 o2, wide), (.fadd hd .f64 o2s, wide), (.fmul hd .f64 o2z, wide)]
def functionCases : List (Instr × State) :=
  [(.frcp hd .f32 o1, wide), (.frsq hd .f32 o1, wide), (.fsqrt hd .f32 o1, wide), (.fex2 hd .f32 o1, wide), (.flg2 hd .f32 o1, wide),
   (.fsin hd .f32 o1, wide), (.fcos hd .f32 o1, wide), (.frnd hd .f32 false m0 (.v 10) (.v 2) 0, wide), (.frnd hd .f64 true m0 (.s 10) (.s 4) 7, wide),
   (.fscl hd .f32 o2, wide), (.fscl hd .f16x2 o2, wide)]
theorem test_float_witness : meets floatClaim floatCases = true := by decide +kernel
theorem test_function_witness : meets floatClaim functionCases = true := by decide +kernel

def floatTestCases : List (Instr × State) :=
  [(.fcmp hd .f32 .lt oc, wide), (.fcmp hg .f64 .un oc7, wide), (.fcmp hd .f64 .ord ocs, wide), (.fcls hd .f32 false m0 2 (.v 2) 0x3FF, wide),
   (.fcls hd .f64 true m0 2 (.s 4) 0x081, wide)]
theorem test_float_test_witness : meets floatTestClaim floatTestCases = true := by decide +kernel

def cvtCases : List (Instr × State) :=
  [(.fcvt hd ⟨false, m0, .v 10, .v 2, 0, 0, 0, 0, 0, 0x24, 8⟩, wide), (.fcvt hd ⟨false, m0, .v 10, .v 2, 0, 0, 0, 0, 7, 9, 0⟩, stochastic),
   (.fcvt hd ⟨true, m0, .s 10, .s 4, 3, 0, 1, 0, 0, 2, 11⟩, wide), (.fcvt hd ⟨false, m0, .v 10, .v 2, 0, 3, 0, 1, 0, 8, 0x24⟩, wide),
   (.fcvt hd ⟨false, mRot, .v 10, .v 2, 0, 0, 0, 0, 0, 0x24, 8⟩, wide)]
theorem test_cvt_witness : meets cvtClaim cvtCases = true := by decide +kernel

def lanesCases : List (Instr × State) :=
  [(.shfl hd .idx false 10 2 .imm 0x501, wide), (.shfl hg .xor true 10 2 (.v 4) 0, wide), (.shfl hd .rot false 10 2 (.s 3) 0, wide),
   (.shfl hd .rev false 10 2 .imm 0x200, wide), (.vote hd .mask (.v 10) 1, wide), (.vote hd .count (.s 10) 1, wide), (.vote hd .lead (.v 10) 1, wide),
   (.vote hd .same (.s 10) 1, wide), (.redux hd .add 0 (.v 10) 1, wide), (.redux hd .minu 0 (.s 10) 1, wide), (.redux hd .first 0 (.v 10) 1, wide),
   (.matchLanes hd false 10 1, wide), (.matchLanes hd true 10 2, wide), (.prmt hd 10 1 (.v 2) .imm 0x1C130F80, wide)]
theorem test_lanes_witness : meets lanesClaim lanesCases = true := by decide +kernel

def reduxCases : List (Instr × State) :=
  [(.redux hd .fadd 0 (.v 10) 1, wide), (.redux hg .fadd 1 (.s 10) 2, stochastic), (.redux hd .fmin 0 (.v 10) 1, wide), (.redux hd .fmax 2 (.v 10) 1, wide)]
theorem test_redux_witness : meets reduxClaim reduxCases = true := by decide +kernel

/-! ### Witnesses: control flow and the system instructions -/

def branchCases : List (Instr × State) :=
  [(.bra hd 0x12 0, wide), (.bra hg 0x12 0x12, wide), (.brx hd (.s 2) 0, wide), (.brx hd (.v 6) 0x99, wide), (.call hd 10 0xFFFFFFFD, wide),
   (.call hg 10 0x30, wide), (.callx hd 10 (.s 2), wide), (.ret hd (.s 3), wide), (.ret hg (.v 6), wide)]
theorem test_branch_witness : meets branchClaim branchCases = true := by decide +kernel

def maskCases : List (Instr × State) :=
  [(.nop hd, wide), (.msave hd (.s 10), wide), (.msave hd .sz, wide), (.mand hd (.cm 1), wide), (.mand hd (.src .imm 0), wide), (.mor hd (.src .imm 0xFF), wide),
   (.mrest hd (.src (.s 4) 0), wide), (.mrest hd (.cm 7), wide)]
theorem test_mask_witness : meets maskClaim maskCases = true := by decide +kernel

def exitCases : List (Instr × State) := [(.exit hd, wide), (.exit hg, wide), (.exit hd, world), (.exit hd, paired wide)]
theorem test_exit_witness : meets exitClaim exitCases = true := by decide +kernel

def trapCases : List (Instr × State) := [(.trap hd 0x80 .sz, wide), (.trap hg 0xFF (.s 4), wide)]
theorem test_trap_witness : meets trapClaim trapCases = true := by decide +kernel

/-- In the handler, entered from a wait that has ended. -/
def handling : State := grp (fun g => { g with handler := true, epc := 0x300, savedEm := 7, entry := some (0x300, .gather, some 3) }) wide
def tretCases : List (Instr × State) :=
  [(.tret hd, handling), (.tret hd, grp (fun g => { g with epc := 0x400 }) handling), (.tret hd, grp (fun g => { g with entry := none }) handling),
   (.tret hd, grp (fun g => { g with entry := some (0x300, .gather, none) }) handling)]
theorem test_tret_witness : meets tretClaim tretCases = true := by decide +kernel

def regrouping : State := lau (fun l => { l with regroup := true }) wide
def regroupCases : List (Instr × State) := [(.regroup hd 0x30 (.v 2), regrouping), (.regroup hg 0xFFFFFFFD .sz, regrouping), (.regroup hd 0x30 .sz, paired regrouping)]
theorem test_regroup_witness : meets regroupClaim regroupCases = true := by decide +kernel

/-- A record that names queue 3 at VA 0x200, and that queue device-fed with room. -/
def withRecord : State :=
  let s := writeNat wide 0x238 4 (3 * 2 ^ 23)
  { grp (fun g => { g with s := g.s.put 2 0x200, v := [(64, 0x200), (65, 0x240), (66, 0x200)] }) s with
    queues := [(3, { ring := 0x10000, log2 := 4, device := true, prod := 0x11000, cons := 0x11008, read := 0, configured := true, posted := [] })] }
def launchCases : List (Instr × State) :=
  [(.launch hd 2, withRecord), (.launchLane hd 2, withRecord), (.launchLane hg 2, withRecord), (.launch hd 3, wide)]
theorem test_launch_witness : meets launchClaim launchCases = true := by decide +kernel

def csrrCases : List (Instr × State) :=
  [.status, .cause, .epc, .eval, .tvec, .sbchk, .backoff, .fflags, .frm, .xv 0, .xv 15, .ensd, .shoru, .snapctl].map (fun r => (.csrr hd (.s 10) r, wide))
    ++ [(.csrr hd .sz .status, wide)]
theorem test_csrr_witness : meets csrrClaim csrrCases = true := by decide +kernel

def csrwCases : List (Instr × State) :=
  [.status, .cause, .epc, .eval, .tvec, .sbchk, .backoff, .fflags, .frm, .xv 3, .ensd, .shoru].map (fun r => (.csrwWr hd r (.s 4), wide))
    ++ [(.csrwSet hd .fflags (.s 4), wide), (.csrwClr hd .backoff (.s 2), wide), (.csrwWr hd .frm (.s 2), wide)]
theorem test_csrw_witness : meets csrwClaim csrwCases = true := by decide +kernel

def snapctlCases : List (Instr × State) :=
  [(.csrwWr hd .snapctl (.s 4), wide), (.csrwSet hd .snapctl (.s 4), wide),
   (.csrwClr hd .snapctl (.s 4), wide.setCore 0 (fun k => { k with snapLatched := true, snapOld := (1000, 0, 0) }))]
theorem test_snapctl_witness : meets snapctlClaim snapctlCases = true := by decide +kernel

def systemCases : List (Instr × State) :=
  [(.npe hd, wide), (.pen hd, wide), (.pen hd, grp (fun g => { g with npe := some 0 }) wide),
   (.pen hd, blk (fun b => { b with stop := some .preempt }) (grp (fun g => { g with npe := some 0 }) wide)),
   (.snap hd (.s 10), wide), (.snap hd .sz, { wide with triggers := [⟨50, true⟩] }), (.halt hd 0x55, wide),
   (.halt hd 0x55, blk (fun b => { b with stop := some (.halt 1) }) wide)]
theorem test_system_witness : meets systemClaim systemCases = true := by decide +kernel

/-! ### Witnesses: memory instructions -/

/-- A load or store of four lanes' worth at s2 + 0x40. -/
def mo (w : MWidth) (d : Src) (sel : BitVec 2 := 0) (ord : Ord := .relaxed) : MemOps := ⟨w, ord, sel, d, ⟨.s 2, .v 4, 2, 0x40, if ord = .relaxed then 0 else 6⟩⟩
/-- One at member address or scratch offset 0x40 of the scalar side. -/
def mz (w : MWidth) (d : Src) (sel : BitVec 2 := 0) : MemOps := ⟨w, .relaxed, sel, d, ⟨.sz, .sz, 0, 0x40, 0⟩⟩

def loadCases : List (Instr × State) :=
  [(.ldg hd (mo .w32 (.v 10)), wide), (.ldg hg (mo .i8 (.v 10)), wide), (.ldg hd (mo .w128 (.v 12) 0 .acquire), wide), (.ldg hd (mz .w64 (.s 10)), wide),
   (.ldg hd (mz .w32 .sz), wide), (.lds hd (mo .n16 (.v 10)), wide), (.lds hd (mz .w32 (.s 10)), inLevel), (.ldw hd (mz .w32 (.s 10) 1), wide),
   (.ldw hd ⟨.w32, .relaxed, 0, .s 10, ⟨.s 5, .sz, 0, 0x40, 0⟩⟩, wide), (.ldc hd (mo .w32 (.v 10)), wide), (.ldc hd (mz .i16 (.s 10)), wide)]
theorem test_load_witness : meets loadClaim loadCases = true := by decide +kernel

def storeCases : List (Instr × State) :=
  [(.stg hd (mo .w32 (.v 2)), wide), (.stg hg (mo .n8 (.v 2) 0 .release), wide), (.stg hd (mz .w64 (.s 4)), inLevel), (.sts hd (mo .w32 (.v 2)), wide),
   (.sts hd (mz .w32 (.s 4)), inLevel), (.stw hd (mz .w32 (.s 4) 1), wide), (.stw hd ⟨.w32, .relaxed, 0, .s 4, ⟨.s 5, .sz, 0, 0x40, 0⟩⟩, wide)]
theorem test_store_witness : meets storeClaim storeCases = true := by decide +kernel

def ao (sp : CSpace) (d : Dst) (b : Src) (wide : Bool := false) : AtomOps := ⟨wide, .relaxed, 2, sp, d, if sp = .scr ∨ sp = .mb then .sz else .s 2, b, 0x40⟩
def av (d : Dst) (b : Src) : AtomOps := ⟨false, .relaxed, 2, .glb, d, .v 8, b, 0x40⟩
def asc (d : Dst) (b : Src) : AtomOps := ⟨false, .sc, 6, .glb, d, .s 2, b, 0⟩

def class5Cases : List (Instr × State) :=
  [(.atom hd .add (ao .glb (.s 10) (.s 4)), wide), (.atom hd .exch (ao .scr (.s 10) (.s 4) true), wide), (.atom hd .fadd (av (.v 10) (.v 2)), wide),
   (.atom hd .add (ao .mb (.s 10) (.s 4)), wide), (.atom hd .max ⟨false, .relaxed, 2, .win, .s 10, .s 5, .s 4, 0x40⟩, wide),
   (.atom hd .xor (asc .sz (.s 4)), wide), (.acas hd (ao .glb (.s 10) (.s 4)), wide), (.acas hg (av (.v 10) (.v 2)), wide),
   (.red hd .and true (ao .glb .sz (.s 4)), wide), (.red hg .add true (av .sz (.v 2)), wide), (.rdlk hd 2 (ao .glb (.s 10) .sz true), wide),
   (.rdul hd 7 (ao .glb .sz .sz true), wide), (.wrlk hd 2 (ao .glb (.s 10) .sz true), wide), (.wrul hd 2 (ao .glb (.s 10) .sz true), wide)]
theorem test_class5_witness : meets class5Claim class5Cases = true := by decide +kernel

def ad : AddrOps := ⟨.s 2, .v 4, 2, 0x40, 0⟩
def prefCases : List (Instr × State) := [(.pref hd 1 ad, wide), (.pref hd 2 ad, wide), (.pref hd 0 ⟨.s 4, .sz, 0, 0, 0⟩, wide)]
theorem test_pref_witness : meets prefClaim prefCases = true := by decide +kernel
def cflushCases : List (Instr × State) := [(.cflush hd 0 ⟨.s 2, .v 4, 2, 0x40, 6⟩, wide), (.cflush hg 1 ⟨.s 2, .v 4, 2, 0x40, 6⟩, wide)]
theorem test_cflush_witness : meets cflushClaim cflushCases = true := by decide +kernel

/-- Lane 0's thread has observed write 9, and a load of it has read a write that carries 9; 9 is still queued. -/
def observing : State :=
  { wide with obs := [(0, [9])], seen := [(0, [9])],
              accs := [{ write0 with gid := none, lanes := 0, stage := .arrived }] }
def fenceCases : List (Instr × State) :=
  [(.fence hd .acquire 2, observing), (.fence hd .release 3, observing), (.fence hd .sc 6, wide), (.fence hg .acquire 10, wide)]
theorem test_fence_witness : meets fenceClaim fenceCases = true := by decide +kernel

/-- Barrier word 1 one arrival short of four, three of its bytes pending. -/
def atBarrier (pend : Nat) : State :=
  writeNat (lau (fun l => { l with threads := 4 }) wide) (scratchAddr 0 8) 8 (4 * 2 ^ 51 + 2 ^ 40 + pend)
def b1 : BarRef := ⟨false, 0, 1⟩
def barrierCases : List (Instr × State) :=
  [(.barw hd b1 4, atBarrier 0), (.barw hd b1 4, atBarrier 3), (.barw hd ⟨false, 0, 0⟩ 0, wide), (.barw hg ⟨true, 0, 1⟩ 4, atBarrier 0),
   (.bara hd b1 (.s 10) 4, atBarrier 0), (.bara hg b1 .sz 4, atBarrier 0), (.barx hd b1 none .imm 0xFFFD, atBarrier 3), (.barx hd b1 (some 4) (.s 4) 0, atBarrier 1),
   (.barwWait hd b1 (.s 4), wide), (.barwWait hd b1 (.v 2), inLevel), (.barwWait hd b1 (.s 3), wide)]
theorem test_barrier_witness : meets barrierClaim barrierCases = true := by decide +kernel

def pegOf (line gid : Nat) (st : PegState) : Peg := { line := line, gid := gid, site := gid, req := 5, accepted := 0, left := none, state := st }
/-- The group holds the line at 0x100. -/
def holder : State := { wide with pegs := [pegOf 2 0 .holding] }
def lockCases : List (Instr × State) :=
  [(.lock hd 2 (.s 10) 2 .imm 100, wide), (.lock hd 7 .sz 2 (.s 3) 0, holder), (.lockt hd 2 (.s 10) 2, wide), (.lockt hd 2 (.s 10) 2, holder)]
theorem test_lock_witness : meets lockClaim lockCases = true := by decide +kernel
def unlockCases : List (Instr × State) :=
  [(.unlock hd 2 (.s 10) 2, holder), (.unlock hd 2 (.s 10) 2, wide), (.unlock hd 7 .sz 2, { inLevel with pegs := [pegOf 2 0 .holding] })]
theorem test_unlock_witness : meets unlockClaim unlockCases = true := by decide +kernel

/-! ### Witnesses: recovery and tasks -/

/-- Every lane in em; a word at 0x1000 that two members may join. -/
def whole (s : State) : State := writeNat (spl (fun q => { q with em := q.members }) s) 0x1000 8 (2 * 2 ^ 52)
/-- A second group of the block, at PC 0x30. -/
def twoGroups (s : State) : State :=
  blk (fun b => { b with nGroups := 2 }) { s with groups := s.groups.put 1 (startGroup 0 1 0 256 1 0x30 15 0) }
/-- A level that has joined the conversation at 0x1000. -/
def joined : State :=
  whole { blk (fun b => { b with levels := [{ newLevel 0x30 1 1000 (some 0x1000) 0x60 0x90 with joining := false }] }) wide with
          convs := [{ word := 0x1000, members := [0], accepted := [], rolling := [], closing := none }] }
def gatherCases : List (Instr × State) :=
  [(.ensure hd 1 2 .sz 0x60 0x90, whole wide), (.ensure hd 0 2 (.s 3) 3 0xFFFD, whole wide), (.ensure hd 1 2 .sz 0x60 0x90, whole (twoGroups wide)),
   (.accept hd, whole inLevel), (.accept hd, whole (blk (fun b => { b with levels := b.levels ++ [newLevel 0x60 1 1000 none 0x60 0x90] }) inLevel)),
   (.accept hd, joined), (.accept hd, claimedBy5 0x20 joined), (.conv hd 3, whole inLevel), (.convx hd 3, joined)]
theorem test_gather_witness : meets gatherClaim gatherCases = true := by decide +kernel

def alternateCases : List (Instr × State) := [(.elseby hd 0x30, inLevel), (.elseerr hd, inLevel), (.reject hd (.s 4), inLevel), (.reject hg .sz, inLevel)]
theorem test_alternate_witness : meets alternateClaim alternateCases = true := by decide +kernel

def spawnCases : List (Instr × State) :=
  [(.spawn hd (.v 4) none 0x30, regrouping), (.spawn hg (.s 3) (some 3) 0xFFFFFFD, regrouping), (.spawn hd (.sp .lane) none 0x30, regrouping),
   (.spawn hd .sz none 0x30, blk (fun b => { b with levels := [newLevel 0x30 1 1000 none 0x60 0x90] }) regrouping)]
theorem test_spawn_witness : meets spawnClaim spawnCases = true := by decide +kernel

/-- The group's lanes run one task. -/
def tasked (s : State) : State := { grp (fun g => { g with tasks := [(0, 3)], taskGroup := true }) s with tasks := [(3, task0)] }
def endTaskCases : List (Instr × State) :=
  [(.tend hd, regrouping), (.tend hd, tasked (spl (fun q => { q with em := 1, members := 1 }) wide)), (.tend hd, tasked regrouping),
   (.tabort hd, tasked (spl (fun q => { q with em := 1, members := 1 }) wide))]
theorem test_end_task_witness : meets endTaskClaim endTaskCases = true := by decide +kernel

/-! ### Witnesses: engines and experts at issue -/

def pl (a b c d : BitVec 32) : PBlock := ⟨.lit a, .lit b, .lit c, .lit d⟩
def cp (ss ds : BitVec 2) (b : Option (BitVec 6)) : CopyOps := ⟨2, none, if b.isSome then 6 else 0, ss, ds, false, 0, 0, 2, 2, b, pl 0x100 4 0x100 0x100⟩
def copyCases : List (Instr × State) :=
  [(.cpy hd (cp 0 1 none), wide), (.cpy hg { cp 1 0 (some 3) with credit := true, bar := 1, gs := some 2 }, wide), (.cpy hd (cp 0 1 (some 3)), inLevel),
   (.cpy hd { cp 0 1 none with p := ⟨.sub 2, .lit 1, .lit 0, .lit 0⟩ }, wide), (.cpyg hd { cp 0 1 none with p := pl 16 4 0x100 0x200 }, wide),
   (.cpyw hd { cp 0 3 none with d := 0 }, wide), (.cpyw hd { cp 1 2 none with d := 5, p := pl 16 1 0 0 }, wide)]
theorem test_copy_witness : meets copyClaim copyCases = true := by decide +kernel

def cdoneCases : List (Instr × State) :=
  [(.cdone hd none 6 3 (.s 4), wide), (.cdone hd (some 0) 3 3 .sz, grp (fun g => { g with copies := [7] }) { wide with cmds := [(7, cmd0)] }),
   (.cdone hd none 10 3 .sz, inLevel)]
theorem test_cdone_witness : meets cdoneClaim cdoneCases = true := by decide +kernel

def matrixCases : List (Instr × State) :=
  [(.mxlw hd ⟨none, 0x24, 1, 0, true, 3, 3⟩, roomy), (.mxlw hd ⟨some 7, 2, 1, 5, false, 0, 3⟩, roomy), (.mxswap hd none 3, roomy),
   (.mxswap hd none 8, roomy), (.mxloop hd ⟨none, 0, 0, 0, 1, 0, 3, 0, 3, pl 2 0x1000 0x4000 0⟩, roomy),
   (.mxloop hd ⟨none, 0, 0, 0, 3, 60, 3, 0, 3, pl 1 0 0 0x4000⟩, roomy), (.mxdrain hd ⟨none, .s 2, .sz, 0, 0, 0, .none, 0, 0, 3⟩, roomy),
   (.mxdrain hd ⟨none, .v 16, .sz, 0, 0, 0, .relu, 0, 0, 1⟩, roomy), (.mxdrain hd ⟨none, .s 2, .s 3, 0, 0, 0, .scale, 2, 0, 0⟩, roomy),
   (.mxdrain hd ⟨none, .v 16, .sz, 0, 0, 0, .silu, 3, 0, 0⟩, roomy), (.mxdrain hd ⟨some 1, .s 2, .sz, 0x24, 1, 1, .cvt, 1, 63, 0⟩, roomy),
   (.mxzero hd none 5 0 63, roomy)]
theorem test_matrix_witness : meets matrixClaim matrixCases = true := by decide +kernel

def ranged (s : State) : State := { s with cmds := [(7, cmd0)], ranges := [{ cmd := 7, blk := 0, claim := false, scratch := true, window := false, lo := 0x100, hi := 0x10F }] }
def slotCases : List (Instr × State) :=
  [(.gres hd 0 .imm 0, wide), (.gres hd 7 (.s 4) 0, wide), (.gresFree hd 3, wide), (.sbwait hd true (.s 2) .imm 1, ranged wide), (.sbwait hd true .sz .imm 16, ranged wide),
   (.sbwait hd false (.s 2) (.s 3) 0, ranged wide), (.sbwaitAll hd, ranged wide), (.sbwaitAll hd, wide)]
theorem test_slot_witness : meets slotClaim slotCases = true := by decide +kernel

/-- A directory of four experts at 0x8000, registered with die 0. -/
def directory (s : State) : State := (writeNat s 0x8000 4 4).setDie 0 (fun d => { d with dirs := [⟨0x8000, false, []⟩] })
def withDir : State := directory (grp (fun g => { g with s := g.s.put 6 0x8000 }) wide)
def xo (b : Src) (imm : BitVec 20) : ExpOps := ⟨2, .s 10, 6, b, imm⟩
def expertCases : List (Instr × State) :=
  [(.xfetch hd false (xo .imm 3), withDir), (.xfetch hd true (xo (.s 0) 0), withDir), (.xpin hd (xo .imm 0), withDir),
   (.xunpin hd { xo .imm 3 with m := 7, d := .sz }, withDir), (.xstat hd 6 (xo (.sp .die) 0), withDir), (.xstat hd 0 (xo .imm 1), directory (grp (fun g => { g with s := g.s.put 6 0x8000 }) inLevel))]
theorem test_expert_witness : meets expertClaim expertCases = true := by decide +kernel
def xcntCases : List (Instr × State) :=
  [(.xcnt hd 6 (.v 8) .imm 0 1, withDir), (.xcnt hd 6 (.s 0) .imm 0 5, withDir), (.xcnt hd 6 .imm (.v 2) 3 0, withDir),
   (.xcnt hg 6 .imm (.s 3) 3 0, directory (grp (fun g => { g with s := g.s.put 6 0x8000 }) inLevel))]
theorem test_xcnt_witness : meets xcntClaim xcntCases = true := by decide +kernel

def co : CollOps := ⟨0, none, 6, 3, 0, 2, 3, 2, pl 16 0x2000 9 100⟩
def collCases : List (Instr × State) := [(.coll hd co, wide), (.coll hg { co with typ := 5, op := 2, gs := some 1, p := ⟨.sub 2, .sub 3, .lit 9, .lit 65535⟩ }, wide)]
theorem test_coll_witness : meets collClaim collCases = true := by decide +kernel

/-! ### Witnesses: groups, blocks and launches -/

def tok0 : Tok :=
  { gid := 0, split := 0, n := 0, lanes := 3, dst := some (.v 10), size := 4, sext := false, mask := none, pc := 0, vals := [(0, 7), (1, 8)], oks := [] }
def waiting (k : Tok) : State :=
  { grp (fun g => { g with pend := [⟨20, [.v 10], 3, []⟩] }) wide with toks := [(20, k)], nextId := 30 }
def cont0 : Cont := { pc := 0x30, key := 1, lane := 2, group := 0, thread := 2, v := [7, 8] }
def parked (p : Park) (s : State) : State := spl (fun q => { q with park := some p }) s
def groupEventCases : List (Instr × State) :=
  [(.loadCompletion 20, waiting tok0), (.loadCompletion 20, waiting { tok0 with size := 16, dst := some (.v 12) }),
   (.loadCompletion 20, waiting { tok0 with dst := some (.s 10), size := 1, sext := true, vals := [(32, 0x80)], mask := some 2, oks := [(32, true)] }),
   (.loadCompletion 20, waiting { tok0 with dst := none, mask := some 7 }),
   (.splitStarvationGuard 0 0, spl (fun q => { q with readySince := some 744 }) wide),
   (.formerFlush 0, { blk (fun b => { b with conts := [cont0, { cont0 with lane := 3, thread := 3 }, { cont0 with key := 2 }] }) wide with groups := [] }),
   (.formedGroupPlace 0, { blk (fun b => { b with formed := [(740, [cont0, { cont0 with lane := 3, thread := 3 }]), (741, [cont0])] }) regrouping with groups := [] }),
   (.groupEnd 0 0, grp (fun g => { g with splits := [] }) wide), (.groupEnd 0 0, parked .exit wide),
   (.groupEnd 0 0, tasked (parked .tend (spl (fun q => { q with em := 1, members := 1 }) wide))),
   (.groupEnd 0 0, tasked (parked .tabort (spl (fun q => { q with em := 1, members := 1 }) wide)))]
theorem test_group_event_witness : meets groupEventClaim groupEventCases = true := by decide +kernel

/-- A launch of two blocks, none placed yet. -/
def unplaced : State :=
  { lau (fun l => { l with clusters := 2, threads := 40, nextCluster := 0, pc := 0x30, arg := 0x77 }) wide with
    blocks := [], groups := [], classes := [(1, [0])] }
def gang : State := lau (fun l => { l with gang := true }) unplaced
def blockEventCases : List (Instr × State) :=
  [(.blockEnd 0, { wide with groups := [] }), (.blockEnd 0, blk (fun b => { b with terminated := some .nesting }) wide),
   (.dispatchDecision [([3], 5)], unplaced), (.dispatchDecision [([255], 62)], lau (fun l => { l with nextCluster := 1, waited := 7 }) unplaced),
   (.dispatchDecision [([0, 1], 0)], lau (fun l => { l with clusterSize := 2 }) unplaced), (.dispatchDecision [([3], 5)], gang),
   (.dispatchDecision [([3], 5), ([4], 0)], gang), (.dispatchDecision [([4], 0)], { gang with reserves := [⟨0, 0, [([3], 5, [0])]⟩] }),
   (.launchPromotion 0, lau (fun l => { l with waited := 65536 }) unplaced), (.clusterStartRelease 0, lau (fun l => { l with obs := [4] }) (blk (fun b => { b with started := false }) wide))]
theorem test_block_event_witness : meets blockEventClaim blockEventCases = true := by decide +kernel

/-- A record in host-fed queue 2's ring at 0x10000: one cluster of 32 threads with 16 registers and one page of scratch, on queue 2. -/
def posted (pasid : Nat) (map : Nat) (clusters : Nat) : State :=
  let s := writeNat (writeNat wide 0x10000 8 0x30) 0x10010 8 0x3000
  let s := writeNat (writeNat s 0x10028 8 map) 0x10030 4 clusters
  let s := writeNat (writeNat s 0x10034 4 (31 + 1024 + 32768)) 0x10038 4 (pasid + 2 * 2 ^ 23)
  { writeNat s 0x11000 4 1 with
    queues := [(2, { ring := 0x10000, log2 := 4, device := false, prod := 0x11000, cons := 0x11008, read := 0, configured := true, posted := [] })] }
/-- A launch whose only block has ended. -/
def finished : State := { lau (fun l => { l with blocksEnded := 1, cword := 0x3000, seq := 9 }) wide with blocks := [], groups := [] }
def launchEventCases : List (Instr × State) :=
  [(.launchQueueRead ⟨1, 2⟩, posted 0 0 1), (.launchQueueRead ⟨0, 2⟩, posted 0 0 0), (.launchQueueRead ⟨0, 2⟩, posted 5 0 1), (.launchQueueRead ⟨0, 2⟩, posted 0 0x2000 2),
   (.launchQueueRead ⟨0, 2⟩, posted 0 0x100000000000 1), (.launchCompletion 0, finished), (.launchCompletion 0, lau (fun l => { l with fail := some 6 }) finished),
   (.launchCompletion 0, lau (fun l => { l with poisoned := some 6 }) finished), (.launchCompletion 0, lau (fun l => { l with halted := true }) finished), (.launchCompletion 0, lau (fun l => { l with refused := true }) finished),
   (.launchCompletion 0, lau (fun l => { l with cword := 0 }) finished), (.launchCompletion 0, lau (fun l => { l with cword := 0, halted := true }) finished)]
theorem test_launch_event_witness : meets launchEventClaim launchEventCases = true := by decide +kernel

def entry0 : QEntry := { id := 40, core := 0, gid := 0, dest := .truss 0, seq := 0, payload := .task 3, state := .sent }
def linkCases : List (Instr × State) :=
  [(.queueEntryAck ⟨40, false⟩, { wide with queue := [{ entry0 with dest := .peer, payload := .peer [9] }] }),
   (.queueEntryAck ⟨40, true⟩, { wide with queue := [{ entry0 with dest := .peer, payload := .peer [9] }, { entry0 with id := 41, seq := 1 }] }),
   (.queueEntryAck ⟨40, false⟩, { wide with queue := [{ entry0 with state := .accepted }, { entry0 with id := 41, seq := 1 }] }),
   (.queueNackResend 40, { wide with queue := [{ entry0 with state := .nacked 936 }, { entry0 with id := 41, seq := 1, state := .nacked 940 }, { entry0 with id := 42, seq := 2, state := .accepted }] }),
   (.queueNackResend 40, { wide with groups := [], queue := [{ entry0 with state := .nacked 936 }] })]
theorem test_link_witness : meets linkClaim linkCases = true := by decide +kernel

/-! ### Witnesses: the abstract machine -/

def holding (as : List Acc) (s : State := wide) : State := { s with accs := as, nextId := 30 }
def load0 : Acc := { write0 with kind := .load, stage := .pending, data := 0, tok := some 20 }
def far : Nat := 0x4000005000
def far0 : Acc := { write0 with pa := far, va := far, stage := .queued }
def spec0 : State := { tasked wide with toks := [] }
/-- Lines of the other dies: die 1 may hold line 0xA0. -/
def shared (s : State) : State := s.setLine 0xA0 (fun n => { n with dir := [(1, .s)] })
def accessStepCases : List (Instr × State) :=
  [(.satisfy 9, { holding [load0] with toks := [(20, tok0)] }), (.satisfy 9, holding [{ load0 with pa := far, ord := .acquire, scope := 6 }]),
   (.satisfy 10, holding [write0, { load0 with id := 10, pa := 0x5002, size := 2 }]),
   (.satisfy 9, holding [{ load0 with task := some 3 }] spec0),
   (.satisfy 9, holding [{ load0 with task := some 3 }] { spec0 with tasks := [(3, { task0 with reads := (List.range 1024).map (· + 4096) })] }),
   (.drain 9, holding [write0]), (.drain 9, holding [{ write0 with kind := .unlock }]), (.drain 9, holding [{ write0 with kind := .flush 0 }]),
   (.drain 9, holding [{ write0 with kind := .flush 2 }]), (.drain 9, holding [{ write0 with kind := .flush 2 }] (shared wide)),
   (.drain 9, holding [{ write0 with kind := .flush 1, gid := some 5 }] { wide with pegs := [pegOf 0xA0 0 .holding] }), (.drain 9, holding [{ write0 with task := some 3 }] spec0), (.drain 9, holding [{ far0 with stage := .buffered }]),
   (.drain 9, holding [{ write0 with gid := some 5 }] { wide with pegs := [pegOf 0xA0 0 .holding] }),
   (.drain 9, holding [{ write0 with kind := .atom .add true, pa := scratchAddr 0 0x40, tok := some 20 }] { wide with toks := [(20, tok0)] }),
   (.apply 9, holding [{ write0 with stage := .arrived }]), (.apply 9, holding [{ write0 with stage := .arrived, pa := scratchAddr 0 0xFFC }] inLevel),
   (.apply 9, holding [{ write0 with stage := .arrived, pa := windowAddr 0 1 0x504 }]), (.apply 9, holding [{ write0 with stage := .arrived }] (shared wide)),
   (.apply 9, holding [{ write0 with stage := .arrived, pa := 0x507F, size := 2 }]),
   (.cross 9, holding [far0]), (.cross 9, holding [{ far0 with pa := 0x1000000005000, size := 8 }]), (.cross 9, holding [far0] { wide with pegs := [pegOf (far / 128) 4096 .holding] }),
   (.cross 9, holding [far0] (wide.setLine (far / 128) (fun n => { n with expiry := 64 })))]
theorem test_access_step_witness : meets accessStepClaim accessStepCases = true := by decide +kernel

def req0 (k : AKind) : Acc := { write0 with kind := k, size := 8, stage := .arrived, tok := some 20, data := 1 }
def at0 (x : Nat) (as : List Acc) : State := holding as { writeNat wide 0x5000 8 x with toks := [(20, tok0)] }
def requestCases : List (Instr × State) :=
  [(.class5RequestApply [9], at0 7 [req0 (.atom .add true)]), (.class5RequestApply [9], at0 7 [req0 (.atom .min false)]), (.class5RequestApply [9], at0 1 [{ req0 .cas with data2 := 5 }]),
   (.class5RequestApply [9], at0 2 [{ req0 .cas with data2 := 5 }]), (.class5RequestApply [9], at0 (2 ^ 62) [req0 .rdlk]), (.class5RequestApply [9], at0 3 [req0 .rdlk]),
   (.class5RequestApply [9], at0 0 [req0 .rdul]), (.class5RequestApply [9], at0 (2 ^ 48) [req0 .wrlk]), (.class5RequestApply [9], at0 1 [{ req0 .wrlk with data := 0 }]),
   (.class5RequestApply [9], at0 (2 ^ 62) [req0 .wrul]), (.class5RequestApply [9], at0 0 [req0 .wrul]),
   (.class5RequestApply [9, 10, 11], at0 7 [{ req0 (.atom .add true) with size := 4 }, { req0 (.atom .add true) with size := 4, id := 10, gid := some 1, lane := 1 },
      { req0 (.atom .add false) with size := 4, id := 11, gid := some 2, tok := none }]),
   (.class5RequestApply [9], { at0 7 [{ req0 (.atom .add true) with stage := .queued, gid := some 5 }] with pegs := [pegOf 0xA0 0 .holding] }),
   (.class5RequestApply [9], shared (at0 7 [req0 (.atom .add true)])),
   (.class5RequestApply [9, 10], at0 7 [{ req0 (.atom .fmax true) with size := 4 }, { req0 (.atom .fmax true) with size := 4, id := 10, gid := some 1, lane := 1 }])]
theorem test_request_witness : meets requestClaim requestCases = true := by decide +kernel

def line0 (f : Line → Line) : State := wide.setLine 0xA0 f
def lineCases : List (Instr × State) :=
  [(.leaseExpiry 0xA0, holding [{ write0 with stage := .arrived }] (wide.setCore 3 (fun k => { k with l1 := [(0xA0, 0)] }))), (.leaseExpiry 0xA0, wide),
   (.leaseExpiry 0xA0, (line0 (fun n => { n with expiry := 7 })).setDie 0 (fun d => { d with time := 8 })),
   (.atomicLeaseHoldEnd 0xA0, (line0 (fun n => { n with atomicUntil := 7 })).setDie 0 (fun d => { d with time := 7 })),
   (.probeReceive 1 0xA0, { wide with msgs := [⟨1, 0xA0, 0, true, .i⟩] }), (.probeReceive 1 0xA0, { wide with msgs := [⟨1, 0xA0, 1, true, .i⟩] }),
   (.probeReceive 1 0xA0, { wide.setProxy 0xA0 1 (fun p => { p with seq := 3 }) with msgs := [⟨1, 0xA0, 2, true, .i⟩] }),
   (.probeAck 1 0xA0, wide.setProxy 0xA0 1 (fun p => { p with owesAck := true })), (.proxyGrantReceive 1 0xA0, { wide with msgs := [⟨1, 0xA0, 1, false, .s⟩] }),
   (.proxyGrantReceive 1 0xA0, { wide.setProxy 0xA0 1 (fun p => { p with probes := [1] }) with msgs := [⟨1, 0xA0, 1, false, .s⟩] }),
   (.hostSnoop 2 0x20000000000 false, { wide with hostHalves := [((0x20000000000 * 4 + 2) * 2, .m)] }), (.hostSnoop 0 0x20000000000 true, wide),
   (.linePoison 0xA0, wide), (.linePoison (0x13FFFFFFF80 / 128), wide), (.linePoison (scratchAddr 65 0x80 / 128), wide)]
theorem test_line_witness : meets lineClaim lineCases = true := by decide +kernel

/-! ### Witnesses: the engines -/

def withCmd (k : Cmd) (s : State := wide) : State := { s with cmds := [(7, k)], nextId := 30 }
def queuedOn (matrix : Bool) (k : Cmd) (s : State := wide) : State :=
  (withCmd k s).setCore 0 (fun c => if matrix then { c with mxQ := [7] } else { c with copyQ := [7] })
def slotIs (x : GuardState) (s : State) : State := grp (fun g => { g with gs := [(2, x)] }) s
def acceptCases : List (Instr × State) :=
  [(.engineCommandAccept 0 false, queuedOn false cmd0), (.engineCommandAccept 0 true, queuedOn true { cmd0 with kind := .mxzero 1 0 1 } roomy),
   (.engineCommandAccept 0 false, slotIs .true (queuedOn false { cmd0 with gs := some 2 })), (.engineCommandAccept 0 false, queuedOn false { cmd0 with gs := some 2 }),
   (.engineCommandAccept 0 false, slotIs .pending (queuedOn false { cmd0 with gs := some 2 })), (.engineCommandAccept 0 false, slotIs .false (queuedOn false { cmd0 with gs := some 2 })),
   (.engineCommandAccept 0 true, slotIs .false (queuedOn true { cmd0 with gs := some 2, kind := .mxlw 0 0 0 false 0 0 } roomy))]
theorem test_accept_witness : meets acceptClaim acceptCases = true := by decide +kernel

def run0 : Cmd := { cmd0 with state := .running }
def copying (credit : Option Nat) (word : Option (Nat × Nat × Nat)) (src : Nat := 0x2000) : Cmd :=
  { run0 with kind := .copy .plain 4 0 1 src 0x100 16 1 16 16 credit word }
/-- The memory of a peer is at 0x2000. -/
def withPeer (s : State) : State := s.setMgmt (fun m => { m with apertures := [(0, (1, 0x2000, 0x1000))] })
def copyStepCases : List (Instr × State) :=
  [(.copySegment 0 7, withCmd run0), (.copySegment 0 7, withPeer (withCmd run0)), (.copySegment 0 7, withPeer (withCmd { run0 with asked := some 0 })),
   (.copySegment 0 7, withCmd { run0 with pos := 3, kind := .copy .plain 4 0 1 0x2000 0x100 16 4 32 64 none none, writes := [(20, 0), (21, 0), (22, 0)] }),
   (.copySegment 0 7, withCmd (copying none none 0x200000000000000)), (.copySegment 0 7, withCmd (copying none none 0x40000000)), (.copySegment 0 7, withCmd (copying none none 0x200000000000000) inLevel),
   (.copySegment 0 7, withCmd { run0 with kind := .copy .gather 4 0 1 0x2000 0x100 16 2 64 0x200 none none }),
   (.copySegment 0 7, withCmd { run0 with kind := .copy .window 4 1 3 0 0x100 16 1 16 16 none none })]
theorem test_copy_step_witness : meets copyStepClaim copyStepCases = true := by decide +kernel

def moved0 (credit : Option Nat) (word : Option (Nat × Nat × Nat)) : Cmd := { copying credit word with pos := 4, writes := [(20, 0), (21, 0), (22, 0), (23, 0)] }
def failed0 (credit : Option Nat) : Cmd := { copying credit none with failed := some (.accessFault, 0x2000), failedAt := 900 }
def copyEndCases : List (Instr × State) :=
  [(.copyFailure 0 7, withCmd (failed0 none)), (.copyFailure 0 7, withCmd (failed0 (some 1))), (.copyFailure 0 7, withCmd (failed0 (some 1)) world),
   (.barrierCredit 0 7 0, withCmd (moved0 (some 1) none)), (.barrierCredit 0 7 0, withCmd (moved0 (some 15) none) (blk (fun b => { b with scratchSize := 64 }) wide)),
   (.rangeRetire 0 7, withCmd (moved0 none none) (ranged wide)), (.rangeRetire 0 7, withCmd (moved0 (some 1) none) (ranged wide)),
   (.rangeRetire 0 7, withCmd { run0 with kind := .mxdrain ⟨none, .s 2, .sz, 0, 0, 0, .none, 0, 0, 0⟩ 0x100 0 true, pos := 1 } (ranged wide)),
   (.completionWordWrite 0 7, withCmd (moved0 none (some (0x3000, 9, 6)))), (.completionWordWrite 0 7, withCmd { moved0 none (some (0x3000, 9, 3)) with failed := some (.accessFault, 0) }),
   (.cdoneComplete 0 7, withCmd { run0 with kind := .cdone 0x3000 9 6 [] }),
   (.cdoneComplete 0 7, { wide with nextId := 30, cmds := [(6, { moved0 none none with state := .ended, failed := some (.pageFault, 0) }), (7, { run0 with kind := .cdone 0x3000 9 6 [6] })] })]
theorem test_copy_end_witness : meets copyEndClaim copyEndCases = true := by decide +kernel

def failing (s : State) : State := grp (fun g => { g with fails := [⟨7, .accessFault, 0x2000⟩] }) (parked (.sbwait none) s)
def deliveryCases : List (Instr × State) :=
  [(.engineFailureDelivery 0, failing wide), (.engineFailureDelivery 0, failing inLevel), (.engineFailureDelivery 0, failing world)]
theorem test_delivery_witness : meets deliveryClaim deliveryCases = true := by decide +kernel

def mx (kind : CmdKind) (s : State := roomy) : State := withCmd { run0 with kind := kind } s
def planeCases : List (Instr × State) :=
  [(.mxlwFill 0 7, mx (.mxlw 0 0 0 false 0 0x4000)), (.mxlwFill 0 7, withCmd { run0 with kind := .mxlw 0 0 0 false 0 0x4000, discarded := true } roomy),
   (.mxlwFillEnd 0 7, withCmd { run0 with kind := .mxlw 0x24 1 0x8000 true 1 0x4000, fillEnd := some 1000 } roomy),
   (.mxswapExchange 0 7 0, mx (.mxswap 3)), (.mxswapExchange 0 7 1, withCmd { run0 with kind := .mxswap 3, credited := [0] } roomy)]
theorem test_plane_witness : meets planeClaim planeCases = true := by decide +kernel

def loop0 : CmdKind := .mxloop 0 0 0 1 0 2 0 0x4000 2 0x1000 0x4000 0 96 [12288]
def kStepCases : List (Instr × State) :=
  [(.kStep 0 7, mx loop0), (.kStep 0 7, withCmd { run0 with kind := loop0, discarded := true } roomy),
   (.kStep 0 7, withCmd { run0 with kind := loop0, pos := 1, fillEnd := some 1000 } roomy), (.kStep 0 7, withCmd { run0 with kind := loop0, replay := true } roomy)]
theorem test_k_step_witness : meets kStepClaim kStepCases = true := by decide +kernel
def verdictCases : List (Instr × State) :=
  [(.checksumVerdict 0 7 0, withCmd { run0 with kind := loop0, pos := 1, sums := [(0, .fin 3 0), (257, .fin (-2) 1)], checks := [(0, .fin 3 0), (1, .fin (-4) 0)] } roomy),
   (.checksumVerdict 0 7 0, withCmd { run0 with kind := loop0, pos := 1, sums := [(0, .fin 3 0)] } roomy),
   (.checksumVerdict 0 7 1, withCmd { run0 with kind := loop0, pos := 1 } roomy), (.checksumVerdict 0 7 15, withCmd { run0 with kind := loop0, pos := 1, replay := true } roomy),
   (.checksumVerdict 0 7 0, withCmd { run0 with kind := loop0, pos := 2, passed := 1, sums := [(65536, .fin 3 0)], checks := [(256, .fin 3 0)] } roomy)]
theorem test_verdict_witness : meets verdictClaim verdictCases = true := by decide +kernel

def drain0 (dst : Tgt) (epi : Epi) : CmdKind := .mxdrain ⟨none, dst, .sz, if epi = .cvt then 0x24 else 0, 0, 0, epi, 0, 0, 0⟩ 0x100 0 (epi != .silu)
def drainCases : List (Instr × State) :=
  [(.mxdrainExecute 0 7, mx (drain0 (.s 2) .none)), (.mxdrainExecute 0 7, mx (drain0 (.s 2) .cvt)),
   (.mxdrainExecute 0 7, { mx (drain0 (.v 16) .relu) with toks := [(20, { tok0 with lanes := 15, dst := none })] }),
   (.mxdrainExecute 0 7, mx (drain0 (.v 16) .silu)), (.mxzeroExecute 0 7, mx (.mxzero 3 62 2))]
theorem test_drain_witness : meets drainClaim drainCases = true := by decide +kernel

/-! ### Witnesses: collectives and experts -/

def coll0 : Coll :=
  { core := 0, gid := 0, blk := 0, pasid := 0, die := 0, typ := 0, op := 0, scope := 6, retries := 1, d := 0x3000, a := 0x2000, b := 0x2400, count := 4,
    word := 0x3800, seq := 9, timeout := 500, gs := none, lanes := 7, obs := [], wait := [], discarded := false, accepted := false, summed := false, scrambled := false, done := false, members := 0, rank := 0,
    ctag := 0, acc := [], got := [], out := [], writes := [], failed := none, tag := none }
/-- A collective that has been sent, with a record of two members at 0x2000. -/
def sentColl (k : Coll) : State :=
  let s := writeNat (writeNat wide 0x2000 2 (2 + 256 * k.rank)) (0x2010 + 2 * (1 - k.rank)) 2 7
  { s with colls := [(50, k)], nextId := 60, queue := [{ entry0 with dest := .coll 0, payload := .coll 50 }] }
/-- The same at the head of its core's queue. -/
def headColl (k : Coll) : State := { sentColl k with queue := [] }.setCore 0 (fun c => { c with collQ := [50] })
def collAcceptCases : List (Instr × State) :=
  [(.collAccept 50, sentColl coll0), (.collAccept 50, (sentColl coll0).setCore 0 (fun c => { c with collQ := List.range 32 })),
   (.collAccept 50, headColl coll0), (.collAccept 50, headColl { coll0 with op := 1, rank := 1 }), (.collAccept 50, { headColl coll0 with mem := wide.mem }),
   (.collAccept 50, headColl { coll0 with a := 0x2008 }), (.collAccept 50, headColl { coll0 with a := 0x40000000 }), (.collAccept 50, headColl { coll0 with a := 2 ^ 60 }),
   (.collAccept 50, headColl { coll0 with gs := some 2 }), (.collAccept 50, slotIs .false (headColl { coll0 with gs := some 2 })),
   (.collAccept 50, sentColl { coll0 with accepted := true, members := 2 })]
theorem test_coll_accept_witness : meets collAcceptClaim collAcceptCases = true := by decide +kernel

def member (rank op : Nat) (f : Coll → Coll := id) : State :=
  sentColl (f { coll0 with rank := rank, op := op, accepted := true, summed := true, members := 2, acc := List.replicate 16 1, out := [(1 - rank, 1, 500)] })
def collStepCases : List (Instr × State) :=
  [(.collStepAck 50 1 ⟨0, 2, 0, []⟩, member 0 2), (.collStepAck 50 1 ⟨0, 2, 0, List.replicate 16 3⟩, member 0 2), (.collStepAck 50 0 ⟨0, 1, 0, List.replicate 16 3⟩, member 1 1),
   (.collStepAck 50 1 ⟨0, 0, 0, [3]⟩, member 0 0), (.collStepAck 50 1 ⟨1, 0, 0, List.replicate 16 3⟩, member 0 0), (.collStepAck 50 1 ⟨0, 2, 0, List.replicate 16 3⟩, member 0 0),
   (.collStepAck 50 1 ⟨0, 0, 1, List.replicate 16 3⟩, member 0 0),
   (.collStepAck 50 1 ⟨0, 0, 0, List.replicate 16 3⟩, member 0 0 (fun k => { k with d := 0x40000000 })), (.collStepAck 50 1 ⟨0, 0, 0, List.replicate 16 3⟩, member 0 0 (fun k => { k with d := 2 ^ 60 })),
   (.collContributionArrival 50 1 ⟨0, 1, 0, List.replicate 16 3⟩, member 0 1), (.collContributionArrival 50 1 ⟨0, 1, 0, []⟩, member 0 1),
   (.collContributionArrival 50 1 ⟨0, 1, 0, List.replicate 16 3⟩, member 0 1 (fun k => { k with members := 3 , out := [] })),
   (.collStepTimeout 50 ⟨1, .late⟩, member 0 0), (.collStepTimeout 50 ⟨1, .late⟩, member 0 0 (fun k => { k with out := [(1, 0, 400)] })),
   (.collStepTimeout 50 ⟨1, .refused⟩, member 0 0 (fun k => { k with out := [(1, 1, 999)] })), (.collStepTimeout 50 ⟨1, .gone⟩, member 0 0 (fun k => { k with out := [] })),
   (.collComplete 50, member 0 0 (fun k => { k with got := [1], out := [] })), (.collComplete 50, member 0 0 (fun k => { k with failed := some 0x41 })),
   (.collComplete 50, sentColl { coll0 with accepted := true, failed := some 0x40, done := false })]
theorem test_coll_step_witness : meets collStepClaim collStepCases = true := by decide +kernel

/-- Expert 1 of the directory in a state, with a size, pins, and its pool at 0x100000, 0x20000 bytes long. -/
def expert (state size pins : Nat) (s : State := withDir) : State :=
  let s := writeNat (writeNat s 0x8004 4 10) 0x8008 8 0x100000
  let s := writeNat (writeNat s 0x8010 8 0x200000) 0x8018 8 0x20000
  writeNat (writeNat (writeNat s 0x8080 1 state) 0x8098 4 size) 0x809C 4 pins
def ask (k : AKind) : Acc := { write0 with kind := k, va := 0x8080, pa := 0x8080, size := 64, data := 1, data2 := 0x8000, lane := 32, lanes := 7, scope := 6, stage := .arrived }
def asked (k : AKind) (s : State) : Instr × State := (.class5RequestApply [9], holding [ask k] s)
def entryCases : List (Instr × State) :=
  [asked (.xfetch false) (expert 0 128 0), asked (.xfetch true) (expert 0 128 0), asked (.xfetch true) (expert 0 128 0xFFFFFFFF), asked (.xfetch false) (expert 1 128 0),
   asked (.xfetch false) (expert 2 0 0), asked (.xfetch false) (expert 2 0x20080 0), asked (.xfetch true) (expert 2 0x20000 0), asked (.xfetch false) (expert 4 128 0),
   asked (.xfetch false) ((expert 4 128 0).setDie 0 (fun d => { d with dirs := [] })),
   asked .xpin (expert 2 128 0), asked .xpin (expert 0 128 0xFFFFFFFF), asked .xunpin (expert 0 128 1), asked .xunpin (expert 0 128 0)]
   ++ [0, 1, 2, 3, 4, 5, 6].map (fun n => asked (.xstat n) (expert 0 128 0))
theorem test_entry_witness : meets entryClaim entryCases = true := by decide +kernel

def serving (s : State) (q f : List Fetch) : State := s.setDie 0 (fun d => { d with fetchQ := q, fetching := f })
def expertEventCases : List (Instr × State) :=
  [(.xcntApply [9], holding [ask .xcnt] (expert 0 128 0)), (.xcntApply [9, 10], holding [ask .xcnt, { ask .xcnt with id := 10, gid := some 1, data := 0xFFFFFFFF }] (expert 0 128 0)),
   (.fetchQueueServe 0, serving (expert 1 128 0) [⟨0x8000, 1, 0, []⟩] []), (.fetchQueueServe 0, serving (writeNat (expert 1 0x20000 0) 0x8058 4 128) [⟨0x8000, 1, 0, []⟩] []),
   (.expertFetchComplete 0 0, serving (writeNat (expert 1 128 0) 0x8090 8 0x5000) [] [⟨0x8000, 1, 0, []⟩]),
   (.expertFetchComplete 0 0, serving ((writeNat (expert 1 128 0) 0x8090 8 0x5000).setLine 0x2000 (fun n => { n with expiry := 64, dir := [(2, .s)] })) [] [⟨0x8000, 1, 0, []⟩]),
   (.expertFetchComplete 0 0, serving (writeNat (expert 1 128 0) 0x8090 8 0x5000) [] [⟨0x8000, 1, 128, []⟩]),
   (.expertFetchComplete 0 0, (serving (writeNat (expert 1 128 0) 0x8090 8 0x5000) [] [⟨0x8000, 1, 128, []⟩]).setLine 0x101 (fun n => { n with dir := [(1, .s)] })),
   (.fetchQueueServe 0, (serving (expert 1 128 0) [⟨0x8000, 1, 0, []⟩] []).setLine 0x101 (fun n => { n with dir := [(1, .s)] })),
   (.expertFetchFail 0 0 true, serving (writeNat (expert 1 128 0) 0x8082 1 1) [] [⟨0x8000, 1, 0, []⟩]), (.expertFetchFail 0 0 false, serving (writeNat (expert 1 128 0) 0x8090 8 0xE0000000000) [] [⟨0x8000, 1, 0, []⟩])]
theorem test_expert_event_witness : meets expertEventClaim expertEventCases = true := by decide +kernel

/-! ### Witnesses: the management unit and the host -/

/-- A command of a code at the head of the ring at 0xC000, with its completion word at 0x3000. -/
def cmdAt (code : Nat) (s : State := wide) : State :=
  (writeNat (writeNat (writeNat s 0xC000 1 code) 0xC008 8 0x3000) 0xC010 8 9).setMgmt (fun m => { m with cmdBase := 0xC000, cmdProd := 1 })
def settingCases : List (Instr × State) :=
  [(.queue 63 0x10000 4 true 0x11000 0x11008, cmdAt 1), (.queue 63 0x10000 4 true 0x11000 0x11008, claimedBy5 0x220 (cmdAt 1)),
   (.queue 64 0x10000 4 true 0x11000 0x11008, cmdAt 1), (.queue 0 0x10000 17 true 0x11000 0x11008, cmdAt 1),
   (.space 5 0x40000000 0, cmdAt 2), (.space 5 0x40000000 0, writeNat (cmdAt 2) 0xC001 1 1), (.inval 0 0x10000 16, { cmdAt 3 with tlb := [⟨0, 1, 16, 1, true, true, true, false⟩, ⟨0, 2, 16, 2, true, true, true, false⟩] }),
   (.inval 0 0 15, cmdAt 3), (.faultq 0x10000 4 0x11000 0x11008, cmdAt 4), (.faultq 0x10000 4 0x11000 0x11008, { cmdAt 4 with faults := [⟨5, 0, 0x2000, 0, 0, false⟩] }),
   (.evlog 3 0x10000 20 0x11000 0x11008, cmdAt 9), (.evlog 4 0x10000 20 0x11000 0x11008, cmdAt 9), (.selftest 100, cmdAt 13), (.selftest 99, cmdAt 13),
   (.arm 0x7E, cmdAt 14), (.arm 1, cmdAt 14), (.peer 9 0 0 0, cmdAt 15), (.peer 9 15 0x1000000000000 0x1000, cmdAt 15), (.peer 9 16 0x1000000000000 0x1000, cmdAt 15),
   (.attest 0x4000 0x4100, cmdAt 16), (.attest 0x4000 0x4100, claimedBy5 0x80 (cmdAt 16)), (.attest 0x4000 0x4100, claimedBy5 0x82 (cmdAt 16)), (.attest 0xE0000000000 0x4100, cmdAt 16)]
theorem test_setting_witness : meets settingClaim settingCases = true := by decide +kernel

def stopped (f : Group → Group := id) (s : State := wide) : State :=
  { cmdAt 5 (grp (fun g => f { g with desched := some ⟨5, 0, 0x2000, 7⟩ }) s) with faults := [⟨5, 0, 0x2000, 0, 0, true⟩] }
def answerCases : List (Instr × State) :=
  [(.answer 5 false, { stopped with cmds := [(7, { run0 with tag := some 5 })] }), (.answer 6 false, stopped), (.answer 5 true, stopped)]
theorem test_answer_witness : meets answerClaim answerCases = true := by decide +kernel

def biasCases : List (Instr × State) :=
  [(.biasToHost 0x50000, cmdAt 6), (.biasToHost 0x50001, cmdAt 6), (.biasToHost 0xE0000000000, cmdAt 6), (.biasToHost 0x50000, { cmdAt 6 with bias := [(5, true)] }),
   (.biasToHost 0x50000, wide.setMgmt (fun m => { m with job := some (.bias ⟨5⟩, 0x3000, 9) })), (.biasToDevice 0x50000, { cmdAt 6 with bias := [(5, true)] }),
   (.biasToDevice 0x50000, cmdAt 6), (.biasToDevice 0x8000, cmdAt 6 withDir)]
theorem test_bias_witness : meets biasClaim biasCases = true := by decide +kernel

/-- A directory of one expert at 0x8000 that may be registered. -/
def offered : State :=
  writeNat ({ expert 0 0 0 (writeNat wide 0x8000 4 1) with cores := [] }) 0x8040 1 2
def directoryCases : List (Instr × State) :=
  [(.expreg 0x8000, cmdAt 7 offered), (.expreg 0x8000, cmdAt 7 (claimedBy5 0x100 offered)), (.expreg 0x8001, cmdAt 7 offered), (.expreg 0x8000, cmdAt 7 wide), (.expwd 0x8000, cmdAt 8 withDir), (.expwd 0x9000, cmdAt 8 withDir),
   (.expwd 0x8000, cmdAt 8 (serving withDir [⟨0x8000, 2, 0, []⟩] [⟨0x8000, 1, 0, []⟩])), (.expwd 0x8000, (serving withDir [⟨0x8000, 2, 0, []⟩] []).setMgmt (fun m => { m with job := some (.expwd 0 0x8000, 0x3000, 9) }))]
theorem test_directory_witness : meets directoryClaim directoryCases = true := by decide +kernel

def asleep : State := (wide.setDie 2 (fun d => { d with awake := false })).setDie 0 (fun d => { d with time := 7 })
def sleepCases : List (Instr × State) :=
  [(.sleepEnter 2, cmdAt 12), (.sleepEnter 0, cmdAt 12), (.sleepEnter 2, cmdAt 12 asleep), (.sleepEnter 4, cmdAt 12), (.sleepWake 2, cmdAt 12 asleep), (.sleepWake 0, cmdAt 12), (.sleepWake 4, cmdAt 12)]
theorem test_sleep_witness : meets sleepClaim sleepCases = true := by decide +kernel

def bar0Cases : List (Instr × State) :=
  [(.cmdprodWrite 1, { cmdAt 1 with mgmt := { (cmdAt 1).mgmt with cmdProd := 0 } }), (.cmdprodWrite 0, wide), (.cmdprodWrite 1, wide.setMgmt (fun m => { m with recovery := true })),
   (.bar0RegisterWrite 0x700000 0xFFFFFFFFFFFFFFFF, wide), (.bar0RegisterWrite 0x700008 5, wide), (.bar0RegisterWrite 0x700010 0, wide), (.bar0RegisterWrite 0x700020 1200, wide),
   (.bar0RegisterWrite 0x700020 2601, wide), (.bar0RegisterWrite 0x700018 5, wide), (.bar0RegisterWrite 0x700000 0, wide.setMgmt (fun m => { m with recovery := true }))]
theorem test_bar0_witness : meets bar0Claim bar0Cases = true := by decide +kernel

def outsideCases : List (Instr × State) :=
  [(.hostCxlMemAccess false 0x5000 [1], wide), (.hostCxlMemAccess true 0x503F [1], wide), (.hostCxlMemAccess true 0x1000000000000 [1, 2], wide),
   (.hostCxlMemAccess true 0x50000 [1, 2], { wide with bias := [(5, true)] }), (.peerAccessArrival false 0x5000 [], wide), (.peerAccessArrival true 0x5000 (List.replicate 128 1), wide),
   (.linkLevelRetry 17, wide)]
theorem test_outside_witness : meets outsideClaim outsideCases = true := by decide +kernel

/-! ### Witnesses: stops, images, watchdogs and firmware -/

def testing (ms time : Nat) : State := (wide.setMgmt (fun m => { m with selftestMs := ms })).setDie 0 (fun d => { d with time := time })
def stopCases : List (Instr × State) :=
  [(.preemption [0], wide), (.preemption [0, 5], blk (fun b => { b with stop := some (.halt 1) }) wide), (.preemption [0], grp (fun g => { g with npe := some 0 }) wide),
   (.selftestDue 0, testing 100 140000000), (.selftestDue 0, testing 100 139999999), (.selftestDue 63, wide),
   (.selftestComplete 1 false, { wide with bents := [(1, { Bent.reset with testing := some 7 })] }), (.selftestComplete 0 true, { wide with bents := [(0, { Bent.reset with testing := some 7 })] }),
   (.thermalLimit 94, wide), (.thermalLimit 95, wide), (.thermalLimit 105, wide), (.thermalLimit 115, wide)]
theorem test_stop_witness : meets stopClaim stopCases = true := by decide +kernel

/-- The block has stopped at a boundary. -/
def atStop (k : StopKind) : State :=
  grp (fun g => { g with stopped := true }) (blk (fun b => { b with stop := some k }) { wide with mem := Map.put wide.mem (scratchAddr 0 8) 5 })
/-- The block has been sealed, and what it left is an image. -/
def away (k : StopKind) : State :=
  match exec (.imageSeal 0) (atStop k) with
  | .next t => t
  | _ => atStop k
def imageCases : List (Instr × State) :=
  [(.imageSeal 0, atStop .preempt), (.imageSeal 0, atStop (.halt 7)), (.imageSeal 0, atStop .checkpoint), (.checkpt 0 0x10000 0x10000, cmdAt 10), (.checkpt 5 0x10000 0x10000, cmdAt 10),
   (.checkpt 0 0x10000 0x10000, cmdAt 10 { wide with blocks := [], groups := [] }), (.checkpt 0 0x10000 0x10000, wide.setMgmt (fun m => { m with job := some (.bias ⟨5⟩, 0, 0) })),
   (.checkpt 0 0x10000 0x10000, { wide.setMgmt (fun m => { m with job := some (.checkpt 0 0x10000 0x10000 1 [] 0xC000, 0x3000, 9) }) with blocks := [], groups := [] }),
   (.checkpt 0 0x10000 0x10000, cmdAt 10 (atStop (.halt 7))),
   (.imageSeal 0, claimedBy5 0x200 ((atStop .preempt).setMgmt (fun m => { m with job := some (.checkpt 0 0x10000 0x100000 1 [] 0xC000, 0x3000, 9) }))),
   (.imageSeal 0, (atStop (.halt 7)).setMgmt (fun m => { m with job := some (.checkpt 0 0x10000 0x100000 1 [] 0xC000, 0x3000, 9) })),
   (.resume 0 0 [(5, 3)], cmdAt 11 (away (.halt 7))), (.resume 9 0 [(5, 3)], cmdAt 11 (away (.halt 7))), (.resume 0 0x10000 [], cmdAt 11 (claimedBy5 0x200 wide)), (.resume 0 0x10000 [], cmdAt 11),
   (.blockResume 0 7 2, away .preempt), (.blockResume 0 0 0, away .preempt), (.blockResume 0 7 2, blk (fun b => { b with stop := some (.halt 7) }) (away .preempt))]
theorem test_image_witness : meets imageClaim imageCases = true := by decide +kernel

def logging (f : Die → Die) : State :=
  wide.setDie 0 (fun d => f { d with log := some ⟨0x10000, 4, 0x11000, 0x11008⟩, events := [⟨5, 1, 0, 0, 7, 8⟩] })
def latching (f : Core → Core) : State :=
  { (wide.setCore 0 f).setDie 0 (fun d => { d with armed := 0x02 }) with triggers := [⟨0, true⟩] }
def watchCases : List (Instr × State) :=
  [(.npeWatchdogExpiry 0, wide), (.npeWatchdogExpiry 0, (grp (fun g => { g with npe := some 5 }) wide).setDie 0 (fun d => { d with time := 8405 })),
   (.npeWatchdogExpiry 0, (grp (fun g => { g with npe := some 5 }) wide).setDie 0 (fun d => { d with time := 8404 })),
   (.npeWatchdogExpiry 0, (paired (grp (fun g => { g with npe := some 5 }) wide)).setDie 0 (fun d => { d with time := 8405 })),
   (.eventRecordWrite 0, wide), (.eventRecordWrite 0, logging (fun d => { d with corrected := [(⟨4, 2, 0, 0, 7, 8⟩, 0)] })), (.eventRecordWrite 0, logging id), (.eventRecordWrite 0, claimedBy5 0x200 (logging id)), (.eventRecordWrite 0, claimedBy5 0x220 (logging id)), (.eventRecordWrite 0, logging (fun d => { d with dropped := 3, logProd := 15 })),
   (.eventRecordWrite 0, logging (fun d => { d with logProd := 16 })), (.eventRecordWrite 0, logging (fun d => { d with awake := false })),
   (.externalTrigger, wide), (.externalTrigger, wide.setDie 0 (fun d => { d with awake := false })), (.externalTrigger, { wide with triggers := [⟨9, false⟩] }), (.externalTrigger, { wide with triggers := [⟨0, false⟩] }),
   (.snapshotLatch 0 0 0, wide), (.snapshotLatch 0 0 0, latching (fun k => { k with snapArm := true, snapExt := true })), (.snapshotLatch 0 0 0, latching (fun k => { k with snapArm := true })),
   (.snapshotLatch 0 1 63, latching id), (.snapshotLatch 0 5 0, latching id), (.powerReport 1200 60, wide), (.powerReport 1200 60, wide.setDie 0 (fun d => { d with time := 1 }))]
theorem test_watch_witness : meets watchClaim watchCases = true := by decide +kernel

def firmwareCases : List (Instr × State) :=
  [(.powerOnReset [], wide), (.powerOnReset [⟨[], 1, 1, 1⟩], wide), (.firmwareUpload [⟨[], 1, 1, 1⟩], wide), (.firmwareUpload [⟨[], 1, 1, 1⟩], wide.setMgmt (fun m => { m with recovery := true }))]
theorem test_firmware_witness : meets firmwareClaim firmwareCases = true := by decide +kernel

/-! ### Witnesses: rollback, accepts and conversations -/

/-- The code words of an instruction at a PC. -/
def codeAt (pc : Nat) (i : Instr) (s : State) : State := writeBytes s (4 * pc) (Decode.codeBytes (encode i))
def record0 : RecoveryRecord :=
  { gid := 0, spill := false, em := 15, s := [(2, 0x100)], cm := [], fflags := 0, frm := 0, sbchk := false, backoff := 64, tvec := 0x900, xv := [], gen := [] }
def level0 (n : Nat) : Level :=
  { newLevel 0x30 n 1000 none 0x60 0x90 with records := [record0], lines := [(0xA0, ⟨false, List.replicate 128 7⟩)] }
def f0 (level : Nat) : Failure := { level := level, engine := true, code := 6, value := 0x2000, pc := 0x33, clk := 990, group := 0 }
/-- The innermost of some levels fails. -/
def failed (ls : List Level) : State :=
  grp (fun g => { g with stopped := true }) (blk (fun b => { b with levels := ls, failing := some (f0 ls.length) }) wide)
def rollbackCases : List (Instr × State) :=
  [(.rollbackRestore 0, codeAt 0x90 (.elseby hd 0x60) (failed [level0 2])), (.rollbackRestore 0, codeAt 0x90 (.elseerr hd) (failed [level0 2])),
   (.rollbackRestore 0, failed [level0 2]), (.rollbackRestore 0, failed [level0 1]), (.rollbackRestore 0, failed [level0 1, level0 1]),
   (.rollbackRestore 0, codeAt 0x90 (.elseby hd 0x60) (failed [level0 1, level0 8]))]
theorem test_rollback_witness : meets rollbackClaim rollbackCases = true := by decide +kernel

def clocked (n : Nat) (f : Level → Level := id) : State := blk (fun b => { b with levels := [f { level0 2 with clock := n }] }) wide
def clockCases : List (Instr × State) :=
  [(.levelClockLimit 0 1, clocked 1000), (.levelClockLimit 0 1, clocked 999), (.levelClockLimit 0 1, clocked 1000 (fun l => { l with accepting := true })),
   (.levelClockLimit 0 1, clocked 1000 (fun l => { l with accepting := true, conv := some 0x1000 }))]
theorem test_clock_witness : meets clockClaim clockCases = true := by decide +kernel

def accepting (as : List Action) (s : State := wide) : State :=
  { blk (fun b => { b with levels := [{ level0 2 with accepting := true, actions := as }] }) s with claims := [⟨0xA0, 0, 1⟩, ⟨0xA1, 5, 1⟩] }
def acceptCommitCases : List (Instr × State) :=
  [(.acceptCommit 0, accepting []), (.acceptCommit 0, accepting [.unlock 0 2, .spawn 0 0x30 none [(0, 5, 0, [1, 2])]] holder),
   (.acceptCommit 0, accepting [.cdone 7, .unlock 5 2] { wide with cmds := [(7, { cmd0 with depth := 1, state := .ended, kind := .cdone 0x3000 9 6 [] })] })]
theorem test_accept_commit_witness : meets acceptCommitClaim acceptCommitCases = true := by decide +kernel

def conversing (word : Nat) (joining : Bool) (cs : List Conv) : State :=
  { writeNat (blk (fun b => { b with levels := [{ level0 2 with conv := some 0x1000, joining := joining, accepting := !joining }] }) wide) 0x1000 8 word with convs := cs }
/-- A conversation word: state, expected, joined, accepted. -/
def cw (st e j a : Nat) : Nat := st * 2 ^ 62 + e * 2 ^ 52 + j * 2 ^ 48 + a * 2 ^ 44
def conversationCases : List (Instr × State) :=
  [(.conversationJoin 0, conversing (cw 0 2 0 0) true []), (.conversationJoin 0, conversing (cw 1 2 1 0) true [⟨0x1000, [5], [], [], none⟩]),
   (.conversationJoin 0, conversing (cw 1 8 1 0) true [⟨0x1000, [5], [], [], none⟩]), (.conversationJoin 0, conversing (cw 2 2 2 0) true [⟨0x1000, [5, 6], [], [], none⟩]),
   (.conversationJoin 0, conversing (cw 0 2 0 0) true ((List.range 256).map (fun n => ⟨0x2000 + 8 * n, [5], [], [], none⟩))), (.conversationJoin 0, conversing (cw 0 2 0 0) false []),
   (.conversationAccept 0x1000, conversing (cw 2 2 2 2 + 0xFFFFFFFF) false [⟨0x1000, [0], [0], [], none⟩]), (.conversationAccept 0x1000, conversing (cw 2 2 2 1) false [⟨0x1000, [0], [0], [], none⟩]),
   (.conversationAccept 0x1000, conversing (cw 2 2 2 2 + 0xFFFFFFFF) false [⟨0x1000, [0], [0], [], some []⟩]), (.conversationAccept 0x1000, conversing (cw 2 2 2 2) false [⟨0x1000, [0], [0], [], some [0]⟩]),
   (.conversationAccept 0x1000, claimedBy5 0x20 (conversing (cw 2 2 2 2) false [⟨0x1000, [0], [0], [], some []⟩])), (.conversationJoin 0, claimedBy5 0x20 (conversing (cw 0 2 0 0) true []))]
theorem test_conversation_witness : meets conversationClaim conversationCases = true := by decide +kernel

/-- The pair, the primary with a result presented at some clk. -/
def checked (since : Nat) (s : State := wide) : State :=
  { paired s with cmps := ((s.groups.get? 0).map (fun g =>
      ({ gid := 0, n := 0, code := 2, items := [(2, 3, 7)], g := g, split := 0, em := 7, act := 7, since := since, waits := false } : Cmp))).toList }
def compareTimeoutCases : List (Instr × State) :=
  [(.shadowCompareTimeout 0, { checked 0 with clk := 65536 }), (.shadowCompareTimeout 0, { checked 0 with clk := 65535 }), (.shadowCompareTimeout 0, { checked 0 inLevel with clk := 65536 }),
   (.shadowCompareTimeout 0, { grp (fun g => { g with issued := 1, issueLog := [1], splits := g.splits ++ g.splits.map (fun p => (1, { p.2 with uid := 9 })) }) (checked 0) with cmps := [] })]
theorem test_compare_timeout_witness : meets compareTimeoutClaim compareTimeoutCases = true := by decide +kernel

/-! ### Witnesses: tasks and locks -/

def sentTask (s : State := wide) : State := { s with tasks := [(3, { task0 with state := .transit })], queue := [entry0] }
def kin (n p : Nat) (st : TaskState) : Nat × Task := (n, { task0 with ident := BitVec.ofNat 64 (0x100 + n), ts := BitVec.ofNat 64 n, parent := p, state := st })
/-- A serving block, its group gone. -/
def servingBlock (ts : List (Nat × Task)) : State := { blk (fun b => { b with serving := true }) wide with groups := [], tasks := ts }
def taskCases : List (Instr × State) :=
  [(.taskRecordAccept 40, sentTask), (.taskRecordAccept 40, sentTask (wide.setDie 0 (fun d => { d with acceptSeq := 15 }))), (.taskRecordAccept 40, sentTask (wide.setDie 0 (fun d => { d with acceptSeq := 16 }))),
   (.taskRecordAccept 40, { sentTask with queue := [{ entry0 with state := .accepted }] }), (.taskBatchDispatch 0 0, servingBlock [kin 3 0 .queued, kin 4 0 .queued]),
   (.taskBatchDispatch 0 5, servingBlock [kin 3 0 .queued]), (.taskGroupForm 0, wide),
   (.taskGroupForm 0, (servingBlock [kin 3 0 .prefetched, kin 4 0 .prefetched]).setCore 0 (fun k => { k with prefetch := [⟨0, 0x30, [3, 4]⟩] })),
   (.taskGroupForm 0, { wide with tasks := [kin 3 0 .prefetched] }.setCore 0 (fun k => { k with prefetch := [⟨0, 0x30, [3]⟩] }))]
theorem test_task_witness : meets taskClaim taskCases = true := by decide +kernel

def frontierCases : List (Instr × State) :=
  [(.frontierRound, wide), (.frontierRound, { wide with tasks := [kin 3 0 .finished, kin 4 0 .running, kin 5 4 .transit], queue := [{ entry0 with payload := .task 5 }] }),
   (.frontierRound, wide.setDie 0 (fun d => { d with time := 1 })), (.frontierReceive 0, wide),
   (.frontierReceive 2, { wide with round := 1 }), (.frontierReceive 0, { wide with round := 1, roundTasks := [3], tasks := [(3, { task0 with state := .finished, buf := [(0x5000, 7)] })] }),
   (.frontierReceive 0, { wide with round := 1, roundTasks := [3, 4], tasks := [(3, { task0 with state := .finished }), kin 4 0 .finished] }),
   (.frontierReceive 0, { wide with round := 1, roundG := (4, 0x104), tasks := [kin 4 0 .marked] }),
   (.frontierReceive 0, { wide with round := 1, roundG := (4, 0x104), tasks := [kin 3 0 .queued, kin 4 3 .marked] })]
/-- Source: 24_tasks_notes, "Which outcomes can differ": task 25 does not become the frontier pair while task 20 is uncommitted. -/
theorem test_frontier_waits_for_lower :
    (match exec (.frontierReceive 0) { wide with round := 1, roundG := (4, 0x104), tasks := [kin 3 0 .queued, kin 4 3 .marked] } with
     | .next t => (t.tasks.get? 4).any (fun k => k.state == .marked && !k.frontier)
     | _ => false) = true := by decide +kernel
theorem test_frontier_witness : meets frontierClaim frontierCases = true := by decide +kernel

def lockReq0 : LockReq :=
  { gid := 0, split := 0, n := 0, line := 2, timeout := 100, test := false, dst := some (.s 10), mask := 2, lanes := 7, pc := 0, atLock := false,
    refusedAt := none, late := none }
def asking (r : LockReq) (ps : List Peg) (s : State := wide) : State :=
  { grp (fun g => { g with pend := [⟨5, [.s 10, .cm 2], 7, []⟩] }) s with lockReqs := [(5, r)], pegs := ps, queue := [{ entry0 with dest := .slice 0 2, payload := .lock 5 }] }
def other : Peg := { pegOf 2 1 .holding with req := 8 }
/-- Die 1 may hold line 2. -/
def shared2 (s : State) : State := s.setLine 2 (fun n => { n with dir := [(1, .s)] })
/-- The request, first in its chain. -/
def first5 (st : PegState := .waiting) (left : Option Nat := some 50) : Peg := ⟨2, 0, 0, 5, 0, left, st⟩
def lockArrivalCases : List (Instr × State) :=
  [(.lockRequestArrival 5, asking lockReq0 []), (.lockRequestArrival 5, { asking lockReq0 [] with broken := [2] }), (.lockRequestArrival 5, asking lockReq0 [other]),
   (.lockRequestArrival 5, asking { lockReq0 with test := true } [other]), (.lockRequestArrival 5, asking lockReq0 [{ other with gid := 0 }]),
   (.lockRequestArrival 5, (asking { lockReq0 with refusedAt := some 0 } []).setDie 0 (fun d => { d with time := 100 })), (.lockRequestArrival 5, asking { lockReq0 with timeout := 0 } [other]),
   (.lockRequestArrival 5, (asking { lockReq0 with refusedAt := some 0 } []).setDie 0 (fun d => { d with time := 101 })), (.lockRequestArrival 5, asking lockReq0 [] (wide.setDie 0 (fun d => { d with awake := false }))), (.lockRequestArrival 5, asking lockReq0 [] (wide.setLine 2 (fun n => { n with expiry := 64 }))),
   (.lockRequestArrival 5, asking lockReq0 ((List.range 4096).map (fun n => { other with line := n + 3, req := n + 10 }))),
   (.lockRequestArrival 5, { asking lockReq0 [] with claims := [⟨2, 5, 1⟩] }), (.lockRequestArrival 5, { asking { lockReq0 with test := true } [] with claims := [⟨2, 5, 1⟩] })]
theorem test_lock_arrival_witness : meets lockArrivalClaim lockArrivalCases = true := by decide +kernel

def lockGrantCases : List (Instr × State) :=
  [(.lockGrant 5, asking lockReq0 [first5]), (.lockGrant 5, asking lockReq0 [other, first5]), (.lockGrant 5, asking lockReq0 [{ first5 with state := .holding }]),
   (.lockGrant 5, asking lockReq0 [{ first5 with state := .holding }] (shared2 (wide.setLine 2 (fun n => { n with expiry := 64 })))),
   (.lockGrant 5, { asking lockReq0 [first5] with groups := [] }), (.lockGrant 5, asking lockReq0 []), (.lockGrant 5, { asking lockReq0 [first5] with claims := [⟨2, 5, 1⟩] }),
   (.lockGrant 5, asking lockReq0 [first5 (.reserved 9) none] (wide.setLine 2 (fun n => { n with expiry := 64 }))), (.lockGrant 5, asking lockReq0 [first5 (.reserved 0) none]), (.lockGrant 5, claimedBy5 2 (asking lockReq0 [first5 (.reserved 9) none])),
   (.lockGrant 5, asking lockReq0 [first5 .waiting (some 0)]), (.lockGrant 5, { asking lockReq0 [first5 (.reserved 0) none] with groups := [] })]
theorem test_lock_grant_witness : meets lockGrantClaim lockGrantCases = true := by decide +kernel

def unlocking (gid : Nat) (st : Stage) : Acc := { write0 with kind := .unlock, pa := 0x100, va := 0x100, size := 8, gid := some gid, stage := st, tok := some 20, lane := 32 }
def handoverCases : List (Instr × State) :=
  [(.lockHandover 2, holding [unlocking 0 .arrived] holder), (.lockHandover 2, holding [unlocking 1 .arrived] holder), (.lockHandover 2, holding [unlocking 1 .arrived]), (.lockHandover 2, wide),
   (.lockHandover 2, holder), (.lockHandover 2, { wide with pegs := [pegOf 2 (deadGid 0 0) .holding] }),
   (.lockHandover 2, holding [{ write0 with pa := 0x100, gid := some (deadGid 0 0) }] { wide with pegs := [pegOf 2 (deadGid 0 0) .holding] }),
   (.lockHandover 2, holding [{ write0 with id := 3, pa := 0x100 }, unlocking 0 .arrived] holder), (.lockHandover 2, { wide with pegs := [pegOf 2 (deadGid 0 0) .holding, { other with state := .waiting }] }),
   (.lockHandover 2, holding [unlocking 0 .arrived] { twoGroups wide with pegs := [pegOf 2 0 .holding, { other with state := .waiting }] }),
   (.lockHandover 2, blk (fun b => { b with terminated := some .nesting }) holder)]
theorem test_handover_witness : meets handoverClaim handoverCases = true := by decide +kernel

def w0 (line gid req acc : Nat) : Peg := ⟨line, gid, gid, req, acc, some 0, .waiting⟩
/-- Groups 0 and 1 each hold what the other waits for. -/
def knotted : State :=
  (asking lockReq0 [pegOf 2 0 .holding, { pegOf 3 1 .holding with req := 6 }, w0 3 0 5 10, w0 2 1 8 20]).setDie 0 (fun d => { d with time := 65536 })
def lockEndCases : List (Instr × State) :=
  [(.lockTimeout 0 2, asking lockReq0 [other, w0 2 0 5 10]), (.lockTimeout 0 2, wide), (.lockTimeout 0 2, { asking lockReq0 [other, w0 2 0 5 10] with groups := [] }),
   (.lockReservationExpiry 2, wide), (.lockReservationExpiry 2, { asking lockReq0 [first5 (.reserved 0) none] with groups := [] }),
   (.lockReservationExpiry 2, { asking lockReq0 [first5 (.reserved 1) none] with groups := [] }), (.lockReservationExpiry 2, asking lockReq0 [other, w0 2 0 5 10]),
   (.kneeBraceScan, knotted), (.kneeBraceScan, knotted.setDie 0 (fun d => { d with time := 65537 })), (.kneeBraceScan, wide)]
theorem test_lock_end_witness : meets lockEndClaim lockEndCases = true := by decide +kernel

/-! ### Words of every instruction

Each is written from the fields of R53 and of the instruction's own encoding table; those that the spec prints are its own. -/

/-- Every list of words decodes to its instruction. -/
def spells (l : List (List (BitVec 32) × Instr)) : Bool := l.all (fun x => Decode.decode x.1 == .ok x.2)

def controlWords : List (List (BitVec 32) × Instr) :=
  [([0x0, 0xE00, 0x1C0000], .nop ⟨false, 7, 3, true⟩),
   ([0x12, 0x6C000000, 0x440000], .bra ⟨false, 1, 0, false⟩ 0x12 0x1B),
   ([0xFFFFFFFD, 0x8000000, 0x5E0004], .bra hd 0xFFFFFFFD 0x800102),
   ([0x30, 0x20, 0x9C0010], .brx hd (.s 4) 0x30),
   ([0x0, 0x0, 0x9C0018], .brx hd (.v 6) 0),
   ([0x100, 0x0, 0xE82000], .call ⟨true, 2, 0, false⟩ 8 0x100),
   ([0x0, 0x20, 0x11C20FC], .callx hd 8 (.s 63)),
   ([0x0, 0x0, 0x15C03F8], .ret hd (.v 254)),
   ([0x0, 0x0, 0x1800000], .exit ⟨false, 0, 0, false⟩),
   ([0x80, 0x20, 0x1DC03F8], .trap hd 0x80 .sz),
   ([0x0, 0x0, 0x21C1400], .msave hd (.s 5)),
   ([0xF0F0, 0x20, 0x25C03FC], .mand hd (.src .imm 0xF0F0)),
   ([0x3, 0x1, 0x29C0000], .mor hd (.cm 3)),
   ([0x0, 0x20, 0x2DC0100], .mrest hd (.src (.sp .lane) 0)),
   ([0x60, 0x0, 0x31C0014], .regroup hd 0x60 (.v 5)),
   ([0x0, 0x20, 0x35C000C], .launch hd 3),
   ([0x0, 0x1, 0x35C0030], .launchLane hd 12)]
theorem test_decode_control : spells controlWords = true := by decide +kernel

def integerWords : List (List (BitVec 32) × Instr) :=
  [([0x0, 0x0C001010, 0x20281014], .iadd ⟨true, 2, 4, false⟩ .w32 ⟨m0, .v 4, .v 5, .s 3, 0⟩),
   ([0x64, 0xFC001030, 0x201C141B], .iadd ⟨false, 7, 4, false⟩ .w32 ⟨m0, .s 5, .s 6, .imm, 100⟩),
   ([0x0, 0x2341C002, 0x205C1018], .isub hd .p16 ⟨⟨3, 2, 1, true, true⟩, .v 4, .v 6, .v 8, 0⟩),
   ([0x0, 0x20000003, 0x209C1018], .imul hd .p8 ⟨m0, .v 4, .v 6, .v 8, 0⟩),
   ([0x0, 0x20000005, 0x20DC1018], .imulh hd .w64 true ⟨m0, .v 4, .v 6, .v 8, 0⟩),
   ([0x109, 0x20000008, 0x211C1018], .imad hd .w32 ⟨m0, .v 4, .v 6, .v 8, .s 9, 0⟩),
   ([0x12345678, 0x20000000, 0x211C1018], .imad hd .w32 ⟨m0, .v 4, .v 6, .v 8, .imm, 0x12345678⟩),
   ([0x0, 0x20000000, 0x215C1018], .imin hd .w32 false ⟨m0, .v 4, .v 6, .v 8, 0⟩),
   ([0x0, 0x20000007, 0x219C1018], .imax hd .p8 true ⟨m0, .v 4, .v 6, .v 8, 0⟩),
   ([0x0, 0x1, 0x21DC1018], .iabs hd .w64 ⟨false, m0, .v 4, .v 6, 0⟩),
   ([0x0, 0x20000000, 0x221C1018], .and hd .w32 ⟨m0, .v 4, .v 6, .v 8, 0⟩),
   ([0x0, 0x20000001, 0x225C1018], .or hd .w64 ⟨m0, .v 4, .v 6, .v 8, 0⟩),
   ([0x0, 0x20000000, 0x229C1018], .xor hd .w32 ⟨m0, .v 4, .v 6, .v 8, 0⟩),
   ([0x0, 0x20000000, 0x22DC1018], .andn hd .w32 ⟨m0, .v 4, .v 6, .v 8, 0⟩),
   ([0x0, 0x20000000, 0x231C1018], .shl hd .w32 ⟨m0, .v 4, .v 6, .v 8, 0⟩),
   ([0x0, 0x20000001, 0x235C1018], .shr hd .w64 ⟨m0, .v 4, .v 6, .v 8, 0⟩),
   ([0x0, 0x20000002, 0x239C1018], .sar hd .p16 ⟨m0, .v 4, .v 6, .v 8, 0⟩),
   ([0x1F, 0xFC000010, 0x23DC1017], .rotl hd .w32 ⟨m0, .v 4, .v 5, .imm, 0x1F⟩),
   ([0x0, 0x20000004, 0x241C1018], .bfx hd .w32 true ⟨m0, .v 4, .v 6, .v 8, 0⟩),
   ([0xA, 0x20000009, 0x245C1018], .bfi hd .w64 ⟨m0, .v 4, .v 6, .v 8, .v 10, 0⟩),
   ([0x0, 0x0, 0x249C1018], .popc hd .w32 ⟨false, m0, .v 4, .v 6, 0⟩),
   ([0x0, 0x0, 0x24DC1018], .clz hd .w32 ⟨false, m0, .v 4, .v 6, 0⟩),
   ([0x0, 0x2, 0x251C1018], .brev hd .p16 ⟨false, m0, .v 4, .v 6, 0⟩),
   ([0x0, 0x20000000, 0x254C1018], .sel ⟨false, 3, 0, false⟩ .w32 ⟨m0, .v 4, .v 6, .v 8, 0⟩),
   ([0x0, 0x1020, 0x259C5010], .mov ⟨false, 7, 4, false⟩ .w32 ⟨false, m0, .v 20, .s 4, 0⟩),
   ([0x0, 0x31, 0x259C111C], .mov hd .w64 ⟨true, m0, .s 4, .sp .time, 0⟩),
   ([0x0, 0xC000026, 0x25DC1020], .lea hd 2 true ⟨m0, .v 4, .s 8, .v 3, 0⟩),
   ([0x64, 0xFC000014, 0x261D0C13], .icmp hd .w32 true .lt ⟨m0, 3, .v 4, .imm, 100⟩)]
theorem test_decode_integer : spells integerWords = true := by decide +kernel

def floatWords : List (List (BitVec 32) × Instr) :=
  [([0x0, 0x20000000, 0x401C1018], .fadd hd .f32 ⟨m0, .v 4, .v 6, .v 8, 0⟩),
   ([0x0, 0x20000001, 0x405C1018], .fsub hd .f64 ⟨m0, .v 4, .v 6, .v 8, 0⟩),
   ([0x0, 0x20000002, 0x409C1018], .fmul hd .f16 ⟨m0, .v 4, .v 6, .v 8, 0⟩),
   ([0xB, 0x29631808, 0x40C42024], .ffma ⟨false, 1, 6, false⟩ .f32 ⟨⟨1, 3, 3, false, false⟩, .v 8, .v 9, .v 10, .v 11, 0⟩),
   ([0x0, 0x20000003, 0x411C1018], .fmin hd .bf16 ⟨m0, .v 4, .v 6, .v 8, 0⟩),
   ([0x0, 0x20000004, 0x415C1018], .fmax hd .f16x2 ⟨m0, .v 4, .v 6, .v 8, 0⟩),
   ([0x0, 0x18000001, 0x419F9C10], .fcmp hd .f64 .ord ⟨m0, 7, .v 4, .v 6, 0⟩),
   ([0x0, 0x0, 0x41DC1018], .frcp hd .f32 ⟨false, m0, .v 4, .v 6, 0⟩),
   ([0x0, 0x5, 0x421C1018], .frsq hd .bf16x2 ⟨false, m0, .v 4, .v 6, 0⟩),
   ([0x0, 0x1, 0x425C1018], .fsqrt hd .f64 ⟨false, m0, .v 4, .v 6, 0⟩),
   ([0x0, 0x0, 0x429C1018], .fex2 hd .f32 ⟨false, m0, .v 4, .v 6, 0⟩),
   ([0x0, 0x0, 0x42DC1018], .flg2 hd .f32 ⟨false, m0, .v 4, .v 6, 0⟩),
   ([0x0, 0x0, 0x431C1018], .fsin hd .f32 ⟨false, m0, .v 4, .v 6, 0⟩),
   ([0x0, 0x2, 0x435C1018], .fcos hd .f16 ⟨false, m0, .v 4, .v 6, 0⟩),
   ([0x100224, 0x0, 0x439C5014], .fcvt hd ⟨false, m0, .v 20, .v 5, 0, 1, 0, 0, 0, 8, 0x24⟩),
   ([0x100224, 0x1620000, 0x439C5014], .fcvt hd ⟨false, ⟨1, 3, 2, false, false⟩, .v 20, .v 5, 0, 1, 0, 0, 0, 8, 0x24⟩),
   ([0x48A708B, 0x30, 0x439C5014], .fcvt hd ⟨true, m0, .s 20, .s 5, 9, 0, 5, 0, 7, 2, 11⟩),
   ([0x300, 0x0, 0x43DC0C10], .fcls hd .f32 false m0 3 (.v 4) 0x300),
   ([0x2, 0x1, 0x441C1018], .frnd hd .f64 false m0 (.v 4) (.v 6) 2),
   ([0x0, 0x20000000, 0x445C1018], .fscl hd .f32 ⟨m0, .v 4, .v 6, .v 8, 0⟩)]
theorem test_decode_float : spells floatWords = true := by decide +kernel

def lanesWords : List (List (BitVec 32) × Instr) :=
  [([0x0, 0x20000007, 0x601C1018], .shfl hd .xor true 4 6 (.v 8) 0),
   ([0x503, 0xFC000011, 0x601C101B], .shfl hd .rot false 4 6 .imm 0x503),
   ([0x11, 0x0, 0x605C1018], .vote hd .count (.s 4) 6),
   ([0x18, 0x0, 0x609C1830], .redux hd .fadd 0 (.s 6) 12),
   ([0x0, 0x1, 0x60DC1418], .matchLanes hd true 5 6),
   ([0x103, 0x20000008, 0x611C1018], .prmt hd 4 6 (.v 8) (.s 3) 0)]
theorem test_decode_lanes : spells lanesWords = true := by decide +kernel

def memoryWords : List (List (BitVec 32) × Instr) :=
  [([0x18800010, 0x8000024, 0x801C1010], .ldg hd ⟨.w32, .relaxed, 0, .v 4, ⟨.s 4, .v 2, 2, 0x10, 6⟩⟩),
   ([0x18000000, 0xF8000034, 0x805C1C0F], .stg hd ⟨.w32, .relaxed, 0, .s 7, ⟨.s 3, .sz, 0, 0, 6⟩⟩),
   ([0x483FFFFF, 0xF8000011, 0x809C101B], .lds hd ⟨.i8, .acquire, 0, .v 4, ⟨.v 6, .sz, 0, 0x3FFFFF, 2⟩⟩),
   ([0x8000002, 0xF8000012, 0x80DC241B], .sts hd ⟨.n16, .relaxed, 0, .v 9, ⟨.v 6, .sz, 0, 2, 2⟩⟩),
   ([0x11000000, 0xF8000035, 0x811C302B], .ldw hd ⟨.w64, .relaxed, 1, .s 12, ⟨.s 10, .sz, 0, 0, 4⟩⟩),
   ([0xD8C00000, 0xC000034, 0x815C33F8], .stw hd ⟨.w32, .sc, 0, .s 12, ⟨.sz, .s 3, 3, 0, 6⟩⟩),
   ([0x18000000, 0x10000006, 0x819C3028], .ldc hd ⟨.w128, .relaxed, 0, .v 12, ⟨.v 10, .v 4, 0, 0, 6⟩⟩),
   ([0x18000040, 0x10000002, 0x81DC0028], .pref hd 2 ⟨.v 10, .v 4, 0, 64, 6⟩),
   ([0x98000000, 0x0, 0x821C0000], .fence hd .release 6),
   ([0x24000000, 0x10000021, 0x825C0028], .cflush hd 1 ⟨.s 10, .v 4, 0, 0, 9⟩)]
theorem test_decode_memory : spells memoryWords = true := by decide +kernel

def atomicsWords : List (List (BitVec 32) × Instr) :=
  [([0xD89FFFFC, 0x20000000, 0xA01C1018], .atom hd .fadd ⟨false, .sc, 6, .glb, .v 4, .v 6, .v 8, 0xFFFFC⟩),
   ([0x58000000, 0xF8000031, 0xA05C100F], .acas hd ⟨true, .acquire, 6, .glb, .s 4, .s 3, .sz, 0⟩),
   ([0x89400000, 0x14000030, 0xA09FF80C], .red hd .maxu true ⟨false, .release, 2, .scr, .sz, .s 3, .s 5, 0⟩),
   ([0x18200000, 0xF8000031, 0xA0DC100F], .rdlk hd 2 ⟨true, .relaxed, 6, .glb, .s 4, .s 3, .sz, 0⟩),
   ([0x18700000, 0xF8000031, 0xA11C100F], .rdul hd 7 ⟨true, .relaxed, 6, .glb, .s 4, .s 3, .sz, 0⟩),
   ([0x13100000, 0x14000031, 0xA15C100C], .wrlk hd 1 ⟨true, .relaxed, 4, .mb, .s 4, .s 3, .s 5, 0⟩),
   ([0x12000000, 0xF8000031, 0xA19C100F], .wrul hd 0 ⟨true, .relaxed, 4, .win, .s 4, .s 3, .sz, 0⟩),
   ([0x1802, 0x0, 0xA1DD0000], .barw hd ⟨false, 0, 2⟩ 0x340),
   ([0x8002, 0x1C000010, 0xA1DC0000], .barwWait hd ⟨false, 0, 2⟩ (.s 7)),
   ([0x2, 0x0, 0xA21C0C01], .bara hd ⟨false, 0, 2⟩ (.s 3) 64),
   ([0x20, 0x80000001, 0xA21FF801], .bara hd ⟨true, 1, 0⟩ .sz 96),
   ([0x2004003, 0xFC000010, 0xA25C8003], .barx hd ⟨false, 0, 3⟩ (some 32) .imm 512),
   ([0x3, 0x18000010, 0xA25C0000], .barx hd ⟨false, 0, 3⟩ none (.s 6) 0),
   ([0x200AF0, 0xFC000030, 0xA29C2413], .lock hd 2 (.s 9) 4 .imm 2800),
   ([0x200000, 0x20, 0xA2DC2410], .lockt hd 2 (.s 9) 4),
   ([0x200000, 0x20, 0xA31FF810], .unlock hd 2 .sz 4)]
theorem test_decode_atomics : spells atomicsWords = true := by decide +kernel

def enginesWords : List (List (BitVec 32) × Instr) :=
  [([0x180000, 0xF8000032, 0xC01C2013, 0x100, 4, 0x400, 0x100], .cpy hd ⟨2, none, 0, 0, 1, true, 0, 0, 8, 4, none, pl 0x100 4 0x400 0x100⟩),
   ([0xB9102A00, 0x50000034, 0xC05C2010, 0x10, 0xFFF00003, 0x0, 0x8], .cpyg hd ⟨4, some 3, 9, 0, 1, false, 0, 21, 8, 4, some 20, ⟨.lit 16, .sub 3, .lit 0, .lit 8⟩⟩),
   ([0x7A8000, 0xF8000030, 0xC09C3027, 0x80, 0x1, 0x10000, 0x0], .cpyw hd ⟨0, none, 0, 1, 3, true, 5, 0, 12, 9, none, pl 128 1 0x10000 0⟩),
   ([0x1, 0x20, 0xC0DC1BFC], .gres hd 6 .imm 1),
   ([0x0, 0x1, 0xC0DC1800], .gresFree hd 6),
   ([0x1001234, 0xFC000030, 0xC11C0013], .sbwait hd true (.s 4) .imm 0x1234),
   ([0x0, 0x1, 0xC11C0000], .sbwaitAll hd),
   ([0x8A000000, 0xF8000030, 0xC15C0013], .cdone hd (some 0) 10 4 .sz),
   ([0x920A000, 0x20, 0xC19C0018], .mxlw hd ⟨none, 0x24, 2, 0, true, 1, 6⟩),
   ([0x90003000, 0x0, 0xC1DC0000], .mxswap hd (some 1) 3),
   ([0x87112F, 0x2C000030, 0xC21C0028, 0x2, 0x1000, 0xFFF0003F, 0x20], .mxloop hd ⟨none, 2, 0, 7, 1, 4, 47, 10, 11, ⟨.lit 2, .lit 0x1000, .sub 63, .lit 32⟩⟩),
   ([0x90D302F, 0xF8000030, 0xC25C0033], .mxdrain hd ⟨none, .s 12, .sz, 0x24, 1, 2, .cvt, 3, 0, 47⟩),
   ([0x9141, 0xF8000031, 0xC25CA3FB], .mxdrain hd ⟨none, .v 40, .sz, 0, 0, 0, .relu, 1, 5, 1⟩),
   ([0xF03F, 0x0, 0xC29C0000], .mxzero hd none 15 0 63),
   ([0xB00000, 0x14000030, 0xC2DC2410], .xfetch hd true ⟨3, .s 9, 4, .s 5, 0⟩),
   ([0x1, 0x20, 0xC31C0010], .xcnt hd 4 (.v 0) .imm 0 1),
   ([0x2203, 0xFC000038, 0xC31C0013], .xcnt hd 4 .imm (.v 3) 17 0),
   ([0x200011, 0xFC000030, 0xC35C2413], .xpin hd ⟨2, .s 9, 4, .imm, 17⟩),
   ([0x200000, 0x14000030, 0xC39FF810], .xunpin hd ⟨2, .sz, 4, .s 5, 0⟩),
   ([0x700000, 0x18000036, 0xC3DC2811], .xstat hd 6 ⟨7, .s 10, 4, .sp .die, 0⟩),
   ([0x7030001, 0x14000030, 0xC41C1810, 0x10, 0x2000, 0x9, 0x64], .coll hd ⟨0, none, 7, 3, 1, 6, 4, 5, pl 16 0x2000 9 100⟩)]
theorem test_decode_engines : spells enginesWords = true := by decide +kernel

def class7Words : List (List (BitVec 32) × Instr) :=
  [([0x600090, 0xF8000031, 0xE01C0053], .ensure hd 1 20 .sz 0x60 0x90),
   ([0xFFFFFF, 0x0, 0xE05C0000], .elseby hd 0xFFFFFF),
   ([0x0, 0x0, 0xE09C0000], .elseerr hd),
   ([0x0, 0x0, 0xE0DC0000], .accept hd),
   ([0x0, 0x20, 0xE12403F8], .reject ⟨true, 1, 0, false⟩ .sz),
   ([0x0, 0x20, 0xE15C001C], .conv hd 7),
   ([0x0, 0x20, 0xE19C001C], .convx hd 7),
   ([0x30, 0x0, 0xE1DC0050], .spawn hd (.v 20) none 0x30),
   ([0x6FFFFFFD, 0x20, 0xE1DC011C], .spawn hd (.sp .time) (some 2) 0xFFFFFFD),
   ([0x0, 0x0, 0xE21C0000], .tend hd),
   ([0x0, 0x0, 0xE2500000], .tabort ⟨false, 4, 0, false⟩),
   ([0x20, 0x0, 0xE29C0C00], .csrr hd (.s 3) .fflags),
   ([0x3F, 0x20, 0xE2DC0010], .csrwWr hd (.xv 15) (.s 4)),
   ([0x50, 0x21, 0xE2DC0010], .csrwSet hd .snapctl (.s 4)),
   ([0x4, 0x22, 0xE2DC03F8], .csrwClr hd .tvec .sz),
   ([0x0, 0x0, 0xE31C0000], .npe hd),
   ([0x0, 0x0, 0xE35C0000], .pen hd),
   ([0x0, 0x0, 0xE39C0C00], .snap hd (.s 3)),
   ([0x0, 0x0, 0xE3DC0000], .tret hd),
   ([0x55, 0x0, 0xE41C0000], .halt hd 0x55)]
theorem test_decode_class7 : spells class7Words = true := by decide +kernel

/-! ### Terms and words that a check refuses -/

def illFormed : List Instr :=
  [.nop ⟨true, 7, 0, false⟩, .brx hd (.v 5) 0, .call hd 9 3, .trap hd 0x7F .sz, .trap hd 0x80 .imm, .msave hg .sz, .msave hd (.v 3), .mand hd (.src (.v 2) 0),
   .mor hd (.src .sz 1), .regroup hd 3 .imm, .launchLane hd 3,
   .iadd hd .w64 ⟨m0, .v 9, .v 2, .v 4, 0⟩, .iadd hd .w64 ⟨m0, .v 8, .v 3, .v 4, 0⟩, .iadd hd .w32 ⟨m0, .s 8, .v 3, .v 4, 0⟩, .iadd hd .w32 ⟨m0, .v 8, .s 3, .s 4, 0⟩,
   .iadd hd .w32 ⟨m0, .v 8, .v 3, .v 4, 1⟩, .iadd hd .w32 ⟨m0, .s 8, .imm, .imm, 1⟩, .iadd hd .w32 ⟨⟨0, 1, 0, false, false⟩, .v 8, .v 3, .v 4, 0⟩,
   .iadd hd .w32 ⟨⟨1, 6, 0, false, false⟩, .v 8, .v 3, .v 4, 0⟩, .iadd hd .w32 ⟨⟨1, 2, 4, false, false⟩, .v 8, .v 3, .v 4, 0⟩,
   .iadd hd .w32 ⟨⟨1, 2, 3, false, false⟩, .v 8, .s 3, .v 4, 0⟩, .and hd .w32 ⟨⟨0, 0, 0, true, false⟩, .v 8, .v 3, .v 4, 0⟩, .and hd .p16 ⟨m0, .v 8, .v 3, .v 4, 0⟩,
   .imad hd .w32 ⟨m0, .v 8, .imm, .v 4, .v 5, 1⟩, .bfx hd .p8 false ⟨m0, .v 8, .v 3, .v 4, 0⟩, .mov hd .w32 ⟨true, m0, .s 8, .v 3, 0⟩,
   .lea hd 1 false ⟨m0, .v 7, .v 2, .v 4, 0⟩, .icmp hd .p16 false .eq oc, .fadd hd .f16 ⟨m0, .v 8, .v 3, .imm, 0x10000⟩, .fcmp hd .f16x2 .eq oc,
   .fcvt hd ⟨false, m0, .v 10, .v 2, 0, 0, 0, 0, 5, 9, 8⟩, .fcvt hd ⟨false, m0, .v 10, .v 2, 0, 4, 0, 0, 0, 8, 0x24⟩, .fcvt hd ⟨false, m0, .v 10, .v 2, 0, 0, 0, 0, 0, 8, 0x28⟩,
   .fcvt hd ⟨false, m0, .v 10, .v 2, 0, 0, 0, 1, 0, 8, 9⟩, .fcvt hd ⟨false, ⟨0, 0, 0, true, false⟩, .v 10, .v 2, 0, 0, 0, 0, 0, 8, 0⟩, .frnd hd .f32 false m0 (.v 8) (.v 2) 6,
   .shfl hd .idx true 9 2 .imm 0, .redux hd .fadd 4 (.v 8) 2, .redux hd .and 2 (.v 8) 2, .matchLanes hd true 8 3, .prmt hd 8 2 .imm (.v 4) 0,
   .ldg hd ⟨.w32, .release, 0, .v 12, ⟨.v 10, .v 4, 0, 0, 6⟩⟩, .ldg hd ⟨.w128, .relaxed, 0, .v 14, ⟨.v 10, .v 4, 0, 0, 6⟩⟩, .ldg hd ⟨.w128, .relaxed, 0, .s 12, ⟨.s 10, .s 4, 0, 0, 6⟩⟩,
   .ldg hd ⟨.w32, .relaxed, 0, .v 12, ⟨.v 9, .v 4, 0, 0, 6⟩⟩, .ldg hd ⟨.w32, .relaxed, 0, .v 12, ⟨.v 10, .v 4, 0, 0, 11⟩⟩, .ldg hd ⟨.w32, .relaxed, 0, .s 12, ⟨.v 10, .v 4, 0, 0, 6⟩⟩,
   .stg hd ⟨.w32, .acquire, 0, .v 12, ⟨.v 10, .v 4, 0, 0, 6⟩⟩, .lds hd ⟨.w32, .relaxed, 0, .v 12, ⟨.v 10, .v 4, 0, 0, 5⟩⟩, .ldw hd ⟨.w32, .relaxed, 2, .s 12, ⟨.s 10, .sz, 0, 0, 4⟩⟩,
   .pref hd 3 ⟨.v 10, .v 4, 0, 0, 6⟩, .fence hd .relaxed 6, .fence hd .acquire 11, .red hd .exch false ⟨false, .relaxed, 6, .glb, .sz, .v 6, .v 8, 0⟩,
   .red hd .add false ⟨false, .relaxed, 6, .glb, .v 4, .v 6, .v 8, 0⟩, .rdlk hd 2 ⟨false, .relaxed, 6, .glb, .s 4, .s 3, .sz, 0⟩,
   .barw hd ⟨false, 0, 2⟩ 1025, .barw hd ⟨true, 1, 0⟩ 0, .barw hd ⟨false, 1, 0⟩ 4, .bara hd ⟨false, 0, 2⟩ (.v 3) 4, .barx hd ⟨false, 0, 3⟩ none (.v 6) 0,
   .lock hd 2 (.v 9) 4 .imm 1, .lockt hd 2 (.v 9) 4,
   .cpy hd ⟨5, none, 0, 0, 1, false, 0, 0, 8, 4, none, pl 256 4 0 0⟩, .cpy hd ⟨2, none, 0, 2, 1, false, 0, 0, 8, 4, none, pl 256 4 0 0⟩, .cpy hd ⟨2, none, 0, 0, 1, false, 3, 0, 8, 4, none, pl 256 4 0 0⟩,
   .cpy hd ⟨2, none, 0, 0, 1, false, 0, 0, 8, 4, none, pl 2 4 0 0⟩, .cpy hd ⟨2, none, 0, 0, 1, false, 0, 0, 8, 4, none, pl 256 0 0 0⟩, .cpy hd ⟨2, none, 2, 0, 1, false, 0, 0, 8, 4, some 20, pl 256 4 0 0⟩,
   .gres hd 6 (.v 3) 0, .sbwait hd true (.v 4) .imm 1, .cdone hd (some 0) 2 4 .sz, .mxlw hd ⟨none, 5, 0, 0, false, 1, 6⟩, .mxlw hd ⟨none, 0x24, 0, 1, false, 1, 6⟩,
   .mxswap hd none 0, .mxloop hd ⟨none, 2, 0, 0, 1, 60, 4, 10, 11, pl 2 0 0 0⟩, .mxloop hd ⟨none, 2, 0, 0, 1, 0, 4, 10, 11, pl 2 8 0 0⟩,
   .mxdrain hd ⟨none, .v 40, .sz, 0, 0, 0, .scale, 1, 5, 1⟩, .mxdrain hd ⟨none, .v 40, .sz, 0x24, 0, 0, .cvt, 1, 5, 1⟩, .mxzero hd none 0 0 3, .mxzero hd none 1 62 3,
   .xfetch hd true ⟨3, .v 9, 4, .s 5, 0⟩, .xstat hd 7 ⟨3, .s 9, 4, .s 5, 0⟩, .xcnt hd 4 .imm .imm 17 1,
   .coll hd ⟨0, none, 7, 3, 3, 6, 4, 5, pl 16 0 9 100⟩, .coll hd ⟨0, none, 5, 3, 1, 6, 4, 5, pl 16 0 9 100⟩, .coll hd ⟨0, none, 7, 3, 1, 6, 4, 5, pl 16 0 9 0⟩,
   .ensure hg 1 20 .sz 0x60 0x90, .ensure hd 1 20 .sz 2 0x90, .ensure hd 1 20 (.v 3) 0x60 0x90, .elseby hd 2, .accept hg, .reject hd .imm, .spawn hd .imm none 3,
   .csrr hd (.v 3) .fflags, .csrwWr hd .tvec (.v 4), .snap hd (.v 3),
   .splitStarvationGuard 256 0, .mxswapExchange 0 0 4, .eventRecordWrite 4, .snapshotLatch 0 6 0, .linkLevelRetry 18, .selftestDue 64]
theorem test_refuses_ill_formed : illFormed.all (fun i => !i.wellFormed) = true := by decide +kernel

/-- An unassigned operation is illegal; a reserved bit, a cleared field that is not zero, and a marker in a literal word are
reserved encodings. -/
def refusedWords : List (List (BitVec 32) × Decode.Result) :=
  [([0, 0, 0x039C0000], .illegal), ([0, 0, 0xE45C0000], .illegal), ([1, 0, 0x001C0000], .reserved), ([0, 0, 0x003C0000], .reserved), ([0x98000000, 1, 0x821C0000], .reserved),
   ([0x180000, 0xF8000032, 0xC01C2013, 0xFFF00140, 4, 0x400, 0x100], .reserved)]
theorem test_refuses_words : refusedWords.all (fun x => Decode.decode x.1 == x.2) = true := by decide +kernel

/-! ### The spec's worked values -/

/-- R142: FCVT of 1.5 to s8p4 gives 0x44 in byte 0, of −2.0 gives 0xC8 in byte 1, and no flag. -/
theorem test_fcvt_packs :
    ([(0x3FC00000, 0, 0x44), (0xC0000000, 1, 0xC800)].all (fun x =>
      match execFcvt hd ⟨false, m0, .v 20, .v 4, 0, x.2.1, 0, 0, 0, 8, 0x24⟩ (grp (fun g => { g with v := [(128, x.1)] }) world) with
      | .next t => vregsIn t 0 20 0 1 == some x.2.2 && fflagsIn t 0 == some 0
      | _ => false)) = true := by decide +kernel

/-- R60, R142: FCVT of the lane two to the right within eight; lane 0 takes lane 2's −2.0. -/
theorem test_fcvt_rotates :
    (match execFcvt hd ⟨false, ⟨1, 3, 2, false, false⟩, .v 20, .v 4, 0, 0, 0, 0, 0, 8, 0x24⟩
        (spl (fun q => { q with em := 1, members := 15 }) (grp (fun g => { g with v := [(128, 0x3FC00000), (130, 0xC0000000)] }) world)) with
      | .next t => vregsIn t 0 20 0 1 == some 0xC8
      | _ => false) = true := by decide +kernel

/-- R389: SHA-512 of the three bytes 0x61, 0x62, 0x63, the example of FIPS 180-4. -/
theorem test_sha512 : stageDigest [0x61, 0x62, 0x63] =
    0xddaf35a193617abacc417349ae20413112e6fa4e89a97ea20a9eeee64b55d39a2192992a274fc1a836ba3c23a3feebbd454d4423643ce80e2a9ac94fa54ca49f := by
  decide +kernel

/-! ### States that meet the premises of the other statements -/

/-- The context in which the group stands. -/
def standing (i : Instr) (s : State) (p : Ctx → Bool) : Bool := ((readyCtx i s).map p).getD false
def answers (i : Instr) (s : State) : Bool := match exec i s with | .next _ => true | _ => false

theorem test_reject_premises :
    ([inLevel, wide].all (fun s => standing (.reject hg (.s 4)) s (fun c => roleOf s c != .shadow && c.blk.levels.isEmpty == (s == wide)))) = true := by
  decide +kernel
theorem test_markers_premises :
    ([(Instr.elseby hd 0x60, inLevel), (.elseerr hd, wide)].all (fun x => standing x.1 x.2 (fun c => c.blk.top.isSome == (x.2 == inLevel)))) = true := by decide +kernel

def fourLevels : State := blk (fun b => { b with levels := List.replicate 4 (newLevel 0x30 1 1000 none 0x60 0x90) }) wide
theorem test_levels_refuse_premises :
    ([(Instr.halt hd 1, inLevel), (.tend hg, inLevel), (.tabort hd, inLevel), (.ensure hd 1 2 .sz 0x60 0x90, fourLevels)].all (fun x => standing x.1 x.2 (fun c =>
      closedToLevels c.blk x.1 && !c.blk.levels.isEmpty && roleOf x.2 c == .alone && c.g.tasks.isEmpty && !resultsPending x.2 c.g))) = true := by decide +kernel

theorem test_register_frame_premises :
    ([(Instr.iadd hg .w32 o2, wide), (.fadd hd .f32 o2, inLevel), (.brx hd (.s 2) 0, wide), (.icmp hg .w32 true .lt oc, wide), (.vote hd .mask (.v 8) 2, wide),
      (.csrr hd (.s 3) .fflags, wide), (.redux hd .fadd 0 (.s 9) 2, wide)].all (fun x =>
      registerOnly x.1 && answers x.1 x.2 && standing x.1 x.2 (targetsFit x.1))) = true := by decide +kernel

theorem test_issue_frame_premises :
    (([(Instr.ldg hg ⟨.w32, .relaxed, 0, .v 12, ⟨.v 10, .v 14, 0, 0, 6⟩⟩, wide), (.stg hd ⟨.w32, .relaxed, 0, .v 2, ⟨.v 10, .v 14, 0, 0, 6⟩⟩, wide),
      (.mxzero hd none 1 0 3, roomy)] ++ copyCases.take 1 ++ collCases.take 1 ++ spawnCases.take 1 ++ expertCases.take 1 ++ xcntCases.take 1).all (fun x =>
      sends x.1 x.2 && answers x.1 x.2 && standing x.1 x.2 (fun c => roleOf x.2 c == .alone))) = true := by decide +kernel

theorem test_empty_guard_premises :
    ([Instr.iadd hg .w32 o2, .stg hg ⟨.w32, .relaxed, 0, .v 2, ⟨.v 10, .v 14, 0, 0, 6⟩⟩, .exit hg].all (fun i =>
      let s := grp (fun g => { g with cm := [] }) wide
      match ctxOf (hdrOf i) s with
      | some c => c.act == 0 && running c && c.g.npeOver.isNone && c.g.fails.isEmpty && canIssue s c i && (boundFault c.g i).isNone
          && (earlyRefs s c.g c.sp i).isEmpty && (primaryFault s c).isNone && !isMachineStep i && !actsAlways i
      | none => false)) = true := by decide +kernel

/-- Both clauses: a handler address, and none. -/
theorem test_fault_entry_premises :
    ([(wide, true), (world, false)].all (fun x =>
      match x.1.groups.get? 0 with
      | some g => (g.splits.get? 0).isSome && ((x.1.blocks.get? g.blk).any (fun b => b.levels.isEmpty && b.terminated.isNone)) && g.tasks.isEmpty
          && (!g.handler && g.tvec != 0) == x.2
      | none => false)) = true := by decide +kernel

theorem test_rounding_premises : (binaryFormats.all (fun fm => decide (1 < 2 ^ fm.bits) && !fm.isNan 1)) = true := by decide +kernel
/-- The ends of the P3109 codes, an infinity under SATINF, and a finite value under SATFIN. -/
theorem test_narrow_rounding_premises :
    ([(0x21, 0xFF, 0), (0x3F, 0xFE, 1), (0x2C, 0x7F, 2), (0x27, 0, 0)].all (fun x : Nat × Nat × Nat =>
      decide (p3109P x.1 ≠ 0) && (x.2.2 != 0 || (match p3109Value x.1 x.2.1 with | .inf _ => false | _ => true)))) = true := by decide +kernel
theorem test_round_trip_premises : (Instr.wellFormed (.lock hd 2 (.s 9) 4 .imm 2800) && !isMachineStep (.lock hd 2 (.s 9) 4 .imm 2800)) = true := by decide +kernel
theorem test_unassigned_premises :
    (let r := Decode.fields (Decode.join3 0 0 0x039C0000); decide (([0x0D, 0x18, 0x11, 0x04, 0x09, 0x0C, 0x10, 0x10].getD r.cls.toNat 0) < r.op.toNat)) = true := by decide +kernel

/-- The group stands at the words of an instruction, on its scheduler's turn. -/
def turn (i : Instr) : State := { writeBytes wide 0 (Decode.codeBytes (encode i)) with agenda := [.issue 0 0] }
def turnMeets (i : Instr) : Bool :=
  let s := { turn i with agenda := [] }
  let u := fetching s 0 0 0 0
  coreIssues s 0 0 && pick s 0 0 == some (0, 0)
    && (match ctxOf ⟨false, 7, 0, false⟩ u with
        | some c =>
          (beforeNext u c).isNone && (primaryFault u c).isNone
            && (match fetchWords u (dieOfGroup c.gid) c.launch c.pc 3 with
                | (.words ws, v) =>
                  if Decode.hasParams (Decode.fields (Decode.join3 (ws.getD 0 0) (ws.getD 1 0) (ws.getD 2 0))) then
                    match fetchWords v (dieOfGroup c.gid) c.launch (c.pc + 3) 4 with
                    | (.words ps, _) => Decode.decode (ws ++ ps) == .ok i
                    | _ => false
                  else Decode.decode ws == .ok i
                | _ => false)
        | none => false)
theorem test_step_premises : (turnMeets (.iadd hd .w32 o2) && turnMeets (.cpy hd ⟨2, none, 0, 0, 1, true, 0, 0, 8, 4, none, pl 0x100 4 0x400 0x100⟩)) = true := by
  decide +kernel

/-- The same with a full copy queue: the copy waits, and its group is as it was (R224). -/
theorem test_step_waits :
    (let i := Instr.cpy hd (cp 0 1 none)
     let s := { turn i with agenda := [] }.setCore 0 (fun k => { k with copyQ := List.range 32 })
     let u := fetching s 0 0 0 0
     coreIssues s 0 0 && pick s 0 0 == some (0, 0) && (match exec i u with | .next t => t.groups.get? 0 == u.groups.get? 0 | _ => false)) = true := by
  decide +kernel

theorem test_reset_safe : Memory.wf State.reset.mem = true := by decide +kernel
theorem test_written_safe : Memory.wf (turn (.iadd hd .w32 o2)).mem = true := by decide +kernel
theorem test_step_answers : (match step world with | .next _ => true | _ => false) = true := by decide +kernel

end Sys2Proof.Tests
end

/-! ## What power-on reset leaves -/

section
namespace Sys2Proof.Claims

open Sys2Proof.Machine

/-- Every die number reads as a die fresh from reset, listed in the reset state or not. -/
theorem die_reset (d : Nat) : State.reset.die d = Die.reset := by
  simp only [State.die, State.reset, Map.getD, Map.get?]
  split_ifs <;> rfl

/-- Settles O57: reset memory lists no cell, and the empty list is canonical. -/
theorem resetSafe : Obligations.ResetSafe := wf_reset

/-- Settles O60: each field of the reset state is read off; no line and no byte is listed, so each reads as its default. -/
theorem resetState : Obligations.ResetState := by
  refine ⟨fun d => ?_, rfl, rfl, rfl, rfl, rfl, fun l => ⟨rfl, rfl, rfl⟩, rfl, rfl, rfl, rfl, fun a => rfl⟩
  rw [die_reset]
  exact ⟨rfl, rfl, rfl⟩

end Sys2Proof.Claims
end

/-! ## A value of a format rounds to its own code -/

section
namespace Sys2Proof.Claims

open Sys2Proof.Machine

/-!
The magnitude field `y` of a code of an IEEE or a P3109 format, with `t` trailing bits, stands for `codeMag t bias y`. Its unit is the
one to which a value of its size is rounded, so rounding cuts nothing off and no mode matters; and its code is built again from it.
-/

/-- The magnitude m × 2^e that a field of an exponent and `t` trailing bits stands for (R83, R92). -/
def codeMag (t : Nat) (bias : Int) (y : Nat) : Nat × Int :=
  if y / 2 ^ t = 0 then (y % 2 ^ t, 1 - bias - t) else (2 ^ t + y % 2 ^ t, ((y / 2 ^ t : Nat) : Int) - bias - t)

variable {t y : Nat} {bias : Int}

/-- A subnormal field: its exponent is 0. -/
theorem codeMag_of_lt (h : y < 2 ^ t) : codeMag t bias y = (y, 1 - bias - t) := by
  unfold codeMag
  rw [if_pos (Nat.div_eq_of_lt h), Nat.mod_eq_of_lt h]

/-- A normal field. -/
theorem codeMag_of_le (h : 2 ^ t ≤ y) : codeMag t bias y = (2 ^ t + y % 2 ^ t, ((y / 2 ^ t : Nat) : Int) - bias - t) := by
  unfold codeMag
  rw [if_neg]
  exact Nat.ne_of_gt (Nat.div_pos h (Nat.two_pow_pos t))

theorem codeMag_eq_zero : (codeMag t bias y).1 = 0 ↔ y = 0 := by
  rcases Nat.lt_or_ge y (2 ^ t) with h | h
  · rw [codeMag_of_lt h]
  · rw [codeMag_of_le h]
    have := Nat.two_pow_pos t
    omega

theorem codeMag_lt : (codeMag t bias y).1 < 2 ^ (t + 1) := by
  have hp := Nat.two_pow_pos t
  have hm := Nat.mod_lt y hp
  rcases Nat.lt_or_ge y (2 ^ t) with h | h
  · rw [codeMag_of_lt h, Nat.pow_succ]
    dsimp only
    omega
  · rw [codeMag_of_le h, Nat.pow_succ]
    dsimp only
    omega

/-- The leading digit of a normal field stands at its exponent. -/
theorem leadExp_of_le (h : 2 ^ t ≤ y) : leadExp (codeMag t bias y).1 (codeMag t bias y).2 = ((y / 2 ^ t : Nat) : Int) - bias := by
  have hp := Nat.two_pow_pos t
  have hm := Nat.mod_lt y hp
  rw [codeMag_of_le h]
  unfold leadExp
  have hlog : Nat.log2 (2 ^ t + y % 2 ^ t) = t := by
    rw [Nat.log2_eq_iff (by omega), Nat.pow_succ]
    omega
  rw [hlog]
  omega

/-- That of a subnormal one stands below every normal one. -/
theorem leadExp_of_lt (h0 : y ≠ 0) (h : y < 2 ^ t) : leadExp (codeMag t bias y).1 (codeMag t bias y).2 < 1 - bias := by
  rw [codeMag_of_lt h]
  unfold leadExp
  dsimp only
  have hlog : Nat.log2 y < t := (Nat.log2_lt h0).mpr h
  omega

/-- The unit of a field is the one that rounding takes for its value (R83, R92). -/
theorem codeMag_unit (h0 : y ≠ 0) :
    (codeMag t bias y).2 = max (leadExp (codeMag t bias y).1 (codeMag t bias y).2 - t) (1 - bias - t) := by
  rcases Nat.lt_or_ge y (2 ^ t) with h | h
  · have hl := leadExp_of_lt (bias := bias) h0 h
    have he : (codeMag t bias y).2 = 1 - bias - t := by rw [codeMag_of_lt h]
    omega
  · have hl := leadExp_of_le (bias := bias) h
    have he : (codeMag t bias y).2 = ((y / 2 ^ t : Nat) : Int) - bias - t := by rw [codeMag_of_le h]
    have := Nat.div_pos h (Nat.two_pow_pos t)
    omega

/-- Rounding to a unit that divides the magnitude is exact, whatever the mode. -/
theorem roundMag_of_le {neg : Bool} {m : Nat} {e q : Int} {rm : Rm} (h : q ≤ e) :
    roundMag neg m e q rm = (m * 2 ^ (e - q).toNat, true) := by
  unfold roundMag cutAt
  rw [if_pos h]
  rfl

/-- A field's magnitude is on the grid. -/
theorem roundGrid_codeMag {neg : Bool} {rm : Rm} (h0 : y ≠ 0) :
    roundGrid t (1 - bias) neg (codeMag t bias y).1 (codeMag t bias y).2 rm
      = ((codeMag t bias y).1, (codeMag t bias y).2, true,
          (codeMag t bias y).1 * 2 ^ ((codeMag t bias y).2 - (leadExp (codeMag t bias y).1 (codeMag t bias y).2 - t)).toNat,
          leadExp (codeMag t bias y).1 (codeMag t bias y).2 - t) := by
  unfold roundGrid
  dsimp only
  have hq := (le_max_left _ _).trans (codeMag_unit (t := t) (bias := bias) h0).ge
  rw [← codeMag_unit h0, roundMag_of_le le_rfl, roundMag_of_le hq]
  simp

/-- A magnitude written in smaller units reaches a power of two when its leading digit does. -/
theorem atLeast_mul {m : Nat} {e q k : Int} (h0 : m ≠ 0) (h : q ≤ e) : atLeast (m * 2 ^ (e - q).toNat) q k = decide (k ≤ leadExp m e) := by
  have hpos := Nat.two_pow_pos (e - q).toNat
  have hne : m * 2 ^ (e - q).toNat ≠ 0 := Nat.mul_ne_zero h0 hpos.ne'
  have hlead : leadExp (m * 2 ^ (e - q).toNat) q = leadExp m e := by
    unfold leadExp
    have hlog : Nat.log2 (m * 2 ^ (e - q).toNat) = Nat.log2 m + (e - q).toNat := by
      rw [Nat.log2_eq_iff hne, Nat.add_right_comm, Nat.pow_add, Nat.pow_add]
      exact ⟨Nat.mul_le_mul_right _ (Nat.log2_self_le h0), Nat.mul_lt_mul_of_pos_right Nat.lt_log2_self hpos⟩
    omega
  unfold atLeast
  rw [hlead]
  simp [h0]

theorem code_of_le (h : 2 ^ t ≤ y) :
    ((codeMag t bias y).2 + t + bias).toNat * 2 ^ t + ((codeMag t bias y).1 - 2 ^ t) = y := by
  rw [codeMag_of_le h]
  dsimp only
  have he (k : Nat) : ((k : Int) - bias - t + t + bias).toNat = k := by omega
  rw [he, Nat.add_sub_cancel_left]
  exact Nat.div_add_mod' y (2 ^ t)

theorem codeMag_fst_lt : (codeMag t bias y).1 < 2 ^ t ↔ y < 2 ^ t := by
  rcases Nat.lt_or_ge y (2 ^ t) with h | h
  · rw [codeMag_of_lt h]
  · rw [codeMag_of_le h]
    dsimp only
    omega

/-- The field that its magnitude is given again. -/
theorem code_codeMag :
    (if (codeMag t bias y).1 < 2 ^ t then (codeMag t bias y).1
      else ((codeMag t bias y).2 + t + bias).toNat * 2 ^ t + ((codeMag t bias y).1 - 2 ^ t)) = y := by
  split
  · next h => rw [codeMag_of_lt (codeMag_fst_lt.mp h)]
  · next h => exact code_of_le (Nat.le_of_not_lt (mt codeMag_fst_lt.mpr h))

/-! ### Signed magnitudes -/

/-- A finite value that is not zero, and what rounding reads off it. -/
theorem mkFin_of_ne {neg : Bool} {m : Nat} {e : Int} (h : m ≠ 0) :
    ∃ k : Int, mkFin neg m e = .fin k e ∧ k ≠ 0 ∧ decide (k < 0) = neg ∧ k.natAbs = m := by
  refine ⟨if neg then -(m : Int) else m, ?_, ?_⟩
  · unfold mkFin
    rw [if_neg h]
  · cases neg <;> simp <;> omega

/-! ### IEEE formats -/

theorem encode_codeMag (f : Fmt) (neg : Bool) :
    f.encode neg (codeMag f.t f.bias y).1 (codeMag f.t f.bias y).2 = (if neg then f.signBit else 0) + y := by
  have hcode := code_codeMag (t := f.t) (bias := f.bias) (y := y)
  unfold Fmt.encode
  dsimp only
  rw [if_neg codeMag_lt.ne]
  split
  · next h => rw [if_pos h] at hcode; rw [hcode]
  · next h => rw [if_neg h] at hcode; rw [Nat.add_assoc, hcode]

/-- The bias of a format with exponent bits is half the range of exponents. -/
theorem two_bias (f : Fmt) (hw : 0 < f.w) : ((2 ^ f.w : Nat) : Int) = 2 * f.bias + 2 ∧ 0 ≤ f.bias := by
  obtain ⟨w, hw⟩ := Nat.exists_eq_add_of_lt hw
  have h : f.bias = 2 ^ w - 1 := by simp [Fmt.bias, hw]
  have hp : (0 : Int) < 2 ^ w := by positivity
  rw [h, hw]
  push_cast
  rw [Nat.zero_add, Int.pow_succ]
  constructor <;> omega

/-- A finite field's leading digit does not pass the largest exponent (R83). -/
theorem leadExp_le_emax (f : Fmt) (hw : 0 < f.w) (h0 : y ≠ 0) (hfin : y / 2 ^ f.t < 2 ^ f.w - 1) :
    leadExp (codeMag f.t f.bias y).1 (codeMag f.t f.bias y).2 ≤ f.emax := by
  obtain ⟨h2, hb⟩ := two_bias f hw
  have hmax : f.emax = f.bias := rfl
  rcases Nat.lt_or_ge y (2 ^ f.t) with h | h
  · have hl := leadExp_of_lt (bias := f.bias) h0 h
    omega
  · rw [leadExp_of_le h]
    omega

/-- A finite field rounds to itself, with its sign (R83, R85, R86). -/
theorem roundTo_codeMag (f : Fmt) (hw : 0 < f.w) {neg : Bool} {rm : Rm} (h0 : y ≠ 0) (hfin : y / 2 ^ f.t < 2 ^ f.w - 1) :
    roundTo f (mkFin neg (codeMag f.t f.bias y).1 (codeMag f.t f.bias y).2) rm = ((if neg then f.signBit else 0) + y, 0) := by
  have hm : (codeMag f.t f.bias y).1 ≠ 0 := mt codeMag_eq_zero.mp h0
  obtain ⟨k, hk, hk0, hneg, habs⟩ := mkFin_of_ne (neg := neg) (e := (codeMag f.t f.bias y).2) hm
  have hq := (le_max_left _ _).trans (codeMag_unit (t := f.t) (bias := f.bias) h0).ge
  have hlead : ¬ f.emax + 1 ≤ leadExp (codeMag f.t f.bias y).1 (codeMag f.t f.bias y).2 := by
    have := leadExp_le_emax f hw h0 hfin
    omega
  rw [hk]
  unfold roundTo
  simp only [if_neg hk0, hneg, habs, Fmt.emin, roundGrid_codeMag h0, atLeast_mul hm hq, hlead, decide_false, Bool.false_eq_true, if_false,
    encode_codeMag]
  simp [flagIf]

theorem roundTo_zero (f : Fmt) {neg : Bool} {e : Int} {rm : Rm} : roundTo f (mkFin neg 0 e) rm = (if neg then f.signBit else 0, 0) := by
  cases neg <;> rfl

/-- The sign and the magnitude field of a code. -/
theorem code_split (f : Fmt) {x : Nat} (hx : x < 2 ^ f.bits) :
    x = (if f.neg x then f.signBit else 0) + x % f.signBit ∧ f.exp x = x % f.signBit / 2 ^ f.t ∧ f.trail x = x % f.signBit % 2 ^ f.t := by
  have hsign : f.signBit = 2 ^ f.t * 2 ^ f.w := by rw [Fmt.signBit, Nat.pow_add, Nat.mul_comm]
  refine ⟨?_, ?_, ?_⟩
  · have hbits : 2 ^ f.bits = 2 * f.signBit := by rw [Fmt.bits, Fmt.signBit, Nat.add_assoc, Nat.pow_add, Nat.pow_one]
    have hdiv : x / f.signBit < 2 := Nat.div_lt_of_lt_mul (by rwa [Nat.mul_comm, ← hbits])
    have hx := Nat.div_add_mod x f.signBit
    unfold Fmt.neg
    interval_cases h : x / f.signBit
    · simpa using hx.symm
    · simpa using hx.symm
  · rw [hsign, Nat.mod_mul_right_div_self]
    rfl
  · rw [hsign, Nat.mod_mul_right_mod]
    rfl

theorem value_of_exp (f : Fmt) {x : Nat} (hx : x < 2 ^ f.bits) (he : f.exp x ≠ 2 ^ f.w - 1) :
    f.value x = mkFin (f.neg x) (codeMag f.t f.bias (x % f.signBit)).1 (codeMag f.t f.bias (x % f.signBit)).2 := by
  obtain ⟨-, hexp, htrail⟩ := code_split f hx
  unfold Fmt.value codeMag
  simp only [if_neg he]
  rw [hexp, htrail]
  split
  · rfl
  · rfl

/-- R83: every code of an IEEE format but its NaNs. -/
theorem roundTo_value (f : Fmt) (hw : 0 < f.w) {x : Nat} {rm : Rm} (hx : x < 2 ^ f.bits) (hn : f.isNan x = false) :
    roundTo f (f.value x) rm = (x, 0) := by
  obtain ⟨hcode, hexp, htrail⟩ := code_split f hx
  by_cases he : f.exp x = 2 ^ f.w - 1
  · have ht : f.trail x = 0 := by simpa [Fmt.isNan, he] using hn
    have hy : x % f.signBit = f.infBits := by
      have := Nat.div_add_mod' (x % f.signBit) (2 ^ f.t)
      rw [← hexp, ← htrail, he, ht] at this
      exact this.symm
    have hv : f.value x = .inf (f.neg x) := by simp [Fmt.value, he, ht]
    rw [hy, Nat.add_comm] at hcode
    rw [hv]
    exact congrArg (·, 0) hcode.symm
  · rw [value_of_exp f hx he]
    by_cases h0 : x % f.signBit = 0
    · rw [h0] at hcode ⊢
      rw [codeMag_of_lt (Nat.two_pow_pos _), roundTo_zero]
      exact congrArg (·, 0) hcode.symm
    · have hlt : x % f.signBit / 2 ^ f.t < 2 ^ f.w - 1 := by
        have hlt := Nat.mod_lt (x / 2 ^ f.t) (Nat.two_pow_pos f.w)
        rw [← hexp]
        unfold Fmt.exp at he ⊢
        omega
      rw [roundTo_codeMag f hw h0 hlt, ← hcode]

/-! ### P3109 formats -/

/-- Of two fields in order, either the magnitudes' digits are in order, or the second is normal and has the greater exponent. -/
theorem codeMag_mono {x y : Nat} (h : x ≤ y) :
    (codeMag t bias x).2 ≤ (codeMag t bias y).2
      ∧ ((codeMag t bias x).1 ≤ (codeMag t bias y).1 ∨ 2 ^ t ≤ (codeMag t bias y).1 ∧ (codeMag t bias x).2 < (codeMag t bias y).2) := by
  have hdiv : x / 2 ^ t ≤ y / 2 ^ t := Nat.div_le_div_right h
  have hx := Nat.div_add_mod' x (2 ^ t)
  have hy := Nat.div_add_mod' y (2 ^ t)
  have hone {z : Nat} (hz : 2 ^ t ≤ z) : 0 < z / 2 ^ t := Nat.div_pos hz (Nat.two_pow_pos t)
  rcases Nat.lt_or_ge y (2 ^ t) with hyt | hyt
  · rw [codeMag_of_lt hyt, codeMag_of_lt (h.trans_lt hyt)]
    exact ⟨le_rfl, .inl h⟩
  · rw [codeMag_of_le hyt]
    have hy1 := hone hyt
    rcases Nat.lt_or_ge x (2 ^ t) with hxt | hxt
    · rw [codeMag_of_lt hxt]
      dsimp only
      omega
    · rw [codeMag_of_le hxt]
      dsimp only
      rcases hdiv.eq_or_lt with he | hl
      · rw [he] at hx ⊢
        omega
      · omega

/-- The greater of two fields has the greater magnitude: a value is not above the largest (R94). -/
theorem ltX_codeMag {x y : Nat} (h : x ≤ y) :
    ltX (.fin (codeMag t bias y).1 (codeMag t bias y).2) (.fin (codeMag t bias x).1 (codeMag t bias x).2) = false := by
  obtain ⟨hexp, hdig⟩ := codeMag_mono (t := t) (bias := bias) h
  have hle : (codeMag t bias x).1 ≤ (codeMag t bias y).1 * 2 ^ ((codeMag t bias y).2 - (codeMag t bias x).2).toNat := by
    rcases hdig with hd | ⟨hn, he⟩
    · exact hd.trans (Nat.le_mul_of_pos_right _ (Nat.two_pow_pos _))
    · calc (codeMag t bias x).1 ≤ 2 ^ (t + 1) := codeMag_lt.le
        _ = 2 ^ t * 2 ^ 1 := Nat.pow_add 2 t 1
        _ ≤ _ := Nat.mul_le_mul hn (Nat.pow_le_pow_right (by decide) (by omega))
  have hcast : ((codeMag t bias x).1 : Int) ≤ (codeMag t bias y).1 * 2 ^ ((codeMag t bias y).2 - (codeMag t bias x).2).toNat := by
    exact_mod_cast hle
  unfold ltX addFin
  dsimp only
  rw [min_eq_right hexp, decide_eq_false_iff_not]
  simpa using hcast

/-- A finite field of a P3109 format rounds to itself; only a signed format has negative values (R92, R99). -/
theorem satTo_codeMag {c sat : Nat} {neg : Bool} {rm : Rm} (h0 : y ≠ 0) (hmax : y ≤ p3109MaxCode c) (hs : p3109Uns c = true → neg = false) :
    satTo c (mkFin neg (p3109Mag c y).1 (p3109Mag c y).2) sat rm false = (p3109Signed c y neg, 0) := by
  have hmag (x : Nat) : p3109Mag c x = codeMag (p3109T c) (p3109Bias c) x := rfl
  have hm : (codeMag (p3109T c) (p3109Bias c) y).1 ≠ 0 := mt codeMag_eq_zero.mp h0
  obtain ⟨k, hk, hk0, hneg, habs⟩ := mkFin_of_ne (neg := neg) (e := (codeMag (p3109T c) (p3109Bias c) y).2) hm
  have hsign : ¬((p3109Uns c : Prop) ∧ (neg : Prop)) := by
    rintro ⟨hu, hn⟩
    rw [hs hu] at hn
    cases hn
  rw [hmag, hk]
  unfold satTo
  simp only [if_neg hk0, hneg, habs, roundGrid_codeMag h0, if_neg hm, if_neg hsign, hmag, ltX_codeMag hmax, if_neg codeMag_lt.ne,
    code_codeMag]
  simp [flagIf]

/-- An infinity keeps its code unless SATFIN makes it finite (R99). -/
theorem satTo_inf {c sat : Nat} {neg : Bool} {rm : Rm} (hi : p3109Inf c = true) (h0 : sat ≠ 0) (hs : p3109Uns c = true → neg = false) :
    satTo c (.inf neg) sat rm false = (p3109InfCode c neg, 0) := by
  have hsign : ¬(p3109Uns c = true ∧ neg = true) := by
    rintro ⟨hu, hn⟩
    rw [hs hu] at hn
    cases hn
  unfold satTo
  dsimp only
  rw [if_neg hsign, if_neg h0, if_pos hi]

/-- R91 to R93, R99: every code of an unsigned format. -/
theorem satTo_value_unsigned {c x sat : Nat} {rm : Rm} (hu : p3109Uns c = true) (hx : x < 256)
    (hinf : ∀ neg, p3109Value c x = .inf neg → sat ≠ 0) : satTo c (p3109Value c x) sat rm false = (x, 0) := by
  by_cases hn : x = 0xFF
  · simp [p3109Value, hu, hn, satTo, p3109Nan, flagIf]
  by_cases hi : p3109Inf c = true ∧ x = 0xFE
  · have hv : p3109Value c x = .inf false := by simp [p3109Value, hu, hi]
    rw [hv, satTo_inf hi.1 (hinf false hv) fun _ => rfl]
    simp [p3109InfCode, hu, hi.2]
  have hv : p3109Value c x = mkFin false (p3109Mag c x).1 (p3109Mag c x).2 := by simp [p3109Value, hu, hn, hi]
  by_cases h0 : x = 0
  · subst h0
    have hm : (p3109Mag c 0).1 = 0 := codeMag_eq_zero.mpr rfl
    rw [hv, hm]
    rfl
  have hmax : x ≤ p3109MaxCode c := by
    unfold p3109MaxCode
    rw [if_pos hu]
    split
    · next hi' =>
      have hfe : x ≠ 0xFE := fun e => hi ⟨hi', e⟩
      omega
    · omega
  rw [hv, satTo_codeMag h0 hmax fun _ => rfl]
  simp [p3109Signed]

/-- R91 to R93, R99: every code of a signed format. -/
theorem satTo_value_signed {c x sat : Nat} {rm : Rm} (hu : p3109Uns c = false) (hx : x < 256)
    (hinf : ∀ neg, p3109Value c x = .inf neg → sat ≠ 0) : satTo c (p3109Value c x) sat rm false = (x, 0) := by
  have huns {b : Bool} (h : p3109Uns c = true) : b = false := by simp [hu] at h
  by_cases hn : x = 0x80
  · simp [p3109Value, hu, hn, satTo, p3109Nan, flagIf]
  by_cases hi : p3109Inf c = true ∧ x % 128 = 0x7F
  · have hv : p3109Value c x = .inf (decide (128 ≤ x)) := by simp [p3109Value, hu, hn, hi]
    rw [hv, satTo_inf hi.1 (hinf _ hv) huns]
    by_cases h128 : 128 ≤ x
    · simp [p3109InfCode, hu, h128]
      omega
    · simp [p3109InfCode, hu, h128]
      omega
  by_cases h0 : x % 128 = 0
  · have hx0 : x = 0 := by omega
    subst hx0
    simp [p3109Value, hu, satTo]
  have hv : p3109Value c x = mkFin (decide (128 ≤ x)) (p3109Mag c (x % 128)).1 (p3109Mag c (x % 128)).2 := by
    simp [p3109Value, hu, hn, hi, h0]
  have hmax : x % 128 ≤ p3109MaxCode c := by
    unfold p3109MaxCode
    rw [hu]
    by_cases hi' : p3109Inf c = true
    · simp only [hi', true_and] at hi
      simp [hi']
      omega
    · simp [hi']
      omega
  rw [hv, satTo_codeMag h0 hmax huns]
  by_cases h128 : 128 ≤ x
  · simp [p3109Signed, hu, h128]
    omega
  · simp [p3109Signed, hu, h128]
    omega

/-! ### FP4 -/

/-- No field of three bits is above 6, the largest value of FP4 (R95). -/
theorem ltX_six : ∀ y < 8, ltX (.fin 6 0) (.fin (codeMag 1 1 y).1 (codeMag 1 1 y).2) = false := by decide

theorem fp4Value_eq {x xv : Nat} (h8 : x ≠ 8) :
    fp4Value x xv = mkFin (decide (8 ≤ x)) (codeMag 1 1 (x % 8)).1 (codeMag 1 1 (x % 8)).2 := by
  have he : x / 2 % 4 = x % 8 / 2 := by omega
  have ht : x % 2 = x % 8 % 2 := by omega
  unfold fp4Value codeMag
  rw [if_neg h8, he, ht]
  simp only [Nat.pow_one]
  split
  · rfl
  · next h =>
    dsimp only
    congr 1
    omega

/-- R95, R97: the fifteen codes that are values of FP4. -/
theorem toFp4_value {x xv : Nat} {rm : Rm} (hx : x < 16) (h8 : x ≠ 8) : toFp4 (fp4Value x xv) rm = (x, 0) := by
  rw [fp4Value_eq h8]
  by_cases h0 : x % 8 = 0
  · have hx0 : x = 0 := by omega
    subst hx0
    rfl
  have hm : (codeMag 1 1 (x % 8)).1 ≠ 0 := mt codeMag_eq_zero.mp h0
  obtain ⟨k, hk, hk0, hneg, habs⟩ := mkFin_of_ne (neg := decide (8 ≤ x)) (e := (codeMag 1 1 (x % 8)).2) hm
  have hcode : (if (codeMag 1 1 (x % 8)).1 < 2 then (codeMag 1 1 (x % 8)).1
      else ((codeMag 1 1 (x % 8)).2 + 2).toNat * 2 + ((codeMag 1 1 (x % 8)).1 - 2)) = x % 8 := by
    simpa [Int.add_assoc] using code_codeMag (t := 1) (bias := 1) (y := x % 8)
  have hgrid : roundGrid 1 0 (decide (8 ≤ x)) (codeMag 1 1 (x % 8)).1 (codeMag 1 1 (x % 8)).2 rm = _ :=
    roundGrid_codeMag (bias := 1) h0
  have h4 : (codeMag 1 1 (x % 8)).1 ≠ 4 := codeMag_lt.ne
  have hlt := ltX_six (x % 8) (Nat.mod_lt _ (by decide))
  rw [hk]
  unfold toFp4
  simp only [if_neg hk0, hneg, habs, hgrid, if_neg hm, hlt, Bool.false_eq_true, if_false, if_neg h4, hcode]
  have hsign : (if decide (8 ≤ x) = true then 8 else 0) + x % 8 = x := by
    simp only [decide_eq_true_eq]
    split <;> omega
  rw [hsign]
  simp [flagIf]

/-- Settles O52: the unit of every code's value is the one that rounding takes, in each family of formats. -/
theorem roundingExact : Obligations.RoundingExact := by
  refine ⟨fun fm hf x rm hx hn => roundTo_value fm ?_ hx hn, fun c x sat rm _ _ _ hx _ hinf => ?_, fun x xv rm => toFp4_value⟩
  · simp only [binaryFormats, List.mem_cons, List.not_mem_nil, or_false] at hf
    rcases hf with rfl | rfl | rfl | rfl <;> decide
  · cases hu : p3109Uns c with
    | true => exact satTo_value_unsigned hu hx hinf
    | false => exact satTo_value_signed hu hx hinf

end Sys2Proof.Claims
end

/-! ## The frame of instructions that only read and write registers -/

section
namespace Sys2Proof.Claims

open Sys2Proof.Machine

/-!
Every such instruction builds its next state from a few writers of one group: a vector destination in the lanes that act, a scalar
destination, a mask, FFLAGS and generators, and splits. `GroupWrites W fl em g h` says what such writers may change of a group `g`:
the registers of `W` in the lanes of `em`, and FFLAGS and the generators where `fl` says so. `Writes` says it of the state.
-/

/-- `h` is `g` but for the registers of `W` in the lanes of `em`, FFLAGS and generators where `fl` holds, and what is no register. -/
structure GroupWrites (W : List RegRef) (fl : Bool) (em : LaneMask) (g h : Group) : Prop where
  control : controlKept g h
  vreg : ∀ r lane, lane < 32 → RegRef.v r ∉ W ∨ em.getLsbD lane = false → h.vreg r lane = g.vreg r lane
  sreg : ∀ r, RegRef.s r ∉ W → h.sreg r = g.sreg r
  mask : ∀ n, RegRef.cm n ∉ W → h.mask n = g.mask n
  maskLane : ∀ n lane, em.getLsbD lane = false → (h.mask n).getLsbD lane = (g.mask n).getLsbD lane
  flags : fl = false → h.fflags = g.fflags ∧ h.gen = g.gen

/-- Memory and the other groups are as they were, and the context's group changes as `GroupWrites` says. -/
structure Writes (W : List RegRef) (fl : Bool) (c : Ctx) (s t : State) : Prop where
  mem : t.mem = s.mem
  other : ∀ n, n ≠ c.gid → t.groups.get? n = s.groups.get? n
  own : ∀ g, s.groups.get? c.gid = some g → ∃ h, t.groups.get? c.gid = some h ∧ GroupWrites W fl c.em g h

/-- The acting lanes are lanes of em (R59). -/
def ActsInEm (c : Ctx) : Prop := ∀ l, c.act.getLsbD l = true → c.em.getLsbD l = true

variable {W : List RegRef} {fl : Bool} {em : LaneMask} {c : Ctx} {g h k : Group} {s t u : State}

theorem GroupWrites.refl (g : Group) : GroupWrites W fl em g g :=
  ⟨⟨rfl, rfl, rfl, rfl, rfl, rfl, rfl, rfl, rfl, rfl, rfl, rfl⟩, fun _ _ _ _ => rfl, fun _ _ => rfl, fun _ _ => rfl, fun _ _ _ => rfl,
    fun _ => ⟨rfl, rfl⟩⟩

theorem controlKept.trans (a : controlKept g h) (b : controlKept h k) : controlKept g k := by
  unfold controlKept at *
  grind

theorem GroupWrites.trans (a : GroupWrites W fl em g h) (b : GroupWrites W fl em h k) : GroupWrites W fl em g k where
  control := a.control.trans b.control
  vreg r lane hl hw := (b.vreg r lane hl hw).trans (a.vreg r lane hl hw)
  sreg r hw := (b.sreg r hw).trans (a.sreg r hw)
  mask n hw := (b.mask n hw).trans (a.mask n hw)
  maskLane n lane hl := (b.maskLane n lane hl).trans (a.maskLane n lane hl)
  flags hf := ⟨(b.flags hf).1.trans (a.flags hf).1, (b.flags hf).2.trans (a.flags hf).2⟩

theorem Writes.refl (s : State) : Writes W fl c s s := ⟨rfl, fun _ _ => rfl, fun g hg => ⟨g, hg, .refl g⟩⟩

theorem Writes.trans (a : Writes W fl c s t) (b : Writes W fl c t u) : Writes W fl c s u where
  mem := b.mem.trans a.mem
  other n hn := (b.other n hn).trans (a.other n hn)
  own g hg := by
    obtain ⟨h, hh, wh⟩ := a.own g hg
    obtain ⟨k, hk, wk⟩ := b.own h hh
    exact ⟨k, hk, wh.trans wk⟩

/-- A change of the context's group only. -/
theorem writes_setGroup {f : Group → Group} (hf : ∀ g, GroupWrites W fl c.em g (f g)) : Writes W fl c s (s.setGroup c.gid f) where
  mem := rfl
  other n hn := Map.get?_modify_ne _ _ (Ne.symm hn)
  own g hg := ⟨f g, by simp [hg], hf g⟩

/-- A repetition of writers. -/
theorem writes_foldl {α : Type} {l : List α} {f : State → α → State} (hf : ∀ x ∈ l, ∀ t, Writes W fl c t (f t x)) :
    Writes W fl c s (l.foldl f s) := by
  induction l generalizing s with
  | nil => exact .refl s
  | cons x l ih => exact (hf x (by simp) s).trans (ih fun y hy => hf y (by simp [hy]))

/-! ### The writers -/

/-- The lanes that act are lanes of em (R59). -/
theorem guardLanes_subset {i : Hdr} {lane : Nat} (hl : (guardLanes g i em).getLsbD lane = true) : em.getLsbD lane = true := by
  unfold guardLanes at hl
  rw [BitVec.getLsbD_and, Bool.and_eq_true] at hl
  exact hl.1

theorem mem_refsV {r : BitVec 8} {n q : Nat} : RegRef.v q ∈ refsV r n ↔ r.toNat ≤ q ∧ q < r.toNat + n := by
  simp only [refsV, List.mem_map, List.mem_range, RegRef.v.injEq]
  constructor
  · rintro ⟨i, hi, rfl⟩
    omega
  · rintro ⟨h1, h2⟩
    exact ⟨q - r.toNat, by omega, by omega⟩

/-- Vector registers in lanes of em. -/
theorem groupWrites_v {r : BitVec 8} {n : Nat} {v : Map Word}
    (hv : ∀ q lane, lane < 32 → RegRef.v q ∉ refsV r n ∨ em.getLsbD lane = false → Map.getD v (q * 32 + lane) 0 = Map.getD g.v (q * 32 + lane) 0) :
    GroupWrites (refsV r n) fl em g { g with v := v } :=
  { GroupWrites.refl (W := refsV r n) (fl := fl) (em := em) g with
    vreg := hv }

theorem writes_setVregs {r : BitVec 8} {lane n x : Nat} (hl : lane < 32) (he : c.em.getLsbD lane = true) :
    Writes (refsV r n) fl c s (setVregs s c.gid r.toNat lane n x) := by
  refine writes_setGroup fun g => groupWrites_v fun q l hl' hq => putVregs_ne _ _ _ _ _ _ fun i hi e => ?_
  obtain rfl : lane = l := by omega
  have hq' : RegRef.v q ∈ refsV r n := mem_refsV.mpr (by omega)
  simp_all

theorem writes_setDstLanes {r : BitVec 8} {n : Nat} {f : Nat → Nat} (ha : ActsInEm c) :
    Writes (refsV r n) fl c s (setDstLanes s c r.toNat n f) := by
  refine writes_setGroup fun g => groupWrites_v fun q l hl' hq => foldl_putVregs_ne _ _ _ _ _ _ fun j hj i hi e => ?_
  obtain ⟨hj32, hjact⟩ := (mem_lanesOf _ _).mp hj
  obtain rfl : j = l := by omega
  have hq' : RegRef.v q ∈ refsV r n := mem_refsV.mpr (by omega)
  have hem := ha j hjact
  simp_all

theorem writes_setSreg {r x : Nat} : Writes [.s r] fl c s (setSreg s c.gid r x) :=
  writes_setGroup fun g =>
    { GroupWrites.refl (W := [.s r]) (fl := fl) (em := c.em) g with
      sreg := fun q hq => Map.getD_putD_ne _ _ _ (by simpa using Ne.symm (fun e => hq (by simp [e]))) }

theorem writes_setDstScalar {n x : Nat} {d : Dst} : Writes (refsDst n d) fl c s (setDstScalar s c.gid d x) := by
  cases d with
  | v r => exact .refl s
  | s r => exact writes_setSreg
  | sz => exact .refl s

/-- A compare writes its mask in the lanes that act, and cm7 takes no write (R44). -/
theorem writes_compareMask {m : BitVec 3} {vec : Bool} {f : (Nat ⊕ Unit) → Bool}
    (ha : ActsInEm c) : Writes (refsMask m) fl c s (compareMask s c m vec f) := by
  unfold compareMask setMask
  extract_lets new
  split
  · exact .refl s
  · next h7 =>
    have hm : refsMask m = [.cm m.toNat] := by
      unfold refsMask
      rw [if_neg (by rintro rfl; exact h7 rfl)]
    rw [hm]
    refine writes_setGroup fun g =>
      { GroupWrites.refl (W := [.cm m.toNat]) (fl := fl) (em := c.em) g with
        mask := fun n hn => ?_
        maskLane := fun n lane hl => ?_ }
    · have hne : m.toNat ≠ n := fun e => hn (by simp [e])
      simp [Group.mask, Map.getD_putD_ne _ _ _ hne]
    · by_cases hne : m.toNat = n
      · subst hne
        have hact : c.act.getLsbD lane = false := by
          by_contra hc
          rw [ha lane (by simpa using hc)] at hl
          cases hl
        simpa [Group.mask, h7, mergeLanes, hact] using BitVec.lt_of_getLsbD
      · simp [Group.mask, Map.getD_putD_ne _ _ _ hne]

theorem writes_orFlags {f : Flags} : Writes W true c s (orFlags s c.gid f) :=
  writes_setGroup fun g =>
    { GroupWrites.refl (W := W) (fl := true) (em := c.em) g with
      flags := nofun }

theorem writes_setGenerator {lane : Nat} {w : Word} : Writes W true c s (setGenerator s c.gid lane w) :=
  writes_setGroup fun g =>
    { GroupWrites.refl (W := W) (fl := true) (em := c.em) g with
      flags := nofun }

theorem writes_setSplit {si : Nat} {f : Split → Split} : Writes W fl c s (setSplit s c.gid si f) :=
  writes_setGroup fun g => { GroupWrites.refl (W := W) (fl := fl) (em := c.em) g with }

theorem writes_ite {P : Prop} [Decidable P] (ht : Writes W fl c s t) (hu : Writes W fl c s u) : Writes W fl c s (if P then t else u) := by
  split
  · exact ht
  · exact hu

/-- Taking a number for a split. -/
theorem writes_fresh (s : State) : Writes W fl c s s.fresh.2 := ⟨rfl, fun _ _ => rfl, fun g hg => ⟨g, hg, .refl g⟩⟩

/-- Dividing a split changes splits only (R39, R116). -/
theorem writes_divide {si : Nat} {join : CodeAddr} {parts : List (CodeAddr × LaneMask)} :
    Writes W fl c s (divide s c.gid si join parts) := by
  unfold divide
  split
  · exact .refl s
  · split
    · refine writes_ite writes_setSplit (writes_ite ?_ writes_setSplit)
      refine writes_setSplit.trans (writes_foldl fun p _ t => ?_)
      split
      · exact .refl t
      · next i _ =>
        exact (writes_fresh t).trans (writes_setGroup fun g => { GroupWrites.refl (W := W) (fl := fl) (em := c.em) g with })
    · exact .refl s

/-! ### The effects -/

/-- An effect that completes, its registers written as `Writes` says. -/
def ResWrites (W : List RegRef) (fl : Bool) (c : Ctx) (s : State) : Res → Prop
  | .done t => Writes W fl c s t
  | .jump t => Writes W fl c s t
  | _ => False

theorem iRegs_eq (w : IWidth) : iRegs w = iwN w := by cases w <;> rfl

theorem fRegs_eq (f : FFmt) : fRegs f = ffN f := by cases f <;> rfl

theorem writes_intOp {n : Nat} {d : Dst} {f : (Nat ⊕ Unit) → Nat} (ha : ActsInEm c) : ResWrites (refsDst n d) fl c s (intOp s c n d f) := by
  cases d with
  | v r => exact writes_setDstLanes ha
  | s r => exact writes_setDstScalar (n := n) (d := .s r)
  | sz => exact .refl s

theorem writes_intOp_width {w : IWidth} {d : Dst} {f : (Nat ⊕ Unit) → Nat} (ha : ActsInEm c) :
    ResWrites (refsDst (iwN w) d) fl c s (intOp s c (iRegs w) d f) := by
  rw [iRegs_eq]
  exact writes_intOp ha

/-- Flags after a result, and a draw where the operation makes one (R85, R88). -/
theorem Writes.flagged {P : Prop} [Decidable P] {f : Flags} {lane : Nat} {w : Word} (h : Writes W true c s t) :
    Writes W true c s (if P then setGenerator (orFlags t c.gid f) c.gid lane w else orFlags t c.gid f) :=
  have ho := h.trans writes_orFlags
  writes_ite (ho.trans writes_setGenerator) ho

/-- A floating result sets FFLAGS and may draw (R85, R88). -/
theorem writes_floatOp {f : FFmt} {draws : Bool} {code : Nat} {d : Dst} {op : (Nat ⊕ Unit) → Nat → Rm → Nat × Flags} (ha : ActsInEm c) :
    Writes (refsDst (ffN f) d) true c s (floatOp s c f draws code d op) := by
  unfold floatOp
  dsimp only
  split
  · next r =>
    refine writes_foldl fun l hl t => Writes.flagged ?_
    obtain ⟨hl32, hact⟩ := (mem_lanesOf _ _).mp hl
    rw [fRegs_eq]
    exact writes_setVregs hl32 (ha l hact)
  · exact writes_setDstScalar.flagged

/-- Conversions write the destination of their type's width (R142). -/
theorem cvtRegs_eq (t : BitVec 6) : (if cvtBits t.toNat = 64 then 2 else 1) = cvtRegs t := by
  unfold cvtRegs
  revert t
  decide

theorem writes_branch {target join : CodeAddr} : Writes W fl c s (branch s c target join) :=
  writes_ite writes_setSplit (writes_ite writes_setSplit writes_divide)

/-- Where every target is a code address, a branch to registers does not fault (R112). -/
theorem writes_branchReg {a : Tgt} {join : CodeAddr} {before : State → State} (hb : Writes W fl c s (before s))
    (ht : (lanesOf c.act).all (fun l => decide (tgtLane c a l < 2 ^ 55)) = true) : ResWrites W fl c s (branchReg c a join before s) := by
  have hbad : lanesWhere c.act (fun l => decide (2 ^ 55 ≤ tgtLane c a l)) = 0 := by
    have hnil : (lanesOf c.act).filter (fun l => decide (2 ^ 55 ≤ tgtLane c a l)) = [] := by
      rw [List.filter_eq_nil_iff]
      intro l hl
      have := List.all_eq_true.mp ht l hl
      simpa using this
    rw [lanesWhere, hnil]
    rfl
  unfold branchReg
  simp only [hbad, ne_eq, not_true_eq_false, if_false]
  split
  · exact hb.trans writes_setSplit
  · exact hb.trans writes_divide

theorem targets_of_fit {a : Tgt} {i : Instr} (hi : branchTarget i c = branchTarget (.ret ⟨false, 7, 0, false⟩ a) c)
    (h : (branchTarget i c).isSome = true) : (lanesOf c.act).all (fun l => decide (tgtLane c a l < 2 ^ 55)) = true := by
  rw [hi] at h
  simp only [branchTarget] at h
  by_contra hn
  rw [if_neg hn] at h
  cases h

theorem writes_writeAll {d : LDst} {n x : Nat} (ha : ActsInEm c) : Writes (refsL n d) fl c s (writeAll s c d n x) := by
  cases d with
  | v r => exact writes_setDstLanes ha
  | s r => exact writes_setSreg

/-- Which lanes act is no part of the frame. -/
theorem writes_of_act {m : LaneMask} {r : Res} (h : ResWrites W fl { c with act := m } s r) : ResWrites W fl c s r := by
  cases r with
  | done t => exact ⟨h.mem, h.other, h.own⟩
  | jump t => exact ⟨h.mem, h.other, h.own⟩
  | _ => exact h

/-- SEL acts in every lane of em (R130). -/
theorem writes_sel {w : IWidth} {d : Dst} {f : (Nat ⊕ Unit) → Nat} :
    ResWrites (refsDst (iwN w) d) fl c s (if c.em = 0 then .done s else intOp s { c with act := c.em } (iRegs w) d f) := by
  split
  · exact .refl s
  · exact writes_of_act (writes_intOp_width fun _ h => h)

/-- What each instruction that only reads and writes registers does when it is ready. -/
theorem registerOnly_writes {i : Instr} (hr : registerOnly i = true) (ha : ActsInEm c) (ht : targetsFit i c = true) (s : State) :
    ∃ body, (∀ u, exec i u = .next (runInstr i (actsAlways i) body u)) ∧ ResWrites (refsOf i).2 (floating i) c s (body c s) := by
  cases i with
  | nop hd => exact ⟨_, fun _ => rfl, .refl s⟩
  | bra hd off join => exact ⟨_, fun _ => rfl, writes_branch⟩
  | brx hd a join => exact ⟨_, fun _ => rfl, writes_branchReg (.refl s) (targets_of_fit rfl ht)⟩
  | call hd d off => exact ⟨_, fun _ => rfl, (writes_setDstLanes ha).trans writes_branch⟩
  | callx hd d a => exact ⟨_, fun _ => rfl, writes_branchReg (writes_setDstLanes ha) (targets_of_fit rfl ht)⟩
  | ret hd a => exact ⟨_, fun _ => rfl, writes_branchReg (.refl s) (targets_of_fit rfl ht)⟩
  | msave hd d => exact ⟨_, fun _ => rfl, writes_setDstScalar⟩
  | mand hd x | mor hd x | mrest hd x => exact ⟨_, fun _ => rfl, writes_setSplit⟩
  | iadd hd w o | isub hd w o | imul hd w o | and hd w o | or hd w o | xor hd w o | andn hd w o =>
    exact ⟨_, fun _ => rfl, writes_intOp_width ha⟩
  | imulh hd w uns o | imin hd w uns o | imax hd w uns o | bfx hd w uns o => exact ⟨_, fun _ => rfl, writes_intOp_width ha⟩
  | shl hd w o | shr hd w o | sar hd w o | rotl hd w o => exact ⟨_, fun _ => rfl, writes_intOp_width ha⟩
  | imad hd w o | bfi hd w o => exact ⟨_, fun _ => rfl, writes_intOp_width ha⟩
  | iabs hd w o | popc hd w o | clz hd w o | brev hd w o | mov hd w o => exact ⟨_, fun _ => rfl, writes_intOp_width ha⟩
  | lea hd sh uns o => exact ⟨_, fun _ => rfl, writes_intOp ha⟩
  | sel hd w o => exact ⟨_, fun _ => rfl, writes_sel⟩
  | icmp hd w uns k o => exact ⟨_, fun _ => rfl, writes_compareMask ha⟩
  | fadd hd f o | fsub hd f o | fmul hd f o | ffma hd f o | fmin hd f o | fmax hd f o | fscl hd f o =>
    exact ⟨_, fun _ => rfl, writes_floatOp ha⟩
  | fcmp hd f k o => exact ⟨_, fun _ => rfl, (writes_compareMask ha).trans writes_orFlags⟩
  | frcp hd f o | frsq hd f o | fsqrt hd f o | fex2 hd f o | flg2 hd f o | fsin hd f o | fcos hd f o =>
    exact ⟨_, fun _ => rfl, writes_floatOp ha⟩
  | fcvt hd o =>
    refine ⟨_, fun _ => rfl, ?_⟩
    dsimp only
    split
    · next r e =>
      have hd : (refsOf (.fcvt hd o)).2 = refsV r (if cvtBits o.dstt.toNat = 64 then 2 else 1) := by
        rw [cvtRegs_eq]
        simp [refsOf, e, refsDst]
      rw [hd]
      refine writes_foldl fun l hl t => Writes.flagged ?_
      obtain ⟨hl32, hact⟩ := (mem_lanesOf _ _).mp hl
      exact writes_setVregs hl32 (ha l hact)
    · exact writes_setDstScalar.flagged
  | fcls hd f scalar mods m a set => exact ⟨_, fun _ => rfl, writes_compareMask ha⟩
  | frnd hd f scalar mods d a rnd => exact ⟨_, fun _ => rfl, writes_floatOp ha⟩
  | shfl hd mode pair d a b imm => exact ⟨_, fun _ => rfl, writes_setDstLanes ha⟩
  | vote hd mode d a => exact ⟨_, fun _ => rfl, writes_writeAll ha⟩
  | redux hd op f d a =>
    refine ⟨_, fun _ => rfl, ?_⟩
    dsimp only
    split
    · exact (writes_writeAll ha).flagged
    · exact writes_writeAll ha
  | matchLanes hd pair d a | prmt hd d a b c3 imm => exact ⟨_, fun _ => rfl, writes_setDstLanes ha⟩
  | csrr hd d r => exact ⟨_, fun _ => rfl, writes_setDstScalar⟩
  | _ => cases hr

/-! ### From the effect to the next state -/

/-- A group without what completion changes of it: its splits, its counts and its results in flight. -/
def settledGroup (g : Group) : Group :=
  { g with issued := 0, issueLog := [], lastSplit := none, splits := [], inflight := [], flagsAt := 0 }

/-- The groups after completion, whether the effect set the program counters itself or not. -/
theorem runInstr_writes {i : Instr} (e : readyCtx i s = some c) {body : Ctx → State → Res}
    (hb : ResWrites W fl c (entered i s c) (body c (entered i s c))) :
    ∃ u, Writes W fl c (entered i s c) u ∧ (runInstr i (actsAlways i) body s).mem = u.mem
      ∧ ∀ n, ((runInstr i (actsAlways i) body s).groups.get? n).map settledGroup = (u.groups.get? n).map settledGroup := by
  cases hr : body c (entered i s c) with
  | done u =>
    rw [hr] at hb
    rw [runInstr_done e hr]
    exact ⟨u, hb, by simp, fun n => done_get u c i (lengthOf i) n settledGroup fun _ => rfl⟩
  | jump u =>
    rw [hr] at hb
    rw [runInstr_jump e hr]
    exact ⟨u, hb, by simp, fun n => finish_get u c i n⟩
  | fault _ _ _ => rw [hr] at hb; exact hb.elim
  | wait => rw [hr] at hb; exact hb.elim
  | held _ => rw [hr] at hb; exact hb.elim

theorem get?_of_settled {m m' : Map Group} {n : Nat} (e : (m.get? n).map settledGroup = (m'.get? n).map settledGroup) (hg : m'.get? n = some g) :
    ∃ h, m.get? n = some h ∧ settledGroup h = settledGroup g := by
  rw [hg] at e
  exact Option.map_eq_some_iff.mp e

/-- No register is among what completion changes. -/
theorem registersKept_of_settled (e : settledGroup h = settledGroup k) (a : registersKept g k) : registersKept g h := by
  have b : registersKept g (settledGroup k) := a
  rw [← e] at b
  exact b

theorem groupWrites_of_settled (e : settledGroup h = settledGroup k) (a : GroupWrites W fl em g k) : GroupWrites W fl em g h := by
  have b : GroupWrites W fl em g (settledGroup k) := ⟨a.control, a.vreg, a.sreg, a.mask, a.maskLane, a.flags⟩
  rw [← e] at b
  exact ⟨b.control, b.vreg, b.sreg, b.mask, b.maskLane, b.flags⟩

theorem registersKept_refl (g : Group) : registersKept g g :=
  ⟨fun _ _ => rfl, fun _ => rfl, fun _ => rfl, (GroupWrites.refl (W := []) (fl := true) (em := 0) g).control, rfl⟩

/-- Sampling changes no register (R332). -/
theorem sampleSpecials_registers (s : State) (c : Ctx) :
    (sampleSpecials s c).groups = s.groups
      ∨ ∃ f, (sampleSpecials s c).groups = s.groups.modify (c.gid + 32) f ∧ ∀ g, registersKept g (f g) := by
  unfold sampleSpecials
  split
  · refine .inr ⟨_, State.setGroup_groups .., fun g => ?_⟩
    exact registersKept_refl g
  · exact .inl rfl

/-- What an effect finds of each group: its registers as they were (R317, R332). -/
theorem entered_registers (i : Instr) (c : Ctx) {n : Nat} (hg : s.groups.get? n = some g) :
    ∃ h, (entered i s c).groups.get? n = some h ∧ registersKept g h := by
  obtain ⟨B, O, hB, -⟩ := entered_parts i s c
  have he : (entered i s c).groups = (sampleSpecials s c).groups := by rw [hB]
  rcases sampleSpecials_registers s c with hs | ⟨f, hs, hf⟩
  · exact ⟨g, by rw [he, hs, hg], registersKept_refl g⟩
  · by_cases hn : c.gid + 32 = n
    · subst hn
      exact ⟨f g, by rw [he, hs, Map.get?_modify_self, hg]; rfl, hf g⟩
    · exact ⟨g, by rw [he, hs, Map.get?_modify_ne _ _ hn, hg], registersKept_refl g⟩

/-- Settles O48: the effect writes its destinations in lanes of em, and entering and completing touch no register. -/
theorem registerFrame : Obligations.RegisterFrame := by
  intro i s t c hr e ht ht'
  obtain ⟨hg, -, -, -, -, -, hem, hact⟩ := ctxOf_some (readyCtx_some e).1
  have ha : ActsInEm c := fun l hl => guardLanes_subset (hact ▸ hl)
  obtain ⟨body, hx, hb⟩ := registerOnly_writes hr ha ht (entered i s c)
  obtain ⟨u, hu, hmem, hgr⟩ := runInstr_writes e hb
  obtain rfl := Host.Outcome.next.inj ((hx s).symm.trans ht')
  refine ⟨fun a => ?_, fun n g hn hs => ?_, ?_⟩
  · unfold State.byte
    rw [hmem, hu.mem, entered_mem]
  · obtain ⟨g1, h1, k1⟩ := entered_registers i c hs
    obtain ⟨h, hh, eh⟩ := get?_of_settled (hgr n) ((hu.other n hn).trans h1)
    exact ⟨h, hh, registersKept_of_settled eh k1⟩
  · obtain ⟨k, hk, wk⟩ := hu.own c.g (by rw [entered_self, hg])
    obtain ⟨h, hh, eh⟩ := get?_of_settled (hgr c.gid) hk
    have w := groupWrites_of_settled eh wk
    exact ⟨h, hh, w.control, fun r lane hl hw => w.vreg r lane hl (.inl hw), w.sreg, w.mask,
      fun r lane hl he => w.vreg r lane hl (.inr he), w.maskLane, w.flags⟩

end Sys2Proof.Claims
end

/-! ## Memory stays canonical, and fabric time goes forward -/

section

-- The proofs are checked one after another: hundreds of them at once, each waiting for lemmas of the one before, need too many threads.
set_option Elab.async false

namespace Sys2Proof.Machine

/-!
Of a state, two parts matter here: its memory and the times of its dies. `Keeps s₀ t` says that memory stayed canonical if it was so in
`s₀`, and that no die's time is lower than it was in `s₀`. Every function of the model that gives a state has its lemma: if its argument
keeps `s₀`, so does what it gives. Each follows from the lemmas of the functions that it calls.
-/

/-- Memory canonical if it was so in `s₀`, and no die's time lower than in `s₀`. -/
def Lawful (s₀ : State) (m : List Host.Cell) (ds : Map Die) : Prop :=
  (Memory.wf s₀.mem = true → Memory.wf m = true) ∧ ∀ d, (s₀.die d).time ≤ (ds.getD d Die.reset).time

/-- `t` may come after `s₀`. -/
def Keeps (s₀ t : State) : Prop := Lawful s₀ t.mem t.dies

variable {s₀ s : State}

@[simp] theorem lawful_fields : Lawful s₀ s.mem s.dies ↔ Keeps s₀ s := Iff.rfl

/-- The other fields of a state do not matter. -/
@[simp] theorem keeps_mk (ag cu fc ni ck m pa ds co gr bl la re cl rs ng li px hh ms ac tk ob se fe cy cm sn cd ra cs ts ro rg rt qu sq pg lr br
    sp cs' cv sc tl st fq fp fs qs bi mg im be tr) :
    Keeps s₀ ⟨ag, cu, fc, ni, ck, m, pa, ds, co, gr, bl, la, re, cl, rs, ng, li, px, hh, ms, ac, tk, ob, se, fe, cy, cm, sn, cd, ra, cs, ts, ro, rg,
      rt, qu, sq, pg, lr, br, sp, cs', cv, sc, tl, st, fq, fp, fs, qs, bi, mg, im, be, tr⟩ ↔ Lawful s₀ m ds := Iff.rfl

theorem Keeps.refl (s : State) : Keeps s s := ⟨id, fun _ => le_rfl⟩

theorem Keeps.trans {s t u : State} (h : Keeps s t) (k : Keeps t u) : Keeps s u :=
  ⟨k.1 ∘ h.1, fun d => (h.2 d).trans (k.2 d)⟩

@[simp] theorem keeps_ite {c : Prop} [Decidable c] {a b : State} (ha : Keeps s₀ a) (hb : Keeps s₀ b) : Keeps s₀ (if c then a else b) := by
  split
  · exact ha
  · exact hb

theorem keeps_forAll {α : Type} {l : List α} {f : α → State → State} (h : Keeps s₀ s) (hf : ∀ x t, Keeps s₀ t → Keeps s₀ (f x t)) :
    Keeps s₀ (forAll l s f) := Machine.forAll_keeps (Keeps s₀) l s f h hf

theorem keeps_foldl {α : Type} {l : List α} {f : State → α → State} (h : Keeps s₀ s) (hf : ∀ t x, Keeps s₀ t → Keeps s₀ (f t x)) :
    Keeps s₀ (l.foldl f s) := by
  induction l generalizing s with
  | nil => exact h
  | cons x t ih => exact ih (hf s x h)

theorem Keeps.of_snd {α : Type} {r : α × State} {x : α} {t : State} (e : r = (x, t)) (h : Keeps s₀ r.2) : Keeps s₀ t := by
  subst e; exact h

theorem Keeps.of_fst {α : Type} {r : State × α} {x : α} {t : State} (e : r = (t, x)) (h : Keeps s₀ r.1) : Keeps s₀ t := by
  subst e; exact h

/-! ### The same of the other ways in which a function gives its state -/

/-- The state, if any, in which an instruction's own effect ends. -/
def KeepsRes (s₀ : State) : Res → Prop
  | .done t => Keeps s₀ t
  | .jump t => Keeps s₀ t
  | .held t => Keeps s₀ t
  | .fault .. => True
  | .wait => True

/-- The next state, if any. -/
def KeepsOut (s₀ : State) : Host.Outcome State Fault Refusal → Prop
  | .next t => Keeps s₀ t
  | .fault _ => True
  | .refused _ => True

/-- The state, if any, that a management command leaves. -/
def KeepsEnd (s₀ : State) : CmdEnd → Prop
  | .done _ t => Keeps s₀ t
  | .later _ t => Keeps s₀ t
  | .wait => True
  | .writes _ => True

/-- The state after an instruction's checks. -/
def KeepsChecked (s₀ : State) : Checked → Prop
  | .stop r => KeepsRes s₀ r
  | .go _ t => Keeps s₀ t

/-- The state in which a split's turn ends or runs an instruction. -/
def KeepsChosen (s₀ : State) : Chosen → Prop
  | .idle t => Keeps s₀ t
  | .run _ t => Keeps s₀ t

theorem keepsRes_ite {c : Prop} [Decidable c] {a b : Res} (ha : KeepsRes s₀ a) (hb : KeepsRes s₀ b) : KeepsRes s₀ (if c then a else b) := by
  split
  · exact ha
  · exact hb

theorem keepsEnd_ite {c : Prop} [Decidable c] {a b : CmdEnd} (ha : KeepsEnd s₀ a) (hb : KeepsEnd s₀ b) : KeepsEnd s₀ (if c then a else b) := by
  split
  · exact ha
  · exact hb

theorem keepsRes_getD {o : Option Res} {r : Res} (ho : ∀ x, o = some x → KeepsRes s₀ x) (hr : KeepsRes s₀ r) : KeepsRes s₀ (o.getD r) := by
  cases o with
  | none => exact hr
  | some x => exact ho x rfl

theorem keepsRes_of_map {α : Type} {o : Option α} {f : α → Res} {r : Res} (e : o.map f = some r) (hf : ∀ x, KeepsRes s₀ (f x)) : KeepsRes s₀ r := by
  obtain ⟨x, -, rfl⟩ := Option.map_eq_some_iff.mp e
  exact hf x

theorem keeps_foldl_fst {α β : Type} {l : List α} {f : State × β → α → State × β} {b : β} (h : Keeps s₀ s)
    (hf : ∀ a x, Keeps s₀ a.1 → Keeps s₀ (f a x).1) : Keeps s₀ (l.foldl f (s, b)).1 := by
  induction l generalizing s b with
  | nil => exact h
  | cons x t ih => exact ih (hf (s, b) x h)

theorem keeps_foldl_snd {α β : Type} {l : List α} {f : β × State → α → β × State} {b : β} (h : Keeps s₀ s)
    (hf : ∀ a x, Keeps s₀ a.2 → Keeps s₀ (f a x).2) : Keeps s₀ (l.foldl f (b, s)).2 := by
  induction l generalizing s b with
  | nil => exact h
  | cons x t ih => exact ih (hf (b, s) x h)

theorem keeps_foldl_bind {α : Type} {l : List α} {f : State → α → Option State} (h : Keeps s₀ s)
    (hf : ∀ t x u, Keeps s₀ t → f t x = some u → Keeps s₀ u) {t : State} (e : l.foldl (fun o x => o.bind (f · x)) (some s) = some t) :
    Keeps s₀ t := by
  induction l generalizing s with
  | nil => cases e; exact h
  | cons x l ih =>
    rw [List.foldl_cons, Option.bind_some] at e
    cases hx : f s x with
    | none =>
      rw [hx] at e
      have hn : l.foldl (fun o x => o.bind (f · x)) none = none := by
        clear e ih
        induction l with
        | nil => rfl
        | cons y l ih => exact ih
      rw [hn] at e
      cases e
    | some u => exact ih (hf s x u h hx) (by rwa [hx] at e)

theorem Lawful.map_time {m : List Host.Cell} {ds : Map Die} (h : Lawful s₀ m ds) {f : Nat × Die → Die} (hf : ∀ p, p.2.time ≤ (f p).time) :
    Lawful s₀ m (ds.map (fun p => (p.1, f p))) := by
  refine ⟨h.1, fun d => (h.2 d).trans ?_⟩
  unfold Map.getD
  rw [Map.get?_mapVals ds (fun k x => f (k, x)) d]
  cases Map.get? ds d with
  | none => exact le_rfl
  | some x => exact hf (d, x)

theorem KeepsChecked.getD {o : Option Res} {k : Checked} (hk : KeepsChecked s₀ k) (ho : ∀ r, o = some r → KeepsRes s₀ r) :
    KeepsChecked s₀ ((o.map Checked.stop).getD k) := by
  cases o with
  | none => exact hk
  | some r => exact ho r rfl


/-! #### Mem -/

theorem keeps_setCore (h : Keeps s₀ s) (c f) : Keeps s₀ (s.setCore c f) := h

theorem keeps_setDie (h : Keeps s₀ s) {d f} (hf : (s.die d).time ≤ (f (s.die d)).time) : Keeps s₀ (s.setDie d f) := by
  refine ⟨h.1, fun k => ?_⟩
  simp only [State.setDie, Map.getD_put]
  split
  · next hk => subst hk; exact (h.2 d).trans hf
  · exact h.2 k

theorem keeps_setLine (h : Keeps s₀ s) (l f) : Keeps s₀ (s.setLine l f) := h

theorem keeps_setProxy (h : Keeps s₀ s) (l d f) : Keeps s₀ (s.setProxy l d f) := h

theorem keeps_setBent (h : Keeps s₀ s) (b f) : Keeps s₀ (s.setBent b f) := h

theorem keeps_setGroup (h : Keeps s₀ s) (g f) : Keeps s₀ (s.setGroup g f) := h

theorem keeps_setBlock (h : Keeps s₀ s) (b f) : Keeps s₀ (s.setBlock b f) := h

theorem keeps_setLaunch (h : Keeps s₀ s) (l f) : Keeps s₀ (s.setLaunch l f) := h

theorem keeps_setCmd (h : Keeps s₀ s) (c f) : Keeps s₀ (s.setCmd c f) := h

theorem keeps_setTask (h : Keeps s₀ s) (tt f) : Keeps s₀ (s.setTask tt f) := h

theorem keeps_setMgmt (h : Keeps s₀ s) (f) : Keeps s₀ (s.setMgmt f) := h

theorem keeps_setBay (h : Keeps s₀ s) (core b f) : Keeps s₀ (s.setBay core b f) := h

theorem keeps_fresh (h : Keeps s₀ s) : Keeps s₀ (s.fresh).2 := h

theorem keeps_free (h : Keeps s₀ s) : Keeps s₀ (s.free).2 := h

theorem keeps_freeBool (h : Keeps s₀ s) : Keeps s₀ (s.freeBool).2 := h

theorem keeps_setByte (h : Keeps s₀ s) (pa b) : Keeps s₀ (s.setByte pa b) := ⟨fun w => wf_setByte s pa b (h.1 w), h.2⟩

theorem keeps_setGroupKept (h : Keeps s₀ s) (gid f) : Keeps s₀ (s.setGroupKept gid f) := h

theorem keeps_writeByte (h : Keeps s₀ s) (pa b) : Keeps s₀ (writeByte s pa b) := by
  grind [writeByte, keeps_setGroupKept, keeps_setGroup, keeps_setByte]

theorem keeps_writeBytes (h : Keeps s₀ s) (pa bs) : Keeps s₀ (writeBytes s pa bs) := by
  induction bs generalizing s pa with
  | nil => exact h
  | cons b t ih => exact ih (keeps_writeByte h pa b) (pa + 1)

theorem keeps_writeNat (h : Keeps s₀ s) (pa n x) : Keeps s₀ (writeNat s pa n x) := keeps_writeBytes h ..

theorem keeps_readOpen (h : Keeps s₀ s) (k pa n) : Keeps s₀ (readOpen s k pa n).2 := by
  grind [readOpen, keeps_mk, lawful_fields]

theorem keeps_overwrite (h : Keeps s₀ s) (pa bytes) : Keeps s₀ (overwrite s pa bytes) := by
  grind [overwrite, keeps_writeBytes, keeps_mk, lawful_fields]

theorem keeps_setCarry (h : Keeps s₀ s) (pa n c) : Keeps s₀ (setCarry s pa n c) := keeps_foldl h fun _ _ ht => ht

theorem keeps_setHalf (h : Keeps s₀ s) (die line half x) : Keeps s₀ (setHalf s die line half x) := h

theorem keeps_fetchHalves (h : Keeps s₀ s) (die line) : Keeps s₀ (fetchHalves s die line) := by
  grind [fetchHalves, keeps_forAll, keeps_freeBool, keeps_setHalf]

theorem keeps_ownHalves (h : Keeps s₀ s) (die pa size) : Keeps s₀ (ownHalves s die pa size) := by
  grind [ownHalves, keeps_forAll, keeps_setHalf]

theorem keeps_bridgeRead (h : Keeps s₀ s) (die pa size uncached) : Keeps s₀ (bridgeRead s die pa size uncached) := by
  grind [bridgeRead, keeps_forAll, keeps_fetchHalves]

theorem keeps_bridgeWrite (h : Keeps s₀ s) (die pa size uncached) : Keeps s₀ (bridgeWrite s die pa size uncached) := by
  grind [bridgeWrite, keeps_ownHalves]

theorem keeps_observe (h : Keeps s₀ s) (gid lane ws) : Keeps s₀ (observe s gid lane ws) := by
  grind [observe, keeps_mk, lawful_fields]

theorem keeps_observeLanes (h : Keeps s₀ s) (gid m ws) : Keeps s₀ (observeLanes s gid m ws) :=
  keeps_foldl h fun _ _ ht => keeps_observe ht ..

/-! #### Ops -/

theorem keeps_setSplit (h : Keeps s₀ s) (gid si f) : Keeps s₀ (setSplit s gid si f) := h

theorem keeps_wakeGroup (h : Keeps s₀ s) (gid p step) : Keeps s₀ (wakeGroup s gid p step) := h

theorem keeps_divide (h : Keeps s₀ s) (gid si join parts) : Keeps s₀ (divide s gid si join parts) := by
  unfold divide
  split <;> grind [keeps_setSplit, keeps_foldl, keeps_fresh, keeps_setGroup]

theorem keeps_logEvent (h : Keeps s₀ s) (die code unit index d0 d1) : Keeps s₀ (logEvent s die code unit index d0 d1) := by
  grind [logEvent, keeps_setDie]

theorem keeps_stopGroups (h : Keeps s₀ s) (blk) : Keeps s₀ (stopGroups s blk) := h

theorem keeps_failLevel (h : Keeps s₀ s) (blk d engine code value pc group) : Keeps s₀ (failLevel s blk d engine code value pc group) := by
  grind [failLevel, keeps_setBlock, keeps_mk, lawful_fields]

theorem keeps_terminate (h : Keeps s₀ s) (blk c pc) : Keeps s₀ (terminate s blk c pc) := by
  unfold terminate
  split <;> grind [keeps_setBlock, keeps_stopGroups, keeps_setLaunch, keeps_mk, lawful_fields, keeps_logEvent]

theorem keeps_retireLocks (h : Keeps s₀ s) (gone) : Keeps s₀ (retireLocks s gone) := h

theorem keeps_endGroup (h : Keeps s₀ s) (gid) : Keeps s₀ (endGroup s gid) := by
  grind [endGroup, keeps_retireLocks, keeps_mk, lawful_fields]

theorem keeps_reapGroup (h : Keeps s₀ s) (gid) : Keeps s₀ (reapGroup s gid) := by
  grind [reapGroup, keeps_endGroup]

theorem keeps_lanesLeave (h : Keeps s₀ s) (gid si lanes) : Keeps s₀ (lanesLeave s gid si lanes) := keeps_reapGroup (keeps_setGroup h ..) ..

theorem keeps_cutToks (h : Keeps s₀ s) (gid dead) : Keeps s₀ (cutToks s gid dead) := h

theorem keeps_dropTokLane (h : Keeps s₀ s) (gid lane) : Keeps s₀ (dropTokLane s gid lane) := h

theorem keeps_cutCmps (h : Keeps s₀ s) (gid lane f) : Keeps s₀ (cutCmps s gid lane f) := h

theorem keeps_endLane (h : Keeps s₀ s) (gid lane) : Keeps s₀ (endLane s gid lane) := by
  have one (g l) {t : State} (ht : Keeps s₀ t) (f : Group → Group) : Keeps s₀ (cutCmps ((dropTokLane t g l).setGroupKept g f) g l f) :=
    keeps_cutCmps (keeps_setGroupKept (keeps_dropTokLane ht g l) g f) g l f
  exact keeps_reapGroup (keeps_ite (one _ _ (one _ _ h _) _) (one _ _ h _)) gid

theorem keeps_endTaskLane (h : Keeps s₀ s) (tt) : Keeps s₀ (endTaskLane s tt) := by
  grind [endTaskLane, keeps_endLane, keeps_setGroupKept]

theorem keeps_dropAccsOf (h : Keeps s₀ s) (tt p) : Keeps s₀ (dropAccsOf s tt p) := by
  grind [dropAccsOf, keeps_mk, lawful_fields, keeps_forAll, keeps_cutToks, keeps_foldl]

theorem keeps_dropTaskAccs (h : Keeps s₀ s) (tt) : Keeps s₀ (dropTaskAccs s tt) := keeps_dropAccsOf h ..

theorem keeps_dropTaskWrites (h : Keeps s₀ s) (tt) : Keeps s₀ (dropTaskWrites s tt) := keeps_dropAccsOf h ..

theorem keeps_unbatch (h : Keeps s₀ s) (tt) : Keeps s₀ (unbatch s tt) := h

theorem keeps_cutRound (h : Keeps s₀ s) (tt) : Keeps s₀ (cutRound s tt) := h

theorem keeps_discardTask (h : Keeps s₀ s) (t) : Keeps s₀ (discardTask s t) := by
  unfold discardTask
  split
  · exact h
  · next k _ => exact keeps_unbatch (keeps_dropTaskAccs (keeps_endTaskLane (keeps_cutRound h t) k) t) t

theorem keeps_abortTask (h : Keeps s₀ s) (t) : Keeps s₀ (abortTask s t) := by
  unfold abortTask
  split
  · exact h
  · next k _ =>
    have hd := keeps_forAll (l := descendants s s.tasks.length t) (keeps_cutRound h t) (fun d _ hu => keeps_discardTask hu d)
    exact keeps_ite h (keeps_setTask (keeps_unbatch (keeps_dropTaskAccs (keeps_endTaskLane hd k) t) t) _ _)

theorem keeps_poisonTask (h : Keeps s₀ s) (tt) : Keeps s₀ (poisonTask s tt) := by
  grind [poisonTask, keeps_logEvent, keeps_setLaunch, keeps_discardTask, keeps_forAll]

theorem keeps_enterHandler (h : Keeps s₀ s) (gid si engine c eval) : Keeps s₀ (enterHandler s gid si engine c eval) := by
  grind [enterHandler, keeps_terminate, keeps_setGroup]

theorem keeps_deferFault (h : Keeps s₀ s) (gid g lanes) : Keeps s₀ (deferFault s gid g lanes) := by
  grind [deferFault, keeps_forAll, keeps_endTaskLane, keeps_setTask]

theorem keeps_takeFaultAt (h : Keeps s₀ s) (gid si engine c eval lanes) : Keeps s₀ (takeFaultAt s gid si engine c eval lanes) := by
  grind [takeFaultAt, keeps_deferFault, keeps_failLevel, keeps_poisonTask, keeps_enterHandler]

theorem keeps_rewind (h : Keeps s₀ s) (gid n) : Keeps s₀ (rewind s gid n) := by
  grind [rewind, keeps_setGroup, keeps_mk, lawful_fields]

theorem keeps_shadowMismatch (h : Keeps s₀ s) (gid n si what lane lanes) : Keeps s₀ (shadowMismatch s gid n si what lane lanes) := by
  simp only [shadowMismatch]
  repeat' split
  all_goals grind [keeps_rewind, keeps_setGroup, keeps_mk, lawful_fields, keeps_takeFaultAt,
    keeps_failLevel]

theorem keeps_takeFault (h : Keeps s₀ s) (c cause eval lanes) : Keeps s₀ (takeFault s c cause eval lanes) := by
  grind [takeFault, keeps_setGroup, keeps_takeFaultAt, keeps_shadowMismatch]

theorem keeps_deliverFailure (h : Keeps s₀ s) (gid) : Keeps s₀ (deliverFailure s gid) := by
  grind [deliverFailure, keeps_takeFaultAt, keeps_setGroup]

theorem keeps_queueFailure (h : Keeps s₀ s) (id k cause eval) : Keeps s₀ (queueFailure s id k cause eval) :=
  keeps_deliverFailure (keeps_setGroup h ..) ..

theorem keeps_noteExit (h : Keeps s₀ s) (g lane) : Keeps s₀ (noteExit s g lane) := h

/-! #### Translate -/

theorem keeps_mayCorrect (h : Keeps s₀ s) (pa) : Keeps s₀ (mayCorrect s pa) := by
  grind [mayCorrect, keeps_setDie, keeps_mk, lawful_fields]

theorem keeps_translate (h : Keeps s₀ s) (die pasid n va) : Keeps s₀ (translate s die pasid n va).2 := by
  grind [translate, keeps_mk, lawful_fields, keeps_foldl, keeps_mayCorrect, keeps_bridgeRead, keeps_freeBool]

theorem keeps_postFault (h : Keeps s₀ s) (pasid va ipa flags) : Keeps s₀ (postFault s pasid va ipa flags).2 := by
  grind [postFault, keeps_fresh, keeps_mk, lawful_fields]

theorem keeps_fetchWords (h : Keeps s₀ s) (die l pc n) : Keeps s₀ (fetchWords s die l pc n).2 := by
  induction n generalizing s pc with
  | zero => exact h
  | succ n ih =>
    have ht := keeps_translate h die l.pasid Need.fetch (pc.toNat * 4)
    unfold fetchWords
    grind [keeps_readOpen, keeps_bridgeRead, keeps_mayCorrect]

/-! #### Access -/

theorem keeps_setAcc (h : Keeps s₀ s) (id f) : Keeps s₀ (s.setAcc id f) := h

theorem keeps_dropAcc (h : Keeps s₀ s) (id) : Keeps s₀ (s.dropAcc id) := h

theorem keeps_moveLast (h : Keeps s₀ s) (a) : Keeps s₀ (s.moveLast a) := h

theorem keeps_afterHome (h : Keeps s₀ s) (pa n) : Keeps s₀ (afterHome s pa n) := by
  grind [afterHome, keeps_mk, lawful_fields]

theorem keeps_afterLoad (h : Keeps s₀ s) (a) : Keeps s₀ (afterLoad s a) := by
  grind [afterLoad, keeps_mk, lawful_fields]

theorem keeps_couple (h : Keeps s₀ s) (blk pa size) : Keeps s₀ (couple s blk pa size) := by
  unfold couple
  split <;> grind [keeps_forAll, keeps_setBlock]

theorem keeps_keepLine (h : Keeps s₀ s) (full m l x) : Keeps s₀ (keepLine full s m l x).2 := by
  grind [keepLine, keeps_free]

theorem keeps_grantLease (h : Keeps s₀ s) (a) : Keeps s₀ (grantLease s a) := by
  grind [grantLease, keeps_setCore, keeps_setLine, keeps_setProxy, keeps_keepLine]

theorem keeps_askGrantAt (h : Keeps s₀ s) (die pa) : Keeps s₀ (askGrantAt s die pa) := by
  grind [askGrantAt, keeps_free, keeps_forAll, keeps_setProxy, keeps_setLine, keeps_mk, lawful_fields]

theorem keeps_askGrant (h : Keeps s₀ s) (a) : Keeps s₀ (askGrant s a) := by
  grind [askGrant, keeps_askGrantAt]

theorem keeps_dropLeases (h : Keeps s₀ s) (core ord scope) : Keeps s₀ (dropLeases s core ord scope) := by
  unfold dropLeases
  split <;> grind [keeps_setCore]

theorem keeps_returnValue (h : Keeps s₀ s) (a v ok) : Keeps s₀ (returnValue s a v ok) := by
  grind [returnValue, keeps_mk, lawful_fields]

theorem keeps_satisfyLoad (h : Keeps s₀ s) (a) : Keeps s₀ (satisfyLoad s a) := by
  unfold satisfyLoad
  have h1 : Keeps s₀ (askGrant (grantLease s a) a) := keeps_askGrant (keeps_grantLease h a) a
  refine keeps_setAcc (keeps_returnValue (keeps_dropLeases ?_ _ _ _) _ _ _) _ _
  grind [keeps_setTask, keeps_afterLoad, keeps_couple, keeps_observeLanes, keeps_forAll, keeps_mk, lawful_fields]

theorem keeps_sectorConflicts (h : Keeps s₀ s) (by_ pa size) : Keeps s₀ (sectorConflicts s by_ pa size) :=
  keeps_forAll h fun _ _ ht => keeps_abortTask ht ..

theorem keeps_wakeBarriers (h : Keeps s₀ s) (pa size) : Keeps s₀ (wakeBarriers s pa size) := by
  unfold wakeBarriers
  split <;> grind [keeps_forAll, keeps_dropLeases, keeps_observeLanes, keeps_wakeGroup]

theorem keeps_noteStore (h : Keeps s₀ s) (pa size atomic) : Keeps s₀ (noteStore s pa size atomic) := by
  grind [noteStore, keeps_forAll, keeps_setLine, keeps_setProxy]

theorem keeps_putApplied (h : Keeps s₀ s) (by_ pa bytes carry atomic) : Keeps s₀ (putApplied s by_ pa bytes carry atomic) := by
  unfold putApplied
  grind [keeps_overwrite, keeps_setCarry, keeps_noteStore, keeps_sectorConflicts, keeps_wakeBarriers]

theorem keeps_spillOut (h : Keeps s₀ s) (blk n spill) : Keeps s₀ (spillOut s blk n spill) := by
  unfold spillOut
  split <;> grind [keeps_mk, lawful_fields]

theorem keeps_shoreReg {t} (h : Keeps s₀ s) (d gid r) (e : shoreReg s d gid r = some t) : Keeps s₀ t := by
  unfold shoreReg at e
  grind [keeps_setBlock, keeps_spillOut]

theorem keeps_shoreWord {t} (h : Keeps s₀ s) (d blk word) (e : shoreWord s d blk word = some t) : Keeps s₀ t := by
  grind [shoreWord, keeps_setBlock, keeps_spillOut]

theorem keeps_shoreLine (h : Keeps s₀ s) (a blk line) : Keeps s₀ (shoreLine s a blk line) := by
  unfold shoreLine
  split <;> grind [keeps_setBlock, keeps_setAcc, keeps_spillOut, keeps_mk, lawful_fields]

theorem keeps_shoreBefore {t} (h : Keeps s₀ s) (a) (e : shoreBefore s a = some t) : Keeps s₀ t := by
  unfold shoreBefore at e
  split at e
  · cases e; exact h
  · split at e
    · split at e
      · split at e
        · exact keeps_foldl_bind h (fun u i v hu e => keeps_shoreWord hu _ _ _ e) e
        · cases e; exact h
      · cases e; exact h
    · split at e
      · split at e
        · dsimp only at e
          split at e
          · split at e
            · obtain ⟨u, hu, e⟩ := Option.bind_eq_some_iff.mp e
              have hk : Keeps s₀ u := keeps_shoreReg h _ _ _ hu
              split at e
              · exact keeps_shoreReg hk _ _ _ e
              · cases e; exact hk
            · cases e; exact h
          · cases e; exact h
        · cases e; exact h
      · grind [keeps_forAll, keeps_shoreLine]

theorem keeps_sendProbes (h : Keeps s₀ s) (pa size) : Keeps s₀ (sendProbes s pa size) := by
  grind [sendProbes, keeps_forAll, keeps_setLine, keeps_mk, lawful_fields]

theorem keeps_shoreFull (h : Keeps s₀ s) (a) : Keeps s₀ (shoreFull s a) := by
  grind [shoreFull, keeps_setCmd, keeps_queueFailure, keeps_failLevel]

theorem keeps_agentPut (h : Keeps s₀ s) (die pa bytes) : Keeps s₀ (agentPut s die pa bytes) := keeps_putApplied (keeps_bridgeWrite h ..) ..

theorem keeps_agentWrite (h : Keeps s₀ s) (die ws) : Keeps s₀ (agentWrite s die ws).1 := by
  grind [agentWrite, keeps_forAll, keeps_agentPut, keeps_sendProbes]

theorem keeps_flushFaults (h : Keeps s₀ s) : Keeps s₀ (flushFaults s) := by
  unfold flushFaults
  split
  · split
    · exact h
    · extract_lets cons t next
      have ht : Keeps s₀ t := keeps_bridgeRead h _ _ _ _
      clear_value cons t next
      split
      · split
        · next u e =>
          have hu : Keeps s₀ u := .of_fst e (keeps_agentWrite ht _ _)
          exact hu
        · next e => exact .of_fst e (keeps_agentWrite ht _ _)
      · exact ht
  · exact h

theorem keeps_writeSpill (h : Keeps s₀ s) (o) : Keeps s₀ (writeSpill s o).1 := by
  unfold writeSpill
  refine keeps_foldl_fst h fun a k ha => ?_
  grind [keeps_translate, keeps_agentWrite, keeps_mk, lawful_fields]

theorem keeps_settleSpills (h : Keeps s₀ s) : Keeps s₀ (settleSpills s) := keeps_forAll h fun _ _ ht => keeps_writeSpill ht ..

theorem keeps_spoil (h : Keeps s₀ s) (pa bytes) : Keeps s₀ (spoil s pa bytes).2 := by
  simp only [spoil]
  split
  · exact h
  · exact keeps_forAll (Lawful.map_time h fun _ => le_rfl) fun x t ht => keeps_overwrite ht _ _

theorem keeps_applyStore (h : Keeps s₀ s) (a) : Keeps s₀ (applyStore s a) := by
  grind [applyStore, keeps_shoreBefore, keeps_shoreFull, keeps_dropAcc, keeps_couple, keeps_spoil, keeps_putApplied]

theorem keeps_drainTo (h : Keeps s₀ s) (a st) : Keeps s₀ (drainTo s a st) := h

theorem keeps_issueAcc (h : Keeps s₀ s) (a) : Keeps s₀ (issueAcc s a).2 := by
  grind [issueAcc, keeps_fresh, keeps_mk, lawful_fields, keeps_observeLanes]

/-! #### Operands -/

theorem keeps_setVregs (h : Keeps s₀ s) (gid r lane n x) : Keeps s₀ (setVregs s gid r lane n x) := h

theorem keeps_setSreg (h : Keeps s₀ s) (gid r x) : Keeps s₀ (setSreg s gid r x) := h

theorem keeps_setMask (h : Keeps s₀ s) (gid n m new) : Keeps s₀ (setMask s gid n m new) := by
  grind [setMask, keeps_setGroup]

theorem keeps_setDstScalar (h : Keeps s₀ s) (gid d x) : Keeps s₀ (setDstScalar s gid d x) := by
  unfold setDstScalar
  split <;> grind [keeps_setSreg]

theorem keeps_setDstLanes (h : Keeps s₀ s) (c r n f) : Keeps s₀ (setDstLanes s c r n f) := h

/-! #### Issue -/

theorem keeps_earlyRead (h : Keeps s₀ s) (g x) : Keeps s₀ (earlyRead s g x).2 := by
  induction x generalizing s g with
  | nil => exact h
  | cons f t ih =>
    simp only [earlyRead]
    refine ih ?_ _
    exact keeps_foldl_snd h fun a o ha => keeps_freeBool ha

theorem keeps_earlyWrite (h : Keeps s₀ s) (gid defs x) : Keeps s₀ (earlyWrite s gid defs x) := by
  induction x generalizing s with
  | nil => exact h
  | cons f t ih =>
    unfold earlyWrite
    refine ih (keeps_ite h (keeps_forAll h fun o u hu => ?_))
    grind [keeps_setGroup, keeps_freeBool]

theorem keeps_noteInflight (h : Keeps s₀ s) (c i) : Keeps s₀ (noteInflight s c i) := h

theorem keeps_pageFault (h : Keeps s₀ s) (c va ipa flags lanes) : Keeps s₀ (pageFault s c va ipa flags lanes) := by
  grind [pageFault, keeps_takeFault, keeps_postFault, keeps_flushFaults, keeps_setGroup]

theorem keeps_countIssue (h : Keeps s₀ s) (c hd) : Keeps s₀ (countIssue s c hd) := h

theorem keeps_advance (h : Keeps s₀ s) (c n) : Keeps s₀ (advance s c n) := h

theorem keeps_keepSnap (h : Keeps s₀ s) (c) : Keeps s₀ (keepSnap s c) := by
  grind [keepSnap, keeps_mk, lawful_fields]

theorem keeps_finishIssue (h : Keeps s₀ s) (c i early) : Keeps s₀ (finishIssue s c i early) := by
  grind [finishIssue, keeps_keepSnap, keeps_countIssue, keeps_noteInflight, keeps_earlyWrite]

theorem keeps_shoreDests (h : Keeps s₀ s) (d gid x) : Keeps s₀ (shoreDests s d gid x).1 := by
  induction x generalizing s with
  | nil => exact h
  | cons r t ih => 
    unfold shoreDests
    grind [keeps_shoreReg]

theorem keeps_complete (h : Keeps s₀ s) {t} (ht : Keeps s₀ t) (c) : Keeps s₀ (complete s c t) := by
  grind [complete, keeps_shadowMismatch]

theorem keeps_settle (h : Keeps s₀ s) (c i early) {r} (hr : KeepsRes s₀ r) : Keeps s₀ (settle s c i early r) := by
  unfold settle
  split <;> grind [keeps_complete, keeps_finishIssue, keeps_advance, keeps_takeFault, KeepsRes]

theorem keeps_sampleSpecials (h : Keeps s₀ s) (c) : Keeps s₀ (sampleSpecials s c) := by
  grind [sampleSpecials, keeps_setGroup]

theorem keeps_beforeNext {t} (h : Keeps s₀ s) (c) (e : beforeNext s c = some t) : Keeps s₀ t := by
  grind [beforeNext, keeps_setGroup, keeps_takeFaultAt]

theorem keeps_runInstr (h : Keeps s₀ s) (i always) {body} (hb : ∀ c t, Keeps s₀ t → KeepsRes s₀ (body c t)) : Keeps s₀ (runInstr i always
    body s) := by
  unfold runInstr
  split <;> grind [keeps_beforeNext, keeps_takeFault, keeps_sampleSpecials, keeps_earlyRead, keeps_settle,
    keeps_shoreDests, KeepsRes]

/-! #### Flags -/

theorem keeps_orFlags (h : Keeps s₀ s) (gid f) : Keeps s₀ (orFlags s gid f) := h

theorem keeps_setGenerator (h : Keeps s₀ s) (gid lane w) : Keeps s₀ (setGenerator s gid lane w) := h

theorem keeps_floatOp (h : Keeps s₀ s) (c f draws code d op) : Keeps s₀ (floatOp s c f draws code d op) := by
  grind [floatOp, keeps_foldl, keeps_setVregs, keeps_orFlags, keeps_setGenerator, keeps_setDstScalar]

/-! #### Integer -/

theorem keeps_intOp (h : Keeps s₀ s) (c n d f) : KeepsRes s₀ (intOp s c n d f) := by
  unfold intOp
  split <;> grind [keeps_setDstLanes, keeps_setDstScalar, KeepsRes]

theorem keeps_int2 (h : Keeps s₀ s) (w o f c) : KeepsRes s₀ (int2 w o f c s) := keeps_intOp h ..

theorem keeps_int1 (h : Keeps s₀ s) (w o f c) : KeepsRes s₀ (int1 w o f c s) := keeps_intOp h ..

theorem keeps_intShift (h : Keeps s₀ s) (w o f c) : KeepsRes s₀ (intShift w o f c s) := keeps_intOp h ..

theorem keeps_execIadd (h : Keeps s₀ s) (hd w o) : KeepsOut s₀ (execIadd hd w o s) := keeps_runInstr h _ _ fun _ _ ht => keeps_int2 ht ..

theorem keeps_execIsub (h : Keeps s₀ s) (hd w o) : KeepsOut s₀ (execIsub hd w o s) := keeps_runInstr h _ _ fun _ _ ht => keeps_int2 ht ..

theorem keeps_execImul (h : Keeps s₀ s) (hd w o) : KeepsOut s₀ (execImul hd w o s) := keeps_runInstr h _ _ fun _ _ ht => keeps_int2 ht ..

theorem keeps_execImulh (h : Keeps s₀ s) (hd w uns o) : KeepsOut s₀ (execImulh hd w uns o s) :=
  keeps_runInstr h _ _ fun _ _ ht => keeps_int2 ht ..

theorem keeps_execImad (h : Keeps s₀ s) (hd w o) : KeepsOut s₀ (execImad hd w o s) := keeps_runInstr h _ _ fun _ _ ht => keeps_intOp ht ..

theorem keeps_execImin (h : Keeps s₀ s) (hd w uns o) : KeepsOut s₀ (execImin hd w uns o s) :=
  keeps_runInstr h _ _ fun _ _ ht => keeps_int2 ht ..

theorem keeps_execImax (h : Keeps s₀ s) (hd w uns o) : KeepsOut s₀ (execImax hd w uns o s) :=
  keeps_runInstr h _ _ fun _ _ ht => keeps_int2 ht ..

theorem keeps_execIabs (h : Keeps s₀ s) (hd w o) : KeepsOut s₀ (execIabs hd w o s) := keeps_runInstr h _ _ fun _ _ ht => keeps_int1 ht ..

theorem keeps_execAnd (h : Keeps s₀ s) (hd w o) : KeepsOut s₀ (execAnd hd w o s) := keeps_runInstr h _ _ fun _ _ ht => keeps_int2 ht ..

theorem keeps_execOr (h : Keeps s₀ s) (hd w o) : KeepsOut s₀ (execOr hd w o s) := keeps_runInstr h _ _ fun _ _ ht => keeps_int2 ht ..

theorem keeps_execXor (h : Keeps s₀ s) (hd w o) : KeepsOut s₀ (execXor hd w o s) := keeps_runInstr h _ _ fun _ _ ht => keeps_int2 ht ..

theorem keeps_execAndn (h : Keeps s₀ s) (hd w o) : KeepsOut s₀ (execAndn hd w o s) := keeps_runInstr h _ _ fun _ _ ht => keeps_int2 ht ..

theorem keeps_execShl (h : Keeps s₀ s) (hd w o) : KeepsOut s₀ (execShl hd w o s) := keeps_runInstr h _ _ fun _ _ ht => keeps_intShift ht ..

theorem keeps_execShr (h : Keeps s₀ s) (hd w o) : KeepsOut s₀ (execShr hd w o s) := keeps_runInstr h _ _ fun _ _ ht => keeps_intShift ht ..

theorem keeps_execSar (h : Keeps s₀ s) (hd w o) : KeepsOut s₀ (execSar hd w o s) := keeps_runInstr h _ _ fun _ _ ht => keeps_intShift ht ..

theorem keeps_execRotl (h : Keeps s₀ s) (hd w o) : KeepsOut s₀ (execRotl hd w o s) :=
  keeps_runInstr h _ _ fun _ _ ht => keeps_intShift ht ..

theorem keeps_execBfx (h : Keeps s₀ s) (hd w uns o) : KeepsOut s₀ (execBfx hd w uns o s) :=
  keeps_runInstr h _ _ fun _ _ ht => keeps_intShift ht ..

theorem keeps_execBfi (h : Keeps s₀ s) (hd w o) : KeepsOut s₀ (execBfi hd w o s) := keeps_runInstr h _ _ fun _ _ ht => keeps_intOp ht ..

theorem keeps_execPopc (h : Keeps s₀ s) (hd w o) : KeepsOut s₀ (execPopc hd w o s) := keeps_runInstr h _ _ fun _ _ ht => keeps_int1 ht ..

theorem keeps_execClz (h : Keeps s₀ s) (hd w o) : KeepsOut s₀ (execClz hd w o s) := keeps_runInstr h _ _ fun _ _ ht => keeps_int1 ht ..

theorem keeps_execBrev (h : Keeps s₀ s) (hd w o) : KeepsOut s₀ (execBrev hd w o s) := keeps_runInstr h _ _ fun _ _ ht => keeps_int1 ht ..

theorem keeps_execSel (h : Keeps s₀ s) (hd w o) : KeepsOut s₀ (execSel hd w o s) := by
  grind [execSel, keeps_runInstr, keeps_intOp, KeepsOut, KeepsRes]

theorem keeps_execMov (h : Keeps s₀ s) (hd w o) : KeepsOut s₀ (execMov hd w o s) := keeps_runInstr h _ _ fun _ _ ht => keeps_int1 ht ..

theorem keeps_execLea (h : Keeps s₀ s) (hd sh uns o) : KeepsOut s₀ (execLea hd sh uns o s) :=
  keeps_runInstr h _ _ fun _ _ ht => keeps_intOp ht ..

theorem keeps_compareMask (h : Keeps s₀ s) (c m vec f) : Keeps s₀ (compareMask s c m vec f) := keeps_setMask h ..

theorem keeps_execIcmp (h : Keeps s₀ s) (hd w uns k o) : KeepsOut s₀ (execIcmp hd w uns k o s) :=
  keeps_runInstr h _ _ fun _ _ ht => keeps_compareMask ht ..

/-! #### Floating -/

theorem keeps_float2 (h : Keeps s₀ s) (f o op c) : KeepsRes s₀ (float2 f o op c s) := keeps_floatOp h ..

theorem keeps_execFadd (h : Keeps s₀ s) (hd f o) : KeepsOut s₀ (execFadd hd f o s) := keeps_runInstr h _ _ fun _ _ ht => keeps_float2 ht ..

theorem keeps_execFsub (h : Keeps s₀ s) (hd f o) : KeepsOut s₀ (execFsub hd f o s) := keeps_runInstr h _ _ fun _ _ ht => keeps_float2 ht ..

theorem keeps_execFmul (h : Keeps s₀ s) (hd f o) : KeepsOut s₀ (execFmul hd f o s) := keeps_runInstr h _ _ fun _ _ ht => keeps_float2 ht ..

theorem keeps_execFfma (h : Keeps s₀ s) (hd f o) : KeepsOut s₀ (execFfma hd f o s) := keeps_runInstr h _ _ fun _ _ ht => keeps_floatOp ht ..

theorem keeps_floatMinMax (h : Keeps s₀ s) (f greater o c) : KeepsRes s₀ (floatMinMax f greater o c s) := keeps_floatOp h ..

theorem keeps_execFmin (h : Keeps s₀ s) (hd f o) : KeepsOut s₀ (execFmin hd f o s) :=
  keeps_runInstr h _ _ fun _ _ ht => keeps_floatMinMax ht ..

theorem keeps_execFmax (h : Keeps s₀ s) (hd f o) : KeepsOut s₀ (execFmax hd f o s) :=
  keeps_runInstr h _ _ fun _ _ ht => keeps_floatMinMax ht ..

theorem keeps_execFcmp (h : Keeps s₀ s) (hd f k o) : KeepsOut s₀ (execFcmp hd f k o s) := by
  grind [execFcmp, keeps_runInstr, keeps_foldl, keeps_orFlags, keeps_compareMask, KeepsOut, KeepsRes]

theorem keeps_floatFn (h : Keeps s₀ s) (f o fn c) : KeepsRes s₀ (floatFn f o fn c s) := keeps_floatOp h ..

theorem keeps_execFrcp (h : Keeps s₀ s) (hd f o) : KeepsOut s₀ (execFrcp hd f o s) := keeps_runInstr h _ _ fun _ _ ht => keeps_floatFn ht ..

theorem keeps_execFrsq (h : Keeps s₀ s) (hd f o) : KeepsOut s₀ (execFrsq hd f o s) := keeps_runInstr h _ _ fun _ _ ht => keeps_floatFn ht ..

theorem keeps_execFsqrt (h : Keeps s₀ s) (hd f o) : KeepsOut s₀ (execFsqrt hd f o s) :=
  keeps_runInstr h _ _ fun _ _ ht => keeps_floatFn ht ..

theorem keeps_execFex2 (h : Keeps s₀ s) (hd f o) : KeepsOut s₀ (execFex2 hd f o s) := keeps_runInstr h _ _ fun _ _ ht => keeps_floatFn ht ..

theorem keeps_execFlg2 (h : Keeps s₀ s) (hd f o) : KeepsOut s₀ (execFlg2 hd f o s) := keeps_runInstr h _ _ fun _ _ ht => keeps_floatFn ht ..

theorem keeps_execFsin (h : Keeps s₀ s) (hd f o) : KeepsOut s₀ (execFsin hd f o s) := keeps_runInstr h _ _ fun _ _ ht => keeps_floatFn ht ..

theorem keeps_execFcos (h : Keeps s₀ s) (hd f o) : KeepsOut s₀ (execFcos hd f o s) := keeps_runInstr h _ _ fun _ _ ht => keeps_floatFn ht ..

theorem keeps_execFcvt (h : Keeps s₀ s) (hd o) : KeepsOut s₀ (execFcvt hd o s) := by
  unfold execFcvt
  split <;> grind [keeps_runInstr, keeps_foldl, keeps_orFlags, keeps_setVregs, keeps_setGenerator, keeps_setDstScalar,
    KeepsOut, KeepsRes]

theorem keeps_execFcls (h : Keeps s₀ s) (hd f scalar mods m a set') : KeepsOut s₀ (execFcls hd f scalar mods m a set' s) :=
  keeps_runInstr h _ _ fun _ _ ht => keeps_compareMask ht ..

theorem keeps_execFrnd (h : Keeps s₀ s) (hd f scalar mods d a rnd) : KeepsOut s₀ (execFrnd hd f scalar mods d a rnd s) :=
  keeps_runInstr h _ _ fun _ _ ht => keeps_floatOp ht ..

theorem keeps_execFscl (h : Keeps s₀ s) (hd f o) : KeepsOut s₀ (execFscl hd f o s) := keeps_runInstr h _ _ fun _ _ ht => keeps_floatOp ht ..

/-! #### Links -/

theorem keeps_sendEntry (h : Keeps s₀ s) (core gid dest p) : Keeps s₀ (sendEntry s core gid dest p) := h

theorem keeps_setEntry (h : Keeps s₀ s) (id st) : Keeps s₀ (setEntry s id st) := h

theorem keeps_refuseEntry (h : Keeps s₀ s) (num) : Keeps s₀ (refuseEntry s num) := h

theorem keeps_execQueueEntryAck (h : Keeps s₀ s) (ack) : KeepsOut s₀ (execQueueEntryAck ack s) := by
  grind [execQueueEntryAck, keeps_mk, lawful_fields, keeps_refuseEntry, KeepsOut]

theorem keeps_execQueueNackResend (h : Keeps s₀ s) (entry) : KeepsOut s₀ (execQueueNackResend entry s) := by
  grind [execQueueNackResend, keeps_mk, lawful_fields, KeepsOut]

/-! #### Pairs -/

theorem keeps_takeWrites (h : Keeps s₀ s) (gid tok ws) : Keeps s₀ (takeWrites s gid tok ws).2 := 
  keeps_foldl_snd h fun _ _ ha => keeps_freeBool ha

theorem keeps_deliver (h : Keeps s₀ s) (gid n tok ws) : Keeps s₀ (deliver s gid n tok ws) := by
  grind [deliver, keeps_takeWrites, keeps_setGroupKept, keeps_setGroup]

theorem keeps_addPend (h : Keeps s₀ s) (gid tok refs lanes) : Keeps s₀ (addPend s gid tok refs lanes) := by
  grind [addPend, keeps_setGroup]

theorem keeps_newTok (h : Keeps s₀ s) (k refs) : Keeps s₀ (newTok s k refs).2 := by
  grind [newTok, keeps_fresh, keeps_addPend, keeps_mk, lawful_fields]

theorem keeps_present (h : Keeps s₀ s) (c code items waits) : Keeps s₀ (present s c code items waits) := h

theorem keeps_compare (h : Keeps s₀ s) (c items) : Keeps s₀ (compare s c items).1 := by
  grind [compare, keeps_shadowMismatch, keeps_mk, lawful_fields]

theorem keeps_takeResult (h : Keeps s₀ s) (c refs) : Keeps s₀ (takeResult s c refs) := by
  grind [takeResult, keeps_setGroup, keeps_foldl, keeps_addPend]

theorem keeps_shared (h : Keeps s₀ s) (c code items refs) {act} (ha : ∀ t, Keeps s₀ t → KeepsRes s₀ (act t)) : KeepsRes s₀ (shared s c code
    items refs act) := by
  grind [shared, keeps_present, keeps_compare, keeps_takeResult, KeepsRes]

theorem keeps_actOnce (h : Keeps s₀ s) (waits c code items refs) {before act} (hb : ∀ t, Keeps s₀ t → Keeps s₀ (before t)) (ha : ∀ c t,
    Keeps s₀ t → KeepsRes s₀ (act c t)) : KeepsRes s₀ (actOnce waits s c code items refs before act) := by
  grind [actOnce, keeps_present, keeps_compare, keeps_takeResult, keeps_takeFault, keeps_rewind, KeepsRes]

theorem keeps_afterCompare (h : Keeps s₀ s) (c code items refs) {before act} (hb : ∀ t, Keeps s₀ t → Keeps s₀ (before t)) (ha : ∀ c t,
    Keeps s₀ t → KeepsRes s₀ (act c t)) : KeepsRes s₀ (afterCompare s c code items refs before act) := by
  grind [afterCompare, keeps_actOnce, KeepsRes]

theorem keeps_parkHere (h : Keeps s₀ s) (c p) : Keeps s₀ (parkHere s c p) := h

theorem keeps_parkAlike (h : Keeps s₀ s) (c) : Keeps s₀ (parkAlike s c) := by
  grind [parkAlike, keeps_parkHere]

theorem keeps_putSplit (h : Keeps s₀ s) (gid si sp) : Keeps s₀ (putSplit s gid si sp) := by
  unfold putSplit
  split <;> grind [keeps_setGroup]

theorem keeps_together (h : Keeps s₀ s) (c code items refs) {act mirror} (ha : ∀ c t, Keeps s₀ t → KeepsRes s₀ (act c t)) (hm : ∀ t c,
    Keeps s₀ t → Keeps s₀ (mirror t c)) : KeepsRes s₀ (together s c code items refs act mirror) := by
  grind [together, keeps_present, keeps_compare, keeps_putSplit, keeps_takeResult, keeps_takeFault, keeps_rewind, KeepsRes]

/-! #### Memory -/

theorem keeps_checkAddr (h : Keeps s₀ s) (b pasid sp need ea size) : Keeps s₀ (checkAddr s b pasid sp need ea size).2 := by
  unfold checkAddr
  split <;> grind [keeps_translate]

theorem Checked.keeps_res (h : Keeps s₀ s) {x} (hx : KeepsChecked s₀ x) : KeepsRes s₀ (Checked.res s x) := by
  unfold Checked.res
  split <;> grind [KeepsRes, KeepsChecked]

theorem keeps_checkEach (h : Keeps s₀ s) (b pasid sp need size only us) : Keeps s₀ (checkEach s b pasid sp need size only us).2 := by
  induction us generalizing s with
  | nil => exact h
  | cons u t ih => exact ih (keeps_checkAddr h b pasid sp need u.2.2 size)

theorem keeps_checkAccesses (h : Keeps s₀ s) (c sp need size reads only us) : KeepsChecked s₀ (checkAccesses s c sp need size reads only us) := by
  have hc := keeps_checkEach h c.blk c.launch.pasid sp need size only us
  unfold checkAccesses
  (repeat' split) <;> grind [keeps_pageFault, KeepsChecked, KeepsRes]

theorem keeps_nestingOf {c sp write hs r} (e : nestingOf s c sp write hs = some r) : KeepsRes s₀ r := by
  grind [nestingOf, KeepsRes]

theorem keeps_ownCheck (h : Keeps s₀ s) (c) {r} (hr : KeepsRes s₀ r) : KeepsRes s₀ (ownCheck s c r) := by
  unfold ownCheck
  split <;> grind [KeepsRes]

theorem keeps_mirrorFault (h : Keeps s₀ s) (c items) {checks k} (hc : KeepsRes s₀ checks) (hk : KeepsRes s₀ k) : KeepsRes s₀ (mirrorFault s
    c items checks k) := by
  grind [mirrorFault, keeps_ownCheck, KeepsRes]

theorem keeps_issueEach (h : Keeps s₀ s) (as) : Keeps s₀ (issueEach s as).2 := by
  induction as generalizing s with
  | nil => exact h
  | cons a t ih => exact ih (keeps_issueAcc h a)

theorem keeps_sendPeers (h : Keeps s₀ s) (as ids) : Keeps s₀ (sendPeers s as ids) := by
  grind [sendPeers, keeps_sendEntry]

theorem keeps_issueAll (h : Keeps s₀ s) (as) : Keeps s₀ (issueAll s as).2 := keeps_sendPeers (keeps_issueEach h ..) ..

theorem keeps_holdSplit (h : Keeps s₀ s) (c ids) : Keeps s₀ (holdSplit s c ids) := h

theorem keeps_reserveLine {x t} (h : Keeps s₀ s) (blk depth) (e : reserveLine s blk depth = some (x, t)) : Keeps s₀ t := by
  simp only [reserveLine, Option.map_eq_some_iff, Prod.mk.injEq] at e
  obtain ⟨_, -, -, rfl⟩ := e
  exact keeps_setBlock h blk _

theorem keeps_reserveLines (h : Keeps s₀ s) (c x x') : Keeps s₀ (reserveLines s c x x').1 := by
  induction x' generalizing s x with
  | nil => exact h
  | cons k t ih =>
    unfold reserveLines
    grind [keeps_reserveLine]

theorem keeps_shoreFullLine (x) : KeepsRes s₀ (shoreFullLine x) := by
  grind [shoreFullLine, KeepsRes]

theorem keeps_issueLoads (h : Keeps s₀ s) (c o hs ord kept) : Keeps s₀ (issueLoads s c o hs ord kept).2.2 :=
  keeps_issueAll (keeps_newTok h ..) ..

theorem keeps_loadBody (h : Keeps s₀ s) (sp need o split kept c) {after} (ha : ∀ hs t, Keeps s₀ t → Keeps s₀ (after hs t)) :
    KeepsRes s₀ (loadBody sp need o split kept after c s) := by
  unfold loadBody
  extract_lets vec us size items refs checked
  have hk : KeepsChecked s₀ checked := by
    have hc := keeps_checkAccesses h c sp need size true false (us c)
    grind [keeps_nestingOf, KeepsChecked.getD, KeepsRes, KeepsChecked]
  clear_value checked
  refine keeps_mirrorFault h c items (Checked.keeps_res h hk) (keepsRes_ite (keeps_shared h _ _ _ _ fun _ ht => ht) ?_)
  split
  · exact hk
  · next hs t =>
    refine keepsRes_ite trivial (keeps_shared hk _ _ _ _ fun u hu => ?_)
    have hi (hs u) (hu : Keeps s₀ u) := keeps_issueLoads hu c o hs o.ord kept
    grind [keeps_holdSplit, keeps_fresh, keeps_setGroup, KeepsRes]

theorem keeps_noteReplicas (h : Keeps s₀ s) (c hs) : Keeps s₀ (noteReplicas c hs s) := h

theorem keeps_noteLdc (h : Keeps s₀ s) (c hs) : Keeps s₀ (noteLdc c hs s) := keeps_forAll h fun _ _ ht => keeps_keepLine ht ..

theorem keeps_execLdg (h : Keeps s₀ s) (hd o) : KeepsOut s₀ (execLdg hd o s) := by
  grind [execLdg, keeps_runInstr, keeps_loadBody, keeps_noteReplicas, KeepsOut, KeepsRes]

theorem keeps_execLds (h : Keeps s₀ s) (hd o) : KeepsOut s₀ (execLds hd o s) := by
  grind [execLds, keeps_runInstr, keeps_loadBody, KeepsOut, KeepsRes]

theorem keeps_execLdw (h : Keeps s₀ s) (hd o) : KeepsOut s₀ (execLdw hd o s) := by
  grind [execLdw, keeps_runInstr, keeps_loadBody, KeepsOut, KeepsRes]

theorem keeps_execLdc (h : Keeps s₀ s) (hd o) : KeepsOut s₀ (execLdc hd o s) := by
  grind [execLdc, keeps_runInstr, keeps_loadBody, keeps_noteLdc, KeepsOut, KeepsRes]

theorem keeps_storeBody (h : Keeps s₀ s) (sp o c) : KeepsRes s₀ (storeBody sp o c s) := by
  unfold storeBody
  extract_lets vec us size items checked
  have hk : KeepsChecked s₀ checked := by
    have hc := keeps_checkAccesses h c sp Need.store size false false (us c)
    grind [keeps_nestingOf, KeepsChecked.getD, KeepsRes, KeepsChecked]
  clear_value checked
  refine keeps_mirrorFault h c items (Checked.keeps_res h hk) (keepsRes_ite (keeps_shared h _ _ _ _ fun _ ht => ht) ?_)
  split
  · exact hk
  · next hs t =>
    have hr := keeps_reserveLines hk c [] hs
    grind [keeps_shared, keeps_shoreFullLine, keeps_issueAll, keeps_holdSplit, KeepsRes]

theorem keeps_execStg (h : Keeps s₀ s) (hd o) : KeepsOut s₀ (execStg hd o s) := keeps_runInstr h _ _ fun _ _ ht => keeps_storeBody ht ..

theorem keeps_execSts (h : Keeps s₀ s) (hd o) : KeepsOut s₀ (execSts hd o s) := keeps_runInstr h _ _ fun _ _ ht => keeps_storeBody ht ..

theorem keeps_execStw (h : Keeps s₀ s) (hd o) : KeepsOut s₀ (execStw hd o s) := keeps_runInstr h _ _ fun _ _ ht => keeps_storeBody ht ..

theorem keeps_prefetchLine (h : Keeps s₀ s) (c lease hd) : Keeps s₀ (prefetchLine c lease hd s) := by
  grind [prefetchLine, keeps_askGrant, keeps_bridgeRead, keeps_grantLease]

theorem keeps_execPref (h : Keeps s₀ s) (hd level o) : KeepsOut s₀ (execPref hd level o s) := by
  grind [execPref, keeps_runInstr, keeps_afterCompare, keeps_checkEach, keeps_forAll, keeps_prefetchLine, keeps_noteReplicas, KeepsOut,
    KeepsRes]

theorem keeps_execCflush (h : Keeps s₀ s) (hd op o) : KeepsOut s₀ (execCflush hd op o s) := by
  refine keeps_runInstr h _ _ fun c t ht => ?_
  have hc := keeps_checkAccesses ht c .glb Need.load 1 false false (memUnits t c (vectorSide o.a o.b) .glb o)
  grind [keeps_mirrorFault, Checked.keeps_res, keeps_shared, keeps_issueAll, KeepsRes, KeepsChecked]

theorem keeps_acquireSeen (h : Keeps s₀ s) (gid em) : Keeps s₀ (acquireSeen s gid em) := keeps_forAll h fun _ _ ht => keeps_observe ht ..

theorem keeps_execFence (h : Keeps s₀ s) (hd kind scope) : KeepsOut s₀ (execFence hd kind scope s) := by
  grind [execFence, keeps_runInstr, keeps_dropLeases, keeps_acquireSeen, keeps_forAll, keeps_mk, lawful_fields, KeepsOut, KeepsRes]

/-! #### Atomics -/

theorem keeps_class5Body (h : Keeps s₀ s) (kind ord o dst mask refs swap lockWord c) : KeepsRes s₀ (class5Body kind ord o dst mask refs swap lockWord c s) := by
  unfold class5Body
  extract_lets vec sp size n us val items checked
  have hk : KeepsChecked s₀ checked := by
    have hc := keeps_checkAccesses h c sp Need.both size true true (us c)
    grind [keeps_nestingOf, KeepsChecked.getD, KeepsRes, KeepsChecked]
  clear_value checked
  refine keeps_mirrorFault h c items (Checked.keeps_res h hk) (keepsRes_ite (keeps_shared h _ _ _ _ fun _ ht => ht) ?_)
  split
  · exact hk
  · next hs t =>
    have hr := keeps_reserveLines hk c [] hs
    grind [keeps_shared, keeps_shoreFullLine, keeps_newTok, keeps_issueAll, keeps_holdSplit, KeepsRes]

theorem keeps_execAtom (h : Keeps s₀ s) (hd op o) : KeepsOut s₀ (execAtom hd op o s) :=
  keeps_runInstr h _ _ fun _ _ ht => keeps_class5Body ht ..

theorem keeps_execAcas (h : Keeps s₀ s) (hd o) : KeepsOut s₀ (execAcas hd o s) := keeps_runInstr h _ _ fun _ _ ht => keeps_class5Body ht ..

theorem keeps_execRed (h : Keeps s₀ s) (hd op dsz o) : KeepsOut s₀ (execRed hd op dsz o s) :=
  keeps_runInstr h _ _ fun _ _ ht => keeps_class5Body ht ..

theorem keeps_execRdlk (h : Keeps s₀ s) (hd m o) : KeepsOut s₀ (execRdlk hd m o s) :=
  keeps_runInstr h _ _ fun _ _ ht => keeps_class5Body ht ..

theorem keeps_execRdul (h : Keeps s₀ s) (hd m o) : KeepsOut s₀ (execRdul hd m o s) :=
  keeps_runInstr h _ _ fun _ _ ht => keeps_class5Body ht ..

theorem keeps_execWrlk (h : Keeps s₀ s) (hd m o) : KeepsOut s₀ (execWrlk hd m o s) :=
  keeps_runInstr h _ _ fun _ _ ht => keeps_class5Body ht ..

theorem keeps_execWrul (h : Keeps s₀ s) (hd m o) : KeepsOut s₀ (execWrul hd m o s) :=
  keeps_runInstr h _ _ fun _ _ ht => keeps_class5Body ht ..

/-! #### Barriers -/

theorem keeps_putBar (h : Keeps s₀ s) (word w set') : Keeps s₀ (putBar s word w set') := keeps_putApplied h ..

/-- `readBar` is put behind a variable, or the kernel evaluates the word that is read, which is too deep for it. -/
theorem keeps_barrierExit (h : Keeps s₀ s) (blk thread) : Keeps s₀ (barrierExit s blk thread) := by
  obtain ⟨read, hr⟩ : ∃ f, readBar = f := ⟨_, rfl⟩
  unfold barrierExit
  rw [hr]
  grind [keeps_forAll, keeps_setBlock, keeps_putBar]

theorem keeps_exitThread (h : Keeps s₀ s) (g lane) : Keeps s₀ (exitThread s g lane) := by
  grind [exitThread, keeps_barrierExit, keeps_noteExit]

theorem keeps_shoreBar {t} (h : Keeps s₀ s) (c word) (e : shoreBar s c word = some t) : Keeps s₀ t := by
  unfold shoreBar at e
  split at e
  · dsimp only at e
    split at e
    · obtain ⟨u, hu, e⟩ := Option.bind_eq_some_iff.mp e
      exact keeps_shoreWord (keeps_shoreWord h _ _ _ hu) _ _ _ e
    · cases e; exact h
  · cases e; exact h

theorem keeps_shoreFullWord (c word) : KeepsRes s₀ (shoreFullWord s c word) := by
  grind [shoreFullWord, KeepsRes]

theorem keeps_barUpdate (h : Keeps s₀ s) (c word bytes arrive) {after} (ha : ∀ t x y b, Keeps s₀ t → KeepsRes s₀ (after t x y b)) :
    KeepsRes s₀ (barUpdate s c word bytes arrive after) := by
  unfold barUpdate
  split
  · trivial
  · split
    · trivial
    · split
      · exact keeps_shoreFullWord c word
      · next t e =>
        extract_lets u old i g p mine before
        have hu : Keeps s₀ u := keeps_couple (keeps_mayCorrect (keeps_shoreBar h c word e) word) _ word 8
        have hp : Keeps s₀ p := keeps_putApplied hu none word _ _ true
        clear_value u p
        split
        · split
          exact ha _ _ _ _ (keeps_putBar (keeps_ite (keeps_setBlock hu _ _) hu) _ _ _)
        · split
          · exact keepsRes_ite trivial (keeps_takeFault (keeps_rewind hp c.gid c.g.issued) _ _ _ _)
          · split
            exact ha _ _ _ _ (keeps_putBar (keeps_setBlock hu _ _) _ _ _)

theorem keeps_barBody (h : Keeps s₀ s) (r writes release xy refs c) {act} (ha : ∀ c w n t, Keeps s₀ t → KeepsRes s₀ (act c w n t)) :
    KeepsRes s₀ (barBody r writes release xy refs act c s) := by
  grind [barBody, keeps_together, keeps_parkAlike, keeps_mirrorFault, KeepsRes]

theorem keeps_acquireBar (h : Keeps s₀ s) (c word scope) : Keeps s₀ (acquireBar s c word scope) :=
  keeps_dropLeases (keeps_observeLanes h ..) ..

theorem keeps_execBarw (h : Keeps s₀ s) (hd w count) : KeepsOut s₀ (execBarw hd w count s) := by
  grind [execBarw, keeps_runInstr, keeps_barBody, keeps_barUpdate, keeps_acquireBar, keeps_parkHere, KeepsOut, KeepsRes]

theorem keeps_execBarwWait (h : Keeps s₀ s) (hd w phase) : KeepsOut s₀ (execBarwWait hd w phase s) := by
  grind [execBarwWait, keeps_runInstr, keeps_barBody, keeps_couple, keeps_mayCorrect, keeps_acquireBar, keeps_parkHere, KeepsOut, KeepsRes]

theorem keeps_execBara (h : Keeps s₀ s) (hd w d count) : KeepsOut s₀ (execBara hd w d count s) := by
  grind [execBara, keeps_runInstr, keeps_barBody, keeps_barUpdate, keeps_deliver, KeepsOut, KeepsRes]

theorem keeps_execBarx (h : Keeps s₀ s) (hd w arrive bytes imm) : KeepsOut s₀ (execBarx hd w arrive bytes imm s) := by
  grind [execBarx, keeps_runInstr, keeps_barBody, keeps_barUpdate, KeepsOut, KeepsRes]

/-! #### Directory -/

theorem keeps_putField (h : Keeps s₀ s) (pa n x carry) : Keeps s₀ (putField s pa n x carry) := keeps_putApplied h ..

theorem keeps_addResident (h : Keeps s₀ s) (header bytes) : Keeps s₀ (addResident s header bytes) := keeps_putField h ..

theorem keeps_subResident (h : Keeps s₀ s) (header bytes) : Keeps s₀ (subResident s header bytes) := keeps_putField h ..

theorem keeps_setHeld (h : Keeps s₀ s) (header f) : Keeps s₀ (setHeld s header f) := by
  grind [setHeld, keeps_setDie]

theorem keeps_pinTaken (h : Keeps s₀ s) (header num gid) : Keeps s₀ (pinTaken s header num gid) := keeps_setHeld h ..

theorem keeps_pinGiven (h : Keeps s₀ s) (header num gid pins) : Keeps s₀ (pinGiven s header num gid pins) := keeps_setHeld h ..

theorem keeps_fetchEntry (h : Keeps s₀ s) (header num gid pin carry) : Keeps s₀ (fetchEntry s header num gid pin carry).s := by
  grind [fetchEntry, keeps_pinTaken, keeps_putField, keeps_setDie]

theorem keeps_pinEntry (h : Keeps s₀ s) (header num gid pin carry) : Keeps s₀ (pinEntry s header num gid pin carry).s := by
  grind [pinEntry, keeps_putField, keeps_pinTaken, keeps_pinGiven]

theorem keeps_expertEffect (h : Keeps s₀ s) (a carry) : Keeps s₀ (expertEffect s a carry).s := by
  grind [expertEffect, keeps_fetchEntry, keeps_pinEntry]

theorem keeps_countEntry (h : Keeps s₀ s) (header pa n carry) : Keeps s₀ (countEntry s header pa n carry) := keeps_putField h ..

/-! #### Ordering -/

theorem keeps_shoreResult (h : Keeps s₀ s) (k) : Keeps s₀ (shoreResult s k).1 := by
  grind [shoreResult, keeps_shoreDests]

theorem keeps_execLoadCompletion (h : Keeps s₀ s) (tok) : KeepsOut s₀ (execLoadCompletion tok s) := by
  unfold execLoadCompletion
  repeat' split
  all_goals grind [keeps_wakeGroup, keeps_deliver, keeps_mk, lawful_fields, keeps_shoreResult,
    keeps_failLevel, KeepsOut]

theorem keeps_execSplitStarvationGuard (h : Keeps s₀ s) (core sched) : KeepsOut s₀ (execSplitStarvationGuard core sched s) := by
  grind [execSplitStarvationGuard, keeps_setCore, KeepsOut]

theorem keeps_specOverflow (h : Keeps s₀ s) (tt) : Keeps s₀ (specOverflow s tt) := by
  grind [specOverflow, keeps_setTask, keeps_dropTaskAccs, keeps_endTaskLane]

theorem keeps_execSatisfy (h : Keeps s₀ s) (acc) : KeepsOut s₀ (execSatisfy acc s) := by
  grind [execSatisfy, keeps_specOverflow, keeps_mayCorrect, keeps_satisfyLoad, keeps_bridgeRead, KeepsOut]

theorem keeps_returnRequest (h : Keeps s₀ s) (a old ok carried) : Keeps s₀ (returnRequest s a old ok carried) := by
  grind [returnRequest, keeps_dropLeases, keeps_observeLanes, keeps_forAll, keeps_mk, lawful_fields, keeps_couple, keeps_setCore,
    keeps_dropAcc, keeps_returnValue]

theorem keeps_putRequest (h : Keeps s₀ s) (a new carry) : Keeps s₀ (putRequest s a new carry) := by
  unfold putRequest
  split <;> grind [keeps_mayCorrect, keeps_bridgeWrite, keeps_spoil, keeps_putApplied, keeps_noteStore]

theorem keeps_applyOne (h : Keeps s₀ s) (a) : Keeps s₀ (applyOne s a) := by
  grind [applyOne, keeps_shoreBefore, keeps_shoreFull, keeps_dropAcc, keeps_afterHome, keeps_returnRequest, keeps_putRequest]

theorem keeps_applyExpert (h : Keeps s₀ s) (a) : Keeps s₀ (applyExpert s a) := by
  grind [applyExpert, keeps_expertEffect, keeps_returnRequest, keeps_noteStore]

theorem keeps_applyMerged (h : Keeps s₀ s) (op a all) : Keeps s₀ (applyMerged s op a all) := by
  grind [applyMerged, keeps_shoreBefore, keeps_foldl, keeps_dropAcc, keeps_shoreFull, keeps_afterHome, keeps_putRequest,
    keeps_returnRequest]

theorem keeps_execClass5RequestApply (h : Keeps s₀ s) (accs) : KeepsOut s₀ (execClass5RequestApply accs s) := by
  grind [execClass5RequestApply, keeps_setAcc, keeps_sendProbes, keeps_applyExpert, keeps_applyOne, keeps_applyMerged, KeepsOut]

theorem keeps_flushLine (h : Keeps s₀ s) (a op) : Keeps s₀ (flushLine s a op) := by
  grind [flushLine, keeps_setCore, keeps_forAll, keeps_setHalf, keeps_mk, lawful_fields, keeps_setProxy, keeps_setLine]

theorem keeps_bufferWrite (h : Keeps s₀ s) (a tt k) : Keeps s₀ (bufferWrite s a tt k) := by
  grind [bufferWrite, keeps_foldl, keeps_specOverflow, keeps_setTask, keeps_afterHome, keeps_dropAcc, keeps_returnValue]

theorem keeps_drainLocal (h : Keeps s₀ s) (a) : Keeps s₀ (drainLocal s a) := by
  grind [drainLocal, keeps_drainTo, keeps_moveLast, keeps_applyOne, keeps_setCore]

theorem keeps_execDrain (h : Keeps s₀ s) (acc) : KeepsOut s₀ (execDrain acc s) := by
  grind [execDrain, keeps_drainTo, keeps_dropAcc, keeps_flushLine, keeps_sendProbes, keeps_bufferWrite, keeps_drainLocal, KeepsOut]

theorem keeps_execApply (h : Keeps s₀ s) (acc) : KeepsOut s₀ (execApply acc s) := by
  grind [execApply, keeps_applyStore, keeps_sendProbes, KeepsOut]

theorem keeps_execCross (h : Keeps s₀ s) (acc) : KeepsOut s₀ (execCross acc s) := by
  grind [execCross, keeps_setAcc, keeps_applyStore, keeps_bridgeWrite, keeps_sendProbes, KeepsOut]

theorem keeps_execLeaseExpiry (h : Keeps s₀ s) (line) : KeepsOut s₀ (execLeaseExpiry line s) := by
  grind [execLeaseExpiry, keeps_mk, lawful_fields, keeps_forAll, keeps_applyStore, KeepsOut]

theorem keeps_execAtomicLeaseHoldEnd (h : Keeps s₀ s) (line) : KeepsOut s₀ (execAtomicLeaseHoldEnd line s) := by
  grind [execAtomicLeaseHoldEnd, keeps_setLine, KeepsOut]

theorem keeps_execProbeReceive (h : Keeps s₀ s) (die line) : KeepsOut s₀ (execProbeReceive die line s) := by
  grind [execProbeReceive, keeps_mk, lawful_fields, keeps_setProxy, KeepsOut]

theorem keeps_execProbeAck (h : Keeps s₀ s) (die line) : KeepsOut s₀ (execProbeAck die line s) := by
  grind [execProbeAck, keeps_setLine, keeps_setProxy, KeepsOut]

theorem keeps_execProxyGrantReceive (h : Keeps s₀ s) (die line) : KeepsOut s₀ (execProxyGrantReceive die line s) := by
  grind [execProxyGrantReceive, keeps_mk, lawful_fields, keeps_setProxy, KeepsOut]

theorem keeps_execHostSnoop (h : Keeps s₀ s) (die line upper) : KeepsOut s₀ (execHostSnoop die line upper s) := by
  grind [execHostSnoop, keeps_mk, lawful_fields, keeps_setHalf, KeepsOut]

theorem keeps_execLinePoison (h : Keeps s₀ s) (line) : KeepsOut s₀ (execLinePoison line s) := by
  grind [execLinePoison, keeps_logEvent, keeps_setLine, KeepsOut]

/-! #### Engines -/

theorem keeps_depart (h : Keeps s₀ s) (a) : Keeps s₀ (depart s a).2 := by
  grind [depart, keeps_fresh, keeps_mk, lawful_fields, keeps_drainLocal, keeps_drainTo]

theorem keeps_writeWord (h : Keeps s₀ s) (engine pasid va mk) : Keeps s₀ (writeWord s engine pasid va mk).2 := by
  grind [writeWord, keeps_translate, keeps_postFault, keeps_flushFaults, keeps_depart, keeps_bridgeWrite]

theorem keeps_setQueue (h : Keeps s₀ s) (core matrix q) : Keeps s₀ (setQueue s core matrix q) := h

theorem keeps_engineBody (h : Keeps s₀ s) (items refs c) {checks enter} (hc : ∀ c t r, Keeps s₀ t → checks c t = some r → KeepsRes s₀ r)
    (he : ∀ c t, Keeps s₀ t → KeepsRes s₀ (enter c t)) : KeepsRes s₀ (engineBody items refs checks enter c s) := by
  have first (c : Ctx) {t : State} (ht : Keeps s₀ t) (r : Res)
      (e : (if anySpec t c.g c.act then some (Res.fault .nesting 0 c.act) else checks c t) = some r) : KeepsRes s₀ r := by
    split at e
    · cases e; trivial
    · exact hc c t r ht e
  unfold engineBody
  refine keeps_mirrorFault h c items (keepsRes_getD (first c h) h) ?_
  split
  · exact first c h _ ‹_›
  · exact keeps_actOnce h _ _ _ _ _ (fun _ ht => ht) (fun c t ht => keepsRes_getD (first c ht) (he c t ht))

theorem keeps_issueCmd {x t} (h : Keeps s₀ s) (c matrix gs kind is) (e : issueCmd s c matrix gs kind is = some (x, t)) : Keeps s₀ t := by
  grind [issueCmd, keeps_fresh, keeps_mk, lawful_fields, keeps_setQueue]

theorem keeps_wakeSbwaits (h : Keeps s₀ s) (blk) : Keeps s₀ (wakeSbwaits s blk) := by
  grind [wakeSbwaits, keeps_forAll, keeps_wakeGroup]

theorem keeps_retireRanges (h : Keeps s₀ s) (id) : Keeps s₀ (retireRanges s id) := by
  grind [retireRanges, keeps_wakeSbwaits, keeps_mk, lawful_fields]

theorem keeps_retireClaims (h : Keeps s₀ s) (id) : Keeps s₀ (retireClaims s id) := h

theorem keeps_finishColl (h : Keeps s₀ s) (id) : Keeps s₀ (finishColl s id) := by
  grind [finishColl, keeps_mk, lawful_fields]

theorem keeps_endCmd (h : Keeps s₀ s) (id) : Keeps s₀ (endCmd s id) := h

theorem keeps_discardCmd (h : Keeps s₀ s) (id) : Keeps s₀ (discardCmd s id) :=
  keeps_retireClaims (keeps_retireRanges (keeps_setCmd h ..) ..) ..

theorem keeps_deferAction {t} (h : Keeps s₀ s) (blk a) (e : deferAction s blk a = some t) : Keeps s₀ t := by
  grind [deferAction, keeps_setBlock, keeps_spillOut]

theorem keeps_shoreFullAction (lanes) : KeepsRes s₀ (shoreFullAction lanes) := by
  grind [shoreFullAction, KeepsRes]

theorem keeps_gresBody (h : Keeps s₀ s) (slot x st c) : KeepsRes s₀ (gresBody slot x st c s) := by
  grind [gresBody, keeps_afterCompare, keeps_setGroup, KeepsRes]

theorem keeps_execGres (h : Keeps s₀ s) (hd slot x imm) : KeepsOut s₀ (execGres hd slot x imm s) :=
  keeps_runInstr h _ _ fun _ _ ht => keeps_gresBody ht ..

theorem keeps_execGresFree (h : Keeps s₀ s) (hd slot) : KeepsOut s₀ (execGresFree hd slot s) :=
  keeps_runInstr h _ _ fun _ _ ht => keeps_gresBody ht ..

theorem keeps_sbwaitBody (h : Keeps s₀ s) (interval c) : KeepsRes s₀ (sbwaitBody interval c s) := by
  unfold sbwaitBody
  split <;> grind [keeps_parkHere, keeps_present, keeps_compare, KeepsRes]

theorem keeps_execSbwait (h : Keeps s₀ s) (hd scr a b len) : KeepsOut s₀ (execSbwait hd scr a b len s) :=
  keeps_runInstr h _ _ fun _ _ ht => keeps_sbwaitBody ht ..

theorem keeps_execSbwaitAll (h : Keeps s₀ s) (hd) : KeepsOut s₀ (execSbwaitAll hd s) :=
  keeps_runInstr h _ _ fun _ _ ht => keeps_sbwaitBody ht ..

theorem keeps_execEngineFailureDelivery (h : Keeps s₀ s) (gid) : KeepsOut s₀ (execEngineFailureDelivery gid s) := keeps_deliverFailure h ..

/-! #### Copy -/

theorem keeps_windowRows {c j r} (e : windowRows s c j = some r) : KeepsRes s₀ r := by
  obtain ⟨x, -, hx⟩ := List.exists_of_findSome?_eq_some e
  split at hx
  · split at hx
    · cases hx; trivial
    · cases hx
  all_goals cases hx; trivial

theorem keeps_copyChecks {c o j r} (e : copyChecks s c o j = some r) : KeepsRes s₀ r := by
  unfold copyChecks at e
  have hf (k : Cause) (v : Dword) (l : LaneMask) : KeepsRes s₀ (.fault k v l) := trivial
  have hw {r} (e : windowRows s c j = some r) : KeepsRes s₀ r := keeps_windowRows e
  grind

theorem keeps_copyEnter (h : Keeps s₀ s) (o j c) : KeepsRes s₀ (copyEnter o j c s) := by
  unfold copyEnter
  split
  · trivial
  · next id t e =>
    have ht : Keeps s₀ t := keeps_issueCmd h _ _ _ _ _ e
    refine keepsRes_ite ?_ (keeps_setGroup ht _ _)
    split
    · exact keeps_deferAction (keeps_setGroup ht _ _) _ _ ‹_›
    · trivial

theorem keeps_copyBody (h : Keeps s₀ s) (k o c) : KeepsRes s₀ (copyBody k o c s) := by
  grind [copyBody, keeps_engineBody, keeps_copyChecks, keeps_copyEnter, KeepsRes]

theorem keeps_execCpy (h : Keeps s₀ s) (hd o) : KeepsOut s₀ (execCpy hd o s) := keeps_runInstr h _ _ fun _ _ ht => keeps_copyBody ht ..

theorem keeps_execCpyg (h : Keeps s₀ s) (hd o) : KeepsOut s₀ (execCpyg hd o s) := keeps_runInstr h _ _ fun _ _ ht => keeps_copyBody ht ..

theorem keeps_execCpyw (h : Keeps s₀ s) (hd o) : KeepsOut s₀ (execCpyw hd o s) := keeps_runInstr h _ _ fun _ _ ht => keeps_copyBody ht ..

theorem keeps_cdoneBody (h : Keeps s₀ s) (gs scope a b c) : KeepsRes s₀ (cdoneBody gs scope a b c s) := by
  unfold cdoneBody
  refine keeps_engineBody h _ _ _ (fun c t r _ e => ?_) (fun c t ht => ?_)
  · obtain ⟨f, -, rfl⟩ := Option.map_eq_some_iff.mp e
    trivial
  · refine keepsRes_ite ?_ ?_
    · dsimp only
      split
      · next e =>
        refine keeps_setGroup (keeps_deferAction ?_ _ _ e) _ _
        exact keeps_fresh ht
      · trivial
    · split
      · trivial
      · next e => exact keeps_setGroup (keeps_issueCmd ht _ _ _ _ _ e) _ _

theorem keeps_execCdone (h : Keeps s₀ s) (hd gs scope a b) : KeepsOut s₀ (execCdone hd gs scope a b s) :=
  keeps_runInstr h _ _ fun _ _ ht => keeps_cdoneBody ht ..

theorem keeps_engineSpot (h : Keeps s₀ s) (b pasid space num write x) : Keeps s₀ (engineSpot s b pasid space num write x).2 := by
  unfold engineSpot
  split <;> grind [keeps_checkAddr]

theorem keeps_segmentSpots (h : Keeps s₀ s) (b pasid id k j ns) : Keeps s₀ (segmentSpots s b pasid id k j ns).2 := by
  induction ns generalizing s with
  | nil => exact h
  | cons n t ih =>
    unfold segmentSpots
    grind [keeps_engineSpot]

theorem keeps_reserveEngine (h : Keeps s₀ s) (k done pas) : Keeps s₀ (reserveEngine s k done pas).1 := by
  induction pas generalizing s done with
  | nil => exact h
  | cons pa t ih =>
    unfold reserveEngine
    grind [keeps_reserveLine]

theorem keeps_failCmd (h : Keeps s₀ s) (id c eval) : Keeps s₀ (failCmd s id c eval) := h

theorem keeps_copyFault (h : Keeps s₀ s) (cmd pasid x) : Keeps s₀ (copyFault s cmd pasid x) := by
  unfold copyFault
  split <;> grind [keeps_postFault, keeps_flushFaults, keeps_setCmd, keeps_failCmd]

theorem keeps_sendSegment (h : Keeps s₀ s) (k from_) : Keeps s₀ (sendSegment s k from_) := by
  grind [sendSegment, keeps_sendEntry]

theorem keeps_moveElements (h : Keeps s₀ s) (cmd k j es) : Keeps s₀ (moveElements s cmd k j es) := by
  refine keeps_setCmd (keeps_sendSegment (keeps_foldl h fun t y ht => keeps_setCmd (keeps_depart ?_ _) _ _) _ _) _ _
  exact keeps_couple (keeps_mayCorrect (keeps_bridgeRead (keeps_afterLoad ht _) _ _ _ _) _) _ _ _

theorem keeps_askPeer (h : Keeps s₀ s) (core cmd k) : Keeps s₀ (askPeer s core cmd k) := by
  grind [askPeer, keeps_setCmd, keeps_sendEntry]

theorem keeps_execCopySegment (h : Keeps s₀ s) (core cmd) : KeepsOut s₀ (execCopySegment core cmd s) := by
  unfold execCopySegment
  split <;> grind [keeps_segmentSpots, keeps_copyFault, keeps_askPeer, keeps_reserveEngine, keeps_failCmd,
    keeps_moveElements, KeepsOut]

/-- As in `keeps_barrierExit`, with `BarWord.complete` behind a variable. -/
theorem keeps_creditBytes (h : Keeps s₀ s) (blk bar n) : Keeps s₀ (creditBytes s blk bar n) := by
  obtain ⟨complete, hc⟩ : ∃ f, BarWord.complete = f := ⟨_, rfl⟩
  unfold creditBytes
  rw [hc]
  split
  · exact h
  · exact keeps_ite h (keeps_putBar (keeps_setBlock h _ _) _ _ _)

theorem keeps_finishCopy (h : Keeps s₀ s) (id) : Keeps s₀ (finishCopy s id) := by
  grind [finishCopy, keeps_endCmd]

theorem keeps_execBarrierCredit (h : Keeps s₀ s) (core cmd piece) : KeepsOut s₀ (execBarrierCredit core cmd piece s) := by
  unfold execBarrierCredit
  split <;> grind [keeps_finishCopy, keeps_setCmd, keeps_creditBytes, KeepsOut]

theorem keeps_execCopyFailure (h : Keeps s₀ s) (core cmd) : KeepsOut s₀ (execCopyFailure core cmd s) := by
  unfold execCopyFailure
  split <;> grind [keeps_foldl, keeps_queueFailure, keeps_setCmd, keeps_creditBytes, KeepsOut]

theorem keeps_execRangeRetire (h : Keeps s₀ s) (core cmd) : KeepsOut s₀ (execRangeRetire core cmd s) := by
  grind [execRangeRetire, keeps_finishColl, keeps_retireRanges, keeps_finishCopy, keeps_endCmd, KeepsOut]

theorem keeps_finishWord (h : Keeps s₀ s) (cmd k va scope value carry) : Keeps s₀ (finishWord s cmd k va scope value carry) := by
  grind [finishWord, keeps_setCmd, keeps_writeWord, keeps_queueFailure, keeps_failCmd]

theorem keeps_completeWord (h : Keeps s₀ s) (cmd) : Keeps s₀ (completeWord s cmd) := by
  grind [completeWord, keeps_finishCopy, keeps_finishWord]

theorem keeps_execCompletionWordWrite (h : Keeps s₀ s) (core cmd) : KeepsOut s₀ (execCompletionWordWrite core cmd s) := by
  grind [execCompletionWordWrite, keeps_completeWord, KeepsOut]

theorem keeps_execCdoneComplete (h : Keeps s₀ s) (core cmd) : KeepsOut s₀ (execCdoneComplete core cmd s) := by
  grind [execCdoneComplete, keeps_finishWord, keeps_endCmd, KeepsOut]

/-! #### Matrix -/

theorem keeps_ownBays (h : Keeps s₀ s) (core blk bays) : Keeps s₀ (ownBays s core blk bays) := by
  refine keeps_forAll h fun b t ht => keeps_ite ht ?_
  exact ⟨fun w => wf_filter t.mem _ (ht.1 w), ht.2⟩

theorem keeps_matrixBody (h : Keeps s₀ s) (items refs c) {checks enter} (hc : ∀ c t r, Keeps s₀ t → checks c t = some r → KeepsRes s₀ r)
    (he : ∀ c t, Keeps s₀ t → KeepsRes s₀ (enter c t)) : KeepsRes s₀ (matrixBody items refs checks enter c s) := by
  unfold matrixBody
  grind [keeps_engineBody, KeepsRes]

theorem keeps_bayCheck {c bays rest r} (e : bayCheck s c bays rest = some r) (hr : ∀ r, rest = some r → KeepsRes s₀ r) : KeepsRes s₀ r := by
  grind [bayCheck, KeepsRes]

theorem keeps_enterMatrix (h : Keeps s₀ s) (c gs kind is) {record} (hr : ∀ n t, Keeps s₀ t → Keeps s₀ (record n t)) : KeepsRes s₀
    (enterMatrix s c gs kind is record) := by
  grind [enterMatrix, keeps_issueCmd, keeps_forAll, keeps_ownBays, KeepsRes]

theorem keeps_execMxlw (h : Keeps s₀ s) (hd o) : KeepsOut s₀ (execMxlw hd o s) := by
  refine keeps_runInstr h _ _ fun c t ht => keeps_matrixBody ht _ _ c (fun c t r ht e => ?_) fun c t ht => ?_
  · refine keeps_bayCheck e fun r e => ?_
    split at e
    · cases e; trivial
    · exact keepsRes_of_map e fun _ => trivial
  · exact keeps_enterMatrix ht c _ _ _ fun b t ht => keeps_setBay ht _ _ _

theorem keeps_execMxswap (h : Keeps s₀ s) (hd gs mask) : KeepsOut s₀ (execMxswap hd gs mask s) := by
  refine keeps_runInstr h _ _ fun c t ht => keeps_matrixBody ht _ _ c (fun c t r ht e => ?_) fun c t ht => ?_
  · exact keeps_bayCheck e (by simp)
  · exact keeps_enterMatrix ht c _ _ _ fun b t ht => keeps_setBay ht _ _ _

theorem keeps_execMxzero (h : Keeps s₀ s) (hd gs mask rb m1) : KeepsOut s₀ (execMxzero hd gs mask rb m1 s) := by
  refine keeps_runInstr h _ _ fun c t ht => keeps_matrixBody ht _ _ c (fun c t r ht e => ?_) fun c t ht => ?_
  · exact keeps_bayCheck e (by simp)
  · exact keeps_enterMatrix ht c _ _ _ fun b t ht => ht

theorem keeps_loopBad (o c x) : KeepsRes s₀ (loopBad o c x) := by
  grind [loopBad, KeepsRes]

theorem keeps_loopChecks {o c r} (e : loopChecks o c s = some r) : KeepsRes s₀ r := by
  refine keeps_bayCheck e fun r e => ?_
  grind [keeps_loopBad, KeepsRes]

theorem keeps_execMxloop (h : Keeps s₀ s) (hd o) : KeepsOut s₀ (execMxloop hd o s) := by
  refine keeps_runInstr h _ _ fun c t ht => keeps_matrixBody ht _ _ c (fun c t r _ e => keeps_loopChecks e) fun c t ht => ?_
  dsimp only
  split
  · exact keeps_loopBad o c _
  · exact keeps_enterMatrix ht c _ _ _ fun b u hu => keeps_setBay hu _ _ _

theorem keeps_drainChecks {o c r} (e : drainChecks o c s = some r) : KeepsRes s₀ r := by
  refine keeps_bayCheck e fun r e => ?_
  grind [KeepsRes]

theorem keeps_execMxdrain (h : Keeps s₀ s) (hd o) : KeepsOut s₀ (execMxdrain hd o s) := by
  refine keeps_runInstr h _ _ fun c t ht => keeps_matrixBody ht _ _ c (fun c t r ht e => keeps_drainChecks e) fun c t ht => ?_
  have he (is) := keeps_enterMatrix ht c o.gs (.mxdrain o (drainTarget o c) (drainScales o c)
    (t.bay (coreOfGroup c.gid) o.bay.toNat).recInt) is (fun _ t (ht : Keeps s₀ t) => ht)
  dsimp only
  split
  · next u eu =>
    have hu := he (if drainsToScratch o then [(false, true, false, (drainTarget o c : Int),
      (drainTarget o c : Int) + (o.m1.toNat + 1 : Nat) * rowBytes o - 1)] else [])
    rw [eu] at hu
    exact keepsRes_ite hu (keeps_newTok hu _ _)
  · exact he _

theorem keeps_dropDrain (h : Keeps s₀ s) (k) : Keeps s₀ (dropDrain s k) := by
  grind [dropDrain, keeps_deliver, keeps_mk, lawful_fields]

theorem keeps_discardQueued (h : Keeps s₀ s) (id k) : Keeps s₀ (discardQueued s id k) := by
  grind [discardQueued, keeps_dropDrain, keeps_retireClaims, keeps_retireRanges, keeps_setCmd, keeps_discardCmd]

theorem keeps_execEngineCommandAccept (h : Keeps s₀ s) (core matrix) : KeepsOut s₀ (execEngineCommandAccept core matrix s) := by
  unfold execEngineCommandAccept
  split <;> grind [keeps_setQueue, keeps_discardQueued, keeps_setGroup, keeps_setCmd, KeepsOut]

theorem keeps_execMxlwFill (h : Keeps s₀ s) (core cmd) : KeepsOut s₀ (execMxlwFill core cmd s) := by
  grind [execMxlwFill, keeps_endCmd, keeps_setBay, keeps_setCmd, KeepsOut]

theorem keeps_execMxlwFillEnd (h : Keeps s₀ s) (core cmd) : KeepsOut s₀ (execMxlwFillEnd core cmd s) := by
  grind [execMxlwFillEnd, keeps_setBay, keeps_endCmd, keeps_retireClaims, KeepsOut]

theorem keeps_execMxswapExchange (h : Keeps s₀ s) (core cmd bay) : KeepsOut s₀ (execMxswapExchange core cmd bay s) := by
  grind [execMxswapExchange, keeps_setCmd, keeps_setBay, keeps_endCmd, KeepsOut]

theorem keeps_execKStep (h : Keeps s₀ s) (core cmd) : KeepsOut s₀ (execKStep core cmd s) := by
  unfold execKStep
  split <;> grind [keeps_endCmd, keeps_forAll, keeps_setBay, keeps_setCmd, KeepsOut]

theorem keeps_applyStep (h : Keeps s₀ s) (core bay rb m step int sums) : Keeps s₀ (applyStep s core bay rb m step int sums) := by
  grind [applyStep, keeps_forAll, keeps_writeNat]

theorem keeps_execChecksumVerdict (h : Keeps s₀ s) (core cmd upset) : KeepsOut s₀ (execChecksumVerdict core cmd upset s) := by
  unfold execChecksumVerdict
  repeat' split
  all_goals grind [keeps_retireClaims, keeps_failCmd, keeps_queueFailure, keeps_endCmd,
    keeps_setCmd, keeps_forAll, keeps_applyStep, keeps_logEvent, keeps_mk, lawful_fields, KeepsOut]

theorem keeps_execMxdrainExecute (h : Keeps s₀ s) (core cmd) : KeepsOut s₀ (execMxdrainExecute core cmd s) := by
  unfold execMxdrainExecute
  repeat' split
  all_goals grind [keeps_depart, keeps_setCmd, keeps_foldl, keeps_endCmd, keeps_mk,
    lawful_fields, keeps_shoreDests, keeps_deliver, keeps_queueFailure, KeepsOut]

theorem keeps_execMxzeroExecute (h : Keeps s₀ s) (core cmd) : KeepsOut s₀ (execMxzeroExecute core cmd s) := by
  unfold execMxzeroExecute
  split <;> grind [keeps_forAll, keeps_writeNat, keeps_endCmd, KeepsOut]

/-! #### Collective -/

theorem keeps_collChecks {o c r} (e : collChecks o c s = some r) : KeepsRes s₀ r := by
  unfold collChecks at e
  have hf (k : Cause) (v : Dword) (l : LaneMask) : KeepsRes s₀ (.fault k v l) := trivial
  grind [keepsRes_of_map]

theorem keeps_collEnter (h : Keeps s₀ s) (o c) : KeepsRes s₀ (collEnter o c s) := by
  grind [collEnter, keeps_fresh, keeps_sendEntry, keeps_mk, lawful_fields, KeepsRes]

theorem keeps_execColl (h : Keeps s₀ s) (hd o) : KeepsOut s₀ (execColl hd o s) :=
  keeps_runInstr h _ _ fun c _ ht => keeps_engineBody ht _ _ c (fun _ _ _ _ e => keeps_collChecks e) fun c _ ht => keeps_collEnter ht o c

theorem keeps_spanTranslate (h : Keeps s₀ s) (die pasid need ps) : Keeps s₀ (spanTranslate s die pasid need ps).2 := by
  induction ps generalizing s with
  | nil => exact h
  | cons p t ih =>
    unfold spanTranslate
    grind [keeps_translate]

theorem keeps_mappedParts (h : Keeps s₀ s) {die pasid need parts x t} (e : mappedParts s die pasid need parts = (x, t)) : Keeps s₀ t := by
  refine .of_snd e (keeps_foldl_snd h fun t p ht => ?_)
  grind [keeps_spanTranslate]

theorem keeps_collSpan (h : Keeps s₀ s) {id k need va n x t} (e : collSpan s id k need va n = (x, t)) : Keeps s₀ t := by
  have hs := keeps_spanTranslate h k.die k.pasid need (spanParts va n)
  unfold collSpan at e
  split at e
  · next e' => split at e <;> cases e <;> exact .of_snd e' hs
  · next e' =>
    cases e
    refine keeps_flushFaults ?_
    exact keeps_postFault (.of_snd e' hs) _ _ _ _
  · next e' =>
    cases e
    exact .of_snd e' hs

theorem keeps_collRead (h : Keeps s₀ s) (id k e ps) : Keeps s₀ (collRead s id k e ps).2 :=
  keeps_foldl_snd h fun _ a ht => keeps_mayCorrect (keeps_bridgeRead (keeps_afterLoad ht a) _ _ _ _) _

theorem keeps_collWrite (h : Keeps s₀ s) (id k ps bytes) : Keeps s₀ (collWrite s id k ps bytes) :=
  keeps_foldl h fun _ _ ht => keeps_depart ht ..

theorem keeps_failColl (h : Keeps s₀ s) (id code) : Keeps s₀ (failColl s id code) := h

theorem keeps_collBegin (h : Keeps s₀ s) (id k) : Keeps s₀ (collBegin s id k) := by
  unfold collBegin
  split
  · next e => exact keeps_collSpan h e
  · next e => exact keeps_failColl (keeps_collSpan h e) _ _
  · next ps t e =>
    have ht : Keeps s₀ t := keeps_collSpan h e
    refine keeps_ite ht ?_
    have hr := keeps_collRead ht id k (collSize k.typ) ps
    split
    next src u eu =>
    have hu : Keeps s₀ u := .of_snd eu hr
    dsimp only
    split
    · exact hu
    · split
      · next e => exact keeps_collSpan hu e
      · next e => exact keeps_failColl (keeps_collSpan hu e) _ _
      · next e => exact keeps_collWrite (keeps_collSpan hu e) _ _ _ _

theorem keeps_setCollQ (h : Keeps s₀ s) (core q) : Keeps s₀ (setCollQ s core q) := h

theorem keeps_takeColl (h : Keeps s₀ s) (cmd k f) : Keeps s₀ (takeColl s cmd k f) := h

theorem keeps_acceptColl (h : Keeps s₀ s) (cmd k) : Keeps s₀ (acceptColl s cmd k) := by
  have hr (f t c) (ht : Keeps s₀ t) : Keeps s₀ (failColl (takeColl t cmd k f) cmd c) := keeps_failColl (keeps_takeColl ht cmd k f) _ _
  unfold acceptColl
  split
  · exact keeps_retireRanges (keeps_setCollQ h _ _) cmd
  · split
    · exact keeps_setGroup h _ _
    · exact h
  · extract_lets held
    clear_value held
    split
    · exact h
    · split
      · exact hr _ _ _ h
      · split
        · next e => exact keeps_collSpan h e
        · next e => exact hr _ _ _ (keeps_collSpan h e)
        · next ps t e =>
          have ht : Keeps s₀ t := keeps_collSpan h e
          split
          · exact ht
          · have hc := keeps_collRead ht cmd k 8 ps
            split
            next r u eu =>
            have hu : Keeps s₀ u := .of_snd eu hc
            extract_lets read v
            have hv : Keeps s₀ v := keeps_takeColl hu cmd k read
            clear_value read v
            split
            · exact hr _ _ _ hu
            · split
              · exact hu
              · split
                · exact keeps_collBegin hv _ _
                · exact hv

theorem keeps_execCollAccept (h : Keeps s₀ s) (cmd) : KeepsOut s₀ (execCollAccept cmd s) := by
  grind [execCollAccept, keeps_collBegin, keeps_acceptColl, keeps_refuseEntry, keeps_setEntry, keeps_setCollQ, KeepsOut]

theorem keeps_collArrive (h : Keeps s₀ s) (cmd k rank bytes) : Keeps s₀ (collArrive s cmd k rank bytes) := by
  unfold collArrive
  refine keeps_ite h ?_
  extract_lets at_
  clear_value at_
  split
  · next e => exact keeps_collSpan h e
  · next e => exact keeps_failColl (keeps_collSpan h e) _ _
  · next e => exact keeps_collWrite (keeps_collSpan h e) _ _ _ _

theorem keeps_execCollStepAck (h : Keeps s₀ s) (cmd rank block) : KeepsOut s₀ (execCollStepAck cmd rank block s) := by
  grind [execCollStepAck, keeps_mk, lawful_fields, keeps_failColl, keeps_collArrive, KeepsOut]

theorem keeps_execCollContributionArrival (h : Keeps s₀ s) (cmd rank block) :
    KeepsOut s₀ (execCollContributionArrival cmd rank block s) := by
  show Keeps s₀ _
  split
  · exact h
  · next k _ =>
    refine keeps_ite h (keeps_ite (keeps_failColl h _ _) (keeps_ite h ?_))
    split
    · next e => exact keeps_collSpan h e
    · next e => exact keeps_failColl (keeps_collSpan h e) _ _
    · next e => exact keeps_collWrite (keeps_collSpan h e) _ _ _ _

theorem keeps_execCollStepTimeout (h : Keeps s₀ s) (cmd loss) : KeepsOut s₀ (execCollStepTimeout cmd loss s) := by
  grind [execCollStepTimeout, keeps_failColl, keeps_mk, lawful_fields, KeepsOut]

theorem keeps_scramble (h : Keeps s₀ s) (cmd k) : Keeps s₀ (scramble s cmd k) := by
  unfold scramble
  extract_lets n u
  have hu : Keeps s₀ u := h
  split
  next ps t e =>
  have ht : Keeps s₀ t := keeps_mappedParts hu e
  refine keeps_collWrite ?_ _ _ _ _
  exact ht

theorem keeps_execCollComplete (h : Keeps s₀ s) (cmd) : KeepsOut s₀ (execCollComplete cmd s) := by
  simp only [execCollComplete]
  repeat' split
  all_goals grind [keeps_scramble, keeps_finishColl, keeps_mk, lawful_fields,
    keeps_writeWord, keeps_logEvent, KeepsOut]

/-! #### Control -/

theorem keeps_execNop (h : Keeps s₀ s) (hd) : KeepsOut s₀ (execNop hd s) := keeps_runInstr h _ _ fun _ _ ht => ht

theorem keeps_branch (h : Keeps s₀ s) (c target join) : Keeps s₀ (branch s c target join) := by
  grind [branch, keeps_setSplit, keeps_divide]

theorem keeps_branchReg (h : Keeps s₀ s) (c t join) {before} (hb : ∀ t, Keeps s₀ t → Keeps s₀ (before t)) : KeepsRes s₀ (branchReg c t join
    before s) := by
  grind [branchReg, keeps_setSplit, keeps_divide, KeepsRes]

theorem keeps_writeReturn (h : Keeps s₀ s) (c d) : Keeps s₀ (writeReturn c d s) := h

theorem keeps_execBra (h : Keeps s₀ s) (hd off join) : KeepsOut s₀ (execBra hd off join s) :=
  keeps_runInstr h _ _ fun _ _ ht => keeps_branch ht ..

theorem keeps_execBrx (h : Keeps s₀ s) (hd a join) : KeepsOut s₀ (execBrx hd a join s) := by
  grind [execBrx, keeps_runInstr, keeps_branchReg, KeepsOut, KeepsRes]

theorem keeps_execCall (h : Keeps s₀ s) (hd d off) : KeepsOut s₀ (execCall hd d off s) :=
  keeps_runInstr h _ _ fun _ _ ht => keeps_branch (keeps_writeReturn ht ..) ..

theorem keeps_execCallx (h : Keeps s₀ s) (hd d a) : KeepsOut s₀ (execCallx hd d a s) := by
  grind [execCallx, keeps_runInstr, keeps_branchReg, keeps_writeReturn, KeepsOut, KeepsRes]

theorem keeps_execRet (h : Keeps s₀ s) (hd a) : KeepsOut s₀ (execRet hd a s) := by
  grind [execRet, keeps_runInstr, keeps_branchReg, KeepsOut, KeepsRes]

theorem keeps_execTrap (h : Keeps s₀ s) (hd code a) : KeepsOut s₀ (execTrap hd code a s) := by
  grind [execTrap, keeps_runInstr, KeepsOut, KeepsRes]

theorem keeps_execMsave (h : Keeps s₀ s) (hd d) : KeepsOut s₀ (execMsave hd d s) :=
  keeps_runInstr h _ _ fun _ _ ht => keeps_setDstScalar ht ..

theorem keeps_setEm (h : Keeps s₀ s) (c em) : Keeps s₀ (setEm s c em) := h

theorem keeps_execMand (h : Keeps s₀ s) (hd x) : KeepsOut s₀ (execMand hd x s) := keeps_runInstr h _ _ fun _ _ ht => ht

theorem keeps_execMor (h : Keeps s₀ s) (hd x) : KeepsOut s₀ (execMor hd x s) := keeps_runInstr h _ _ fun _ _ ht => ht

theorem keeps_execMrest (h : Keeps s₀ s) (hd x) : KeepsOut s₀ (execMrest hd x s) := keeps_runInstr h _ _ fun _ _ ht => ht

/-! #### Experts -/

theorem keeps_headerCheck (h : Keeps s₀ s) (c va) : Keeps s₀ (headerCheck s c va).2 := by
  grind [headerCheck, keeps_translate, keeps_pageFault, KeepsRes]

theorem keepsRes_headerCheck (h : Keeps s₀ s) {c va r t} (e : headerCheck s c va = (.inl r, t)) : KeepsRes s₀ r := by
  grind [headerCheck, keeps_translate, keeps_pageFault, KeepsRes]

theorem keeps_expertBound {c header es r} (e : expertBound s c header es = some r) : KeepsRes s₀ r := by
  exact keepsRes_of_map e fun _ => trivial

theorem keeps_expertChecks {r} (h : Keeps s₀ s) (o nests spec c) (e : expertChecks o nests spec c s = some r) : KeepsRes s₀ r := by
  unfold expertChecks at e
  split at e
  · cases e; trivial
  · split at e
    · next hc => cases e; exact keepsRes_headerCheck h hc
    · exact keeps_expertBound e

theorem keeps_expertBody (h : Keeps s₀ s) (kind imm o ord nests spec c) : KeepsRes s₀ (expertBody kind imm o ord nests spec c s) := by
  unfold expertBody
  extract_lets items checks va num dst refs k act before
  have hc (r) (e : checks = some r) : KeepsRes s₀ r := keeps_expertChecks h o nests spec c e
  have ha (c t) (ht : Keeps s₀ t) : KeepsRes s₀ (act c t) := by grind [keeps_headerCheck, keepsRes_headerCheck, keeps_issueAcc, KeepsRes]
  have hb (t) (ht : Keeps s₀ t) : Keeps s₀ (before t) := by grind [keeps_newTok, keeps_holdSplit]
  refine keeps_mirrorFault h c items (keepsRes_getD hc h) ?_
  split
  · exact keeps_afterCompare h _ _ _ _ hb ha
  · exact keeps_afterCompare h _ _ _ _ hb ha
  · exact hc _ ‹_›

theorem keeps_execXfetch (h : Keeps s₀ s) (hd pin o) : KeepsOut s₀ (execXfetch hd pin o s) :=
  keeps_runInstr h _ _ fun _ _ ht => keeps_expertBody ht ..

theorem keeps_execXpin (h : Keeps s₀ s) (hd o) : KeepsOut s₀ (execXpin hd o s) := keeps_runInstr h _ _ fun _ _ ht => keeps_expertBody ht ..

theorem keeps_execXunpin (h : Keeps s₀ s) (hd o) : KeepsOut s₀ (execXunpin hd o s) :=
  keeps_runInstr h _ _ fun _ _ ht => keeps_expertBody ht ..

theorem keeps_execXstat (h : Keeps s₀ s) (hd sel o) : KeepsOut s₀ (execXstat hd sel o s) :=
  keeps_runInstr h _ _ fun _ _ ht => keeps_expertBody ht ..

theorem keeps_sendCounts (h : Keeps s₀ s) (gid blk n act header incs) : Keeps s₀ (sendCounts s gid blk n act header incs) :=
  keeps_forAll h fun _ _ ht => keeps_issueAcc ht ..

theorem keeps_countChecks {r} (h : Keeps s₀ s) (va us c) (e : countChecks va us c s = some r) : KeepsRes s₀ r := by
  unfold countChecks at e
  split at e
  · cases e; trivial
  · split at e
    · next hc => cases e; exact keepsRes_headerCheck h hc
    · exact keeps_expertBound e

theorem keeps_execXcnt (h : Keeps s₀ s) (hd a b c immB immC) : KeepsOut s₀ (execXcnt hd a b c immB immC s) := by
  refine keeps_runInstr h _ _ fun x t ht => ?_
  extract_lets va us items checks vs w act
  have hc (r) (e : checks = some r) : KeepsRes s₀ r := keeps_countChecks ht _ _ x e
  have ha (x u) (hu : Keeps s₀ u) : KeepsRes s₀ (act x u) := by
    have hh := keeps_headerCheck hu x w
    simp only [act]
    split
    · exact keepsRes_headerCheck hu ‹_›
    · next v e =>
      have hv : Keeps s₀ v := .of_snd e hh
      refine keepsRes_ite ?_ (keeps_sendCounts hv _ _ _ _ _ _)
      split
      · exact keeps_deferAction hv _ _ ‹_›
      · trivial
  refine keeps_mirrorFault ht x items (keepsRes_getD hc ht) ?_
  split
  · exact keeps_afterCompare ht _ _ _ _ (fun _ hu => hu) ha
  · exact keeps_afterCompare ht _ _ _ _ (fun _ hu => hu) ha
  · exact hc _ ‹_›

theorem keeps_execXcntApply (h : Keeps s₀ s) (accs) : KeepsOut s₀ (execXcntApply accs s) := by
  grind [execXcntApply, keeps_sendProbes, keeps_foldl, keeps_countEntry, keeps_returnRequest, KeepsOut]

theorem keeps_endFetch (h : Keeps s₀ s) (die idx) : Keeps s₀ (endFetch s die idx) := by
  grind [endFetch, keeps_setDie]

theorem keeps_probeEntry (h : Keeps s₀ s) (header num) : Keeps s₀ (probeEntry s header num) := by
  grind [probeEntry, keeps_sendProbes]

theorem keeps_evict (h : Keeps s₀ s) (header num) : Keeps s₀ (evict s header num) := by
  grind [evict, keeps_putField, keeps_subResident]

theorem keeps_placeFetch (h : Keeps s₀ s) (die f run) : Keeps s₀ (placeFetch s die f run) := by
  grind [placeFetch, keeps_putField, keeps_addResident, keeps_setDie]

theorem keeps_strayExpert (h : Keeps s₀ s) (die header x) : Keeps s₀ (strayExpert s die header x) := by
  grind [strayExpert, keeps_subResident, keeps_probeEntry, keeps_putField, keeps_setDie, keeps_logEvent]

theorem keeps_strayTurn (h : Keeps s₀ s) (die) : Keeps s₀ (strayTurn s die) := by
  grind [strayTurn, keeps_free, keeps_strayExpert]

theorem keeps_execFetchQueueServe (h : Keeps s₀ s) (die) : KeepsOut s₀ (execFetchQueueServe die s) := by
  simp only [execFetchQueueServe]
  repeat' split
  all_goals grind [keeps_strayTurn, keeps_probeEntry, keeps_placeFetch, keeps_evict,
    KeepsOut]

theorem keeps_copyPiece (h : Keeps s₀ s) (die n dst x) : Keeps s₀ (copyPiece die n dst s x).2 := by
  grind [copyPiece, keeps_mayCorrect, keeps_bridgeRead, keeps_afterLoad, keeps_mk, lawful_fields, keeps_depart]

theorem keeps_copySegment (h : Keeps s₀ s) (die idx f n dst) : Keeps s₀ (copySegment s die idx f n dst) := by
  refine keeps_setDie ?_ le_rfl
  exact keeps_foldl_snd h fun _ x ht => keeps_copyPiece ht _ _ _ x

theorem keeps_execExpertFetchComplete (h : Keeps s₀ s) (die idx) : KeepsOut s₀ (execExpertFetchComplete die idx s) := by
  grind [execExpertFetchComplete, keeps_copySegment, keeps_probeEntry, keeps_endFetch, keeps_putField, KeepsOut]

theorem keeps_execExpertFetchFail (h : Keeps s₀ s) (die idx peerLost) : KeepsOut s₀ (execExpertFetchFail die idx peerLost s) := by
  unfold execExpertFetchFail
  split <;> grind [keeps_probeEntry, keeps_putField, keeps_subResident, keeps_logEvent, keeps_endFetch,
    KeepsOut]

/-! #### Gathering -/

theorem keeps_updateConv (h : Keeps s₀ s) (word f) : Keeps s₀ (updateConv s word f) := keeps_putApplied h ..

theorem keeps_setConv (h : Keeps s₀ s) (word f) : Keeps s₀ (setConv s word f) := h

theorem keeps_convRestored (h : Keeps s₀ s) (word blk) : Keeps s₀ (convRestored s word blk) := by
  grind [convRestored, keeps_setConv, keeps_updateConv]

theorem keeps_closeConv (h : Keeps s₀ s) (word) : Keeps s₀ (closeConv s word) := by
  grind [closeConv, keeps_updateConv, keeps_mk, lawful_fields]

theorem keeps_memberDone (h : Keeps s₀ s) (word blk) : Keeps s₀ (memberDone s word blk) := keeps_closeConv (keeps_setConv h ..) ..

theorem keeps_leaveConv (h : Keeps s₀ s) (word blk) : Keeps s₀ (leaveConv s word blk) := by
  grind [leaveConv, keeps_memberDone, keeps_setConv, keeps_updateConv, keeps_mk, lawful_fields, keeps_convRestored]

theorem keeps_endGather (h : Keeps s₀ s) (blk pc) : Keeps s₀ (endGather s blk pc) := keeps_forAll h fun _ _ ht => keeps_observeLanes ht ..

theorem keeps_recordGroups {t} (h : Keeps s₀ s) (blk gs) (e : recordGroups s blk gs = some t) : Keeps s₀ t := by
  induction gs generalizing s with
  | nil => cases e; exact h
  | cons p l ih =>
    unfold recordGroups at e
    split at e
    · cases e
    · exact ih (keeps_setBlock (keeps_spillOut h _ _ _) _ _) e

theorem keeps_openLevel (h : Keeps s₀ s) (blk pc n limit conv first test) : Keeps s₀ (openLevel s blk pc n limit conv first test) := by
  unfold openLevel
  extract_lets u gs t
  have hu : Keeps s₀ u := keeps_endGather h blk pc
  split
  · next v e =>
    exact keeps_forAll (keeps_recordGroups (keeps_setBlock hu _ _) _ _ e) fun p t ht => keeps_setGroup ht _ _
  · refine keeps_forAll hu fun p t ht => keeps_ite ht ?_
    split
    · exact keeps_takeFaultAt ht _ _ _ _ _ _
    · exact ht

theorem keeps_acceptInner (h : Keeps s₀ s) (blk) : Keeps s₀ (acceptInner s blk) := by
  grind [acceptInner, keeps_setBlock, keeps_mk, lawful_fields]

theorem keeps_acceptLevel (h : Keeps s₀ s) (blk) : Keeps s₀ (acceptLevel s blk) := by
  grind [acceptLevel, keeps_acceptInner, keeps_setBlock]

theorem keeps_acceptGathered (h : Keeps s₀ s) (blk) : Keeps s₀ (acceptGathered s blk) := by
  grind [acceptGathered, keeps_acceptLevel, keeps_setBlock, keeps_setConv, keeps_updateConv]

theorem keeps_leaveGathered (h : Keeps s₀ s) (blk word pc) : Keeps s₀ (leaveGathered s blk word pc) := by
  grind [leaveGathered, keeps_failLevel, keeps_setBlock, keeps_leaveConv]

theorem keeps_settleGather (h : Keeps s₀ s) (blk) : Keeps s₀ (settleGather s blk) := by
  unfold settleGather
  split
  · exact h
  · split
    · exact h
    · next g _ =>
      refine keeps_ite h (keeps_ite ?_ ?_)
      · cases gatherWord _ g.kind with
        | none => exact h
        | some w => exact keeps_sendProbes h w 8
      · split
        · exact keeps_openLevel h _ _ _ _ _ _ _
        · exact keeps_acceptGathered (keeps_endGather h _ _) _
        · exact keeps_setBlock (keeps_endGather h _ _) _ _
        · exact keeps_leaveGathered (keeps_endGather h _ _) _ _ _

theorem keeps_gatherBody (h : Keeps s₀ s) (kind c) : KeepsRes s₀ (gatherBody kind c s) := by
  grind [gatherBody, keeps_setBlock, keeps_settleGather, keeps_parkHere, KeepsRes]

/-! #### Locks -/

theorem keeps_endLock (h : Keeps s₀ s) (req st) : Keeps s₀ (endLock s req st) := by
  unfold endLock
  split <;> grind [keeps_mk, lawful_fields, keeps_deliver, keeps_forAll, keeps_setGroup, keeps_wakeGroup, keeps_setBlock]

theorem keeps_lineCheck (h : Keeps s₀ s) (c va) : Keeps s₀ (lineCheck s c va).2 := by
  grind [lineCheck, keeps_translate, keeps_pageFault, KeepsRes]

theorem keepsRes_lineCheck (h : Keeps s₀ s) {c va r t} (e : lineCheck s c va = (.inl r, t)) : KeepsRes s₀ r := by
  grind [lineCheck, keeps_translate, keeps_pageFault, KeepsRes]

theorem keeps_newReq (h : Keeps s₀ s) (r refs) : Keeps s₀ (newReq s r refs).2 := by
  grind [newReq, keeps_fresh, keeps_addPend, keeps_mk, lawful_fields]

theorem keeps_lockChecks {r} (h : Keeps s₀ s) (a c) (e : lockChecks a c s = .inl r) : KeepsRes s₀ r := by
  grind [lockChecks, keeps_lineCheck, keepsRes_lineCheck, KeepsRes]

theorem keeps_checkRes (h : Keeps s₀ s) {x} (hx : ∀ r, x = .inl r → KeepsRes s₀ r) : KeepsRes s₀ (checkRes s x) := by
  grind [checkRes, KeepsRes]

theorem keeps_lockBody (h : Keeps s₀ s) (test imm m d a b n c) : KeepsRes s₀ (lockBody test imm m d a b n c s) := by
  grind [lockBody, keeps_lockChecks, keeps_mirrorFault, keeps_checkRes, keeps_newReq, keeps_holdSplit, keeps_endLock, keeps_sendEntry,
    keeps_afterCompare, KeepsRes]

theorem keeps_execLock (h : Keeps s₀ s) (hd m d a b imm) : KeepsOut s₀ (execLock hd m d a b imm s) :=
  keeps_runInstr h _ _ fun _ _ ht => keeps_lockBody ht ..

theorem keeps_execLockt (h : Keeps s₀ s) (hd m d a) : KeepsOut s₀ (execLockt hd m d a s) :=
  keeps_runInstr h _ _ fun _ _ ht => keeps_lockBody ht ..

theorem keeps_unlockChecks {r} (h : Keeps s₀ s) (a c) (e : unlockChecks a c s = .inl r) : KeepsRes s₀ r := by
  grind [unlockChecks, keeps_lineCheck, keepsRes_lineCheck, KeepsRes]

theorem keeps_execUnlock (h : Keeps s₀ s) (hd m d a) : KeepsOut s₀ (execUnlock hd m d a s) := by
  refine keeps_runInstr h _ _ fun c t ht => ?_
  extract_lets items checks va refs now k act
  have hc (r) (e : checks = .inl r) : KeepsRes s₀ r := keeps_unlockChecks ht a c e
  have ha (c u) (hu : Keeps s₀ u) : KeepsRes s₀ (act c u) := by
    have hl := keeps_lineCheck hu c va
    simp only [act]
    split
    · exact keepsRes_lineCheck hu ‹_›
    · next v e =>
      have hv : Keeps s₀ v := .of_snd e hl
      have hk (o : Option Nat) : Keeps s₀ (match o with
          | some t => ({ v with toks := v.toks.del t } : State).setGroup c.gid (fun g => g.clearPend t)
          | none => v) := by
        cases o with
        | none => exact hv
        | some t => exact hv
      refine keepsRes_ite (keeps_deliver (hk _) _ _ _ _) (keepsRes_ite ?_ (keeps_issueAcc hv _))
      split
      · next ed => exact keeps_deliver (keeps_deferAction (hk _) _ _ ed) _ _ _ _
      · trivial
  refine keeps_mirrorFault ht c items (keeps_checkRes ht hc) ?_
  have hb (u) (hu : Keeps s₀ u) : Keeps s₀ (newTok u k refs).2 := keeps_newTok hu k refs
  split
  · exact keeps_afterCompare ht _ _ _ _ hb ha
  · exact keeps_afterCompare ht _ _ _ _ hb ha
  · exact hc _ ‹_›

theorem keeps_setPeg (h : Keeps s₀ s) (req f) : Keeps s₀ (setPeg s req f) := h

theorem keeps_dropPeg (h : Keeps s₀ s) (req) : Keeps s₀ (dropPeg s req) := h

theorem keeps_grantLock (h : Keeps s₀ s) (p) : Keeps s₀ (grantLock s p) := by
  grind [grantLock, keeps_dropLeases, keeps_observeLanes, keeps_endLock, keeps_mk, lawful_fields]

theorem keeps_answerHolder (h : Keeps s₀ s) (line) : Keeps s₀ (answerHolder s line) := by
  grind [answerHolder, keeps_grantLock, keeps_sendProbes]

theorem keeps_leaveChain (h : Keeps s₀ s) (p st) : Keeps s₀ (leaveChain s p st) := by
  grind [leaveChain, keeps_dropPeg, keeps_endLock, keeps_mk, lawful_fields]

theorem keeps_turns (h : Keeps s₀ s) (n line) : Keeps s₀ (turns n s line) := by
  induction n generalizing s with
  | zero => exact h
  | succ n ih =>
    unfold turns
    grind [keeps_leaveChain, keeps_setPeg, keeps_answerHolder]

theorem keeps_serveChain (h : Keeps s₀ s) (line) : Keeps s₀ (serveChain s line) := by
  grind [serveChain, keeps_answerHolder, keeps_turns]

theorem keeps_execLockGrant (h : Keeps s₀ s) (req) : KeepsOut s₀ (execLockGrant req s) := by
  grind [execLockGrant, keeps_serveChain, KeepsOut]

theorem keeps_parkOnLock (h : Keeps s₀ s) (req r) : Keeps s₀ (parkOnLock s req r) := by
  unfold parkOnLock
  split <;> grind [keeps_forAll, keeps_setSplit, keeps_mk, lawful_fields]

theorem keeps_execLockRequestArrival (h : Keeps s₀ s) (req) : KeepsOut s₀ (execLockRequestArrival req s) := by
  grind [execLockRequestArrival, keeps_setEntry, keeps_endLock, keeps_refuseEntry, keeps_mk, lawful_fields, keeps_serveChain,
    keeps_parkOnLock, KeepsOut]

theorem keeps_applyHeld (h : Keeps s₀ s) (a) : Keeps s₀ (applyHeld s a) := by
  grind [applyHeld, keeps_applyStore, keeps_dropAcc, keeps_flushLine, keeps_returnRequest, keeps_countEntry, keeps_applyExpert,
    keeps_applyOne]

theorem keeps_applyWaiting (h : Keeps s₀ s) (line) : Keeps s₀ (applyWaiting s line) := by
  grind [applyWaiting, keeps_forAll, keeps_setAcc, keeps_applyHeld]

theorem keeps_handOver (h : Keeps s₀ s) (line broken carry) : Keeps s₀ (handOver s line broken carry) := by
  grind [handOver, keeps_mk, lawful_fields, keeps_setCarry, keeps_serveChain, keeps_applyWaiting]

theorem keeps_execLockHandover (h : Keeps s₀ s) (line) : KeepsOut s₀ (execLockHandover line s) := by
  grind [execLockHandover, keeps_dropAcc, keeps_returnValue, keeps_handOver, KeepsOut]

theorem keeps_deliverLate (h : Keeps s₀ s) (gid) : Keeps s₀ (deliverLate s gid) := by
  grind [deliverLate, keeps_forAll, keeps_endLock]

theorem keeps_execLockTimeout (h : Keeps s₀ s) (gid line) : KeepsOut s₀ (execLockTimeout gid line s) := by
  grind [execLockTimeout, keeps_leaveChain, KeepsOut]

theorem keeps_execLockReservationExpiry (h : Keeps s₀ s) (line) : KeepsOut s₀ (execLockReservationExpiry line s) := by
  grind [execLockReservationExpiry, keeps_serveChain, keeps_leaveChain, KeepsOut]

theorem keeps_breakCycle (h : Keeps s₀ s) (c) : Keeps s₀ (breakCycle s c) := by
  unfold breakCycle
  split <;> grind [keeps_foldl, keeps_leaveChain, keeps_logEvent]

theorem keeps_breakCycles (h : Keeps s₀ s) (n) : Keeps s₀ (breakCycles n s) := by
  induction n generalizing s with
  | zero => exact h
  | succ n ih =>
    unfold breakCycles
    split
    · exact ih (keeps_breakCycle h _)
    · exact h

theorem keeps_execKneeBraceScan (h : Keeps s₀ s) : KeepsOut s₀ (execKneeBraceScan s) := by
  grind [execKneeBraceScan, keeps_breakCycles, KeepsOut]

/-! #### Queues -/

theorem keeps_postChild (h : Keeps s₀ s) (die q record obs) : Keeps s₀ (postChild s die q record obs).1 := by
  grind [postChild, keeps_mk, lawful_fields, keeps_agentWrite, keeps_bridgeRead]

theorem keeps_postRecords (h : Keeps s₀ s) (die obs rs) : Keeps s₀ (postRecords die obs rs s).2 := by
  induction rs generalizing s with
  | nil => exact h
  | cons r t ih =>
    unfold postRecords
    grind [keeps_postChild]

theorem keeps_postAll (h : Keeps s₀ s) (die bs) : Keeps s₀ (postAll die bs s).2 := by
  induction bs generalizing s with
  | nil => exact h
  | cons b t ih =>
    unfold postAll
    grind [keeps_postRecords]

theorem keeps_flushLaunches (h : Keeps s₀ s) : Keeps s₀ (flushLaunches s) := by
  grind [flushLaunches, keeps_forAll, keeps_postAll, keeps_setCore]

/-! #### Lifecycle -/

theorem keeps_lanesGo (h : Keeps s₀ s) (c) : Keeps s₀ (lanesGo s c) := keeps_settleGather (keeps_lanesLeave (keeps_advance h ..) ..) ..

theorem keeps_goAlike (h : Keeps s₀ s) (c) : Keeps s₀ (goAlike s c) := by
  grind [goAlike, keeps_parkAlike, keeps_lanesGo]

theorem keeps_endLanesOnce (h : Keeps s₀ s) (c items last) {act} (ha : ∀ c t, Keeps s₀ t → Keeps s₀ (act c t)) : KeepsRes s₀ (endLanesOnce
    s c items last act) := by
  grind [endLanesOnce, keeps_together, keeps_parkHere, keeps_lanesGo, keeps_goAlike, KeepsRes]

theorem keeps_execExit (h : Keeps s₀ s) (hd) : KeepsOut s₀ (execExit hd s) := by
  grind [execExit, keeps_runInstr, keeps_endLanesOnce, keeps_forAll, keeps_exitThread, KeepsOut, KeepsRes]

theorem keeps_endTasks (h : Keeps s₀ s) (gid g lanes) : Keeps s₀ (endTasks s gid g lanes) := by
  grind [endTasks, keeps_forAll, keeps_setBlock, keeps_exitThread, keeps_setTask]

theorem keeps_abandonTask (h : Keeps s₀ s) (gid lane tt) : Keeps s₀ (abandonTask s gid lane tt) := by
  grind [abandonTask, keeps_forAll, keeps_discardTask, keeps_dropTaskWrites, keeps_setTask]

theorem keeps_abandonTasks (h : Keeps s₀ s) (gid g lanes) : Keeps s₀ (abandonTasks s gid g lanes) := by
  grind [abandonTasks, keeps_forAll, keeps_abandonTask]

theorem keeps_endWait {t} (h : Keeps s₀ s) (gid g lanes p) (e : endWait s gid g lanes p = some t) : Keeps s₀ t := by
  unfold endWait at e
  split at e
  · cases e; exact keeps_forAll h fun l u hu => keeps_exitThread hu g l
  · cases e; exact keeps_endTasks h _ _ _
  · cases e; exact keeps_abandonTasks h _ _ _
  · cases e

theorem keeps_execGroupEnd (h : Keeps s₀ s) (gid split) : KeepsOut s₀ (execGroupEnd gid split s) := by
  unfold execGroupEnd KeepsOut
  dsimp only
  split
  · exact h
  · next g _ =>
    refine keeps_ite h (keeps_ite (keeps_reapGroup h gid) ?_)
    split
    · exact h
    · refine keeps_ite h ?_
      split
      · exact h
      · next t e =>
        obtain ⟨p, -, e⟩ := Option.bind_eq_some_iff.mp e
        have ht : Keeps s₀ t := keeps_endWait h gid g _ p e
        exact keeps_settleGather (keeps_ite (keeps_lanesLeave (keeps_lanesLeave ht _ _ _) _ _ _) (keeps_lanesLeave ht _ _ _)) _

theorem keeps_writeConts (h : Keeps s₀ s) (c target key) : Keeps s₀ (writeConts s c target key) := keeps_forAll h fun _ _ ht => ht

theorem keeps_execRegroup (h : Keeps s₀ s) (hd off a) : KeepsOut s₀ (execRegroup hd off a s) := by
  grind [execRegroup, keeps_runInstr, keeps_together, keeps_lanesGo, keeps_writeConts, keeps_goAlike, KeepsOut, KeepsRes]

theorem keeps_execFormerFlush (h : Keeps s₀ s) (blk) : KeepsOut s₀ (execFormerFlush blk s) := by
  grind [execFormerFlush, keeps_setBlock, KeepsOut]

theorem keeps_checkRecords (h : Keeps s₀ s) (c us) : Keeps s₀ (checkRecords s c us).2.1 := by
  induction us generalizing s with
  | nil => exact h
  | cons x l ih =>
    unfold checkRecords
    grind [keeps_translate]

theorem keepsRes_checkRecords (h : Keeps s₀ s) {c us ps t r} (e : checkRecords s c us = (ps, t, some r)) : KeepsRes s₀ r := by
  induction us generalizing s ps t with
  | nil => cases e
  | cons x l ih =>
    unfold checkRecords at e
    have ht := keeps_translate h (dieOfGroup c.gid) c.launch.pasid Need.load x.1
    grind [keeps_pageFault, KeepsRes]

theorem keeps_launchChecks {r} (h : Keeps s₀ s) (us c) (e : launchChecks us c s = .inl r) : KeepsRes s₀ r := by
  grind [launchChecks, keeps_checkRecords, keepsRes_checkRecords, KeepsRes]

theorem keeps_launchChildren (h : Keeps s₀ s) (rs c) : KeepsRes s₀ (launchChildren rs c s) := by
  grind [launchChildren, keeps_setCore, KeepsRes]

theorem keeps_launchBody (h : Keeps s₀ s) (vec xs c) : KeepsRes s₀ (launchBody vec xs c s) := by
  unfold launchBody
  extract_lets checks send
  have hc (r) (e : checks = .inl r) : KeepsRes s₀ r := keeps_launchChecks h _ c e
  have hs (ps) : KeepsRes s₀ (send ps) :=
    keepsRes_ite trivial (keeps_afterCompare (keeps_forAll h fun p t ht => keeps_bridgeRead ht _ _ _ _) _ _ _ _ (fun _ ht => ht)
      fun c t ht => keeps_launchChildren ht _ c)
  clear_value checks send
  refine keeps_mirrorFault h c _ ?_ ?_
  · split
    · exact hc _ rfl
    · exact h
  · split
    · exact keepsRes_ite (keeps_afterCompare h _ _ _ _ (fun _ ht => ht) fun _ _ ht => ht) (hc _ rfl)
    · exact hc _ rfl
    · exact hs _

theorem keeps_execLaunch (h : Keeps s₀ s) (hd a) : KeepsOut s₀ (execLaunch hd a s) :=
  keeps_runInstr h _ _ fun _ _ ht => keeps_launchBody ht ..

theorem keeps_execLaunchLane (h : Keeps s₀ s) (hd a) : KeepsOut s₀ (execLaunchLane hd a s) :=
  keeps_runInstr h _ _ fun _ _ ht => keeps_launchBody ht ..

/-! #### Scheduler -/

theorem keeps_fetchDecode (h : Keeps s₀ s) (die l pc) : Keeps s₀ (fetchDecode s die l pc).2 := by
  grind [fetchDecode, keeps_fetchWords]

theorem keeps_mergeAt (h : Keeps s₀ s) (core sched gid si) : Keeps s₀ (mergeAt s core sched gid si).1 := by
  unfold mergeAt
  split
  · exact h
  · dsimp only
    split
    · exact h
    · exact keeps_foldl_fst h fun _ _ ht => keeps_setGroup ht _ _

theorem keeps_turnTo (h : Keeps s₀ s) (core sched gid si) : Keeps s₀ (turnTo s core sched gid si) := by
  unfold turnTo
  grind [keeps_setSplit, keeps_mergeAt, keeps_setCore, keeps_mk, lawful_fields]

theorem keeps_fetchTurn (h : Keeps s₀ s) : KeepsChosen s₀ (fetchTurn s) := by
  unfold fetchTurn
  split <;> grind [keeps_beforeNext, keeps_takeFault, keeps_fetchDecode, keeps_pageFault, KeepsChosen]

theorem keeps_notReady (h : Keeps s₀ s) (before core gid si) : Keeps s₀ (notReady before s core gid si) :=
  keeps_setSplit (keeps_setCore h _ _) _ _ _

theorem keeps_noteReady (h : Keeps s₀ s) : Keeps s₀ (noteReady s) := h

/-- One clk (R5): no die's time goes back, awake or asleep. -/
theorem keeps_tick (h : Keeps s₀ s) : Keeps s₀ (tick s) := by
  have hf : Keeps s₀ (flushFaults (settleSpills (flushLaunches (noteReady s)))) :=
    keeps_flushFaults (keeps_settleSpills (keeps_flushLaunches (keeps_noteReady h)))
  refine Lawful.map_time hf fun p => ?_
  split
  · exact Nat.le_succ _
  · exact le_rfl

/-! #### Placing -/

theorem keeps_retireSlot (h : Keeps s₀ s) (gid) : Keeps s₀ (retireSlot s gid) := Lawful.map_time h fun _ => le_rfl

theorem keeps_putGroup (h : Keeps s₀ s) (gid g) : Keeps s₀ (putGroup s gid g) := keeps_retireSlot h ..

theorem keeps_placeGroup (h : Keeps s₀ s) (gid checked g) : Keeps s₀ (placeGroup s gid checked g) := by
  grind [placeGroup, keeps_putGroup]

/-! #### Tasks -/

theorem keeps_sendRecord (h : Keeps s₀ s) (gid launch target named x) : Keeps s₀ (sendRecord s gid launch target named x) := h

theorem keeps_spawnChecks {a c r} (e : spawnChecks a c s = some r) : KeepsRes s₀ r := by
  grind [spawnChecks, KeepsRes]

theorem keeps_spawnAct (h : Keeps s₀ s) (a target named c) : KeepsRes s₀ (spawnAct a target named c s) := by
  grind [spawnAct, keeps_deferAction, keeps_shoreFullAction, keeps_forAll, keeps_sendRecord, keeps_setGroup, KeepsRes]

theorem keeps_execSpawn (h : Keeps s₀ s) (hd a die off) : KeepsOut s₀ (execSpawn hd a die off s) := by
  refine keeps_runInstr h _ _ fun c t ht => ?_
  extract_lets target items checks act
  have hc (r) (e : checks = some r) : KeepsRes s₀ r := keeps_spawnChecks e
  have ha (c u) (hu : Keeps s₀ u) : KeepsRes s₀ (act c u) := keeps_spawnAct hu _ _ _ c
  refine keeps_mirrorFault ht c items (keepsRes_getD hc ht) ?_
  split
  · have hm := keeps_compare ht c (items c)
    split
    · next e => exact .of_fst e hm
    · next v e =>
      have hv : Keeps s₀ v := .of_fst e hm
      have hr := ha (primaryCtx t c) v hv
      split
      · next u eu => rw [eu] at hr; exact hr
      · exact hr
  · exact hc _ ‹_›
  · exact keeps_afterCompare ht _ _ _ _ (fun _ hu => hu) ha

theorem keeps_tendChecks {c r} (e : tendChecks c = some r) : KeepsRes s₀ r := by
  grind [tendChecks, KeepsRes]

theorem keeps_tabortChecks {c r} (e : tabortChecks c = some r) : KeepsRes s₀ r := by
  grind [tabortChecks, KeepsRes]

theorem keeps_endBody (h : Keeps s₀ s) (last c) {checks act} (hc : ∀ c r, checks c = some r → KeepsRes s₀ r)
    (ha : ∀ c t, Keeps s₀ t → Keeps s₀ (act c t)) : KeepsRes s₀ (endBody checks last act c s) := by
  refine keeps_mirrorFault h c _ (keepsRes_getD (hc c) h) ?_
  split
  · exact keeps_endLanesOnce h _ _ _ ha
  · exact keeps_endLanesOnce h _ _ _ ha
  · exact hc c _ ‹_›

theorem keeps_execTend (h : Keeps s₀ s) (hd) : KeepsOut s₀ (execTend hd s) :=
  keeps_runInstr h _ _ fun c _ ht => keeps_endBody ht _ c (fun _ _ e => keeps_tendChecks e) fun _ _ ht => keeps_endTasks ht _ _ _

theorem keeps_execTabort (h : Keeps s₀ s) (hd) : KeepsOut s₀ (execTabort hd s) :=
  keeps_runInstr h _ _ fun c _ ht => keeps_endBody ht _ c (fun _ _ e => keeps_tabortChecks e) fun _ _ ht => keeps_abandonTasks ht _ _ _

theorem keeps_execTaskRecordAccept (h : Keeps s₀ s) (entry) : KeepsOut s₀ (execTaskRecordAccept entry s) := by
  unfold execTaskRecordAccept
  split <;> grind [keeps_refuseEntry, keeps_abortTask, keeps_setDie, keeps_setEntry, keeps_setTask, KeepsOut]

theorem keeps_makeSlot {t} (h : Keeps s₀ s) (die head) (e : makeSlot s die head = some t) : Keeps s₀ t := by
  unfold makeSlot at e
  split at e
  · cases e
    exact h
  · split at e
    · split at e
      · cases e
        exact keeps_abortTask h _
      · cases e
    · cases e

theorem keeps_execTaskBatchDispatch (h : Keeps s₀ s) (die core) : KeepsOut s₀ (execTaskBatchDispatch die core s) := by
  grind [execTaskBatchDispatch, keeps_makeSlot, keeps_forAll, keeps_setTask, keeps_setCore, KeepsOut]

theorem keeps_execTaskGroupForm (h : Keeps s₀ s) (core) : KeepsOut s₀ (execTaskGroupForm core s) := by
  unfold execTaskGroupForm
  split <;> grind [keeps_fresh, keeps_placeGroup, keeps_forAll, keeps_setTask, keeps_setCore, KeepsOut]

theorem keeps_execFrontierRound (h : Keeps s₀ s) : KeepsOut s₀ (execFrontierRound s) := by
  grind [execFrontierRound, keeps_mk, lawful_fields, KeepsOut]

theorem keeps_commitTask (h : Keeps s₀ s) (t k) : Keeps s₀ (commitTask s t k) := by
  refine keeps_foldl ?_ fun u q hu => keeps_sectorConflicts hu _ _ _
  exact keeps_foldl (keeps_foldl h fun u p hu => keeps_setCarry (keeps_overwrite (keeps_spoil hu _ _) _ _) _ _ _)
    fun u l hu => keeps_noteStore hu _ _ _

theorem keeps_commitTurns (h : Keeps s₀ s) (n die) : Keeps s₀ (commitTurns n s die) := by
  induction n generalizing s with
  | zero => exact h
  | succ n ih =>
    unfold commitTurns
    split
    · exact h
    · split
      · exact h
      · refine keeps_ite h (keeps_ite h (keeps_ite (keeps_foldl h fun t l ht => keeps_sendProbes ht _ _) (ih ?_)))
        refine keeps_commitTask ?_ _ _
        exact h

theorem keeps_enterFrontier (h : Keeps s₀ s) (die) : Keeps s₀ (enterFrontier s die) := by
  grind [enterFrontier, keeps_setTask, keeps_abortTask]

theorem keeps_execFrontierReceive (h : Keeps s₀ s) (die) : KeepsOut s₀ (execFrontierReceive die s) := by
  grind [execFrontierReceive, keeps_setDie, keeps_enterFrontier, keeps_commitTurns, KeepsOut]

/-! #### Recovery -/

theorem keeps_convCheck (h : Keeps s₀ s) (c va) : Keeps s₀ (convCheck s c va).2 := by
  grind [convCheck, keeps_translate, keeps_pageFault, KeepsRes]

theorem keepsRes_convCheck (h : Keeps s₀ s) {c va r t} (e : convCheck s c va = (.inl r, t)) : KeepsRes s₀ r := by
  grind [convCheck, keeps_translate, keeps_pageFault, KeepsRes]

theorem keeps_joinCheck {r} (h : Keeps s₀ s) (c va) (e : joinCheck s c va = .inl r) : KeepsRes s₀ r := by
  grind [joinCheck, keeps_convCheck, keepsRes_convCheck, KeepsRes]

theorem keeps_leaveCheck {r} (h : Keeps s₀ s) (c va) (e : leaveCheck s c va = .inl r) : KeepsRes s₀ r := by
  grind [leaveCheck, keeps_convCheck, keepsRes_convCheck, KeepsRes]

theorem keeps_checkedBody (h : Keeps s₀ s) (items alike c) {checks} (hc : ∀ r, checks = .inl r → KeepsRes s₀ r) : KeepsRes s₀ (checkedBody
    items checks alike c s) := by
  grind [checkedBody, keeps_mirrorFault, keeps_gatherBody, KeepsRes]

theorem keeps_ensureChecks {r} (h : Keeps s₀ s) (n1 a b first test c) (e : ensureChecks n1 a b first test c s = .inl r) : KeepsRes s₀ r := by
  unfold ensureChecks at e
  have hj (r va) (e : joinCheck s c va = .inl r) : KeepsRes s₀ r := keeps_joinCheck h c va e
  grind [KeepsRes]

theorem keeps_execEnsure (h : Keeps s₀ s) (hd n1 a b first test) : KeepsOut s₀ (execEnsure hd n1 a b first test s) := by
  grind [execEnsure, keeps_runInstr, keeps_checkedBody, keeps_ensureChecks, KeepsOut, KeepsRes]

theorem keeps_markerBody (h : Keeps s₀ s) (c) : KeepsRes s₀ (markerBody c s) := by
  grind [markerBody, keeps_setSplit, keeps_mirrorFault, KeepsRes]

theorem keeps_execElseby (h : Keeps s₀ s) (hd off) : KeepsOut s₀ (execElseby hd off s) :=
  keeps_runInstr h _ _ fun _ _ ht => keeps_markerBody ht ..

theorem keeps_execElseerr (h : Keeps s₀ s) (hd) : KeepsOut s₀ (execElseerr hd s) :=
  keeps_runInstr h _ _ fun _ _ ht => keeps_markerBody ht ..

theorem keeps_execAccept (h : Keeps s₀ s) (hd) : KeepsOut s₀ (execAccept hd s) := by
  grind [execAccept, keeps_runInstr, keeps_gatherBody, keeps_mirrorFault, KeepsOut, KeepsRes]

theorem keeps_execReject (h : Keeps s₀ s) (hd a) : KeepsOut s₀ (execReject hd a s) := by
  grind [execReject, keeps_runInstr, keeps_failLevel, keeps_mirrorFault, KeepsOut, KeepsRes]

theorem keeps_convChecks {r} (h : Keeps s₀ s) (a c) (e : convChecks a c s = .inl r) : KeepsRes s₀ r := by
  grind [convChecks, keeps_joinCheck, KeepsRes]

theorem keeps_execConv (h : Keeps s₀ s) (hd a) : KeepsOut s₀ (execConv hd a s) := by
  grind [execConv, keeps_runInstr, keeps_checkedBody, keeps_convChecks, KeepsOut, KeepsRes]

theorem keeps_convxChecks {r} (h : Keeps s₀ s) (a c) (e : convxChecks a c s = .inl r) : KeepsRes s₀ r := by
  grind [convxChecks, keeps_leaveCheck, KeepsRes]

theorem keeps_execConvx (h : Keeps s₀ s) (hd a) : KeepsOut s₀ (execConvx hd a s) := by
  grind [execConvx, keeps_runInstr, keeps_checkedBody, keeps_convxChecks, KeepsOut, KeepsRes]

theorem keeps_abandonWaits (h : Keeps s₀ s) (blk) : Keeps s₀ (abandonWaits s blk) := h

theorem keeps_dropHeld (h : Keeps s₀ s) (blk d) : Keeps s₀ (dropHeld s blk d) :=
  keeps_forAll h fun _ _ ht => keeps_discardQueued (keeps_setQueue ht ..) ..

theorem keeps_restoreLevel (h : Keeps s₀ s) (blk b l) : Keeps s₀ (restoreLevel s blk b l) := by
  grind [restoreLevel, keeps_foldl, keeps_setGroup, keeps_putApplied, keeps_setBlock]

theorem keeps_passPrior (h : Keeps s₀ s) (blk d b) : Keeps s₀ (passPrior s blk d b) := by
  grind [passPrior, keeps_forAll, keeps_setBlock]

theorem keeps_restartAll (h : Keeps s₀ s) (rs pc stopped) : Keeps s₀ (restartAll s rs pc stopped) := by
  grind [restartAll, keeps_forAll, keeps_fresh, keeps_setGroup]

theorem keeps_stopAgain (h : Keeps s₀ s) (blk b) : Keeps s₀ (stopAgain s blk b) := h

theorem keeps_nextMarker (h : Keeps s₀ s) (die l m) : Keeps s₀ (nextMarker s die l m).2 := by
  grind [nextMarker, keeps_fetchDecode]

theorem keeps_failMember (h : Keeps s₀ s) (word blk code value) : Keeps s₀ (failMember s word blk code value) := by
  grind [failMember, keeps_setBlock, keeps_failLevel]

theorem keeps_reportConv (h : Keeps s₀ s) (word blk code value) : Keeps s₀ (reportConv s word blk code value) := by
  grind [reportConv, keeps_convRestored, keeps_updateConv, keeps_setConv, keeps_forAll, keeps_failMember]

theorem keeps_undoLevels (h : Keeps s₀ s) (blk d b) : Keeps s₀ (undoLevels s blk d b) := by
  grind [undoLevels, keeps_foldl, keeps_restoreLevel, keeps_passPrior, keeps_mk, lawful_fields, keeps_forAll, keeps_handOver]

theorem keeps_settleConvs (h : Keeps s₀ s) (blk d b f) : Keeps s₀ (settleConvs s blk d b f).2 := by
  grind [settleConvs, keeps_forAll, keeps_leaveConv, keeps_reportConv]

theorem keeps_goOn (h : Keeps s₀ s) (blk b f l conv) : Keeps s₀ (goOn s blk b f l conv) := by
  have hn (d la m) := keeps_nextMarker h d la m
  unfold goOn
  extract_lets d note keep
  have hnote (c v t) (ht : Keeps s₀ t) : Keeps s₀ (note c v t) := keeps_forAll ht fun r u hu => keeps_setGroup hu _ _
  have hkeep (t) (ht : Keeps s₀ t) : Keeps s₀ (keep t) := ht
  clear_value note keep
  split
  next m t e =>
    have ht : Keeps s₀ t := by
      split at e
      · exact .of_snd e (hn _ _ _)
      · cases e; exact h
    clear e
    have hu := hnote f.code f.value t ht
    dsimp only
    split
    · exact keeps_stopAgain (keeps_restartAll (hkeep _ (keeps_setBlock hu _ _)) _ _ _) _ _
    · have hv : Keeps s₀ (match conv with | some w => leaveConv (note f.code f.value t) w blk | none => note f.code f.value t) := by
        cases conv with
        | none => exact hu
        | some w => exact keeps_leaveConv hu w blk
      split
      · exact keeps_restartAll (keeps_setBlock hv _ _) _ _ _
      · refine keeps_forAll (keeps_stopAgain (keeps_restartAll (hkeep _ (keeps_setBlock hv _ _)) _ _ _) _ _) fun r x hx => ?_
        split
        · split
          · exact hx
          · exact keeps_takeFaultAt hx _ _ _ _ _ _
        · exact hx

theorem keeps_execRollbackRestore (h : Keeps s₀ s) (blk) : KeepsOut s₀ (execRollbackRestore blk s) := by
  unfold execRollbackRestore
  repeat' split
  all_goals grind [keeps_dropHeld, keeps_abandonWaits, keeps_forAll, keeps_foldl,
    keeps_sendProbes, keeps_setBlock, keeps_undoLevels, keeps_settleConvs, keeps_goOn, KeepsOut]

theorem keeps_execLevelClockLimit (h : Keeps s₀ s) (blk level) : KeepsOut s₀ (execLevelClockLimit blk level s) := by
  grind [execLevelClockLimit, keeps_failLevel, KeepsOut]

theorem keeps_perform (h : Keeps s₀ s) (blk launch a) : Keeps s₀ (perform s blk launch a) := by
  unfold perform
  split <;> grind [keeps_issueAcc, keeps_setQueue, keeps_setCmd, keeps_completeWord, keeps_sendCounts, keeps_forAll,
    keeps_sendRecord]

theorem keeps_execAcceptCommit (h : Keeps s₀ s) (blk) : KeepsOut s₀ (execAcceptCommit blk s) := by
  unfold execAcceptCommit
  repeat' split
  all_goals grind [keeps_forAll, keeps_setCarry, keeps_mk, lawful_fields, keeps_setBlock,
    keeps_setConv, keeps_perform, KeepsOut]

theorem keeps_joinConv (h : Keeps s₀ s) (blk w) : Keeps s₀ (joinConv s blk w) := by
  grind [joinConv, keeps_updateConv, keeps_mk, lawful_fields, keeps_setConv, keeps_forAll, keeps_setBlock]

theorem keeps_execConversationJoin (h : Keeps s₀ s) (blk) : KeepsOut s₀ (execConversationJoin blk s) := by
  grind [execConversationJoin, keeps_settleGather, keeps_sendProbes, keeps_joinConv, KeepsOut]

theorem keeps_execConversationAccept (h : Keeps s₀ s) (word) : KeepsOut s₀ (execConversationAccept word s) := by
  grind [execConversationAccept, keeps_closeConv, keeps_sendProbes, keeps_setConv, keeps_forAll, keeps_acceptLevel, KeepsOut]

theorem keeps_execShadowCompareTimeout (h : Keeps s₀ s) (gid) : KeepsOut s₀ (execShadowCompareTimeout gid s) := by
  grind [execShadowCompareTimeout, keeps_shadowMismatch, KeepsOut]

/-! #### Distribution -/

theorem keeps_clearPad (h : Keeps s₀ s) (core base n) : Keeps s₀ (clearPad s core base n) :=
  ⟨fun w => wf_clearPad s core base n (h.1 w), h.2⟩

theorem keeps_placeBlock (h : Keeps s₀ s) (b l) : Keeps s₀ (placeBlock s b l) := by
  grind [placeBlock, keeps_fresh, keeps_clearPad, keeps_mk, lawful_fields, keeps_forAll, keeps_placeGroup]

theorem keeps_placeCluster (h : Keeps s₀ s) (lid l cluster stage cores slot bases) : Keeps s₀ (placeCluster s lid l cluster stage cores
    slot bases) :=
  keeps_forAll h fun _ _ ht => keeps_placeBlock ht ..

theorem keeps_execClusterStartRelease (h : Keeps s₀ s) (blk) : KeepsOut s₀ (execClusterStartRelease blk s) := by
  grind [execClusterStartRelease, keeps_forAll, keeps_setBlock, keeps_observeLanes, KeepsOut]

theorem keeps_leaveClass (h : Keeps s₀ s) (lid) : Keeps s₀ (leaveClass s lid) := h

theorem keeps_joinClass (h : Keeps s₀ s) (lid c) : Keeps s₀ (joinClass s lid c) := h

theorem keeps_decided (h : Keeps s₀ s) (lid next) : Keeps s₀ (decided s lid next) := by
  grind [decided, keeps_setLaunch, keeps_forAll, keeps_leaveClass, keeps_joinClass]

theorem keeps_placeAll {t} (h : Keeps s₀ s) (lid l n ps) (e : placeAll s lid l n ps = some t) : Keeps s₀ t := by
  induction ps generalizing s n with
  | nil => cases e; exact h
  | cons p ps ih =>
    unfold placeAll at e
    split at e
    · exact ih (keeps_placeCluster h _ _ _ _ _ _ _) _ e
    · cases e

theorem keeps_releaseHigher (h : Keeps s₀ s) (own) : Keeps s₀ (releaseHigher s own) := h

theorem keeps_serveLaunch {t} (h : Keeps s₀ s) (lid ps) (e : serveLaunch s lid ps = some t) : Keeps s₀ t := by
  unfold serveLaunch at e
  split at e
  · cases e
  next l _ =>
  dsimp only at e
  split at e
  · split at e
    · split at e
      · obtain rfl := Option.some.inj e
        exact keeps_decided (keeps_placeCluster (keeps_releaseHigher h _) _ _ _ _ _ _ _) _ _
      · cases e
    · cases e
  · split at e
    · cases e
    · split at e
      · cases e
      · next total _ =>
        have hu : Keeps s₀ (releaseHigher s ⟨lid, l.gangId, total⟩) := keeps_releaseHigher h _
        split at e
        · obtain rfl := Option.some.inj e
          exact hu
        · obtain ⟨v, ev, rfl⟩ := Option.map_eq_some_iff.mp e
          exact keeps_decided (keeps_placeAll hu _ _ _ _ ev) _ _

theorem keeps_execDispatchDecision (h : Keeps s₀ s) (at_) : KeepsOut s₀ (execDispatchDecision at_ s) := by
  unfold execDispatchDecision KeepsOut
  dsimp only
  split
  · exact h
  · next c _ =>
    cases e : (servable s c).findSome? (fun l => serveLaunch s l at_) with
    | none => exact h
    | some t =>
      obtain ⟨l, -, el⟩ := List.exists_of_findSome?_eq_some e
      exact keeps_serveLaunch h l at_ el

theorem keeps_execLaunchPromotion (h : Keeps s₀ s) (launch) : KeepsOut s₀ (execLaunchPromotion launch s) := by
  grind [execLaunchPromotion, keeps_joinClass, keeps_leaveClass, keeps_setLaunch, KeepsOut]

theorem keeps_execFormedGroupPlace (h : Keeps s₀ s) (blk) : KeepsOut s₀ (execFormedGroupPlace blk s) := by
  unfold execFormedGroupPlace
  split <;> grind [keeps_fresh, keeps_placeGroup, keeps_setBlock, KeepsOut]

theorem keeps_mapParts (h : Keeps s₀ s) {die pasid va n x t} (e : mapParts s die pasid va n = (x, t)) : Keeps s₀ t := by
  have hs := keeps_spanTranslate h die pasid Need.load (spanParts va n)
  unfold mapParts at e
  split at e
  · next e' => cases e; exact .of_snd e' hs
  · next e' => cases e; exact .of_snd e' hs

theorem keeps_readParts (h : Keeps s₀ s) (die ps) : Keeps s₀ (readParts s die ps).2 := keeps_forAll h fun _ _ ht => keeps_bridgeRead ht ..

theorem keeps_acceptLaunch {t} (h : Keeps s₀ s) (r ok ident entry obs) (e : acceptLaunch s r ok ident entry obs = some t) :
    Keeps s₀ t := by
  unfold acceptLaunch at e
  extract_lets _ l reject enter map at e
  have hr (u c) (hu : Keeps s₀ u) : Keeps s₀ (reject u c) := keeps_fresh hu
  have he (u p) (hu : Keeps s₀ u) : Keeps s₀ (enter u p) := by
    refine keeps_joinClass ?_ _ _
    exact keeps_fresh hu
  clear_value l reject enter map
  split at e
  · cases e; exact hr _ _ h
  · split at e
    · cases e; exact hr _ _ h
    · split at e
      · cases e; exact he _ _ h
      · split at e
        · next ps u eu =>
          have hu : Keeps s₀ u := keeps_mapParts h eu
          split at e
          · cases e
          · have hp := keeps_readParts hu l.die ps
            cases e
            exact he _ _ hp
        · next eu => cases e; exact hr _ _ (keeps_mapParts h eu)

theorem keeps_nextIdent {x t} (h : Keeps s₀ s) (die) (e : nextIdent s die = some (x, t)) : Keeps s₀ t := by
  grind [nextIdent, keeps_setDie]

theorem keeps_takeRecord (h : Keeps s₀ s) (die queue k) : Keeps s₀ (takeRecord s die queue k).2 := by
  unfold takeRecord
  grind [keeps_sendProbes]

theorem keeps_takeRecord_some (h : Keeps s₀ s) {die queue k t u} (e : takeRecord s die queue k = (some t, u)) : Keeps s₀ t := by
  unfold takeRecord at e
  extract_lets at_ at e
  split at e
  · cases e
  · next ident v ei =>
    have hv : Keeps s₀ v := keeps_nextIdent h die ei
    split at e
    · cases e
    · have hw : Keeps s₀ (bridgeRead (bridgeRead v die k.prod 4 false) die at_ 64 false) :=
        keeps_bridgeRead (keeps_bridgeRead hv _ _ _ _) _ _ _ _
      dsimp only at e
      split at e
      · cases e
      · next x ex =>
        have hx : Keeps s₀ x := by
          refine keeps_acceptLaunch ?_ _ _ _ _ _ ex
          exact hw
        have ha := keeps_agentWrite hx die [(at_, leBytes 8 ident.toNat), (k.cons, leBytes 4 (k.read + 1))]
        split at e
        · next ew => cases e; exact .of_fst ew ha
        · cases e

theorem keeps_execLaunchQueueRead (h : Keeps s₀ s) (read) : KeepsOut s₀ (execLaunchQueueRead read s) := by
  unfold execLaunchQueueRead KeepsOut
  extract_lets die queue k stray
  refine keeps_ite h ?_
  split
  · split
    · next ident t r obs rest e _ =>
      have ht : Keeps s₀ t := keeps_nextIdent h die e
      cases ea : acceptLaunch { t with queues := t.queues.put queue { k with posted := rest } } r false ident 0 obs with
      | none => exact h
      | some u =>
        refine keeps_acceptLaunch ?_ _ _ _ _ _ ea
        exact ht
    · exact h
  · refine keeps_ite h ?_
    have hr := keeps_takeRecord h die queue k
    split
    · next e => exact keeps_takeRecord_some h e
    · next e => exact .of_snd e hr

theorem keeps_endBlockTasks (h : Keeps s₀ s) (blk) : Keeps s₀ (endBlockTasks s blk) := by
  grind [endBlockTasks, keeps_forAll, keeps_poisonTask, keeps_abortTask]

theorem keeps_returnBatches (h : Keeps s₀ s) (core launch) : Keeps s₀ (returnBatches s core launch) := by
  grind [returnBatches, keeps_setCore, keeps_forAll, keeps_setTask]

theorem keeps_dropGroups (h : Keeps s₀ s) (blk) : Keeps s₀ (dropGroups s blk) := h

theorem keeps_dropLevels (h : Keeps s₀ s) (blk b) : Keeps s₀ (dropLevels s blk b) := by
  grind [dropLevels, keeps_foldl, keeps_restoreLevel, keeps_passPrior, keeps_mk, lawful_fields]

theorem keeps_leaveConvs (h : Keeps s₀ s) (blk) : Keeps s₀ (leaveConvs s blk) := keeps_forAll h fun _ _ ht => keeps_leaveConv ht ..

theorem keeps_freeBlock (h : Keeps s₀ s) (blk b) : Keeps s₀ (freeBlock s blk b) := h

theorem keeps_execBlockEnd (h : Keeps s₀ s) (blk) : KeepsOut s₀ (execBlockEnd blk s) := by
  unfold execBlockEnd
  split <;> grind [keeps_foldl, keeps_sendProbes, keeps_dropGroups, keeps_dropLevels, keeps_endBlockTasks,
    keeps_freeBlock, keeps_leaveConvs, keeps_returnBatches, keeps_setLaunch, KeepsOut]

theorem keeps_launchReported (h : Keeps s₀ s) (launch l) : Keeps s₀ (launchReported s launch l) := by
  grind [launchReported, keeps_mk, lawful_fields, keeps_setLaunch]

theorem keeps_execLaunchCompletion (h : Keeps s₀ s) (launch) : KeepsOut s₀ (execLaunchCompletion launch s) := by
  unfold execLaunchCompletion
  split <;> grind [keeps_setLaunch, keeps_launchReported, keeps_writeWord, keeps_logEvent, KeepsOut]

/-! #### System -/

theorem keeps_execCsrr (h : Keeps s₀ s) (hd d r) : KeepsOut s₀ (execCsrr hd d r s) :=
  keeps_runInstr h _ _ fun _ _ ht => keeps_setDstScalar ht ..

theorem keeps_writeSnapctl (h : Keeps s₀ s) (f x c) : KeepsRes s₀ (writeSnapctl f x c s) := by
  grind [writeSnapctl, keeps_setCore, KeepsRes]

theorem keeps_csrwBody (h : Keeps s₀ s) (f r a c) : KeepsRes s₀ (csrwBody f r a c s) := by
  unfold csrwBody
  split <;> grind [keeps_setGroup, keeps_writeSnapctl, KeepsRes]

theorem keeps_execCsrwWr (h : Keeps s₀ s) (hd r a) : KeepsOut s₀ (execCsrwWr hd r a s) :=
  keeps_runInstr h _ _ fun _ _ ht => keeps_csrwBody ht ..

theorem keeps_execCsrwSet (h : Keeps s₀ s) (hd r a) : KeepsOut s₀ (execCsrwSet hd r a s) :=
  keeps_runInstr h _ _ fun _ _ ht => keeps_csrwBody ht ..

theorem keeps_execCsrwClr (h : Keeps s₀ s) (hd r a) : KeepsOut s₀ (execCsrwClr hd r a s) :=
  keeps_runInstr h _ _ fun _ _ ht => keeps_csrwBody ht ..

theorem keeps_requestStop (h : Keeps s₀ s) (blk k) : Keeps s₀ (requestStop s blk k) := by
  grind [requestStop, keeps_setBlock, keeps_mk, lawful_fields, keeps_returnBatches, keeps_forAll, keeps_abortTask]

theorem keeps_execPreemption (h : Keeps s₀ s) (blks) : KeepsOut s₀ (execPreemption blks s) :=
  keeps_forAll h fun _ _ ht => keeps_requestStop ht ..

theorem keeps_execNpe (h : Keeps s₀ s) (hd) : KeepsOut s₀ (execNpe hd s) := by
  grind [execNpe, keeps_runInstr, keeps_setGroup, keeps_mirrorFault, KeepsOut, KeepsRes]

theorem keeps_closeWindow (h : Keeps s₀ s) (gid) : Keeps s₀ (closeWindow s gid) := by
  grind [closeWindow, keeps_setGroup]

theorem keeps_execPen (h : Keeps s₀ s) (hd) : KeepsOut s₀ (execPen hd s) := keeps_runInstr h _ _ fun _ _ ht => keeps_closeWindow ht ..

theorem keeps_execNpeWatchdogExpiry (h : Keeps s₀ s) (gid) : KeepsOut s₀ (execNpeWatchdogExpiry gid s) := by
  unfold execNpeWatchdogExpiry
  split <;> grind [keeps_logEvent, keeps_closeWindow, keeps_setGroup, KeepsOut]

theorem keeps_dropKept (h : Keeps s₀ s) (gid g) : Keeps s₀ (dropKept s gid g) := by
  grind [dropKept, keeps_mk, lawful_fields, keeps_setGroup]

theorem keeps_execTret (h : Keeps s₀ s) (hd) : KeepsOut s₀ (execTret hd s) := by
  grind [execTret, keeps_runInstr, keeps_setGroup, keeps_dropKept, KeepsOut, KeepsRes]

theorem keeps_trigger (h : Keeps s₀ s) (external) : Keeps s₀ (trigger s external).2 := keeps_logEvent h ..

theorem keeps_execSnap (h : Keeps s₀ s) (hd d) : KeepsOut s₀ (execSnap hd d s) := by
  grind [execSnap, keeps_runInstr, keeps_takeResult, keeps_trigger, keeps_deliver, KeepsOut, KeepsRes]

theorem keeps_execExternalTrigger (h : Keeps s₀ s) : KeepsOut s₀ (execExternalTrigger s) := by
  grind [execExternalTrigger, keeps_trigger, KeepsOut]

theorem keeps_latchCore (h : Keeps s₀ s) (core tt) : Keeps s₀ (latchCore s core tt) := h

theorem keeps_execSnapshotLatch (h : Keeps s₀ s) (die unit index) : KeepsOut s₀ (execSnapshotLatch die unit index s) := by
  grind [execSnapshotLatch, keeps_latchCore, keeps_setDie, KeepsOut]

theorem keeps_execHalt (h : Keeps s₀ s) (hd code) : KeepsOut s₀ (execHalt hd code s) := by
  grind [execHalt, keeps_runInstr, keeps_logEvent, keeps_requestStop, keeps_mirrorFault, KeepsOut, KeepsRes]

theorem keeps_execSelftestDue (h : Keeps s₀ s) (bent) : KeepsOut s₀ (execSelftestDue bent s) := by
  grind [execSelftestDue, keeps_setBent, keeps_forAll, keeps_requestStop, KeepsOut]

theorem keeps_execSelftestComplete (h : Keeps s₀ s) (bent pass) : KeepsOut s₀ (execSelftestComplete bent pass s) := by
  grind [execSelftestComplete, keeps_setBent, keeps_logEvent, KeepsOut]

theorem keeps_writeRecord (h : Keeps s₀ s) (die r num) {rest} (hr : ∀ d, d.time ≤ (rest d).time) : Keeps s₀ (writeRecord s die r num rest) := by
  unfold writeRecord
  extract_lets n
  have ha := keeps_agentWrite h die [(r.base + 32 * (n % 2 ^ r.log2), eventBytes die num), (r.prod, leBytes 4 (n + 1))]
  split
  · next t e => exact keeps_setDie (.of_fst e ha) (hr { t.die die with logProd := (n + 1) % 2 ^ 32 })
  · next e => exact .of_fst e ha

/-- Settling a corrected error changes no time. -/
theorem settleCorrected_time {d k : Die} (e : settleCorrected d = some k) : k.time = d.time := by
  unfold settleCorrected at e
  split at e
  · cases e
  · split at e
    · cases e; rfl
    · cases e

theorem keeps_execEventRecordWrite (h : Keeps s₀ s) (die) : KeepsOut s₀ (execEventRecordWrite die s) := by
  show Keeps s₀ _
  dsimp only
  split
  · next e => exact keeps_ite (keeps_setDie h (settleCorrected_time e).ge) h
  · have hb (r : Ring) := keeps_bridgeRead h die r.cons 4 false
    exact keeps_ite h (keeps_ite (keeps_setDie h le_rfl) (keeps_ite (keeps_writeRecord (hb _) _ _ _ fun _ => le_rfl)
      (keeps_writeRecord (hb _) _ _ _ fun _ => le_rfl)))
  · exact h

theorem keeps_execThermalLimit (h : Keeps s₀ s) (celsius) : KeepsOut s₀ (execThermalLimit celsius s) := by
  grind [execThermalLimit, keeps_setMgmt, keeps_forAll, keeps_requestStop, KeepsOut]

theorem keeps_execPowerReport (h : Keeps s₀ s) (watts celsius) : KeepsOut s₀ (execPowerReport watts celsius s) := by
  grind [execPowerReport, keeps_setMgmt, KeepsOut]

theorem keeps_execFirmwareUpload (h : Keeps s₀ s) (stages) : KeepsOut s₀ (execFirmwareUpload stages s) := by
  grind [execFirmwareUpload, keeps_setMgmt, KeepsOut]

/-! #### Management -/

theorem keeps_finishCommand (h : Keeps s₀ s) (word seq code) : Keeps s₀ (finishCommand s word seq code) := by
  unfold finishCommand
  split <;> grind [keeps_depart, keeps_bridgeWrite]

theorem keeps_acceptHead (h : Keeps s₀ s) : Keeps s₀ (acceptHead s) := h

theorem keeps_skipUnknown (h : Keeps s₀ s) (n) : Keeps s₀ (skipUnknown n s) := by
  induction n generalizing s with
  | zero => exact h
  | succ n ih =>
    unfold skipUnknown
    split
    · exact h
    · exact keeps_ite h (ih (keeps_finishCommand (keeps_acceptHead h) _ _ _))

theorem keeps_nextCommand (h : Keeps s₀ s) : Keeps s₀ (nextCommand s) := keeps_skipUnknown h ..

theorem keeps_endJob (h : Keeps s₀ s) (code) : Keeps s₀ (endJob s code) := by
  grind [endJob, keeps_nextCommand, keeps_finishCommand, keeps_setMgmt]

theorem keeps_command (h : Keeps s₀ s) (code ok) {body} (hb : ∀ t, Keeps s₀ t → KeepsEnd s₀ (body t)) : Keeps s₀ (command code ok body
    s) := by
  grind [command, keeps_nextCommand, keeps_finishCommand, keeps_acceptHead, keeps_setMgmt, keeps_forAll, keeps_sendProbes, KeepsEnd]

theorem keeps_readWord (h : Keeps s₀ s) (pa) {k} (hk : ∀ n t, Keeps s₀ t → KeepsEnd s₀ (k n t)) : KeepsEnd s₀ (readWord s pa k) := by
  grind [readWord, keeps_bridgeRead, KeepsEnd]

theorem keeps_execCmdprodWrite (h : Keeps s₀ s) (prod) : KeepsOut s₀ (execCmdprodWrite prod s) := by
  grind [execCmdprodWrite, keeps_nextCommand, keeps_setMgmt, KeepsOut]

theorem keeps_execBar0RegisterWrite (h : Keeps s₀ s) (off val) : KeepsOut s₀ (execBar0RegisterWrite off val s) := by
  grind [execBar0RegisterWrite, keeps_setMgmt, keeps_nextCommand, KeepsOut]

/-! #### Images -/

theorem Names.keeps_state (h : Keeps s₀ s) (n blk) : Keeps s₀ (Names.state n blk s) := Lawful.map_time h fun _ => le_rfl

theorem keeps_takeFails {t} (h : Keeps s₀ s) (blk) (e : takeFails s blk = some t) : Keeps s₀ t := by
  obtain ⟨p, -, hp⟩ := List.exists_of_findSome?_eq_some e
  split at hp
  · split at hp
    · cases hp
    · cases hp
      exact keeps_takeFaultAt (keeps_setGroup h _ _) _ _ _ _ _ _
  · cases hp

/-- The bytes of a block that leaves are dropped from memory (R288). -/
theorem keeps_takeImage (h : Keeps s₀ s) (blk b ident gen pad checkpoint) : Keeps s₀ (takeImage s blk b ident gen pad checkpoint).2 := by
  refine Names.keeps_state ?_ _ _
  exact ⟨fun w => wf_outsideRegions _ _ (h.1 w), h.2⟩

theorem keeps_restamp (h : Keeps s₀ s) (launch ident gen) : Keeps s₀ (restamp s launch ident gen) := h

theorem keeps_finishCheckpoint (h : Keeps s₀ s) : Keeps s₀ (finishCheckpoint s) := by
  grind [finishCheckpoint, keeps_foldl, keeps_endJob, keeps_mk, lawful_fields, keeps_agentWrite, keeps_setLaunch, keeps_logEvent]

theorem keeps_noteImage (h : Keeps s₀ s) (num) : Keeps s₀ (noteImage s num) := h

theorem keeps_joinCheckpoint (h : Keeps s₀ s) (num ident gen) : Keeps s₀ (joinCheckpoint s num ident gen) := by
  unfold joinCheckpoint
  split <;> grind [keeps_fresh, keeps_finishCheckpoint, keeps_noteImage, keeps_mk, lawful_fields]

theorem keeps_sealBlock (h : Keeps s₀ s) (blk b l k) : Keeps s₀ (sealBlock s blk b l k) := by
  unfold sealBlock
  split <;> grind [keeps_takeImage, keeps_restamp, keeps_setLaunch, keeps_joinCheckpoint, keeps_logEvent,
    keeps_finishCheckpoint, keeps_noteImage]

theorem keeps_execImageSeal (h : Keeps s₀ s) (blk) : KeepsOut s₀ (execImageSeal blk s) := by
  grind [execImageSeal, keeps_takeFails, keeps_sealBlock, KeepsOut]

theorem keeps_movePeer (h : Keeps s₀ s) (b core base) : Keeps s₀ (movePeer s b core base) := h

theorem keeps_resendLocks (h : Keeps s₀ s) (core gids) : Keeps s₀ (resendLocks s core gids) := keeps_forAll h fun _ _ ht => ht

theorem keeps_wakeParked (h : Keeps s₀ s) : Keeps s₀ (wakeParked s) := keeps_forAll h fun _ _ ht => keeps_wakeBarriers ht ..

/-- The bytes that an image brings back enter memory one by one (R294). -/
theorem keeps_returnBlock (h : Keeps s₀ s) (i b l core slot started) : Keeps s₀ (returnBlock s i b l core slot started) := by
  unfold returnBlock
  extract_lets base names back s1 s2 gids s3 groups s4 addr hold mine pin s5 s6 s7 s8 lines
  have h1 : Keeps s₀ s1 := by
    refine keeps_clearPad ?_ _ _ _
    exact h
  have h4 : Keeps s₀ s4 := by
    refine Names.keeps_state ?_ _ _
    exact keeps_forAll (keeps_movePeer h1 _ _ _) fun g t ht => keeps_retireSlot ht g
  have h5 : Keeps s₀ s5 := ⟨fun w => wf_fold addr i.bytes s4.mem (h4.1 w), h4.2⟩
  have h8 : Keeps s₀ s8 := keeps_resendLocks (keeps_forAll (keeps_setCore h5 _ _) fun g t ht => keeps_deliverLate ht g) _ _
  exact keeps_wakeParked (keeps_forAll h8 fun n t ht => keeps_serveChain ht n)

theorem keeps_startGang (h : Keeps s₀ s) (launch) : Keeps s₀ (startGang s launch) := by
  grind [startGang, keeps_mk, lawful_fields]

theorem keeps_execBlockResume (h : Keeps s₀ s) (blk core slot) : KeepsOut s₀ (execBlockResume blk core slot s) := by
  unfold execBlockResume
  split <;> grind [keeps_returnBlock, keeps_mk, lawful_fields, keeps_startGang, KeepsOut]

theorem keeps_execCheckpt (h : Keeps s₀ s) (launch area bytes) : KeepsOut s₀ (execCheckpt launch area bytes s) := by
  unfold execCheckpt
  split <;> grind [keeps_finishCheckpoint, keeps_command, keeps_forAll, keeps_requestStop, KeepsOut, KeepsEnd]

theorem keeps_returnAll {t} (h : Keeps s₀ s) (lid xs) (e : returnAll s lid xs = some t) : Keeps s₀ t := by
  induction xs generalizing s with
  | nil => cases e; exact h
  | cons x xs ih =>
    unfold returnAll at e
    split at e
    · cases e
    · extract_lets b ended u at e
      split at e
      · cases e
      · exact ih (keeps_returnBlock (keeps_setLaunch h _ _) _ _ _ _ _ _) e

theorem keeps_refuseResume (h : Keeps s₀ s) (launch) : KeepsEnd s₀ (refuseResume s launch) := by
  grind [refuseResume, keeps_setLaunch, KeepsEnd]

theorem keeps_execResume (h : Keeps s₀ s) (launch area cores) : KeepsOut s₀ (execResume launch area cores s) := by
  refine keeps_command h _ _ fun t ht => ?_
  split
  · exact ht
  · refine keepsEnd_ite trivial ?_
    split
    · exact keeps_refuseResume ht _
    · refine keepsEnd_ite (keeps_refuseResume ht _) (keepsEnd_ite trivial ?_)
      split
      · trivial
      · next e => exact keeps_setLaunch (keeps_returnAll ht _ _ e) _ _

/-! #### Host -/

theorem keeps_execQueue (h : Keeps s₀ s) (q ring log2 device prod cons) : KeepsOut s₀ (execQueue q ring log2 device prod cons s) := by
  grind [execQueue, keeps_command, keeps_readWord, keeps_mk, lawful_fields, KeepsOut, KeepsEnd]

theorem keeps_execSpace (h : Keeps s₀ s) (pasid s1 s2) : KeepsOut s₀ (execSpace pasid s1 s2 s) := keeps_command h _ _ fun _ ht => ht

theorem keeps_execInval (h : Keeps s₀ s) (pasid va log2) : KeepsOut s₀ (execInval pasid va log2 s) := keeps_command h _ _ fun _ ht => ht

theorem keeps_flushAllFaults (h : Keeps s₀ s) (n) : Keeps s₀ (flushAllFaults n s) := by
  induction n generalizing s with
  | zero => exact h
  | succ n ih => exact ih (keeps_flushFaults h)

theorem keeps_execFaultq (h : Keeps s₀ s) (ring log2 prod cons) : KeepsOut s₀ (execFaultq ring log2 prod cons s) := by
  grind [execFaultq, keeps_command, keeps_readWord, keeps_mk, lawful_fields, keeps_flushAllFaults, KeepsOut, KeepsEnd]

theorem keeps_execEvlog (h : Keeps s₀ s) (die ring log2 prod cons) : KeepsOut s₀ (execEvlog die ring log2 prod cons s) := by
  grind [execEvlog, keeps_command, keeps_readWord, keeps_setDie, KeepsOut, KeepsEnd]

theorem keeps_execSelftest (h : Keeps s₀ s) (ms) : KeepsOut s₀ (execSelftest ms s) := by
  grind [execSelftest, keeps_command, keeps_setMgmt, keeps_forAll, keeps_setBent, KeepsOut, KeepsEnd]

theorem keeps_execArm (h : Keeps s₀ s) (mask) : KeepsOut s₀ (execArm mask s) := by
  grind [execArm, keeps_command, keeps_forAll, keeps_setDie, KeepsOut, KeepsEnd]

theorem keeps_execPeer (h : Keeps s₀ s) (number aperture base size) : KeepsOut s₀ (execPeer number aperture base size s) :=
  keeps_command h _ _ fun _ ht => ht

theorem keeps_execAttest (h : Keeps s₀ s) (nonce report) : KeepsOut s₀ (execAttest nonce report s) := by
  refine keeps_command h _ _ fun t ht => ?_
  refine keepsEnd_ite trivial ?_
  have hb := keeps_bridgeRead ht 0 nonce.toNat 32 false
  split
  · next e =>
    refine .of_fst e (keeps_agentWrite ?_ _ _)
    exact hb
  · trivial

theorem keeps_answerGroup (h : Keeps s₀ s) (tag fail gid) : Keeps s₀ (answerGroup s tag fail gid) := by
  grind [answerGroup, keeps_setGroup, keeps_takeFaultAt]

theorem keeps_loseWord (h : Keeps s₀ s) (id k va) : Keeps s₀ (loseWord s id k va) := by
  grind [loseWord, keeps_setCmd, keeps_queueFailure, keeps_failCmd]

theorem keeps_answerCmd (h : Keeps s₀ s) (fail va id k) : Keeps s₀ (answerCmd s fail va id k) := by
  grind [answerCmd, keeps_setCmd, keeps_endCmd, keeps_loseWord, keeps_finishCopy, keeps_failCmd]

theorem keeps_answerColl (h : Keeps s₀ s) (fail id k) : Keeps s₀ (answerColl s fail id k) := by
  grind [answerColl, keeps_mk, lawful_fields, keeps_finishColl, keeps_logEvent, keeps_failColl, keeps_takeColl]

theorem keeps_execAnswer (h : Keeps s₀ s) (tag fail) : KeepsOut s₀ (execAnswer tag fail s) := by
  refine keeps_command h _ _ fun u hu => ?_
  extract_lets va t v1 v2 v3 v4 v5
  have h1 : Keeps s₀ v1 := hu
  have h2 : Keeps s₀ v2 := keeps_flushAllFaults h1 _
  have h3 : Keeps s₀ v3 := keeps_forAll h2 fun g t ht => keeps_answerGroup ht _ _ _
  have h4 : Keeps s₀ v4 := keeps_forAll h3 fun p t ht => keeps_answerCmd ht _ _ _ _
  exact keeps_forAll h4 fun p t ht => keeps_answerColl ht _ _ _

theorem keeps_releasePage (h : Keeps s₀ s) (page) : Keeps s₀ (releasePage s page) := h

theorem keeps_applyPage (h : Keeps s₀ s) (page) : Keeps s₀ (applyPage s page) := by
  grind [applyPage, keeps_forAll, keeps_applyHeld]

theorem keeps_execBiasToHost (h : Keeps s₀ s) (pa) : KeepsOut s₀ (execBiasToHost pa s) := by
  grind [execBiasToHost, keeps_applyPage, keeps_releasePage, keeps_endJob, keeps_mk, lawful_fields, keeps_command, KeepsOut, KeepsEnd]

theorem keeps_execBiasToDevice (h : Keeps s₀ s) (pa) : KeepsOut s₀ (execBiasToDevice pa s) := by
  grind [execBiasToDevice, keeps_command, keeps_mk, lawful_fields, KeepsOut, KeepsEnd]

theorem keeps_execExpreg (h : Keeps s₀ s) (pa) : KeepsOut s₀ (execExpreg pa s) := by
  grind [execExpreg, keeps_command, keeps_putField, keeps_setDie, KeepsOut, KeepsEnd]

theorem keeps_dropFetch (h : Keeps s₀ s) (f) : Keeps s₀ (dropFetch s f) := by
  grind [dropFetch, keeps_putField]

theorem keeps_dropQueued (h : Keeps s₀ s) (d header) : Keeps s₀ (dropQueued s d header) := by
  grind [dropQueued, keeps_forAll, keeps_dropFetch, keeps_setDie]

theorem keeps_execExpwd (h : Keeps s₀ s) (pa) : KeepsOut s₀ (execExpwd pa s) := by
  grind [execExpwd, keeps_setDie, keeps_endJob, keeps_dropQueued, keeps_forAll, keeps_sendProbes, keeps_command, KeepsOut, KeepsEnd]

theorem keeps_clearDie (h : Keeps s₀ s) (die) : Keeps s₀ (clearDie s die) := h

theorem keeps_applyDie (h : Keeps s₀ s) (die) : Keeps s₀ (applyDie s die) := by
  grind [applyDie, keeps_forAll, keeps_applyStore]

theorem keeps_execSleepEnter (h : Keeps s₀ s) (die) : KeepsOut s₀ (execSleepEnter die s) := by
  grind [execSleepEnter, keeps_command, keeps_free, keeps_applyDie, keeps_clearDie, keeps_setDie, KeepsOut, KeepsEnd]

/-- The largest time that any die has reached is not below a die's own. -/
theorem time_le_max (ds : Map Die) (d : Nat) : (ds.getD d Die.reset).time ≤ ds.foldl (fun n p => max n p.2.time) 0 := by
  have base (l : Map Die) (n : Nat) : n ≤ l.foldl (fun n p => max n p.2.time) n := by
    induction l generalizing n with
    | nil => exact le_rfl
    | cons p t ih => exact (le_max_left n _).trans (ih _)
  suffices H : ∀ n, (ds.getD d Die.reset).time ≤ ds.foldl (fun n p => max n p.2.time) n from H 0
  induction ds with
  | nil => exact fun n => Nat.zero_le n
  | cons p t ih =>
    intro n
    unfold Map.getD Map.get?
    split
    · exact (le_max_right n _).trans (base t _)
    · exact ih _

/-- A die that wakes takes the largest time that any die has reached (R19, R296). -/
theorem keeps_execSleepWake (h : Keeps s₀ s) (die) : KeepsOut s₀ (execSleepWake die s) :=
  keeps_command h _ _ fun t ht => keeps_ite ht (keeps_setDie ht (time_le_max t.dies die))

theorem keeps_outsideWrite (h : Keeps s₀ s) (pa bytes) : Keeps s₀ (outsideWrite s pa bytes) := keeps_depart h ..

theorem keeps_execHostCxlMemAccess (h : Keeps s₀ s) (write pa bytes) : KeepsOut s₀ (execHostCxlMemAccess write pa bytes s) := by
  grind [execHostCxlMemAccess, keeps_outsideWrite, keeps_putApplied, KeepsOut]

theorem keeps_execPeerAccessArrival (h : Keeps s₀ s) (write pa bytes) : KeepsOut s₀ (execPeerAccessArrival write pa bytes s) := by
  grind [execPeerAccessArrival, keeps_outsideWrite, KeepsOut]

theorem keeps_execLinkLevelRetry (h : Keeps s₀ s) (_link) : KeepsOut s₀ (execLinkLevelRetry _link s) := h

/-! #### LaneOps -/

theorem keeps_execShfl (h : Keeps s₀ s) (hd mode pair d a b imm) : KeepsOut s₀ (execShfl hd mode pair d a b imm s) :=
  keeps_runInstr h _ _ fun _ _ ht => ht

theorem keeps_writeAll (h : Keeps s₀ s) (c d n x) : Keeps s₀ (writeAll s c d n x) := by
  unfold writeAll
  split <;> grind [keeps_setDstLanes, keeps_setSreg]

theorem keeps_execVote (h : Keeps s₀ s) (hd mode d a) : KeepsOut s₀ (execVote hd mode d a s) :=
  keeps_runInstr h _ _ fun _ _ ht => keeps_writeAll ht ..

theorem keeps_execRedux (h : Keeps s₀ s) (hd op f d a) : KeepsOut s₀ (execRedux hd op f d a s) := by
  grind [execRedux, keeps_runInstr, keeps_orFlags, keeps_writeAll, keeps_setGenerator, KeepsOut, KeepsRes]

theorem keeps_execMatchLanes (h : Keeps s₀ s) (hd pair d a) : KeepsOut s₀ (execMatchLanes hd pair d a s) :=
  keeps_runInstr h _ _ fun _ _ ht => ht

theorem keeps_execPrmt (h : Keeps s₀ s) (hd d a b c3 imm) : KeepsOut s₀ (execPrmt hd d a b c3 imm s) := by
  grind [execPrmt, keeps_runInstr, keeps_setDstLanes, keeps_foldl, KeepsOut, KeepsRes]

/-! #### Dispatch -/

/-- Every instruction, event and command but a power-on reset. -/
theorem keeps_exec (h : Keeps s₀ s) : ∀ i : Instr, (∀ fs, i ≠ .powerOnReset fs) → KeepsOut s₀ (exec i s)
  | .nop .., _ => keeps_execNop h ..
  | .bra .., _ => keeps_execBra h ..
  | .brx .., _ => keeps_execBrx h ..
  | .call .., _ => keeps_execCall h ..
  | .callx .., _ => keeps_execCallx h ..
  | .ret .., _ => keeps_execRet h ..
  | .exit .., _ => keeps_execExit h ..
  | .trap .., _ => keeps_execTrap h ..
  | .msave .., _ => keeps_execMsave h ..
  | .mand .., _ => keeps_execMand h ..
  | .mor .., _ => keeps_execMor h ..
  | .mrest .., _ => keeps_execMrest h ..
  | .regroup .., _ => keeps_execRegroup h ..
  | .launch .., _ => keeps_execLaunch h ..
  | .launchLane .., _ => keeps_execLaunchLane h ..
  | .iadd .., _ => keeps_execIadd h ..
  | .isub .., _ => keeps_execIsub h ..
  | .imul .., _ => keeps_execImul h ..
  | .imulh .., _ => keeps_execImulh h ..
  | .imad .., _ => keeps_execImad h ..
  | .imin .., _ => keeps_execImin h ..
  | .imax .., _ => keeps_execImax h ..
  | .iabs .., _ => keeps_execIabs h ..
  | .and .., _ => keeps_execAnd h ..
  | .or .., _ => keeps_execOr h ..
  | .xor .., _ => keeps_execXor h ..
  | .andn .., _ => keeps_execAndn h ..
  | .shl .., _ => keeps_execShl h ..
  | .shr .., _ => keeps_execShr h ..
  | .sar .., _ => keeps_execSar h ..
  | .rotl .., _ => keeps_execRotl h ..
  | .bfx .., _ => keeps_execBfx h ..
  | .bfi .., _ => keeps_execBfi h ..
  | .popc .., _ => keeps_execPopc h ..
  | .clz .., _ => keeps_execClz h ..
  | .brev .., _ => keeps_execBrev h ..
  | .sel .., _ => keeps_execSel h ..
  | .mov .., _ => keeps_execMov h ..
  | .lea .., _ => keeps_execLea h ..
  | .icmp .., _ => keeps_execIcmp h ..
  | .fadd .., _ => keeps_execFadd h ..
  | .fsub .., _ => keeps_execFsub h ..
  | .fmul .., _ => keeps_execFmul h ..
  | .ffma .., _ => keeps_execFfma h ..
  | .fmin .., _ => keeps_execFmin h ..
  | .fmax .., _ => keeps_execFmax h ..
  | .fcmp .., _ => keeps_execFcmp h ..
  | .frcp .., _ => keeps_execFrcp h ..
  | .frsq .., _ => keeps_execFrsq h ..
  | .fsqrt .., _ => keeps_execFsqrt h ..
  | .fex2 .., _ => keeps_execFex2 h ..
  | .flg2 .., _ => keeps_execFlg2 h ..
  | .fsin .., _ => keeps_execFsin h ..
  | .fcos .., _ => keeps_execFcos h ..
  | .fcvt .., _ => keeps_execFcvt h ..
  | .fcls .., _ => keeps_execFcls h ..
  | .frnd .., _ => keeps_execFrnd h ..
  | .fscl .., _ => keeps_execFscl h ..
  | .shfl .., _ => keeps_execShfl h ..
  | .vote .., _ => keeps_execVote h ..
  | .redux .., _ => keeps_execRedux h ..
  | .matchLanes .., _ => keeps_execMatchLanes h ..
  | .prmt .., _ => keeps_execPrmt h ..
  | .ldg .., _ => keeps_execLdg h ..
  | .stg .., _ => keeps_execStg h ..
  | .lds .., _ => keeps_execLds h ..
  | .sts .., _ => keeps_execSts h ..
  | .ldw .., _ => keeps_execLdw h ..
  | .stw .., _ => keeps_execStw h ..
  | .ldc .., _ => keeps_execLdc h ..
  | .pref .., _ => keeps_execPref h ..
  | .fence .., _ => keeps_execFence h ..
  | .cflush .., _ => keeps_execCflush h ..
  | .atom .., _ => keeps_execAtom h ..
  | .acas .., _ => keeps_execAcas h ..
  | .red .., _ => keeps_execRed h ..
  | .rdlk .., _ => keeps_execRdlk h ..
  | .rdul .., _ => keeps_execRdul h ..
  | .wrlk .., _ => keeps_execWrlk h ..
  | .wrul .., _ => keeps_execWrul h ..
  | .barw .., _ => keeps_execBarw h ..
  | .barwWait .., _ => keeps_execBarwWait h ..
  | .bara .., _ => keeps_execBara h ..
  | .barx .., _ => keeps_execBarx h ..
  | .lock .., _ => keeps_execLock h ..
  | .lockt .., _ => keeps_execLockt h ..
  | .unlock .., _ => keeps_execUnlock h ..
  | .cpy .., _ => keeps_execCpy h ..
  | .cpyg .., _ => keeps_execCpyg h ..
  | .cpyw .., _ => keeps_execCpyw h ..
  | .gres .., _ => keeps_execGres h ..
  | .gresFree .., _ => keeps_execGresFree h ..
  | .sbwait .., _ => keeps_execSbwait h ..
  | .sbwaitAll .., _ => keeps_execSbwaitAll h ..
  | .cdone .., _ => keeps_execCdone h ..
  | .mxlw .., _ => keeps_execMxlw h ..
  | .mxswap .., _ => keeps_execMxswap h ..
  | .mxloop .., _ => keeps_execMxloop h ..
  | .mxdrain .., _ => keeps_execMxdrain h ..
  | .mxzero .., _ => keeps_execMxzero h ..
  | .xfetch .., _ => keeps_execXfetch h ..
  | .xcnt .., _ => keeps_execXcnt h ..
  | .xpin .., _ => keeps_execXpin h ..
  | .xunpin .., _ => keeps_execXunpin h ..
  | .xstat .., _ => keeps_execXstat h ..
  | .coll .., _ => keeps_execColl h ..
  | .ensure .., _ => keeps_execEnsure h ..
  | .elseby .., _ => keeps_execElseby h ..
  | .elseerr .., _ => keeps_execElseerr h ..
  | .accept .., _ => keeps_execAccept h ..
  | .reject .., _ => keeps_execReject h ..
  | .conv .., _ => keeps_execConv h ..
  | .convx .., _ => keeps_execConvx h ..
  | .spawn .., _ => keeps_execSpawn h ..
  | .tend .., _ => keeps_execTend h ..
  | .tabort .., _ => keeps_execTabort h ..
  | .csrr .., _ => keeps_execCsrr h ..
  | .csrwWr .., _ => keeps_execCsrwWr h ..
  | .csrwSet .., _ => keeps_execCsrwSet h ..
  | .csrwClr .., _ => keeps_execCsrwClr h ..
  | .npe .., _ => keeps_execNpe h ..
  | .pen .., _ => keeps_execPen h ..
  | .snap .., _ => keeps_execSnap h ..
  | .tret .., _ => keeps_execTret h ..
  | .halt .., _ => keeps_execHalt h ..
  | .loadCompletion .., _ => keeps_execLoadCompletion h ..
  | .splitStarvationGuard .., _ => keeps_execSplitStarvationGuard h ..
  | .formerFlush .., _ => keeps_execFormerFlush h ..
  | .formedGroupPlace .., _ => keeps_execFormedGroupPlace h ..
  | .groupEnd .., _ => keeps_execGroupEnd h ..
  | .blockEnd .., _ => keeps_execBlockEnd h ..
  | .dispatchDecision .., _ => keeps_execDispatchDecision h ..
  | .launchPromotion .., _ => keeps_execLaunchPromotion h ..
  | .clusterStartRelease .., _ => keeps_execClusterStartRelease h ..
  | .launchQueueRead .., _ => keeps_execLaunchQueueRead h ..
  | .launchCompletion .., _ => keeps_execLaunchCompletion h ..
  | .queueEntryAck .., _ => keeps_execQueueEntryAck h ..
  | .queueNackResend .., _ => keeps_execQueueNackResend h ..
  | .satisfy .., _ => keeps_execSatisfy h ..
  | .drain .., _ => keeps_execDrain h ..
  | .apply .., _ => keeps_execApply h ..
  | .cross .., _ => keeps_execCross h ..
  | .leaseExpiry .., _ => keeps_execLeaseExpiry h ..
  | .atomicLeaseHoldEnd .., _ => keeps_execAtomicLeaseHoldEnd h ..
  | .class5RequestApply .., _ => keeps_execClass5RequestApply h ..
  | .probeReceive .., _ => keeps_execProbeReceive h ..
  | .probeAck .., _ => keeps_execProbeAck h ..
  | .proxyGrantReceive .., _ => keeps_execProxyGrantReceive h ..
  | .hostSnoop .., _ => keeps_execHostSnoop h ..
  | .linePoison .., _ => keeps_execLinePoison h ..
  | .engineCommandAccept .., _ => keeps_execEngineCommandAccept h ..
  | .copySegment .., _ => keeps_execCopySegment h ..
  | .copyFailure .., _ => keeps_execCopyFailure h ..
  | .barrierCredit .., _ => keeps_execBarrierCredit h ..
  | .rangeRetire .., _ => keeps_execRangeRetire h ..
  | .completionWordWrite .., _ => keeps_execCompletionWordWrite h ..
  | .cdoneComplete .., _ => keeps_execCdoneComplete h ..
  | .engineFailureDelivery .., _ => keeps_execEngineFailureDelivery h ..
  | .mxlwFill .., _ => keeps_execMxlwFill h ..
  | .mxlwFillEnd .., _ => keeps_execMxlwFillEnd h ..
  | .mxswapExchange .., _ => keeps_execMxswapExchange h ..
  | .kStep .., _ => keeps_execKStep h ..
  | .checksumVerdict .., _ => keeps_execChecksumVerdict h ..
  | .mxdrainExecute .., _ => keeps_execMxdrainExecute h ..
  | .mxzeroExecute .., _ => keeps_execMxzeroExecute h ..
  | .collAccept .., _ => keeps_execCollAccept h ..
  | .collStepAck .., _ => keeps_execCollStepAck h ..
  | .collContributionArrival .., _ => keeps_execCollContributionArrival h ..
  | .collStepTimeout .., _ => keeps_execCollStepTimeout h ..
  | .collComplete .., _ => keeps_execCollComplete h ..
  | .xcntApply .., _ => keeps_execXcntApply h ..
  | .fetchQueueServe .., _ => keeps_execFetchQueueServe h ..
  | .expertFetchComplete .., _ => keeps_execExpertFetchComplete h ..
  | .expertFetchFail .., _ => keeps_execExpertFetchFail h ..
  | .preemption .., _ => keeps_execPreemption h ..
  | .imageSeal .., _ => keeps_execImageSeal h ..
  | .npeWatchdogExpiry .., _ => keeps_execNpeWatchdogExpiry h ..
  | .selftestDue .., _ => keeps_execSelftestDue h ..
  | .selftestComplete .., _ => keeps_execSelftestComplete h ..
  | .eventRecordWrite .., _ => keeps_execEventRecordWrite h ..
  | .externalTrigger, _ => keeps_execExternalTrigger h
  | .snapshotLatch .., _ => keeps_execSnapshotLatch h ..
  | .thermalLimit .., _ => keeps_execThermalLimit h ..
  | .powerReport .., _ => keeps_execPowerReport h ..
  | .powerOnReset fs, hi => absurd rfl (hi fs)
  | .firmwareUpload .., _ => keeps_execFirmwareUpload h ..
  | .rollbackRestore .., _ => keeps_execRollbackRestore h ..
  | .levelClockLimit .., _ => keeps_execLevelClockLimit h ..
  | .acceptCommit .., _ => keeps_execAcceptCommit h ..
  | .conversationJoin .., _ => keeps_execConversationJoin h ..
  | .conversationAccept .., _ => keeps_execConversationAccept h ..
  | .shadowCompareTimeout .., _ => keeps_execShadowCompareTimeout h ..
  | .taskRecordAccept .., _ => keeps_execTaskRecordAccept h ..
  | .taskBatchDispatch .., _ => keeps_execTaskBatchDispatch h ..
  | .taskGroupForm .., _ => keeps_execTaskGroupForm h ..
  | .frontierRound, _ => keeps_execFrontierRound h
  | .frontierReceive .., _ => keeps_execFrontierReceive h ..
  | .lockRequestArrival .., _ => keeps_execLockRequestArrival h ..
  | .lockGrant .., _ => keeps_execLockGrant h ..
  | .lockHandover .., _ => keeps_execLockHandover h ..
  | .lockTimeout .., _ => keeps_execLockTimeout h ..
  | .lockReservationExpiry .., _ => keeps_execLockReservationExpiry h ..
  | .kneeBraceScan, _ => keeps_execKneeBraceScan h
  | .cmdprodWrite .., _ => keeps_execCmdprodWrite h ..
  | .bar0RegisterWrite .., _ => keeps_execBar0RegisterWrite h ..
  | .queue .., _ => keeps_execQueue h ..
  | .space .., _ => keeps_execSpace h ..
  | .inval .., _ => keeps_execInval h ..
  | .faultq .., _ => keeps_execFaultq h ..
  | .answer .., _ => keeps_execAnswer h ..
  | .biasToHost .., _ => keeps_execBiasToHost h ..
  | .biasToDevice .., _ => keeps_execBiasToDevice h ..
  | .expreg .., _ => keeps_execExpreg h ..
  | .expwd .., _ => keeps_execExpwd h ..
  | .evlog .., _ => keeps_execEvlog h ..
  | .checkpt .., _ => keeps_execCheckpt h ..
  | .resume .., _ => keeps_execResume h ..
  | .sleepEnter .., _ => keeps_execSleepEnter h ..
  | .sleepWake .., _ => keeps_execSleepWake h ..
  | .selftest .., _ => keeps_execSelftest h ..
  | .arm .., _ => keeps_execArm h ..
  | .peer .., _ => keeps_execPeer h ..
  | .attest .., _ => keeps_execAttest h ..
  | .hostCxlMemAccess .., _ => keeps_execHostCxlMemAccess h ..
  | .peerAccessArrival .., _ => keeps_execPeerAccessArrival h ..
  | .blockResume .., _ => keeps_execBlockResume h ..
  | .linkLevelRetry link, _ => keeps_execLinkLevelRetry h link

/-! ### The turn of a scheduler, and the step -/

/-- A decoded instruction is a row that has fields, so no machine step. -/
theorem Decode.raw?_of_decode {ws i} (e : Decode.decode ws = .ok i) : ∃ r, Decode.raw? i = some r := by
  unfold Decode.decode Decode.decodeRaw at e
  dsimp only at e
  split at e
  · cases e
  · split at e
    · cases e
    · split at e
      · next j _ hc =>
        obtain rfl : j = i := by simpa using e
        simp only [Bool.and_eq_true, beq_iff_eq] at hc
        exact ⟨_, hc.1.2⟩
      · cases e

/-- The instruction that a fetch finds has been decoded from words. -/
theorem raw?_of_fetchDecode {die l pc i t} (e : fetchDecode s die l pc = (.instr i, t)) : ∃ r, Decode.raw? i = some r := by
  have finish {ws : List (BitVec 32)} {u : State} (e : (match Decode.decode ws with
      | .ok i => (Next.instr i, u)
      | .illegal => (.illegal (evalOf ws), u)
      | .reserved => (.reserved (evalOf ws), u)) = (.instr i, t)) : ∃ r, Decode.raw? i = some r := by
    split at e
    · next hd =>
      obtain rfl := Next.instr.inj (congrArg Prod.fst e)
      exact Decode.raw?_of_decode hd
    · cases e
    · cases e
  unfold fetchDecode at e
  dsimp only at e
  split at e
  · cases e
  · cases e
  · cases e
  · split at e
    · split at e
      · cases e
      · cases e
      · cases e
      · exact finish e
    · exact finish e

/-- What a turn runs has been decoded from words: it is no power-on reset. -/
theorem fetchTurn_ne_reset {i u} (e : fetchTurn s = .run i u) (fs) : i ≠ .powerOnReset fs := by
  rintro rfl
  unfold fetchTurn at e
  split at e
  · cases e
  · split at e
    · cases e
    · cases e
    · split at e
      · next hf =>
        obtain ⟨rfl, -⟩ := Chosen.run.inj e
        obtain ⟨r, hr⟩ := raw?_of_fetchDecode hf
        cases hr
      all_goals cases e

theorem keeps_issueTurn (h : Keeps s₀ s) (core sched order) : KeepsOut s₀ (issueTurn s core sched order) := by
  induction order generalizing s with
  | nil => exact h
  | cons x rest ih =>
    obtain ⟨gid, si⟩ := x
    have hc : KeepsChosen s₀ (fetchTurn (turnTo s core sched gid si)) := keeps_fetchTurn (keeps_turnTo h core sched gid si)
    have next (before u) (hu : Keeps s₀ u) :
        KeepsOut s₀ (if waitsStill gid before u then issueTurn (notReady s u core gid si) core sched rest else .next u) := by
      split
      · exact ih (keeps_notReady hu s core gid si)
      · exact hu
    unfold issueTurn
    cases ef : fetchTurn (turnTo s core sched gid si) with
    | idle u =>
      rw [ef] at hc
      simpa only [ef] using next _ u hc
    | run i u =>
      rw [ef] at hc
      have hr := keeps_exec hc i (fetchTurn_ne_reset ef)
      cases er : exec i u with
      | next v =>
        rw [er] at hr
        simpa only [ef, er] using next u v hr
      | fault _ => simp only [ef, er, KeepsOut]
      | refused _ => simp only [ef, er, KeepsOut]

/-- Every step but a power-on reset. -/
theorem keeps_step (hp : ∀ fs rest, s.agenda ≠ .event (.powerOnReset fs) :: rest) : KeepsOut s (step s) := by
  have hn (rest : List Turn) : Keeps s { s with agenda := rest } := .refl s
  unfold step
  split
  · exact keeps_tick (.refl s)
  · exact keeps_tick (hn _)
  · split
    · trivial
    · dsimp only
      split
      · exact keeps_issueTurn (hn _) _ _ _
      · exact hn _
  · next i rest ha =>
    split
    · trivial
    · split
      · trivial
      · exact keeps_exec (hn rest) i fun fs hi => hp fs rest (hi ▸ ha)

/-- A power-on reset leaves no byte of memory listed. -/
theorem mem_of_powerOnReset {fs rest t} (ha : s.agenda = .event (.powerOnReset fs) :: rest) (e : step s = .next t) : t.mem = [] := by
  unfold step at e
  rw [ha] at e
  dsimp only at e
  split at e
  · cases e
  · split at e
    · cases e
    · obtain rfl := Host.Outcome.next.inj e
      rfl

theorem keeps_of_step {t} (hp : ∀ fs rest, s.agenda ≠ .event (.powerOnReset fs) :: rest) (e : step s = .next t) : Keeps s t := by
  have h := keeps_step hp
  rwa [e] at h

end Sys2Proof.Machine

namespace Sys2Proof.Claims
open Sys2Proof.Machine

/-- Settles O58: a power-on reset empties memory, and every other step keeps its canonical form. -/
theorem safeKept : Obligations.SafeKept := by
  intro s t hs e
  by_cases hp : ∃ fs rest, s.agenda = .event (.powerOnReset fs) :: rest
  · obtain ⟨fs, rest, ha⟩ := hp
    show Memory.wf t.mem = true
    rw [mem_of_powerOnReset ha e]
    rfl
  · push Not at hp
    obtain ⟨hm, -⟩ := keeps_of_step hp e
    exact hm hs

/-- Settles O59: every step but a power-on reset leaves no die an earlier time. -/
theorem fabricTimeForward : Obligations.FabricTimeForward := by
  intro s t d hp e
  obtain ⟨-, ht⟩ := keeps_of_step hp e
  exact ht d
end Sys2Proof.Claims
end

/-! ## A scheduler's turn runs the decoded instruction -/

section
namespace Sys2Proof.Claims

open Sys2Proof.Machine

/-- The words at a PC, decoded to an instruction, are what fetching and decoding give (R54). -/
theorem fetchDecode_of_wordsAt {u v : State} {die : Nat} {l : Launch} {pc : CodeAddr} {ws : List (BitVec 32)} {i : Instr}
    (h : wordsAt u die l pc ws v) (hd : Decode.decode ws = .ok i) : fetchDecode u die l pc = (.instr i, v) := by
  obtain ⟨w0, w1, w2, v0, hw, hp⟩ := h
  simp only [fetchDecode, hw, List.getD_cons_zero, List.getD_cons_succ]
  split at hp
  · next hpar =>
    obtain ⟨ps, hps, rfl⟩ := hp
    simp only [hpar, if_true, hps, hd]
  · next hpar =>
    obtain ⟨rfl, rfl⟩ := hp
    simp only [hpar, hd]
    rfl

/-- A split whose words decode, with nothing to take before its next instruction, runs that instruction (R54). -/
theorem fetchTurn_run {u v : State} {c : Ctx} {i : Instr} (hc : ctxOf ⟨false, 7, 0, false⟩ u = some c) (hb : beforeNext u c = none)
    (hf : primaryFault u c = none) (hd : fetchDecode u (dieOfGroup c.gid) c.launch c.pc = (.instr i, v)) : fetchTurn u = .run i v := by
  simp only [fetchTurn, hc, hb, hf, hd]

/-- A scheduler's turn at a split that runs an instruction: the instruction's outcome, unless its group is as it was (R43). -/
theorem issueTurn_run {s v : State} {core sched gid si : Nat} {rest : List (Nat × Nat)} {i : Instr}
    (h : fetchTurn (turnTo s core sched gid si) = .run i v) :
    issueTurn s core sched ((gid, si) :: rest)
      = match exec i v with
        | .next u => if waitsStill gid v u then issueTurn (notReady s u core gid si) core sched rest else .next u
        | o => o := by
  rw [issueTurn, h] <;> rfl

theorem step_issue {s : State} {core sched : Nat} {rest : List Turn} (ha : s.agenda = .issue core sched :: rest) (hc : core < 256)
    (hs : sched < 4) (hi : coreIssues { s with agenda := rest } core sched = true) :
    step s = issueTurn { s with agenda := rest } core sched (issueOrder { s with agenda := rest } core sched) := by
  simp only [step, ha, hi, if_true]
  rw [if_neg (by omega)]

theorem waitsStill_iff {gid : Nat} {s t : State} : waitsStill gid s t = true ↔ t.groups.get? gid = s.groups.get? gid := by
  rw [waitsStill, beq_iff_eq, eq_comm]

/-- Settles O56: the picked split is the first of the scheduler's order, and its turn comes to the decoded instruction. -/
theorem stepRunsDecoded : Obligations.StepRunsDecoded := by
  intro s v core sched gid si rest c ws i ha hcore hsched hiss hpick hctx hbefore hfault hwords hdec
  have hgid : c.gid = gid := congrArg Prod.fst (ctxOf_some hctx).2.2.2.2.1.symm
  have hrun : fetchTurn (turnTo { s with agenda := rest } core sched gid si) = .run i v :=
    fetchTurn_run hctx hbefore hfault (by rw [hgid]; exact fetchDecode_of_wordsAt hwords hdec)
  obtain ⟨tail, horder⟩ : ∃ tail, issueOrder { s with agenda := rest } core sched = (gid, si) :: tail := List.head?_eq_some_iff.mp hpick
  have hstep := step_issue ha hcore hsched hiss
  rw [horder, issueTurn_run hrun] at hstep
  rw [hstep, horder]
  refine ⟨fun hmoves => ?_, fun u hu hsame => ?_⟩
  · cases hx : exec i v with
    | next u => simp only [waitsStill_iff, if_neg (hmoves u hx)]
    | fault | refused => rfl
  · simp only [hu, waitsStill_iff, if_pos hsame, List.tail_cons]

end Sys2Proof.Claims
end

/-! ## Compares write their masks -/

section
namespace Sys2Proof.Claims

open Sys2Proof.Machine

/-! ### Sets of lanes -/

theorem getLsbD_laneBit (k : Nat) {l : Nat} (hl : l < 32) : (laneBit k).getLsbD l = decide (l = k) := by
  simp only [laneBit, BitVec.getLsbD_shiftLeft, hl, decide_true, Bool.true_and]
  by_cases h : l = k
  · subst h; simp
  · by_cases hlt : l < k
    · simp [h, hlt]
    · simp [h]; omega

theorem getLsbD_foldl_laneBit (ls : List Nat) (m : LaneMask) {l : Nat} (hl : l < 32) :
    (ls.foldl (fun m l => m ||| laneBit l) m).getLsbD l = (m.getLsbD l || decide (l ∈ ls)) := by
  induction ls generalizing m with
  | nil => simp
  | cons k t ih =>
    rw [List.foldl_cons, ih, BitVec.getLsbD_or, getLsbD_laneBit k hl]
    simp [Bool.or_assoc]

theorem getLsbD_ofLanes (ls : List Nat) {l : Nat} (hl : l < 32) : (ofLanes ls).getLsbD l = decide (l ∈ ls) := by
  rw [ofLanes, getLsbD_foldl_laneBit ls 0 hl]
  simp

theorem getLsbD_lanesWhere (m : LaneMask) (p : Nat → Bool) {l : Nat} (hl : l < 32) : (lanesWhere m p).getLsbD l = (m.getLsbD l && p l) := by
  rw [lanesWhere, getLsbD_ofLanes _ hl, Bool.eq_iff_iff]
  simp [List.mem_filter, mem_lanesOf, hl]

theorem getLsbD_mergeLanes (m old new : LaneMask) {l : Nat} (hl : l < 32) :
    (mergeLanes m old new).getLsbD l = if m.getLsbD l then new.getLsbD l else old.getLsbD l := by
  simp only [mergeLanes, BitVec.getLsbD_or, BitVec.getLsbD_and, BitVec.getLsbD_not, hl, decide_true, Bool.true_and]
  cases m.getLsbD l <;> simp

/-! ### What a compare finds and leaves -/

/-- Sampling changes groups only (R332). -/
theorem sampleSpecials_eq (s : State) (c : Ctx) : ∃ G, sampleSpecials s c = { s with groups := G } := by
  unfold sampleSpecials
  split
  · exact ⟨_, rfl⟩
  · exact ⟨s.groups, rfl⟩

/-- An instruction that writes no vector register shores none (R317). -/
theorem entered_of_mask {i : Instr} {s : State} {c : Ctx} {m : BitVec 3} (h : shoredAtIssue c i = refsMask m) :
    entered i s c = sampleSpecials s c := by
  rw [entered, h]
  unfold refsMask
  split <;> rfl

/-- The lanes in which a compare holds, as it writes them (R131). -/
def compareLanes (c : Ctx) (vec : Bool) (f : (Nat ⊕ Unit) → Bool) : LaneMask :=
  if vec then lanesWhere c.act (fun l => f (.inl l)) else if f (.inr ()) then c.act else 0

theorem compareMask_eq (s : State) (c : Ctx) (m : BitVec 3) (vec : Bool) (f : (Nat ⊕ Unit) → Bool) :
    compareMask s c m vec f = setMask s c.gid m.toNat c.act (compareLanes c vec f) := rfl

theorem getLsbD_compareLanes {c : Ctx} {vec : Bool} {f : (Nat ⊕ Unit) → Bool} {l : Nat} (hl : l < 32) (ha : c.act.getLsbD l = true) :
    (compareLanes c vec f).getLsbD l = f (if vec then .inl l else .inr ()) := by
  unfold compareLanes
  cases vec with
  | true => simp [getLsbD_lanesWhere _ _ hl, ha]
  | false => cases h : f (.inr ()) <;> simp [h, ha]

/-- A mask merged in the acting lanes is a compare's mask (R44, R131). -/
theorem maskWritten_of_merge {s t : State} {c : Ctx} {m : BitVec 3} {vec : Bool} {f : (Nat ⊕ Unit) → Bool} {old : LaneMask}
    (hs : maskIn s c.gid m.toNat = some old)
    (ht : m ≠ 7 → maskIn t c.gid m.toNat = some (mergeLanes c.act old (compareLanes c vec f))) : maskWritten s t c m vec f = true := by
  unfold maskWritten
  rw [Bool.or_eq_true, beq_iff_eq, or_iff_not_imp_left]
  intro hm
  rw [List.all_eq_true]
  intro l hl
  have hl32 := (mem_allLanes l).mp hl
  rw [ht hm, hs, beq_iff_eq, Option.map_some, getLsbD_mergeLanes _ _ _ hl32, Option.map_some]
  split
  · next ha => rw [getLsbD_compareLanes hl32 ha]
  · rfl

/-- The group after a compare and its flags: its splits, its other masks and its flags but for those added are as they were. -/
theorem compareMask_group {s : State} {c : Ctx} {m : BitVec 3} {vec : Bool} {f : (Nat ⊕ Unit) → Bool} {g : Group}
    (hg : s.groups.get? c.gid = some g) :
    ∃ h, (compareMask s c m vec f).groups.get? c.gid = some h ∧ h.splits = g.splits ∧ h.fflags = g.fflags
      ∧ (m ≠ 7 → h.mask m.toNat = mergeLanes c.act (g.mask m.toNat) (compareLanes c vec f)) := by
  rw [compareMask_eq]
  unfold setMask
  split
  · next h7 => exact ⟨g, hg, rfl, rfl, fun hm => absurd (BitVec.eq_of_toNat_eq h7) hm⟩
  · next h7 =>
    rw [State.setGroup_groups, Map.get?_modify_self, hg]
    exact ⟨_, rfl, rfl, rfl, fun _ => by simp [Group.mask, h7]⟩

/-- A ready compare: the mask is written, the flags are added, and the split has gone on (R44, R66, R85). -/
theorem compare_result {i : Instr} {s : State} {c : Ctx} (e : readyCtx i s = some c) {body : Ctx → State → Res} {m : BitVec 3} {vec : Bool}
    {f : (Nat ⊕ Unit) → Bool} {fl : Flags}
    (hb : body c (entered i s c) = .done (orFlags (compareMask (entered i s c) c m vec f) c.gid fl)) :
    let t := runInstr i (actsAlways i) body s
    maskWritten s t c m vec f = true ∧ fflagsIn t c.gid = some (c.g.fflags ||| fl) ∧ wentOn i c t = true := by
  obtain ⟨hg, hsp, hpc⟩ := entered_group e
  have hs : s.groups.get? c.gid = some c.g := by rw [← entered_self i s c]; exact hg
  obtain ⟨h, hh, hsplits, hflags, hmask⟩ := compareMask_group (m := m) (vec := vec) (f := f) hg
  have hu : (orFlags (compareMask (entered i s c) c m vec f) c.gid fl).groups.get? c.gid = some { h with fflags := h.fflags ||| fl } := by
    simp [orFlags, hh]
  intro t
  have ht : t = _ := runInstr_done e hb
  rw [ht]
  refine ⟨maskWritten_of_merge (old := c.g.mask m.toNat) (by simp [maskIn, hs]) fun hm => ?_, ?_, done_wentOn _ _ _ ?_ hpc⟩
  · rw [done_mask, maskIn, hu, Option.map_some, ← hmask hm]
    rfl
  · rw [done_fflags, fflagsIn, hu, Option.map_some, hflags]
  · rw [splitIn, hu, Option.bind_some, hsplits]
    exact hsp

/-- Adding no flag changes nothing. -/
theorem orFlags_zero (s : State) (gid : Nat) : orFlags s gid 0 = s := by
  have hid : ∀ m : Map Group, Map.modify m gid (fun g => { g with fflags := g.fflags ||| 0 }) = m := fun m => by
    simp [Map.modify]
  rw [orFlags, State.setGroup, hid]

/-! ### Conditions -/

/-- An element as an unsigned or a signed integer (R131). -/
def asInt {w : Nat} (uns : Bool) (a : BitVec w) : Int := if uns then a.toNat else a.toInt

theorem asInt_inj {w : Nat} {uns : Bool} {a b : BitVec w} : asInt uns a = asInt uns b ↔ a = b := by
  cases uns with
  | true => simp [asInt, BitVec.toNat_inj]
  | false => simp [asInt, BitVec.toInt_inj]

theorem asInt_lt {w : Nat} {uns : Bool} {a b : BitVec w} : (if uns then a.ult b else a.slt b) = decide (asInt uns a < asInt uns b) := by
  cases uns <;> simp [asInt, BitVec.ult, BitVec.slt]

theorem toSigned_mod (x w : Nat) : toSigned (x % 2 ^ w) w = (BitVec.ofNat w x).toInt := by
  simp [toSigned, BitVec.toInt_eq_toNat_cond]

theorem asInt_ofNat (w : Nat) (uns : Bool) (x : Nat) :
    (if uns then ((x % 2 ^ w : Nat) : Int) else toSigned (x % 2 ^ w) w) = asInt uns (BitVec.ofNat w x) := by
  simp [asInt, toSigned_mod]

/-- ICMP's condition compares the elements as bit vectors (R131). -/
theorem icond_eq {w : Nat} (uns : Bool) (k : ICond) (x y : Nat) :
    icond w uns k (x % 2 ^ w) (y % 2 ^ w) = holdsR131 uns k (BitVec.ofNat w x) (BitVec.ofNat w y) := by
  simp only [icond, holdsR131, asInt_ofNat, asInt_lt]
  generalize BitVec.ofNat w x = a
  generalize BitVec.ofNat w y = b
  have heq : (a == b) = decide (asInt uns a = asInt uns b) := by rw [beq_eq_decide, decide_eq_decide, asInt_inj]
  simp only [bne, heq, beq_eq_decide]
  cases k with
  | eq | ne | lt => rfl
  | le | gt | ge =>
    rw [Bool.eq_iff_iff]
    simp only [Bool.or_eq_true, Bool.not_eq_true', Bool.or_eq_false_iff, decide_eq_true_eq, decide_eq_false_iff_not]
    omega

/-! ### The instructions -/

/-- An instruction whose effect is a compare completes as `compare_result` says. -/
theorem compare_completes {i : Instr} {s : State} {c : Ctx} (e : readyCtx i s = some c) {m : BitVec 3} {vec : Bool}
    {f : (Nat ⊕ Unit) → Bool} {fl : Flags}
    (hx : ∃ body, exec i s = .next (runInstr i (actsAlways i) body s)
      ∧ body c (entered i s c) = .done (orFlags (compareMask (entered i s c) c m vec f) c.gid fl)) :
    ∃ t, exec i s = .next t ∧ maskWritten s t c m vec f = true ∧ fflagsIn t c.gid = some (c.g.fflags ||| fl) ∧ wentOn i c t = true := by
  obtain ⟨body, hx, hb⟩ := hx
  exact ⟨_, hx, compare_result e hb⟩

/-- ICMP's effect, its operands read in the state before (R131). -/
theorem icmp_effect (hd : Hdr) (w : IWidth) (uns : Bool) (k : ICond) (o : OpsCmp) (s : State) (c : Ctx) :
    let i := Instr.icmp hd w uns k o
    ∃ body, exec i s = .next (runInstr i (actsAlways i) body s)
      ∧ body c (entered i s c) = .done (orFlags (compareMask (entered i s c) c o.m (srcIsVec o.a || srcIsVec o.b) (fun l =>
        holdsR131 uns k (BitVec.ofNat (iShape w).1 (iSrcMod s c w (iImm w o.imm) o.mods o.a l))
          (BitVec.ofNat (iShape w).1 (iSrc s c (iRegs w) (iImm w o.imm) o.b l)))) c.gid 0) := by
  intro i
  refine ⟨_, rfl, ?_⟩
  obtain ⟨G, hG⟩ := sampleSpecials_eq s c
  rw [orFlags_zero, entered_of_mask (m := o.m) rfl, hG]
  simp only [icond_eq]
  rfl

/-- FCMP's and FCLS's effect, their operands read in the state before (R136, R137). -/
theorem floatTest_effect {i : Instr} {s : State} {c : Ctx} {x : BitVec 3 × Bool × ((Nat ⊕ Unit) → Bool × Flags)} (h : floatTest i c s = some x) :
    ∃ body, exec i s = .next (runInstr i (actsAlways i) body s)
      ∧ body c (entered i s c) = .done (orFlags (compareMask (entered i s c) c x.1 x.2.1 (fun l => (x.2.2 l).1)) c.gid
          (if x.2.1 then (lanesOf c.act).foldl (fun y l => y ||| (x.2.2 (.inl l)).2) 0 else (x.2.2 (.inr ())).2)) := by
  obtain ⟨G, hG⟩ := sampleSpecials_eq s c
  unfold floatTest at h
  split at h
  · next hd f k o =>
    cases h
    refine ⟨_, rfl, ?_⟩
    rw [entered_of_mask (m := o.m) rfl, hG]
    rfl
  · next hd f scalar mods m a set =>
    cases h
    refine ⟨_, rfl, ?_⟩
    have hno : ∀ ls : List Nat, ls.foldl (fun (y : Flags) _ => y ||| 0) 0 = 0 := fun ls => by induction ls <;> simp_all
    simp only [hno, ite_self, orFlags_zero]
    rw [entered_of_mask (m := m) rfl, hG]
    rfl
  · cases h

/-- Settles O4: each compare writes its mask from operands that sampling leaves alone, and FCMP adds its lanes' flags. -/
theorem compares : Obligations.Compares := by
  intro claim hclaim i s ok hok
  simp only [List.mem_cons, List.not_mem_nil, or_false] at hclaim
  rcases hclaim with rfl | rfl
  · unfold icmpClaim at hok
    split at hok
    · next hd w uns k o c e =>
      cases hok
      obtain ⟨t, ht, hm, -, hw⟩ := compare_completes e (icmp_effect hd w uns k o s c)
      exact ⟨t, ht, Bool.and_eq_true_iff.mpr ⟨hm, hw⟩⟩
    · cases hok
  · simp only [floatTestClaim, Option.bind_eq_some_iff, Option.map_eq_some_iff] at hok
    obtain ⟨c, e, x, hx, rfl⟩ := hok
    obtain ⟨t, ht, hm, hf, hw⟩ := compare_completes e (floatTest_effect hx)
    exact ⟨t, ht, by simp only [hm, hf, hw, beq_self_eq_true, Bool.and_self]⟩

end Sys2Proof.Claims
end

/-! ## Branches send their lanes, and the mask instructions set em -/

section
namespace Sys2Proof.Claims

open Sys2Proof.Machine

/-! ### Keyed lists -/

/-- Writing at a free key only adds the pair. -/
theorem perm_put {α : Type} {m : Map α} {k : Nat} (v : α) (h : Map.get? m k = none) : (Map.put m k v).Perm ((k, v) :: m) := by
  induction m with
  | nil => exact .refl _
  | cons p t ih =>
    obtain ⟨j, w⟩ := p
    simp only [Map.get?] at h
    split at h
    · cases h
    · next hj =>
      simp only [Map.put, Ne.symm hj, if_false]
      split
      · exact .refl _
      · exact ((ih h).cons _).trans (.swap ..)

theorem mem_of_get? {α : Type} {m : Map α} {k : Nat} {v : α} (h : Map.get? m k = some v) : (k, v) ∈ m := by
  induction m with
  | nil => cases h
  | cons p t ih =>
    obtain ⟨j, w⟩ := p
    simp only [Map.get?] at h
    split at h
    · next hj => cases h; subst hj; exact List.mem_cons_self
    · exact List.mem_cons_of_mem _ (ih h)

theorem mem_modify {α : Type} {m : Map α} {k : Nat} {v : α} (f : α → α) (h : Map.get? m k = some v) : (k, f v) ∈ Map.modify m k f :=
  mem_of_get? (by rw [Map.get?_modify_self, h]; rfl)

/-- Of the four split indices one is free while fewer than four splits stand (R38). -/
theorem freeIndex_of_lt {g : Group} (h : g.splits.length < 4) : ∃ i, freeIndex g = some i ∧ g.splits.get? i = none := by
  cases hf : freeIndex g with
  | some i => exact ⟨i, rfl, by simpa using List.find?_some hf⟩
  | none =>
    have hall : ∀ i ∈ [0, 1, 2, 3], i ∈ g.splits.map Prod.fst := fun i hi => by
      have hne := List.find?_eq_none.mp hf i hi
      obtain ⟨q, hq⟩ := Option.isSome_iff_exists.mp (by simpa [Option.isSome_iff_ne_none] using hne)
      exact List.mem_map.mpr ⟨_, mem_of_get? hq, rfl⟩
    have hlen : [0, 1, 2, 3].length ≤ (g.splits.map Prod.fst).length := (List.Nodup.subperm (by decide) hall).length_le
    simp at hlen
    omega

/-! ### Where the lanes of a group go on -/

/-- A lane goes on at a PC in a split of a group, or in a part deferred on its stack (R39, R41). -/
def goesOnAt (g : Group) (l : Nat) (pc : CodeAddr) : Prop :=
  ∃ p ∈ g.splits, (p.2.em.getLsbD l = true ∧ p.2.pc = pc) ∨ ∃ d ∈ p.2.stack, d.lanes.getLsbD l = true ∧ d.pc = pc

theorem laneAt_iff {t : State} {c : Ctx} {g : Group} (hg : t.groups.get? c.gid = some g) (l : Nat) (pc : CodeAddr) :
    laneAt t c l pc = true ↔ goesOnAt g l pc := by
  simp [laneAt, groupHas, groupIn, hg, goesOnAt]

/-- A split but for what an issue sets of it: its stall, its yield, and since when it has been ready (R63, R43). -/
def settledSplit (q : Split) : Split := { q with stallUntil := 0, yieldAt := none, readySince := none }

def settledSplits (g : Group) : List (Nat × Split) := g.splits.map (fun p => (p.1, settledSplit p.2))

theorem countIssue_splits {t : State} {c : Ctx} {hd : Hdr} {g : Group} (hg : t.groups.get? c.gid = some g) :
    ∃ h, (countIssue t c hd).groups.get? c.gid = some h ∧ settledSplits h = settledSplits g := by
  simp only [countIssue, State.setGroup_groups, State.setCore_groups, Map.get?_modify_self, hg]
  refine ⟨_, rfl, ?_⟩
  simp only [settledSplits, List.map_map]
  refine List.map_congr_left fun p _ => Prod.ext rfl ?_
  simp only [Function.comp]
  split
  · rfl
  · split
    · rfl
    · rfl

theorem noteInflight_splits {t : State} {c : Ctx} {i : Instr} {g : Group} (hg : t.groups.get? c.gid = some g) :
    ∃ h, (noteInflight t c i).groups.get? c.gid = some h ∧ settledSplits h = settledSplits g := by
  simp only [noteInflight, State.setGroup_groups, Map.get?_modify_self, hg]
  exact ⟨_, rfl, rfl⟩

/-- What completion sets of a split is neither PC nor lanes. -/
theorem finishIssue_splits {t : State} {c : Ctx} {i : Instr} {g : Group} (hg : t.groups.get? c.gid = some g) :
    ∃ h, (finishIssue t c i []).groups.get? c.gid = some h ∧ settledSplits h = settledSplits g := by
  obtain ⟨k, hk, ek⟩ := noteInflight_splits (i := i) hg
  obtain ⟨h, hh, eh⟩ := countIssue_splits (hd := hdrOf i) hk
  exact ⟨h, by rw [finishIssue, keepSnap_groups, earlyWrite]; exact hh, eh.trans ek⟩

theorem goesOnAt_settled (g : Group) (l : Nat) (pc : CodeAddr) :
    goesOnAt g l pc ↔ ∃ p ∈ settledSplits g, (p.2.em.getLsbD l = true ∧ p.2.pc = pc) ∨ ∃ d ∈ p.2.stack, d.lanes.getLsbD l = true ∧ d.pc = pc := by
  simp [goesOnAt, settledSplits, settledSplit]

theorem goesOnAt_congr {g h : Group} (e : settledSplits h = settledSplits g) {l : Nat} {pc : CodeAddr} : goesOnAt h l pc ↔ goesOnAt g l pc := by
  rw [goesOnAt_settled, goesOnAt_settled, e]

/-- Every lane of a list of parts goes on at the part's PC. -/
def PartsGo (g : Group) (parts : List (CodeAddr × LaneMask)) : Prop := ∀ p ∈ parts, ∀ l, p.2.getLsbD l = true → goesOnAt g l p.1

/-! ### Dividing a split (R39, R41, R116) -/

theorem PartsGo.mono {g h : Group} {parts : List (CodeAddr × LaneMask)} (hp : PartsGo g parts) (hs : ∀ p ∈ g.splits, p ∈ h.splits) :
    PartsGo h parts := fun r hr l hl =>
  have ⟨p, hmem, hat⟩ := hp r hr l hl
  ⟨p, hs p hmem, hat⟩

/-- Splits placed one after the other, each at a free index: those that stood stay, and each part has one. -/
theorem foldl_places {gid : Nat} {f : State → CodeAddr × LaneMask → State}
    (hf : ∀ t g p, t.groups.get? gid = some g → g.splits.length < 4 →
      ∃ h q, (f t p).groups.get? gid = some h ∧ h.splits.Perm (q :: g.splits) ∧ q.2.pc = p.1 ∧ q.2.em = p.2)
    {placed rest : List (CodeAddr × LaneMask)} {t : State} {g : Group} (hg : t.groups.get? gid = some g)
    (hlen : rest.length + g.splits.length ≤ 4) (hplaced : PartsGo g placed) :
    ∃ h, (rest.foldl f t).groups.get? gid = some h ∧ PartsGo h (placed ++ rest) := by
  induction rest generalizing t g placed with
  | nil => exact ⟨g, hg, by rwa [List.append_nil]⟩
  | cons p rest ih =>
    simp only [List.length_cons] at hlen
    obtain ⟨k, q, hk, hperm, hpc, hem⟩ := hf t g p hg (by omega)
    have hsub : ∀ r ∈ g.splits, r ∈ k.splits := fun r hr => hperm.mem_iff.mpr (List.mem_cons_of_mem _ hr)
    have hq : PartsGo k [p] := fun r hr l hl => by
      rw [List.mem_singleton] at hr
      subst hr
      exact ⟨q, hperm.mem_iff.mpr List.mem_cons_self, .inl ⟨by rw [hem]; exact hl, hpc⟩⟩
    have hk' : PartsGo k (placed ++ [p]) := fun r hr =>
      (List.mem_append.mp hr).elim ((hplaced.mono hsub) r) (hq r)
    obtain ⟨h, hh, hgo⟩ := ih hk (by rw [hperm.length_eq, List.length_cons]; omega) hk'
    exact ⟨h, hh, by rwa [List.append_assoc] at hgo⟩

theorem setSplit_group {t : State} {gid si : Nat} (f : Split → Split) {g : Group} {sp : Split} (hg : t.groups.get? gid = some g)
    (hsp : g.splits.get? si = some sp) :
    ∃ h, (setSplit t gid si f).groups.get? gid = some h ∧ (si, f sp) ∈ h.splits ∧ h.splits.length = g.splits.length :=
  ⟨{ g with splits := g.splits.modify si f }, by simp [setSplit, hg], mem_modify f hsp, List.length_map _⟩

/-- A divided split: each lane of each part goes on at the part's PC, in a split of its own or on the stack. -/
theorem divide_goes {t : State} {gid si : Nat} {join : CodeAddr} {parts : List (CodeAddr × LaneMask)} {g : Group} {sp : Split}
    (hg : t.groups.get? gid = some g) (hsp : g.splits.get? si = some sp)
    (hem : ∀ p ∈ parts, ∀ l, p.2.getLsbD l = true → sp.em.getLsbD l = true) :
    ∃ h, (divide t gid si join parts).groups.get? gid = some h ∧ PartsGo h parts := by
  unfold divide
  simp only [hg, hsp]
  cases parts with
  | nil => exact ⟨g, hg, fun _ hp => by cases hp⟩
  | cons p rest =>
    obtain ⟨pc, m⟩ := p
    dsimp only
    split
    · next hrest =>
      obtain ⟨h, hh, hmem, -⟩ := setSplit_group (fun q => { q with pc := pc }) hg hsp
      refine ⟨h, hh, fun p hp l hl => ⟨_, hmem, .inl ?_⟩⟩
      rw [List.isEmpty_iff.mp hrest, List.mem_singleton] at hp
      subst hp
      exact ⟨hem _ List.mem_cons_self l hl, rfl⟩
    · split
      · next hroom =>
        simp only [Bool.and_eq_true, decide_eq_true_eq] at hroom
        obtain ⟨k, hk, hmem, hlen⟩ := setSplit_group
          (fun q => { q with pc := pc, em := m, members := q.members &&& ~~~rest.foldl (fun m p => m ||| p.2) 0 }) hg hsp
        refine foldl_places (placed := [(pc, m)]) (fun u k p hk hlen => ?_) hk (hlen ▸ hroom.2) fun p hp l hl => ?_
        · obtain ⟨i, hi, hfree⟩ := freeIndex_of_lt hlen
          simp only [hk, Option.bind_some, hi]
          refine ⟨_, _, by rw [State.setGroup_groups, Map.get?_modify_self, State.fresh_groups, hk]; rfl, perm_put _ hfree, rfl, rfl⟩
        · rw [List.mem_singleton] at hp
          subst hp
          exact ⟨_, hmem, .inl ⟨hl, rfl⟩⟩
      · obtain ⟨h, hh, hmem, -⟩ := setSplit_group (fun q =>
          { q with pc := pc, em := m, members := q.members &&& ~~~rest.foldl (fun m p => m ||| p.2) 0,
                   stack := rest.map (fun p => ⟨p.1, p.2, join, q.tag⟩) ++ q.stack }) hg hsp
        refine ⟨h, hh, fun q hq l hl => ⟨_, hmem, ?_⟩⟩
        rcases List.mem_cons.mp hq with rfl | hq
        · exact .inl ⟨hl, rfl⟩
        · exact .inr ⟨_, List.mem_append_left _ (List.mem_map_of_mem hq), hl, rfl⟩

/-! ### Branches (R112 to R116) -/

theorem mem_insertBy {α : Type} {le : α → α → Bool} {a b : α} {l : List α} : a ∈ insertBy le b l ↔ a = b ∨ a ∈ l := by
  induction l with
  | nil => simp [insertBy]
  | cons x t ih =>
    rw [insertBy]
    split
    · simp
    · simp [ih]
      tauto

theorem mem_sortBy {α : Type} {le : α → α → Bool} {a : α} {l : List α} : a ∈ sortBy le l ↔ a ∈ l := by
  induction l with
  | nil => rfl
  | cons x t ih => rw [sortBy, mem_insertBy, ih, List.mem_cons]

/-- Each lane of em is in the part of its next PC (R114). -/
theorem branchParts_lane {c : Ctx} {target : Nat → CodeAddr} {l : Nat} (hl : l ∈ lanesOf c.em) :
    ∃ m : LaneMask, (if c.act.getLsbD l then target l else c.pc + 3, m) ∈ branchParts c target ∧ m.getLsbD l = true := by
  obtain ⟨hl32, hem⟩ := (mem_lanesOf _ _).mp hl
  unfold branchParts
  extract_lets nextOf pcs
  have hpc : nextOf l ∈ pcs := mem_sortBy.mpr (List.mem_eraseDups.mpr (List.mem_map_of_mem hl))
  have hto : BitVec.ofNat 55 (nextOf l) = if c.act.getLsbD l then target l else c.pc + 3 := by
    simp only [nextOf]
    split <;> rw [BitVec.ofNat_toNat, BitVec.setWidth_eq]
  rw [← hto]
  refine ⟨_, List.mem_map_of_mem hpc, ?_⟩
  rw [getLsbD_lanesWhere _ _ hl32, hem, Bool.true_and, beq_iff_eq]

theorem branchParts_subset {c : Ctx} {target : Nat → CodeAddr} {p : CodeAddr × LaneMask} (hp : p ∈ branchParts c target) {l : Nat}
    (hl : p.2.getLsbD l = true) : c.em.getLsbD l = true := by
  obtain ⟨n, -, rfl⟩ := List.mem_map.mp hp
  rw [getLsbD_lanesWhere _ _ (BitVec.lt_of_getLsbD hl), Bool.and_eq_true] at hl
  exact hl.1

/-- The lanes of em that a guard leaves out (R59). -/
theorem getLsbD_andNot {m n : LaneMask} {l : Nat} (hl : l < 32) (hm : m.getLsbD l = true) (hn : ¬n.getLsbD l = true) :
    (m &&& ~~~n).getLsbD l = true := by
  simp only [BitVec.getLsbD_and, BitVec.getLsbD_not, hm, hl, hn, decide_true, Bool.not_false, Bool.and_self]

section
variable {s : State} {c : Ctx} {g : Group} (hg : s.groups.get? c.gid = some g) (hsp : g.splits.get? c.si = some c.sp) (hem : c.em = c.sp.em)
include hg hsp hem

/-- BRA's lanes: those of G go on at the target, the rest of em at the next instruction (R113). -/
theorem branch_goes {target join : CodeAddr} (hact : c.act ≠ 0) (ha : ActsInEm c) :
    ∃ h, (branch s c target join).groups.get? c.gid = some h
      ∧ ∀ l ∈ lanesOf c.em, goesOnAt h l (if c.act.getLsbD l then target else c.pc + 3) := by
  unfold branch
  dsimp only
  rw [if_neg hact]
  split
  · next hfall =>
    obtain ⟨h, hh, hmem, -⟩ := setSplit_group (fun q => { q with pc := target }) hg hsp
    refine ⟨h, hh, fun l hl => ⟨_, hmem, .inl ?_⟩⟩
    obtain ⟨hl32, hl⟩ := (mem_lanesOf _ _).mp hl
    refine ⟨hem ▸ hl, ?_⟩
    split
    · rfl
    · next hn =>
      rcases hfall with hfall | hfall
      · have hbit := getLsbD_andNot hl32 hl hn
        exact absurd hbit (by rw [hfall]; simp)
      · exact hfall
  · obtain ⟨h, hh, hgo⟩ := divide_goes (join := join) (parts := [(target, c.act), (c.pc + 3, c.em &&& ~~~c.act)]) hg hsp fun p hp l hl => by
      simp only [List.mem_cons, List.not_mem_nil, or_false] at hp
      rcases hp with rfl | rfl
      · exact hem ▸ ha l hl
      · rw [BitVec.getLsbD_and, Bool.and_eq_true] at hl
        exact hem ▸ hl.1
    refine ⟨h, hh, fun l hl => ?_⟩
    obtain ⟨hl32, hl⟩ := (mem_lanesOf _ _).mp hl
    split
    · next hal => exact hgo _ List.mem_cons_self l hal
    · next hal => exact hgo (c.pc + 3, c.em &&& ~~~c.act) (by simp) l (getLsbD_andNot hl32 hl hal)

/-- The lanes of a branch to registers go on at their targets, the rest of em at the next instruction (R114). -/
theorem branchParts_go {target : Nat → CodeAddr} {join : CodeAddr} :
    ∃ h, (divide s c.gid c.si join (branchParts c target)).groups.get? c.gid = some h
      ∧ ∀ l ∈ lanesOf c.em, goesOnAt h l (if c.act.getLsbD l then target l else c.pc + 3) := by
  obtain ⟨h, hh, hgo⟩ := divide_goes (join := join) hg hsp fun p hp l hl => hem ▸ branchParts_subset (target := target) hp hl
  refine ⟨h, hh, fun l hl => ?_⟩
  obtain ⟨m, hm, hbit⟩ := branchParts_lane (target := target) hl
  exact hgo _ hm l hbit

end

/-- Where every target is a code address, a branch to registers sets the program counters (R112). -/
theorem branchReg_jump {s : State} {c : Ctx} {a : Tgt} {join : CodeAddr} {before : State → State}
    (ht : (lanesOf c.act).all (fun l => decide (tgtLane c a l < 2 ^ 55)) = true) :
    branchReg c a join before s = .jump (if c.em = 0 then setSplit (before s) c.gid c.si (fun q => { q with pc := c.pc + 3 })
      else divide (before s) c.gid c.si join (branchParts c (fun l => BitVec.ofNat 55 (tgtLane c a l)))) := by
  have hnone : (lanesOf c.act).filter (fun l => decide (2 ^ 55 ≤ tgtLane c a l)) = [] :=
    List.filter_eq_nil_iff.mpr fun l hl => by simpa using List.all_eq_true.mp ht l hl
  unfold branchReg
  simp only [lanesWhere, hnone, ofLanes, List.foldl_nil, ne_eq, not_true_eq_false, if_false]
  split <;> rfl

/-- A register that no writer names reads as it did. -/
theorem vregsIn_of_writes {fl : Bool} {c : Ctx} {s t : State} {g : Group} (w : Writes [] fl c s t) (hg : s.groups.get? c.gid = some g)
    (r n : Nat) {l : Nat} (hl : l < 32) : vregsIn t c.gid r l n = vregsIn s c.gid r l n := by
  obtain ⟨h, hh, wh⟩ := w.own g hg
  simp only [vregsIn, hg, hh, Option.map_some]
  exact congrArg some (vregs_congr h g r l n fun i _ => wh.vreg _ _ hl (.inl List.not_mem_nil))

/-- A branch that is ready: its lanes are where its effect has sent them, and the vector registers hold what it wrote. -/
theorem jump_completes {i : Instr} {s u : State} {c : Ctx} {target : Nat → CodeAddr} (e : readyCtx i s = some c)
    (hx : ∃ body, exec i s = .next (runInstr i (actsAlways i) body s) ∧ body c (entered i s c) = .jump u)
    (hu : ∃ h, u.groups.get? c.gid = some h ∧ ∀ l ∈ lanesOf c.em, goesOnAt h l (if c.act.getLsbD l then target l else c.pc + 3)) :
    ∃ t, exec i s = .next t ∧ (lanesOf c.em).all (fun l => laneAt t c l (if c.act.getLsbD l then target l else c.pc + 3)) = true
      ∧ ∀ r l n, vregsIn t c.gid r l n = vregsIn u c.gid r l n := by
  obtain ⟨body, hx, hb⟩ := hx
  obtain ⟨h, hu, hgo⟩ := hu
  refine ⟨_, hx, List.all_eq_true.mpr fun l hl => ?_, fun r l n => ?_⟩
  · obtain ⟨k, hk, ek⟩ := finishIssue_splits (i := i) hu
    rw [runInstr_jump e hb, laneAt_iff hk, goesOnAt_congr ek]
    exact hgo l hl
  · obtain ⟨k, hk, ek⟩ := get?_of_settled (finish_get u c i c.gid) hu
    rw [runInstr_jump e hb]
    simp only [vregsIn, hk, hu, Option.map_some]
    exact congrArg some (vregs_v_congr k h (show (settledGroup k).v = (settledGroup h).v by rw [ek]) r l n)

/-- A branch to registers, whatever it writes first, sends its lanes to their targets (R114). -/
theorem branchReg_completes {i : Instr} {s : State} {c : Ctx} {a : Tgt} {join : CodeAddr} {before : State → State} {target : Nat → CodeAddr} {g : Group}
    (e : readyCtx i s = some c)
    (hx : ∃ body, exec i s = .next (runInstr i (actsAlways i) body s) ∧ body c (entered i s c) = branchReg c a join before (entered i s c))
    (ht : branchTarget (.ret ⟨false, 7, 0, false⟩ a) c = some target) (hg : (before (entered i s c)).groups.get? c.gid = some g)
    (hsp : g.splits.get? c.si = some c.sp) :
    ∃ t, exec i s = .next t ∧ (lanesOf c.em).all (fun l => laneAt t c l (if c.act.getLsbD l then target l else c.pc + 3)) = true
      ∧ ∀ r l n, l < 32 → vregsIn t c.gid r l n = vregsIn (before (entered i s c)) c.gid r l n := by
  obtain ⟨-, -, -, -, -, -, hem, -⟩ := ctxOf_some (readyCtx_some e).1
  simp only [branchTarget, Option.ite_none_right_eq_some, Option.some.injEq] at ht
  obtain ⟨hfit, rfl⟩ := ht
  obtain ⟨body, hx, hb⟩ := hx
  rw [branchReg_jump hfit] at hb
  obtain ⟨t, ht, hall, hv⟩ := jump_completes (target := fun l => BitVec.ofNat 55 (tgtLane c a l)) e ⟨body, hx, hb⟩ (by
    split
    · next h0 =>
      obtain ⟨h, hh, -, -⟩ := setSplit_group (fun q => { q with pc := c.pc + 3 }) hg hsp
      exact ⟨h, hh, fun l hl => absurd ((mem_lanesOf _ _).mp hl).2 (by rw [h0]; simp)⟩
    · exact branchParts_go hg hsp hem)
  refine ⟨t, ht, hall, fun r l n hl => (hv r l n).trans (vregsIn_of_writes (fl := false) ?_ hg r n hl)⟩
  exact writes_ite writes_setSplit writes_divide

/-- The state in which a call branches: the return address stands in the lanes of G (R115). -/
theorem writeReturn_group {s : State} {c : Ctx} {d : BitVec 8} (hg : s.groups.get? c.gid = some c.g) (hsp : c.g.splits.get? c.si = some c.sp) :
    ∃ g, (writeReturn c d s).groups.get? c.gid = some g ∧ g.splits.get? c.si = some c.sp
      ∧ ∀ l ∈ lanesOf c.act, vregsIn (writeReturn c d s) c.gid d.toNat l 2 = some ((c.pc + 3).toNat % 2 ^ (32 * 2)) := by
  have hset := setDstLanes_group s c d.toNat 2 (fun _ => (c.pc + 3).toNat)
  rw [hg] at hset
  exact ⟨_, hset, hsp, fun l hl => setDstLanes_reads s c c.g d.toNat 2 _ hg l hl⟩

theorem resultIn_of_return {t u : State} {c : Ctx} {d : BitVec 8} (hv : ∀ r l n, l < 32 → vregsIn t c.gid r l n = vregsIn u c.gid r l n)
    (hu : ∀ l ∈ lanesOf c.act, vregsIn u c.gid d.toNat l 2 = some ((c.pc + 3).toNat % 2 ^ (32 * 2))) :
    resultIn t c c.act (.v d) 2 (fun _ => (c.pc + 3).toNat) = true :=
  List.all_eq_true.mpr fun l hl => by
    rw [hv _ _ _ ((mem_lanesOf _ _).mp hl).1, hu l hl]
    exact beq_self_eq_true _

/-- The branches: every lane of em goes on where its rule says, and after a call the return address stands in the lanes of G. -/
theorem branchClaim_completes {i : Instr} {s : State} {ok : State → Bool} (hok : branchClaim i s = some ok) :
    ∃ t, exec i s = .next t ∧ ok t = true := by
  simp only [branchClaim, Option.bind_eq_some_iff, Option.map_eq_some_iff] at hok
  obtain ⟨c, e, target, ht, rfl⟩ := hok
  obtain ⟨-, -, -, -, -, -, hem, hguard⟩ := ctxOf_some (readyCtx_some e).1
  have ha : ActsInEm c := fun l hl => guardLanes_subset (hguard ▸ hl)
  obtain ⟨-, -, -, -, -, -, hact, -, -⟩ := ready_parts (readyCtx_some e).2
  obtain ⟨hg, hsp, -⟩ := entered_group e
  cases i with
  | bra hd off join =>
    cases ht
    obtain ⟨t, ht, hall, -⟩ := jump_completes e ⟨_, rfl, rfl⟩ (branch_goes hg hsp hem (hact.resolve_right nofun) ha)
    exact ⟨t, ht, Bool.and_eq_true_iff.mpr ⟨hall, rfl⟩⟩
  | call hd d off =>
    cases ht
    obtain ⟨g, hg', hsp', hret⟩ := writeReturn_group (d := d) hg hsp
    obtain ⟨t, ht, hall, hv⟩ := jump_completes e ⟨_, rfl, rfl⟩ (branch_goes hg' hsp' hem (hact.resolve_right nofun) ha)
    exact ⟨t, ht, Bool.and_eq_true_iff.mpr ⟨hall, resultIn_of_return (fun r l n hl => (hv r l n).trans
      (vregsIn_of_writes (fl := false) writes_branch hg' r n hl)) hret⟩⟩
  | brx hd a join | ret hd a =>
    obtain ⟨t, ht, hall, -⟩ := branchReg_completes e ⟨_, rfl, rfl⟩ ht hg hsp
    exact ⟨t, ht, Bool.and_eq_true_iff.mpr ⟨hall, rfl⟩⟩
  | callx hd d a =>
    obtain ⟨g, hg', hsp', hret⟩ := writeReturn_group (d := d) hg hsp
    obtain ⟨t, ht, hall, hv⟩ := branchReg_completes e ⟨_, rfl, rfl⟩ ht hg' hsp'
    exact ⟨t, ht, Bool.and_eq_true_iff.mpr ⟨hall, resultIn_of_return hv hret⟩⟩
  | _ => cases ht

/-! ### NOP and the mask instructions (R118, R120) -/

theorem maskSource_eq (s : State) (c : Ctx) (x : MaskSrc) : maskSource s c x = maskOperand s c x := by
  cases x <;> rfl

/-- An instruction whose effect leaves its split's PC and sets its em goes on with that em (R66, R120). -/
theorem em_completes {i : Instr} {s u : State} {c : Ctx} {q : Split} (e : readyCtx i s = some c)
    (hx : ∃ body, exec i s = .next (runInstr i (actsAlways i) body s) ∧ body c (entered i s c) = .done u)
    (hu : splitIn u c.gid c.si = some q) (huid : q.uid = c.sp.uid) (hqpc : q.pc = c.sp.pc) :
    ∃ t, exec i s = .next t ∧ ((splitIn t c.gid c.si).map (·.em) == some q.em && wentOn i c t) = true := by
  obtain ⟨body, hx, hb⟩ := hx
  obtain ⟨-, -, hpc⟩ := entered_group e
  refine ⟨_, hx, ?_⟩
  rw [runInstr_done e hb]
  have hk := done_split u c i (lengthOf i) c.si
  rw [hu, Option.map_some, if_pos huid] at hk
  obtain ⟨r, hr, hshown⟩ := Option.map_eq_some_iff.mp hk
  obtain ⟨-, hrpc, hrem, -⟩ : r.uid = _ ∧ r.pc = _ ∧ r.em = _ ∧ r.members = _ := by simpa [shown] using hshown
  simp [wentOn, pcIn, hr, hrpc, hrem, hqpc, hpc]

/-- MAND, MOR and MREST set em within the split's lanes (R120). -/
theorem setEm_completes {i : Instr} {s : State} {c : Ctx} {m : LaneMask} (e : readyCtx i s = some c)
    (hx : ∃ body, exec i s = .next (runInstr i (actsAlways i) body s) ∧ body c (entered i s c) = .done (setEm (entered i s c) c m)) :
    ∃ t, exec i s = .next t ∧ ((splitIn t c.gid c.si).map (·.em) == some (m &&& splitLanes c.sp) && wentOn i c t) = true := by
  obtain ⟨hg, hsp, -⟩ := entered_group e
  exact em_completes (q := { c.sp with em := m &&& splitLanes c.sp }) e hx (by simp [setEm, setSplit, splitIn, hg, hsp]) rfl rfl

theorem maskClaim_completes {i : Instr} {s : State} {ok : State → Bool} (hok : maskClaim i s = some ok) :
    ∃ t, exec i s = .next t ∧ ok t = true := by
  simp only [maskClaim, Option.bind_eq_some_iff] at hok
  obtain ⟨c, e, hok⟩ := hok
  obtain ⟨hg, hsp, -⟩ := entered_group e
  obtain ⟨-, -, -, -, -, -, hem, -⟩ := ctxOf_some (readyCtx_some e).1
  cases i with
  | nop hd =>
    cases hok
    rw [hem]
    exact em_completes e ⟨_, rfl, rfl⟩ (by simp [splitIn, hg, hsp]) rfl rfl
  | msave hd d =>
    cases hok
    cases d with
    | s r =>
      obtain ⟨hr, -, -, -, -, hw⟩ := scalar_result (i := .msave hd (.s r)) e (body := fun c s => .done (setDstScalar s c.gid (.s r) c.em.toNat)) rfl
      exact ⟨_, rfl, Bool.and_eq_true_iff.mpr ⟨by simp only [scalarIn]; rw [beq_iff_eq]; exact hr, hw⟩⟩
    | v r | sz =>
      obtain ⟨-, -, -, -, hw⟩ := discarded_result e (body := fun _ s => .done s) rfl
      exact ⟨_, rfl, Bool.and_eq_true_iff.mpr ⟨rfl, hw⟩⟩
  | mand hd x | mor hd x | mrest hd x =>
    cases hok
    simp only [← maskSource_eq]
    exact setEm_completes e ⟨_, rfl, rfl⟩
  | _ => cases hok

/-- Settles O7: a branch's lanes are where its parts stand, in splits or on the stack, and the mask instructions set em alone. -/
theorem branchesAndMasks : Obligations.BranchesAndMasks := by
  intro claim hclaim i s ok hok
  simp only [List.mem_cons, List.not_mem_nil, or_false] at hclaim
  rcases hclaim with rfl | rfl
  · exact branchClaim_completes hok
  · exact maskClaim_completes hok

end Sys2Proof.Claims
end

/-! ## REGROUP's continuations and the records of LAUNCH -/

section
namespace Sys2Proof.Claims

open Sys2Proof.Machine

/-! ### Lanes that leave a split (R38) -/

/-- A group leaves its slot only once its splits have ended, so its end takes no split. -/
theorem splitIn_endGroup (t : State) (gid k si : Nat) : splitIn (endGroup t gid) k si = splitIn t k si := by
  unfold endGroup
  split
  · rfl
  · dsimp only
    generalize (if isChecked t _ = true then _ else _) = drop
    split
    · next hall =>
      have hget : splitIn { retireLocks t drop with groups := t.groups.filter (fun p => !drop.contains p.1) } k si = splitIn t k si := by
        simp only [splitIn]
        rw [Map.get?_filter t.groups (fun i => !drop.contains i) k]
        split
        · rfl
        · next hk =>
          simp only [Bool.not_eq_true', Bool.not_eq_false, List.contains_iff_mem] at hk
          have hempty := List.all_eq_true.mp hall k hk
          cases hg : t.groups.get? k with
          | none => rfl
          | some g =>
            rw [hg, Option.elim_some, List.isEmpty_iff] at hempty
            simp [hempty]
      exact hget
    · rfl

theorem splitIn_reapGroup (t : State) (gid k si : Nat) : splitIn (reapGroup t gid) k si = splitIn t k si := by
  unfold reapGroup
  split
  · rfl
  · exact splitIn_endGroup t gid k si

@[simp] theorem endGroup_blocks (t : State) (gid : Nat) : (endGroup t gid).blocks = t.blocks := by
  unfold endGroup
  split
  · rfl
  · dsimp only
    generalize (if isChecked t _ = true then _ else _) = drop
    split <;> rfl

@[simp] theorem reapGroup_blocks (t : State) (gid : Nat) : (reapGroup t gid).blocks = t.blocks := by
  unfold reapGroup
  split
  · rfl
  · exact endGroup_blocks t gid

@[simp] theorem lanesLeave_blocks (t : State) (gid si : Nat) (lanes : LaneMask) : (lanesLeave t gid si lanes).blocks = t.blocks := by
  simp [lanesLeave]

@[simp] theorem settleHandler_splits (g : Group) : (settleHandler g).splits = g.splits := by
  unfold settleHandler
  split <;> rfl

/-- A split in one part, once lanes have left it: it has ended, or stands with its other lanes. -/
theorem leaveSplit_onePart {g : Group} {si : Nat} {q : Split} (hq : g.splits.get? si = some q) (hp : q.parts = []) (hs : q.stack = [])
    (lanes : LaneMask) :
    (leaveSplit g si lanes).splits.get? si = if (q.members ||| q.em) &&& ~~~lanes = 0 then none
      else some { q with em := q.em &&& ~~~lanes, members := q.members &&& ~~~lanes } := by
  have hdrop : q.drop lanes = { q with em := q.em &&& ~~~lanes, members := q.members &&& ~~~lanes } := by
    simp [Split.drop, hp, hs]
  have hnext : ({ q with em := q.em &&& ~~~lanes, members := q.members &&& ~~~lanes } : Split).next = none := by
    simp [Split.next, nextPart, leastBy, hp, hs]
  have hor : (q.members &&& ~~~lanes) ||| (q.em &&& ~~~lanes) = (q.members ||| q.em) &&& ~~~lanes := by
    ext i
    simp [Bool.and_or_distrib_right]
  unfold leaveSplit
  simp only [hq, hdrop, hnext, hor]
  split
  · rw [Map.get?_del, if_pos rfl]
  · rw [Map.get?_put_self]

/-- The split after lanes have left it. -/
theorem splitIn_lanesLeave {t : State} {gid si : Nat} {g : Group} {q : Split} (hg : t.groups.get? gid = some g) (hq : g.splits.get? si = some q)
    (hp : q.parts = []) (hs : q.stack = []) (lanes : LaneMask) :
    splitIn (lanesLeave t gid si lanes) gid si = if (q.members ||| q.em) &&& ~~~lanes = 0 then none
      else some { q with em := q.em &&& ~~~lanes, members := q.members &&& ~~~lanes } := by
  rw [lanesLeave, splitIn_reapGroup, splitIn, State.setGroup_groups, Map.get?_modify_self, hg, Option.map_some, Option.bind_some,
    settleHandler_splits, leaveSplit_onePart hq hp hs]

/-! ### REGROUP (R45, R46, R121) -/

/-- A continuation stands in the spawn area, or in a group that has been formed. -/
def heldCont (b : Block) (k : Cont) : Bool := b.conts.contains k || b.formed.any (·.2.contains k)

theorem heldCont_iff {b : Block} {k : Cont} : heldCont b k = true ↔ k ∈ b.conts ∨ ∃ f ∈ b.formed, k ∈ f.2 := by
  simp [heldCont]

/-- What is taken of a bucket is its first continuations; all others stay. -/
theorem mem_takeFromBucket {k : Cont} {cs : List Cont} {pc : CodeAddr} {key : Word} (n : Nat) (h : k ∈ cs) :
    k ∈ takeFromBucket n cs pc key ∨ k ∈ (bucket cs pc key).take n := by
  induction cs generalizing n with
  | nil => cases h
  | cons x t ih =>
    cases n with
    | zero => exact .inl h
    | succ n =>
      rw [takeFromBucket]
      by_cases hx : x.pc = pc ∧ x.key = key
      · have hb : bucket (x :: t) pc key = x :: bucket t pc key := by simp [bucket, hx]
        rw [if_pos hx, hb, List.take_succ_cons]
        rcases List.mem_cons.mp h with rfl | h
        · exact .inr List.mem_cons_self
        · exact (ih n h).imp_right (List.mem_cons_of_mem _)
      · have hb : bucket (x :: t) pc key = bucket t pc key := by
          simp only [bucket, List.filter_cons]
          rw [if_neg (by simpa using hx)]
        rw [if_neg hx, hb]
        rcases List.mem_cons.mp h with rfl | h
        · exact .inl List.mem_cons_self
        · exact (ih (n + 1) h).imp_left (List.mem_cons_of_mem _)

theorem heldCont_formFull {clk : Nat} {b : Block} {pc : CodeAddr} {key : Word} {k : Cont} (h : heldCont b k = true) :
    heldCont (formFull clk b pc key) k = true := by
  unfold formFull
  dsimp only
  split
  · exact h
  · rw [heldCont_iff] at h ⊢
    rcases h with h | ⟨f, hf, hk⟩
    · exact (mem_takeFromBucket 32 h).imp_right fun hk => ⟨_, List.mem_append_right _ (List.mem_singleton.mpr rfl), hk⟩
    · exact .inr ⟨f, List.mem_append_left _ hf, hk⟩

theorem heldCont_append {b : Block} {j k : Cont} (h : heldCont b k = true) : heldCont { b with conts := b.conts ++ [j] } k = true := by
  rw [heldCont_iff] at h ⊢
  exact h.imp_left (List.mem_append_left _)

/-- Continuations that enter the spawn area are held, and none is lost. -/
theorem writeConts_held {s : State} {c : Ctx} {b : Block} {target : CodeAddr} {key : Nat → Word} (hb : s.blocks.get? c.g.blk = some b) :
    ∃ n, (writeConts s c target key).blocks.get? c.g.blk = some n ∧ ∀ l ∈ lanesOf c.act, heldCont n (contOf c.g target (key l) l) = true := by
  suffices h : ∀ (ls : List Nat) (s : State) (b : Block), s.blocks.get? c.g.blk = some b →
      ∃ n, (forAll ls s (fun l s => s.setBlock c.g.blk (fun b =>
          formFull s.clk { b with conts := b.conts ++ [contOf c.g target (key l) l] } target (key l)))).blocks.get? c.g.blk = some n
        ∧ (∀ k, heldCont b k = true → heldCont n k = true) ∧ ∀ l ∈ ls, heldCont n (contOf c.g target (key l) l) = true from
    (h _ s b hb).imp fun _ hn => ⟨hn.1, hn.2.2⟩
  intro ls
  induction ls with
  | nil => exact fun s b hb => ⟨b, hb, fun _ h => h, fun _ h => by cases h⟩
  | cons l t ih =>
    intro s b hb
    obtain ⟨n, hn, hkeep, hall⟩ := ih (s.setBlock c.g.blk (fun b =>
      formFull s.clk { b with conts := b.conts ++ [contOf c.g target (key l) l] } target (key l))) _
      (by rw [State.setBlock_blocks, Map.get?_modify_self, hb]; rfl)
    refine ⟨n, hn, fun k hk => hkeep k (heldCont_formFull (heldCont_append hk)), fun m hm => ?_⟩
    rcases List.mem_cons.mp hm with rfl | hm
    · exact hkeep _ (heldCont_formFull (heldCont_iff.mpr (.inl (List.mem_append_right _ (List.mem_singleton.mpr rfl)))))
    · exact hall m hm

theorem writeConts_groups (s : State) (c : Ctx) (target : CodeAddr) (key : Nat → Word) : (writeConts s c target key).groups = s.groups :=
  forAll_keeps (fun t => t.groups = s.groups) _ _ _ rfl fun _ _ ht => ht

/-- A gathering is not complete while a continuation is held (R307). -/
theorem settleGather_of_held {t : State} {blk : Nat} {b : Block} {k : Cont} (hb : t.blocks.get? blk = some b) (hk : heldCont b k = true) :
    settleGather t blk = t := by
  have hno : gathered t blk b = false := by
    rw [heldCont_iff] at hk
    rcases hk with hk | ⟨f, hf, -⟩
    · simp [gathered, List.ne_nil_of_mem hk]
    · simp [gathered, List.ne_nil_of_mem hf]
  unfold settleGather
  simp only [hb, hno]
  split <;> rfl

/-! ### What a group that is in no pair finds -/

theorem not_isPrimary_of_alone {s : State} {c : Ctx} (h : roleOf s c = .alone) : isPrimary s c.gid c.g = false := by
  unfold roleOf at h
  cases hp : isPrimary s c.gid c.g with
  | false => rfl
  | true => simp [hp] at h

/-- A group in no pair that shores nothing finds the state as it was (R317, R332). -/
theorem entered_of_alone {i : Instr} {s : State} {c : Ctx} (h : roleOf s c = .alone) (hi : shoredAtIssue c i = []) : entered i s c = s := by
  rw [entered, hi, sampleSpecials, not_isPrimary_of_alone h]
  rfl

/-- Where nothing is shored an effect finds each role as it was. -/
theorem roleOf_entered {i : Instr} {s : State} {c : Ctx} (hi : shoredAtIssue c i = []) : roleOf (entered i s c) c = roleOf s c := by
  obtain ⟨G, hG⟩ := sampleSpecials_eq s c
  rw [entered, hi, hG]
  rfl

/-! ### What is claimed of REGROUP -/

theorem advance_group {t : State} {c : Ctx} {g : Group} (n : Nat) (hg : t.groups.get? c.gid = some g) (hsp : g.splits.get? c.si = some c.sp) :
    ∃ h, (advance t c n).groups.get? c.gid = some h ∧ h.splits.get? c.si = some { c.sp with pc := c.sp.pc + BitVec.ofNat 55 n } := by
  refine ⟨_, by simp only [advance, State.setGroup_groups, Map.get?_modify_self, hg]; rfl, ?_⟩
  rw [get?_map_split g.splits _ (fun p => by split <;> rfl) (fun j q => by split <;> rfl), hsp]
  simp

/-- The lanes of an instruction that ends them have left its split, which goes on with the others (R38). -/
theorem lanesLeft_of_leave {t u : State} {c : Ctx} {i : Instr} (hg : t.groups.get? c.gid = some c.g) (hsp : c.g.splits.get? c.si = some c.sp)
    (hpc : c.pc = c.sp.pc) (hem : c.em = c.sp.em) (hu : u = lanesLeave (advance t c 3) c.gid c.si c.act) :
    lanesLeft (finishIssue u c i []) c = true := by
  unfold lanesLeft
  by_cases hone : onePart c = true
  · obtain ⟨hp, hs⟩ : c.sp.parts = [] ∧ c.sp.stack = [] := by simpa [onePart] using hone
    obtain ⟨h, hh, hq⟩ := advance_group 3 hg hsp
    have hleft := splitIn_lanesLeave hh hq hp hs c.act
    have hfin := finish_split u c i c.si
    have hshow : (splitIn (finishIssue u c i []) c.gid c.si).map (fun q => (q.em, q.pc)) = (splitIn u c.gid c.si).map (fun q => (q.em, q.pc)) := by
      have := congrArg (Option.map fun x : Nat × CodeAddr × LaneMask × LaneMask => (x.2.2.1, x.2.1)) hfin
      rw [Option.map_map, Option.map_map] at this
      exact this
    rw [Bool.or_eq_true]
    refine .inr ?_
    rw [hshow, hu, hleft, hem, hpc, beq_iff_eq]
    split <;> rfl
  · simp [hone]

theorem exists_lane {m : LaneMask} (h : m ≠ 0) : ∃ l, l ∈ lanesOf m := by
  by_contra hn
  refine h (BitVec.eq_of_getLsbD_eq fun l hl => ?_)
  have hbit : m.getLsbD l = false := Bool.eq_false_iff.mpr fun hbit => hn ⟨l, (mem_lanesOf _ _).mpr ⟨hl, hbit⟩⟩
  simp [hbit]

/-- The continuations that a REGROUP of some state writes, in the context of the one that acts (R45). -/
def regroupEnd (off : BitVec 32) (a : Src) (c : Ctx) (s : State) (p : Ctx) (u : State) : State :=
  lanesGo (writeConts u p (pcOff c.pc off) (fun l => BitVec.ofNat 32 (srcLane s c 1 0 a l))) p

/-- REGROUP outside levels and task groups, in a launch that allows it, takes place once for a pair (R121). -/
theorem regroup_effect {hd : Hdr} {off : BitVec 32} {a : Src} {c : Ctx} (s : State) (hreg : c.launch.regroup = true) (hlev : c.blk.levels = [])
    (htask : c.g.taskGroup = false) :
    let i := Instr.regroup hd off a
    ∃ body, exec i s = .next (runInstr i (actsAlways i) body s)
      ∧ ∀ u, ∃ items, body c u = together u c 4 items [] (fun p v => .jump (regroupEnd off a c u p v)) goAlike := by
  refine ⟨_, rfl, fun u => ?_⟩
  dsimp only
  simp only [hreg, hlev, htask, List.length_nil]
  exact ⟨_, rfl⟩

/-- REGROUP of a group in no pair: its continuations are held, and no gathering is complete while they are, so that its lanes leave. -/
theorem regroup_alone {off : BitVec 32} {a : Src} {s : State} {c : Ctx} (hb : s.blocks.get? c.g.blk = some c.blk) (hact : c.act ≠ 0) :
    ∃ n v, regroupEnd off a c s c s = lanesLeave (advance v c 3) c.gid c.si c.act ∧ v.groups = s.groups ∧ v.blocks.get? c.g.blk = some n
      ∧ ∀ l ∈ lanesOf c.act, heldCont n (contOf c.g (pcOff c.pc off) (BitVec.ofNat 32 (srcLane s c 1 0 a l)) l) = true := by
  obtain ⟨n, hn, hheld⟩ := writeConts_held (target := pcOff c.pc off) (key := fun l => BitVec.ofNat 32 (srcLane s c 1 0 a l)) hb
  obtain ⟨l, hl⟩ := exists_lane hact
  refine ⟨n, _, ?_, writeConts_groups .., hn, hheld⟩
  exact settleGather_of_held (by rw [lanesLeave_blocks, advance_blocks]; exact hn) (hheld l hl)

@[simp] theorem finishIssue_cmps (t : State) (c : Ctx) (i : Instr) : (finishIssue t c i []).cmps = t.cmps := by
  unfold finishIssue
  obtain ⟨K, hK⟩ := keepSnap_eq (countIssue (noteInflight (earlyWrite t c.gid (refsOf i).2 []) c i) c (hdrOf i)) c
  rw [hK]
  rfl

theorem presentedIn_present (t : State) (c : Ctx) (i : Instr) (n code : Nat) (items : List Item) :
    presentedIn (finishIssue (advance (present t c code items true) c n) c i []) c code = true := by
  simp [presentedIn, present, advance]

theorem regroupClaim_completes {i : Instr} {s : State} {ok : State → Bool} (hok : regroupClaim i s = some ok) :
    ∃ t, exec i s = .next t ∧ ok t = true := by
  unfold regroupClaim at hok
  split at hok
  · next hd off a c e =>
    obtain ⟨hg, hsp, hpc⟩ := entered_group e
    obtain ⟨-, -, hb, -, -, -, hem, -⟩ := ctxOf_some (readyCtx_some e).1
    obtain ⟨-, -, -, -, -, -, hact, -, -⟩ := ready_parts (readyCtx_some e).2
    have hrole := roleOf_entered (i := .regroup hd off a) (s := s) (c := c) rfl
    split at hok
    · cases hok
    · next hfit =>
      simp only [Bool.or_eq_true, Bool.not_eq_true', not_or, Bool.not_eq_false, Bool.not_eq_true, List.isEmpty_iff, beq_iff_eq] at hfit
      obtain ⟨⟨⟨hreg, hlev⟩, htask⟩, hshadow⟩ := hfit
      obtain ⟨body, hx, hbody⟩ := regroup_effect (hd := hd) (off := off) (a := a) s hreg hlev htask
      obtain ⟨items, hbody⟩ := hbody (entered (.regroup hd off a) s c)
      split at hok
      · next hprimary =>
        cases hok
        rw [together, hrole, beq_iff_eq.mp hprimary] at hbody
        refine ⟨_, hx, ?_⟩
        rw [runInstr_done e hbody]
        exact Bool.and_eq_true_iff.mpr ⟨presentedIn_present .., done_wentOn _ _ _ (by rw [splitIn]; exact hg ▸ hsp) hpc⟩
      · next hprimary =>
        cases hok
        have halone : roleOf s c = .alone := by
          cases h : roleOf s c with
          | alone => rfl
          | primary => simp [h] at hprimary
          | shadow => exact absurd h hshadow
        rw [together, hrole, halone, entered_of_alone halone rfl] at hbody
        obtain ⟨n, v, hend, hv, hn, hheld⟩ := regroup_alone (off := off) (a := a) hb (hact.resolve_right nofun)
        refine ⟨_, hx, ?_⟩
        rw [runInstr_jump e (by rw [entered_of_alone halone rfl]; exact hbody), entered_of_alone halone rfl, hend]
        rw [entered_of_alone halone rfl] at hg
        refine Bool.and_eq_true_iff.mpr ⟨List.all_eq_true.mpr fun l hl => ?_, lanesLeft_of_leave (by rw [hv]; exact hg) hsp hpc hem rfl⟩
        rw [blockHas, finishIssue_blocks, lanesLeave_blocks, advance_blocks, hn]
        exact hheld l hl
  · cases hok

/-! ### LAUNCH (R48, R122, R123) -/

/-- Only halves of host lines, proxies and free values differ: what a bridge's part in a read changes (R165). -/
def BridgeOnly (s t : State) : Prop := ∃ H P F, t = { s with hostHalves := H, proxies := P, freeCtr := F }

theorem BridgeOnly.refl (s : State) : BridgeOnly s s := ⟨s.hostHalves, s.proxies, s.freeCtr, rfl⟩

theorem BridgeOnly.setHalf {s t : State} (h : BridgeOnly s t) (die line half : Nat) (x : Mesi) : BridgeOnly s (setHalf t die line half x) := by
  obtain ⟨H, P, F, rfl⟩ := h
  exact ⟨_, _, _, rfl⟩

theorem BridgeOnly.fetchHalves {s t : State} (h : BridgeOnly s t) (die line : Nat) : BridgeOnly s (fetchHalves t die line) := by
  refine forAll_keeps (BridgeOnly s) _ _ _ h fun half u hu => ?_
  dsimp only
  split
  · split
    · refine BridgeOnly.setHalf ?_ ..
      obtain ⟨H, P, F, rfl⟩ := hu
      exact ⟨_, _, _, rfl⟩
    · exact (forAll_keeps (BridgeOnly s) _ _ _ hu fun d v hv => hv.setHalf ..).setHalf ..
  · exact hu

theorem BridgeOnly.bridgeRead {s t : State} (h : BridgeOnly s t) (die pa n : Nat) (uncached : Bool) :
    BridgeOnly s (bridgeRead t die pa n uncached) := by
  unfold Machine.bridgeRead
  split
  · exact forAll_keeps (BridgeOnly s) _ _ _ h fun l u hu => hu.fetchHalves ..
  · exact h

theorem readBytes_congr {s t : State} (hm : t.mem = s.mem) (hg : t.groups = s.groups) (pa n : Nat) : readBytes t pa n = readBytes s pa n := by
  induction n generalizing pa with
  | zero => rfl
  | succ n ih =>
    rw [readBytes, readBytes, ih]
    have h : readByte t pa = readByte s pa := by
      unfold readByte State.byte
      rw [hm, hg]
    rw [h]

/-- What LAUNCH leaves at the core's interface: the records, by queue, and what the lanes have observed (R48). -/
def postingOf (s : State) (c : Ctx) (ps : List Nat) : Posting :=
  ⟨s.clk, c.si, slotOf c.gid, ps.map (fun p => (recordQueue (readBytes s p 64), readBytes s p 64)), observed s c.gid c.act⟩

/-- LAUNCH of a group in no pair, its checks passed, sends its records (R122, R48). -/
theorem launchBody_alone {vec : Bool} {xs : Ctx → List (Nat × LaneMask)} {c : Ctx} {s : State} {ps : List Nat} (hf : primaryFault s c = none)
    (hrole : roleOf s c = .alone) (hchecks : launchChecks (xs c) c s = .inr ps) (hrel : released s c.gid (splitLanes c.sp) 6 = true)
    (hheld : recordsHeld s c ps = false)
    (hroom : roomFor (forAll ps s (fun p s => bridgeRead s (dieOfGroup c.gid) p 64 false)) (dieOfGroup c.gid)
      (ps.map (fun p => recordQueue (readBytes s p 64))) = true) :
    ∃ v : State, launchBody vec xs c s = .done (v.setCore (coreOfGroup c.gid) (fun k => { k with launchBuf := k.launchBuf ++ [postingOf s c ps] }))
      ∧ v.groups = s.groups := by
  obtain ⟨H, P, F, hv⟩ : BridgeOnly s (forAll ps s (fun p s => bridgeRead s (dieOfGroup c.gid) p 64 false)) :=
    forAll_keeps (BridgeOnly s) _ _ _ (.refl s) fun p t ht => ht.bridgeRead ..
  have hdie : dieOfCore (coreOfGroup c.gid) = dieOfGroup c.gid := Nat.div_div_eq_div_mul ..
  rw [hv] at hroom
  have hread : ∀ p, readBytes { s with hostHalves := H, proxies := P, freeCtr := F } p 64 = readBytes s p 64 := fun p => readBytes_congr rfl rfl p 64
  have hrole' : roleOf { s with hostHalves := H, proxies := P, freeCtr := F } c = .alone := hrole
  refine ⟨{ s with hostHalves := H, proxies := P, freeCtr := F }, ?_, rfl⟩
  unfold launchBody
  simp only [mirrorFault, hf, hrole, hchecks, hrel, hheld, hv, afterCompare, actOnce, hrole', launchChildren, hdie, hread]
  simp only [List.map_map, Function.comp_def, id, hroom]
  rfl

theorem finishIssue_launchBuf (t : State) (c : Ctx) (i : Instr) (k : Nat) :
    ((finishIssue t c i []).core k).launchBuf = (t.core k).launchBuf := by
  unfold finishIssue
  obtain ⟨K, hK⟩ := keepSnap_eq (countIssue (noteInflight (earlyWrite t c.gid (refsOf i).2 []) c i) c (hdrOf i)) c
  rw [hK]
  simp only [State.core, countIssue, State.setGroup_cores, State.setCore_cores, Map.getD_put]
  split
  · next hk => subst hk; rfl
  · rfl

/-- LAUNCH and LAUNCH.lane run one body on the records that they name (R122). -/
theorem launch_runs {i : Instr} {s : State} {c : Ctx} {us : List (Nat × LaneMask)} (h : launchUnits i c = some us) :
    shoredAtIssue c i = [] ∧ ∃ vec xs, xs c = us ∧ exec i s = .next (runInstr i (actsAlways i) (launchBody vec xs) s) := by
  unfold launchUnits at h
  split at h
  · cases h
    exact ⟨rfl, _, _, rfl, rfl⟩
  · cases h
    exact ⟨rfl, _, _, rfl, rfl⟩
  · cases h

theorem launchClaim_completes {i : Instr} {s : State} {ok : State → Bool} (hok : launchClaim i s = some ok) :
    ∃ t, exec i s = .next t ∧ ok t = true := by
  simp only [launchClaim, Option.bind_eq_some_iff] at hok
  obtain ⟨c, e, us, hus, hok⟩ := hok
  obtain ⟨hshore, vec, xs, hxs, hx⟩ := launch_runs (s := s) hus
  obtain ⟨hg, hsp, hpc⟩ := entered_group e
  obtain ⟨-, -, -, -, -, -, -, hfault, -⟩ := ready_parts (readyCtx_some e).2
  split at hok
  · next ps hchecks =>
    split at hok
    · next hfit =>
      cases hok
      simp only [Bool.and_eq_true, beq_iff_eq, Bool.not_eq_true'] at hfit
      obtain ⟨⟨⟨halone, hrel⟩, hheld⟩, hroom⟩ := hfit
      have hent := entered_of_alone halone hshore
      rw [hent] at hchecks hrel hheld hroom hg
      simp only [List.map_map] at hroom
      obtain ⟨v, hbody, hv⟩ := launchBody_alone (vec := vec) (xs := xs) hfault halone (hxs ▸ hchecks) hrel hheld hroom
      refine ⟨_, hx, ?_⟩
      rw [runInstr_done e (by rw [hent]; exact hbody)]
      refine Bool.and_eq_true_iff.mpr ⟨?_, done_wentOn _ _ _ (by rw [splitIn, State.setCore_groups, hv, hg]; exact hsp) hpc⟩
      rw [finishIssue_launchBuf, hent]
      simp [State.core, advance, Map.getD_put, postingOf]
    · cases hok
  · cases hok

/-- Settles O9: REGROUP's continuations are held before its lanes leave, and LAUNCH's records join those at the core's interface. -/
theorem continuationsAndChildren : Obligations.ContinuationsAndChildren := by
  intro claim hclaim i s ok hok
  simp only [List.mem_cons, List.not_mem_nil, or_false] at hclaim
  rcases hclaim with rfl | rfl
  · exact regroupClaim_completes hok
  · exact launchClaim_completes hok

end Sys2Proof.Claims
end

/-! ## Entries between units, and a pair whose comparison is overdue -/

section
namespace Sys2Proof.Claims

open Sys2Proof.Machine

/-! ### Entries between units (R52) -/

/-- The entry that a number finds bears that number. -/
theorem id_of_entry? {s : State} {n : Nat} {e : QEntry} (h : s.entry? n = some e) : e.id = n := by
  simpa using List.find?_some h

/-- Once the entries of a number are gone, it finds none, and every other entry stays. -/
theorem dropEntry_keeps (s : State) (n : Nat) :
    (({ s with queue := s.queue.filter (fun f => f.id != n) } : State).entry? n).isNone = true
      ∧ s.queue.all (fun f => f.id == n || (s.queue.filter (fun f => f.id != n)).contains f) = true := by
  refine ⟨by simp [State.entry?], List.all_eq_true.mpr fun f hf => ?_⟩
  by_cases hn : f.id = n <;> simp [hn, hf]

/-- An entry's new state is what its number finds. -/
theorem entry?_setEntry {s : State} {n : Nat} {e : QEntry} (st : EntryState) (h : s.entry? n = some e) :
    (setEntry s n st).entry? n = some { e with state := st } := by
  have hid : ((fun f : QEntry => f.id == n) ∘ fun f => if f.id = n then { f with state := st } else f) = fun f => f.id == n := by
    funext f
    by_cases hf : f.id = n <;> simp [hf]
  rw [State.entry?] at h
  rw [State.entry?, setEntry, List.find?_map, hid, h, Option.map_some, if_pos (by simpa using List.find?_some h)]

/-- Every other entry is as it was. -/
theorem setEntry_keeps (s : State) (n : Nat) (st : EntryState) :
    s.queue.all (fun f => f.id == n || (setEntry s n st).queue.contains f) = true := by
  refine List.all_eq_true.mpr fun f hf => ?_
  by_cases hn : f.id = n
  · simp [hn]
  · simp only [setEntry, Bool.or_eq_true, List.contains_iff_mem, List.mem_map]
    exact .inr ⟨f, hf, if_neg hn⟩

/-- What an acknowledgement of an entry that stands in the queue leaves. -/
def ackAnswer (s : State) (n : Nat) (full : Bool) (e : QEntry) : State :=
  let acked : State := { s with queue := s.queue.filter (fun f => f.id != n) }
  match e.payload with
  | .peer _ => if !entryDue s e then s else if full then refuseEntry s e else acked
  | _ => if e.state = .accepted then acked else s

theorem queueEntryAck_some {s : State} {n : Nat} {full : Bool} {e : QEntry} (h : s.entry? n = some e) :
    exec (.queueEntryAck ⟨n, full⟩) s = .next (ackAnswer s n full e) := by
  show execQueueEntryAck ⟨n, full⟩ s = _
  simp only [execQueueEntryAck, h]
  rfl

theorem queueEntryAck_completes {ok : State → Bool} {a : EntryAck} {s : State} (hok : linkClaim (.queueEntryAck a) s = some ok) :
    ∃ t, exec (.queueEntryAck a) s = .next t ∧ ok t = true := by
  obtain ⟨n, full⟩ := a
  obtain ⟨e, he, hok⟩ := Option.bind_eq_some_iff.mp hok
  refine ⟨_, queueEntryAck_some he, ?_⟩
  have hdrop := Bool.and_eq_true_iff.mpr (dropEntry_keeps s n)
  cases hp : e.payload
  case peer x =>
    simp only [hp, if_true, Bool.true_and, Bool.and_eq_true, Bool.not_eq_true'] at hok
    by_cases hdue : entryDue s e = true
    · cases full
      · simp only [hdue, and_self, if_true] at hok
        cases hok
        simpa [ackAnswer, hp, hdue] using hdrop
      · simp only [hdue, Bool.true_eq_false, and_false, if_true, if_false] at hok
        cases hok
        have h : ackAnswer s n true e = setEntry s n (.nacked s.clk) := by simp [ackAnswer, hp, hdue, refuseEntry, id_of_entry? he]
        rw [h]
        exact Bool.and_eq_true_iff.mpr ⟨by simp [entry?_setEntry _ he], setEntry_keeps s n _⟩
    · simp [hdue] at hok
  all_goals
    by_cases hacc : e.state = .accepted
    · simp only [hp, hacc, Bool.false_eq_true, if_false, beq_self_eq_true, if_true] at hok
      cases hok
      simpa [ackAnswer, hp, hacc] using hdrop
    · simp [hp, hacc] at hok

theorem queueNackResend_completes {ok : State → Bool} {n : Nat} {s : State} (hok : linkClaim (.queueNackResend n) s = some ok) :
    ∃ t, exec (.queueNackResend n) s = .next t ∧ ok t = true := by
  refine ⟨_, rfl, ?_⟩
  obtain ⟨e, he, hok⟩ := Option.bind_eq_some_iff.mp hok
  cases hst : e.state <;> simp only [hst, reduceCtorEq] at hok
  case nacked c =>
    split at hok
    · next hlate =>
      cases hok
      simp only [decide_eq_true_eq] at hlate
      simp only [he, hst, if_neg (Nat.not_lt.mpr hlate)]
      refine List.all_eq_true.mpr fun f hf => ?_
      rw [List.contains_iff_mem]
      exact List.mem_map_of_mem (f := fun f => if f.core == e.core && f.dest == e.dest && decide (e.seq ≤ f.seq) && f.state != .accepted then
        { f with state := .sent } else f) hf
    · cases hok

theorem linkClaim_completes {ok : State → Bool} {i : Instr} {s : State} (hok : linkClaim i s = some ok) :
    ∃ t, exec i s = .next t ∧ ok t = true := by
  cases i
  case queueEntryAck a => exact queueEntryAck_completes hok
  case queueNackResend n => exact queueNackResend_completes hok
  all_goals cases hok

/-! ### A comparison that is overdue (R333, R334) -/

@[simp] theorem rewind_blocks (s : State) (gid n : Nat) : (rewind s gid n).blocks = s.blocks := by
  unfold rewind
  split <;> rfl

@[simp] theorem rewind_launches (s : State) (gid n : Nat) : (rewind s gid n).launches = s.launches := by
  unfold rewind
  split <;> rfl

/-- The other groups do not go back. -/
theorem rewind_other (s : State) {gid n k : Nat} (h : gid ≠ k) : (rewind s gid n).groups.get? k = s.groups.get? k := by
  unfold rewind
  split
  · rfl
  · simp [State.setGroup, Map.get?_modify_ne _ _ h]

/-- A primary that goes back has the block, the splits, the tasks and the handler that it had when it issued its n-th instruction. -/
theorem rewind_group {s : State} {gid n : Nat} {g : Group} (hg : s.groups.get? gid = some g) :
    ∃ p, (rewind s gid n).groups.get? gid = some p ∧ p.blk = ((snapOf s gid n).getD g).blk ∧ p.splits = ((snapOf s gid n).getD g).splits
      ∧ p.tasks = ((snapOf s gid n).getD g).tasks ∧ p.handler = ((snapOf s gid n).getD g).handler
      ∧ p.tvec = ((snapOf s gid n).getD g).tvec := by
  cases hk : snapOf s gid n with
  | none => exact ⟨g, by simp [rewind, hk, hg]⟩
  | some k => simp [rewind, hk, hg, State.setGroup]

/-- A group that runs no task has no lane that runs speculatively. -/
theorem anySpec_of_no_tasks (s : State) {g : Group} (m : LaneMask) (h : g.tasks = []) : anySpec s g m = false := by
  simp [anySpec, laneSpec, taskOfLane, h]

/-- Being a primary is a matter of a group's block and its launch. -/
theorem isPrimary_congr {s t : State} {g h : Group} (gid : Nat) (hb : t.blocks = s.blocks) (hl : t.launches = s.launches)
    (hblk : h.blk = g.blk) : isPrimary t gid h = isPrimary s gid g := by
  simp only [isPrimary, isChecked, State.groupLaunch, State.blockOf, hblk, hb]
  unfold State.launchOf
  rw [hl]

theorem depthOf_congr {s t : State} {g h : Group} (hb : t.blocks = s.blocks) (hblk : h.blk = g.blk) : depthOf t h = depthOf s g := by
  simp [depthOf, State.blockOf, hb, hblk]

/-- Outside levels, tasks and the handler, a fault of a primary makes its whole pair enter the handler (R281, R284). -/
theorem takeFaultAt_enters {t : State} {gid si : Nat} {p : Group} {sp : Split} (c : Cause) (v : Dword) (m : LaneMask)
    (hp : t.groups.get? gid = some p) (hprim : isPrimary t gid p = true) (hdepth : depthOf t p = 0) (htasks : p.tasks = [])
    (hhandler : p.handler = false) (htvec : p.tvec ≠ 0) (hsp : p.splits.get? si = some sp) :
    takeFaultAt t gid si false c v m
      = (t.setGroup gid (fun g => enterSplit g si false c v)).setGroup (gid + 32) (fun g => enterSplit g si false c v) := by
  have hno : (lanesOf m).find? (laneFrontier t p) = none := by simp [laneFrontier, taskOfLane, htasks]
  have hprim' : isPrimary (t.setGroup gid fun g => enterSplit g si false c v) gid p = true :=
    (isPrimary_congr gid rfl rfl rfl).trans hprim
  have htvec' : (p.tvec == 0) = false := beq_eq_false_iff_ne.mpr htvec
  simp only [takeFaultAt, enterHandler, hp, anySpec_of_no_tasks t m htasks, hdepth, hno, hhandler, htvec', hsp, hprim', Nat.lt_irrefl,
    Bool.false_eq_true, false_and, if_true, if_false, Option.isNone_some, Bool.or_false]

/-- What a group that has entered the handler for SHADOW_MISMATCH shows. -/
def atMismatch (x : Group) (v : Dword) (pc : CodeAddr) : Bool :=
  x.handler && !x.causeEngine && x.cause == Cause.shadowMismatch.code && x.eval == v && x.epc == pc

theorem atMismatch_enterSplit {g : Group} {si : Nat} {sp : Split} (v : Dword) (h : g.splits.get? si = some sp) :
    atMismatch (enterSplit g si false .shadowMismatch v) v sp.pc = true := by
  simp [atMismatch, enterSplit, h]

/-- Both groups of a pair that stand alike show that they have entered the handler. -/
theorem takeFaultAt_pair {t : State} {gid si : Nat} {p q : Group} {sp : Split} (v : Dword) (m : LaneMask)
    (hp : t.groups.get? gid = some p) (hq : t.groups.get? (gid + 32) = some q) (hprim : isPrimary t gid p = true) (hdepth : depthOf t p = 0)
    (htasks : p.tasks = []) (hhandler : p.handler = false) (htvec : p.tvec ≠ 0) (hsp : p.splits.get? si = some sp)
    (hsq : q.splits.get? si = some sp) :
    [gid, gid + 32].all (fun k => ((takeFaultAt t gid si false .shadowMismatch v m).groups.get? k).any (fun x => atMismatch x v sp.pc)) = true
      ∧ (takeFaultAt t gid si false .shadowMismatch v m).accs = t.accs := by
  have h32 : gid + 32 ≠ gid := by omega
  rw [takeFaultAt_enters _ _ _ hp hprim hdepth htasks hhandler htvec hsp]
  refine ⟨?_, rfl⟩
  simp [State.setGroup, Map.get?_modify, hp, hq, atMismatch_enterSplit _ hsp, atMismatch_enterSplit _ hsq]

/-- The results that a primary awaits from what it has presented and its shadow has not compared. -/
def uncompared (s : State) (gid : Nat) : List Nat :=
  (s.toks.filter (fun p => p.2.gid == gid && s.cmps.any (fun c => c.gid == gid && c.n == p.2.n))).map (·.1)

/-- A primary that awaits none of them. -/
def settledPrimary (s : State) (gid : Nat) (p : Group) : Group := { p with pend := p.pend.filter (fun x => !(uncompared s gid).contains x.tok) }

/-- The machine once a primary stands at its boundary and nothing that it has not compared is left. -/
def pairBack (s : State) (gid : Nat) (p : Group) : State :=
  let back := s.setGroup gid (fun _ => settledPrimary s gid p)
  State.setGroup { back with toks := back.toks.filter (fun p => !(uncompared s gid).contains p.1),
                             accs := back.accs.filter (fun a => !(a.gid == some gid && a.cmp.isSome)),
                             cmps := back.cmps.filter (fun c => c.gid != gid), snaps := back.snaps.filter (fun k => k.gid != gid) }
    gid (fun g => { g with faultWait := none })

/-- The shadow's copy of its primary. -/
def copied (p : Group) : Group := { p with results := [], sampled := [] }

/-- The shadow takes a copy of its primary. -/
def shadowCopies (t : State) (gid : Nat) (p : Group) : State :=
  { t with groups := t.groups.map (fun x => if x.1 = gid + 32 then (x.1, copied p) else x) }

/-- A mismatch is taken by the pair, or fails the innermost level, from there. -/
theorem shadowMismatch_back {s : State} {gid n si : Nat} {p : Group} (what lane : Nat) (m : LaneMask)
    (hp : (rewind s gid n).groups.get? gid = some p) :
    let t := pairBack (rewind s gid n) gid p
    let q := settledPrimary (rewind s gid n) gid p
    let v := BitVec.ofNat 64 (what + lane * 256)
    shadowMismatch s gid n si what lane m
      = if depthOf t q = 0 ∨ anySpec (rewind s gid n) p m = true then
          takeFaultAt (shadowCopies t gid q) gid si false .shadowMismatch v m
        else failLevel t q.blk (depthOf t q) false 0x0B v (((q.splits.get? si).map (·.pc)).getD 0) q.index := by
  simp only [shadowMismatch, hp]
  rfl

theorem pairBack_blocks (s : State) (gid : Nat) (p : Group) : (pairBack s gid p).blocks = s.blocks := rfl

theorem pairBack_group {s : State} {gid : Nat} {g p : Group} (hg : s.groups.get? gid = some g) :
    (pairBack s gid p).groups.get? gid = some { settledPrimary s gid p with faultWait := none } := by
  simp [pairBack, State.setGroup, hg]

theorem pairBack_other {s : State} {gid k : Nat} (p : Group) (h : gid ≠ k) : (pairBack s gid p).groups.get? k = s.groups.get? k := by
  simp [pairBack, State.setGroup, Map.get?_modify_ne _ _ h]

theorem pairBack_accs (s : State) (gid : Nat) (p : Group) :
    (pairBack s gid p).accs.all (fun a => a.gid != some gid || a.cmp.isNone) = true := by
  refine List.all_eq_true.mpr fun a ha => ?_
  have hkept := (List.mem_filter.mp ha).2
  revert hkept
  cases a.cmp <;> simp

theorem shadowCopies_group (t : State) (gid k : Nat) (p : Group) :
    (shadowCopies t gid p).groups.get? k = (t.groups.get? k).map (fun g => if k = gid + 32 then copied p else g) := by
  rw [← Map.get?_mapVals t.groups (fun i g => if i = gid + 32 then copied p else g) k]
  simp only [shadowCopies]
  congr 2
  funext x
  split <;> rfl

/-- Outside levels and tasks both groups of the pair enter the handler, and nothing stays uncompared (R333). -/
theorem shadowMismatch_enters {s : State} {gid n si : Nat} {p sh : Group} {sp : Split} (what lane : Nat) (m : LaneMask)
    (hp : (rewind s gid n).groups.get? gid = some p) (hsh : s.groups.get? (gid + 32) = some sh)
    (hprim : isPrimary s gid p = true) (hdepth : depthOf s p = 0) (htasks : p.tasks = [])
    (hhandler : p.handler = false) (htvec : p.tvec ≠ 0) (hsp : p.splits.get? si = some sp) :
    ([gid, gid + 32].all (fun k => ((shadowMismatch s gid n si what lane m).groups.get? k).any
        (fun x => atMismatch x (BitVec.ofNat 64 (what + lane * 256)) sp.pc))
      && (shadowMismatch s gid n si what lane m).accs.all (fun a => a.gid != some gid || a.cmp.isNone)) = true := by
  have h32 : gid + 32 ≠ gid := by omega
  have hprimary : (pairBack (rewind s gid n) gid p).groups.get? gid = some { settledPrimary (rewind s gid n) gid p with faultWait := none } :=
    pairBack_group hp
  have hshadow : (pairBack (rewind s gid n) gid p).groups.get? (gid + 32) = some sh := by
    rw [pairBack_other p h32.symm, rewind_other s h32.symm, hsh]
  have hdepth' : depthOf (pairBack (rewind s gid n) gid p) (settledPrimary (rewind s gid n) gid p) = 0 :=
    (depthOf_congr (rewind_blocks s gid n) rfl).trans hdepth
  obtain ⟨hpair, haccs⟩ := takeFaultAt_pair (p := { settledPrimary (rewind s gid n) gid p with faultWait := none })
    (q := copied (settledPrimary (rewind s gid n) gid p)) (t := shadowCopies (pairBack (rewind s gid n) gid p) gid (settledPrimary (rewind s gid n) gid p))
    (BitVec.ofNat 64 (what + lane * 256)) m (by rw [shadowCopies_group, hprimary, Option.map_some, if_neg h32.symm])
    (by rw [shadowCopies_group, hshadow, Option.map_some, if_pos rfl])
    ((isPrimary_congr gid (rewind_blocks s gid n) (rewind_launches s gid n) rfl).trans hprim) hdepth' htasks hhandler htvec hsp hsp
  rw [shadowMismatch_back what lane m hp, if_pos (.inl hdepth'), hpair, haccs]
  exact pairBack_accs _ _ _

/-- Inside a level the innermost alternate fails (R334). -/
theorem shadowMismatch_fails {s : State} {gid n si : Nat} {p : Group} {b : Block} (what lane : Nat) (m : LaneMask)
    (hp : (rewind s gid n).groups.get? gid = some p) (hb : s.blocks.get? p.blk = some b) (hlevels : b.levels ≠ [])
    (hfailing : b.failing = none) (htasks : p.tasks = []) :
    blockHas (shadowMismatch s gid n si what lane m) p.blk (fun x => x.failing.any (fun f =>
      f.level == b.levels.length && f.code == Cause.shadowMismatch.code && f.value == BitVec.ofNat 64 (what + lane * 256))) = true := by
  have hlen : b.levels.length ≠ 0 := by simpa using hlevels
  have hb' : (pairBack (rewind s gid n) gid p).blocks.get? p.blk = some b := by rw [pairBack_blocks, rewind_blocks, hb]
  have hdepth : depthOf (pairBack (rewind s gid n) gid p) (settledPrimary (rewind s gid n) gid p) = b.levels.length := by
    simp [depthOf, State.blockOf, settledPrimary, hb']
  rw [shadowMismatch_back what lane m hp, if_neg (by simp [hdepth, hlen, anySpec_of_no_tasks _ _ htasks])]
  have hblk : (settledPrimary (rewind s gid n) gid p).blk = p.blk := rfl
  simp [failLevel, hdepth, hblk, hb', hfailing, blockHas, State.setBlock, Cause.code]

/-- What the claim asks of a mismatch at the primary's n-th instruction, in split `si`. -/
def mismatchClaim (s : State) (gid n si : Nat) (g : Group) (b : Block) (v : Dword) : Option (State → Bool) :=
  let back : Group := (snapOf s gid n).getD g
  if back.blk != g.blk then none
  else if b.levels.isEmpty then
    (back.splits.get? si).bind (fun sp => if back.handler || back.tvec == 0 || !back.tasks.isEmpty then none
      else some (fun t => [gid, gid + 32].all (fun k => (t.groups.get? k).any (fun x => atMismatch x v sp.pc))
        && t.accs.all (fun a => a.gid != some gid || a.cmp.isNone)))
  else if b.failing.isSome || !back.tasks.isEmpty then none
  else some (fun t => blockHas t g.blk (fun x => x.failing.any (fun f =>
    f.level == b.levels.length && f.code == Cause.shadowMismatch.code && f.value == v)))

theorem mismatchClaim_completes {ok : State → Bool} {s : State} {gid n si : Nat} {g sh : Group} {b : Block} (what lane : Nat) (m : LaneMask)
    (hg : s.groups.get? gid = some g) (hsh : s.groups.get? (gid + 32) = some sh) (hb : s.blocks.get? g.blk = some b)
    (hprim : isPrimary s gid g = true) (hok : mismatchClaim s gid n si g b (BitVec.ofNat 64 (what + lane * 256)) = some ok) :
    ok (shadowMismatch s gid n si what lane m) = true := by
  obtain ⟨p, hp, hblk, hsplits, htasks, hhandler, htvec⟩ := rewind_group (n := n) hg
  simp only [mismatchClaim, ← hblk, ← hsplits, ← htasks, ← hhandler, ← htvec] at hok
  split at hok
  · cases hok
  · next hsame =>
    have hsame : p.blk = g.blk := by simpa using hsame
    split at hok
    · next hlevels =>
      obtain ⟨sp, hsp, hok⟩ := Option.bind_eq_some_iff.mp hok
      split at hok
      · cases hok
      · next hfree =>
        cases hok
        simp only [Bool.or_eq_true, Bool.not_eq_true', not_or, Bool.not_eq_true, Bool.not_eq_false, beq_eq_false_iff_ne,
          List.isEmpty_iff] at hfree hlevels
        obtain ⟨⟨hh, htv⟩, ht⟩ := hfree
        have hdepth : depthOf s p = 0 := by simp [depthOf, State.blockOf, hsame, hb, hlevels]
        exact shadowMismatch_enters what lane m hp hsh ((isPrimary_congr gid rfl rfl hsame).trans hprim) hdepth ht hh htv hsp
    · next hlevels =>
      split at hok
      · cases hok
      · next hfree =>
        cases hok
        simp only [Bool.or_eq_true, Bool.not_eq_true', not_or, Bool.not_eq_true, Bool.not_eq_false, Option.isSome_eq_false_iff,
          Option.isNone_iff_eq_none, List.isEmpty_iff] at hfree hlevels
        exact hsame ▸ shadowMismatch_fails what lane m hp (hsame ▸ hb) hlevels hfree.1 hfree.2

theorem compareTimeoutClaim_completes {ok : State → Bool} {i : Instr} {s : State} (hok : compareTimeoutClaim i s = some ok) :
    ∃ t, exec i s = .next t ∧ ok t = true := by
  cases i
  case shadowCompareTimeout gid =>
    refine ⟨_, rfl, ?_⟩
    obtain ⟨g, hg, hok⟩ := Option.bind_eq_some_iff.mp hok
    obtain ⟨sh, hsh, hok⟩ := Option.bind_eq_some_iff.mp hok
    obtain ⟨b, hb, hok⟩ := Option.bind_eq_some_iff.mp hok
    have helim (o : Option Nat) : o.elim false (fun i => (sh.splits.get? i).isNone) = o.any (fun i => (sh.splits.get? i).isNone) := by
      cases o <;> rfl
    simp only [hg, hsh, helim, ← Bool.or_eq_true]
    split
    · next hquiet =>
      rw [if_pos hquiet] at hok
      cases hok
      exact beq_self_eq_true s
    · next hdue =>
      rw [if_neg hdue] at hok
      have hprim : isPrimary s gid g = true := by
        simp only [Bool.or_eq_true, not_or, Bool.not_eq_true', Bool.not_eq_false] at hdue
        exact hdue.1
      cases hw : s.cmps.filter (fun c => c.gid == gid) with
      | cons k ks =>
        simp only [hw] at hok
        exact mismatchClaim_completes _ _ _ hg hsh hb hprim hok
      | nil =>
        simp only [hw] at hok
        exact mismatchClaim_completes 6 0 _ hg hsh hb hprim hok
  all_goals cases hok

/-- Settles O26: entries are acknowledged, refused or sent again in place, and an overdue comparison sends its pair to the handler or fails
the level. -/
theorem linksAndPairs : Obligations.LinksAndPairs := by
  intro claim hclaim i s ok hok
  simp only [List.mem_cons, List.not_mem_nil, or_false] at hclaim
  rcases hclaim with rfl | rfl
  · exact linkClaim_completes hok
  · exact compareTimeoutClaim_completes hok

end Sys2Proof.Claims
end

/-! ## Results arrive, groups form and end, and the guard against starvation -/

section
namespace Sys2Proof.Claims

open Sys2Proof.Machine

/-! ### A formed group without continuations (R46) -/

/-- The machine reaches a next state, and that state is not as the claim says. -/
def fallsShort (claim : Instr → State → Option (State → Bool)) (i : Instr) (s : State) : Bool :=
  match claim i s, exec i s with
  | some ok, .next t => !ok t
  | _, _ => false

/-- One instruction that falls short of one of the claims is enough. -/
theorem not_completes_of_fallsShort {claims : List (Instr → State → Option (State → Bool))} {claim : Instr → State → Option (State → Bool)}
    {i : Instr} {s : State} (hmem : claim ∈ claims) (h : fallsShort claim i s = true) : ¬ Completes claims := by
  intro hall
  unfold fallsShort at h
  split at h
  · next ok t hok ht =>
    obtain ⟨t', ht', hok'⟩ := hall claim hmem i s ok hok
    cases ht.symm.trans ht'
    simp [hok'] at h
  · cases h

/-- A block of a launch with regrouping whose former has formed one group, of no continuation at all, which waits for the free slot. -/
def emptyFormed : State := { Tests.blk (fun b => { b with formed := [(741, [])] }) Tests.regrouping with groups := [] }

/-- Refutes O23: where a formed group of no continuation waits for a slot, FORMED_GROUP_PLACE places a group whose one split has a PC,
and not the PC of a first continuation, which the claim asks for. -/
theorem not_groupEvents : ¬ Obligations.GroupEvents :=
  not_completes_of_fallsShort (i := .formedGroupPlace 0) (s := emptyFormed) (List.mem_singleton.mpr rfl) (by decide +kernel)

end Sys2Proof.Claims
end

/-! ## Blocks end, are placed and start together -/

section
namespace Sys2Proof.Claims

open Sys2Proof.Machine

/-! ### A reservation without scratch bases (R50) -/

/-- A gang of two clusters that holds core 3 for the first of them, with no scratch base noted for that core. -/
def baselessReserve : State := { Tests.gang with reserves := [⟨0, 0, [([3], 5, [])]⟩] }

/-- Refutes O24: a gang that reserves its last cluster is placed, but the block of a core with no scratch base noted is not, and the claim asks
for a block on every reserved core. -/
theorem not_blockEvents : ¬ Obligations.BlockEvents :=
  not_completes_of_fallsShort (i := .dispatchDecision [([4], 0)]) (s := baselessReserve) (List.mem_singleton.mpr rfl) (by decide +kernel)

end Sys2Proof.Claims
end

/-! ## What a collective engine's reads change -/

section
namespace Sys2Proof.Claims

open Sys2Proof.Machine

/-! ### What an engine's reads change (R159, R165, R199) -/

/-- Nothing differs but what a read notes: corrected errors, the bridge's record of host lines, cached translations and free values. -/
def LooksOnly (s t : State) : Prop := ∃ D H P F T, t = { s with dies := D, hostHalves := H, proxies := P, freeCtr := F, tlb := T }

theorem LooksOnly.refl (s : State) : LooksOnly s s := ⟨s.dies, s.hostHalves, s.proxies, s.freeCtr, s.tlb, rfl⟩

theorem LooksOnly.trans {s t u : State} (h : LooksOnly s t) (k : LooksOnly t u) : LooksOnly s u := by
  obtain ⟨_, _, _, _, _, rfl⟩ := h
  obtain ⟨_, _, _, _, _, rfl⟩ := k
  exact ⟨_, _, _, _, _, rfl⟩

theorem LooksOnly.of_bridge {s t : State} (h : BridgeOnly s t) : LooksOnly s t := by
  obtain ⟨_, _, _, rfl⟩ := h
  exact ⟨s.dies, _, _, _, s.tlb, rfl⟩

theorem looksOnly_bridgeRead (s : State) (die pa n : Nat) (uncached : Bool) : LooksOnly s (bridgeRead s die pa n uncached) :=
  .of_bridge (BridgeOnly.bridgeRead (.refl s) ..)

theorem looksOnly_mayCorrect (s : State) (pa : Nat) : LooksOnly s (mayCorrect s pa) := by
  unfold mayCorrect
  cases placeOf pa with
  | hbm d => exact ⟨_, _, _, _, _, rfl⟩
  | lpddr d => exact ⟨_, _, _, _, _, rfl⟩
  | window => exact ⟨_, _, _, _, _, rfl⟩
  | host => exact .refl s
  | none => exact .refl s

theorem looksOnly_foldl {α : Type} (f : State → α → State) (hf : ∀ t x, LooksOnly t (f t x)) (l : List α) (s : State) :
    LooksOnly s (l.foldl f s) := by
  induction l generalizing s with
  | nil => exact .refl s
  | cons x l ih => exact (hf s x).trans (ih _)

/-- A walk's reads, one entry after the other. -/
def walkReads (die : Nat) (seen : List Nat) (s : State) : State := seen.foldl (fun s a => mayCorrect (bridgeRead s die a 8 false) a) s

theorem looksOnly_walkReads (die : Nat) (seen : List Nat) (s : State) : LooksOnly s (walkReads die seen s) :=
  looksOnly_foldl _ (fun t _ => (looksOnly_bridgeRead t ..).trans (looksOnly_mayCorrect ..)) seen s

theorem LooksOnly.draws {s t : State} (h : LooksOnly s t) (n : Nat) : LooksOnly s { t with freeCtr := n } :=
  h.trans ⟨t.dies, t.hostHalves, t.proxies, n, t.tlb, rfl⟩

theorem LooksOnly.caches {s t : State} (h : LooksOnly s t) (m : List Tlb) : LooksOnly s { t with tlb := m } :=
  h.trans ⟨t.dies, t.hostHalves, t.proxies, t.freeCtr, m, rfl⟩

theorem looksOnly_translate (s : State) (die pasid : Nat) (n : Need) (va : Nat) : LooksOnly s (Machine.translate s die pasid n va).2 := by
  unfold Machine.translate
  split
  · exact .refl s
  · dsimp only
    generalize walkBoth s _ _ _ _ _ = w
    obtain ⟨w, seen⟩ := w
    have hdraw : LooksOnly s (if (seen.any fun a => changedSince s (settledAt s pasid va) a 8) = true then { s with freeCtr := s.freeCtr + 64 } else s) := by
      split
      · exact (LooksOnly.refl s).draws _
      · exact .refl s
    dsimp only
    generalize (if (seen.any fun a => changedSince s (settledAt s pasid va) a 8) = true then { s with freeCtr := s.freeCtr + 64 } else s) = u at hdraw ⊢
    have hwalk (v : State) (hv : LooksOnly s v) : LooksOnly s (walkReads die seen v) := hv.trans (looksOnly_walkReads die seen v)
    cases tlbHit u pasid va with
    | none =>
      cases w with
      | leaf => exact (hwalk u hdraw).caches _
      | page => exact hwalk u hdraw
      | access => exact hwalk u hdraw
    | some e =>
      dsimp only
      split
      · exact hdraw
      · split
        · exact hdraw.draws _
        · exact hwalk _ (hdraw.draws _)

theorem looksOnly_spanTranslate (s : State) (die pasid : Nat) (need : Need) (ps : List (Nat × Nat)) :
    LooksOnly s (spanTranslate s die pasid need ps).2 := by
  induction ps generalizing s with
  | nil => exact .refl s
  | cons p ps ih =>
    unfold spanTranslate
    have ht := looksOnly_translate s die pasid need p.1
    split
    · exact ih s
    · split
      · next hr => rw [hr] at ht; exact ht.trans (ih _)
      · next hr => rw [hr] at ht; exact ht

theorem looksOnly_afterLoad (s : State) (a : Acc) : LooksOnly s (afterLoad s a) := by
  unfold afterLoad
  split
  · exact (LooksOnly.refl s).draws _
  · exact .refl s

theorem looksOnly_collRead (s : State) (id : Nat) (k : Coll) (e : Nat) (ps : List (Nat × Nat × Nat)) : LooksOnly s (collRead s id k e ps).2 := by
  unfold collRead
  generalize collLoads s id k e ps = as
  generalize ([] : List Byte) = bs
  induction as generalizing s bs with
  | nil => exact .refl s
  | cons a as ih => exact ((looksOnly_afterLoad s a).trans ((looksOnly_bridgeRead ..).trans (looksOnly_mayCorrect ..))).trans (ih _ _)

theorem looksOnly_mappedParts (s : State) (die pasid : Nat) (need : Need) (ps : List (Nat × Nat)) :
    LooksOnly s (mappedParts s die pasid need ps).2 := by
  unfold mappedParts
  generalize ([] : List (Nat × Nat × Nat)) = l
  induction ps generalizing s l with
  | nil => exact .refl s
  | cons p ps ih =>
    rw [List.foldl_cons]
    have ht := looksOnly_spanTranslate s die pasid need [p]
    dsimp only
    split
    · next hr => rw [hr] at ht; exact ht.trans (ih _ _)
    · next hr => rw [hr] at ht; exact ht.trans (ih _ _)

/-! ### The engine's own books are no part of what it reads -/

/-- The machine with other collectives and cores. -/
def withEngine (X : Map Coll) (Y : Map Core) (s : State) : State := { s with colls := X, cores := Y }

theorem readNat_withEngine (X : Map Coll) (Y : Map Core) (s : State) (pa n : Nat) : readNat (withEngine X Y s) pa n = readNat s pa n := by
  unfold readNat
  rw [readBytes_congr (s := s) (t := withEngine X Y s) rfl rfl]

theorem openNat_withEngine (X : Map Coll) (Y : Map Core) (s : State) (k pa n draw : Nat) :
    openNat (withEngine X Y s) k pa n draw = openNat s k pa n draw := by
  unfold openNat
  rw [readNat_withEngine]
  rfl

theorem walk_withEngine (X : Map Coll) (Y : Map Core) (s : State) (k draw : Nat) (via : Nat → Nat → Tr × List Nat) (va : Nat)
    (ls : List (Nat × Nat × Nat)) (node : Nat) : walk (withEngine X Y s) k draw via va ls node = walk s k draw via va ls node := by
  induction ls generalizing node with
  | nil => rfl
  | cons l ls ih => simp only [walk, openNat_withEngine, ih]

theorem stage2_withEngine (X : Map Coll) (Y : Map Core) (s : State) (k draw root ipa : Nat) :
    stage2 (withEngine X Y s) k draw root ipa = stage2 s k draw root ipa := by
  simp only [stage2, walk_withEngine]

theorem walkBoth_withEngine (X : Map Coll) (Y : Map Core) (s : State) (k draw pasid : Nat) (n : Need) (va : Nat) :
    walkBoth (withEngine X Y s) k draw pasid n va = walkBoth s k draw pasid n va := by
  simp only [walkBoth, walk_withEngine, stage2_withEngine]
  rfl

end Sys2Proof.Claims
end

/-! ## An engine's reads beside other books of its own -/

section
namespace Sys2Proof.Claims

open Sys2Proof.Machine

theorem forAll_withEngine {α : Type} (X : Map Coll) (Y : Map Core) (f : α → State → State)
    (hf : ∀ x s, f x (withEngine X Y s) = withEngine X Y (f x s)) (l : List α) (s : State) :
    forAll l (withEngine X Y s) f = withEngine X Y (forAll l s f) := by
  induction l generalizing s with
  | nil => rfl
  | cons x l ih =>
    show forAll l (f x (withEngine X Y s)) f = withEngine X Y (forAll l (f x s) f)
    rw [hf, ih]

theorem setHalf_withEngine (X : Map Coll) (Y : Map Core) (s : State) (die line half : Nat) (x : Mesi) :
    setHalf (withEngine X Y s) die line half x = withEngine X Y (setHalf s die line half x) := rfl

theorem fetchHalves_withEngine (X : Map Coll) (Y : Map Core) (s : State) (die line : Nat) :
    fetchHalves (withEngine X Y s) die line = withEngine X Y (fetchHalves s die line) := by
  refine forAll_withEngine X Y _ (fun h u => ?_) _ s
  have hhalf (d l h : Nat) : hostHalf (withEngine X Y u) d l h = hostHalf u d l h := rfl
  simp only [hhalf]
  split
  · split
    · rfl
    · rw [forAll_withEngine X Y _ (fun d v => setHalf_withEngine X Y v d line h .s), setHalf_withEngine]
  · rfl

theorem bridgeRead_withEngine (X : Map Coll) (Y : Map Core) (s : State) (die pa n : Nat) (uncached : Bool) :
    bridgeRead (withEngine X Y s) die pa n uncached = withEngine X Y (bridgeRead s die pa n uncached) := by
  have hb : bridged (withEngine X Y s) pa = bridged s pa := rfl
  unfold bridgeRead
  rw [hb]
  split
  · exact forAll_withEngine X Y _ (fun l u => fetchHalves_withEngine X Y u die l) _ s
  · rfl

theorem mayCorrect_withEngine (X : Map Coll) (Y : Map Core) (s : State) (pa : Nat) :
    mayCorrect (withEngine X Y s) pa = withEngine X Y (mayCorrect s pa) := by
  unfold mayCorrect
  cases placeOf pa <;> rfl

theorem walkReads_withEngine (X : Map Coll) (Y : Map Core) (die : Nat) (seen : List Nat) (s : State) :
    walkReads die seen (withEngine X Y s) = withEngine X Y (walkReads die seen s) := by
  unfold walkReads
  induction seen generalizing s with
  | nil => rfl
  | cons a seen ih => rw [List.foldl_cons, List.foldl_cons, bridgeRead_withEngine, mayCorrect_withEngine, ih]

/-- A result and the machine that it comes with, in which the engine's books are others. -/
def alongside {α : Type} (X : Map Coll) (Y : Map Core) (r : α × State) : α × State := (r.1, withEngine X Y r.2)

theorem translate_withEngine (X : Map Coll) (Y : Map Core) (s : State) (die pasid : Nat) (n : Need) (va : Nat) :
    Machine.translate (withEngine X Y s) die pasid n va = alongside X Y (Machine.translate s die pasid n va) := by
  unfold Machine.translate
  split
  · rfl
  · have hw (seen : List Nat) (u : State) := walkReads_withEngine X Y die seen u
    have hset : settledAt (withEngine X Y s) pasid va = settledAt s pasid va := rfl
    have hctr : (withEngine X Y s).freeCtr = s.freeCtr := rfl
    have hchanged (k a : Nat) : changedSince (withEngine X Y s) k a 8 = changedSince s k a 8 := rfl
    simp only [hset, hctr, walkBoth_withEngine, hchanged]
    generalize walkBoth s _ _ _ _ _ = w
    obtain ⟨w, seen⟩ := w
    have hdraw : (if (seen.any fun a => changedSince s (settledAt s pasid va) a 8) = true then { withEngine X Y s with freeCtr := s.freeCtr + 64 }
          else withEngine X Y s)
        = withEngine X Y (if (seen.any fun a => changedSince s (settledAt s pasid va) a 8) = true then { s with freeCtr := s.freeCtr + 64 } else s) := by
      split <;> rfl
    dsimp only
    rw [hdraw]
    generalize (if (seen.any fun a => changedSince s (settledAt s pasid va) a 8) = true then { s with freeCtr := s.freeCtr + 64 } else s) = u
    have htlb : tlbHit (withEngine X Y u) pasid va = tlbHit u pasid va := rfl
    have hfold (v : State) : seen.foldl (fun s a => mayCorrect (bridgeRead s die a 8 false) a) v = walkReads die seen v := rfl
    rw [htlb]
    simp only [hfold, hw]
    cases tlbHit u pasid va with
    | none =>
      cases w with
      | leaf => rfl
      | page => rfl
      | access => rfl
    | some e =>
      dsimp only
      split
      · rfl
      · have hfree : (withEngine X Y u).freeBool = (u.freeBool.1, withEngine X Y u.freeBool.2) := rfl
        simp only [hfree, hw]
        split <;> rfl

theorem spanTranslate_withEngine (X : Map Coll) (Y : Map Core) (s : State) (die pasid : Nat) (need : Need) (ps : List (Nat × Nat)) :
    spanTranslate (withEngine X Y s) die pasid need ps = alongside X Y (spanTranslate s die pasid need ps) := by
  induction ps generalizing s with
  | nil => rfl
  | cons p ps ih =>
    simp only [spanTranslate, translate_withEngine]
    split
    · exact ih s
    · obtain ⟨r, v⟩ := Machine.translate s die pasid need p.1
      cases r with
      | ok pa u =>
        simp only [alongside, ih]
      | page i st => rfl
      | access => rfl

/-! ### What the engine can read now -/

theorem sameSide_withEngine (X : Map Coll) (Y : Map Core) (s : State) (a b : Nat) : sameSide (withEngine X Y s) a b = sameSide s a b := by
  simp only [sameSide, readNat_withEngine]
  rfl

theorem claimedByOther_withEngine (X : Map Coll) (Y : Map Core) (s : State) (blk : Option Nat) (pa n : Nat) :
    claimedByOther (withEngine X Y s) blk pa n = claimedByOther s blk pa n := by
  simp only [claimedByOther, sameSide_withEngine]
  rfl

/-- The bays of every core are the same. -/
def SameBays (Y : Map Core) (s : State) : Prop := ∀ c, (Y.getD c Core.reset).bays = (s.core c).bays

theorem windowHeld_withEngine {X : Map Coll} {Y : Map Core} {s : State} (h : SameBays Y s) (blk : Option Nat) (pa n : Nat) :
    windowHeld (withEngine X Y s) blk pa n = windowHeld s blk pa n := by
  have hbay (c b : Nat) : (withEngine X Y s).bay c b = s.bay c b := by
    show ((Y.getD c Core.reset).bays.getD b Bay.free) = (s.core c).bays.getD b Bay.free
    rw [h c]
  simp only [windowHeld, sameSide_withEngine, hbay]
  rfl

theorem heldAtHome_withEngine {X : Map Coll} {Y : Map Core} {s : State} (h : SameBays Y s) (a : Acc) :
    heldAtHome (withEngine X Y s) a = heldAtHome s a := by
  unfold heldAtHome
  rw [claimedByOther_withEngine, windowHeld_withEngine h]
  rfl

theorem sourceOf_withEngine (X : Map Coll) (Y : Map Core) (s : State) (a : Acc) (pa : Nat) :
    sourceOf (withEngine X Y s) a pa = sourceOf s a pa := by
  have haside (w : Acc) : setAside (withEngine X Y s) a w pa = setAside s a w pa := by
    unfold setAside
    rw [claimedByOther_withEngine]
    rfl
  simp only [sourceOf, haside]
  rfl

theorem awaitsClaim_withEngine (X : Map Coll) (Y : Map Core) (s : State) (a w : Acc) :
    awaitsClaim (withEngine X Y s) a w = awaitsClaim s a w := by
  have hside (b : Acc) : oneSide (withEngine X Y s) a b = oneSide s a b := by
    simp only [oneSide, sameSide_withEngine]
  simp only [awaitsClaim, hside]
  rfl

theorem sourcesKnown_withEngine (X : Map Coll) (Y : Map Core) (s : State) (a : Acc) :
    sourcesKnown (withEngine X Y s) a = sourcesKnown s a := by
  simp only [sourcesKnown, sourceOf_withEngine, awaitsClaim_withEngine]

/-- Whether a span can be read is a matter of its parts, of the die and of the block. -/
theorem collReady_withEngine {X : Map Coll} {Y : Map Core} {s : State} (h : SameBays Y s) (id e : Nat) {k k' : Coll} (ps : List (Nat × Nat × Nat))
    (hdie : k'.die = k.die) (hblk : k'.blk = k.blk) : collReady (withEngine X Y s) id k' e ps = collReady s id k e ps := by
  have hloads : collLoads (withEngine X Y s) id k' e ps = collLoads s id k e ps := by
    simp only [collLoads, collAcc, hdie, hblk]
    rfl
  simp only [collReady, hloads, sourcesKnown_withEngine, heldAtHome_withEngine h]

end Sys2Proof.Claims
end

/-! ## What a posted page fault leaves of a collective -/

section
namespace Sys2Proof.Claims

open Sys2Proof.Machine

/-! ### What a step outside the engine leaves of collectives (R226, R229) -/

/-- A collective is as it was, unless it had not been accepted and its group has ended. -/
def LeftAlone (k x : Coll) : Prop := x = k ∨ (k.accepted = false ∧ ∃ g o n d, x = { k with gid := g, obs := o, gs := n, discarded := d })

theorem LeftAlone.trans {k x y : Coll} (h : LeftAlone k x) (j : LeftAlone x y) : LeftAlone k y := by
  rcases h with rfl | ⟨hk, g, o, n, d, rfl⟩
  · exact j
  · rcases j with rfl | ⟨-, g', o', n', d', rfl⟩
    · exact .inr ⟨hk, g, o, n, d, rfl⟩
    · exact .inr ⟨hk, g', o', n', d', rfl⟩

/-- The queues of the cores stand, and every collective is left alone. -/
def Spared (s₀ : State) (cores : Map Core) (colls : Map Coll) : Prop :=
  (∀ c, (cores.getD c Core.reset).collQ = (s₀.core c).collQ)
    ∧ ∀ id k, s₀.colls.get? id = some k → ∃ x, colls.get? id = some x ∧ LeftAlone k x

def Spares (s₀ t : State) : Prop := Spared s₀ t.cores t.colls

variable {s₀ s : State}

theorem Spares.refl (s : State) : Spares s s := ⟨fun _ => rfl, fun _ k hk => ⟨k, hk, .inl rfl⟩⟩

theorem spares_forAll {α : Type} {l : List α} {f : α → State → State} (h : Spares s₀ s) (hf : ∀ x t, Spares s₀ t → Spares s₀ (f x t)) :
    Spares s₀ (forAll l s f) := forAll_keeps (Spares s₀) l s f h hf

theorem spares_ite {c : Prop} [Decidable c] {a b : State} (ha : Spares s₀ a) (hb : Spares s₀ b) : Spares s₀ (if c then a else b) := by
  split
  · exact ha
  · exact hb

theorem spares_foldl {α : Type} {l : List α} {f : State → α → State} (h : Spares s₀ s) (hf : ∀ t x, Spares s₀ t → Spares s₀ (f t x)) :
    Spares s₀ (l.foldl f s) := by
  induction l generalizing s with
  | nil => exact h
  | cons x l ih => exact ih (hf s x h)

theorem spares_setCore (h : Spares s₀ s) (c : Nat) {f : Core → Core} (hf : (f (s.core c)).collQ = (s.core c).collQ) : Spares s₀ (s.setCore c f) := by
  refine ⟨fun j => ?_, h.2⟩
  rw [State.setCore, Map.getD_put]
  split
  · next hj => subst hj; exact hf.trans (h.1 c)
  · exact h.1 j

theorem spares_unbatch (h : Spares s₀ s) (t : Nat) : Spares s₀ (unbatch s t) := by
  refine ⟨fun j => ?_, h.2⟩
  rw [← h.1 j]
  unfold unbatch Map.getD
  dsimp only
  rw [Map.get?_mapVals s.cores (fun _ c => ({ c with prefetch :=
    (c.prefetch.map (fun b => { b with tasks := b.tasks.filter (· != t) })).filter (fun b => !b.tasks.isEmpty) } : Core)) j]
  cases Map.get? s.cores j <;> rfl

theorem leftAlone_leaveColl (s : State) (g : Group) {k : Coll} (hk : k.accepted = false) : LeftAlone k (leaveColl s g k) := by
  refine .inr ⟨hk, ?_⟩
  unfold leaveColl
  dsimp only
  split
  · exact ⟨_, _, _, _, rfl⟩
  · split
    · exact ⟨_, _, _, _, rfl⟩
    · exact ⟨_, _, _, _, rfl⟩

/-- Some collectives that the engine has not accepted are left behind. -/
theorem spared_left (h : Spares s₀ s) (s' : State) (g : Group) (drop : List Nat) :
    Spared s₀ s.cores (s.colls.map (fun p => if drop.contains p.2.gid ∧ !p.2.accepted then (p.1, leaveColl s' g p.2) else p)) := by
  refine ⟨h.1, fun id k hk => ?_⟩
  obtain ⟨x, hx, hkx⟩ := h.2 id k hk
  have hmap := Map.get?_mapVals s.colls (fun _ x => if drop.contains x.gid ∧ !x.accepted then leaveColl s' g x else x) id
  rw [hx, Option.map_some] at hmap
  refine ⟨if drop.contains x.gid ∧ !x.accepted then leaveColl s' g x else x, ?_, hkx.trans ?_⟩
  · rw [← hmap]
    congr 2
    funext p
    split <;> rfl
  · split
    · next hleft => exact leftAlone_leaveColl s' g (by simpa using hleft.2)
    · exact .inl rfl

/-- The end of a group leaves a collective of it behind, unless the engine has accepted that. -/
theorem spares_endGroup (h : Spares s₀ s) (gid : Nat) : Spares s₀ (endGroup s gid) := by
  unfold endGroup
  split
  · exact h
  · next g _ =>
    dsimp only
    generalize (if isChecked s g = true then _ else _) = drop
    split
    · have hlocks : Spares s₀ (retireLocks s drop) := h
      exact spared_left hlocks (retireLocks s drop) g drop
    · exact h

theorem spares_reapGroup (h : Spares s₀ s) (gid : Nat) : Spares s₀ (reapGroup s gid) := by
  unfold reapGroup
  exact spares_ite h (spares_endGroup h gid)

theorem spares_cutToks (h : Spares s₀ s) (gid : Nat) (dead : Nat → LaneMask) : Spares s₀ (cutToks s gid dead) := h

theorem spares_setGroupKept (h : Spares s₀ s) (gid : Nat) (f : Group → Group) : Spares s₀ (s.setGroupKept gid f) := h

theorem spares_cutCmps (h : Spares s₀ s) (gid lane : Nat) (f : Group → Group) : Spares s₀ (cutCmps s gid lane f) := h

theorem spares_endLane (h : Spares s₀ s) (gid lane : Nat) : Spares s₀ (endLane s gid lane) := by
  have hone (u : State) (hu : Spares s₀ u) (g : Nat) (f : Group → Group) : Spares s₀ (cutCmps ((dropTokLane u g lane).setGroupKept g f) g lane f) :=
    spares_cutCmps (spares_setGroupKept (spares_cutToks hu ..) ..) ..
  unfold endLane
  dsimp only
  refine spares_reapGroup ?_ gid
  split
  · exact hone _ (hone _ h _ _) _ _
  · exact hone _ h _ _

theorem spares_endTaskLane (h : Spares s₀ s) (k : Task) : Spares s₀ (endTaskLane s k) := by
  unfold endTaskLane
  refine spares_ite (spares_endLane ?_ ..) h
  exact h

theorem spares_dropTaskAccs (h : Spares s₀ s) (t : Nat) : Spares s₀ (dropTaskAccs s t) := by
  unfold dropTaskAccs dropAccsOf
  exact spares_forAll h fun g u hu => spares_cutToks hu ..

theorem spares_discardTask (h : Spares s₀ s) (t : Nat) : Spares s₀ (discardTask s t) := by
  unfold discardTask
  split
  · exact h
  · next k _ =>
    have hcut : Spares s₀ (cutRound s t) := h
    exact spares_unbatch (spares_dropTaskAccs (spares_endTaskLane hcut k) t) t

theorem spares_abortTask (h : Spares s₀ s) (t : Nat) : Spares s₀ (abortTask s t) := by
  unfold abortTask
  split
  · exact h
  · next k _ =>
    have hcut : Spares s₀ (cutRound s t) := h
    have hall := spares_forAll (l := descendants s s.tasks.length t) hcut (fun d _ hu => spares_discardTask hu d)
    exact spares_ite h (spares_unbatch (spares_dropTaskAccs (spares_endTaskLane hall k) t) t)

/-! ### Bytes that an agent writes -/

theorem spares_writeBytes (h : Spares s₀ s) (pa : Nat) (bs : List Byte) : Spares s₀ (writeBytes s pa bs) := by
  induction bs generalizing s pa with
  | nil => exact h
  | cons b bs ih =>
    refine ih ?_ (pa + 1)
    unfold writeByte
    refine spares_ite ?_ h
    exact spares_ite h h

theorem spares_overwrite (h : Spares s₀ s) (pa : Nat) (bs : List Byte) : Spares s₀ (overwrite s pa bs) :=
  spares_ite (spares_writeBytes h pa bs) (spares_writeBytes h pa bs)

theorem spares_setCarry (h : Spares s₀ s) (pa n : Nat) (c : List Nat) : Spares s₀ (setCarry s pa n c) := spares_foldl h fun _ _ ht => ht

theorem spares_bridgeRead (h : Spares s₀ s) (die pa n : Nat) (uncached : Bool) : Spares s₀ (bridgeRead s die pa n uncached) := by
  obtain ⟨_, _, _, e⟩ := BridgeOnly.bridgeRead (.refl s) die pa n uncached
  rw [e]
  exact h

theorem spares_bridgeWrite (h : Spares s₀ s) (die pa n : Nat) (uncached : Bool) : Spares s₀ (bridgeWrite s die pa n uncached) := by
  unfold bridgeWrite ownHalves
  refine spares_ite (spares_forAll h fun l t ht => ?_) h
  refine spares_forAll (spares_forAll ht fun d u hu => hu) fun half u hu => ?_
  exact spares_ite hu (spares_ite hu hu)

theorem spares_noteStore (h : Spares s₀ s) (pa n : Nat) (atomic : Bool) : Spares s₀ (noteStore s pa n atomic) := by
  unfold noteStore
  refine spares_ite h (spares_forAll h fun l t ht => spares_forAll ht fun d u hu => ?_)
  exact spares_ite hu hu

theorem spares_observeLanes (h : Spares s₀ s) (gid : Nat) (m : LaneMask) (ws : List Nat) : Spares s₀ (observeLanes s gid m ws) :=
  spares_foldl h fun _ _ ht => spares_ite ht ht

theorem spares_dropLeases (h : Spares s₀ s) (core : Option Nat) (ord : Ord) (scope : Nat) : Spares s₀ (dropLeases s core ord scope) := by
  unfold dropLeases
  split
  · exact h
  · exact spares_ite (spares_setCore h _ rfl) h

theorem spares_wakeBarriers (h : Spares s₀ s) (pa n : Nat) : Spares s₀ (wakeBarriers s pa n) := by
  unfold wakeBarriers
  split
  · exact h
  · refine spares_forAll h fun p t ht => ?_
    have hend (m : LaneMask) (k : Park) (u : State) (hu : Spares s₀ u) : Spares s₀ (match k with
        | .barw w ph scope =>
          if overlaps w 8 pa n && phaseOf u w != ph then
            wakeGroup (dropLeases (observeLanes u p.1 m (carryOf u w 8)) (some (coreOfGroup p.1)) .acquire scope) p.1 k 3
          else u
        | _ => u) := by
      cases k
      case barw w ph scope =>
        dsimp only
        split
        · exact spares_dropLeases (spares_observeLanes hu ..) ..
        · exact hu
      all_goals exact hu
    dsimp only
    refine spares_forAll ?_ fun q u hu => spares_forAll hu fun k v hv => hend _ k v hv
    split
    · next k _ => exact hend _ k t ht
    · exact ht

theorem spares_putApplied (h : Spares s₀ s) (by_ : Committer) (pa : Nat) (bs : List Byte) (carry : List Nat) (atomic : Bool) :
    Spares s₀ (putApplied s by_ pa bs carry atomic) :=
  spares_wakeBarriers (spares_forAll (spares_noteStore (spares_setCarry (spares_overwrite h ..) ..) ..) fun _ _ ht => spares_abortTask ht _) ..

theorem spares_sendProbes (h : Spares s₀ s) (pa n : Nat) : Spares s₀ (sendProbes s pa n) :=
  spares_forAll h fun _ _ ht => spares_ite ht ht

theorem spares_agentWrite (h : Spares s₀ s) (die : Nat) (ws : List (Nat × List Byte)) : Spares s₀ (agentWrite s die ws).1 := by
  unfold agentWrite
  split
  · exact spares_forAll h fun w t ht => spares_putApplied (spares_bridgeWrite ht ..) ..
  · exact spares_forAll h fun w t ht => spares_sendProbes ht ..

/-- Posting a fault record may abort tasks that have read what it overwrites, and end their groups (R345, R382). -/
theorem spares_flushFaults (h : Spares s₀ s) : Spares s₀ (flushFaults s) := by
  unfold flushFaults
  split
  · split
    · exact h
    · extract_lets cons t next
      have ht : Spares s₀ t := spares_bridgeRead h ..
      clear_value cons t next
      refine spares_ite ?_ ht
      split
      · next u e => exact (congrArg (Spares s₀ ·.1) e).mp (spares_agentWrite ht ..)
      · next u e => exact (congrArg (Spares s₀ ·.1) e).mp (spares_agentWrite ht ..)
  · exact h

end Sys2Proof.Claims
end

/-! ## What a collective engine sends -/

section
namespace Sys2Proof.Claims

open Sys2Proof.Machine

/-! ### The engine's writes leave (R214) -/

/-- A write that departs stands in the list under the next number; nothing else of the machine differs but the order of its accesses. -/
theorem depart_store (s : State) {a : Acc} (hkind : a.kind = .store) :
    ∃ A, depart s a = (s.nextId, { s with nextId := s.nextId + 1, accs := A }) ∧ (∀ b ∈ s.accs, b.id < s.nextId → b ∈ A)
      ∧ ∃ st, { a with id := s.nextId, stage := st } ∈ A := by
  have hmove (A : List Acc) (st : Stage) (hA : ∀ b ∈ s.accs, b ∈ A) :
      (∀ b ∈ s.accs, b.id < s.nextId → b ∈ A.filter (fun b => b.id != s.nextId) ++ [{ a with id := s.nextId, stage := st }])
        ∧ ∃ st', { a with id := s.nextId, stage := st' } ∈ A.filter (fun b => b.id != s.nextId) ++ [{ a with id := s.nextId, stage := st }] := by
    refine ⟨fun b hb hlt => List.mem_append_left _ (List.mem_filter.mpr ⟨hA b hb, by simpa using Nat.ne_of_lt hlt⟩), st, ?_⟩
    exact List.mem_append_right _ (List.mem_singleton.mpr rfl)
  have hstay : ∀ b ∈ s.accs, b ∈ s.accs ++ [{ a with id := s.nextId, stage := .buffered }] := fun b hb => List.mem_append_left _ hb
  unfold depart
  dsimp only [State.fresh]
  split
  · have hrmw : Acc.isRmw { a with id := s.nextId, stage := .buffered } = false := by simp [Acc.isRmw, hkind]
    have h5 : isClass5 { a with id := s.nextId, stage := .buffered } = false := by simp [isClass5, hkind]
    unfold drainLocal
    simp only [h5, hrmw, Bool.false_eq_true, false_and, if_false, reduceCtorEq]
    split
    · exact ⟨_, rfl, hmove _ .waiting hstay⟩
    · split
      · exact ⟨_, rfl, fun b hb _ => hstay b hb, .buffered, List.mem_append_right _ (List.mem_singleton.mpr rfl)⟩
      · exact ⟨_, rfl, hmove _ .arrived hstay⟩
  · exact ⟨_, rfl, hmove _ .queued hstay⟩

/-- One element leaves, and its collective notes the write. -/
def sendElement (id : Nat) (k : Coll) (bytes : List Byte) (s : State) (x : Nat × Nat × Nat) : State :=
  let e := collSize k.typ
  let (w, s) := depart s (collAcc id k .store x.2.1 x.2.2 e (ofLe ((bytes.drop (x.1 * e)).take e)) [])
  { s with colls := s.colls.modify id (fun k => { k with writes := k.writes ++ [w] }) }

/-- The elements of a span: a virtual and a physical address for each. -/
def elementsOf (e : Nat) (ps : List (Nat × Nat × Nat)) : List (Nat × Nat) :=
  ps.flatMap (fun p => (List.range (p.2.2 / e)).map (fun i => (p.1 + i * e, p.2.1 + i * e)))

theorem collWrite_eq (s : State) (id : Nat) (k : Coll) (ps : List (Nat × Nat × Nat)) (bytes : List Byte) :
    collWrite s id k ps bytes = ((elementsOf (collSize k.typ) ps).mapIdx (fun i x => (i, x))).foldl (sendElement id k bytes) s := rfl

/-- The write of one element stands among some accesses. -/
def ElementIn (A : List Acc) (k : Coll) (bytes : List Byte) (x : Nat × Nat × Nat) : Prop :=
  ∃ b ∈ A, b.kind = .store ∧ b.gid = none ∧ b.pa = x.2.2 ∧ b.size = collSize k.typ
    ∧ b.data = ofLe ((bytes.drop (x.1 * collSize k.typ)).take (collSize k.typ))

/-- All that sending some elements changes: the list of accesses, to which their writes have come, the next number, and the writes that the
collective has noted. -/
def Sent (s t : State) (id : Nat) (k : Coll) (bytes : List Byte) (xs : List (Nat × Nat × Nat)) : Prop :=
  ∃ A N C, t = { s with accs := A, nextId := N, colls := C } ∧ s.nextId ≤ N
    ∧ (∀ b ∈ s.accs, b.id < s.nextId → b ∈ A) ∧ (∀ x ∈ xs, ElementIn (A.filter (fun b => b.id < N)) k bytes x)
    ∧ ∀ q, s.colls.get? id = some q → ∃ W, C.get? id = some { q with writes := q.writes ++ W }

theorem sent_sendElement (s : State) (id : Nat) (k : Coll) (bytes : List Byte) (x : Nat × Nat × Nat) :
    Sent s (sendElement id k bytes s x) id k bytes [x] := by
  obtain ⟨A, hd, hold, st, hnew⟩ := depart_store s (a := collAcc id k .store x.2.1 x.2.2 (collSize k.typ)
    (ofLe ((bytes.drop (x.1 * collSize k.typ)).take (collSize k.typ))) []) rfl
  unfold sendElement
  dsimp only
  rw [hd]
  refine ⟨A, s.nextId + 1, _, rfl, Nat.le_succ _, hold, fun y hy => ?_, fun q hq => ⟨[s.nextId], ?_⟩⟩
  · cases List.mem_singleton.mp hy
    exact ⟨_, List.mem_filter.mpr ⟨hnew, by simp⟩, rfl, rfl, rfl, rfl, rfl⟩
  · simp [hq]

theorem Sent.trans {s t u : State} {id : Nat} {k : Coll} {bytes : List Byte} {xs ys : List (Nat × Nat × Nat)}
    (h : Sent s t id k bytes xs) (j : Sent t u id k bytes ys) : Sent s u id k bytes (xs ++ ys) := by
  obtain ⟨A, N, C, rfl, hN, hA, hxs, hC⟩ := h
  obtain ⟨B, M, D, rfl, hM, hB, hys, hD⟩ := j
  refine ⟨B, M, D, rfl, hN.trans hM, fun b hb hlt => hB b (hA b hb hlt) (hlt.trans_le hN), fun x hx => ?_, fun q hq => ?_⟩
  · rcases List.mem_append.mp hx with hx | hx
    · obtain ⟨b, hb, hrest⟩ := hxs x hx
      obtain ⟨hb, hlt⟩ := List.mem_filter.mp hb
      have hlt : b.id < N := by simpa using hlt
      exact ⟨b, List.mem_filter.mpr ⟨hB b hb hlt, by simpa using hlt.trans_le hM⟩, hrest⟩
    · exact hys x hx
  · obtain ⟨W, hW⟩ := hC q hq
    obtain ⟨V, hV⟩ := hD _ hW
    exact ⟨W ++ V, by rw [hV, List.append_assoc]⟩

theorem sent_foldl (id : Nat) (k : Coll) (bytes : List Byte) (xs : List (Nat × Nat × Nat)) (s : State) :
    Sent s (xs.foldl (sendElement id k bytes) s) id k bytes xs := by
  induction xs generalizing s with
  | nil => exact ⟨s.accs, s.nextId, s.colls, rfl, le_rfl, fun b hb _ => hb, by simp, fun q hq => ⟨[], by simp [hq]⟩⟩
  | cons x xs ih => exact (sent_sendElement s id k bytes x).trans (ih _)

theorem sent_collWrite (s : State) (id : Nat) (k : Coll) (ps : List (Nat × Nat × Nat)) (bytes : List Byte) :
    Sent s (collWrite s id k ps bytes) id k bytes ((elementsOf (collSize k.typ) ps).mapIdx (fun i x => (i, x))) := by
  rw [collWrite_eq]
  exact sent_foldl ..

/-- Elements that have been sent are on their way. -/
theorem Sent.elementsSent {s t : State} {id : Nat} {k : Coll} {bytes : List Byte} {ps : List (Nat × Nat × Nat)}
    (h : Sent s t id k bytes ((elementsOf (collSize k.typ) ps).mapIdx (fun i x => (i, x)))) : elementsSent t k ps bytes = true := by
  obtain ⟨A, N, C, rfl, -, -, hall, -⟩ := h
  have hphys : (ps.flatMap (fun p => (List.range (p.2.2 / collSize k.typ)).map (fun i => p.2.1 + i * collSize k.typ)))
      = (elementsOf (collSize k.typ) ps).map (·.2) := by
    simp [elementsOf, List.map_flatMap, Function.comp_def]
  unfold Claims.elementsSent
  dsimp only
  rw [hphys]
  refine List.all_eq_true.mpr fun sent hsent => ?_
  obtain ⟨i, hi, rfl⟩ := List.mem_mapIdx.mp hsent
  rw [List.length_map] at hi
  obtain ⟨b, hb, hkind, hgid, hpa, hsize, hdata⟩ := hall (i, (elementsOf (collSize k.typ) ps)[i]) (List.mem_mapIdx.mpr ⟨i, hi, rfl⟩)
  refine List.any_eq_true.mpr ⟨b, (List.mem_filter.mp hb).1, ?_⟩
  simp [hkind, hgid, hpa, hsize, hdata]

/-! ### Spans (R259) -/

/-- A collective bears the tag of the record of its page fault. -/
def tagColl (id : Nat) (r : Nat × State) : State := { r.2 with colls := r.2.colls.modify id (fun k => { k with tag := some r.1 }) }

/-- How the use of a span ends: with its parts, or with a failure, after reads alone; or with a fault record on its way to the ring. -/
theorem collSpan_cases (s : State) (id : Nat) (k : Coll) (need : Need) (va n : Nat) :
    (∃ ps v, collSpan s id k need va n = (.ready ps, v) ∧ LooksOnly s v) ∨ (∃ c v, collSpan s id k need va n = (.failed c, v) ∧ LooksOnly s v)
      ∨ ∃ u p i f, LooksOnly s u ∧ collSpan s id k need va n = (.wait, flushFaults (tagColl id (postFault u k.pasid p i f))) := by
  have hlook := looksOnly_spanTranslate s k.die k.pasid need (spanParts va n)
  unfold collSpan
  generalize spanTranslate s k.die k.pasid need (spanParts va n) = w at hlook ⊢
  obtain ⟨⟨r, ps⟩, u⟩ := w
  cases r with
  | none =>
    dsimp only
    split
    · exact .inr (.inl ⟨_, _, rfl, hlook⟩)
    · exact .inl ⟨_, _, rfl, hlook⟩
  | some r =>
    obtain ⟨p, r⟩ := r
    cases r with
    | ok => exact .inr (.inl ⟨_, _, rfl, hlook⟩)
    | access => exact .inr (.inl ⟨_, _, rfl, hlook⟩)
    | page i st => exact .inr (.inr ⟨u, p, i, 8 + (if need.w then 2 else 0) + if st then 1 else 0, hlook, rfl⟩)

theorem collSpan_ready {s v : State} {id : Nat} {k : Coll} {need : Need} {va n : Nat} {ps : List (Nat × Nat × Nat)}
    (h : collSpan s id k need va n = (.ready ps, v)) : LooksOnly s v := by
  rcases collSpan_cases s id k need va n with ⟨_, _, e, hlook⟩ | ⟨_, _, e, -⟩ | ⟨_, _, _, _, -, e⟩
  · cases h.symm.trans e; exact hlook
  · cases h.symm.trans e
  · cases h.symm.trans e

theorem collSpan_failed {s v : State} {id : Nat} {k : Coll} {need : Need} {va n : Nat} {c : Cause}
    (h : collSpan s id k need va n = (.failed c, v)) : LooksOnly s v := by
  rcases collSpan_cases s id k need va n with ⟨_, _, e, -⟩ | ⟨_, _, e, hlook⟩ | ⟨_, _, _, _, -, e⟩
  · cases h.symm.trans e
  · cases h.symm.trans e; exact hlook
  · cases h.symm.trans e

theorem postFault_engine (s : State) (pasid va ipa flags : Nat) :
    (postFault s pasid va ipa flags).2.colls = s.colls ∧ (postFault s pasid va ipa flags).2.cores = s.cores := by
  unfold postFault
  split <;> exact ⟨rfl, rfl⟩

/-- A collective that waits for the answer to a page fault bears its tag, and is else left alone. -/
theorem collSpan_wait {s v : State} {id : Nat} {k q : Coll} {need : Need} {va n : Nat} (h : collSpan s id k need va n = (.wait, v))
    (hq : s.colls.get? id = some q) :
    (∀ c, (v.core c).collQ = (s.core c).collQ) ∧ ∃ t x, v.colls.get? id = some x ∧ LeftAlone { q with tag := some t } x := by
  rcases collSpan_cases s id k need va n with ⟨_, _, e, -⟩ | ⟨_, _, e, -⟩ | ⟨u, p, i, f, hlook, e⟩
  · cases h.symm.trans e
  · cases h.symm.trans e
  · cases h.symm.trans e
    obtain ⟨hcolls, hcores⟩ := postFault_engine u k.pasid p i f
    generalize postFault u k.pasid p i f = w at hcolls hcores ⊢
    obtain ⟨t, w⟩ := w
    obtain ⟨hqueue, hkept⟩ := spares_flushFaults (Spares.refl (tagColl id (t, w)))
    have hsame : u.colls = s.colls ∧ u.cores = s.cores := by
      obtain ⟨_, _, _, _, _, rfl⟩ := hlook
      exact ⟨rfl, rfl⟩
    have htag : (tagColl id (t, w)).colls.get? id = some { q with tag := some t } := by
      show (w.colls.modify id (fun k => { k with tag := some t })).get? id = _
      rw [Map.get?_modify_self, hcolls, hsame.1, hq, Option.map_some]
    obtain ⟨x, hx, hleft⟩ := hkept id _ htag
    refine ⟨fun c => (hqueue c).trans ?_, t, x, hx, hleft⟩
    show (w.cores.getD c Core.reset).collQ = (s.cores.getD c Core.reset).collQ
    rw [hcores, hsame.2]

end Sys2Proof.Claims
end

/-! ## Steps and completion of a collective -/

section
namespace Sys2Proof.Claims

open Sys2Proof.Machine

/-! ### Steps (R257 to R259) -/

theorem collHas_of {t : State} {id : Nat} {x : Coll} {p : Coll → Bool} (hx : t.colls.get? id = some x) (hp : p x = true) : collHas t id p = true := by
  simp [collHas, hx, hp]

theorem get?_failColl {s : State} {id : Nat} {q : Coll} (code : BitVec 8) (hq : s.colls.get? id = some q) (hf : q.failed = none) :
    (failColl s id code).colls.get? id = some { q with failed := some code, out := [] } := by
  simp [failColl, hq, hf]

/-- A member fails with a code. -/
theorem failColl_has {s : State} {id : Nat} {q : Coll} (code : BitVec 8) (hq : s.colls.get? id = some q) (hf : q.failed = none) :
    collHas (failColl s id code) id (fun x => x.failed == some code) = true :=
  collHas_of (get?_failColl code hq hf) (by simp)

theorem LooksOnly.colls {s t : State} (h : LooksOnly s t) : t.colls = s.colls := by
  obtain ⟨_, _, _, _, _, rfl⟩ := h
  rfl

theorem LooksOnly.core {s t : State} (h : LooksOnly s t) (c : Nat) : t.core c = s.core c := by
  obtain ⟨_, _, _, _, _, rfl⟩ := h
  rfl

theorem LooksOnly.clk {s t : State} (h : LooksOnly s t) : t.clk = s.clk := by
  obtain ⟨_, _, _, _, _, rfl⟩ := h
  rfl

theorem LeftAlone.tag {k x : Coll} (h : LeftAlone k x) : x.tag = k.tag := by
  rcases h with rfl | ⟨-, _, _, _, _, rfl⟩ <;> rfl

theorem LeftAlone.got {k x : Coll} (h : LeftAlone k x) : x.got = k.got := by
  rcases h with rfl | ⟨-, _, _, _, _, rfl⟩ <;> rfl

theorem LeftAlone.accepted {k x : Coll} (h : LeftAlone k x) : x.accepted = k.accepted := by
  rcases h with rfl | ⟨-, _, _, _, _, rfl⟩ <;> rfl

/-- A member that takes steps has not failed, and waits for no answer; the rank is another member's. -/
theorem inSteps_some {s : State} {id rank : Nat} {k : Coll} (h : inSteps s id rank = some k) :
    s.colls.get? id = some k ∧ k.summed = true ∧ k.failed = none ∧ k.tag = none ∧ k.others.contains rank = true := by
  obtain ⟨hk, hp⟩ := Option.filter_eq_some_iff.mp h
  simp only [Bool.and_eq_true, Option.isNone_iff_eq_none] at hp
  obtain ⟨⟨⟨hsummed, hfailed⟩, htag⟩, hothers⟩ := hp
  exact ⟨hk, hsummed, hfailed, htag, hothers⟩

/-- A member that waits for the answer to a page fault keeps what has arrived. -/
theorem waits_has {s v : State} {id : Nat} {k q : Coll} {need : Need} {va n : Nat} (h : collSpan s id k need va n = (.wait, v))
    (hq : s.colls.get? id = some q) : collHas v id (fun x => x.tag.isSome && x.got == q.got) = true := by
  obtain ⟨-, t, x, hx, hleft⟩ := collSpan_wait h hq
  exact collHas_of hx (by simp [hleft.tag, hleft.got])

/-- A block agrees where nothing of its header or length differs (R257). -/
theorem agrees_eq (k : Coll) (tag : Word) (op typ : Nat) (bytes : List Byte) :
    k.agrees ⟨tag, op, typ, bytes⟩ = !(tag != k.ctag || op != k.op || typ != k.typ || bytes.length != k.block) := by
  simp only [Coll.agrees, bne, Bool.not_or, Bool.not_not, Bool.beq_comm (a := k.ctag), Bool.beq_comm (a := k.op), Bool.beq_comm (a := k.typ)]

/-- A sent span leaves the collective as it was, but for the writes that it notes. -/
theorem Sent.coll {s t : State} {id : Nat} {k q : Coll} {bytes : List Byte} {xs : List (Nat × Nat × Nat)} (h : Sent s t id k bytes xs)
    (hq : s.colls.get? id = some q) : ∃ W, t.colls.get? id = some { q with writes := q.writes ++ W } := by
  obtain ⟨_, _, _, rfl, -, -, -, hcoll⟩ := h
  exact hcoll q hq

/-- What the claim asks where a block that agrees arrives for the first time. -/
def arrivalClaim (s : State) (id rank : Nat) (k : Coll) (bytes : List Byte) : Option (State → Bool) :=
  match collSpan s id k Need.store (if k.op = 1 then k.d else k.d + rank * k.block) k.block with
  | (.ready ps, _) => some (fun t => collHas t id (fun x => x.got == k.got ++ [rank] && x.failed.isNone) && elementsSent t k ps bytes)
  | (.failed c, _) => some (fun t => collHas t id (fun x => x.failed == some c.code))
  | (.wait, _) => some (fun t => collHas t id (fun x => x.tag.isSome && x.got == k.got))

/-- What has been sent is a matter of the list of accesses. -/
theorem elementsSent_congr {t u : State} (h : t.accs = u.accs) (k : Coll) (ps : List (Nat × Nat × Nat)) (bytes : List Byte) :
    elementsSent t k ps bytes = elementsSent u k ps bytes := by
  unfold elementsSent
  rw [h]

/-- The block of another member is written where it belongs, and has then arrived. -/
theorem collArrive_completes {s : State} {id rank : Nat} {k : Coll} {bytes : List Byte} {ok : State → Bool} (hk : s.colls.get? id = some k)
    (hfailed : k.failed = none) (hgot : k.got.contains rank = false)
    (hok : arrivalClaim s id rank k bytes = some ok) :
    ok (collArrive s id k rank bytes) = true := by
  unfold collArrive
  rw [if_neg (by rw [hgot]; exact Bool.false_ne_true)]
  dsimp only
  cases hspan : collSpan s id k Need.store (if k.op = 1 then k.d else k.d + rank * k.block) k.block with
  | mk r v =>
    rw [arrivalClaim, hspan] at hok
    cases r with
    | ready ps =>
      cases hok
      have hlook := collSpan_ready hspan
      have hsent := sent_collWrite v id k ps bytes
      obtain ⟨W, hW⟩ := hsent.coll (hlook.colls ▸ hk)
      refine Bool.and_eq_true_iff.mpr ⟨collHas_of (x := { k with writes := k.writes ++ W, got := k.got ++ [rank] }) ?_ ?_, ?_⟩
      · simp [hW]
      · simp [hfailed]
      · exact (elementsSent_congr rfl k ps bytes).trans hsent.elementsSent
    | failed c =>
      cases hok
      exact failColl_has _ ((collSpan_failed hspan).colls ▸ hk) hfailed
    | wait =>
      cases hok
      exact waits_has hspan hk

theorem collStepAck_completes {ok : State → Bool} {id rank : Nat} {b : CollBlock} {s : State}
    (hok : collStepClaim (.collStepAck id rank b) s = some ok) : ∃ t, exec (.collStepAck id rank b) s = .next t ∧ ok t = true := by
  obtain ⟨tag, op, typ, bytes⟩ := b
  dsimp only [collStepClaim] at hok
  obtain ⟨k, hin, hok⟩ := Option.bind_eq_some_iff.mp hok
  obtain ⟨hk, hsummed, hfailed, htag, hothers⟩ := inSteps_some hin
  refine ⟨_, rfl, ?_⟩
  rw [hk]
  dsimp only
  rw [if_neg (by rw [hsummed, hfailed, htag, hothers]; decide)]
  split at hok
  · next hempty =>
    cases hok
    rw [if_pos hempty]
    exact collHas_of (by simp [hk]; rfl) (by simp)
  · next hfull =>
    rw [if_neg hfull]
    split at hok
    · next hother =>
      cases hok
      have hagree : k.agrees ⟨tag, op, typ, bytes⟩ = false := by
        rw [agrees_eq, hother, Bool.not_true]
      rw [hagree, Bool.not_false, if_pos rfl]
      exact failColl_has _ hk hfailed
    · next hsame =>
      have hagree : k.agrees ⟨tag, op, typ, bytes⟩ = true := by
        rw [agrees_eq, Bool.eq_false_iff.mpr hsame, Bool.not_false]
      rw [hagree, Bool.not_true, if_neg Bool.false_ne_true]
      split at hok
      · cases hok
      · next hdue =>
        simp only [Bool.or_eq_true, Bool.and_eq_true, beq_iff_eq, bne_iff_ne, not_or] at hdue
        rw [if_neg hdue.1]
        exact collArrive_completes hk hfailed (Bool.eq_false_iff.mpr hdue.2) hok

/-- What the claim asks where the last contribution to a sum arrives. -/
def sumClaim (s : State) (id rank : Nat) (k : Coll) (sum : List Byte) : Option (State → Bool) :=
  match collSpan s id k Need.store k.d k.block with
  | (.ready ps, _) => some (fun t => elementsSent t k ps sum
      && collHas t id (fun x => x.acc == sum && x.got == k.got ++ [rank] && x.out == k.others.map (fun r => (r, k.retries, s.clk))))
  | (.failed c, _) => some (fun t => collHas t id (fun x => x.failed == some c.code))
  | (.wait, _) => some (fun t => collHas t id (fun x => x.tag.isSome && x.got == k.got))

theorem collContributionArrival_completes {ok : State → Bool} {id rank : Nat} {b : CollBlock} {s : State}
    (hok : collStepClaim (.collContributionArrival id rank b) s = some ok) :
    ∃ t, exec (.collContributionArrival id rank b) s = .next t ∧ ok t = true := by
  obtain ⟨tag, op, typ, bytes⟩ := b
  dsimp only [collStepClaim] at hok
  obtain ⟨k, hin, hok⟩ := Option.bind_eq_some_iff.mp hok
  obtain ⟨hk, hsummed, hfailed, htag, hothers⟩ := inSteps_some hin
  refine ⟨_, rfl, ?_⟩
  split at hok
  · cases hok
  · next hfirst =>
    simp only [Bool.or_eq_true, bne_iff_ne, ne_eq, not_or, Decidable.not_not, Bool.not_eq_true] at hfirst
    obtain ⟨⟨hop, hrank⟩, hgot⟩ := hfirst
    rw [hk]
    dsimp only
    rw [if_neg (by rw [hsummed, hfailed, htag, hop, hrank, hothers, hgot]; decide)]
    split at hok
    · next hother =>
      cases hok
      have hagree : k.agrees ⟨tag, op, typ, bytes⟩ = false := by
        rw [agrees_eq, hother, Bool.not_true]
      rw [hagree, Bool.not_false, if_pos rfl]
      exact failColl_has _ hk hfailed
    · next hsame =>
      have hagree : k.agrees ⟨tag, op, typ, bytes⟩ = true := by
        rw [agrees_eq, Bool.eq_false_iff.mpr hsame, Bool.not_false]
      rw [hagree, Bool.not_true, if_neg Bool.false_ne_true, List.length_append, List.length_singleton]
      split at hok
      · next hmore =>
        cases hok
        rw [if_pos hmore]
        exact collHas_of (by simp [hk]; rfl) (by simp)
      · next hlast =>
        rw [if_neg hlast]
        have hsum : sumClaim s id rank k (sumBytes k.typ k.count k.acc bytes) = some ok := hok
        cases hspan : collSpan s id k Need.store k.d k.block with
        | mk r v =>
          rw [sumClaim, hspan] at hsum
          cases r with
          | ready ps =>
            cases hsum
            have hlook := collSpan_ready hspan
            have hsent := sent_collWrite v id k ps (sumBytes k.typ k.count k.acc bytes)
            obtain ⟨W, hW⟩ := hsent.coll (hlook.colls ▸ hk)
            refine Bool.and_eq_true_iff.mpr ⟨(elementsSent_congr rfl k ps _).trans hsent.elementsSent, collHas_of (x := { k with
              writes := k.writes ++ W, acc := sumBytes k.typ k.count k.acc bytes, got := k.got ++ [rank],
              out := k.others.map (fun r => (r, k.retries, v.clk)) }) (by simp [hW]) (by simp [hlook.clk])⟩
          | failed c =>
            cases hsum
            exact failColl_has _ ((collSpan_failed hspan).colls ▸ hk) hfailed
          | wait =>
            cases hsum
            exact waits_has hspan hk

/-- A step that is lost goes again with one try less, from now on, or fails the member where no try is left (R259). -/
theorem lost_has {s : State} {id rank tries : Nat} {k : Coll} {x : Nat × Nat × Nat} {ok : State → Bool} (hk : s.colls.get? id = some k)
    (hfailed : k.failed = none) (hx : k.out.find? (fun x => x.1 == rank) = some x)
    (hok : (if tries = 0 then some (fun t => collHas t id (fun x => x.failed == some 0x41))
      else some (fun t => collHas t id (fun x => x.failed.isNone && x.out.contains (rank, tries - 1, s.clk)))) = some ok) :
    ok (if tries = 0 then failColl s id 0x41
      else { s with colls := s.colls.modify id (fun q =>
        { q with out := q.out.map (fun x => if x.1 = rank then (rank, tries - 1, s.clk) else x) }) }) = true := by
  split at hok
  · next htries =>
    cases hok
    rw [if_pos htries]
    exact failColl_has _ hk hfailed
  · next htries =>
    cases hok
    rw [if_neg htries]
    have hmem := List.mem_of_find?_eq_some hx
    have hrank : x.1 = rank := by simpa using List.find?_some hx
    have hsent : (rank, tries - 1, s.clk) ∈ k.out.map (fun x => if x.1 = rank then (rank, tries - 1, s.clk) else x) :=
      List.mem_map.mpr ⟨x, hmem, if_pos hrank⟩
    refine collHas_of (x := { k with out := k.out.map (fun x => if x.1 = rank then (rank, tries - 1, s.clk) else x) }) (by simp [hk]) ?_
    simp only [hfailed, Option.isNone_none, Bool.true_and]
    exact List.contains_iff_mem.mpr hsent

theorem collStepTimeout_completes {ok : State → Bool} {id : Nat} {loss : StepLoss} {s : State}
    (hok : collStepClaim (.collStepTimeout id loss) s = some ok) : ∃ t, exec (.collStepTimeout id loss) s = .next t ∧ ok t = true := by
  obtain ⟨rank, why⟩ := loss
  dsimp only [collStepClaim] at hok
  obtain ⟨k, hin, hok⟩ := Option.bind_eq_some_iff.mp hok
  obtain ⟨hk, hsummed, hfailed, htag, hothers⟩ := inSteps_some hin
  refine ⟨_, rfl, ?_⟩
  rw [hk]
  dsimp only
  rw [if_neg (by rw [hsummed, hfailed, htag, hothers]; decide)]
  cases hstep : k.out.find? (fun x => x.1 == rank) with
  | none =>
    simp only [hstep] at hok
    cases why with
    | gone =>
      dsimp only at hok ⊢
      split at hok
      · next hgone =>
        cases hok
        rw [if_pos (Bool.or_comm _ _ ▸ hgone)]
        exact failColl_has _ hk hfailed
      · cases hok
    | late => cases hok
    | refused => cases hok
  | some x =>
    simp only [hstep] at hok
    cases why with
    | gone =>
      cases hok
      simp only [Option.isSome_some, Bool.or_true, if_true]
      exact failColl_has _ hk hfailed
    | late =>
      dsimp only at hok ⊢
      split at hok
      · cases hok
      · next hlate =>
        rw [if_neg (by simpa using hlate)]
        exact lost_has hk hfailed hstep hok
    | refused => exact lost_has hk hfailed hstep hok

/-! ### Completion (R259, R231) -/

theorem memKept_of_mem {s t : State} (h : t.mem = s.mem) (lo n : Nat) : memKept s t lo n = true := by
  refine List.all_eq_true.mpr fun a _ => ?_
  rw [byte_congr h a, beq_self_eq_true, Bool.or_true]

theorem LooksOnly.mem {s t : State} (h : LooksOnly s t) : t.mem = s.mem := by
  obtain ⟨_, _, _, _, _, rfl⟩ := h
  rfl

theorem LooksOnly.ranges {s t : State} (h : LooksOnly s t) : t.ranges = s.ranges := by
  obtain ⟨_, _, _, _, _, rfl⟩ := h
  rfl

theorem Sent.mem {s t : State} {id : Nat} {k : Coll} {bytes : List Byte} {xs : List (Nat × Nat × Nat)} (h : Sent s t id k bytes xs) :
    t.mem = s.mem := by
  obtain ⟨_, _, _, rfl, -⟩ := h
  rfl

/-- A failed member's destination is on its way to unspecified bytes; memory is as it was (R259). -/
theorem scramble_completes {s : State} {id : Nat} {k : Coll} (hk : s.colls.get? id = some k) :
    (memKept s (scramble s id k) 0 0
      && collHas (scramble s id k) id (fun x => x.scrambled && x.writes.take k.writes.length == k.writes)) = true := by
  unfold scramble
  dsimp only
  generalize (if k.op = 1 then k.block else max 1 (min 16 k.members) * k.block) = n
  have hlook := looksOnly_mappedParts { s with colls := s.colls.modify id (fun q => { q with scrambled := true }) } k.die k.pasid Need.store (spanParts k.d n)
  generalize mappedParts { s with colls := s.colls.modify id (fun q => { q with scrambled := true }) } k.die k.pasid Need.store (spanParts k.d n) = w at hlook ⊢
  obtain ⟨ps, v⟩ := w
  generalize (List.range n).map (fun i => BitVec.ofNat 8 (Config.freeNat (v.freeCtr + i))) = bytes
  have hdraw : LooksOnly { s with colls := s.colls.modify id (fun q => { q with scrambled := true }) } { v with freeCtr := v.freeCtr + n } := hlook.draws _
  have hsent := sent_collWrite { v with freeCtr := v.freeCtr + n } id k ps bytes
  obtain ⟨W, hW⟩ := hsent.coll (q := { k with scrambled := true }) (by rw [hdraw.colls]; simp [hk])
  refine Bool.and_eq_true_iff.mpr ⟨memKept_of_mem ?_ _ _, collHas_of hW (by simp)⟩
  rw [hsent.mem]
  exact hdraw.mem

theorem bridgeOnly_bridgeWrite (s : State) (die pa n : Nat) (uncached : Bool) : BridgeOnly s (bridgeWrite s die pa n uncached) := by
  unfold bridgeWrite ownHalves
  split
  · refine forAll_keeps (BridgeOnly s) _ _ _ (.refl s) fun l t ht => ?_
    refine forAll_keeps (BridgeOnly s) _ _ _ (forAll_keeps (BridgeOnly s) _ _ _ ht fun d u hu => (hu.setHalf ..).setHalf ..) fun half u hu => ?_
    split
    · exact hu.setHalf ..
    · split
      · exact hu
      · exact hu.setHalf ..
  · exact .refl s

/-- Where a word's address translates, its write departs (R231). -/
theorem writeWord_written {s : State} {pasid va : Nat} {mk : Nat → Acc} (engine : Bool) (hmk : ∀ pa, (mk pa).kind = .store)
    (h : wordMapped s (mk 0).die pasid va = true) :
    ∃ v A st pa, writeWord s engine pasid va mk = (.written, { v with nextId := v.nextId + 1, accs := A }) ∧ LooksOnly s v
      ∧ { mk pa with id := v.nextId, stage := st } ∈ A := by
  obtain ⟨hva, hok⟩ := Bool.and_eq_true_iff.mp h
  have hlook := looksOnly_translate s (mk 0).die pasid Need.both va
  unfold writeWord
  rw [if_neg (by simpa using hva)]
  generalize Machine.translate s (mk 0).die pasid Need.both va = w at hok hlook ⊢
  obtain ⟨r, v⟩ := w
  cases r with
  | page => cases hok
  | access => cases hok
  | ok pa u =>
    obtain ⟨A, hd, -, st, hA⟩ := depart_store (bridgeWrite v (mk pa).die pa 8 false) (hmk pa)
    dsimp only
    rw [hd]
    exact ⟨_, A, st, pa, rfl, hlook.trans (.of_bridge (bridgeOnly_bridgeWrite ..)), hA⟩

/-- A collective whose word is done with stays while its range does, and is then gone (R217). -/
theorem finishColl_completes {s r : State} {id : Nat} {k : Coll} (hk : s.colls.get? id = some k) (hdone : k.done = true)
    (hranges : s.ranges = r.ranges) : (if hasRange r id then collHas (finishColl s id) id (·.done) else ((finishColl s id).colls.get? id).isNone) = true := by
  have hsame : hasRange r id = hasRange s id := by rw [hasRange, hasRange, hranges]
  unfold finishColl
  rw [hk, Option.elim_some, hdone, hsame]
  by_cases hr : hasRange s id = true
  · simp [hr, collHas_of hk hdone]
  · simp [hr, Map.get?_del]

theorem finishColl_accs (s : State) (id : Nat) : (finishColl s id).accs = s.accs := by
  unfold finishColl
  split <;> rfl

/-- The write of a collective's completion word (R231). -/
def completionWord (s : State) (id : Nat) (k : Coll) (pa : Nat) : Acc :=
  { collAcc id k .store k.word pa 8 (match k.failed with
    | some c => wordFail c.toNat k.seq
    | none => wordOk k.seq) (liveOf s (k.writes ++ k.obs)) with ord := .release, scope := k.scope }

/-- The word of a collective is on its way, and the collective is over once its range has retired (R231, R217). -/
theorem word_completes {s u : State} {id pa i : Nat} {k : Coll} {st : Stage} (hk : s.colls.get? id = some k) (hcolls : u.colls = s.colls)
    (hranges : u.ranges = s.ranges) (hA : { completionWord s id k pa with id := i, stage := st } ∈ u.accs) :
    let t := finishColl { u with colls := u.colls.modify id (fun q => { q with done := true }) } id
    ((if hasRange s id then collHas t id (·.done) else (t.colls.get? id).isNone)
      && t.accs.any (fun a => a.kind == .store && a.gid.isNone && a.va == k.word && a.size == 8
        && a.ord == .release && a.scope == k.scope && a.data == (match k.failed with
          | some c => wordFail c.toNat k.seq
          | none => wordOk k.seq))) = true := by
  have hk' : (u.colls.modify id (fun q => { q with done := true })).get? id = some { k with done := true } := by
    rw [Map.get?_modify_self, hcolls, hk, Option.map_some]
  refine Bool.and_eq_true_iff.mpr ⟨finishColl_completes hk' rfl hranges, ?_⟩
  rw [finishColl_accs]
  exact List.any_eq_true.mpr ⟨_, hA, by simp [completionWord, collAcc, agentAcc]⟩

theorem collComplete_completes {ok : State → Bool} {id : Nat} {s : State}
    (hok : collStepClaim (.collComplete id) s = some ok) : ∃ t, exec (.collComplete id) s = .next t ∧ ok t = true := by
  dsimp only [collStepClaim] at hok
  obtain ⟨k, hk, hok⟩ := Option.bind_eq_some_iff.mp hok
  refine ⟨_, rfl, ?_⟩
  simp only [hk]
  split at hok
  · cases hok
  · next hdue =>
    have hdue' : ¬ (k.tag.isSome = true ∨ (!k.accepted) = true ∨ k.done = true ∨ (!(k.complete || k.failed.isSome)) = true) := by
      simpa only [Bool.or_eq_true, or_assoc] using hdue
    rw [if_neg hdue']
    split at hok
    · next hopen =>
      cases hok
      rw [if_pos hopen]
      exact scramble_completes hk
    · next hsettled =>
      rw [if_neg hsettled]
      split at hok
      · cases hok
      · next hmapped =>
        simp only [Bool.or_eq_true, not_or, Bool.not_eq_true', Bool.not_eq_false] at hmapped
        obtain ⟨hperformed, hword⟩ := hmapped
        cases hok
        obtain ⟨v, A, st, pa, hw, hlook, hA⟩ := writeWord_written (mk := completionWord s id k) true (fun _ => rfl) hword
        have hwritten (f : Nat → Acc) (hf : f = completionWord s id k) :
            writeWord s true k.pasid k.word f = (.written, { v with nextId := v.nextId + 1, accs := A }) := hf ▸ hw
        simp only [hperformed, Bool.not_true, Bool.false_eq_true, if_false]
        rw [hwritten _ ?_]
        · exact word_completes hk hlook.colls hlook.ranges hA
        · rfl

theorem collStepClaim_completes {ok : State → Bool} {i : Instr} {s : State} (hok : collStepClaim i s = some ok) :
    ∃ t, exec i s = .next t ∧ ok t = true := by
  cases i
  case collStepAck => exact collStepAck_completes hok
  case collContributionArrival => exact collContributionArrival_completes hok
  case collStepTimeout => exact collStepTimeout_completes hok
  case collComplete => exact collComplete_completes hok
  all_goals cases hok

end Sys2Proof.Claims
end

/-! ## The member's own part of a collective -/

section
namespace Sys2Proof.Claims

open Sys2Proof.Machine

/-! ### The member's own part (R258) -/

/-- The member goes on, accepted and with what its record and its threads have told. -/
def GoesOn (k x : Coll) : Prop := x.accepted = true ∧ x.members = k.members ∧ x.rank = k.rank ∧ x.ctag = k.ctag ∧ x.obs = k.obs

/-- The member has taken its own part: what it sends first is due. -/
def started (k : Coll) (mine : List Byte) (clk : Nat) (q : Coll) : Coll :=
  { q with acc := mine, summed := true, out := k.firstSteps.map (fun r => (r, k.retries, clk)) }

theorem begun_started (k q : Coll) (mine : List Byte) (clk : Nat) : begun k (started k mine clk q) = true := by
  have hout : (started k mine clk q).out.map (·.1) = k.firstSteps := by
    simp [started, Function.comp_def]
  have hsum : (started k mine clk q).summed = true := rfl
  unfold begun
  rw [hout, hsum]
  simp [Coll.firstSteps, Coll.others]

theorem begun_of_tag {k x : Coll} (h : x.tag.isSome = true) : begun k x = true := by simp [begun, h]

theorem begun_of_failed {k x : Coll} (h : x.failed.isSome = true) : begun k x = true := by simp [begun, h]

/-- Of an accepted member a page fault changes the tag alone. -/
theorem collSpan_wait_accepted {s v : State} {id : Nat} {k q : Coll} {need : Need} {va n : Nat}
    (h : collSpan s id k need va n = (.wait, v)) (hq : s.colls.get? id = some q) (hacc : q.accepted = true) :
    (∀ c, (v.core c).collQ = (s.core c).collQ) ∧ ∃ t, v.colls.get? id = some { q with tag := some t } := by
  obtain ⟨hqueue, t, x, hx, hleft⟩ := collSpan_wait h hq
  rcases hleft with rfl | ⟨hno, -⟩
  · exact ⟨hqueue, t, hx⟩
  · cases hacc.symm.trans hno

/-- What is asked of the member's own part: queues stand, the member goes on, and has begun where `due` says so. -/
def Begins (s t : State) (id : Nat) (k : Coll) (due : Prop) : Prop :=
  (∀ c, (t.core c).collQ = (s.core c).collQ) ∧ ∃ x, t.colls.get? id = some x ∧ GoesOn k x ∧ (due → begun k x = true)

theorem Begins.weaken {s t : State} {id : Nat} {k : Coll} {due : Prop} (h : Begins s t id k True) : Begins s t id k due :=
  ⟨h.1, h.2.imp fun _ hx => ⟨hx.1, hx.2.1, fun _ => hx.2.2 trivial⟩⟩

/-- The machine once the member has taken its own part. -/
def startColl (id : Nat) (k : Coll) (mine : List Byte) (s : State) : State := { s with colls := s.colls.modify id (started k mine s.clk) }

theorem startColl_begins {s t : State} {id : Nat} {k q : Coll} {mine : List Byte} {due : Prop} (hq : t.colls.get? id = some q) (hgo : GoesOn k q)
    (hqueue : ∀ c, (t.core c).collQ = (s.core c).collQ) : Begins s (startColl id k mine t) id k due := by
  refine ⟨hqueue, started k mine t.clk q, ?_, hgo, fun _ => begun_started ..⟩
  show (t.colls.modify id (started k mine t.clk)).get? id = _
  rw [Map.get?_modify_self, hq, Option.map_some]

theorem Sent.core {s t : State} {id : Nat} {k : Coll} {bytes : List Byte} {xs : List (Nat × Nat × Nat)} (h : Sent s t id k bytes xs) (c : Nat) :
    t.core c = s.core c := by
  obtain ⟨_, _, _, rfl, -⟩ := h
  rfl

/-- Where a span of the member's own part cannot be used, that part has met a fault or waits for the answer to one. -/
theorem begins_of_span {s u v : State} {id : Nat} {k : Coll} {need : Need} {va n : Nat} {r : SpanEnd} (hu : LooksOnly s u)
    (hk : s.colls.get? id = some k) (hacc : k.accepted = true) (hfailed : k.failed = none) (h : collSpan u id k need va n = (r, v)) :
    match r with
    | .wait => Begins s v id k True
    | .failed c => Begins s (failColl v id c.code) id k True
    | .ready _ => LooksOnly s v := by
  have hk' : u.colls.get? id = some k := hu.colls ▸ hk
  cases r with
  | wait =>
    obtain ⟨hqueue, t, ht⟩ := collSpan_wait_accepted h hk' hacc
    exact ⟨fun c => (hqueue c).trans (by rw [hu.core c]), _, ht, ⟨hacc, rfl, rfl, rfl, rfl⟩, fun _ => begun_of_tag rfl⟩
  | failed c =>
    have hv := hu.trans (collSpan_failed h)
    refine ⟨fun j => congrArg Core.collQ (hv.core j), _, get?_failColl c.code (hv.colls ▸ hk) hfailed, ⟨hacc, rfl, rfl, rfl, rfl⟩,
      fun _ => begun_of_failed rfl⟩
  | ready ps => exact hu.trans (collSpan_ready h)

theorem collBegin_begins {s : State} {id : Nat} {k : Coll} (hk : s.colls.get? id = some k) (hacc : k.accepted = true) (hfailed : k.failed = none) :
    Begins s (collBegin s id k) id k (beginsAt s id k = true) := by
  have hsame (v : State) (hv : LooksOnly s v) : ∀ c, (v.core c).collQ = (s.core c).collQ := fun c => congrArg Core.collQ (hv.core c)
  unfold collBegin beginsAt
  cases hspan : collSpan s id k Need.load k.b k.srcBytes with
  | mk r v =>
    have hfirst := begins_of_span (.refl s) hk hacc hfailed hspan
    cases r with
    | wait => exact hfirst.weaken
    | failed c => exact hfirst.weaken
    | ready ps =>
      dsimp only at hfirst ⊢
      split
      · next hnot => exact ⟨hsame v hfirst, k, hfirst.colls ▸ hk, ⟨hacc, rfl, rfl, rfl, rfl⟩, fun hready => by simp [hready] at hnot⟩
      · have hu : LooksOnly s (collRead v id k (collSize k.typ) ps).2 := hfirst.trans (looksOnly_collRead ..)
        generalize collRead v id k (collSize k.typ) ps = w at hu ⊢
        obtain ⟨src, u⟩ := w
        dsimp only at hu ⊢
        generalize (if k.op = 0 then (src.drop (k.rank * k.block)).take k.block else src) = mine
        split
        · exact startColl_begins (hu.colls ▸ hk) ⟨hacc, rfl, rfl, rfl, rfl⟩ (hsame u hu)
        · cases hdst : collSpan u id k Need.store (k.d + k.rank * k.block) k.block with
          | mk r2 v2 =>
            have hsecond := begins_of_span hu hk hacc hfailed hdst
            cases r2 with
            | wait => exact hsecond.weaken
            | failed c => exact hsecond.weaken
            | ready ds =>
              have hsent := sent_collWrite v2 id k ds mine
              obtain ⟨W, hW⟩ := hsent.coll (hsecond.colls ▸ hk)
              exact startColl_begins hW ⟨hacc, rfl, rfl, rfl, rfl⟩ fun c => congrArg Core.collQ ((hsent.core c).trans (hsecond.core c))

/-! ### The record is read, and the member is accepted (R257) -/

/-- The use of a span that begins well would begin well beside other books of the engine. -/
theorem collSpan_withEngine {X : Map Coll} {Y : Map Core} {s v : State} {id : Nat} {k k' : Coll} {need : Need} {va n : Nat} {ps : List (Nat × Nat × Nat)}
    (hdie : k'.die = k.die) (hpasid : k'.pasid = k.pasid) (h : collSpan (withEngine X Y s) id k' need va n = (.ready ps, v)) :
    ∃ u, collSpan s id k need va n = (.ready ps, u) ∧ v = withEngine X Y u := by
  unfold collSpan at h ⊢
  rw [hdie, hpasid, spanTranslate_withEngine] at h
  generalize spanTranslate s k.die k.pasid need (spanParts va n) = w at h ⊢
  obtain ⟨⟨r, l⟩, u⟩ := w
  cases r with
  | none =>
    dsimp only [alongside] at h ⊢
    split at h
    · cases h
    · next hclean =>
      cases h
      exact ⟨u, if_neg hclean, rfl⟩
  | some r =>
    obtain ⟨p, r⟩ := r
    cases r <;> cases h

theorem beginsAt_withEngine {X : Map Coll} {Y : Map Core} {s : State} {id : Nat} {k k' : Coll} (hbays : SameBays Y s) (hdie : k'.die = k.die)
    (hpasid : k'.pasid = k.pasid) (hblk : k'.blk = k.blk) (htyp : k'.typ = k.typ) (hb : k'.b = k.b) (hsrc : k'.srcBytes = k.srcBytes)
    (h : beginsAt s id k = true) : beginsAt (withEngine X Y s) id k' = true := by
  unfold beginsAt at h ⊢
  rw [hb, hsrc]
  cases hspan : collSpan (withEngine X Y s) id k' Need.load k.b k.srcBytes with
  | mk r v =>
    cases r with
    | ready ps =>
      obtain ⟨u, hu, rfl⟩ := collSpan_withEngine hdie hpasid hspan
      rw [hu] at h
      have hbays' : SameBays Y u := fun c => (hbays c).trans (by rw [(collSpan_ready hu).core c])
      rw [htyp]
      exact (collReady_withEngine hbays' id _ ps hdie hblk).trans h
    | wait => rfl
    | failed c => rfl

/-- What the record tells a member. -/
def toldBy (r : List Byte) (q : Coll) : Coll :=
  { q with members := (r.getD 0 0).toNat, rank := (r.getD 1 0).toNat, ctag := BitVec.ofNat 32 (ofLe ((r.drop 4).take 4)) }

/-- What its acceptance leaves of a member. -/
def acceptedAs (s : State) (k : Coll) (f : Coll → Coll) (q : Coll) : Coll := f { q with accepted := true, obs := (k.obs ++ observed s k.gid k.lanes).eraseDups }

theorem get?_takeColl {s : State} {id : Nat} {k q : Coll} (f : Coll → Coll) (hq : s.colls.get? id = some q) :
    (takeColl s id k f).colls.get? id = some (acceptedAs s k f q) := by
  show (s.colls.modify id (acceptedAs s k f)).get? id = _
  rw [Map.get?_modify_self, hq, Option.map_some]

theorem collQ_takeColl (s : State) (id : Nat) (k : Coll) (f : Coll → Coll) :
    ((takeColl s id k f).core k.core).collQ = (s.core k.core).collQ.tail := by
  simp [takeColl, setCollQ, State.core, State.setCore, Map.getD_put]

/-- What the threads had observed is part of what the member carries. -/
theorem observed_accepted (s : State) (k q : Coll) (f : Coll → Coll) (hf : ∀ q, (f q).obs = q.obs) :
    (observed s k.gid k.lanes).all (acceptedAs s k f q).obs.contains = true := by
  refine List.all_eq_true.mpr fun w hw => ?_
  rw [acceptedAs, hf, List.contains_iff_mem]
  exact List.mem_eraseDups.mpr (List.mem_append_right _ hw)

end Sys2Proof.Claims
end

/-! ## The record at the head of a collective queue -/

section
namespace Sys2Proof.Claims

open Sys2Proof.Machine

/-! ### The head of the queue is dropped or held (R226, R217) -/

/-- Splits that go on change groups alone. -/
theorem wakeSbwaits_keeps (s : State) (blk : Nat) : (wakeSbwaits s blk).cores = s.cores ∧ (wakeSbwaits s blk).ranges = s.ranges := by
  have hend (p : Nat) (k : Park) (t : State) (ht : t.cores = s.cores ∧ t.ranges = s.ranges) :
      let u := match k with
        | .sbwait i => if sbBusy t blk i then t else wakeGroup t p k 3
        | _ => t
      u.cores = s.cores ∧ u.ranges = s.ranges := by
    cases k
    case sbwait i =>
      dsimp only
      split
      · exact ht
      · exact ht
    all_goals exact ht
  unfold wakeSbwaits
  refine forAll_keeps (fun t => t.cores = s.cores ∧ t.ranges = s.ranges) _ _ _ ⟨rfl, rfl⟩ fun p t ht => ?_
  refine forAll_keeps (fun t => t.cores = s.cores ∧ t.ranges = s.ranges) _ _ _ ?_ fun q u hu => ?_
  · split
    · next k _ => exact hend p.1 k t ht
    · exact ht
  · exact forAll_keeps (fun t => t.cores = s.cores ∧ t.ranges = s.ranges) _ _ _ hu fun k v hv => hend p.1 k v hv

theorem retireRanges_cores (s : State) (id : Nat) : (retireRanges s id).cores = s.cores := by
  unfold retireRanges
  split
  · rfl
  · exact (wakeSbwaits_keeps ..).1

/-- A retired command has no destination range. -/
theorem retireRanges_ranges (s : State) (id : Nat) : (retireRanges s id).ranges.all (fun r => r.claim || r.cmd != id) = true := by
  unfold retireRanges
  split
  · next hnone =>
    refine List.all_eq_true.mpr fun r hr => ?_
    have hno := List.find?_eq_none.mp hnone r hr
    revert hno
    cases r.claim <;> simp
  · rw [(wakeSbwaits_keeps ..).2]
    exact List.all_eq_true.mpr fun r hr => (List.mem_filter.mp hr).2

theorem collQ_setCollQ (s : State) (c : Nat) (q : List Nat) : ((setCollQ s c q).core c).collQ = q := by
  simp [setCollQ, State.core, State.setCore, Map.getD_put]

/-- A slot of a group that has been seen free is pending (R226). -/
def pendingAt (n : Nat) (g : Group) : Group := if g.gs.getD n .free = .free then { g with gs := g.gs.put n .pending } else g

theorem pendingAt_slot (n : Nat) (g : Group) :
    ((pendingAt n g).gs.getD n .free == (if g.gs.getD n .free = .free then .pending else g.gs.getD n .free)) = true := by
  unfold pendingAt
  split <;> simp [Map.getD_put]

/-! ### The head of the queue goes on (R257) -/

/-- What is asked where a member is taken from its queue. -/
def takenAs (s : State) (k : Coll) (id : Nat) (t : State) (p : Coll → Bool) : Bool :=
  (t.core k.core).collQ == (s.core k.core).collQ.tail && collHas t id (fun x => x.accepted && p x)

/-- A member that is taken and fails at once. -/
theorem failed_taken {s v : State} {id : Nat} {k : Coll} {f : Coll → Coll} (code : BitVec 8) (hlook : LooksOnly s v) (hk : s.colls.get? id = some k)
    {p : Coll → Bool} (hacc : (acceptedAs v k f k).accepted = true) (hf : (acceptedAs v k f k).failed = none)
    (hp : p { acceptedAs v k f k with failed := some code, out := [] } = true) :
    takenAs s k id (failColl (takeColl v id k f) id code) p = true := by
  have hget := get?_failColl code (get?_takeColl f (hlook.colls ▸ hk)) hf
  refine Bool.and_eq_true_iff.mpr ⟨?_, collHas_of hget (Bool.and_eq_true_iff.mpr ⟨hacc, hp⟩)⟩
  show ((takeColl v id k f).core k.core).collQ == _
  rw [collQ_takeColl, hlook.core, beq_self_eq_true]

theorem failed_plainly {s v : State} {id : Nat} {k : Coll} (code : BitVec 8) (hlook : LooksOnly s v) (hk : s.colls.get? id = some k)
    (hfailed : k.failed = none) : takenAs s k id (failColl (takeColl v id k (fun q => q)) id code) (fun x => x.failed == some code) = true :=
  failed_taken code hlook hk rfl hfailed (beq_self_eq_true _)

theorem ofLe_lt (bs : List Byte) : ofLe bs < 256 ^ bs.length := by
  induction bs with
  | nil => decide
  | cons b bs ih =>
    have hb : b.toNat < 256 := b.isLt
    simp only [ofLe, List.length_cons, Nat.pow_succ]
    omega

/-- The tag of a record is the number that its four bytes hold. -/
theorem toldBy_ctag (r : List Byte) (q : Coll) : (toldBy r q).ctag.toNat = ofLe ((r.drop 4).take 4) := by
  have hlen : ((r.drop 4).take 4).length ≤ 4 := List.length_take_le ..
  have hlt : ofLe ((r.drop 4).take 4) < 2 ^ 32 := lt_of_lt_of_le (ofLe_lt _) (Nat.pow_le_pow_right (by decide) hlen)
  show (BitVec.ofNat 32 (ofLe ((r.drop 4).take 4))).toNat = _
  rw [BitVec.toNat_ofNat, Nat.mod_eq_of_lt hlt]

/-- The member carries what its record tells and what its threads have observed. -/
def readOf (s : State) (k : Coll) (r : List Byte) (x : Coll) : Bool :=
  x.members == (r.getD 0 0).toNat && x.rank == (r.getD 1 0).toNat && x.ctag.toNat == ofLe ((r.drop 4).take 4)
    && (observed s k.gid k.lanes).all x.obs.contains

theorem readOf_iff {s : State} {k x : Coll} {r : List Byte} : readOf s k r x = true ↔
    x.members = (r.getD 0 0).toNat ∧ x.rank = (r.getD 1 0).toNat ∧ x.ctag.toNat = ofLe ((r.drop 4).take 4)
      ∧ (observed s k.gid k.lanes).all x.obs.contains = true := by
  simp only [readOf, Bool.and_eq_true, beq_iff_eq, and_assoc]

theorem LooksOnly.observed {s t : State} (h : LooksOnly s t) (gid : Nat) (m : LaneMask) : Machine.observed t gid m = Machine.observed s gid m := by
  obtain ⟨_, _, _, _, _, rfl⟩ := h
  rfl

theorem LooksOnly.peer {s t : State} (h : LooksOnly s t) : t.mgmt.peer = s.mgmt.peer := by
  obtain ⟨_, _, _, _, _, rfl⟩ := h
  rfl

theorem LooksOnly.rowsHeld {s t : State} (h : LooksOnly s t) (blk id : Nat) (glb : Bool) (rows : List (Int × Nat)) :
    Machine.rowsHeld t blk id glb rows = Machine.rowsHeld s blk id glb rows := by
  obtain ⟨_, _, _, _, _, rfl⟩ := h
  rfl

theorem readOf_accepted {s w : State} (hlook : LooksOnly s w) (k : Coll) (r : List Byte) : readOf s k r (acceptedAs w k (toldBy r) k) = true :=
  readOf_iff.mpr ⟨rfl, rfl, toldBy_ctag r _, hlook.observed k.gid k.lanes ▸ observed_accepted w k k (toldBy r) fun _ => rfl⟩

/-- A member that goes on carries what it was taken with. -/
theorem readOf_goesOn {s : State} {k k' x : Coll} {r : List Byte} (h : GoesOn k' x) (hk : readOf s k r k' = true) : readOf s k r x = true := by
  obtain ⟨-, hmembers, hrank, hctag, hobs⟩ := h
  rw [readOf_iff] at hk ⊢
  rw [hmembers, hrank, hctag, hobs]
  exact hk

/-- Taking a member writes in the engine's books alone. -/
theorem takeColl_eq (w : State) (id : Nat) (q : Coll) (f : Coll → Coll) :
    takeColl w id q f = withEngine (w.colls.modify id (acceptedAs w q f)) (w.cores.put q.core { w.core q.core with collQ := (w.core q.core).collQ.tail }) w := rfl

theorem sameBays_takeColl (w : State) (q : Coll) : SameBays (w.cores.put q.core { w.core q.core with collQ := (w.core q.core).collQ.tail }) w := by
  intro c
  rw [Map.getD_put]
  split
  · next h => rw [h]
  · rfl

theorem beginsAt_takeColl {w : State} {id : Nat} {k k' q : Coll} {f : Coll → Coll} (hdie : k'.die = k.die) (hpasid : k'.pasid = k.pasid)
    (hblk : k'.blk = k.blk) (htyp : k'.typ = k.typ) (hb : k'.b = k.b) (hsrc : k'.srcBytes = k.srcBytes) (h : beginsAt w id k = true) :
    beginsAt (takeColl w id q f) id k' = true := by
  rw [takeColl_eq]
  exact beginsAt_withEngine (sameBays_takeColl w q) hdie hpasid hblk htyp hb hsrc h

/-- What the model does with the record that has been read. -/
def goesOnRead (s w : State) (id : Nat) (k : Coll) (r : List Byte) : State :=
  if !recordOk r w.mgmt.peer.toNat then failColl (takeColl w id k (toldBy r)) id 0x40
  else if rowsHeld s k.blk id true [((k.b : Int), (toldBy r k).srcBytes), ((k.d : Int), (toldBy r k).dstBytes)] then w
  else
    match (takeColl w id k (toldBy r)).colls.get? id with
    | some q => collBegin (takeColl w id k (toldBy r)) id q
    | none => takeColl w id k (toldBy r)

/-- A member as its record alone counts it. -/
def counted (k : Coll) (r : List Byte) : Coll := { k with members := (r.getD 0 0).toNat, rank := (r.getD 1 0).toNat }

theorem toldBy_srcBytes (r : List Byte) (k : Coll) : (toldBy r k).srcBytes = (counted k r).srcBytes := rfl

theorem toldBy_dstBytes (r : List Byte) (k : Coll) : (toldBy r k).dstBytes = (counted k r).dstBytes := rfl

/-- What the claim asks of a record that has been read. -/
def readClaim (s w : State) (id : Nat) (k : Coll) (r : List Byte) : Option (State → Bool) :=
  if !recordOk r s.mgmt.peer.toNat then some (fun t => takenAs s k id t (fun x => readOf s k r x && x.failed == some 0x40))
  else if rowsHeld w k.blk id true [((k.b : Int), (counted k r).srcBytes), ((k.d : Int), (counted k r).dstBytes)] then none
  else some (fun t => takenAs s k id t (fun x => readOf s k r x && (!beginsAt w id (counted k r) || begun (counted k r) x)))

theorem goesOnRead_completes {s w : State} {id : Nat} {k : Coll} {r : List Byte} {ok : State → Bool} (hlook : LooksOnly s w)
    (hk : s.colls.get? id = some k) (hfailed : k.failed = none) (hok : readClaim s w id k r = some ok) : ok (goesOnRead s w id k r) = true := by
  unfold readClaim at hok
  unfold goesOnRead
  rw [hlook.peer]
  split at hok
  · next hbad =>
    cases hok
    rw [if_pos hbad]
    exact failed_taken _ hlook hk rfl hfailed (Bool.and_eq_true_iff.mpr ⟨readOf_accepted hlook k r, beq_self_eq_true _⟩)
  · next hgood =>
    rw [if_neg hgood]
    rw [hlook.rowsHeld] at hok
    split at hok
    · cases hok
    · next hfree =>
      cases hok
      have htold : (takeColl w id k (toldBy r)).colls.get? id = some (acceptedAs w k (toldBy r) k) := get?_takeColl _ (hlook.colls ▸ hk)
      obtain ⟨hqueue, x, hx, hgo, hbegun⟩ := collBegin_begins htold rfl hfailed
      rw [toldBy_srcBytes, toldBy_dstBytes, if_neg hfree, htold]
      refine Bool.and_eq_true_iff.mpr ⟨?_, collHas_of hx (Bool.and_eq_true_iff.mpr ⟨hgo.1, Bool.and_eq_true_iff.mpr ⟨?_, ?_⟩⟩)⟩
      · rw [hqueue, collQ_takeColl, hlook.core, beq_self_eq_true]
      · exact readOf_goesOn hgo (readOf_accepted hlook k r)
      · refine Bool.or_eq_true_iff.mpr ?_
        by_cases hdue : beginsAt w id (counted k r) = true
        · exact .inr (hbegun (beginsAt_takeColl (k := counted k r) rfl rfl rfl rfl rfl rfl hdue))
        · exact .inl (by simpa using hdue)

/-- What the claim asks where the head's gate is open. -/
def goClaim (s : State) (id : Nat) (k : Coll) (span : SpanEnd × State) : Option (State → Bool) :=
  if !allPerformed s k.die 3 k.wait || rowsHeld s k.blk id true [((k.a : Int), 64)] then none
  else if k.a % 64 != 0 then some (fun t => takenAs s k id t (fun x => x.failed == some 0x04))
  else
    match span with
    | (.failed c, _) => some (fun t => takenAs s k id t (fun x => x.failed == some c.code))
    | (.wait, _) => some (fun t => (t.core k.core).collQ == (s.core k.core).collQ && collHas t id (fun x => !x.accepted && x.tag.isSome))
    | (.ready ps, v) => if !collReady v id k 8 ps then none else let (r, w) := collRead v id k 8 ps; readClaim s w id k r

/-- What the model does with a head whose gate is open. -/
def goesOn (s : State) (id : Nat) (k : Coll) : State :=
  if !allPerformed s k.die 3 k.wait ∨ rowsHeld s k.blk id true [((k.a : Int), 64)] then s
  else if k.a % 64 ≠ 0 then failColl (takeColl s id k (fun q => q)) id Cause.misaligned.code
  else
    match collSpan s id k Need.load k.a 64 with
    | (.wait, v) => v
    | (.failed c, v) => failColl (takeColl v id k (fun q => q)) id c.code
    | (.ready ps, v) => if !collReady v id k 8 ps then v else goesOnRead s (collRead v id k 8 ps).2 id k (collRead v id k 8 ps).1

theorem acceptColl_of_go {s : State} {id : Nat} {k : Coll} (hgate : collGate s k = .go) : acceptColl s id k = goesOn s id k := by
  unfold acceptColl goesOn
  generalize collSpan s id k Need.load k.a 64 = w
  rw [hgate]
  refine ite_congr rfl (fun _ => rfl) fun _ => ite_congr rfl (fun _ => rfl) fun _ => ?_
  obtain ⟨r, v⟩ := w
  cases r with
  | wait => rfl
  | failed c => rfl
  | ready ps =>
    refine ite_congr rfl (fun _ => rfl) fun _ => ?_
    generalize collRead v id k 8 ps = record
    obtain ⟨r, w⟩ := record
    rfl

theorem goesOn_completes {s : State} {id : Nat} {k : Coll} {ok : State → Bool} (hk : s.colls.get? id = some k)
    (hno : k.accepted = false) (hfailed : k.failed = none) (hok : goClaim s id k (collSpan s id k Need.load k.a 64) = some ok) :
    ok (goesOn s id k) = true := by
  unfold goClaim at hok
  unfold goesOn
  split at hok
  · cases hok
  · next hopen =>
    rw [if_neg (by simpa only [Bool.or_eq_true] using hopen)]
    split at hok
    · next halign =>
      cases hok
      rw [if_pos (by simpa using halign)]
      exact failed_plainly 0x04 (.refl s) hk hfailed
    · next halign =>
      rw [if_neg (by simpa using halign)]
      cases hspan : collSpan s id k Need.load k.a 64 with
      | mk r v =>
        rw [hspan] at hok
        cases r with
        | wait =>
          cases hok
          obtain ⟨hqueue, t, x, hx, hleft⟩ := collSpan_wait hspan hk
          exact Bool.and_eq_true_iff.mpr ⟨by simp [hqueue], collHas_of hx (by simp [hleft.accepted, hleft.tag, hno])⟩
        | failed c =>
          cases hok
          exact failed_plainly c.code (collSpan_failed hspan) hk hfailed
        | ready ps =>
          dsimp only at hok ⊢
          split at hok
          · cases hok
          · next hready =>
            rw [if_neg hready]
            exact goesOnRead_completes ((collSpan_ready hspan).trans (looksOnly_collRead v id k 8 ps)) hk hfailed hok

end Sys2Proof.Claims
end

/-! ## The queue of a core's collectives -/

section
namespace Sys2Proof.Claims

open Sys2Proof.Machine

/-! ### COLL_ACCEPT (R224, R215, R226) -/

/-- The head of a queue is discarded: its collective is gone, and so is its destination range. -/
theorem acceptColl_drop {s : State} {id : Nat} {k : Coll} (hgate : collGate s k = .drop) :
    let t := acceptColl s id k
    ((t.core k.core).collQ == (s.core k.core).collQ.tail && (t.colls.get? id).isNone && t.ranges.all (fun r => r.claim || r.cmd != id)) = true := by
  intro t
  have ht : t = { retireRanges (setCollQ s k.core (s.core k.core).collQ.tail) id with
      colls := (retireRanges (setCollQ s k.core (s.core k.core).collQ.tail) id).colls.del id } := by
    show acceptColl s id k = _
    unfold acceptColl
    rw [hgate]
  have hqueue : (t.core k.core).collQ = (s.core k.core).collQ.tail := by
    rw [ht]
    exact (congrArg (fun m : Map Core => (m.getD k.core Core.reset).collQ) (retireRanges_cores ..)).trans (collQ_setCollQ ..)
  have hgone : t.colls.get? id = none := by
    rw [ht]
    simp [Map.get?_del]
  rw [hqueue, hgone, beq_self_eq_true, ht]
  exact retireRanges_ranges ..

/-- A head that is held stays, and its slot is pending once it has been seen free. -/
theorem acceptColl_hold {s : State} {id : Nat} {k : Coll} {n : BitVec 3} (hk : s.colls.get? id = some k) (hgs : k.gs = some n)
    (hgate : collGate s k = .hold) :
    let t := acceptColl s id k
    ((t.core k.core).collQ == (s.core k.core).collQ && collHas t id (· == k)
      && (s.groups.get? k.gid).elim true (fun g => (t.groups.get? k.gid).any (fun x =>
        x.gs.getD n.toNat .free == (if g.gs.getD n.toNat .free = .free then .pending else g.gs.getD n.toNat .free)))) = true := by
  intro t
  have ht : t = s.setGroup k.gid (pendingAt n.toNat) := by
    show acceptColl s id k = _
    unfold acceptColl
    rw [hgate, hgs]
    rfl
  rw [ht]
  refine Bool.and_eq_true_iff.mpr ⟨Bool.and_eq_true_iff.mpr ⟨beq_self_eq_true _, collHas_of hk (beq_self_eq_true k)⟩, ?_⟩
  cases hg : s.groups.get? k.gid with
  | none => rfl
  | some g =>
    rw [State.setGroup_groups, Map.get?_modify_self, hg]
    exact pendingAt_slot n.toNat g

/-- What stands in the queue of the units stands there under its number. -/
theorem entry?_of_mem {s : State} {e : QEntry} (h : e ∈ s.queue) : ∃ x, s.entry? e.id = some x :=
  Option.isSome_iff_exists.mp (List.find?_isSome.mpr ⟨e, h, beq_self_eq_true _⟩)

/-- An entry of the queue has the state that it was given. -/
theorem setEntry_state {s : State} {e : QEntry} (h : e ∈ s.queue) (st : EntryState) :
    ((setEntry s e.id st).entry? e.id).any (fun x => x.state == st) = true := by
  obtain ⟨x, hx⟩ := entry?_of_mem h
  rw [entry?_setEntry st hx, Option.any_some, beq_self_eq_true]

theorem collAcceptClaim_completes {ok : State → Bool} {id : Nat} {s : State} (hok : collAcceptClaim (.collAccept id) s = some ok) :
    ∃ t, exec (.collAccept id) s = .next t ∧ ok t = true := by
  obtain ⟨k, hk, hok⟩ := Option.bind_eq_some_iff.mp hok
  generalize hspan : collSpan s id k Need.load k.a 64 = span at hok
  extract_lets q left taken at hok
  refine ⟨_, rfl, ?_⟩
  rw [hk]
  dsimp only
  split at hok
  · next hacc =>
    rw [if_pos hacc]
    split at hok
    · cases hok
    · next hdue =>
      simp only [Bool.or_eq_true, Bool.not_eq_true', not_or, Bool.not_eq_true, Option.isSome_eq_false_iff, Option.isNone_iff_eq_none,
        Bool.not_eq_false] at hdue
      obtain ⟨⟨⟨hsummed, hfailed⟩, htag⟩, hbegins⟩ := hdue
      cases hok
      rw [if_neg (by simp [hsummed, hfailed, htag])]
      obtain ⟨-, x, hx, -, hbegun⟩ := collBegin_begins hk hacc hfailed
      exact collHas_of hx (hbegun hbegins)
  · next hacc =>
    rw [if_neg hacc]
    split at hok
    · next hin =>
      rw [if_pos hin]
      split at hok
      · cases hok
      · next hhead =>
        simp only [Bool.or_eq_true, bne_iff_ne, ne_eq, not_or, Decidable.not_not, Bool.not_eq_true, Option.isSome_eq_false_iff,
          Option.isNone_iff_eq_none] at hhead
        obtain ⟨⟨hfirst, htag⟩, hfailed⟩ := hhead
        rw [if_neg (not_or.mpr ⟨fun hne => hne hfirst, by simp [htag]⟩)]
        cases hgate : collGate s k with
        | drop =>
          rw [hgate] at hok
          cases hok
          exact acceptColl_drop hgate
        | hold =>
          rw [hgate] at hok
          obtain ⟨n, hgs, rfl⟩ := Option.map_eq_some_iff.mp hok
          exact acceptColl_hold hk hgs hgate
        | go =>
          rw [hgate] at hok
          rw [acceptColl_of_go hgate]
          refine goesOn_completes hk (by simpa using hacc) hfailed ?_
          rw [hspan, ← hok]
          refine ite_congr rfl (fun _ => rfl) fun _ => ite_congr rfl (fun _ => rfl) fun _ => ?_
          obtain ⟨r, v⟩ := span
          cases r with
          | wait => rfl
          | failed c => rfl
          | ready ps =>
            refine ite_congr rfl (fun _ => rfl) fun _ => ?_
            generalize collRead v id k 8 ps = record
            obtain ⟨r, w⟩ := record
            rfl
    · next hout =>
      rw [if_neg hout]
      obtain ⟨e, he, hok⟩ := Option.bind_eq_some_iff.mp hok
      have hmem := List.mem_of_find?_eq_some he
      rw [he]
      dsimp only
      split at hok
      · cases hok
      · next hdue =>
        rw [if_neg hdue]
        split at hok
        · next hfull =>
          cases hok
          rw [if_pos (of_decide_eq_true hfull)]
          exact Bool.and_eq_true_iff.mpr ⟨Bool.and_eq_true_iff.mpr ⟨beq_self_eq_true _, collHas_of (t := refuseEntry s e) hk (beq_self_eq_true k)⟩, setEntry_state hmem _⟩
        · next hroom =>
          cases hok
          rw [if_neg (fun h => hroom (decide_eq_true h))]
          refine Bool.and_eq_true_iff.mpr ⟨Bool.and_eq_true_iff.mpr ⟨beq_iff_eq.mpr (collQ_setCollQ ..), collHas_of hk (beq_self_eq_true k)⟩, ?_⟩
          exact setEntry_state (s := setCollQ s k.core ((s.core k.core).collQ ++ [id])) hmem _

end Sys2Proof.Claims
end

/-! ## COLL, and all that its collective does -/

section
namespace Sys2Proof.Claims

open Sys2Proof.Machine

/-! ### COLL (R256, R224, R227) -/

/-- The collective that a COLL asks for. -/
def askedColl (o : CollOps) (c : Ctx) (s : State) : Coll :=
  { core := coreOfGroup c.gid, gid := c.gid, blk := c.g.blk, pasid := c.launch.pasid, die := dieOfCore (coreOfGroup c.gid), typ := o.typ.toNat,
    op := o.op.toNat, scope := o.scope.toNat, retries := o.retries.toNat, d := (collArgs o c).d, a := (collArgs o c).a, b := (collArgs o c).b,
    count := (collArgs o c).n, word := (collArgs o c).word, seq := (collArgs o c).seq, timeout := (collArgs o c).us * clkPerUs, gs := o.gs,
    lanes := c.act, obs := [], wait := earlierWrites s c, discarded := false, accepted := false, summed := false, scrambled := false, done := false,
    members := 0, rank := 0, ctag := 0, acc := [], got := [], out := [], writes := [], failed := none, tag := none }

/-- What a COLL may write, as the scoreboard has it. -/
def askedRange (o : CollOps) (c : Ctx) (id : Nat) : Range :=
  Interval.range id c.g.blk (false, false, false, (((collArgs o c).d : Nat) : Int),
    (((collArgs o c).d + (if o.op = 1 then 1 else 16) * (collArgs o c).n * collSize o.typ.toNat : Nat) : Int) - 1)

/-- The machine in which a COLL is on its way to its engine. -/
def collSent (o : CollOps) (c : Ctx) (s : State) : State :=
  sendEntry { s with nextId := s.nextId + 1, colls := s.colls.put s.nextId (askedColl o c s), ranges := s.ranges ++ [askedRange o c s.nextId] }
    (coreOfGroup c.gid) c.gid (.coll (dieOfCore (coreOfGroup c.gid))) (.coll s.nextId)

theorem collEnter_sent {o : CollOps} {c : Ctx} {s : State} (hroom : mayYetSend s (coreOfGroup c.gid) (.coll (dieOfCore (coreOfGroup c.gid))) 1 = true)
    (hscore : scoreEntries s (coreOfGroup c.gid) + 1 ≤ 128) : collEnter o c s = .done (collSent o c s) := by
  have hfree : ¬ ((!mayYetSend s (coreOfGroup c.gid) (.coll (dieOfCore (coreOfGroup c.gid))) 1) = true ∨ 128 < scoreEntries s (coreOfGroup c.gid) + 1) := by
    rw [hroom]
    simpa using hscore
  unfold collEnter
  exact if_neg hfree

/-- The checks of R256 and R260 that a COLL passes. -/
theorem collChecks_none {o : CollOps} {c : Ctx} (s : State) (hlevels : c.blk.levels = []) (hb : (collArgs o c).b % collSize o.typ.toNat = 0)
    (hd : (collArgs o c).d % collSize o.typ.toNat = 0) (hword : wordCheck (collArgs o c).word = none)
    (hbad : badWord c [(o.p.p0, (fun x => decide (1 ≤ x ∧ x ≤ 2 ^ 24)), false), (o.p.p3, (fun x => decide (1 ≤ x ∧ x ≤ 65535)), false)] = none) :
    collChecks o c s = none := by
  unfold collChecks
  rw [hlevels, hbad]
  simp only [hb, hd, hword]
  rfl

/-- A command of a group in no pair, its checks passed, enters at once. -/
theorem engineBody_alone {items : Ctx → List Item} {refs : List RegRef} {checks : Ctx → State → Option Res} {enter : Ctx → State → Res} {c : Ctx} {s : State}
    (hfault : primaryFault s c = none) (halone : roleOf s c = .alone) (hspec : anySpec s c.g c.act = false) (hchecks : checks c s = none) :
    engineBody items refs checks enter c s = enter c s := by
  simp only [engineBody, mirrorFault, hfault, halone, actOnce, hspec, hchecks, id, Bool.false_eq_true, if_false, Option.getD_none]

/-- What an instruction's end leaves of the engines' books. -/
theorem finishIssue_books (t : State) (c : Ctx) (i : Instr) :
    (finishIssue t c i []).colls = t.colls ∧ (finishIssue t c i []).ranges = t.ranges ∧ (finishIssue t c i []).queue = t.queue := by
  unfold finishIssue
  obtain ⟨K, hK⟩ := keepSnap_eq (countIssue (noteInflight (earlyWrite t c.gid (refsOf i).2 []) c i) c (hdrOf i)) c
  rw [hK]
  exact ⟨rfl, rfl, rfl⟩

/-- What is asked of the collective that a COLL has sent. -/
def asksFor (o : CollOps) (c : Ctx) (x : Nat × Coll) : Bool :=
  x.2.gid == c.gid && x.2.core == coreOfGroup c.gid && x.2.pasid == c.launch.pasid && x.2.typ == o.typ.toNat
    && x.2.op == o.op.toNat && x.2.scope == o.scope.toNat && x.2.retries == o.retries.toNat && x.2.d == (collArgs o c).d && x.2.a == (collArgs o c).a
    && x.2.b == (collArgs o c).b && x.2.count == (collArgs o c).n && x.2.word == (collArgs o c).word && x.2.seq == (collArgs o c).seq
    && x.2.timeout == 1400 * (collArgs o c).us && x.2.gs == o.gs && x.2.lanes == c.act && !x.2.accepted

theorem asksFor_askedColl (o : CollOps) (c : Ctx) (s : State) (id : Nat) : asksFor o c (id, askedColl o c s) = true := by
  simp [asksFor, askedColl, clkPerUs, Nat.mul_comm]

/-- The collective is among those of the die, its range in the scoreboard, and its entry on the way (R224, R227, R52). -/
theorem collSent_has (o : CollOps) (c : Ctx) (s t : State) (h : t.colls = (collSent o c s).colls ∧ t.ranges = (collSent o c s).ranges ∧ t.queue = (collSent o c s).queue) :
    t.colls.any (fun x => asksFor o c x && t.ranges.contains (askedRange o c x.1)
      && t.queue.any (fun q => q.payload == .coll x.1 && q.dest == .coll (dieOfCore (coreOfGroup c.gid)) && q.state == .sent)) = true := by
  obtain ⟨hcolls, hranges, hqueue⟩ := h
  have hin : (s.nextId, askedColl o c s) ∈ t.colls := by
    rw [hcolls]
    exact mem_of_get? (Map.get?_put_self ..)
  refine List.any_eq_true.mpr ⟨_, hin, ?_⟩
  rw [asksFor_askedColl, hranges, hqueue, Bool.true_and]
  refine Bool.and_eq_true_iff.mpr ⟨List.contains_iff_mem.mpr (List.mem_append_right _ (List.mem_singleton_self _)), ?_⟩
  refine List.any_eq_true.mpr ⟨_, List.mem_append_right _ (List.mem_singleton_self _), ?_⟩
  simp

theorem coll_completes {h : Hdr} {o : CollOps} {s : State} {ok : State → Bool} (hok : collClaim (.coll h o) s = some ok) :
    ∃ t, exec (.coll h o) s = .next t ∧ ok t = true := by
  dsimp only [collClaim] at hok
  cases e : readyCtx (.coll h o) s with
  | none => rw [e] at hok; cases hok
  | some c =>
    rw [e] at hok
    dsimp only at hok
    split at hok
    · next hfit =>
      cases hok
      simp only [Bool.and_eq_true, beq_iff_eq, Bool.not_eq_true', List.isEmpty_iff, Option.isNone_iff_eq_none, decide_eq_true_eq] at hfit
      obtain ⟨⟨⟨⟨⟨⟨⟨⟨halone, hlevels⟩, hspec⟩, hb⟩, hd⟩, hword⟩, hbad⟩, hroom⟩, hscore⟩ := hfit
      obtain ⟨-, hsp, hpc⟩ := entered_group e
      obtain ⟨-, -, -, -, -, -, -, hfault, -⟩ := ready_parts (readyCtx_some e).2
      have hent := entered_of_alone (i := .coll h o) halone rfl
      obtain ⟨hg, -, -⟩ := entered_group e
      rw [hent] at hspec hroom hscore hg
      have hbody : engineBody (fun c => collItems o (collArgs o c)) [] (collChecks o) (collEnter o) c s = .done (collSent o c s) :=
        (engineBody_alone hfault halone hspec (collChecks_none s hlevels hb hd hword hbad)).trans (collEnter_sent hroom hscore)
      refine ⟨_, rfl, ?_⟩
      rw [show false = actsAlways (.coll h o) from rfl, runInstr_done e (by rw [hent]; exact hbody)]
      refine Bool.and_eq_true_iff.mpr ⟨?_, done_wentOn _ _ _ ?_ hpc⟩
      · exact collSent_has o c s _ (finishIssue_books ..)
      · exact (congrArg (fun x => x.bind fun g => g.splits.get? c.si) hg).trans hsp
    · cases hok

theorem collClaim_completes {i : Instr} {s : State} {ok : State → Bool} (hok : collClaim i s = some ok) : ∃ t, exec i s = .next t ∧ ok t = true := by
  cases i
  case coll => exact coll_completes hok
  all_goals cases hok

/-- Settles O22: a COLL's collective joins those of the die with its range and its entry; the engine's reads change nothing that its own books or
queues hold, so that each step of its member leaves what was asked of it. -/
theorem collectives : Obligations.Collectives := by
  intro claim hclaim i s ok hok
  simp only [List.mem_cons, List.not_mem_nil, or_false] at hclaim
  rcases hclaim with rfl | rfl | rfl
  · exact collClaim_completes hok
  · cases i
    case collAccept => exact collAcceptClaim_completes hok
    all_goals cases hok
  · exact collStepClaim_completes hok

end Sys2Proof.Claims
end

/-! ## The fields of a word, and the places of operands in it -/

section
namespace Sys2Proof.Decode

open Sys2Proof.Machine

/-!
The encoder puts each operand at its place in the fields of R53, and the decoder reads it there. Each pair of functions has its lemma: what the
one puts, the other reads. IMM holds several subfields side by side; a subfield read from another's place is 0.
-/

/-! ### The three code words of a row (R53, R54) -/

/-- The word of R53 as one concatenation of its fields. -/
theorem assemble_eq (r : Raw) : assemble r
    = BitVec.cast rfl (r.cls ++ r.op ++ BitVec.ofBool r.gneg ++ r.gidx ++ r.d ++ r.a ++ r.b ++ r.mclass ++ r.mseg ++ r.mdist
      ++ BitVec.ofBool r.mneg ++ BitVec.ofBool r.mabs ++ r.stall ++ BitVec.ofBool r.yield ++ r.zero
      ++ BitVec.ofBool r.akind ++ BitVec.ofBool r.bkind ++ BitVec.ofBool r.ckind ++ r.fmt ++ r.imm) := rfl

theorem getLsbD_append_of_lt {v w i : Nat} {x : BitVec v} {y : BitVec w} (h : i < w) : (x ++ y).getLsbD i = y.getLsbD i := by
  simp [BitVec.getLsbD_append, h]

theorem getLsbD_append_of_le {v w i : Nat} {x : BitVec v} {y : BitVec w} (h : w ≤ i) : (x ++ y).getLsbD i = x.getLsbD (i - w) := by
  simp [BitVec.getLsbD_append, Nat.not_lt.mpr h]

theorem fields_assemble (r : Raw) : fields (assemble r) = r := by
  rw [assemble_eq]
  simp (disch := omega) only [fields, BitVec.extractLsb'_cast, BitVec.getLsbD_cast, BitVec.extractLsb'_append_eq_of_add_le,
    BitVec.extractLsb'_append_eq_of_le, getLsbD_append_of_lt, getLsbD_append_of_le]
  simp

/-- Three neighbouring pieces of one width make their whole. -/
theorem append3_extract {k n : Nat} (x : BitVec n) :
    x.extractLsb' (k + k) k ++ x.extractLsb' k k ++ x.extractLsb' 0 k = x.extractLsb' 0 (k + k + k) := by
  have h : x.extractLsb' (k + k) k ++ x.extractLsb' k k = x.extractLsb' k (k + k) := BitVec.extractLsb'_append_extractLsb'_eq_extractLsb' rfl
  rw [h]
  exact BitVec.extractLsb'_append_extractLsb'_eq_extractLsb' (Nat.zero_add k).symm

theorem join3_extract (w : BitVec 96) : join3 (w.extractLsb' 0 32) (w.extractLsb' 32 32) (w.extractLsb' 64 32) = w :=
  (append3_extract (k := 32) w).trans BitVec.extractLsb'_eq_self

/-- The three code words of a row's fields, whatever follows them (R53, R54). -/
theorem decode_assemble (r : Raw) (ws : List (BitVec 32)) :
    decode ((assemble r).extractLsb' 0 32 :: (assemble r).extractLsb' 32 32 :: (assemble r).extractLsb' 64 32 :: ws)
      = decodeRaw r [ws.getD 0 0, ws.getD 1 0, ws.getD 2 0, ws.getD 3 0] := by
  simp only [decode, List.getD_cons_zero, List.getD_cons_succ, join3_extract, fields_assemble]

/-- The words of a row are those of its fields, and its parameter block's (R54, R66). -/
theorem encode_of_raw {i : Instr} {r : Raw} (hr : raw? i = some r) :
    encode i = (assemble r).extractLsb' 0 32 :: (assemble r).extractLsb' 32 32 :: (assemble r).extractLsb' 64 32
      :: (match params i with | some p => pblockCode p | none => []) := by
  rw [encode, words, hr]
  rfl

/-! ### Subfields of IMM -/

theorem getLsbD_at {n lo i : Nat} (x : BitVec n) (hi : i < 32) : (at_ lo x).getLsbD i = (decide (lo ≤ i) && x.getLsbD (i - lo)) := by
  simp only [at_, BitVec.getLsbD_shiftLeft, BitVec.getLsbD_setWidth, hi, decide_true, Bool.true_and, show i - lo < 32 by omega]
  by_cases h : i < lo
  · simp [h]
  · simp [h, Nat.not_lt.mp h]

theorem getLsbD_extract_at {n m lo k i : Nat} {x : BitVec m} (h32 : lo + n ≤ 32) (hi : i < n) :
    ((at_ k x).extractLsb' lo n).getLsbD i = (decide (k ≤ lo + i) && x.getLsbD (lo + i - k)) := by
  rw [BitVec.getLsbD_extractLsb', getLsbD_at x (by omega), decide_eq_true hi, Bool.true_and]

@[simp] theorem extract_at_self {n lo : Nat} {x : BitVec n} (h : lo + n ≤ 32) : (at_ lo x).extractLsb' lo n = x :=
  BitVec.eq_of_getLsbD_eq fun i hi => by simp [getLsbD_extract_at h hi]

@[simp] theorem extract_at_below {n m lo k : Nat} {x : BitVec m} (h : lo + n ≤ k) (h32 : lo + n ≤ 32) : (at_ k x).extractLsb' lo n = 0 :=
  BitVec.eq_of_getLsbD_eq fun i hi => by simp [getLsbD_extract_at h32 hi, show ¬k ≤ lo + i by omega]

@[simp] theorem extract_at_above {n m lo k : Nat} {x : BitVec m} (h : k + m ≤ lo) (h32 : lo + n ≤ 32) : (at_ k x).extractLsb' lo n = 0 :=
  BitVec.eq_of_getLsbD_eq fun i hi => by simp [getLsbD_extract_at h32 hi, BitVec.getLsbD_of_ge x (lo + i - k) (by omega)]

theorem at_append {n m lo : Nat} (x : BitVec n) (y : BitVec m) : at_ lo (x ++ y) = at_ (lo + m) x ||| at_ lo y := by
  refine BitVec.eq_of_getLsbD_eq fun i hi => ?_
  simp only [BitVec.getLsbD_or, getLsbD_at _ hi, BitVec.getLsbD_append]
  by_cases hm : i - lo < m
  · simp [hm, show ¬lo + m ≤ i by omega]
  · by_cases hl : lo ≤ i
    · simp [hm, hl, show lo + m ≤ i by omega, show i - lo - m = i - (lo + m) by omega, BitVec.getLsbD_of_ge y (i - lo) (by omega)]
    · simp [hl, show ¬lo + m ≤ i by omega]

theorem atN_eq_at (n : Nat) {lo x : Nat} (hx : x < 2 ^ n) : atN lo x = at_ lo (BitVec.ofNat n x) := by
  apply BitVec.eq_of_toNat_eq
  simp [at_, atN, Nat.mod_eq_of_lt hx, Nat.shiftLeft_eq]

theorem immBits_eq (r : Raw) (lo n : Nat) : immBits r lo n = (sub r lo n).toNat := by
  simp [immBits, sub, Nat.shiftRight_eq_div_pow]

/-- Equal subfields have equal parts. -/
theorem extract_of_extract {k n s l : Nat} {x y : BitVec 32} (hs : s + l ≤ n) (h : x.extractLsb' k n = y.extractLsb' k n) :
    x.extractLsb' (k + s) l = y.extractLsb' (k + s) l := by
  refine BitVec.eq_of_getLsbD_eq fun i hi => ?_
  have e := congrArg (·.getLsbD (s + i)) h
  simpa [BitVec.getLsbD_extractLsb', hi, show s + i < n by omega, Nat.add_assoc] using e

theorem setWidth_eq_at {n : Nat} (x : BitVec n) : x.setWidth 32 = at_ 0 x := by simp [at_]

/-! ### Codes of enumerated fields -/

@[simp] theorem iwOf_iwCode (w : IWidth) : iwOf (iwCode w).toNat = w := by cases w <;> rfl
@[simp] theorem iwOf_iwuCode (w : IWidth) (u : Bool) : iwOf (iwuCode w u).toNat = w := by cases w <;> cases u <;> rfl
@[simp] theorem unsigned_iwuCode (w : IWidth) (u : Bool) : (iwuCode w u).getLsbD 2 = u := by cases w <;> cases u <;> rfl
@[simp] theorem ffOf_ffCode (f : FFmt) : ffOf (ffCode f).toNat = some f := by cases f <;> rfl
@[simp] theorem icondOf_icondCode (k : ICond) : icondOf (icondCode k).toNat = some k := by cases k <;> rfl
@[simp] theorem fcondOf_fcondCode (k : FCond) : fcondOf (fcondCode k).toNat = k := by cases k <;> rfl
theorem shflOf_shflCode (m : ShflMode) (pair : Bool) : shflOf (shflCode m + if pair then 4 else 0).toNat = m := by cases m <;> cases pair <;> rfl
theorem pair_shflCode (m : ShflMode) (pair : Bool) : (shflCode m + if pair then 4 else 0).getLsbD 2 = pair := by cases m <;> cases pair <;> rfl
@[simp] theorem voteOf_voteCode (m : VoteMode) : voteOf (voteCode m % 4) = m := by cases m <;> rfl
@[simp] theorem reduxOf_reduxCode (op : ReduxOp) : reduxOf (reduxCode op % 16) = some op := by cases op <;> rfl
@[simp] theorem ordOf_ordCode (o : Ord) : ordOf (ordCode o % 4) = o := by cases o <;> rfl
@[simp] theorem mwOf_mwCode (w : MWidth) : mwOf (mwCode w).toNat = some w := by cases w <;> rfl
@[simp] theorem cspaceOf_cspaceCode (x : CSpace) : cspaceOf (cspaceCode x % 4) = x := by cases x <;> rfl
@[simp] theorem atomOf_atomCode (op : AtomOp) : atomOf (atomCode op) = some op := by cases op <;> rfl
@[simp] theorem epiOf_epiCode (e : Epi) : epiOf (epiCode e % 8) = some e := by cases e <;> rfl
@[simp] theorem csrOf_csrCode (r : Csr) : csrOf (csrCode r % 4096) = some r := by
  cases r with
  | xv n => revert n; decide
  | _ => rfl

theorem voteCode_lt (m : VoteMode) : voteCode m < 2 ^ 2 := by cases m <;> decide
theorem reduxCode_lt (op : ReduxOp) : reduxCode op < 2 ^ 4 := by cases op <;> decide
theorem ordCode_lt (o : Ord) : ordCode o < 2 ^ 2 := by cases o <;> decide
theorem cspaceCode_lt (x : CSpace) : cspaceCode x < 2 ^ 2 := by cases x <;> decide
theorem atomCode_lt (op : AtomOp) : atomCode op < 2 ^ 4 := by cases op <;> decide
theorem epiCode_lt (e : Epi) : epiCode e < 2 ^ 3 := by cases e <;> decide
theorem csrCode_lt (r : Csr) : csrCode r < 2 ^ 12 := by
  cases r with
  | xv n => exact (Nat.add_lt_add_left n.isLt _).trans (by decide)
  | _ => decide

/-! ### Operands (R55) -/

@[simp] theorem setWidth_s6 (r : BitVec 6) : (r.setWidth 8).setWidth 6 = r := by
  simp [BitVec.setWidth_setWidth_of_le]

theorem s6_lt (r : BitVec 6) : (r.setWidth 8).toNat < 0x40 := by
  have := r.isLt
  simp only [BitVec.toNat_setWidth]
  omega

@[simp] theorem srcOf_srcCode (a : Src) : srcOf (srcCode a).1 (srcCode a).2 = some a := by
  cases a with
  | v r => rfl
  | s r => exact (if_pos (s6_lt r)).trans (congrArg (fun x => some (Src.s x)) (setWidth_s6 r))
  | sp r => cases r <;> rfl
  | sz | imm => rfl

theorem dstOf_dstCode {n : Nat} {vec : Bool} {d : Dst} (h : dstOk n vec d = true) : dstOf vec (dstCode d) = some d := by
  cases d with
  | v r =>
    obtain ⟨rfl, -⟩ := Bool.and_eq_true_iff.mp h
    rfl
  | s r =>
    obtain rfl : vec = false := by simpa [dstOk] using h
    exact (if_pos (s6_lt r)).trans (congrArg (fun x => some (Dst.s x)) (setWidth_s6 r))
  | sz =>
    obtain rfl : vec = false := by simpa [dstOk] using h
    rfl

theorem dstOf_scalar {d : Dst} (h : dstScalar d = true) : dstOf false (dstCode d) = some d := by
  cases d with
  | v r => cases h
  | s r => exact dstOf_dstCode (n := 1) rfl
  | sz => rfl

@[simp] theorem tgtOf_tgtCode (a : Tgt) : tgtOf (tgtCode a).1 (tgtCode a).2 = some a := by
  cases a with
  | v r => rfl
  | s r => exact (if_pos (s6_lt r)).trans (congrArg (fun x => some (Tgt.s x)) (setWidth_s6 r))

@[simp] theorem baseOf_baseCode (a : Base) : baseOf (baseCode a).1 (baseCode a).2 = some a := by
  cases a with
  | v r | sz => rfl
  | s r => exact (if_pos (s6_lt r)).trans (congrArg (fun x => some (Base.s x)) (setWidth_s6 r))

theorem isVec_eq (a : Src) : isVec a = Src.isVec a := by cases a <;> rfl

theorem setWidth_low2 (n : BitVec 2) : (n.setWidth 3).setWidth 2 = n := by simp [BitVec.setWidth_setWidth_of_le]

theorem setWidth_low3 (n : BitVec 3) : (n.setWidth 8).setWidth 3 = n := by simp [BitVec.setWidth_setWidth_of_le]

/-! ### The operand forms of class 1 and class 2 (R56, R57, R61) -/

theorem ops1Of_ops1Code (r : Raw) (fmt : BitVec 3) {o : Ops1} {n : Nat} (h : dstOk n (!o.scalar) o.d = true) : ops1Of (ops1Code r fmt o) = some o := by
  unfold ops1Of
  rw [show aOf (ops1Code r fmt o) = some o.a from srcOf_srcCode o.a,
    show dstOf (!(ops1Code r fmt o).bkind) (ops1Code r fmt o).d = some o.d from dstOf_dstCode h]
  rfl

theorem ops2Of_ops2Code (r : Raw) (fmt : BitVec 3) {o : Ops2} {n : Nat} (h : dstOk n (Src.isVec o.a || Src.isVec o.b) o.d = true) :
    ops2Of (ops2Code r fmt o) = some o := by
  simp only [← isVec_eq] at h
  unfold ops2Of
  rw [show aOf (ops2Code r fmt o) = some o.a from srcOf_srcCode o.a, show bOf (ops2Code r fmt o) = some o.b from srcOf_srcCode o.b]
  simp only [Option.bind_eq_bind, Option.bind_some, show (ops2Code r fmt o).d = dstCode o.d from rfl, dstOf_dstCode h]
  rfl

@[simp] theorem ofBool_beq_one (b : Bool) : (BitVec.ofBool b == 1#1) = b := by cases b <;> rfl

theorem cregCode_eq (c : Src) : cregCode c = at_ 8 (BitVec.ofBool (srcCode c).1) ||| at_ 0 (srcCode c).2 := by
  rw [cregCode, setWidth_eq_at, at_append]

/-- C in IMM[8:0], beside what stands from bit 9 on (R57, R271). -/
theorem cOf_cregCode {r : Raw} {c : Src} {x : BitVec 23} (hk : r.ckind = (c != Src.imm)) (hc : c ≠ Src.imm → r.imm = at_ 9 x ||| cregCode c) :
    cOf r = some c := by
  unfold cOf
  by_cases h : c = Src.imm
  · simp [hk, h]
  · simp [hk, h, sub, hc h, cregCode_eq, BitVec.extractLsb'_or]

theorem ops3Of_ops3Code (r : Raw) (fmt : BitVec 3) {o : Ops3} {n : Nat} (h : dstOk n (Src.isVec o.a || Src.isVec o.b || Src.isVec o.c) o.d = true)
    (himm : o.c = Src.imm ∨ o.imm = 0) : ops3Of (ops3Code r fmt o) = some o := by
  have hc : cOf (ops3Code r fmt o) = some o.c := cOf_cregCode (x := 0) rfl fun hc => by simp [ops3Code, hc, at_]
  have hi : (if (ops3Code r fmt o).ckind then 0 else (ops3Code r fmt o).imm) = o.imm := by
    by_cases hc : o.c = Src.imm
    · simp [ops3Code, hc]
    · simp [ops3Code, hc, himm.resolve_left hc]
  simp only [← isVec_eq] at h
  unfold ops3Of
  rw [show aOf (ops3Code r fmt o) = some o.a from srcOf_srcCode o.a, show bOf (ops3Code r fmt o) = some o.b from srcOf_srcCode o.b, hc]
  simp only [Option.bind_eq_bind, Option.bind_some, show (ops3Code r fmt o).d = dstCode o.d from rfl, dstOf_dstCode h, hi]
  rfl

theorem cmpOf_cmpCode (r : Raw) (fmt cond : BitVec 3) (o : OpsCmp) : cmpOf (cmpCode r fmt cond o) = some o := by
  have hm : (cond ++ (0 : BitVec 2) ++ o.m).setWidth 3 = o.m := BitVec.setWidth_append_eq_right
  unfold cmpOf
  rw [show aOf (cmpCode r fmt cond o) = some o.a from srcOf_srcCode o.a, show bOf (cmpCode r fmt cond o) = some o.b from srcOf_srcCode o.b]
  exact congrArg (fun m => some (OpsCmp.mk o.mods m o.a o.b o.imm)) hm

theorem cond_cmpCode (r : Raw) (fmt cond : BitVec 3) (o : OpsCmp) : (cmpCode r fmt cond o).d.toNat / 32 = cond.toNat := by
  have h : ∀ c m : BitVec 3, (c ++ (0 : BitVec 2) ++ m).toNat / 32 = c.toNat := by decide
  exact h cond o.m

end Sys2Proof.Decode
end

/-! ## The operand forms of classes 0 and 3 to 6 -/

section
namespace Sys2Proof.Decode

open Sys2Proof.Machine

/-! ### Classes 0 and 3 (R111, R145) -/

theorem maskOf_maskCode (r : Raw) (hr : r.fmt = 0) (x : MaskSrc) : maskOf (maskCode r x) = some x := by
  cases x with
  | src a imm =>
    rw [maskOf, if_neg (by simp [maskCode, putA, hr]), show aOf (maskCode r (.src a imm)) = some a from srcOf_srcCode a]
    rfl
  | cm m =>
    rw [maskOf, if_pos (by rfl)]
    simp [sub, maskCode]

theorem ldstBit_lt (d : LDst) : ldstBit d < 2 ^ 1 := by cases d <;> simp [ldstBit]

theorem ldstOf_eq {r : Raw} {d : LDst} (hd : r.d = ldstCode d) (hi : sub r 4 1 = BitVec.ofNat 1 (ldstBit d)) : ldstOf r = d := by
  rw [ldstOf, hi]
  cases d with
  | v x => simp [ldstBit, hd, ldstCode]
  | s x => simp [ldstBit, d6, hd, ldstCode, s6]

/-! ### The address fields of class 4 (R170, R172) -/

theorem addrOf_addrCode (r : Raw) (ord : Ord) (sel : BitVec 2) (o : AddrOps) : addrOf (addrCode r ord sel o) = some o := by
  unfold addrOf
  rw [show baseA (addrCode r ord sel o) = some o.a from baseOf_baseCode o.a, show bOf (addrCode r ord sel o) = some o.b from srcOf_srcCode o.b]
  simp [sub, addrCode, BitVec.extractLsb'_or, atN_eq_at 2 (ordCode_lt ord)]

theorem ord_addrCode (r : Raw) (ord : Ord) (sel : BitVec 2) (o : AddrOps) : ordOf (immBits (addrCode r ord sel o) 30 2) = ord := by
  rw [immBits_eq]
  simp [sub, addrCode, BitVec.extractLsb'_or, atN_eq_at 2 (ordCode_lt ord)]

theorem sel_addrCode (r : Raw) (ord : Ord) (sel : BitVec 2) (o : AddrOps) : sub (addrCode r ord sel o) 24 2 = sel := by
  simp [sub, addrCode, BitVec.extractLsb'_or, atN_eq_at 2 (ordCode_lt ord)]

/-- The side on which a load or store stands: its base and its index (R172). -/
theorem side_addrCode (r : Raw) (ord : Ord) (sel : BitVec 2) (o : AddrOps) :
    (!(addrCode r ord sel o).akind || !(addrCode r ord sel o).bkind) = memVec o := by
  obtain ⟨a, b, scale, off, scope⟩ := o
  cases a <;> cases b <;> rfl

theorem memOf_memCode (r : Raw) {o : MemOps} (h : (srcCode o.d).1 = !memVec o.at_) : memOf (memCode r o) = some o := by
  have hd : srcOf (!((!(memCode r o).akind) || (!(memCode r o).bkind))) (memCode r o).d = some o.d := by
    rw [show ((!(memCode r o).akind) || (!(memCode r o).bkind)) = memVec o.at_ from side_addrCode r o.ord o.sel o.at_, ← h]
    exact srcOf_srcCode o.d
  unfold memOf
  rw [show addrOf (memCode r o) = some o.at_ from addrOf_addrCode r o.ord o.sel o.at_,
    show mwOf (memCode r o).fmt.toNat = some o.width from mwOf_mwCode o.width, hd,
    show ordOf (immBits (memCode r o) 30 2) = o.ord from ord_addrCode r o.ord o.sel o.at_,
    show sub (memCode r o) 24 2 = o.sel from sel_addrCode r o.ord o.sel o.at_]
  rfl

theorem memOf_load (r : Raw) {o : MemOps} {n k : Nat} (h : loadOk n k o = true) : memOf (memCode r o) = some o := by
  refine memOf_memCode r ?_
  simp only [loadOk, Bool.and_eq_true] at h
  obtain ⟨⟨-, hd⟩, -⟩ := h
  cases e : o.d with
  | v x => rw [e] at hd; simp only [Bool.and_eq_true] at hd; simp [srcCode, hd.1]
  | s x | sz => rw [e] at hd; simpa [srcCode] using hd
  | sp x | imm => rw [e] at hd; cases hd

theorem memOf_store (r : Raw) {o : MemOps} {n k : Nat} (h : storeOk n k o = true) : memOf (memCode r o) = some o := by
  refine memOf_memCode r ?_
  simp only [storeOk, Bool.and_eq_true] at h
  obtain ⟨⟨-, hd⟩, -⟩ := h
  cases e : o.d with
  | v x => rw [e] at hd; simp only [Bool.and_eq_true] at hd; simp [srcCode, hd.1]
  | s x | sz | sp x => rw [e] at hd; simpa [srcCode] using hd
  | imm => rw [e] at hd; cases hd

/-! ### Class 5 (R183, R190) -/

theorem imm_atomOpsCode (r : Raw) (d : BitVec 8) {op : Nat} (hop : op < 16) (o : AtomOps) :
    (atomOpsCode r d op o).imm = at_ 30 (BitVec.ofNat 2 (ordCode o.ord)) ||| at_ 26 o.scope ||| at_ 24 (BitVec.ofNat 2 (cspaceCode o.space))
      ||| at_ 20 (BitVec.ofNat 4 op) ||| at_ 0 o.off := by
  rw [← atN_eq_at 2 (ordCode_lt o.ord), ← atN_eq_at 2 (cspaceCode_lt o.space), ← atN_eq_at 4 hop]
  rfl

theorem op_atomOpsCode (r : Raw) (d : BitVec 8) {op : Nat} (hop : op < 16) (o : AtomOps) : immBits (atomOpsCode r d op o) 20 4 = op := by
  rw [immBits_eq]
  simp [sub, imm_atomOpsCode r d hop, BitVec.extractLsb'_or, hop]

/-- A lock-word operation's field beside the operation's place (R188). -/
theorem m_atomOpsCode (r : Raw) (d : BitVec 8) (m : BitVec 3) (o : AtomOps) : sub (atomOpsCode r d m.toNat o) 20 3 = m := by
  have hm : m.toNat < 2 ^ 3 := m.isLt
  simp [sub, atomOpsCode, BitVec.extractLsb'_or, atN_eq_at 3 hm, atN_eq_at 2 (ordCode_lt o.ord), atN_eq_at 2 (cspaceCode_lt o.space)]

theorem atomOpsOf_atomOpsCode (r : Raw) {d : BitVec 8} {op : Nat} (hop : op < 16) {o : AtomOps} {hasD : Bool}
    (hd : (if hasD then dstOf (Base.isVec o.a || Src.isVec o.b) d else some .sz) = some o.d) :
    atomOpsOf (atomOpsCode r d op o) hasD = some o := by
  have hside : ((!(atomOpsCode r d op o).akind) || (!(atomOpsCode r d op o).bkind)) = (Base.isVec o.a || Src.isVec o.b) := by
    obtain ⟨wide, ord, scope, space, x, a, b, off⟩ := o
    cases a <;> cases b <;> rfl
  have hwide : ((atomOpsCode r d op o).fmt == 1) = o.wide := by
    rw [show (atomOpsCode r d op o).fmt = if o.wide then 1 else 0 from rfl]
    cases o.wide <;> rfl
  have himm := imm_atomOpsCode r d hop o
  unfold atomOpsOf
  rw [show baseA (atomOpsCode r d op o) = some o.a from baseOf_baseCode o.a, show bOf (atomOpsCode r d op o) = some o.b from srcOf_srcCode o.b,
    hside, show (atomOpsCode r d op o).d = d from rfl, hwide, immBits_eq, immBits_eq]
  cases hasD with
  | true => simp [show dstOf _ d = some o.d from hd, sub, himm, BitVec.extractLsb'_or]
  | false =>
    have hz : o.d = .sz := (Option.some.inj hd).symm
    simp [← hz, sub, himm, BitVec.extractLsb'_or]

theorem atomOpsOf_result (r : Raw) {op n : Nat} (hop : op < 16) {o : AtomOps} (h : dstOk n (Base.isVec o.a || Src.isVec o.b) o.d = true) :
    atomOpsOf (atomOpsCode r (dstCode o.d) op o) true = some o :=
  atomOpsOf_atomOpsCode r hop (dstOf_dstCode h)

/-- A barrier word's name stands below bit 14 (R190). -/
theorem barOf_eq {r : Raw} {w : BarRef} {x : BitVec 18} {c : BitVec 11} (hf : r.fmt = barFmt w) (hi : r.imm = at_ 14 x ||| barImm w c) :
    barOf r = w := by
  have hm : (barFmt w == 1#3) = w.member := by
    unfold barFmt
    cases w.member <;> rfl
  simp [barOf, hf, hm, sub, hi, barImm, BitVec.extractLsb'_or]

theorem countOf_eq {r : Raw} {w : BarRef} {x : BitVec 18} {c : BitVec 11} (hi : r.imm = at_ 14 x ||| barImm w c) :
    countOf r (c.setWidth 8) = c := by
  have hc : c.extractLsb' 8 3 ++ c.extractLsb' 0 8 = c := BitVec.extractLsb'_append_extractLsb'
  rw [BitVec.setWidth_eq_extractLsb' (by omega)]
  simpa [countOf, sub, hi, barImm, BitVec.extractLsb'_or] using hc

/-! ### Class 6 (R225, R232, R271) -/

theorem gsCode_some (n : BitVec 3) : gsCode (some n) = at_ 31 (1 : BitVec 1) ||| at_ 28 n := at_append ..

/-- Below the guard slot stands the rest (R225). -/
@[simp] theorem extract_gsCode {lo n : Nat} {gs : GSlot} (h : lo + n ≤ 28) : (gsCode gs).extractLsb' lo n = 0 := by
  cases gs with
  | none => simp [gsCode]
  | some k => simp [gsCode_some, BitVec.extractLsb'_or, show lo + n ≤ 31 by omega, show lo + n ≤ 32 by omega, h]

theorem gsOf_eq {r : Raw} {gs : GSlot} (h : sub r 28 4 = (gsCode gs).extractLsb' 28 4) : gsOf r = gs := by
  have h31 : sub r 31 1 = (gsCode gs).extractLsb' 31 1 := extract_of_extract (s := 3) (by decide) h
  have h28 : sub r 28 3 = (gsCode gs).extractLsb' 28 3 := extract_of_extract (s := 0) (by decide) h
  rw [gsOf, h31, h28]
  cases gs with
  | none => rfl
  | some n => simp [gsCode_some, BitVec.extractLsb'_or]

theorem copyOf_copyCode (r : Raw) (o : CopyOps) : copyOf (copyCode r o) o.p = o := by
  have hb : (if (copyCode r o).b = 0xFE then none else some (b6 (copyCode r o))) = o.b := by
    cases e : o.b with
    | none => simp [copyCode, e]
    | some x =>
      have hx : x.setWidth 8 ≠ 254#8 := fun h => absurd (s6_lt x) (by rw [h]; decide)
      simp [copyCode, e, b6, hx, s6]
  have hgs : gsOf (copyCode r o) = o.gs := gsOf_eq (by simp [sub, copyCode, BitVec.extractLsb'_or])
  unfold copyOf
  rw [hb, hgs]
  simp [sub, copyCode, BitVec.extractLsb'_or, d6, a6, s6]

theorem expOf_expCode (r : Raw) (pin : Bool) {o : ExpOps} (h : dstScalar o.d = true) : expOf (expCode r pin o) = some o := by
  unfold expOf
  rw [show bOf (expCode r pin o) = some o.b from srcOf_srcCode o.b, show dstOf false (expCode r pin o).d = some o.d from dstOf_scalar h]
  simp [sub, expCode, BitVec.extractLsb'_or, a6, s6]

theorem pwordOf_pwordCode {limit : Int → Bool} {signed : Bool} {x : PWord} (h : pwOk limit signed x = true) : pwordOf (pwordCode x) = x := by
  cases x with
  | lit w =>
    have hw : w.toNat < 0xFFF00000 := of_decide_eq_true (Bool.and_eq_true_iff.mp h).1
    exact if_neg (by simpa [pwordCode] using hw)
  | sub r =>
    have hr := r.isLt
    have hn : (pwordCode (.sub r)).toNat = 0xFFF00000 + r.toNat := by
      simp [pwordCode]
      omega
    have hs : (pwordCode (.sub r)).setWidth 6 = r := BitVec.eq_of_toNat_eq (by rw [BitVec.toNat_setWidth, hn]; omega)
    rw [pwordOf, if_pos (by omega), hs]

theorem pblockOf_pblockCode {p : PBlock} {l0 l1 l2 l3 : Int → Bool} {s0 s1 s2 s3 : Bool} (h0 : pwOk l0 s0 p.p0 = true) (h1 : pwOk l1 s1 p.p1 = true)
    (h2 : pwOk l2 s2 p.p2 = true) (h3 : pwOk l3 s3 p.p3 = true) : pblockOf (pblockCode p) = p := by
  simp [pblockOf, pblockCode, pwordOf_pwordCode h0, pwordOf_pwordCode h1, pwordOf_pwordCode h2, pwordOf_pwordCode h3]

end Sys2Proof.Decode
end

/-! ## Decoding gives back what was encoded -/

section
namespace Sys2Proof.Decode

open Sys2Proof.Machine

/-! ### Sides of the well-formed operands (R56) -/

theorem hOk_snd {h : Hdr} {b : Bool} (e : hOk h b = true) : b = true := Bool.and_elim_right e

theorem ops2_side {n m k : Nat} {neg : Bool} {o : Ops2} (h : ops2Ok n m k neg o = true) : dstOk k (Src.isVec o.a || Src.isVec o.b) o.d = true := by
  simp only [ops2Ok, Bool.and_eq_true] at h
  obtain ⟨⟨⟨-, hd⟩, -⟩, -⟩ := h
  exact hd

theorem ops1_side {n k : Nat} {neg imm : Bool} {o : Ops1} (h : ops1Ok n k neg imm o = true) : dstOk k (!o.scalar) o.d = true := by
  simp only [ops1Ok, Bool.and_eq_true] at h
  obtain ⟨⟨⟨⟨-, hd⟩, -⟩, -⟩, -⟩ := h
  exact hd

theorem ops3_side {n m l k : Nat} {neg : Bool} {o : Ops3} (h : ops3Ok n m l k neg o = true) :
    dstOk k (Src.isVec o.a || Src.isVec o.b || Src.isVec o.c) o.d = true ∧ (o.c = Src.imm ∨ o.imm = 0) := by
  simp only [ops3Ok, Bool.and_eq_true, Bool.or_eq_true, beq_iff_eq] at h
  obtain ⟨⟨⟨⟨⟨-, hd⟩, -⟩, -⟩, -⟩, himm⟩ := h
  exact ⟨hd, himm⟩

theorem cvt_side {o : CvtOps} (h : cvtOk o = true) : dstOk (if cvtWidth o.dstt = 64 then 2 else 1) (!o.scalar) o.d = true := Bool.and_elim_right h

theorem atom_side {o : AtomOps} (h : atomOk false o = true) : dstOk (if o.wide then 2 else 1) (Base.isVec o.a || Src.isVec o.b) o.d = true :=
  Bool.and_elim_right h

theorem xcnt_forms {b c : Src} {immB immC : BitVec 20} (h : xcntOk b c immB immC = true) :
    (b = Src.imm ∧ c ≠ Src.imm ∨ immB = 0) ∧ (c = Src.imm ∨ immC = 0) := by
  obtain ⟨hb, hc⟩ := Bool.and_eq_true_iff.mp h
  refine ⟨?_, ?_⟩
  · cases b with
    | v | s | sp => exact .inr (by simpa using hb)
    | imm => exact .inl ⟨rfl, by simpa using hb⟩
    | sz => cases hb
  · cases c with
    | imm => exact .inl rfl
    | _ => exact .inr (by simpa using hc)

/-! ### From the operands to the instruction -/

/-- What an operand form gives goes on to the instruction. -/
theorem map_some {α β : Type} {x : Option α} {a : α} {f : α → β} (h : x = some a) : x.map f = some (f a) := congrArg (Option.map f) h

/-- Class 1 reads its width, and whether it is unsigned, from FMT (R76). -/
theorem map_width {α : Type} {k : IWidth → α → Instr} {x : Option α} {a : α} (h : x = some a) (w : IWidth) :
    x.map (fun o => k (iwOf (iwCode w).toNat) o) = some (k w a) := by
  rw [h, iwOf_iwCode]
  rfl

theorem map_width_unsigned {α : Type} {k : IWidth → Bool → α → Instr} {x : Option α} {a : α} (h : x = some a) (w : IWidth) (u : Bool) :
    x.map (fun o => k (iwOf (iwuCode w u).toNat) ((iwuCode w u).getLsbD 2) o) = some (k w u a) := by
  rw [h, iwOf_iwuCode, unsigned_iwuCode]
  rfl

theorem shift_leaCode (sh : BitVec 2) (u : Bool) :
    (sh.setWidth 3 + if u then 4 else 0).setWidth 2 = sh ∧ (sh.setWidth 3 + if u then 4 else 0 : BitVec 3).getLsbD 2 = u := by
  revert sh u
  decide

theorem map_lock {k : BitVec 3 → AtomOps → Instr} {x : Option AtomOps} {o : AtomOps} {m n : BitVec 3} (h : x = some o) (hm : n = m) :
    x.map (fun o => k n o) = some (k m o) := by
  rw [h, hm]
  rfl

theorem csr_csrwCode (r : Raw) (form : BitVec 3) (c : Csr) (a : Src) : csrOf (immBits (csrwCode r form c a) 0 12) = some c := by
  rw [immBits_eq]
  simp [sub, csrwCode, atN_eq_at 12 (csrCode_lt c)]

theorem candidate_of_six {r : Raw} {p : PBlock} (hc : r.cls = 6) : candidate r p = class6 r p := by
  rw [candidate, hc]
  rfl

theorem class6_mxdrain {r : Raw} {p : PBlock} {h : Hdr} {o : MxdrainOps} (hop : r.op = 0x09) (hh : hdrOf r = h) (hb : baseB r = some o.b)
    (hd : (if r.fmt = 1 then Tgt.v r.d else Tgt.s (a6 r)) = o.dst)
    (hi : r.imm = gsCode o.gs ||| at_ 22 o.dfmt ||| at_ 19 o.rnd ||| at_ 17 o.sat ||| atN 14 (epiCode o.epi) ||| at_ 12 o.bay
      ||| at_ 6 o.rb ||| at_ 0 o.m1) : class6 r p = some (.mxdrain h o) := by
  rw [atN_eq_at 3 (epiCode_lt o.epi)] at hi
  have hgs : gsOf r = o.gs := gsOf_eq (by simp [sub, hi, BitVec.extractLsb'_or])
  simp only [class6, hop, hh, hb, hd, hgs, immBits_eq]
  simp [sub, hi, BitVec.extractLsb'_or]

/-! ### The rows of each class -/

/-- The class of a row (R75). -/
def classOf (i : Instr) : Option Nat := (raw? i).map (·.cls.toNat)

theorem candidate_class0 {i : Instr} {r : Raw} {p : PBlock} (hw : formOk i = true) (hr : raw? i = some r) (hc : classOf i = some 0) :
    candidate r p = some i := by
  cases i with
  | nop h | exit h | call h d off => cases hr; rfl
  | bra h off join =>
    cases hr
    have hj : join.extractLsb' 16 8 ++ join.extractLsb' 8 8 ++ join.extractLsb' 0 8 = join :=
      (append3_extract (k := 8) join).trans BitVec.extractLsb'_eq_self
    exact congrArg (fun j => some (Instr.bra h off j)) hj
  | brx h a join | callx h d a | ret h a => cases hr; exact map_some (tgtOf_tgtCode a)
  | trap h code a =>
    cases hr
    exact (map_some (srcOf_srcCode a)).trans (congrArg (fun x => some (Instr.trap h x a)) (extract_at_self (by decide)))
  | regroup h off a => cases hr; exact map_some (srcOf_srcCode a)
  | msave h d => cases hr; exact map_some (dstOf_scalar (Bool.and_elim_right hw))
  | mand h x | mor h x | mrest h x =>
    cases hr
    cases x with
    | src a imm => exact map_some (maskOf_maskCode (base 0 _ h) rfl (.src a imm))
    | cm m => exact map_some (maskOf_maskCode (base 0 _ h) rfl (.cm m))
  | launch h a => cases hr; exact congrArg (fun a => some (Instr.launch h a)) (setWidth_s6 a)
  | launchLane h a => cases hr; rfl
  | _ => cases hc

theorem candidate_class1 {i : Instr} {r : Raw} {p : PBlock} (hw : formOk i = true) (hr : raw? i = some r) (hc : classOf i = some 1) :
    candidate r p = some i := by
  cases i with
  | iadd h w o | isub h w o | imul h w o => cases hr; exact map_width (ops2Of_ops2Code _ _ (ops2_side (hOk_snd hw))) w
  | and h w o | or h w o | xor h w o | andn h w o | sel h w o =>
    cases hr; exact map_width (ops2Of_ops2Code _ _ (ops2_side (Bool.and_elim_right (hOk_snd hw)))) w
  | shl h w o | shr h w o | sar h w o | rotl h w o => cases hr; exact map_width (ops2Of_ops2Code _ _ (ops2_side (hOk_snd hw))) w
  | imulh h w u o | imin h w u o | imax h w u o => cases hr; exact map_width_unsigned (ops2Of_ops2Code _ _ (ops2_side (hOk_snd hw))) w u
  | bfx h w u o => cases hr; exact map_width_unsigned (ops2Of_ops2Code _ _ (ops2_side (Bool.and_elim_right (hOk_snd hw)))) w u
  | imad h w o => cases hr; exact map_width (ops3Of_ops3Code _ _ (ops3_side (hOk_snd hw)).1 (ops3_side (hOk_snd hw)).2) w
  | bfi h w o => cases hr; exact map_width (ops3Of_ops3Code _ _ (ops3_side (Bool.and_elim_right (hOk_snd hw))).1 (ops3_side (Bool.and_elim_right (hOk_snd hw))).2) w
  | iabs h w o | popc h w o | clz h w o | brev h w o => cases hr; exact map_width (ops1Of_ops1Code _ _ (ops1_side (hOk_snd hw))) w
  | mov h w o => cases hr; exact map_width (ops1Of_ops1Code _ _ (ops1_side (Bool.and_elim_right (hOk_snd hw)))) w
  | lea h sh u o =>
    cases hr
    refine (map_some (ops2Of_ops2Code _ _ (ops2_side (hOk_snd hw)))).trans ?_
    show some (Instr.lea h ((sh.setWidth 3 + if u then 4 else 0).setWidth 2) ((sh.setWidth 3 + if u then 4 else 0).getLsbD 2) o) = _
    rw [(shift_leaCode sh u).1, (shift_leaCode sh u).2]
  | icmp h w u k o =>
    cases hr
    show (icondOf ((cmpCode _ _ _ _).d.toNat / 32)).bind _ = _
    rw [cond_cmpCode, icondOf_icondCode]
    show (cmpOf (cmpCode _ _ _ _)).bind _ = _
    rw [cmpOf_cmpCode]
    show some (Instr.icmp h (iwOf (iwuCode w u).toNat) ((iwuCode w u).getLsbD 2) k o) = _
    rw [iwOf_iwuCode, unsigned_iwuCode]
  | mand h x | mor h x | mrest h x => cases x <;> cases hc
  | _ => cases hc

theorem candidate_class2 {i : Instr} {r : Raw} {p : PBlock} (hw : formOk i = true) (hr : raw? i = some r) (hc : classOf i = some 2) :
    candidate r p = some i := by
  cases i with
  | fadd h f o | fsub h f o | fmul h f o | fmin h f o | fmax h f o =>
    cases hr; cases f <;> exact map_some (ops2Of_ops2Code _ _ (ops2_side (Bool.and_elim_left (hOk_snd hw))))
  | ffma h f o =>
    cases hr; cases f <;> exact map_some (ops3Of_ops3Code _ _ (ops3_side (Bool.and_elim_left (hOk_snd hw))).1 (ops3_side (Bool.and_elim_left (hOk_snd hw))).2)
  | fcmp h f k o =>
    cases hr
    have hk : fcondOf ((cmpCode (base 2 0x06 h) (ffCode f) (fcondCode k) o).d.toNat / 32) = k := by rw [cond_cmpCode, fcondOf_fcondCode]
    cases f <;> exact (map_some (cmpOf_cmpCode _ _ _ _)).trans (congrArg (fun k => some (Instr.fcmp h _ k o)) hk)
  | frcp h f o | frsq h f o | fsqrt h f o | fex2 h f o | flg2 h f o | fsin h f o | fcos h f o =>
    cases hr; cases f <;> exact map_some (ops1Of_ops1Code _ _ (ops1_side (Bool.and_elim_left (hOk_snd hw))))
  | fcvt h o =>
    cases hr
    show (ops1Of (ops1Code (base 2 0x0E h) 0 ⟨o.scalar, o.mods, o.d, o.a, _⟩)).bind _ = _
    rw [ops1Of_ops1Code _ _ (cvt_side (hOk_snd hw))]
    show some (Instr.fcvt h ⟨o.scalar, o.mods, o.d, o.a, sub _ 23 4, sub _ 20 3, sub _ 17 3, sub _ 15 2, sub _ 12 3, sub _ 6 6, sub _ 0 6⟩) = _
    simp [sub, BitVec.extractLsb'_or]
  | fcls h f sc mods m a set =>
    cases hr
    have hm := setWidth_low3 m
    have hs : (at_ 0 set).extractLsb' 0 10 = set := extract_at_self (by decide)
    cases f <;> exact (map_some (srcOf_srcCode a)).trans (congrArg₂ (fun m set => some (Instr.fcls h _ sc mods m a set)) hm hs)
  | frnd h f sc mods d a rnd =>
    cases hr
    have hs : (at_ 0 rnd).extractLsb' 0 3 = rnd := extract_at_self (by decide)
    have hd : dstOk (ffRegs f) (!sc) d = true := ops1_side (Bool.and_elim_right (hOk_snd hw))
    cases f <;> exact (map_some (ops1Of_ops1Code (o := ⟨sc, mods, d, a, at_ 0 rnd⟩) _ _ hd)).trans
      (congrArg (fun rnd => some (Instr.frnd h _ sc mods d a rnd)) hs)
  | fscl h f o => cases hr; cases f <;> exact map_some (ops2Of_ops2Code _ _ (ops2_side (Bool.and_elim_left (hOk_snd hw))))
  | mand h x | mor h x | mrest h x => cases x <;> cases hc
  | _ => cases hc

theorem candidate_class3 {i : Instr} {r : Raw} {p : PBlock} (hw : formOk i = true) (hr : raw? i = some r) (hc : classOf i = some 3) :
    candidate r p = some i := by
  cases i with
  | shfl h mode pair d a b imm =>
    cases hr
    refine (map_some (srcOf_srcCode b)).trans ?_
    exact congrArg₂ (fun m p => some (Instr.shfl h m p d a b imm)) (shflOf_shflCode mode pair) (pair_shflCode mode pair)
  | vote h mode d a =>
    cases hr
    have hi : atN 0 (voteCode mode) ||| atN 4 (ldstBit d) = at_ 0 (BitVec.ofNat 2 (voteCode mode)) ||| at_ 4 (BitVec.ofNat 1 (ldstBit d)) := by
      rw [atN_eq_at 2 (voteCode_lt mode), atN_eq_at 1 (ldstBit_lt d)]
    show some (Instr.vote h (voteOf (immBits _ 0 2)) (ldstOf _) a) = _
    rw [immBits_eq, ldstOf_eq (d := d) rfl (by simp [sub, hi, BitVec.extractLsb'_or])]
    simp [sub, hi, BitVec.extractLsb'_or]
  | redux h op f d a =>
    cases hr
    have hi : atN 0 (reduxCode op) ||| atN 4 (ldstBit d) = at_ 0 (BitVec.ofNat 4 (reduxCode op)) ||| at_ 4 (BitVec.ofNat 1 (ldstBit d)) := by
      rw [atN_eq_at 4 (reduxCode_lt op), atN_eq_at 1 (ldstBit_lt d)]
    show (reduxOf (immBits _ 0 4)).map (fun op => Instr.redux h op f (ldstOf _) a) = _
    rw [immBits_eq, ldstOf_eq (d := d) rfl (by simp [sub, hi, BitVec.extractLsb'_or])]
    simp [sub, hi, BitVec.extractLsb'_or]
  | matchLanes h pair d a => cases hr; cases pair <;> rfl
  | prmt h d a b c imm =>
    cases hr
    have hw' : c = Src.imm ∨ imm = 0 := by simpa using Bool.and_elim_right (hOk_snd hw)
    show (srcOf (srcCode b).1 (srcCode b).2).bind (fun x => (cOf _).bind (fun y => some (Instr.prmt h d a x y (if c != Src.imm then 0 else _)))) = _
    rw [srcOf_srcCode, cOf_cregCode (c := c) (x := 0) rfl fun hc => by simp [hc, at_]]
    by_cases hc : c = Src.imm
    · simp [hc]
    · simp [hc, hw'.resolve_left hc]
  | mand h x | mor h x | mrest h x => cases x <;> cases hc
  | _ => cases hc

theorem candidate_class4 {i : Instr} {r : Raw} {p : PBlock} (hw : formOk i = true) (hr : raw? i = some r) (hc : classOf i = some 4) :
    candidate r p = some i := by
  cases i with
  | ldg h o | lds h o | ldw h o => cases hr; exact map_some (memOf_load _ (Bool.and_elim_left (hOk_snd hw)))
  | ldc h o => cases hr; exact map_some (memOf_load _ (Bool.and_elim_left (Bool.and_elim_left (hOk_snd hw))))
  | stg h o | sts h o | stw h o => cases hr; exact map_some (memOf_store _ (Bool.and_elim_left (hOk_snd hw)))
  | pref h level o =>
    cases hr
    exact (map_some (addrOf_addrCode (base 4 0x07 h) .relaxed 0 o)).trans (congrArg (fun n => some (Instr.pref h n o)) (setWidth_low2 level))
  | cflush h op o =>
    cases hr
    exact (map_some (addrOf_addrCode (base 4 0x09 h) .relaxed 0 o)).trans (congrArg (fun n => some (Instr.cflush h n o)) (setWidth_low2 op))
  | fence h kind scope =>
    cases hr
    show some (Instr.fence h (ordOf (immBits _ 30 2)) (sub _ 26 4)) = _
    rw [immBits_eq]
    simp [sub, BitVec.extractLsb'_or, atN_eq_at 2 (ordCode_lt kind)]
  | mand h x | mor h x | mrest h x => cases x <;> cases hc
  | _ => cases hc

theorem candidate_class5 {i : Instr} {r : Raw} {p : PBlock} (hw : formOk i = true) (hr : raw? i = some r) (hc : classOf i = some 5) :
    candidate r p = some i := by
  cases i with
  | atom h op o =>
    cases hr
    show (atomOf (immBits (atomOpsCode _ _ _ _) 20 4)).bind _ = _
    rw [op_atomOpsCode _ _ (atomCode_lt op), atomOf_atomCode]
    show (atomOpsOf (atomOpsCode _ _ _ _) true).bind _ = _
    rw [atomOpsOf_result _ (atomCode_lt op) (atom_side (hOk_snd hw))]
    rfl
  | acas h o => cases hr; exact map_some (atomOpsOf_result _ (by decide) (atom_side (hOk_snd hw)))
  | red h op dsz o =>
    cases hr
    have hz : o.d = Dst.sz := by
      have ha := Bool.and_elim_right (Bool.and_elim_left (Bool.and_elim_left (hOk_snd hw)))
      simpa using ha
    show (atomOf (immBits (atomOpsCode _ _ _ _) 20 4)).bind _ = _
    rw [op_atomOpsCode _ _ (atomCode_lt op), atomOf_atomCode]
    show (atomOpsOf (atomOpsCode _ _ _ _) false).bind _ = _
    rw [atomOpsOf_atomOpsCode _ (atomCode_lt op) (by rw [hz]; rfl)]
    cases dsz <;> rfl
  | rdlk h m o | rdul h m o | wrlk h m o | wrul h m o =>
    cases hr
    exact map_lock (atomOpsOf_result _ (m.isLt.trans (by decide)) (atom_side (Bool.and_elim_left (Bool.and_elim_left (hOk_snd hw))))) (m_atomOpsCode _ _ m o)
  | barw h w c =>
    cases hr
    have hi : barImm w c = at_ 14 (0 : BitVec 18) ||| barImm w c := by simp [at_]
    show (if sub _ 15 1 = 1 then _ else some (Instr.barw h (barOf _) (countOf _ (c.setWidth 8)))) = _
    rw [if_neg (by simp [sub, barImm, BitVec.extractLsb'_or]), barOf_eq rfl hi, countOf_eq hi]
  | barwWait h w c =>
    cases hr
    have hi : atN 15 1 ||| barImm w 0 = at_ 14 (2 : BitVec 18) ||| barImm w 0 := rfl
    show (if sub _ 15 1 = 1 then (tgtOf (tgtCode c).1 (tgtCode c).2).map (fun c => Instr.barwWait h (barOf _) c) else _) = _
    rw [if_pos (by simp [sub, barImm, BitVec.extractLsb'_or, atN_eq_at 1]), tgtOf_tgtCode, barOf_eq rfl hi]
    rfl
  | barx h w arr b imm =>
    cases hr
    have hi : at_ 16 imm ||| (if arr.isSome then atN 14 1 else 0) ||| barImm w (arr.getD 0)
        = at_ 14 (imm ++ (if arr.isSome then 1 else 0 : BitVec 2)) ||| barImm w (arr.getD 0) := by
      rw [at_append]
      cases arr <;> rfl
    refine (map_some (srcOf_srcCode b)).trans ?_
    show some (Instr.barx h (barOf _) (if sub _ 14 1 = 1 then some (countOf _ _) else none) b (sub _ 16 16)) = _
    rw [barOf_eq rfl hi, show countOf _ _ = arr.getD 0 from countOf_eq hi]
    cases arr <;> simp [sub, barImm, BitVec.extractLsb'_or, atN_eq_at 1]
  | bara h w d c =>
    cases hr
    have hi : barImm w c = at_ 14 (0 : BitVec 18) ||| barImm w c := by simp [at_]
    refine (map_some (dstOf_scalar (Bool.and_elim_right (hOk_snd hw)))).trans ?_
    show some (Instr.bara h (barOf _) d (countOf _ (c.setWidth 8))) = _
    rw [barOf_eq rfl hi, countOf_eq hi]
  | lock h m d a b imm =>
    cases hr
    show (srcOf (srcCode b).1 (srcCode b).2).bind (fun b => (dstOf false (dstCode d)).bind (fun d =>
      some (Instr.lock h (sub _ 20 3) d ((s6 a).setWidth 6) b (sub _ 0 20)))) = _
    rw [srcOf_srcCode, dstOf_scalar (Bool.and_elim_left (Bool.and_elim_left (hOk_snd hw)))]
    simp [sub, BitVec.extractLsb'_or, s6]
  | lockt h m d a =>
    cases hr
    refine (map_some (dstOf_scalar (hOk_snd hw))).trans ?_
    show some (Instr.lockt h (sub _ 20 3) d ((s6 a).setWidth 6)) = _
    simp [sub, s6]
  | unlock h m d a =>
    cases hr
    refine (map_some (dstOf_scalar (hOk_snd hw))).trans ?_
    show some (Instr.unlock h (sub _ 20 3) d ((s6 a).setWidth 6)) = _
    simp [sub, s6]
  | mand h x | mor h x | mrest h x => cases x <;> cases hc
  | _ => cases hc

theorem candidate_class6 {i : Instr} {r : Raw} {p : PBlock} (hw : formOk i = true) (hr : raw? i = some r) (hc : classOf i = some 6)
    (hp : ∀ q, params i = some q → q = p) : candidate r p = some i := by
  cases i with
  | cpy h o => cases hr; cases hp _ rfl; exact congrArg (fun o => some (Instr.cpy h o)) (copyOf_copyCode _ o)
  | cpyg h o => cases hr; cases hp _ rfl; exact congrArg (fun o => some (Instr.cpyg h o)) (copyOf_copyCode _ o)
  | cpyw h o => cases hr; cases hp _ rfl; exact congrArg (fun o => some (Instr.cpyw h o)) (copyOf_copyCode _ o)
  | gres h slot x imm =>
    cases hr
    exact (map_some (srcOf_srcCode x)).trans (congrArg (fun n => some (Instr.gres h n x imm)) (setWidth_low3 slot))
  | gresFree h slot => cases hr; exact congrArg (fun n => some (Instr.gresFree h n)) (setWidth_low3 slot)
  | sbwait h scr a b len =>
    cases hr
    show (baseOf (baseCode a).1 (baseCode a).2).bind (fun a => (srcOf (srcCode b).1 (srcCode b).2).bind (fun b =>
      some (Instr.sbwait h (sub _ 24 1 == 1) a b (sub _ 0 24)))) = _
    rw [baseOf_baseCode, srcOf_srcCode]
    simp [sub, BitVec.extractLsb'_or]
  | sbwaitAll h => cases hr; rfl
  | cdone h gs scope a b =>
    cases hr
    refine (map_some (baseOf_baseCode b)).trans ?_
    show some (Instr.cdone h (gsOf _) (sub _ 24 4) ((s6 a).setWidth 6) b) = _
    rw [gsOf_eq (gs := gs) (by simp [sub, BitVec.extractLsb'_or])]
    simp [sub, BitVec.extractLsb'_or, s6]
  | mxlw h o =>
    cases hr
    show some (Instr.mxlw h ⟨gsOf _, sub _ 22 6, sub _ 20 2, sub _ 16 4, sub _ 15 1 == 1, sub _ 13 2, (s6 o.a).setWidth 6⟩) = _
    rw [gsOf_eq (gs := o.gs) (by simp [sub, BitVec.extractLsb'_or])]
    simp [sub, BitVec.extractLsb'_or, s6]
  | mxswap h gs mask =>
    cases hr
    show some (Instr.mxswap h (gsOf _) (sub _ 12 4)) = _
    rw [gsOf_eq (gs := gs) (by simp [sub, BitVec.extractLsb'_or])]
    simp [sub, BitVec.extractLsb'_or]
  | mxloop h o =>
    cases hr
    cases hp _ rfl
    show some (Instr.mxloop h ⟨gsOf _, sub _ 22 6, sub _ 20 2, sub _ 16 4, sub _ 12 4, sub _ 6 6, sub _ 0 6, (s6 o.a).setWidth 6, (s6 o.b).setWidth 6, o.p⟩) = _
    rw [gsOf_eq (gs := o.gs) (by simp [sub, BitVec.extractLsb'_or])]
    simp [sub, BitVec.extractLsb'_or, s6]
  | mxdrain h o =>
    cases hr
    refine (candidate_of_six rfl).trans (class6_mxdrain (o := o) ?_ ?_ ?_ ?_ ?_)
    · rfl
    · rfl
    · exact baseOf_baseCode o.b
    · cases hd : o.dst with
      | v x => simp
      | s x => simp [a6, s6]
    · rfl
  | mxzero h gs mask rb m1 =>
    cases hr
    show some (Instr.mxzero h (gsOf _) (sub _ 12 4) (sub _ 6 6) (sub _ 0 6)) = _
    rw [gsOf_eq (gs := gs) (by simp [sub, BitVec.extractLsb'_or])]
    simp [sub, BitVec.extractLsb'_or]
  | xfetch h pin o =>
    cases hr
    refine (map_some (expOf_expCode _ pin (Bool.and_elim_left (hOk_snd hw)))).trans ?_
    show some (Instr.xfetch h (sub _ 23 1 == 1) o) = _
    simp [sub, expCode, BitVec.extractLsb'_or]
  | xcnt h a b c immB immC =>
    cases hr
    obtain ⟨hb, hc'⟩ := xcnt_forms (hOk_snd hw)
    show (srcOf (srcCode b).1 (srcCode b).2).bind (fun x => (cOf _).bind (fun y =>
      some (Instr.xcnt h ((s6 a).setWidth 6) x y (if (c != Src.imm) && x == Src.imm then sub _ 9 20 else 0) (if (c != Src.imm) then 0 else sub _ 0 20)))) = _
    rw [srcOf_srcCode, cOf_cregCode (c := c) (x := if b = Src.imm then immB.setWidth 23 else 0) rfl fun hc => by
      by_cases hbi : b = Src.imm <;> simp [hc, hbi, at_]]
    by_cases hci : c = Src.imm
    · have hz : immB = 0 := hb.resolve_left fun h => h.2 hci
      simp [hci, hz, sub, s6]
    · by_cases hbi : b = Src.imm
      · simp [hci, hbi, sub, s6, cregCode_eq, BitVec.extractLsb'_or, hc'.resolve_left hci]
      · simp [hci, hbi, s6, hc'.resolve_left hci, hb.resolve_left fun h => hbi h.1]
  | xpin h o | xunpin h o => cases hr; exact map_some (expOf_expCode _ false (Bool.and_elim_left (hOk_snd hw)))
  | xstat h sel o => cases hr; exact map_some (expOf_expCode (base 6 0x0F h) false (Bool.and_elim_left (Bool.and_elim_right (hOk_snd hw))))
  | coll h o =>
    cases hr
    cases hp _ rfl
    show some (Instr.coll h ⟨o.typ, gsOf _, sub _ 24 4, sub _ 16 8, sub _ 0 2, (s6 o.d).setWidth 6, (s6 o.a).setWidth 6, (s6 o.b).setWidth 6, o.p⟩) = _
    rw [gsOf_eq (gs := o.gs) (by simp [sub, BitVec.extractLsb'_or])]
    simp [sub, BitVec.extractLsb'_or, s6]
  | mand h x | mor h x | mrest h x => cases x <;> cases hc
  | _ => cases hc

theorem candidate_class7 {i : Instr} {r : Raw} {p : PBlock} (hw : formOk i = true) (hr : raw? i = some r) (hc : classOf i = some 7) :
    candidate r p = some i := by
  cases i with
  | ensure h n1 a b first test =>
    cases hr
    refine (map_some (baseOf_baseCode b)).trans ?_
    show some (Instr.ensure h n1 ((s6 a).setWidth 6) b (sub _ 16 16) (sub _ 0 16)) = _
    simp [sub, BitVec.extractLsb'_or, s6]
  | elseby h off => cases hr; exact congrArg (fun x => some (Instr.elseby h x)) (extract_at_self (by decide))
  | elseerr h | accept h | tend h | tabort h | npe h | pen h | tret h => cases hr; rfl
  | reject h a => cases hr; exact map_some (srcOf_srcCode a)
  | conv h a => cases hr; exact congrArg (fun a => some (Instr.conv h a)) (setWidth_s6 a)
  | convx h a => cases hr; exact congrArg (fun a => some (Instr.convx h a)) (setWidth_s6 a)
  | spawn h a die off =>
    cases hr
    refine (map_some (srcOf_srcCode a)).trans ?_
    show some (Instr.spawn h a (if sub _ 30 2 = 1 then some (sub _ 28 2) else none) (sub _ 0 28)) = _
    cases die with
    | none => simp [sub]
    | some d =>
      simp only [sub, at_append]
      simp [BitVec.extractLsb'_or]
  | csrr h d c =>
    cases hr
    show (dstOf false (dstCode d)).bind (fun d => (csrOf (immBits _ 0 12)).bind (fun c => some (Instr.csrr h d c))) = _
    rw [dstOf_scalar (hOk_snd hw), immBits_eq]
    simp [sub, atN_eq_at 12 (csrCode_lt c)]
  | csrwWr h c a | csrwSet h c a | csrwClr h c a =>
    cases hr
    show (aOf (csrwCode (base 7 0x0B h) _ c a)).bind (fun x => (csrOf (immBits (csrwCode (base 7 0x0B h) _ c a) 0 12)).bind _) = _
    rw [csr_csrwCode, show aOf (csrwCode (base 7 0x0B h) _ c a) = some a from srcOf_srcCode a]
    rfl
  | snap h d => cases hr; exact map_some (dstOf_scalar (hOk_snd hw))
  | halt h code => cases hr; exact congrArg (fun x => some (Instr.halt h x)) (extract_at_self (by decide))
  | mand h x | mor h x | mrest h x => cases x <;> cases hc
  | _ => cases hc

theorem candidate_of_raw {i : Instr} {r : Raw} {p : PBlock} (hw : formOk i = true) (hr : raw? i = some r)
    (hp : ∀ q, params i = some q → q = p) : candidate r p = some i := by
  have hc : classOf i = some r.cls.toNat := by rw [classOf, hr]; rfl
  have h8 : r.cls.toNat < 8 := r.cls.isLt
  interval_cases r.cls.toNat
  · exact candidate_class0 hw hr hc
  · exact candidate_class1 hw hr hc
  · exact candidate_class2 hw hr hc
  · exact candidate_class3 hw hr hc
  · exact candidate_class4 hw hr hc
  · exact candidate_class5 hw hr hc
  · exact candidate_class6 hw hr hc hp
  · exact candidate_class7 hw hr hc

/-! ### Operation numbers and parameter blocks -/

/-- Every row's operation number is assigned, and a parameter block follows where R66 says so (R75). -/
theorem assigned_of_raw {i : Instr} {r : Raw} (hr : raw? i = some r) :
    decide (lastOp r.cls.toNat < r.op.toNat) = false ∧ hasParams r = (params i).isSome := by
  cases i with
  | mand h x | mor h x | mrest h x => cases hr; cases x <;> exact ⟨rfl, rfl⟩
  | _ => cases hr <;> exact ⟨rfl, rfl⟩

theorem pblock_of_copy {ss ds : List Nat} {gather : Bool} {o : CopyOps} (h : copyOk ss ds gather o = true) : pblockOf (pblockCode o.p) = o.p := by
  simp only [copyOk, Bool.and_eq_true] at h
  obtain ⟨⟨⟨⟨-, h0⟩, h1⟩, h2⟩, h3⟩ := h
  cases gather with
  | true => exact pblockOf_pblockCode h0 h1 h2 h3
  | false => exact pblockOf_pblockCode h0 h1 h2 h3

/-- A well-formed parameter block is read back (R67). -/
theorem pblock_of_form {i : Instr} {p : PBlock} (hw : formOk i = true) (hp : params i = some p) : pblockOf (pblockCode p) = p := by
  cases i with
  | cpy h o | cpyg h o | cpyw h o =>
    cases hp
    exact pblock_of_copy (hOk_snd hw)
  | mxloop h o =>
    cases hp
    have ho : mxloopOk o = true := hOk_snd hw
    simp only [mxloopOk, Bool.and_eq_true] at ho
    obtain ⟨⟨⟨⟨-, h0⟩, h1⟩, h2⟩, h3⟩ := ho
    exact pblockOf_pblockCode h0 h1 h2 h3
  | coll h o =>
    cases hp
    have ho : collOk o = true := hOk_snd hw
    simp only [collOk, Bool.and_eq_true] at ho
    obtain ⟨⟨⟨⟨-, h0⟩, h1⟩, h2⟩, h3⟩ := ho
    exact pblockOf_pblockCode h0 h1 h2 h3
  | _ => cases hp

theorem decodeRaw_raw {i : Instr} {r : Raw} {ps : List (BitVec 32)} (hw : formOk i = true) (hr : raw? i = some r)
    (hp : ∀ q, params i = some q → ps = pblockCode q) : decodeRaw r ps = .ok i := by
  obtain ⟨hop, hpar⟩ := assigned_of_raw hr
  have hcand : candidate r (pblockOf ps) = some i := candidate_of_raw hw hr fun q hq => by rw [hp q hq, pblock_of_form hw hq]
  have hps : (!hasParams r || (params i).map pblockCode == some ps) = true := by
    cases hq : params i with
    | none => simp [hpar, hq]
    | some q => simp [hp q hq]
  have hwf : i.wellFormed = true := hw
  rw [decodeRaw, if_neg (of_decide_eq_false hop), hcand]
  simp only [hwf, hr, hps, beq_self_eq_true, Bool.and_self, if_true]

end Sys2Proof.Decode

namespace Sys2Proof.Claims

open Sys2Proof.Machine Sys2Proof.Decode

/-- Settles O53: the fields are read back from the words, each operand from its place in them, and the encoder gives the same fields again. -/
theorem decodeOfEncode : Obligations.DecodeOfEncode := by
  intro i hw hm
  obtain ⟨r, hr⟩ := Option.isSome_iff_exists.mp (by simpa [isMachineStep] using hm)
  rw [encode_of_raw hr, decode_assemble]
  refine decodeRaw_raw hw hr fun q hq => ?_
  simp [hq, pblockCode]

/-- Settles O55: the first check of the decoder. -/
theorem unassignedOperations : Obligations.UnassignedOperations := by
  intro w0 w1 w2 ps r h
  have hlast : lastOp r.cls.toNat = [0x0D, 0x18, 0x11, 0x04, 0x09, 0x0C, 0x10, 0x10].getD r.cls.toNat 0 := by
    have h8 : r.cls.toNat < 8 := r.cls.isLt
    interval_cases r.cls.toNat <;> rfl
  have hop : lastOp r.cls.toNat < r.op.toNat := by rwa [hlast]
  exact if_pos hop

/-- The printed words are what the encoder gives for their instructions. -/
theorem printed_encoded : ∀ x ∈ printedWords, x.1 = encode x.2 ∧ x.2.wellFormed = true ∧ isMachineStep x.2 = false := by
  decide

/-- Settles O54: each printed word is an encoding, and decoding gives its instruction back. -/
theorem decodeWords : Obligations.DecodeWords := by
  intro x hx
  obtain ⟨he, hw, hm⟩ := printed_encoded x hx
  rw [he]
  exact decodeOfEncode x.2 hw hm

end Sys2Proof.Claims
end

/-! ## What an effect reads is what stood before it -/

section
namespace Sys2Proof.Claims

open Sys2Proof.Machine

/-- A block without its open levels. -/
def withoutLevels (b : Block) : Block := { b with levels := [] }

/-- Every block is as it was, but for its open levels. -/
def SameBlocks (s t : State) : Prop := ∀ k, (t.blocks.get? k).map withoutLevels = (s.blocks.get? k).map withoutLevels

/-- Shoring a register changes a level of one block (R317). -/
theorem shoreReg_sameBlocks {s t : State} {d gid r : Nat} (e : shoreReg s d gid r = some t) : SameBlocks s t := by
  intro k
  unfold shoreReg at e
  split at e
  · cases e; rfl
  · split at e
    · cases e; rfl
    · split at e
      · cases e; rfl
      · split at e
        · cases e
        · next sp _ =>
          obtain ⟨O, hO⟩ := spillOut_eq s (Group.blk ‹Group›) 136 sp
          rw [hO] at e
          cases e
          simp only [State.setBlock_blocks, Map.get?_modify]
          split
          · cases s.blocks.get? k <;> rfl
          · rfl

theorem shoreDests_sameBlocks (s : State) (d gid : Nat) (rs : List RegRef) : SameBlocks s (shoreDests s d gid rs).1 := by
  induction rs generalizing s with
  | nil => exact fun _ => rfl
  | cons r t ih =>
    cases r with
    | v n =>
      rw [shoreDests]
      split
      · next u hu => exact fun k => (ih u k).trans (shoreReg_sameBlocks hu k)
      · exact fun _ => rfl
    | s n => exact ih s
    | cm n => exact ih s

theorem entered_sameBlocks (i : Instr) (s : State) (c : Ctx) : SameBlocks s (entered i s c) := fun k =>
  (shoreDests_sameBlocks (sampleSpecials s c) _ _ _ k).trans (by rw [sampleSpecials_blocks])

/-- Entering changes no launch and no task. -/
theorem entered_launches_tasks (i : Instr) (s : State) (c : Ctx) :
    (entered i s c).launches = s.launches ∧ (entered i s c).tasks = s.tasks := by
  obtain ⟨B, O, hB, -⟩ := entered_parts i s c
  obtain ⟨G, hG⟩ := sampleSpecials_eq s c
  rw [hB, hG]
  exact ⟨rfl, rfl⟩

theorem withoutLevels_eq {a b : Block} (h : withoutLevels a = withoutLevels b) : ∃ L, a = { b with levels := L } :=
  ⟨a.levels, congrArg (fun x : Block => { x with levels := a.levels }) h⟩

theorem blockOf_same {s t : State} (hb : SameBlocks s t) (g : Group) : ∃ L, t.blockOf g = (s.blockOf g).map (fun b => { b with levels := L }) := by
  have h := hb g.blk
  unfold State.blockOf
  cases hs : s.blocks.get? g.blk with
  | none =>
    rw [hs, Option.map_none, Option.map_eq_none_iff] at h
    exact ⟨[], h⟩
  | some b =>
    rw [hs, Option.map_some, Option.map_eq_some_iff] at h
    obtain ⟨b', hb', he⟩ := h
    obtain ⟨L, rfl⟩ := withoutLevels_eq he
    exact ⟨L, hb'⟩

theorem isShadow_congr {s t : State} (hb : SameBlocks s t) (hl : t.launches = s.launches) (gid : Nat) (g : Group) :
    isShadow t gid g = isShadow s gid g := by
  have hc : isChecked t g = isChecked s g := isChecked_congr (fun k => by
    have h := congrArg (Option.map (fun b : Block => b.launch)) (hb k)
    rwa [Option.map_map, Option.map_map] at h) hl g
  rw [isShadow, hc, isShadow]

/-- A special register depends on no open level of a block (R71). -/
theorem specialOf_congr {s t : State} (hb : SameBlocks s t) (hl : t.launches = s.launches) (ht : t.tasks = s.tasks) (hd : t.dies = s.dies)
    (gid : Nat) (g : Group) (r : SReg) (lane : Nat) : specialOf t gid g r lane = specialOf s gid g r lane := by
  obtain ⟨L, hL⟩ := blockOf_same hb g
  have hslot : visibleSlot t gid g = visibleSlot s gid g := by rw [visibleSlot, isShadow_congr hb hl, visibleSlot]
  have hdie : t.die (dieOfGroup gid) = s.die (dieOfGroup gid) := by rw [State.die, hd, State.die]
  have htask : taskOfLane t g lane = taskOfLane s g lane := by rw [taskOfLane, ht, taskOfLane]
  have hlaunch : ∀ b, t.launchOf b = s.launchOf b := fun b => by rw [State.launchOf, hl, State.launchOf]
  simp only [specialOf, hL, hslot, hdie, htask, hlaunch]
  cases s.blockOf g with
  | none => rfl
  | some b => cases r <;> rfl

theorem readSpecial_congr {s t : State} (hb : SameBlocks s t) (hl : t.launches = s.launches) (ht : t.tasks = s.tasks) (hd : t.dies = s.dies)
    (c : Ctx) (r : SReg) (lane : Nat) : readSpecial t c r lane = readSpecial s c r lane := by
  simp only [readSpecial, isShadow_congr hb hl, specialOf_congr hb hl ht hd]

theorem readSpecial_entered (i : Instr) (s : State) (c : Ctx) (r : SReg) (lane : Nat) :
    readSpecial (entered i s c) c r lane = readSpecial s c r lane := by
  obtain ⟨hl, ht⟩ := entered_launches_tasks i s c
  exact readSpecial_congr (entered_sameBlocks i s c) hl ht (entered_dies i s c) c r lane

@[simp] theorem srcLane_entered (i : Instr) (s : State) (c : Ctx) (n immv : Nat) (a : Src) (lane : Nat) :
    srcLane (entered i s c) c n immv a lane = srcLane s c n immv a lane := by
  cases a <;> simp only [srcLane, readSpecial_entered]

@[simp] theorem srcScalar_entered (i : Instr) (s : State) (c : Ctx) (immv : Nat) (a : Src) :
    srcScalar (entered i s c) c immv a = srcScalar s c immv a := by
  cases a <;> simp only [srcScalar, readSpecial_entered]

@[simp] theorem srcModLane_entered (i : Instr) (s : State) (c : Ctx) (n immv : Nat) (m : Mods) (a : Src) (lane : Nat) :
    srcModLane (entered i s c) c n immv m a lane = srcModLane s c n immv m a lane := by
  cases a <;> simp only [srcModLane, srcLane_entered]

@[simp] theorem iSrc_entered (i : Instr) (s : State) (c : Ctx) (n immv : Nat) (a : Src) (l : Nat ⊕ Unit) :
    iSrc (entered i s c) c n immv a l = iSrc s c n immv a l := by
  cases l <;> simp only [iSrc, srcLane_entered, srcScalar_entered]

@[simp] theorem iSrcMod_entered (i : Instr) (s : State) (c : Ctx) (w : IWidth) (immv : Nat) (m : Mods) (a : Src) (l : Nat ⊕ Unit) :
    iSrcMod (entered i s c) c w immv m a l = iSrcMod s c w immv m a l := by
  cases l <;> simp only [iSrcMod, srcModLane_entered, srcScalar_entered]

end Sys2Proof.Claims
end

/-! ## Integer operations give the results of their rules -/

section
namespace Sys2Proof.Claims

open Sys2Proof.Machine

/-! ### Elements (R126 to R129) -/

theorem truncInt_eq (x : Int) (w : Nat) : truncInt x w = (BitVec.ofInt w x).toNat := by
  simp [truncInt, BitVec.toNat_ofInt]

theorem toSigned_toNat {w : Nat} (a : BitVec w) : toSigned a.toNat w = a.toInt := by
  have h := toSigned_mod a.toNat w
  rwa [Nat.mod_eq_of_lt a.isLt, BitVec.ofNat_toNat, BitVec.setWidth_eq] at h

theorem iAdd_toNat {w : Nat} (a b : BitVec w) : iAdd w a.toNat b.toNat = (a + b).toNat := by
  rw [iAdd, BitVec.toNat_add]

theorem iSub_toNat {w : Nat} (a b : BitVec w) : iSub w a.toNat b.toNat = (a - b).toNat := by
  rw [iSub, BitVec.toNat_sub, Nat.mod_eq_of_lt b.isLt]
  congr 1
  have := b.isLt
  omega

theorem iMul_toNat {w : Nat} (a b : BitVec w) : iMul w a.toNat b.toNat = (a * b).toNat := by
  rw [iMul, BitVec.toNat_mul]

theorem iMulh_toNat {w : Nat} (uns : Bool) (a b : BitVec w) :
    iMulh w uns a.toNat b.toNat
      = (if uns then BitVec.ofNat w (a.toNat * b.toNat / 2 ^ w) else BitVec.ofInt w (a.toInt * b.toInt / 2 ^ w)).toNat := by
  cases uns with
  | true => simp [iMulh]
  | false => simp [iMulh, truncInt_eq, toSigned_toNat]

theorem iMin_toNat {w : Nat} (uns : Bool) (a b : BitVec w) :
    iMin w uns a.toNat b.toNat = (if (if uns then a.ule b else a.sle b) then a else b).toNat := by
  cases uns with
  | true =>
    simp only [iMin, if_true, BitVec.ule, decide_eq_true_eq, apply_ite BitVec.toNat]
    rfl
  | false => simp [iMin, toSigned_toNat, BitVec.sle, apply_ite BitVec.toNat]

theorem iMax_toNat {w : Nat} (uns : Bool) (a b : BitVec w) :
    iMax w uns a.toNat b.toNat = (if (if uns then a.ule b else a.sle b) then b else a).toNat := by
  cases uns with
  | true =>
    simp only [iMax, if_true, BitVec.ule, decide_eq_true_eq, apply_ite BitVec.toNat]
    rfl
  | false => simp [iMax, toSigned_toNat, BitVec.sle, apply_ite BitVec.toNat]

theorem iAndn_toNat {w : Nat} (a b : BitVec w) : iAndn w a.toNat b.toNat = (a &&& ~~~b).toNat := by
  rw [iAndn, BitVec.toNat_and, BitVec.toNat_not, Nat.mod_eq_of_lt b.isLt]

theorem iAbs_toNat {w : Nat} (a : BitVec w) : iAbs w a.toNat = (if a.msb then -a else a).toNat := by
  rw [iAbs, truncInt_eq, toSigned_toNat]
  congr 1
  cases h : a.msb with
  | true =>
    have hneg : a.toInt < 0 := by simpa [BitVec.msb_eq_toInt] using h
    have : ((a.toInt.natAbs : Nat) : Int) = -a.toInt := by omega
    rw [this, BitVec.ofInt_neg, BitVec.ofInt_toInt]
    rfl
  | false =>
    have hneg : ¬ a.toInt < 0 := by simpa [BitVec.msb_eq_toInt] using h
    have : ((a.toInt.natAbs : Nat) : Int) = a.toInt := by omega
    rw [this, BitVec.ofInt_toInt]
    rfl

theorem iShl_toNat {w : Nat} (a : BitVec w) (n : Nat) : iShl w a.toNat n = (a <<< n).toNat := by
  rw [iShl, BitVec.toNat_shiftLeft, Nat.shiftLeft_eq]
  split
  · rfl
  · next h =>
    have : 2 ^ w ∣ a.toNat * 2 ^ n := Dvd.dvd.mul_left (Nat.pow_dvd_pow 2 (by omega)) _
    exact (Nat.mod_eq_zero_of_dvd this).symm

theorem iShr_toNat {w : Nat} (a : BitVec w) (n : Nat) : iShr w a.toNat n = (a >>> n).toNat := by
  rw [iShr, BitVec.toNat_ushiftRight, Nat.shiftRight_eq_div_pow]
  split
  · rfl
  · next h =>
    exact (Nat.div_eq_of_lt (lt_of_lt_of_le a.isLt (Nat.pow_le_pow_right (by omega) (by omega)))).symm

theorem div_pow_of_bounds {x : Int} {k n : Nat} (hlo : -2 ^ k ≤ x) (hhi : x < 2 ^ k) (h : k ≤ n) : x / 2 ^ n = x / 2 ^ k := by
  have hn : (2 : Int) ^ k ≤ 2 ^ n := by exact_mod_cast Nat.pow_le_pow_right (by omega) h
  have hk : (0 : Int) < 2 ^ k := by positivity
  rcases lt_or_ge x 0 with hx | hx
  · rw [Int.ediv_eq_neg_one_of_neg_of_le hx (by omega), Int.ediv_eq_neg_one_of_neg_of_le hx (by omega)]
  · rw [Int.ediv_eq_zero_of_lt hx (by omega), Int.ediv_eq_zero_of_lt hx (by omega)]

theorem iSar_toNat {w : Nat} (hw : 0 < w) (a : BitVec w) (n : Nat) : iSar w a.toNat n = (a.sshiftRight n).toNat := by
  rw [iSar, truncInt_eq, toSigned_toNat, BitVec.sshiftRight, Int.shiftRight_eq_div_pow]
  split
  · simp
  · next h =>
    have hdiv := div_pow_of_bounds (x := a.toInt) (k := w - 1) (n := n) a.le_toInt a.toInt_lt (by omega)
    simp [hdiv]

/-- What is shifted out at the top of a rotation comes in below. -/
theorem rotate_add_eq_or {x r k : Nat} (hx : x < 2 ^ (r + k)) :
    (x * 2 ^ r + x / 2 ^ k) % 2 ^ (r + k) = x * 2 ^ r % 2 ^ (r + k) ||| x / 2 ^ k := by
  have hlow : x / 2 ^ k < 2 ^ r := by
    rw [Nat.div_lt_iff_lt_mul (by positivity), ← pow_add]
    exact hx
  have hmod : x * 2 ^ r % 2 ^ (r + k) = 2 ^ r * (x % 2 ^ k) := by rw [pow_add, mul_comm, Nat.mul_mod_mul_left]
  have hlt : 2 ^ r * (x % 2 ^ k) + x / 2 ^ k < 2 ^ (r + k) := by
    calc 2 ^ r * (x % 2 ^ k) + x / 2 ^ k
        < 2 ^ r * (x % 2 ^ k + 1) := by rw [mul_add]; omega
      _ ≤ 2 ^ r * 2 ^ k := Nat.mul_le_mul_left _ (Nat.mod_lt x (by positivity))
      _ = 2 ^ (r + k) := (pow_add 2 r k).symm
  rw [← Nat.mod_add_mod, hmod, ← Nat.two_pow_add_eq_or_of_lt hlow, Nat.mod_eq_of_lt hlt]

theorem iRotl_toNat {w : Nat} (hw : 0 < w) (a : BitVec w) (n : Nat) : iRotl w a.toNat n = (a.rotateLeft n).toNat := by
  have hr : n % w + (w - n % w) = w := by have := Nat.mod_lt n hw; omega
  have h := rotate_add_eq_or (x := a.toNat) (r := n % w) (k := w - n % w) (by rw [hr]; exact a.isLt)
  rw [hr] at h
  rw [iRotl, BitVec.toNat_rotateLeft, Nat.shiftLeft_eq, Nat.shiftRight_eq_div_pow, h]

theorem iClz_eq {w : Nat} (a : BitVec w) : iClz w a.toNat = ((List.range w).takeWhile (fun k => !a.getMsbD k)).length := by
  rw [iClz]
  split
  · next h =>
    obtain rfl : a = 0 := BitVec.eq_of_toNat_eq h
    rw [List.takeWhile_eq_self_iff.mpr (by simp), List.length_range]
  · next h =>
    have hlog : a.toNat.log2 < w := (Nat.log2_lt h).mpr a.isLt
    have hrange : List.range w = List.range (w - 1 - a.toNat.log2 + (a.toNat.log2 + 1)) := congrArg List.range (by omega)
    have htop : a.getMsbD (w - 1 - a.toNat.log2) = true := by
      rw [BitVec.getMsbD_eq_getLsbD, show w - 1 - (w - 1 - a.toNat.log2) = a.toNat.log2 by omega, BitVec.getLsbD, Nat.testBit_log2 h]
      simp
      omega
    have habove : ∀ k ∈ List.range (w - 1 - a.toNat.log2), (!a.getMsbD k) = true := by
      intro k hk
      rw [List.mem_range] at hk
      have : a.toNat < 2 ^ (w - 1 - k) := lt_of_lt_of_le Nat.lt_log2_self (Nat.pow_le_pow_right (by omega) (by omega))
      rw [BitVec.getMsbD_eq_getLsbD, BitVec.getLsbD, Nat.testBit_lt_two_pow this]
      simp
    generalize hm : w - 1 - a.toNat.log2 = m at *
    rw [hrange, List.range_add, List.takeWhile_append_of_pos habove, List.range_succ_eq_map]
    simp [htop]

/-- After `m` of the bits, the top `m` of the reversed number stand (R126). -/
theorem brev_foldl {w : Nat} (a : BitVec w) {m : Nat} (hm : m ≤ w) :
    (List.range m).foldl (fun y i => if a.toNat.testBit i then y + 2 ^ (w - 1 - i) else y) 0
      = a.reverse.toNat - a.reverse.toNat % 2 ^ (w - m) := by
  induction m with
  | zero => simp [Nat.mod_eq_of_lt a.reverse.isLt]
  | succ m ih =>
    rw [List.range_succ, List.foldl_append, ih (by omega), List.foldl_cons, List.foldl_nil]
    have hbit : a.toNat.testBit m = a.reverse.toNat.testBit (w - 1 - m) := by
      have h := BitVec.getLsbD_reverse (x := a) (i := w - 1 - m)
      rw [BitVec.getMsbD_eq_getLsbD, show w - 1 - (w - 1 - m) = m by omega] at h
      simpa [BitVec.getLsbD, show w - 1 - m < w by omega] using h.symm
    have hmod := Nat.mod_pow_succ (b := 2) (k := w - 1 - m) (x := a.reverse.toNat)
    rw [show w - 1 - m + 1 = w - m by omega] at hmod
    have hle := Nat.mod_le a.reverse.toNat (2 ^ (w - m))
    rw [hbit, Nat.testBit_eq_decide_div_mod_eq, show w - (m + 1) = w - 1 - m by omega]
    rcases Nat.mod_two_eq_zero_or_one (a.reverse.toNat / 2 ^ (w - 1 - m)) with h0 | h1
    · simp [h0] at hmod ⊢
      omega
    · simp [h1] at hmod ⊢
      omega

theorem iBrev_toNat {w : Nat} (a : BitVec w) : iBrev w a.toNat = a.reverse.toNat := by
  rw [iBrev, brev_foldl a le_rfl]
  simp [Nat.mod_one]

theorem fieldMask_eq (w b : Nat) : fieldMask w b = (maskR128 w b).toNat := by
  simp only [fieldMask, maskR128, bitField, Nat.pow_zero, Nat.div_one, Nat.reducePow]
  split <;> simp

theorem iBfi_toNat {w : Nat} (a c : BitVec w) (b : Nat) :
    iBfi w a.toNat b c.toNat = ((c &&& ~~~maskR128 w b) ||| (a <<< (b % 256) &&& maskR128 w b)).toNat := by
  simp [iBfi, fieldMask_eq, BitVec.toNat_or, BitVec.toNat_and, BitVec.toNat_not, BitVec.toNat_shiftLeft, Nat.shiftLeft_eq, bitField]

theorem iBfx_toNat {w : Nat} {h : Hdr} {k : IWidth} {uns : Bool} {o : Ops2} (a : BitVec w) (b : Nat) :
    iBfx w uns a.toNat b = (elemCount (.bfx h k uns o) a b).toNat := by
  simp only [iBfx, elemCount, bitField, Nat.pow_zero, Nat.div_one, Nat.reducePow]
  split
  · simp
  · have hle : min (b / 256 % 256) w ≤ w := min_le_right _ _
    generalize min (b / 256 % 256) w = n at *
    have hf : a.toNat / 2 ^ (b % 256) % 2 ^ n = (BitVec.ofNat n (a.toNat / 2 ^ (b % 256))).toNat := (BitVec.toNat_ofNat _ _).symm
    rw [hf, toSigned_toNat, truncInt_eq]
    generalize BitVec.ofNat n (a.toNat / 2 ^ (b % 256)) = f
    cases uns with
    | true =>
      simp
      exact (Nat.mod_eq_of_lt (lt_of_lt_of_le f.isLt (Nat.pow_le_pow_right (by omega) hle))).symm
    | false => simp [BitVec.signExtend]

theorem lea_toNat (a b : Nat) (uns : Bool) (sh : Nat) :
    truncInt (a + (if uns then ((b % 2 ^ 32 : Nat) : Int) else toSigned (b % 2 ^ 32) 32) * 2 ^ sh) 64
      = (BitVec.ofNat 64 a + (if uns then (BitVec.ofNat 32 b).setWidth 64 else (BitVec.ofNat 32 b).signExtend 64) <<< sh).toNat := by
  have hx : BitVec.ofInt 64 (if uns then ((b % 2 ^ 32 : Nat) : Int) else toSigned (b % 2 ^ 32) 32)
      = if uns then (BitVec.ofNat 32 b).setWidth 64 else (BitVec.ofNat 32 b).signExtend 64 := by
    cases uns with
    | true => exact BitVec.eq_of_toNat_eq (by simp; omega)
    | false => simp only [Bool.false_eq_true, if_false, toSigned_mod, BitVec.signExtend]
  have hpow : BitVec.ofInt 64 (2 ^ sh) = BitVec.twoPow 64 sh := BitVec.eq_of_toNat_eq (by
    rw [BitVec.toNat_ofInt, BitVec.toNat_twoPow]
    rfl)
  rw [truncInt_eq, BitVec.ofInt_add, BitVec.ofInt_mul, hx, hpow, BitVec.shiftLeft_eq_mul_twoPow]
  rfl

theorem iPopc_toNat {w : Nat} (a : BitVec w) : iPopc w a.toNat = (BitVec.ofNat w ((List.range w).filter (a.getLsbD ·)).length).toNat := by
  have hlen : ((List.range w).filter (a.getLsbD ·)).length ≤ w := (List.length_filter_le _ _).trans (by simp)
  rw [BitVec.toNat_ofNat, Nat.mod_eq_of_lt (lt_of_le_of_lt hlen Nat.lt_two_pow_self)]
  rfl

theorem iClz_toNat {w : Nat} (a : BitVec w) :
    iClz w a.toNat = (BitVec.ofNat w ((List.range w).takeWhile (fun k => !a.getMsbD k)).length).toNat := by
  have hlen : ((List.range w).takeWhile (fun k => !a.getMsbD k)).length ≤ w :=
    (List.takeWhile_prefix _).length_le.trans (by simp)
  rw [BitVec.toNat_ofNat, Nat.mod_eq_of_lt (lt_of_le_of_lt hlen Nat.lt_two_pow_self), iClz_eq]

/-! ### From elements to values -/

theorem iShape_pos (w : IWidth) : 0 < (iShape w).1 := by cases w <;> decide

/-- An element as a bit vector is its number. -/
theorem toNat_ofNat_iElem (w : IWidth) (x e : Nat) : (BitVec.ofNat (iShape w).1 (iElem w x e)).toNat = iElem w x e := by
  rw [BitVec.toNat_ofNat, iElem, Nat.mod_mod]

/-- A value depends on its elements modulo their width. -/
theorem iBuild_congr {w : IWidth} {f g : Nat → Nat} (h : ∀ e, f e % 2 ^ (iShape w).1 = g e % 2 ^ (iShape w).1) : iBuild w f = iBuild w g := by
  simp only [iBuild, h]

theorem int2_effect (i : Instr) {w : IWidth} {o : Ops2} {f : Nat → Nat → Nat}
    (hf : ∀ a b : BitVec (iShape w).1, f a.toNat b.toNat = (elem2 i a b).toNat) (j : Instr) (s : State) (c : Ctx) :
    int2 w o f c (entered j s c) = intOp (entered j s c) c (iRegs w) o.d (fun l => iBuild w (fun e =>
      (elem2 i (BitVec.ofNat (iShape w).1 (iElem w (iSrcMod s c w (iImm w o.imm) o.mods o.a l) e))
        (BitVec.ofNat (iShape w).1 (iElem w (iSrc s c (iRegs w) (iImm w o.imm) o.b l) e))).toNat)) := by
  simp only [int2, ← hf, toNat_ofNat_iElem, iSrc_entered, iSrcMod_entered]

theorem int1_effect (i : Instr) {w : IWidth} {o : Ops1} {f : Nat → Nat} (hf : ∀ a : BitVec (iShape w).1, f a.toNat = (elem1 i a).toNat)
    (j : Instr) (s : State) (c : Ctx) :
    int1 w o f c (entered j s c) = intOp (entered j s c) c (iRegs w) o.d (fun l => iBuild w (fun e =>
      (elem1 i (BitVec.ofNat (iShape w).1 (iElem w (iSrcMod s c w (iImm w o.imm) o.mods o.a l) e))).toNat)) := by
  simp only [int1, ← hf, toNat_ofNat_iElem, iSrcMod_entered]

theorem intShift_effect (i : Instr) {w : IWidth} {o : Ops2} {f : Nat → Nat → Nat}
    (hf : ∀ (a : BitVec (iShape w).1) (b : Nat), f a.toNat b = (elemCount i a b).toNat) (j : Instr) (s : State) (c : Ctx) :
    intShift w o f c (entered j s c) = intOp (entered j s c) c (iRegs w) o.d (fun l =>
      let b := iSrc s c 1 o.imm.toNat o.b l % 2 ^ 32
      iBuild w (fun e =>
        (elemCount i (BitVec.ofNat (iShape w).1 (iElem w (iSrcMod s c w (iImm w o.imm) o.mods o.a l) e))
          (if (iShape w).2 = 1 then b else iElem w b e)).toNat)) := by
  simp only [intShift, ← hf, toNat_ofNat_iElem, iSrc_entered, iSrcMod_entered]

/-- An integer instruction's effect is the result that its form gives, its operands read in the state before (R126 to R129). -/
theorem integer_effect {i : Instr} {s : State} {c : Ctx} {x : Dst × Nat × ((Nat ⊕ Unit) → Nat)} (h : intForm i c s = some x) :
    ∃ body, exec i s = .next (runInstr i (actsAlways i) body s)
      ∧ body c (entered i s c) = intOp (entered i s c) c x.2.1 x.1 x.2.2 := by
  cases i with
  | iadd hd w o => cases h; exact ⟨_, rfl, int2_effect (.iadd hd w o) iAdd_toNat ..⟩
  | isub hd w o => cases h; exact ⟨_, rfl, int2_effect (.isub hd w o) iSub_toNat ..⟩
  | imul hd w o => cases h; exact ⟨_, rfl, int2_effect (.imul hd w o) iMul_toNat ..⟩
  | imulh hd w uns o => cases h; exact ⟨_, rfl, int2_effect (.imulh hd w uns o) (iMulh_toNat uns) ..⟩
  | imin hd w uns o => cases h; exact ⟨_, rfl, int2_effect (.imin hd w uns o) (iMin_toNat uns) ..⟩
  | imax hd w uns o => cases h; exact ⟨_, rfl, int2_effect (.imax hd w uns o) (iMax_toNat uns) ..⟩
  | and hd w o => cases h; exact ⟨_, rfl, int2_effect (.and hd w o) (fun a b => (BitVec.toNat_and a b).symm) ..⟩
  | or hd w o => cases h; exact ⟨_, rfl, int2_effect (.or hd w o) (fun a b => (BitVec.toNat_or a b).symm) ..⟩
  | xor hd w o => cases h; exact ⟨_, rfl, int2_effect (.xor hd w o) (fun a b => (BitVec.toNat_xor a b).symm) ..⟩
  | andn hd w o => cases h; exact ⟨_, rfl, int2_effect (.andn hd w o) iAndn_toNat ..⟩
  | iabs hd w o => cases h; exact ⟨_, rfl, int1_effect (.iabs hd w o) iAbs_toNat ..⟩
  | popc hd w o => cases h; exact ⟨_, rfl, int1_effect (.popc hd w o) iPopc_toNat ..⟩
  | clz hd w o => cases h; exact ⟨_, rfl, int1_effect (.clz hd w o) iClz_toNat ..⟩
  | brev hd w o => cases h; exact ⟨_, rfl, int1_effect (.brev hd w o) iBrev_toNat ..⟩
  | mov hd w o => cases h; exact ⟨_, rfl, int1_effect (.mov hd w o) (fun _ => rfl) ..⟩
  | shl hd w o => cases h; exact ⟨_, rfl, intShift_effect (.shl hd w o) iShl_toNat ..⟩
  | shr hd w o => cases h; exact ⟨_, rfl, intShift_effect (.shr hd w o) iShr_toNat ..⟩
  | sar hd w o => cases h; exact ⟨_, rfl, intShift_effect (.sar hd w o) (iSar_toNat (iShape_pos w)) ..⟩
  | rotl hd w o => cases h; exact ⟨_, rfl, intShift_effect (.rotl hd w o) (iRotl_toNat (iShape_pos w)) ..⟩
  | bfx hd w uns o => cases h; exact ⟨_, rfl, intShift_effect (.bfx hd w uns o) iBfx_toNat ..⟩
  | imad hd w o =>
    cases h
    refine ⟨_, rfl, ?_⟩
    simp only [iSrc_entered, iSrcMod_entered]
    refine congrArg _ (funext fun l => iBuild_congr fun e => ?_)
    simp only [BitVec.toNat_add, BitVec.toNat_mul, toNat_ofNat_iElem, Nat.mod_mod, Nat.mod_add_mod]
  | bfi hd w o =>
    cases h
    refine ⟨_, rfl, ?_⟩
    simp only [iSrc_entered, iSrcMod_entered, ← BitVec.toNat_ofNat, iBfi_toNat]
  | lea hd sh uns o =>
    cases h
    refine ⟨_, rfl, ?_⟩
    simp only [iSrc_entered, srcModLane_entered, srcScalar_entered]
    refine congrArg _ (funext fun l => ?_)
    cases l <;> exact lea_toNat ..
  | _ => cases h

/-- A ready instruction whose effect is an integer result: it stands in its destination, and the split has gone on. -/
theorem intOp_completes {i : Instr} {s : State} {c : Ctx} (e : readyCtx i s = some c) {n : Nat} {d : Dst} {f : (Nat ⊕ Unit) → Nat}
    {body : Ctx → State → Res} (hb : body c (entered i s c) = intOp (entered i s c) c n d f) :
    let t := runInstr i (actsAlways i) body s
    resultIn t c c.act d n f = true ∧ wentOn i c t = true := by
  cases d with
  | v r =>
    obtain ⟨hv, -, -, -, -, hw⟩ := vector_result e (f := fun l => f (.inl l)) hb
    exact ⟨List.all_eq_true.mpr fun l hl => beq_iff_eq.mpr (hv l hl), hw⟩
  | s r =>
    obtain ⟨hr, -, -, -, -, hw⟩ := scalar_result e (x := f (.inr ())) hb
    exact ⟨beq_iff_eq.mpr hr, hw⟩
  | sz =>
    obtain ⟨-, -, -, -, hw⟩ := discarded_result e hb
    exact ⟨rfl, hw⟩

/-- Settles O1: element by element each operation computes on numbers what its rule says of bit vectors. -/
theorem integerResults : Obligations.IntegerResults := by
  intro claim hclaim i s ok hok
  rw [List.mem_singleton] at hclaim
  subst hclaim
  simp only [integerClaim, Option.bind_eq_some_iff, Option.map_eq_some_iff] at hok
  obtain ⟨c, e, x, hx, rfl⟩ := hok
  obtain ⟨body, hexec, hb⟩ := integer_effect hx
  obtain ⟨hres, hw⟩ := intOp_completes e hb
  exact ⟨_, hexec, Bool.and_eq_true_iff.mpr ⟨hres, hw⟩⟩

end Sys2Proof.Claims
end

/-! ## An empty guard changes nothing -/

section
namespace Sys2Proof.Claims

open Sys2Proof.Machine

/-- Every instruction that has an encoding issues by the rules of one instruction of a split (R78). -/
theorem exec_eq_runInstr {i : Instr} {r : Raw} (h : Decode.raw? i = some r) :
    ∃ body, ∀ s, exec i s = .next (runInstr i (actsAlways i) body s) := by
  cases i <;> cases h <;> exact ⟨_, fun _ => rfl⟩

/-- What an instruction without registers to shore finds is the sampled state. -/
theorem entered_nop (h : Hdr) (s : State) (c : Ctx) : entered (.nop h) s c = sampleSpecials s c := rfl

theorem primaryFault_sampled (s : State) (c : Ctx) : primaryFault (sampleSpecials s c) c = primaryFault s c :=
  primaryFault_entered (.nop ⟨false, 7, 0, false⟩) s c

/-- An instruction that no lane of its guard reaches completes at once (R59). -/
theorem runInstr_noLane {i : Instr} {s : State} {c : Ctx} (hc : ctxOf (hdrOf i) s = some c) (hlanes : c.act = 0) (halways : actsAlways i = false)
    (hrun : running c = true) (hover : c.g.npeOver = none) (hfails : c.g.fails = []) (hissue : canIssue s c i = true)
    (hbound : boundFault c.g i = none) (hearly : earlyRefs s c.g c.sp i = []) (hfault : primaryFault s c = none) (body : Ctx → State → Res) :
    runInstr i (actsAlways i) body s = finishIssue (advance (sampleSpecials s c) c (lengthOf i)) c i [] := by
  have hact : guardLanes c.g (hdrOf i) c.em = 0 := by
    obtain ⟨-, -, -, -, -, -, -, hact⟩ := ctxOf_some hc
    rw [← hact, hlanes]
  have hctx : { c with act := 0 } = c := by rw [← hlanes]
  have hbefore : beforeNext s c = none := by simp only [beforeNext, hover, hfails]
  unfold runInstr
  simp only [hc, hrun, hbefore, hissue, hbound, hearly, List.head?_nil, ite_self, earlyRead, List.map_nil, hact, halways, hctx,
    Bool.not_true, Bool.not_false, Bool.false_eq_true, if_false, and_self, if_true]
  exact settle_done ((primaryFault_sampled s c).trans hfault) _

/-- Settles O50: an instruction without a lane completes in the sampled state, and sampling and completing touch no register and no byte. -/
theorem emptyGuardGoesOn : Obligations.EmptyGuardGoesOn := by
  intro i s c hmachine halways hc hlanes hrun hover hfails hissue hbound hearly hfault
  obtain ⟨r, hr⟩ : ∃ r, Decode.raw? i = some r := Option.isSome_iff_exists.mp (by simpa [isMachineStep] using hmachine)
  obtain ⟨body, hx⟩ := exec_eq_runInstr hr
  have hrunInstr := runInstr_noLane hc hlanes halways hrun hover hfails hissue hbound hearly hfault body
  obtain ⟨hg, hsp, -, -, -, hpc, -⟩ := ctxOf_some hc
  have hgroup : (sampleSpecials s c).groups.get? c.gid = some c.g := (sampleSpecials_self s c).trans hg
  refine ⟨_, hx s, ?_⟩
  rw [hrunInstr]
  refine ⟨done_wentOn _ _ _ (by simp [splitIn, hgroup, hsp]) hpc, fun a => by simp [State.byte], ?_⟩
  obtain ⟨h, hh, hsettled⟩ := get?_of_settled (done_get _ c i (lengthOf i) c.gid settledGroup fun _ => rfl) hgroup
  exact ⟨h, hh, registersKept_of_settled hsettled (registersKept_refl c.g)⟩

end Sys2Proof.Claims
end

/-! ## A command that takes a free bay clears its accumulators -/

section
namespace Sys2Proof.Claims

open Sys2Proof.Machine

/-- An instruction of a group in no pair sends, and the byte at an address reads otherwise after its issue than before. -/
def rewritesByte (i : Instr) (s : State) (a : Nat) : Bool :=
  match readyCtx i s, exec i s with
  | some c, .next t => sends i s && roleOf s c == .alone && t.byte a != s.byte a
  | _, _ => false

theorem not_issueFrame_of_rewritesByte {i : Instr} {s : State} {a : Nat} (h : rewritesByte i s a = true) : ¬ Obligations.IssueFrame := by
  intro hframe
  unfold rewritesByte at h
  split at h
  · next c t hc ht =>
    simp only [Bool.and_eq_true, beq_iff_eq, bne_iff_ne] at h
    obtain ⟨⟨hsends, halone⟩, hbyte⟩ := h
    obtain ⟨hmem, -⟩ := hframe i s t c hsends hc halone ht
    exact hbyte (hmem a)
  · cases h

/-- Bay 0 of core 0 belongs to no block, and the first byte of its accumulators is not 0. -/
def staleAccumulator : State := { Tests.wide with mem := Map.put Tests.wide.mem (accumBytes 0 0) 7 }

/-- Refutes O49: a block's first matrix command on a free bay takes the bay as it issues, and its accumulators, bytes of memory that the
core's window shows (R28), become +0 in that step (R241). -/
theorem not_issueFrame : ¬ Obligations.IssueFrame :=
  not_issueFrame_of_rewritesByte (i := .mxzero Tests.hd none 1 0 3) (s := staleAccumulator) (a := accumBytes 0 0) (by decide +kernel)

end Sys2Proof.Claims
end

/-! ## Floating-point operations round, set flags and draw as their rules say -/

section
namespace Sys2Proof.Claims

open Sys2Proof.Machine

/-! ### Lanes that set flags and draw (R85, R88) -/

/-- A group after flags and, where the operation draws, the next generator of a lane. -/
theorem flagged_group {P : Prop} [Decidable P] {s : State} {gid : Nat} {g : Group} (hg : s.groups.get? gid = some g) (lane : Nat) (f : Flags)
    (w : Word) :
    (if P then setGenerator (orFlags s gid f) gid lane w else orFlags s gid f).groups.get? gid
      = some { g with fflags := g.fflags ||| f, gen := if P then g.gen.put lane w else g.gen } := by
  split <;> simp [setGenerator, orFlags, hg]

/-- A group after lane upon lane has taken its value, its flags and its generator: three repetitions that do not meet. -/
theorem flaggedLanes_group {P : Prop} [Decidable P] {gid r n : Nat} (y : Nat → Nat × Flags × Word) (ls : List Nat) {s : State} {g : Group}
    (hg : s.groups.get? gid = some g) :
    (ls.foldl (fun s l =>
        if P then setGenerator (orFlags (setVregs s gid r l n (y l).1) gid (y l).2.1) gid l (y l).2.2
        else orFlags (setVregs s gid r l n (y l).1) gid (y l).2.1) s).groups.get? gid
      = some { g with
          v := ls.foldl (fun v l => putVregs v r l n (y l).1) g.v
          fflags := ls.foldl (fun x l => x ||| (y l).2.1) g.fflags
          gen := if P then ls.foldl (fun m l => m.put l (y l).2.2) g.gen else g.gen } := by
  induction ls generalizing s g with
  | nil => simp [hg]
  | cons l ls ih =>
    have hv : (setVregs s gid r l n (y l).1).groups.get? gid = some { g with v := putVregs g.v r l n (y l).1 } := by simp [setVregs, hg]
    rw [List.foldl_cons, ih (flagged_group hv l _ _)]
    by_cases hP : P <;> simp [hP]

/-- The flags of lanes add to those before. -/
theorem foldl_or_flags (ls : List Nat) (f : Nat → Flags) (x : Flags) :
    ls.foldl (fun x l => x ||| f l) x = x ||| ls.foldl (fun x l => x ||| f l) 0 := by
  have h := List.foldl_hom (x ||| ·) (g₁ := fun y l => y ||| f l) (g₂ := fun y l => y ||| f l) (l := ls) (init := 0)
    fun y l => BitVec.or_assoc x y (f l)
  simpa using h

/-- The generator of a lane after the lanes of a list have drawn. -/
theorem generator_foldl_put (g : Group) (ls : List Nat) (w : Nat → Word) (k : Nat) :
    ({ g with gen := ls.foldl (fun m l => m.put l (w l)) g.gen } : Group).generator k = if k ∈ ls then w k else g.generator k := by
  induction ls generalizing g with
  | nil => rfl
  | cons l ls ih =>
    rw [List.foldl_cons]
    refine (ih { g with gen := g.gen.put l (w l) }).trans ?_
    simp only [Group.generator, Map.getD_put, List.mem_cons]
    by_cases hl : l = k
    · subst hl; simp
    · simp [hl, Ne.symm hl]

/-- An operation that does not draw leaves its generator as it was (R87). -/
theorem elements_keeps_generator {draws : Bool} {mode : Nat} (h : ¬(draws ∧ mode = 4)) (bits : Nat) (op : Nat → Rm → Nat × Flags) (n e : Nat)
    (g : Word) : (elements draws mode bits op n e g).2.2 = g := by
  induction n generalizing e with
  | zero => rfl
  | succ n ih => simp only [elements, if_neg h, ih]

/-! ### What a floating result leaves -/

/-- Whether an operation rounds: FMIN and FMAX pick one of their elements (R87, R135). -/
def rounds : Instr → Bool
  | .fmin .. | .fmax .. => false
  | _ => true

/-- The lane whose generator draws: its own, and on the scalar side the lowest of G (log 129). -/
def drawingLane (c : Ctx) : Nat ⊕ Unit → Nat
  | .inl l => l
  | .inr _ => lowestLane c.act

theorem floatLane_eq (i : Instr) (fo : FloatForm) (c : Ctx) (l : Nat ⊕ Unit) :
    floatLane i fo c l = elements (rounds i) (modeOf c.g fo.code) (fmtOf fo.f).1.bits (fo.elem l) (fmtOf fo.f).2 0
      (c.g.generator (drawingLane c l)) := by
  cases l <;> rfl

/-- A lane's generator is kept where the mode is not stochastic or the operation does not round (R87). -/
theorem floatLane_keeps_generator {i : Instr} {fo : FloatForm} {c : Ctx} (h : ¬(rounds i ∧ modeOf c.g fo.code = 4)) (l : Nat ⊕ Unit) :
    (floatLane i fo c l).2.2 = c.g.generator (drawingLane c l) := by
  rw [floatLane_eq, elements_keeps_generator h]

/-- A vector result: each acting lane takes its value, its flags and its generator (R133). -/
theorem floatOp_vector (i : Instr) (fo : FloatForm) (c : Ctx) (s : State) {r : BitVec 8} (hd : fo.d = .v r) :
    floatOp s c fo.f (rounds i) fo.code fo.d fo.elem
      = (lanesOf c.act).foldl (fun s l =>
          let y := floatLane i fo c (.inl l)
          if rounds i ∧ modeOf c.g fo.code = 4 then
            setGenerator (orFlags (setVregs s c.gid r.toNat l (fRegs fo.f) y.1) c.gid y.2.1) c.gid l y.2.2
          else orFlags (setVregs s c.gid r.toNat l (fRegs fo.f) y.1) c.gid y.2.1) s := by
  rw [hd]
  simp only [floatLane_eq]
  rfl

/-- A scalar result, from the generator of the lowest acting lane (R133, log 129). -/
theorem floatOp_scalar (i : Instr) (fo : FloatForm) (c : Ctx) (s : State) (hd : ∀ r, fo.d ≠ .v r) :
    floatOp s c fo.f (rounds i) fo.code fo.d fo.elem
      = let y := floatLane i fo c (.inr ())
        if rounds i ∧ modeOf c.g fo.code = 4 then
          setGenerator (orFlags (setDstScalar s c.gid fo.d y.1) c.gid y.2.1) c.gid (lowestLane c.act) y.2.2
        else orFlags (setDstScalar s c.gid fo.d y.1) c.gid y.2.1 := by
  cases h : fo.d with
  | v r => exact absurd h (hd r)
  | s r | sz =>
    simp only [floatLane_eq]
    rfl

/-- A lane of a destination reads what was written there, whatever else of its group changes. -/
theorem vregs_of_written {g h : Group} {m : LaneMask} {r n : Nat} {f : Nat → Nat}
    (hv : h.v = (lanesOf m).foldl (fun v l => putVregs v r l n (f l)) g.v) {l : Nat} (hl : l ∈ lanesOf m) :
    h.vregs r l n = f l % 2 ^ (32 * n) :=
  (vregs_v_congr h { g with v := _ } hv r l n).trans
    (vregs_written g (lanesOf m) r n f l (nodup_lanesOf m) (fun x hx => ((mem_lanesOf m x).mp hx).1) hl)

/-- A vector result stands in its destination with its flags and draws (R55, R85, R88). -/
theorem floatWritten_vector (i : Instr) (fo : FloatForm) {c : Ctx} {s : State} (hg : s.groups.get? c.gid = some c.g) {r : BitVec 8}
    (hd : fo.d = .v r) :
    ∃ h, (floatOp s c fo.f (rounds i) fo.code fo.d fo.elem).groups.get? c.gid = some h ∧ h.splits = c.g.splits
      ∧ floatWritten i fo c (floatOp s c fo.f (rounds i) fo.code fo.d fo.elem) = true := by
  have hu := flaggedLanes_group (P := rounds i ∧ modeOf c.g fo.code = 4) (r := r.toNat) (n := fRegs fo.f)
    (fun l => floatLane i fo c (.inl l)) (lanesOf c.act) hg
  rw [← floatOp_vector i fo c s hd] at hu
  refine ⟨_, hu, rfl, ?_⟩
  generalize floatOp s c fo.f (rounds i) fo.code fo.d fo.elem = u at hu ⊢
  simp only [floatWritten, hu, hd, resultIn, vregsIn, fflagsIn, addedFlags, Option.map_some, Bool.and_eq_true, List.all_eq_true,
    beq_iff_eq, Option.some.injEq]
  refine ⟨⟨fun l hl => vregs_of_written (f := fun l => (floatLane i fo c (.inl l)).1) rfl hl, foldl_or_flags ..⟩, fun l hl => ?_⟩
  split
  · exact (generator_foldl_put c.g (lanesOf c.act) (fun l => (floatLane i fo c (.inl l)).2.2) l).trans (if_pos hl)
  · next hP => exact (floatLane_keeps_generator hP (.inl l)).symm

/-- A scalar destination holds the value written, and sz nothing; flags, generators and splits are as they were (R55, R58). -/
theorem setDstScalar_group {s : State} {gid : Nat} {g : Group} (hg : s.groups.get? gid = some g) (d : Dst) (x : Nat) :
    ∃ h, (setDstScalar s gid d x).groups.get? gid = some h ∧ h.splits = g.splits ∧ h.fflags = g.fflags ∧ h.gen = g.gen
      ∧ ∀ r, d = .s r → h.sreg r.toNat = BitVec.ofNat 64 x := by
  cases d with
  | v r | sz => exact ⟨g, hg, rfl, rfl, rfl, nofun⟩
  | s r =>
    refine ⟨{ g with s := Map.putD g.s 0 r.toNat (BitVec.ofNat 64 x) }, by simp [setDstScalar, setSreg, hg], rfl, rfl, rfl, ?_⟩
    rintro _ ⟨⟩
    exact Map.getD_putD_self ..

/-- A scalar result stands in its destination with its flags and its draws (R55, R85, R88). -/
theorem floatWritten_scalar (i : Instr) (fo : FloatForm) {c : Ctx} {s : State} (hg : s.groups.get? c.gid = some c.g)
    (hd : ∀ r, fo.d ≠ .v r) :
    ∃ h, (floatOp s c fo.f (rounds i) fo.code fo.d fo.elem).groups.get? c.gid = some h ∧ h.splits = c.g.splits
      ∧ floatWritten i fo c (floatOp s c fo.f (rounds i) fo.code fo.d fo.elem) = true := by
  obtain ⟨h, hh, hsplits, hflags, hgen, hreg⟩ := setDstScalar_group hg fo.d (floatLane i fo c (.inr ())).1
  have hu := flagged_group (P := rounds i ∧ modeOf c.g fo.code = 4) hh (lowestLane c.act) (floatLane i fo c (.inr ())).2.1
    (floatLane i fo c (.inr ())).2.2
  rw [← floatOp_scalar i fo c s hd] at hu
  refine ⟨_, hu, hsplits, ?_⟩
  generalize floatOp s c fo.f (rounds i) fo.code fo.d fo.elem = u at hu ⊢
  have hdraw : (u.groups.get? c.gid).map (·.generator (lowestLane c.act)) = some (floatLane i fo c (.inr ())).2.2 := by
    simp only [hu, Option.map_some, Group.generator, hgen]
    split
    · simp [Map.getD_put]
    · next hP => exact congrArg some (floatLane_keeps_generator hP (.inr ())).symm
  have hadded : fflagsIn u c.gid = some (c.g.fflags ||| (floatLane i fo c (.inr ())).2.1) := by
    simp only [fflagsIn, hu, Option.map_some, hflags]
  have hstands : ∀ r, fo.d = .s r → sregIn u c.gid r.toNat = some (BitVec.ofNat 64 (floatLane i fo c (.inr ())).1) := fun r he => by
    rw [sregIn, hu]
    exact congrArg some (hreg r he)
  cases he : fo.d with
  | v r => exact absurd he (hd r)
  | s r => simp only [floatWritten, he, resultIn, hstands r he, addedFlags, hadded, hdraw, beq_self_eq_true, Bool.and_self]
  | sz => simp only [floatWritten, he, resultIn, addedFlags, hadded, hdraw, beq_self_eq_true, Bool.and_self]

/-- A floating result, wherever it goes, stands with its flags and its draws, and leaves the splits (R133). -/
theorem floatWritten_floatOp (i : Instr) (fo : FloatForm) {c : Ctx} {s : State} (hg : s.groups.get? c.gid = some c.g) :
    ∃ h, (floatOp s c fo.f (rounds i) fo.code fo.d fo.elem).groups.get? c.gid = some h ∧ h.splits = c.g.splits
      ∧ floatWritten i fo c (floatOp s c fo.f (rounds i) fo.code fo.d fo.elem) = true := by
  cases hd : fo.d with
  | v r => exact hd ▸ floatWritten_vector i fo hg hd
  | s r | sz => exact hd ▸ floatWritten_scalar i fo hg (by simp [hd])

/-- Going on and completing leave a floating result as it stands. -/
theorem done_floatWritten (i : Instr) (fo : FloatForm) (t : State) (c : Ctx) (j : Instr) (n : Nat) :
    floatWritten i fo c (finishIssue (advance t c n) c j []) = floatWritten i fo c t := by
  have hgen : ∀ l, ((finishIssue (advance t c n) c j []).groups.get? c.gid).map (·.generator l)
      = (t.groups.get? c.gid).map (·.generator l) := fun l => done_get t c j n c.gid _ fun _ => rfl
  simp only [floatWritten, resultIn, done_vregs, done_sreg, done_fflags, hgen]

/-- A ready instruction whose effect is a floating result: it is written, and the split has gone on. -/
theorem floatOp_completes {i : Instr} {s : State} {c : Ctx} (e : readyCtx i s = some c) (fo : FloatForm) {body : Ctx → State → Res}
    (hb : body c (entered i s c) = .done (floatOp (entered i s c) c fo.f (rounds i) fo.code fo.d fo.elem)) :
    let t := runInstr i (actsAlways i) body s
    floatWritten i fo c t = true ∧ wentOn i c t = true := by
  obtain ⟨hg, hsp, hpc⟩ := entered_group e
  obtain ⟨h, hh, hsplits, hwritten⟩ := floatWritten_floatOp i fo hg
  intro t
  rw [show t = _ from runInstr_done e hb]
  exact ⟨(done_floatWritten ..).trans hwritten, done_wentOn _ _ _ (by rw [splitIn, hh, Option.bind_some, hsplits, hsp]) hpc⟩

/-! ### The instructions -/

@[simp] theorem fSrc_entered (i : Instr) (s : State) (c : Ctx) (f : FFmt) (imm : BitVec 32) (a : Src) (l : Nat ⊕ Unit) :
    fSrc (entered i s c) c f imm a l = fSrc s c f imm a l := by
  cases l <;> simp only [fSrc, srcLane_entered, srcScalar_entered]

@[simp] theorem fSrcMod_entered (i : Instr) (s : State) (c : Ctx) (f : FFmt) (imm : BitVec 32) (m : Mods) (a : Src) (l : Nat ⊕ Unit) :
    fSrcMod (entered i s c) c f imm m a l = fSrcMod s c f imm m a l := by
  cases l <;> simp only [fSrcMod, srcModLane_entered, srcScalar_entered]

/-- The flag of one signalling input (R85). -/
theorem snanFlag_singleton (fm : Fmt) (a : Nat) : snanFlag fm [a] = flagIf (fm.isSnan a) flagNV := by
  simp [snanFlag]

/-- A two-source operation that rounds (R134). -/
theorem float2_effect (i : Instr) {f : FFmt} {o : Ops2} {op : Rm → XVal → XVal → XVal × Bool}
    (hop : ∀ fm rm a b, roundWith fm (op rm (fm.value a) (fm.value b)).1 rm (op rm (fm.value a) (fm.value b)).2 (snanFlag fm [a, b])
      = floatElem i fm rm a b 0) (j : Instr) (s : State) (c : Ctx) :
    float2 f o op c (entered j s c) = .done (floatOp (entered j s c) c f true 7 o.d (fun l e rm =>
      floatElem i (fmtOf f).1 rm (elemAt (fmtOf f).1.bits (fSrcMod s c f o.imm o.mods o.a l) e)
        (elemAt (fmtOf f).1.bits (fSrc s c f o.imm o.b l) e) 0)) := by
  simp only [float2, ← hop, fSrc_entered, fSrcMod_entered]

/-- FMIN and FMAX (R135). -/
theorem floatMinMax_effect (i : Instr) {f : FFmt} {o : Ops2} {greater : Bool}
    (hop : ∀ fm rm a b, minMax fm greater a b = floatElem i fm rm a b 0) (j : Instr) (s : State) (c : Ctx) :
    floatMinMax f greater o c (entered j s c) = .done (floatOp (entered j s c) c f false 7 o.d (fun l e rm =>
      floatElem i (fmtOf f).1 rm (elemAt (fmtOf f).1.bits (fSrcMod s c f o.imm o.mods o.a l) e)
        (elemAt (fmtOf f).1.bits (fSrc s c f o.imm o.b l) e) 0)) := by
  simp only [floatMinMax, ← hop, fSrc_entered, fSrcMod_entered]

/-- A one-source function (R138). -/
theorem floatFn_effect (i : Instr) {f : FFmt} {o : Ops1} {fn : XVal → XVal × Flags}
    (hop : ∀ fm rm a, ((roundTo fm (fn (fm.value a)).1 rm).1,
      (roundTo fm (fn (fm.value a)).1 rm).2 ||| (fn (fm.value a)).2 ||| flagIf (fm.isSnan a) flagNV) = floatElem i fm rm a 0 0)
    (j : Instr) (s : State) (c : Ctx) :
    floatFn f o fn c (entered j s c) = .done (floatOp (entered j s c) c f true 7 o.d (fun l e rm =>
      floatElem i (fmtOf f).1 rm (elemAt (fmtOf f).1.bits (fSrcMod s c f o.imm o.mods o.a l) e) 0 0)) := by
  simp only [floatFn, ← hop, snanFlag_singleton, fSrcMod_entered]

/-- A floating instruction's effect is the result that its form gives, its operands read in the state before (R134 to R140). -/
theorem float_effect {i : Instr} {s : State} {c : Ctx} {fo : FloatForm} (h : floatForm i c s = some fo) :
    ∃ body, exec i s = .next (runInstr i (actsAlways i) body s)
      ∧ body c (entered i s c) = .done (floatOp (entered i s c) c fo.f (rounds i) fo.code fo.d fo.elem) := by
  cases i with
  | fadd hd f o => cases h; exact ⟨_, rfl, float2_effect (.fadd hd f o) (fun _ _ _ _ => rfl) ..⟩
  | fsub hd f o => cases h; exact ⟨_, rfl, float2_effect (.fsub hd f o) (fun _ _ _ _ => rfl) ..⟩
  | fmul hd f o => cases h; exact ⟨_, rfl, float2_effect (.fmul hd f o) (fun _ _ _ _ => rfl) ..⟩
  | ffma hd f o =>
    cases h
    refine ⟨_, rfl, ?_⟩
    simp only [fSrc_entered, fSrcMod_entered]
    rfl
  | fmin hd f o => cases h; exact ⟨_, rfl, floatMinMax_effect (.fmin hd f o) (fun _ _ _ _ => rfl) ..⟩
  | fmax hd f o => cases h; exact ⟨_, rfl, floatMinMax_effect (.fmax hd f o) (fun _ _ _ _ => rfl) ..⟩
  | frcp hd f o => cases h; exact ⟨_, rfl, floatFn_effect (.frcp hd f o) (fun _ _ _ => rfl) ..⟩
  | frsq hd f o => cases h; exact ⟨_, rfl, floatFn_effect (.frsq hd f o) (fun _ _ _ => rfl) ..⟩
  | fsqrt hd f o => cases h; exact ⟨_, rfl, floatFn_effect (.fsqrt hd f o) (fun _ _ _ => rfl) ..⟩
  | fex2 hd f o => cases h; exact ⟨_, rfl, floatFn_effect (.fex2 hd f o) (fun _ _ _ => rfl) ..⟩
  | flg2 hd f o => cases h; exact ⟨_, rfl, floatFn_effect (.flg2 hd f o) (fun _ _ _ => rfl) ..⟩
  | fsin hd f o => cases h; exact ⟨_, rfl, floatFn_effect (.fsin hd f o) (fun _ _ _ => rfl) ..⟩
  | fcos hd f o => cases h; exact ⟨_, rfl, floatFn_effect (.fcos hd f o) (fun _ _ _ => rfl) ..⟩
  | frnd hd f scalar mods d a rnd =>
    cases h
    refine ⟨_, rfl, ?_⟩
    simp only [fSrcMod_entered]
    rfl
  | fscl hd f o =>
    cases h
    refine ⟨_, rfl, ?_⟩
    simp only [iSrc_entered, fSrcMod_entered, snanFlag_singleton]
    rfl
  | _ => cases h

/-- Settles O3: each element is what its form says, and lane by lane the flags and draws are those of R85 to R88. -/
theorem floatResults : Obligations.FloatResults := by
  intro claim hclaim i s ok hok
  rw [List.mem_singleton] at hclaim
  subst hclaim
  simp only [floatClaim, Option.bind_eq_some_iff, Option.map_eq_some_iff] at hok
  obtain ⟨c, e, fo, hfo, rfl⟩ := hok
  obtain ⟨body, hexec, hb⟩ := float_effect hfo
  obtain ⟨hres, hw⟩ := floatOp_completes e fo hb
  exact ⟨_, hexec, Bool.and_eq_true_iff.mpr ⟨hres, hw⟩⟩

end Sys2Proof.Claims
end

/-! ## SEL reads its guard as a selector -/

section
namespace Sys2Proof.Claims

open Sys2Proof.Machine

/-! ### SEL (R130) -/

/-- The context in which SEL reads and writes: every lane of em acts. -/
def overEm (c : Ctx) : Ctx := { c with act := c.em }

@[simp] theorem readSpecial_entered_overEm (i : Instr) (s : State) (c : Ctx) (r : SReg) (lane : Nat) :
    readSpecial (entered i s c) (overEm c) r lane = readSpecial s (overEm c) r lane := readSpecial_entered i s c r lane

theorem iSrc_entered_overEm (i : Instr) (s : State) (c : Ctx) (n immv : Nat) (a : Src) (l : Nat ⊕ Unit) :
    iSrc (entered i s c) (overEm c) n immv a l = iSrc s (overEm c) n immv a l := by
  cases l <;> cases a <;> simp only [iSrc, srcLane, srcScalar, readSpecial_entered_overEm]

theorem iSrcMod_entered_overEm (i : Instr) (s : State) (c : Ctx) (w : IWidth) (immv : Nat) (m : Mods) (a : Src) (l : Nat ⊕ Unit) :
    iSrcMod (entered i s c) (overEm c) w immv m a l = iSrcMod s (overEm c) w immv m a l := by
  cases l <;> cases a <;> simp only [iSrcMod, srcModLane, srcLane, srcScalar, readSpecial_entered_overEm]

/-- An integer result written by any lanes of the group leaves them in its destination and its splits as they were (R55, R58). -/
theorem intOp_stands {s : State} {c : Ctx} {g : Group} (hg : s.groups.get? c.gid = some g) (n : Nat) (d : Dst) (f : (Nat ⊕ Unit) → Nat) :
    ∃ t h, intOp s c n d f = .done t ∧ t.groups.get? c.gid = some h ∧ h.splits = g.splits ∧ resultIn t c c.act d n f = true := by
  cases d with
  | v r =>
    have hset := setDstLanes_group s c r.toNat n (fun l => f (.inl l))
    rw [hg] at hset
    exact ⟨_, _, rfl, hset, rfl, List.all_eq_true.mpr fun l hl => beq_iff_eq.mpr (setDstLanes_reads s c g r.toNat n _ hg l hl)⟩
  | s r =>
    obtain ⟨h, hh, hsplits, -, -, -⟩ := setDstScalar_group hg (.s r) (f (.inr ()))
    exact ⟨_, h, rfl, hh, hsplits, beq_iff_eq.mpr (setSreg_reads s c.gid r.toNat _ g hg)⟩
  | sz => exact ⟨s, g, rfl, hg, rfl, rfl⟩

/-- Going on and completing leave a result as it stands. -/
theorem done_resultIn (t : State) (c : Ctx) (i : Instr) (k : Nat) (m : LaneMask) (d : Dst) (n : Nat) (f : (Nat ⊕ Unit) → Nat) :
    resultIn (finishIssue (advance t c k) c i []) c m d n f = resultIn t c m d n f := by
  simp only [resultIn, done_vregs, done_sreg]

/-- What SEL writes in a lane of em, or on the scalar side: A where the guard holds, else B (R130). -/
def selected (w : IWidth) (o : Ops2) (c : Ctx) (s : State) (l : Nat ⊕ Unit) : Nat :=
  let inG := match l with
    | .inl l => c.act.getLsbD l
    | .inr _ => c.act != 0
  (if inG then iSrcMod s (overEm c) w (iImm w o.imm) o.mods o.a l else iSrc s (overEm c) (iRegs w) (iImm w o.imm) o.b l) % 2 ^ (iShape w).1

theorem selected_entered (i : Instr) (w : IWidth) (o : Ops2) (c : Ctx) (s : State) : selected w o c (entered i s c) = selected w o c s := by
  funext l
  simp only [selected, iSrc_entered_overEm, iSrcMod_entered_overEm]

/-- A SEL that is ready writes nothing where em is empty, and else its result in every lane of em (R130). -/
theorem sel_effect (hd : Hdr) (w : IWidth) (o : Ops2) (s : State) (c : Ctx) :
    let i := Instr.sel hd w o
    ∃ body, exec i s = .next (runInstr i (actsAlways i) body s)
      ∧ body c (entered i s c) = if c.em = 0 then .done (entered i s c)
          else intOp (entered i s c) (overEm c) (iRegs w) o.d (selected w o c s) := by
  refine ⟨_, rfl, ?_⟩
  rw [← selected_entered (.sel hd w o)]
  rfl

theorem selClaim_completes {i : Instr} {s : State} {ok : State → Bool} (hok : selClaim i s = some ok) : ∃ t, exec i s = .next t ∧ ok t = true := by
  unfold selClaim at hok
  split at hok
  · next hd w o c e =>
    obtain ⟨body, hx, hb⟩ := sel_effect hd w o s c
    refine ⟨_, hx, ?_⟩
    split at hok
    · next hem =>
      cases hok
      obtain ⟨-, hreg, -, -, hw⟩ := discarded_result e (hb.trans (if_pos hem))
      refine Bool.and_eq_true_iff.mpr ⟨?_, hw⟩
      split
      · exact beq_iff_eq.mpr (hreg _)
      · rfl
    · next hem =>
      cases hok
      obtain ⟨hg, hsp, hpc⟩ := entered_group e
      obtain ⟨t, h, ht, hh, hsplits, hres⟩ := intOp_stands (c := overEm c) hg (iRegs w) o.d (selected w o c s)
      rw [runInstr_done e (hb.trans ((if_neg hem).trans ht))]
      exact Bool.and_eq_true_iff.mpr ⟨(done_resultIn ..).trans hres,
        done_wentOn _ _ _ (by rw [splitIn, show t.groups.get? c.gid = some h from hh, Option.bind_some, hsplits, hsp]) hpc⟩
  · cases hok

/-- Settles O2: with em empty SEL writes nothing, and else each lane of em takes what its guard's lane selects. -/
theorem selSelects : Obligations.SelSelects := by
  intro claim hclaim i s ok hok
  rw [List.mem_singleton] at hclaim
  subst hclaim
  exact selClaim_completes hok

end Sys2Proof.Claims
end

/-! ## Conversions -/

section
namespace Sys2Proof.Claims

open Sys2Proof.Machine

/-! ### FCVT (R141, R142) -/

/-- How many registers a type takes. -/
def typeRegs (t : BitVec 6) : Nat := if cvtBits t.toNat = 64 then 2 else 1

/-- What FCVT gives in a lane of a vector destination. -/
def cvtVector (o : CvtOps) (s : State) (c : Ctx) (r : BitVec 8) (l : Nat) : Nat × Flags × Word :=
  cvtLane o c (srcModLane s c (typeRegs o.srct) 0 o.mods o.a l) (c.g.vregs r.toNat l (typeRegs o.dstt)) (c.g.generator l)

/-- What a scalar destination holds before. -/
def cvtOld (c : Ctx) : Dst → Nat
  | .s r => (c.g.sreg r.toNat).toNat
  | _ => 0

/-- What FCVT gives on the scalar side. -/
def cvtScalar (o : CvtOps) (s : State) (c : Ctx) : Nat × Flags × Word :=
  cvtLane o c (srcScalar s c 0 o.a) (cvtOld c o.d) (c.g.generator (lowestLane c.act))

theorem cvtVector_entered (i : Instr) (o : CvtOps) (s : State) (c : Ctx) : cvtVector o (entered i s c) c = cvtVector o s c := by
  funext r l
  simp only [cvtVector, srcModLane_entered]

theorem cvtScalar_entered (i : Instr) (o : CvtOps) (s : State) (c : Ctx) : cvtScalar o (entered i s c) c = cvtScalar o s c := by
  simp only [cvtScalar, srcScalar_entered]

/-- A lane takes its flags and, where the rounding is stochastic, its next generator (R85, R88). -/
def flagAndDraw (o : CvtOps) (c : Ctx) (lane : Nat) (y : Nat × Flags × Word) (u : State) : State :=
  if modeOf c.g o.rnd.toNat = 4 then setGenerator (orFlags u c.gid y.2.1) c.gid lane y.2.2 else orFlags u c.gid y.2.1

/-- Flags and draws change groups only. -/
theorem flagAndDraw_groups (o : CvtOps) (c : Ctx) (l : Nat) (y : Nat × Flags × Word) (u : State) :
    ∃ G, flagAndDraw o c l y u = { u with groups := G } := by
  unfold flagAndDraw
  split
  · exact ⟨_, rfl⟩
  · exact ⟨_, rfl⟩

/-- What groups hold is no part of what an operand reads: its registers are those of the context (R109). -/
theorem srcModLane_groups (s : State) (G : Map Group) (c : Ctx) (n immv : Nat) (m : Mods) (a : Src) (l : Nat) :
    srcModLane { s with groups := G } c n immv m a l = srcModLane s c n immv m a l := by
  cases a <;> rfl

/-- What a lane has taken is none of the operands of the next. -/
theorem cvtVector_lane (o : CvtOps) (u : State) (c : Ctx) (l r n x : Nat) (y : Nat × Flags × Word) :
    cvtVector o (flagAndDraw o c l y (setVregs u c.gid r l n x)) c = cvtVector o u c := by
  obtain ⟨G, hG⟩ := flagAndDraw_groups o c l y (setVregs u c.gid r l n x)
  funext q k
  rw [cvtVector, hG, srcModLane_groups]
  rfl

/-- A lane takes its element, its flags and its draw. -/
def takeLane (o : CvtOps) (c : Ctx) (r : BitVec 8) (u : State) (l : Nat) (y : Nat × Flags × Word) : State :=
  flagAndDraw o c l y (setVregs u c.gid r.toNat l (typeRegs o.dstt) y.1)

/-- Lane upon lane takes its values, the operands read as they stand then. -/
def cvtLanes (o : CvtOps) (c : Ctx) (r : BitVec 8) (ls : List Nat) (u : State) : State :=
  ls.foldl (fun u l => takeLane o c r u l (cvtVector o u c r l)) u

/-- All operands are those of the state in which the instruction begins (R109). -/
theorem cvtLanes_eq (o : CvtOps) (c : Ctx) (r : BitVec 8) (ls : List Nat) {u : State} {f : BitVec 8 → Nat → Nat × Flags × Word}
    (hf : cvtVector o u c = f) : cvtLanes o c r ls u = ls.foldl (fun u l => takeLane o c r u l (f r l)) u := by
  unfold cvtLanes
  induction ls generalizing u with
  | nil => rfl
  | cons l ls ih =>
    rw [List.foldl_cons, List.foldl_cons, hf]
    exact ih ((cvtVector_lane ..).trans hf)

/-- What FCVT does: each acting lane takes its element, its flags and its draw, or the scalar destination does. -/
def cvtEffect (o : CvtOps) (c : Ctx) (u : State) : State :=
  match o.d with
  | .v r => cvtLanes o c r (lanesOf c.act) u
  | d => flagAndDraw o c (lowestLane c.act) (cvtScalar o u c) (setDstScalar u c.gid d (cvtScalar o u c).1)

theorem cvt_effect (hd : Hdr) (o : CvtOps) (s : State) (c : Ctx) :
    let i := Instr.fcvt hd o
    ∃ body, exec i s = .next (runInstr i (actsAlways i) body s) ∧ body c (entered i s c) = .done (cvtEffect o c (entered i s c)) := by
  refine ⟨_, rfl, ?_⟩
  unfold cvtEffect cvtLanes takeLane flagAndDraw cvtVector cvtScalar
  obtain ⟨sc, mods, d, a, xv, k, j, sat, rnd, srct, dstt⟩ := o
  cases d
  · rfl
  · rfl
  · rfl

/-- A vector result of FCVT stands in its destination with its flags (R85, R142). -/
theorem cvtWritten_vector {o : CvtOps} {s u : State} {c : Ctx} {r : BitVec 8} (hd : o.d = .v r) (hg : u.groups.get? c.gid = some c.g)
    (hf : cvtVector o u c = cvtVector o s c) :
    ∃ h, (cvtEffect o c u).groups.get? c.gid = some h ∧ h.splits = c.g.splits ∧ cvtWritten o s c (cvtEffect o c u) = true := by
  have he : cvtEffect o c u = (lanesOf c.act).foldl (fun u l => takeLane o c r u l (cvtVector o s c r l)) u := by
    rw [cvtEffect, hd]
    exact cvtLanes_eq o c r _ hf
  have hu := flaggedLanes_group (P := modeOf c.g o.rnd.toNat = 4) (r := r.toNat) (n := typeRegs o.dstt) (cvtVector o s c r) (lanesOf c.act) hg
  change ((lanesOf c.act).foldl (fun u l => takeLane o c r u l (cvtVector o s c r l)) u).groups.get? c.gid = _ at hu
  rw [← he] at hu
  refine ⟨_, hu, rfl, ?_⟩
  generalize cvtEffect o c u = t at hu ⊢
  simp only [cvtWritten, hd, vregsIn, fflagsIn, hu, Option.map_some, Bool.and_eq_true, List.all_eq_true, beq_iff_eq, Option.some.injEq]
  exact ⟨fun l hl => vregs_of_written (f := fun l => (cvtVector o s c r l).1) rfl hl, rfl⟩

/-- A scalar result of FCVT stands in its destination with its flags (R85, R142). -/
theorem cvtWritten_scalar {o : CvtOps} {s u : State} {c : Ctx} (hd : ∀ r, o.d ≠ .v r) (hg : u.groups.get? c.gid = some c.g)
    (hf : cvtScalar o u c = cvtScalar o s c) :
    ∃ h, (cvtEffect o c u).groups.get? c.gid = some h ∧ h.splits = c.g.splits ∧ cvtWritten o s c (cvtEffect o c u) = true := by
  have he : cvtEffect o c u = flagAndDraw o c (lowestLane c.act) (cvtScalar o s c) (setDstScalar u c.gid o.d (cvtScalar o s c).1) := by
    unfold cvtEffect
    split
    · next r hr => exact absurd hr (hd r)
    · rw [hf]
  obtain ⟨h, hh, hsplits, hflags, -, hreg⟩ := setDstScalar_group hg o.d (cvtScalar o s c).1
  have hu := flagged_group (P := modeOf c.g o.rnd.toNat = 4) hh (lowestLane c.act) (cvtScalar o s c).2.1 (cvtScalar o s c).2.2
  change (flagAndDraw o c (lowestLane c.act) (cvtScalar o s c) _).groups.get? c.gid = _ at hu
  rw [← he] at hu
  refine ⟨_, hu, hsplits, ?_⟩
  generalize cvtEffect o c u = t at hu ⊢
  have hadded : fflagsIn t c.gid = some (c.g.fflags ||| (cvtScalar o s c).2.1) := by
    simp only [fflagsIn, hu, Option.map_some, hflags]
  have hstands : ∀ r, o.d = .s r → sregIn t c.gid r.toNat = some (BitVec.ofNat 64 (cvtScalar o s c).1) := fun r hr => by
    rw [sregIn, hu]
    exact congrArg some (hreg r hr)
  cases hdst : o.d with
  | v r => exact absurd hdst (hd r)
  | s r =>
    have hval := hstands r hdst
    simp only [cvtScalar, cvtOld, hdst] at hval hadded
    simp only [cvtWritten, hdst, Bool.and_eq_true, beq_iff_eq]
    exact ⟨hval, hadded⟩
  | sz =>
    simp only [cvtScalar, cvtOld, hdst] at hadded
    simp only [cvtWritten, hdst, Bool.true_and, beq_iff_eq]
    exact hadded

/-- Going on and completing leave a conversion's result as it stands. -/
theorem done_cvtWritten (o : CvtOps) (s t : State) (c : Ctx) (j : Instr) (n : Nat) :
    cvtWritten o s c (finishIssue (advance t c n) c j []) = cvtWritten o s c t := by
  simp only [cvtWritten, done_vregs, done_sreg, done_fflags]

theorem cvtClaim_completes {i : Instr} {s : State} {ok : State → Bool} (hok : cvtClaim i s = some ok) : ∃ t, exec i s = .next t ∧ ok t = true := by
  unfold cvtClaim at hok
  split at hok
  · next hd o c e =>
    cases hok
    obtain ⟨hg, hsp, hpc⟩ := entered_group e
    obtain ⟨body, hx, hb⟩ := cvt_effect hd o s c
    obtain ⟨h, hh, hsplits, hwritten⟩ : ∃ h, (cvtEffect o c (entered (.fcvt hd o) s c)).groups.get? c.gid = some h ∧ h.splits = c.g.splits
        ∧ cvtWritten o s c (cvtEffect o c (entered (.fcvt hd o) s c)) = true := by
      cases hdst : o.d with
      | v r => exact cvtWritten_vector hdst hg (cvtVector_entered ..)
      | s r | sz => exact cvtWritten_scalar (by simp [hdst]) hg (cvtScalar_entered ..)
    refine ⟨_, hx, ?_⟩
    rw [runInstr_done e hb]
    exact Bool.and_eq_true_iff.mpr ⟨(done_cvtWritten ..).trans hwritten,
      done_wentOn _ _ _ (by rw [splitIn, hh, Option.bind_some, hsplits, hsp]) hpc⟩
  · cases hok

/-- Settles O5: every lane's operands are those of the state in which FCVT begins, so that its values are the claim's. -/
theorem conversions : Obligations.Conversions := by
  intro claim hclaim i s ok hok
  rw [List.mem_singleton] at hclaim
  subst hclaim
  exact cvtClaim_completes hok

end Sys2Proof.Claims
end

/-! ## Instructions across lanes -/

section
namespace Sys2Proof.Claims

open Sys2Proof.Machine

/-! ### Lane sets as numbers -/

/-- A set of lanes is the number whose bits are written lane by lane. -/
theorem toNat_ofBoolListLE_lanes {m : LaneMask} {p : Nat → Bool} (h : ∀ l, l < 32 → m.getLsbD l = p l) :
    (BitVec.ofBoolListLE (allLanes.map p)).toNat = m.toNat := by
  refine Nat.eq_of_testBit_eq fun l => ?_
  rw [BitVec.testBit_toNat, BitVec.testBit_toNat, BitVec.getLsbD_ofBoolListLE]
  by_cases hl : l < 32
  · rw [h l hl]
    simp [allLanes, hl]
  · simp [allLanes, hl, BitVec.getLsbD_of_ge m l (by omega)]

/-! ### SHFL (R146) -/

/-- Bits below a segment's size, of a number of 5 bits. -/
theorem toNat_mod_segment {z : Nat} (hz : z ≤ 5) (n : Nat) : (BitVec.ofNat 5 n).toNat % 2 ^ z = n % 2 ^ z := by
  rw [BitVec.toNat_ofNat, Nat.mod_mod_of_dvd _ (Nat.pow_dvd_pow 2 hz)]

/-- Counting down within a segment (R146's mode rev). -/
theorem segment_reversed {z i : Nat} (hz : z ≤ 5) (hi : i < 2 ^ z) : (2 ^ 5 - 1 - i) % 2 ^ z = 2 ^ z - 1 - i := by
  interval_cases z <;> omega

/-- SHFL reads the lane that R146 names. -/
theorem shuffleLane_eq (mode : ShflMode) (b lane : Nat) : shuffleLane mode b lane = shflLane mode b lane := by
  have hz : min (bitField b 8 3) 5 ≤ 5 := min_le_right ..
  have hi : lane % 2 ^ min (bitField b 8 3) 5 < 2 ^ min (bitField b 8 3) 5 := Nat.mod_lt _ (Nat.two_pow_pos _)
  have hsize : 2 ^ min (bitField b 8 3) 5 ≤ 2 ^ 5 := Nat.pow_le_pow_right (by decide) hz
  have hk : bitField b 0 5 = b % 32 := by simp [bitField]
  unfold shuffleLane shflLane
  rw [show min (b / 256 % 8) 5 = min (bitField b 8 3) 5 from rfl, hk]
  dsimp only
  rw [Nat.div_mul_self_eq_mod_sub_self]
  generalize min (bitField b 8 3) 5 = z at hz hi hsize
  generalize hil : lane % 2 ^ z = i at hi
  cases mode with
  | idx => simp only [toNat_mod_segment hz]
  | rot => simp only [← BitVec.ofNat_add, toNat_mod_segment hz]
  | rev =>
    simp only [BitVec.toNat_xor, BitVec.toNat_not, Nat.xor_mod_two_pow, toNat_mod_segment hz]
    rw [BitVec.toNat_ofNat, Nat.mod_eq_of_lt (hi.trans_le hsize), segment_reversed hz hi]
  | xor => simp only [BitVec.toNat_xor, Nat.xor_mod_two_pow, toNat_mod_segment hz]

/-! ### PRMT (R150) -/

/-- Byte j of a number. -/
theorem setWidth_shift_ofNat {w j : Nat} (h : 8 * j + 8 ≤ w) (n : Nat) :
    ((BitVec.ofNat w n) >>> (8 * j)).setWidth 8 = BitVec.ofNat 8 (n / 2 ^ (8 * j)) := by
  refine BitVec.eq_of_getLsbD_eq fun i hi => ?_
  simp only [BitVec.getLsbD_setWidth, BitVec.getLsbD_ushiftRight, BitVec.getLsbD_ofNat, Nat.testBit_div_two_pow, hi, decide_true, Bool.true_and,
    show i + 8 * j < w by omega, Nat.add_comm (8 * j)]

/-- Two fields side by side are the number that they make. -/
theorem toNat_append_eq {m n : Nat} (x : BitVec m) (y : BitVec n) : (x ++ y).toNat = x.toNat * 2 ^ n + y.toNat := by
  rw [BitVec.toNat_append, ← Nat.shiftLeft_add_eq_or_of_lt y.isLt, Nat.shiftLeft_eq]

/-- B above A is one number of 64 bits. -/
theorem append_eq_ofNat (b : Nat) (a : Word) : (BitVec.ofNat 32 b ++ a : BitVec 64) = BitVec.ofNat 64 (b * 2 ^ 32 + a.toNat) := by
  refine BitVec.eq_of_toNat_eq ?_
  have := a.isLt
  rw [toNat_append_eq, BitVec.toNat_ofNat, BitVec.toNat_ofNat]
  omega

/-- A selector byte picks of a number what it picks of its 64 bits. -/
theorem permByte_eq (x : Nat) (sel : BitVec 8) : permByte x sel.toNat = (prmtByte (BitVec.ofNat 64 x) sel).toNat := by
  have hbyte : ((BitVec.ofNat 64 x) >>> (8 * (sel.toNat % 8))).setWidth 8 = BitVec.ofNat 8 (x / 256 ^ (sel.toNat % 8)) := by
    rw [setWidth_shift_ofNat (by omega), show (256 : Nat) = 2 ^ 8 from rfl, ← Nat.pow_mul]
  have hmod : x / 256 ^ (sel.toNat % 8) % 256 = (BitVec.ofNat 8 (x / 256 ^ (sel.toNat % 8))).toNat := by
    rw [BitVec.toNat_ofNat]
  unfold permByte prmtByte
  rw [hbyte, hmod, BitVec.msb_eq_getLsbD_last]
  generalize BitVec.ofNat 8 (x / 256 ^ (sel.toNat % 8)) = y
  have hinvert : (if sel.getLsbD 3 then 255 - y.toNat else y.toNat) = (if sel.getLsbD 3 then ~~~y else y).toNat := by
    rw [apply_ite BitVec.toNat, BitVec.toNat_not]
  dsimp only
  rw [BitVec.testBit_toNat, BitVec.testBit_toNat, BitVec.testBit_toNat, hinvert]
  split
  · simp
    omega
  · rw [iBrev_toNat, ← apply_ite BitVec.toNat]

theorem foldl_range_four (f : Nat → Nat) : (List.range 4).foldl (fun x k => x + f k) 0 = f 0 + f 1 + f 2 + f 3 := by
  simp [List.range_succ]

/-- Four bytes side by side are the number that they add up to. -/
theorem toNat_fourBytes (a b c d : BitVec 8) :
    (d ++ c ++ b ++ a).toNat = a.toNat * 2 ^ (8 * 0) + b.toNat * 2 ^ (8 * 1) + c.toNat * 2 ^ (8 * 2) + d.toNat * 2 ^ (8 * 3) := by
  rewrite [toNat_append_eq, toNat_append_eq, toNat_append_eq]
  ring

/-- Byte j of PRMT (R150). -/
def prmtAt (b sel : Nat) (a : Word) (j : Nat) : BitVec 8 :=
  prmtByte (BitVec.ofNat 32 b ++ a) (((BitVec.ofNat 32 sel) >>> (8 * j)).setWidth 8)

theorem permByte_prmtAt (b sel : Nat) (a : Word) {j : Nat} (hj : j < 4) :
    permByte (b * 2 ^ 32 + a.toNat) (bitField sel (8 * j) 8) = (prmtAt b sel a j).toNat := by
  rw [prmtAt, append_eq_ofNat, setWidth_shift_ofNat (by omega), ← permByte_eq, BitVec.toNat_ofNat, bitField]

/-- PRMT gives its four bytes, each picked by its selector (R150). -/
theorem prmt_eq (b sel : Nat) (a : Word) :
    (List.range 4).foldl (fun y k => y + permByte (b * 2 ^ 32 + a.toNat) (bitField sel (8 * k) 8) * 2 ^ (8 * k)) 0
      = (prmtAt b sel a 3 ++ prmtAt b sel a 2 ++ prmtAt b sel a 1 ++ prmtAt b sel a 0).toNat := by
  rewrite [foldl_range_four, toNat_fourBytes, permByte_prmtAt b sel a (by decide), permByte_prmtAt b sel a (by decide),
    permByte_prmtAt b sel a (by decide), permByte_prmtAt b sel a (by decide)]
  rfl

/-! ### VOTE (R147) -/

theorem vote_mask (c : Ctx) (a : Nat) :
    voteResult .mask c a = (BitVec.ofBoolListLE (allLanes.map (fun l => c.act.getLsbD l && c.g.vreg a l != 0))).toNat :=
  (toNat_ofBoolListLE_lanes fun _ hl => getLsbD_lanesWhere _ _ hl).symm

theorem vote_lead (c : Ctx) (a : Nat) : voteResult .lead c a = ((lanesOf c.act).find? (fun l => c.g.vreg a l != 0)).getD 32 := by
  rw [voteResult, ← List.head?_filter, List.headD_eq_head?_getD]

/-- The lowest lane of a set that is not empty is in it. -/
theorem lowestLane_mem {m : LaneMask} (h : m ≠ 0) : lowestLane m ∈ lanesOf m := by
  obtain ⟨l, hl⟩ := exists_lane h
  unfold lowestLane
  cases hlist : lanesOf m with
  | nil => rw [hlist] at hl; cases hl
  | cons x t => exact List.mem_cons_self

/-- All lanes hold one value where each holds that of the lowest (R147's mode same). -/
theorem vote_same {c : Ctx} (hact : c.act ≠ 0) (a : Nat) :
    voteResult .same c a
      = if (lanesOf c.act).all (fun l => (lanesOf c.act).all (fun k => c.g.vreg a l == c.g.vreg a k)) then 1 else 0 := by
  have hiff : (lanesOf c.act).all (fun l => c.g.vreg a l == c.g.vreg a (lowestLane c.act))
      = (lanesOf c.act).all (fun l => (lanesOf c.act).all (fun k => c.g.vreg a l == c.g.vreg a k)) := by
    rw [Bool.eq_iff_iff]
    simp only [List.all_eq_true, beq_iff_eq]
    exact ⟨fun h l hl k hk => (h l hl).trans (h k hk).symm, fun h l hl => h l hl _ (lowestLane_mem hact)⟩
  simp only [voteResult, hiff]

/-! ### REDUX on integers (R148) -/

/-- A fold over numbers is the fold over the bit vectors that they stand for. -/
theorem foldl_toNat {w : Nat} {f : Nat → Nat → Nat} {F : BitVec w → BitVec w → BitVec w} (hf : ∀ a b, f a.toNat b.toNat = (F a b).toNat)
    (x : BitVec w) (t : List (BitVec w)) : (t.map BitVec.toNat).foldl f x.toNat = (t.foldl F x).toNat := by
  rw [List.foldl_map]
  exact List.foldl_hom BitVec.toNat hf

/-- A fold that keeps the lesser of two by a key keeps one that is least. -/
theorem foldl_least {w : Nat} {key : BitVec w → Int} {F : BitVec w → BitVec w → BitVec w}
    (hF : ∀ a b, (F a b = a ∧ key a ≤ key b) ∨ (F a b = b ∧ key b ≤ key a)) (x : BitVec w) (t : List (BitVec w)) :
    t.foldl F x ∈ x :: t ∧ ∀ y ∈ x :: t, key (t.foldl F x) ≤ key y := by
  induction t generalizing x with
  | nil => exact ⟨List.mem_cons_self, fun y hy => by rw [List.mem_singleton.mp hy]; exact le_rfl⟩
  | cons z t ih =>
    obtain ⟨hmem, hmin⟩ := ih (F x z)
    have hfirst := hmin _ List.mem_cons_self
    have hrest : ∀ y ∈ t, key (t.foldl F (F x z)) ≤ key y := fun y hy => hmin y (List.mem_cons_of_mem _ hy)
    rw [List.foldl_cons]
    simp only [List.mem_cons, forall_eq_or_imp] at hmem ⊢
    rcases hF x z with ⟨he, hxz⟩ | ⟨he, hzx⟩
    · rw [he] at hmem hfirst hrest ⊢
      exact ⟨hmem.imp_right .inr, hfirst, hfirst.trans hxz, hrest⟩
    · rw [he] at hmem hfirst hrest ⊢
      exact ⟨.inr hmem, hfirst.trans hzx, hfirst, hrest⟩

/-- What is least by a key is what a fold keeps of two at a time. -/
theorem find?_least {w : Nat} {le : BitVec w → BitVec w → Bool} {key : BitVec w → Int} {F : BitVec w → BitVec w → BitVec w}
    (hinj : ∀ a b, key a = key b → a = b) (hle : ∀ a b, le a b = decide (key a ≤ key b))
    (hF : ∀ a b, (F a b = a ∧ key a ≤ key b) ∨ (F a b = b ∧ key b ≤ key a)) (x : BitVec w) (t : List (BitVec w)) :
    ((x :: t).find? (fun y => (x :: t).all (le y))).getD 0 = t.foldl F x := by
  obtain ⟨hmem, hmin⟩ := foldl_least hF x t
  cases hfind : (x :: t).find? (fun y => (x :: t).all (le y)) with
  | none =>
    refine absurd (List.all_eq_true.mpr fun y hy => ?_) (List.find?_eq_none.mp hfind _ hmem)
    rw [hle]
    exact decide_eq_true (hmin y hy)
  | some y =>
    have hy := List.all_eq_true.mp (List.find?_some (p := fun y => (x :: t).all (le y)) hfind) _ hmem
    rw [hle, decide_eq_true_eq] at hy
    exact hinj _ _ (le_antisymm hy (hmin y (List.mem_of_find?_eq_some hfind)))

/-- The order of elements is that of their numbers (R148). -/
theorem asInt_le {w : Nat} (uns : Bool) (a b : BitVec w) : (if uns then a.ule b else a.sle b) = decide (asInt uns a ≤ asInt uns b) := by
  cases uns <;> simp [asInt, BitVec.ule, BitVec.sle]

/-- REDUX's minimum is the element that is at most every other. -/
theorem foldl_iMin {w : Nat} (uns : Bool) (x : BitVec w) (t : List (BitVec w)) :
    (t.map BitVec.toNat).foldl (iMin w uns) x.toNat
      = (((x :: t).find? (fun y => (x :: t).all (fun z => if uns then y.ule z else y.sle z))).getD 0).toNat := by
  rw [foldl_toNat (iMin_toNat uns), find?_least (key := asInt uns) (fun _ _ => asInt_inj.mp) (asInt_le uns)]
  intro a b
  rw [asInt_le]
  split
  · next h => exact .inl ⟨rfl, of_decide_eq_true h⟩
  · next h => exact .inr ⟨rfl, (not_le.mp fun hle => h (decide_eq_true hle)).le⟩

/-- REDUX's maximum is the element that is at least every other. -/
theorem foldl_iMax {w : Nat} (uns : Bool) (x : BitVec w) (t : List (BitVec w)) :
    (t.map BitVec.toNat).foldl (iMax w uns) x.toNat
      = (((x :: t).find? (fun y => (x :: t).all (fun z => if uns then z.ule y else z.sle y))).getD 0).toNat := by
  rw [foldl_toNat (iMax_toNat uns), find?_least (key := fun y => -asInt uns y) (fun _ _ h => asInt_inj.mp (neg_inj.mp h))
    (fun a b => by simp only [asInt_le, neg_le_neg_iff])]
  intro a b
  rw [asInt_le, neg_le_neg_iff, neg_le_neg_iff]
  split
  · next h => exact .inr ⟨rfl, of_decide_eq_true h⟩
  · next h => exact .inl ⟨rfl, (not_le.mp fun hle => h (decide_eq_true hle)).le⟩

/-- What R148 gives for an integer operation on some elements. -/
def reduxBits (op : ReduxOp) {w : Nat} (xs : List (BitVec w)) : Option (BitVec w) :=
  let least (le : BitVec w → BitVec w → Bool) : BitVec w := (xs.find? (fun x => xs.all (le x))).getD 0
  match op with
  | .add => some (xs.foldl (· + ·) 0)
  | .min => some (least BitVec.sle)
  | .max => some (least (fun a b => b.sle a))
  | .minu => some (least BitVec.ule)
  | .maxu => some (least (fun a b => b.ule a))
  | .and => some (xs.foldl (· &&& ·) (BitVec.allOnes w))
  | .or => some (xs.foldl (· ||| ·) 0)
  | .xor => some (xs.foldl (· ^^^ ·) 0)
  | .first => some (xs.headD 0)
  | _ => none

/-- REDUX computes on numbers what R148 says of bit vectors. -/
theorem reduxInt_toNat {op : ReduxOp} {w : Nat} {x y : BitVec w} {t : List (BitVec w)} (h : reduxBits op (x :: t) = some y) :
    reduxInt op w ((x :: t).map BitVec.toNat) = y.toNat := by
  cases op with
  | add => cases h; exact foldl_toNat (x := 0) iAdd_toNat (x :: t)
  | min => cases h; exact foldl_iMin false x t
  | max => cases h; exact foldl_iMax false x t
  | minu => cases h; exact foldl_iMin true x t
  | maxu => cases h; exact foldl_iMax true x t
  | and =>
    cases h
    rw [List.foldl_cons, BitVec.allOnes_and]
    exact foldl_toNat (fun a b => (BitVec.toNat_and a b).symm) x t
  | or =>
    cases h
    rw [List.foldl_cons, show 0 ||| x = x from BitVec.zero_or]
    exact foldl_toNat (fun a b => (BitVec.toNat_or a b).symm) x t
  | xor =>
    cases h
    rw [List.foldl_cons, show 0 ^^^ x = x from BitVec.zero_xor]
    exact foldl_toNat (fun a b => (BitVec.toNat_xor a b).symm) x t
  | first => cases h; rfl
  | fadd | fmin | fmax => cases h

theorem vregs_lt (g : Group) (r lane n : Nat) : g.vregs r lane n < 2 ^ (32 * n) := by
  induction n generalizing r with
  | zero => exact Nat.one_pos
  | succ n ih =>
    have hlow := (g.vreg r lane).isLt
    have hhigh := ih (r + 1)
    rw [Group.vregs, show 32 * (n + 1) = 32 + 32 * n by omega, Nat.pow_add]
    nlinarith

/-- The elements of the acting lanes, as bit vectors. -/
def laneElems (c : Ctx) (a n : Nat) : List (BitVec (32 * n)) := (lanesOf c.act).map (fun l => BitVec.ofNat (32 * n) (c.g.vregs a l n))

theorem toNat_laneElems (c : Ctx) (a n : Nat) : (laneElems c a n).map BitVec.toNat = (lanesOf c.act).map (fun l => c.g.vregs a l n) := by
  rw [laneElems, List.map_map]
  exact List.map_congr_left fun l _ => Nat.mod_eq_of_lt (vregs_lt ..)

theorem oneResult_redux (h : Hdr) (op : ReduxOp) (f : BitVec 3) (d : LDst) (a : BitVec 8) (c : Ctx) :
    oneResult (.redux h op f d a) c
      = (reduxBits op (laneElems c a.toNat (if f = 1 then 2 else 1))).map (fun x => (d, if f = 1 then 2 else 1, x.toNat)) := by
  cases op <;> rfl

/-! ### What a result in every lane of G leaves (R144) -/

/-- A ready instruction that writes a vector register lane by lane: it holds the claimed values, and the split has gone on. -/
theorem setDstLanes_completes {i : Instr} {s : State} {c : Ctx} (e : readyCtx i s = some c) {r : BitVec 8} {n : Nat} {f : Nat → Nat}
    {g : (Nat ⊕ Unit) → Nat}
    (hx : ∃ body, exec i s = .next (runInstr i (actsAlways i) body s) ∧ body c (entered i s c) = .done (setDstLanes (entered i s c) c r.toNat n f))
    (hfg : ∀ l, f l = g (.inl l)) : ∃ t, exec i s = .next t ∧ (resultIn t c c.act (.v r) n g && wentOn i c t) = true := by
  obtain ⟨body, hx, hb⟩ := hx
  obtain ⟨hv, -, -, -, -, hw⟩ := vector_result e hb
  exact ⟨_, hx, Bool.and_eq_true_iff.mpr ⟨List.all_eq_true.mpr fun l hl => beq_iff_eq.mpr (hfg l ▸ hv l hl), hw⟩⟩

/-- A group holds a value in every lane of a set, or in a scalar register. -/
def HoldsIn (h : Group) (m : LaneMask) (d : LDst) (n x : Nat) : Prop :=
  match d with
  | .v r => ∀ l ∈ lanesOf m, h.vregs r.toNat l n = x % 2 ^ (32 * n)
  | .s r => h.sreg r.toNat = BitVec.ofNat 64 x

/-- What a group holds is a matter of its registers alone. -/
theorem holdsIn_congr {g h : Group} {m : LaneMask} {d : LDst} {n x : Nat} (hv : g.v = h.v) (hs : g.s = h.s) (hh : HoldsIn h m d n x) :
    HoldsIn g m d n x := by
  cases d with
  | v r =>
    intro l hl
    rw [vregs_v_congr g h hv]
    exact hh l hl
  | s r => exact (congrArg (Map.getD · r.toNat 0) hs).trans hh

theorem ldstIn_of_holds {t : State} {c : Ctx} {h : Group} {d : LDst} {n x : Nat} (hg : t.groups.get? c.gid = some h)
    (hh : HoldsIn h c.act d n x) : ldstIn t c d n x = true := by
  cases d with
  | v r => exact List.all_eq_true.mpr fun l hl => beq_iff_eq.mpr (by rw [vregsIn, hg]; exact congrArg some (hh l hl))
  | s r => exact beq_iff_eq.mpr (by rw [sregIn, hg]; exact congrArg some hh)

/-- One result in every lane of G, or in a scalar: splits, flags and generators are as they were. -/
theorem writeAll_group {s : State} {c : Ctx} {g : Group} (hg : s.groups.get? c.gid = some g) (d : LDst) (n x : Nat) :
    ∃ h, (writeAll s c d n x).groups.get? c.gid = some h ∧ h.splits = g.splits ∧ h.fflags = g.fflags ∧ h.gen = g.gen
      ∧ HoldsIn h c.act d n x := by
  cases d with
  | v r =>
    refine ⟨_, (setDstLanes_group s c r.toNat n fun _ => x).trans (congrArg (Option.map _) hg), rfl, rfl, rfl, fun l hl => ?_⟩
    exact vregs_of_written (f := fun _ => x) rfl hl
  | s r =>
    refine ⟨{ g with s := Map.putD g.s 0 r.toNat (BitVec.ofNat 64 x) }, by simp [writeAll, setSreg, hg], rfl, rfl, rfl, ?_⟩
    exact Map.getD_putD_self ..

theorem done_ldstIn (t : State) (c : Ctx) (i : Instr) (k : Nat) (d : LDst) (n x : Nat) :
    ldstIn (finishIssue (advance t c k) c i []) c d n x = ldstIn t c d n x := by
  simp only [ldstIn, done_vregs, done_sreg]

/-- A ready instruction that gives all lanes of G one result: it stands there, and the split has gone on. -/
theorem writeAll_completes {i : Instr} {s : State} {c : Ctx} (e : readyCtx i s = some c) {d : LDst} {n x : Nat}
    (hx : ∃ body, exec i s = .next (runInstr i (actsAlways i) body s) ∧ body c (entered i s c) = .done (writeAll (entered i s c) c d n x)) :
    ∃ t, exec i s = .next t ∧ (ldstIn t c d n x && wentOn i c t) = true := by
  obtain ⟨body, hx, hb⟩ := hx
  obtain ⟨hg, hsp, hpc⟩ := entered_group e
  obtain ⟨h, hh, hsplits, -, -, hholds⟩ := writeAll_group hg d n x
  refine ⟨_, hx, ?_⟩
  rw [runInstr_done e hb]
  exact Bool.and_eq_true_iff.mpr ⟨(done_ldstIn ..).trans (ldstIn_of_holds hh hholds),
    done_wentOn _ _ _ (by rw [splitIn, hh, Option.bind_some, hsplits, hsp]) hpc⟩

/-! ### The instructions -/

/-- VOTE's result is that of R147. -/
theorem vote_completes {hd : Hdr} {mode : VoteMode} {d : LDst} {a : BitVec 8} {s : State} {c : Ctx} (e : readyCtx (.vote hd mode d a) s = some c)
    {x : LDst × Nat × Nat} (hone : oneResult (.vote hd mode d a) c = some x) :
    ∃ t, exec (.vote hd mode d a) s = .next t ∧ (ldstIn t c x.1 x.2.1 x.2.2 && wentOn (.vote hd mode d a) c t) = true := by
  obtain ⟨-, -, -, -, -, -, hact, -, -⟩ := ready_parts (readyCtx_some e).2
  have hx : x = (d, 1, voteResult mode c a.toNat) := by
    cases mode with
    | mask => cases hone; rw [vote_mask]
    | count => cases hone; rfl
    | lead => cases hone; rw [vote_lead]
    | same => cases hone; rw [vote_same (hact.resolve_right nofun)]
  subst hx
  exact writeAll_completes e ⟨_, rfl, rfl⟩

/-- REDUX on integers gives the result of R148. -/
theorem reduxInt_completes {hd : Hdr} {op : ReduxOp} {f : BitVec 3} {d : LDst} {a : BitVec 8} {s : State} {c : Ctx}
    (e : readyCtx (.redux hd op f d a) s = some c) {x : LDst × Nat × Nat} (hone : oneResult (.redux hd op f d a) c = some x) :
    ∃ t, exec (.redux hd op f d a) s = .next t ∧ (ldstIn t c x.1 x.2.1 x.2.2 && wentOn (.redux hd op f d a) c t) = true := by
  obtain ⟨-, -, -, -, -, -, hact, -, -⟩ := ready_parts (readyCtx_some e).2
  rw [oneResult_redux, Option.map_eq_some_iff] at hone
  obtain ⟨y, hy, rfl⟩ := hone
  have hfloat : reduxIsFloat op = false := by
    cases op with
    | fadd | fmin | fmax => cases hy
    | _ => rfl
  have hresult : reduxInt op (32 * if f = 1 then 2 else 1) ((lanesOf c.act).map (fun l => c.g.vregs a.toNat l (if f = 1 then 2 else 1))) = y.toNat := by
    obtain ⟨l, hl⟩ := exists_lane (hact.resolve_right nofun)
    rw [← toNat_laneElems]
    cases hlist : laneElems c a.toNat (if f = 1 then 2 else 1) with
    | nil => rw [laneElems, List.map_eq_nil_iff] at hlist; rw [hlist] at hl; cases hl
    | cons z t => exact reduxInt_toNat (hlist ▸ hy)
  refine writeAll_completes e ⟨_, rfl, ?_⟩
  dsimp only
  rw [hfloat, ← hresult]
  rfl

theorem lanesClaim_completes {i : Instr} {s : State} {ok : State → Bool} (hok : lanesClaim i s = some ok) :
    ∃ t, exec i s = .next t ∧ ok t = true := by
  simp only [lanesClaim, Option.bind_eq_some_iff] at hok
  obtain ⟨c, e, hok⟩ := hok
  cases i with
  | shfl hd mode pair d a b imm =>
    cases hok
    exact setDstLanes_completes e ⟨_, rfl, rfl⟩ fun l => by rw [shuffleLane_eq, srcLane_entered]
  | matchLanes hd pair d a =>
    cases hok
    exact setDstLanes_completes e ⟨_, rfl, rfl⟩ fun l => (toNat_ofBoolListLE_lanes fun k hk => getLsbD_lanesWhere _ _ hk).symm
  | prmt hd d a b sel imm =>
    cases hok
    refine setDstLanes_completes e ⟨_, rfl, rfl⟩ fun l => ?_
    rw [srcLane_entered, srcLane_entered, prmt_eq]
    rfl
  | vote hd mode d a =>
    obtain ⟨x, hx, rfl⟩ := Option.map_eq_some_iff.mp hok
    exact vote_completes e hx
  | redux hd op f d a =>
    obtain ⟨x, hx, rfl⟩ := Option.map_eq_some_iff.mp hok
    exact reduxInt_completes e hx
  | _ => cases hok

/-! ### REDUX on floats (R148) -/

/-- What REDUX on floats gives: the result, its flags and the generator that it leaves at the lowest lane of G. -/
def reduxOut (op : ReduxOp) (f : BitVec 3) (a : BitVec 8) (c : Ctx) : (Nat × Flags) × Word :=
  let fm := reduxFmt f.toNat
  let mode := modeOf c.g 7
  let gen := if op = .fadd ∧ mode = 4 then drawNext (c.g.generator (lowestLane c.act)) else c.g.generator (lowestLane c.act)
  (reduxFloat op fm (rmOf mode gen.toNat) ((lanesOf c.act).map (fun l => c.g.vregs a.toNat l (if f = 1 then 2 else 1) % 2 ^ fm.bits)), gen)

/-- The effect of REDUX on floats: one result, its flags, and a draw by FADD alone (R88). -/
def reduxEffect (op : ReduxOp) (f : BitVec 3) (d : LDst) (a : BitVec 8) (c : Ctx) (u : State) : State :=
  let flagged := orFlags (writeAll u c d (if f = 1 then 2 else 1) (reduxOut op f a c).1.1) c.gid (reduxOut op f a c).1.2
  if op = .fadd ∧ modeOf c.g 7 = 4 then setGenerator flagged c.gid (lowestLane c.act) (reduxOut op f a c).2 else flagged

theorem redux_effect (hd : Hdr) {op : ReduxOp} (f : BitVec 3) (d : LDst) (a : BitVec 8) (s : State) (c : Ctx) (hfloat : reduxIsFloat op = true) :
    ∃ body, exec (.redux hd op f d a) s = .next (runInstr (.redux hd op f d a) (actsAlways (.redux hd op f d a)) body s)
      ∧ ∀ u, body c u = .done (reduxEffect op f d a c u) := by
  refine ⟨_, rfl, fun u => ?_⟩
  have hdraws : (op == .fadd && modeOf c.g 7 == 4) = decide (op = .fadd ∧ modeOf c.g 7 = 4) := by simp [Bool.beq_eq_decide_eq]
  simp only [hfloat, hdraws, reduxEffect, reduxOut, decide_eq_true_eq, List.map_map, Function.comp_def, if_true]

/-- The result of REDUX on floats stands with its flags and its generator, and the splits are as they were. -/
theorem reduxEffect_group {op : ReduxOp} {f : BitVec 3} {d : LDst} {a : BitVec 8} {c : Ctx} {u : State} (hg : u.groups.get? c.gid = some c.g) :
    ∃ h, (reduxEffect op f d a c u).groups.get? c.gid = some h ∧ h.splits = c.g.splits ∧ h.fflags = c.g.fflags ||| (reduxOut op f a c).1.2
      ∧ h.generator (lowestLane c.act) = (reduxOut op f a c).2 ∧ HoldsIn h c.act d (if f = 1 then 2 else 1) (reduxOut op f a c).1.1 := by
  obtain ⟨h, hh, hsplits, hflags, hgen, hholds⟩ := writeAll_group hg d (if f = 1 then 2 else 1) (reduxOut op f a c).1.1
  refine ⟨_, flagged_group (P := op = .fadd ∧ modeOf c.g 7 = 4) hh (lowestLane c.act) (reduxOut op f a c).1.2 (reduxOut op f a c).2,
    hsplits, congrArg (· ||| _) hflags, ?_, ?_⟩
  · rw [Group.generator, hgen]
    split
    · simp [Map.getD_put]
    · next hkeep => exact (if_neg hkeep).symm
  · exact holdsIn_congr (h := h) (by rfl) (by rfl) hholds

theorem reduxClaim_completes {i : Instr} {s : State} {ok : State → Bool} (hok : reduxClaim i s = some ok) :
    ∃ t, exec i s = .next t ∧ ok t = true := by
  unfold reduxClaim at hok
  split at hok
  · next hd op f d a c e =>
    cases hfloat : reduxIsFloat op with
    | false => simp [hfloat] at hok
    | true =>
      simp only [hfloat, Bool.not_true, Bool.false_eq_true, if_false] at hok
      cases hok
      obtain ⟨body, hx, hb⟩ := redux_effect hd f d a s c hfloat
      obtain ⟨hg, hsp, hpc⟩ := entered_group e
      obtain ⟨h, hh, hsplits, hflags, hgen, hholds⟩ := reduxEffect_group (op := op) (f := f) (d := d) (a := a) hg
      refine ⟨_, hx, ?_⟩
      rw [runInstr_done e (hb _)]
      simp only [Bool.and_eq_true, beq_iff_eq]
      exact ⟨⟨⟨(done_ldstIn ..).trans (ldstIn_of_holds hh hholds),
        (done_fflags ..).trans ((congrArg (Option.map _) hh).trans (congrArg some hflags))⟩,
        (done_get _ c _ _ c.gid (·.generator (lowestLane c.act)) fun _ => rfl).trans ((congrArg (Option.map _) hh).trans (congrArg some hgen))⟩,
        done_wentOn _ _ _ (by rw [splitIn, hh, Option.bind_some, hsplits, hsp]) hpc⟩
  · cases hok

/-- Settles O6: each lane's value is that of its rule over the lanes of G, and one result for all lanes stands in each of them. -/
theorem laneResults : Obligations.LaneResults := by
  intro claim hclaim i s ok hok
  rcases List.mem_pair.mp hclaim with rfl | rfl
  · exact lanesClaim_completes hok
  · exact reduxClaim_completes hok

end Sys2Proof.Claims
end

/-! ## Threads leave and trap -/

section
namespace Sys2Proof.Claims

open Sys2Proof.Machine

/-! ### TRAP (R119, R281) -/

/-- A group in no pair is no shadow. -/
theorem not_isShadow_of_alone {s : State} {c : Ctx} (h : roleOf s c = .alone) : isShadow s c.gid c.g = false := by
  have hp := not_isPrimary_of_alone h
  cases hs : isShadow s c.gid c.g with
  | false => rfl
  | true => simp [roleOf, hp, hs] at h

/-- Lanes without a task are neither speculative nor on the frontier (R339). -/
theorem laneTask_of_noTask {s : State} {c : Ctx} {m : LaneMask} (h : noTask c m = true) :
    anySpec s c.g m = false ∧ (lanesOf m).find? (laneFrontier s c.g) = none := by
  have hnone : ∀ l ∈ lanesOf m, taskOfLane s c.g l = none := fun l hl => by
    rw [taskOfLane, Option.isNone_iff_eq_none.mp (List.all_eq_true.mp h l hl)]
    rfl
  refine ⟨List.any_eq_false.mpr fun l hl => ?_, List.find?_eq_none.mpr fun l hl => ?_⟩
  · simp [laneSpec, hnone l hl]
  · simp [laneFrontier, hnone l hl]

/-- A fault of a group in no pair, level, task or handler, that waits for nothing: its split enters the handler (R281). -/
theorem takeFault_enters {s : State} {c : Ctx} (cause : Cause) (eval : Dword) (hg : s.groups.get? c.gid = some c.g)
    (hb : s.blocks.get? c.g.blk = some c.blk) (hsp : c.g.splits.get? c.si = some c.sp) (h : faultTaken s c = true) :
    takeFault s c cause eval c.act = s.setGroup c.gid (fun g => enterSplit g c.si false cause eval) := by
  simp only [faultTaken, Bool.and_eq_true, Bool.not_eq_true', beq_iff_eq, bne_iff_ne, List.isEmpty_iff] at h
  obtain ⟨⟨⟨⟨⟨halone, hresults⟩, hlevels⟩, htask⟩, hhandler⟩, htvec⟩ := h
  have hprimary := not_isPrimary_of_alone halone
  have hdepth : depthOf s c.g = 0 := by simp [depthOf, State.blockOf, hb, hlevels]
  obtain ⟨hspec, hfrontier⟩ := laneTask_of_noTask (s := s) htask
  have hprimary' : isPrimary (s.setGroup c.gid fun g => enterSplit g c.si false cause eval) c.gid c.g = false :=
    (isPrimary_congr c.gid rfl rfl rfl).trans hprimary
  have htvec' : (c.g.tvec == 0) = false := beq_eq_false_iff_ne.mpr htvec
  simp only [takeFault, hg, hresults, hprimary, not_isShadow_of_alone halone, takeFaultAt, hspec, hdepth, hfrontier, enterHandler, hhandler,
    htvec', hsp, hprimary', Nat.lt_irrefl, Bool.false_eq_true, false_and, if_false, Option.isNone_some, Bool.or_false]

theorem setGroup_get {s : State} {gid : Nat} {g : Group} (hg : s.groups.get? gid = some g) (f : Group → Group) :
    (s.setGroup gid f).groups.get? gid = some (f g) := by
  rw [State.setGroup_groups, Map.get?_modify_self, hg, Option.map_some]

/-- A split that has entered the handler shows what the handler reads of it (R281). -/
theorem enteredHandler_enterSplit {t : State} {c : Ctx} {cause : Cause} {eval : Dword} (hsp : c.g.splits.get? c.si = some c.sp) (hpc : c.pc = c.sp.pc)
    (hem : c.em = c.sp.em) (ht : t.groups.get? c.gid = some (enterSplit c.g c.si false cause eval)) : enteredHandler t c false cause.code eval = true := by
  simp only [enterSplit, hsp] at ht
  simp only [enteredHandler, groupHas, groupIn, pcIn, splitIn, ht, hpc, hem, Option.any_some, Option.bind_some, Map.get?_put_self, Option.map_some,
    beq_self_eq_true, Bool.true_and, Bool.and_true, List.all_eq_true, Bool.or_eq_true, beq_iff_eq]
  intro p hp
  by_cases hsi : p.1 = c.si
  · exact .inl hsi
  · exact .inr (List.contains_iff_mem.mpr (List.mem_map_of_mem (f := (·.2.uid)) (List.mem_filter.mpr ⟨hp, by simpa using hsi⟩)))

theorem trapClaim_completes {i : Instr} {s : State} {ok : State → Bool} (hok : trapClaim i s = some ok) : ∃ t, exec i s = .next t ∧ ok t = true := by
  unfold trapClaim at hok
  split at hok
  · next hd code a c e =>
    split at hok
    · next htaken =>
      cases hok
      obtain ⟨hg, hsp, hb, -, -, hpc, hem, -⟩ := ctxOf_some (readyCtx_some e).1
      have halone : roleOf s c = .alone := by
        simp only [faultTaken, Bool.and_eq_true, beq_iff_eq] at htaken
        exact htaken.1.1.1.1.1
      obtain ⟨body, hx, hbody⟩ : ∃ body, exec (.trap hd code a) s = .next (runInstr (.trap hd code a) (actsAlways (.trap hd code a)) body s)
          ∧ body c (entered (.trap hd code a) s c)
            = .fault (.trap code) (BitVec.ofNat 64 (srcScalar (entered (.trap hd code a) s c) c 0 a)) c.act := ⟨_, rfl, rfl⟩
      refine ⟨_, hx, ?_⟩
      rw [runInstr_fault e hbody, entered_of_alone halone rfl, takeFault_enters _ _ hg hb hsp htaken]
      exact enteredHandler_enterSplit (cause := .trap code) hsp hpc hem (setGroup_get hg _)
    · cases hok
  · cases hok

/-! ### What completion shows of a split -/

/-- A split after completion is what it was, but for its stall, its yield and since when it has been ready. -/
theorem finishIssue_splitIn {t : State} {c : Ctx} {i : Instr} {si : Nat} {q : Split} (hq : splitIn t c.gid si = some q) :
    ∃ r, splitIn (finishIssue t c i []) c.gid si = some r ∧ settledSplit r = settledSplit q := by
  obtain ⟨g, hg, hsp⟩ := Option.bind_eq_some_iff.mp hq
  obtain ⟨h, hh, hsettled⟩ := finishIssue_splits (i := i) hg
  have hget : (h.splits.get? si).map settledSplit = (g.splits.get? si).map settledSplit :=
    (Map.get?_mapVals h.splits (fun _ q => settledSplit q) si).symm.trans
      ((congrArg (Map.get? · si) hsettled).trans (Map.get?_mapVals g.splits (fun _ q => settledSplit q) si))
  rw [hsp, Option.map_some, Option.map_eq_some_iff] at hget
  rw [splitIn, hh, Option.bind_some]
  exact hget

/-! ### TRET (R287, R402) -/

/-- What TRET shows of the wait that its group entered the handler with: a wait that has ended meanwhile lies behind it. -/
def returnPast (g : Group) : Int :=
  match g.entry with
  | some (pc, _, some n) => if pc = g.epc then n else 0
  | _ => 0

/-- A wait kept at EPC goes on. -/
def returnPark (g : Group) : Option Park :=
  match g.entry with
  | some (pc, p, none) => if pc = g.epc then some p else none
  | _ => none

/-- TRET leaves the handler, its split back at EPC with the saved em and the kept wait. -/
theorem returnGroup_split {g : Group} {si : Nat} {sp : Split} (hsp : g.splits.get? si = some sp) :
    (returnGroup g si).handler = false ∧ (returnGroup g si).held = [] ∧ (returnGroup g si).splits.get? si
      = some { sp with pc := g.epc + BitVec.ofInt 55 (returnPast g), em := g.savedEm &&& splitLanes sp, park := returnPark g } := by
  unfold returnGroup returnPast returnPark
  rw [hsp]
  refine ⟨rfl, rfl, ?_⟩
  rcases g.entry with _ | ⟨pc, p, _ | n⟩
  · simp [pcPlus]
  · by_cases hpc : pc = g.epc <;> simp [hpc, pcPlus]
  · by_cases hpc : pc = g.epc <;> simp [hpc, pcPlus]

/-- A LOCK whose kept wait is dropped leaves of its group's own state but the results that it awaits (R402). -/
theorem dropKept_group {s : State} {gid : Nat} {g : Group} (hg : s.groups.get? gid = some g) :
    ∃ P, (dropKept s gid g).groups.get? gid = some { g with pend := P } := by
  unfold dropKept
  split
  · split
    · exact ⟨g.pend, hg⟩
    · exact ⟨_, setGroup_get hg _⟩
  · exact ⟨g.pend, hg⟩

/-- TRET of a group whose handler holds every other split returns. -/
theorem tret_effect {hd : Hdr} {s : State} {c : Ctx} (hhandler : c.g.handler = true)
    (hheld : c.g.splits.all (fun p => p.1 == c.si || c.g.held.contains p.2.uid) = true) :
    ∃ body, exec (.tret hd) s = .next (runInstr (.tret hd) (actsAlways (.tret hd)) body s)
      ∧ ∀ u, body c u = .jump ((dropKept u c.gid c.g).setGroup c.gid (fun g => returnGroup g c.si)) := by
  refine ⟨_, rfl, fun u => ?_⟩
  have hno : c.g.splits.any (fun p => p.1 != c.si && !c.g.held.contains p.2.uid) = false := by
    refine List.any_eq_false.mpr fun p hp => ?_
    rcases Bool.or_eq_true_iff.mp (List.all_eq_true.mp hheld p hp) with hsi | hin
    · simp [beq_iff_eq.mp hsi]
    · simp only [hin, Bool.not_true, Bool.and_false, Bool.false_eq_true, not_false_eq_true]
  simp only [hhandler, hno, Bool.not_true, Bool.false_eq_true, or_self, if_false]

theorem tretClaim_completes {i : Instr} {s : State} {ok : State → Bool} (hok : tretClaim i s = some ok) : ∃ t, exec i s = .next t ∧ ok t = true := by
  unfold tretClaim at hok
  split at hok
  · next hd c e =>
    split at hok
    · next hin =>
      cases hok
      obtain ⟨hhandler, hheld⟩ := Bool.and_eq_true_iff.mp hin
      obtain ⟨hg, hsp, -⟩ := entered_group e
      obtain ⟨body, hx, hbody⟩ := tret_effect (hd := hd) (s := s) hhandler hheld
      obtain ⟨P, hP⟩ := dropKept_group hg
      obtain ⟨hout, hfree, hback⟩ := returnGroup_split (g := { c.g with pend := P }) hsp
      have hu := setGroup_get hP (fun g => returnGroup g c.si)
      obtain ⟨q, hq, hshow⟩ := finishIssue_splitIn (i := .tret hd) (by rw [splitIn, hu, Option.bind_some]; exact hback)
      obtain ⟨h, hh, hsettled⟩ := get?_of_settled (finish_get _ c (.tret hd) c.gid) hu
      refine ⟨_, hx, ?_⟩
      rw [runInstr_jump e (hbody _)]
      have hfields : q.em = c.g.savedEm &&& splitLanes c.sp ∧ q.pc = c.g.epc + BitVec.ofInt 55 (returnPast c.g) ∧ q.park = returnPark c.g :=
        ⟨congrArg Split.em hshow, congrArg Split.pc hshow, congrArg Split.park hshow⟩
      obtain ⟨hem, hpc, hpark⟩ := hfields
      have hgroup : h.handler = false ∧ h.held = [] :=
        ⟨(congrArg Machine.Group.handler hsettled).trans hout, (congrArg Machine.Group.held hsettled).trans hfree⟩
      obtain ⟨hfreed, hempty⟩ := hgroup
      simp only [groupHas, groupIn, pcIn, hq, hh, Option.map_some, Option.any_some, Bool.and_eq_true, beq_iff_eq, Option.some.injEq,
        Bool.not_eq_true', List.isEmpty_iff]
      exact ⟨⟨⟨⟨hfreed, hempty⟩, hem⟩, hpc⟩, hpark⟩
    · cases hok
  · cases hok

/-! ### What leaves the blocks as they are -/

theorem forAll_blocks {α : Type} {l : List α} {s : State} {f : α → State → State} (hf : ∀ x t, (f x t).blocks = t.blocks) :
    (forAll l s f).blocks = s.blocks := forAll_keeps (fun t => t.blocks = s.blocks) l s f rfl fun x t h => (hf x t).trans h

theorem foldl_blocks {α : Type} {l : List α} {s : State} {f : State → α → State} (hf : ∀ t x, (f t x).blocks = t.blocks) :
    (l.foldl f s).blocks = s.blocks := forAll_blocks fun x t => hf t x

theorem writeBytes_blocks (s : State) (pa : Nat) (bs : List Byte) : (writeBytes s pa bs).blocks = s.blocks := (writeBytes_other s pa bs).2.2.1

theorem overwrite_blocks (s : State) (pa : Nat) (bs : List Byte) : (overwrite s pa bs).blocks = s.blocks := by
  unfold overwrite
  dsimp only
  split
  · exact writeBytes_blocks ..
  · exact writeBytes_blocks ..

theorem setCarry_blocks (s : State) (pa n : Nat) (c : List Nat) : (setCarry s pa n c).blocks = s.blocks := foldl_blocks fun _ _ => rfl

theorem noteStore_blocks (s : State) (pa n : Nat) (atomic : Bool) : (noteStore s pa n atomic).blocks = s.blocks := by
  unfold noteStore
  split
  · rfl
  · exact forAll_blocks fun l t => forAll_blocks fun d u => by split <;> rfl

theorem observeLanes_blocks (s : State) (gid : Nat) (m : LaneMask) (ws : List Nat) : (observeLanes s gid m ws).blocks = s.blocks :=
  foldl_blocks fun t l => by unfold observe; split <;> rfl

theorem dropLeases_blocks (s : State) (core : Option Nat) (ord : Ord) (scope : Nat) : (dropLeases s core ord scope).blocks = s.blocks := by
  unfold dropLeases
  split
  · rfl
  · split <;> rfl

theorem sendProbes_blocks (s : State) (pa n : Nat) : (sendProbes s pa n).blocks = s.blocks := forAll_blocks fun _ _ => by
  dsimp only
  split <;> rfl

/-! ### The ends of tasks (R349 to R351) -/

theorem endLane_blocks (s : State) (gid lane : Nat) : (endLane s gid lane).blocks = s.blocks := by
  have hone (u : State) (g : Nat) (f : Group → Group) : (cutCmps ((dropTokLane u g lane).setGroupKept g f) g lane f).blocks = u.blocks := rfl
  unfold endLane
  dsimp only
  refine (reapGroup_blocks ..).trans ?_
  split
  · exact (hone ..).trans (hone ..)
  · exact hone ..

theorem endTaskLane_blocks (s : State) (k : Task) : (endTaskLane s k).blocks = s.blocks := by
  unfold endTaskLane
  split
  · exact endLane_blocks ..
  · rfl

theorem dropTaskAccs_blocks (s : State) (t : Nat) : (dropTaskAccs s t).blocks = s.blocks := by
  unfold dropTaskAccs dropAccsOf
  exact forAll_blocks fun _ _ => rfl

theorem discardTask_blocks (s : State) (t : Nat) : (discardTask s t).blocks = s.blocks := by
  unfold discardTask
  split
  · rfl
  · exact (dropTaskAccs_blocks ..).trans (endTaskLane_blocks ..)

theorem abortTask_blocks (s : State) (t : Nat) : (abortTask s t).blocks = s.blocks := by
  unfold abortTask
  split
  · rfl
  · next k _ =>
    have hkids : (forAll (descendants s s.tasks.length t) (cutRound s t) fun d s => discardTask s d).blocks = s.blocks :=
      forAll_blocks fun _ _ => discardTask_blocks ..
    split
    · rfl
    · exact (dropTaskAccs_blocks ..).trans ((endTaskLane_blocks ..).trans hkids)

theorem poisonTask_blocks (s : State) (t : Nat) : (poisonTask s t).blocks = s.blocks := by
  unfold poisonTask
  refine forAll_blocks fun u v => ?_
  dsimp only
  split
  · rfl
  · exact discardTask_blocks ..

theorem deferFault_blocks (s : State) (gid : Nat) (g : Group) (lanes : LaneMask) : (deferFault s gid g lanes).blocks = s.blocks := by
  unfold deferFault
  refine forAll_blocks fun l t => ?_
  split
  · rfl
  · split
    · rfl
    · exact endTaskLane_blocks ..

/-! ### Applied writes (R191, R203) -/

/-- A BARW wait that ends leaves the blocks as they are (R192). -/
theorem wakeBarriers_blocks (s : State) (pa n : Nat) : (wakeBarriers s pa n).blocks = s.blocks := by
  unfold wakeBarriers
  split
  · rfl
  · refine forAll_blocks fun p t => ?_
    have hend (m : LaneMask) (k : Park) (u : State) : (match k with
        | .barw w ph scope =>
          if overlaps w 8 pa n && phaseOf u w != ph then
            wakeGroup (dropLeases (observeLanes u p.1 m (carryOf u w 8)) (some (coreOfGroup p.1)) .acquire scope) p.1 k 3
          else u
        | _ => u).blocks = u.blocks := by
      cases k
      case barw w ph scope =>
        dsimp only
        split
        · exact (dropLeases_blocks ..).trans (observeLanes_blocks ..)
        · rfl
      all_goals rfl
    dsimp only
    refine (forAll_blocks fun q u => forAll_blocks fun k v => hend _ k v).trans ?_
    split
    · next k _ => exact hend _ k t
    · rfl

theorem putApplied_blocks (s : State) (by_ : Committer) (pa : Nat) (bs : List Byte) (carry : List Nat) (atomic : Bool) :
    (putApplied s by_ pa bs carry atomic).blocks = s.blocks :=
  calc (putApplied s by_ pa bs carry atomic).blocks
    _ = _ := wakeBarriers_blocks ..
    _ = _ := forAll_blocks fun _ _ => abortTask_blocks ..
    _ = _ := noteStore_blocks ..
    _ = _ := setCarry_blocks ..
    _ = s.blocks := overwrite_blocks ..

/-! ### What counts no exit (R191) -/

/-- The same blocks have counted the same exits. -/
structure SameExits (B B' : Map Block) : Prop where
  exited : ∀ k, (B'.get? k).map (·.exited) = (B.get? k).map (·.exited)

def ExitsAs (s₀ t : State) : Prop := SameExits s₀.blocks t.blocks

section Exits
variable {s₀ s : State}

theorem ExitsAs.refl (s : State) : ExitsAs s s := ⟨fun _ => rfl⟩

theorem ExitsAs.of_blocks {t : State} (h : ExitsAs s₀ s) (hb : t.blocks = s.blocks) : ExitsAs s₀ t := ⟨fun k => hb ▸ h.exited k⟩

theorem exits_ite {P : Prop} [Decidable P] {a b : State} (ha : ExitsAs s₀ a) (hb : ExitsAs s₀ b) : ExitsAs s₀ (if P then a else b) := by
  split
  · exact ha
  · exact hb

theorem exits_forAll {α : Type} {l : List α} {f : α → State → State} (h : ExitsAs s₀ s) (hf : ∀ x t, ExitsAs s₀ t → ExitsAs s₀ (f x t)) :
    ExitsAs s₀ (forAll l s f) := forAll_keeps (ExitsAs s₀) l s f h hf

theorem exits_setBlock (h : ExitsAs s₀ s) (b : Nat) {f : Block → Block} (hf : ∀ x, (f x).exited = x.exited := by intro; rfl) :
    ExitsAs s₀ (s.setBlock b f) := by
  refine ⟨fun k => ?_⟩
  rw [State.setBlock_blocks, Map.get?_modify, ← h.exited k]
  split
  · rw [Option.map_map]
    exact congrArg (Option.map · _) (funext hf)
  · rfl

theorem exits_putApplied (h : ExitsAs s₀ s) (by_ : Committer) (pa : Nat) (bs : List Byte) (carry : List Nat) (atomic : Bool) :
    ExitsAs s₀ (putApplied s by_ pa bs carry atomic) := h.of_blocks (putApplied_blocks ..)

/-- A thread's exit changes barrier words and the phases of barriers; it is counted elsewhere (R191). -/
theorem exits_barrierExit (h : ExitsAs s₀ s) (blk thread : Nat) : ExitsAs s₀ (barrierExit s blk thread) := by
  obtain ⟨read, hread⟩ : ∃ f, readBar = f := ⟨_, rfl⟩
  unfold barrierExit
  rw [hread]
  refine exits_forAll h fun i t ht => ?_
  split
  · exact ht
  · split
    · refine exits_ite ht ?_
      generalize read t _ = w
      dsimp only
      refine exits_ite ht ?_
      exact exits_putApplied (exits_ite (exits_setBlock ht _) ht) ..
    · exact ht

/-! ### Faults and failures (R281 to R284, R313) -/

theorem exits_terminate (h : ExitsAs s₀ s) (blk : Nat) (c : Cause) (pc : CodeAddr) : ExitsAs s₀ (terminate s blk c pc) := by
  unfold terminate
  split
  · exact h
  · exact exits_ite h (exits_setBlock h blk (f := fun b => { b with terminated := some c, gather := none, failing := none }))

theorem exits_failLevel (h : ExitsAs s₀ s) (blk d : Nat) (engine : Bool) (code : BitVec 8) (value : Dword) (pc : CodeAddr) (group : Nat) :
    ExitsAs s₀ (failLevel s blk d engine code value pc group) := by
  unfold failLevel
  split
  · exact h
  · exact exits_ite (exits_setBlock h blk (f := fun b => { b with failing := some _, gather := none })) h

theorem exits_enterHandler (h : ExitsAs s₀ s) (gid si : Nat) (engine : Bool) (c : Cause) (eval : Dword) :
    ExitsAs s₀ (enterHandler s gid si engine c eval) := by
  unfold enterHandler
  split
  · exact h
  · exact exits_ite (exits_terminate h ..) (exits_ite h h)

theorem exits_takeFaultAt (h : ExitsAs s₀ s) (gid si : Nat) (engine : Bool) (c : Cause) (eval : Dword) (lanes : LaneMask) :
    ExitsAs s₀ (takeFaultAt s gid si engine c eval lanes) := by
  unfold takeFaultAt
  split
  · exact h
  · refine exits_ite (h.of_blocks (deferFault_blocks ..)) (exits_ite (exits_failLevel h ..) ?_)
    split
    · split
      · exact h.of_blocks (poisonTask_blocks ..)
      · exact h
    · exact exits_enterHandler h ..

/-! ### Gatherings that are complete (R307 to R326) -/

theorem exits_endGather (h : ExitsAs s₀ s) (blk : Nat) (pc : CodeAddr) : ExitsAs s₀ (endGather s blk pc) := by
  unfold endGather
  refine exits_setBlock ?_ blk
  exact exits_forAll h fun p t ht => ht.of_blocks (observeLanes_blocks t p.1 _ _)

theorem spillOut_blocks (s : State) (blk n : Nat) (spill : Bool) : (spillOut s blk n spill).blocks = s.blocks := by
  obtain ⟨O, hO⟩ := spillOut_eq s blk n spill
  rw [hO]

theorem exits_recordGroups {t : State} (h : ExitsAs s₀ s) (blk : Nat) {gs : List (Nat × Group)} (e : recordGroups s blk gs = some t) :
    ExitsAs s₀ t := by
  induction gs generalizing s with
  | nil => cases e; exact h
  | cons p l ih =>
    unfold recordGroups at e
    split at e
    · cases e
    · exact ih (exits_setBlock (h.of_blocks (spillOut_blocks ..)) blk) e

theorem exits_openLevel (h : ExitsAs s₀ s) (blk : Nat) (pc : CodeAddr) (n limit : Nat) (conv : Option Nat) (first : Nat) (test : CodeAddr) :
    ExitsAs s₀ (openLevel s blk pc n limit conv first test) := by
  unfold openLevel
  extract_lets u gs t
  have hu : ExitsAs s₀ u := exits_endGather h blk pc
  split
  · next v e => exact exits_forAll (exits_recordGroups (exits_setBlock hu blk) blk e) fun _ _ ht => ht
  · refine exits_forAll hu fun p v hv => exits_ite hv ?_
    split
    · exact exits_takeFaultAt hv ..
    · exact hv

theorem exits_acceptLevel (h : ExitsAs s₀ s) (blk : Nat) : ExitsAs s₀ (acceptLevel s blk) := by
  unfold acceptLevel
  split
  · exact h
  · refine exits_ite ?_ (exits_setBlock h blk)
    unfold acceptInner
    split
    · exact h
    · dsimp only
      split
      · next l up rest _ => exact exits_setBlock h blk (f := fun b => { b with levels := (up.merge l :: rest).reverse })
      · exact h

theorem exits_updateConv (h : ExitsAs s₀ s) (word : Nat) (f : ConvWord → ConvWord) : ExitsAs s₀ (updateConv s word f) := exits_putApplied h ..

theorem exits_acceptGathered (h : ExitsAs s₀ s) (blk : Nat) : ExitsAs s₀ (acceptGathered s blk) := by
  unfold acceptGathered
  split
  · exact h
  · split
    · exact exits_acceptLevel h blk
    · exact exits_updateConv (s := setConv (s.setBlock blk _) _ _) (exits_setBlock h blk) ..

theorem exits_closeConv (h : ExitsAs s₀ s) (word : Nat) : ExitsAs s₀ (closeConv s word) := by
  unfold closeConv
  split
  · exact h
  · refine exits_ite h (exits_updateConv ?_ ..)
    exact h

theorem exits_convRestored (h : ExitsAs s₀ s) (word blk : Nat) : ExitsAs s₀ (convRestored s word blk) := by
  unfold convRestored
  refine exits_ite (exits_updateConv ?_ ..) h
  exact h

theorem exits_leaveConv (h : ExitsAs s₀ s) (word blk : Nat) : ExitsAs s₀ (leaveConv s word blk) := by
  unfold leaveConv
  refine exits_ite (exits_closeConv (s := setConv s word _) h word) ?_
  extract_lets was out t u
  have hu : ExitsAs s₀ u := exits_updateConv (s := t) h ..
  refine exits_ite (exits_updateConv ?_ ..) (exits_convRestored hu ..)
  exact hu

theorem exits_leaveGathered (h : ExitsAs s₀ s) (blk word : Nat) (pc : CodeAddr) : ExitsAs s₀ (leaveGathered s blk word pc) := by
  unfold leaveGathered
  split
  · exact h
  · exact exits_ite (exits_failLevel h ..) (exits_leaveConv (exits_setBlock h blk) ..)

theorem exits_settleGather (h : ExitsAs s₀ s) (blk : Nat) : ExitsAs s₀ (settleGather s blk) := by
  unfold settleGather
  split
  · exact h
  · split
    · exact h
    · next g _ =>
      refine exits_ite h (exits_ite ?_ ?_)
      · cases gatherWord _ g.kind with
        | none => exact h
        | some w => exact h.of_blocks (sendProbes_blocks ..)
      · split
        · exact exits_openLevel h ..
        · exact exits_acceptGathered (exits_endGather h ..) _
        · exact exits_setBlock (exits_endGather h ..) _
        · exact exits_leaveGathered (exits_endGather h ..) ..

end Exits

/-! ### EXIT (R117, R191) -/

/-- A thread that exits is counted in its block, which forgets no other. -/
theorem exitThread_counts {s : State} {g : Group} {lane : Nat} {b : Block} (hb : s.blocks.get? g.blk = some b) (htask : g.tasks.get? lane = none) :
    ∃ d, (exitThread s g lane).blocks.get? g.blk = some d ∧ (∀ x ∈ b.exited, x ∈ d.exited) ∧ threadNumber g lane ∈ d.exited := by
  have hnote : ((noteExit s g lane).blocks.get? g.blk).map (·.exited) = some (b.exited ++ [threadNumber g lane]).eraseDups := by
    simp only [noteExit, State.setBlock_blocks, Map.get?_modify_self, hb, Option.map_some]
  have hexit := ((exits_barrierExit (ExitsAs.refl (noteExit s g lane)) g.blk (originThread g lane)).exited g.blk).trans hnote
  obtain ⟨d, hd, hexited⟩ := Option.map_eq_some_iff.mp hexit
  refine ⟨d, by rw [exitThread, htask]; exact hd, fun x hx => ?_, ?_⟩
  · simp [hexited, hx]
  · simp [hexited]

/-- The acting lanes' threads exit (R117). -/
def threadsExit (s : State) (c : Ctx) : State := forAll (lanesOf c.act) s fun l s => exitThread s c.g l

/-- Threads that exit one after another are all counted. -/
theorem exitThreads_count {g : Group} {ls : List Nat} (htask : ∀ l ∈ ls, g.tasks.get? l = none) {s : State} {b : Block}
    (hb : s.blocks.get? g.blk = some b) :
    ∃ d, (forAll ls s fun l s => exitThread s g l).blocks.get? g.blk = some d ∧ (∀ x ∈ b.exited, x ∈ d.exited)
      ∧ ∀ l ∈ ls, threadNumber g l ∈ d.exited := by
  induction ls generalizing s b with
  | nil => exact ⟨b, hb, fun _ hx => hx, fun _ hl => by cases hl⟩
  | cons l t ih =>
    obtain ⟨m, hm, hkeep, hin⟩ := exitThread_counts hb (htask l List.mem_cons_self)
    obtain ⟨d, hd, hkeep', hin'⟩ := ih (fun k hk => htask k (List.mem_cons_of_mem _ hk)) hm
    exact ⟨d, hd, fun x hx => hkeep' x (hkeep x hx), List.forall_mem_cons.mpr ⟨hkeep' _ hin, hin'⟩⟩

theorem threadsExit_counts {s : State} {c : Ctx} (hb : s.blocks.get? c.g.blk = some c.blk) (htask : noTask c c.act = true) :
    ∃ d, (threadsExit s c).blocks.get? c.g.blk = some d ∧ ∀ l ∈ lanesOf c.act, threadNumber c.g l ∈ d.exited := by
  obtain ⟨d, hd, -, hin⟩ := exitThreads_count (fun l hl => Option.isNone_iff_eq_none.mp (List.all_eq_true.mp htask l hl)) hb
  exact ⟨d, hd, hin⟩

/-- Where no phase of a named barrier is under way an exit reaches no barrier word. -/
theorem barrierExit_of_noBars {s : State} {blk thread : Nat} {b : Block} (hb : s.blocks.get? blk = some b) (hbars : b.bars = []) :
    barrierExit s blk thread = s := by
  obtain ⟨read, hread⟩ : ∃ f, readBar = f := ⟨_, rfl⟩
  unfold barrierExit
  rw [hread]
  refine forAll_keeps (fun u => u = s) _ s _ rfl fun i u hu => ?_
  subst hu
  simp only [hb, hbars]
  rfl

/-- Exits of threads in a block with neither a gathering nor a phase of a named barrier: groups stay, and the block waits for nothing still. -/
theorem threadsExit_quiet {s : State} {c : Ctx} (hb : s.blocks.get? c.g.blk = some c.blk) (hgather : c.blk.gather = none) (hbars : c.blk.bars = []) :
    (threadsExit s c).groups = s.groups ∧ ∃ d, (threadsExit s c).blocks.get? c.g.blk = some d ∧ d.gather = none ∧ d.bars = [] := by
  refine forAll_keeps (fun u => u.groups = s.groups ∧ ∃ d, u.blocks.get? c.g.blk = some d ∧ d.gather = none ∧ d.bars = []) _ s _
    ⟨rfl, c.blk, hb, hgather, hbars⟩ fun l u hu => ?_
  obtain ⟨hgroups, d, hd, hnone, hempty⟩ := hu
  have hnote : (noteExit u c.g l).blocks.get? c.g.blk = some { d with exited := (d.exited ++ [threadNumber c.g l]).eraseDups } := by
    simp only [noteExit, State.setBlock_blocks, Map.get?_modify_self, hd, Option.map_some]
  unfold exitThread
  split
  · exact ⟨hgroups, d, hd, hnone, hempty⟩
  · rw [barrierExit_of_noBars hnote hempty]
    exact ⟨hgroups, _, hnote, hnone, hempty⟩

theorem settleGather_of_none {t : State} {blk : Nat} {b : Block} (hb : t.blocks.get? blk = some b) (hgather : b.gather = none) :
    settleGather t blk = t := by
  simp only [settleGather, hb, hgather]

/-- The lanes leave their split, unless their exit completes a gathering or a phase of a named barrier. -/
theorem lanesLeft_exit {s : State} {c : Ctx} {i : Instr} (hg : s.groups.get? c.gid = some c.g) (hsp : c.g.splits.get? c.si = some c.sp)
    (hb : s.blocks.get? c.g.blk = some c.blk) (hpc : c.pc = c.sp.pc) (hem : c.em = c.sp.em) :
    lanesLeft (finishIssue (lanesGo (threadsExit s c) c) c i []) c = true := by
  by_cases hquiet : c.blk.gather = none ∧ c.blk.bars = []
  · obtain ⟨hgroups, d, hd, hnone, -⟩ := threadsExit_quiet hb hquiet.1 hquiet.2
    refine lanesLeft_of_leave (t := threadsExit s c) (by rw [hgroups]; exact hg) hsp hpc hem ?_
    exact settleGather_of_none (by rw [lanesLeave_blocks, advance_blocks]; exact hd) hnone
  · simp only [lanesLeft, Bool.or_eq_true]
    refine .inl ?_
    cases hgather : c.blk.gather with
    | some g => simp
    | none =>
      cases hbars : c.blk.bars with
      | cons p t => simp
      | nil => exact absurd ⟨hgather, hbars⟩ hquiet

/-- The threads of lanes that have left stand counted in the block. -/
theorem exited_exit {s : State} {c : Ctx} {i : Instr} (hb : s.blocks.get? c.g.blk = some c.blk) (htask : noTask c c.act = true) :
    (lanesOf c.act).all (fun l => blockHas (finishIssue (lanesGo (threadsExit s c) c) c i []) c.g.blk
      (fun b => b.exited.contains (threadNumber c.g l))) = true := by
  obtain ⟨d, hd, hin⟩ := threadsExit_counts hb htask
  have hleave : ExitsAs (threadsExit s c) (lanesLeave (advance (threadsExit s c) c 3) c.gid c.si c.act) :=
    (ExitsAs.refl _).of_blocks (by rw [lanesLeave_blocks, advance_blocks])
  have hgo := (exits_settleGather hleave c.g.blk).exited c.g.blk
  rw [hd] at hgo
  obtain ⟨b, hb', hexited⟩ := Option.map_eq_some_iff.mp hgo
  refine List.all_eq_true.mpr fun l hl => ?_
  rw [blockHas, finishIssue_blocks, lanesGo, hb', Option.any_some, hexited]
  exact List.contains_iff_mem.mpr (hin l hl)

/-- A split in one part that waits at its instruction shows that wait there (R41). -/
theorem parkHere_shows {s : State} {c : Ctx} {i : Instr} (hg : s.groups.get? c.gid = some c.g) (hsp : c.g.splits.get? c.si = some c.sp)
    (hone : onePart c = true) (k : Park) :
    (splitIn (finishIssue (parkHere s c k) c i []) c.gid c.si).map (fun q => (q.park, q.pc)) = some (some k, c.sp.pc) := by
  have hq : splitIn (parkHere s c k) c.gid c.si = some { c.sp with park := some k } := by
    have hparts : (c.sp.parts.isEmpty && c.sp.stack.isEmpty) = true := hone
    simp only [splitIn, parkHere, setSplit, setGroup_get hg, Option.bind_some, Map.get?_modify_self, hsp, Option.map_some, Split.parkAs, hparts, if_true]
  obtain ⟨r, hr, hsettled⟩ := finishIssue_splitIn (i := i) hq
  have hpark : r.park = some k := congrArg Split.park hsettled
  have hpc : r.pc = c.sp.pc := (congrArg Split.pc hsettled :)
  rw [hr, Option.map_some, hpark, hpc]

/-- EXIT outside levels and tasks takes place once for a pair (R359). -/
theorem exit_effect {hd : Hdr} {s : State} {c : Ctx} (hlevels : c.blk.levels = []) (htask : noTask c c.act = true) :
    ∃ body, exec (.exit hd) s = .next (runInstr (.exit hd) (actsAlways (.exit hd)) body s)
      ∧ ∀ u, body c u = together u c 4 [] [] (fun c s =>
          if endsGroup c.g c.sp c.act ∧ commandsLeft s c.gid then .jump (parkHere s c .exit) else .jump (lanesGo (threadsExit s c) c)) goAlike := by
  refine ⟨_, rfl, fun u => ?_⟩
  have hno : (lanesOf c.act).any (fun l => (c.g.tasks.get? l).isSome) = false :=
    List.any_eq_false.mpr fun l hl => by simp [Option.isNone_iff_eq_none.mp (List.all_eq_true.mp htask l hl)]
  simp only [hlevels, hno, List.length_nil, Nat.lt_irrefl, Bool.false_eq_true, or_self, if_false]
  rfl

theorem exitClaim_completes {i : Instr} {s : State} {ok : State → Bool} (hok : exitClaim i s = some ok) : ∃ t, exec i s = .next t ∧ ok t = true := by
  unfold exitClaim at hok
  split at hok
  · next hd c e =>
    obtain ⟨hg, hsp, hb, -, -, hpc, hem, -⟩ := ctxOf_some (readyCtx_some e).1
    have hrole := roleOf_entered (i := .exit hd) (s := s) (c := c) rfl
    split at hok
    · cases hok
    · next hfit =>
      simp only [Bool.or_eq_true, Bool.not_eq_true', not_or, Bool.not_eq_false, List.isEmpty_iff] at hfit
      obtain ⟨hlevels, htask⟩ := hfit
      obtain ⟨body, hx, hbody⟩ := exit_effect (hd := hd) (s := s) hlevels htask
      have hbody := hbody (entered (.exit hd) s c)
      split at hok
      · next halone =>
        have hentered := entered_of_alone (i := .exit hd) halone rfl
        rw [together, hrole, halone, hentered] at hbody
        refine ⟨_, hx, ?_⟩
        split at hok
        · next hwait =>
          cases hok
          simp only [Bool.and_eq_true] at hwait
          rw [runInstr_jump e (by rw [hentered, hbody]; exact if_pos hwait), Bool.or_eq_true, Bool.not_eq_true', beq_iff_eq]
          cases hone : onePart c with
          | false => exact .inl rfl
          | true => exact .inr (by rw [hpc]; exact parkHere_shows hg hsp hone .exit)
        · next hgo =>
          cases hok
          simp only [Bool.and_eq_true] at hgo
          rw [runInstr_jump e (by rw [hentered, hbody]; exact if_neg hgo)]
          exact Bool.and_eq_true_iff.mpr ⟨exited_exit hb htask, lanesLeft_exit hg hsp hb hpc hem⟩
      · next hprimary =>
        cases hok
        rw [together, hrole, hprimary] at hbody
        refine ⟨_, hx, ?_⟩
        rw [runInstr_done e hbody]
        obtain ⟨hg', -, -⟩ := entered_group e
        exact Bool.and_eq_true_iff.mpr ⟨presentedIn_present .., done_wentOn _ _ _ (by rw [splitIn]; exact hg' ▸ hsp) hpc⟩
      · cases hok
  · cases hok

/-- Settles O8: the lanes of an EXIT are counted and leave, a TRAP enters the handler, and a TRET goes back with the wait kept. -/
theorem threadsLeaveAndTrap : Obligations.ThreadsLeaveAndTrap := by
  intro claim hclaim i s ok hok
  simp only [List.mem_cons, List.not_mem_nil, or_false] at hclaim
  rcases hclaim with rfl | rfl | rfl
  · exact exitClaim_completes hok
  · exact trapClaim_completes hok
  · exact tretClaim_completes hok

end Sys2Proof.Claims
end
